-- ==== Sys2Proof/Word.lean ====
section
/-! DEFINITION. The word types of the FN-1640 model: R7 (little-endian multi-byte values), R9 (32-bit set-up registers). -/

namespace Sys2Proof

/-- One byte. -/
abbrev Byte := BitVec 8
/-- A 32-bit set-up register value (R9). -/
abbrev Word := BitVec 32
/-- A 64-bit quantity: a scratchpad word (R68), a page entry (R125), an address. -/
abbrev DWord := BitVec 64

end Sys2Proof
end

