-- ==== Sys2Proof/Config.lean ====
section
/-! DEFINITION. The free values of the model: what the manual leaves open and the machine produces all the same. Each is an
opaque constant, so that no proof can lean on a value of it. -/

namespace Sys2Proof.Config

/-- The bit pattern of a NaN result (R26, R156: a NaN results, its payload is not stated). Applied to a tag of the
operation and two operand words, since results are a function of the inputs (R42). Log entry 10. -/
opaque nanBits : Nat → Nat → Nat → Nat

/-- Which result within the stated error bound a special function takes (R114, R156). Applied to the function's opcode
and the operand bits. Log entry 11. -/
opaque sfuPick : Nat → Nat → Nat

/-- The outcome of decoding a SEC-DED word with three or more flipped bits (R318 binds one and two only), and whether a
double flip produces the poison syndrome (R84, R319). Applied to the flip mask. Log entry 13. -/
opaque eccOutcome : Nat → Nat

/-- The data a SEC-DED decoder delivers after three or more flips, when it delivers any. Log entry 13. -/
opaque eccData : Nat → Nat → Nat

/-- The value stored where a conversion result does not fit its format and the manual states no result. Log entry 14. -/
opaque cvtOpen : Nat → Nat → Nat

/-- Bank [21:18] and row [17:0] of a near-memory granule: the manual gives the channel of an address (R180), not its bank
and row. Log entry 17. -/
opaque nmBankRow : Nat → Nat

/-- The order in which RSUM adds its elements (R155 states none): which elements the next addition takes. Log entry 18. -/
opaque sumPick : Nat → Nat → Nat

/-- A fresh free value for each use of the state's counter: nonces, signatures, unpredictable payloads. Log entry 15. -/
opaque fresh : Nat → Nat

/-- Entries of the scratchpad fuse map written at manufacture, in the form of R92 (R91). Log entry 25. -/
opaque fuseMap : List Word

/-- Words fixed for one chip at manufacture, by register offset (R383, R386, R389). Log entry 25. -/
opaque fuse : Nat → Word

/-- The weight term of R217, in ns, of a layer that has weights and no source to stream them from: the manual states no
prediction there. Applied to the root and the layer. Log entry 37. -/
opaque costOpen : Nat → Nat → Nat

/-- Where firmware keeps its record in a window of another device (R259–R261, R359): device, kind of record, number of the record
of that kind; in units of 64 bytes. -/
opaque headSlot : Nat → Nat → Nat → Nat

end Sys2Proof.Config
end

