-- ==== Sys2Proof/Machine/Bits.lean ====
section
/-! DEFINITION. Bit fields, little-endian byte lists and saturating counts (R7, R45), used by every block. -/

namespace Sys2Proof.Machine

/-- Bits `[hi:lo]` of a natural number, as the manual's field maps write them (R7). -/
def natBits (w hi lo : Nat) : Nat := (w >>> lo) % 2 ^ (hi + 1 - lo)

/-- Bit `i` of a natural number. -/
def natBit (w i : Nat) : Bool := w.testBit i

/-- Bits `[hi:lo]` of a register. -/
def bits {n : Nat} (w : BitVec n) (hi lo : Nat) : Nat := natBits w.toNat hi lo

/-- Bit `i` of a register. -/
def flag {n : Nat} (w : BitVec n) (i : Nat) : Bool := w.getLsbD i

/-- A register with bits `[hi:lo]` replaced by `v`. -/
def setBits {n : Nat} (w : BitVec n) (hi lo v : Nat) : BitVec n :=
  (w &&& ~~~(BitVec.ofNat n ((2 ^ (hi + 1 - lo) - 1) <<< lo))) ||| BitVec.ofNat n ((v % 2 ^ (hi + 1 - lo)) <<< lo)

/-- A register with bit `i` set to `b`. -/
def setFlag {n : Nat} (w : BitVec n) (i : Nat) (b : Bool) : BitVec n := setBits w i i b.toNat

/-- One-bit mask, used to set W1C flags. -/
def bitMask (i : Nat) : Word := BitVec.ofNat 32 (1 <<< i)

/-- A 32-bit counter that stops at 0xFFFF_FFFF (R45). -/
def satAdd32 (w : Word) (k : Nat) : Word := BitVec.ofNat 32 (min (w.toNat + k) 0xFFFFFFFF)

/-- A 16-bit count that stops at 0xFFFF. -/
def satAdd16 (a k : Nat) : Nat := min (a + k) 0xFFFF

/-- Sign extension of the low `n` bits of `v`. -/
def signExt (n v : Nat) : Int := if v.testBit (n - 1) then (v : Int) - (2 ^ n : Nat) else v

/-- Rounded-up quotient. -/
def ceilDiv (a b : Nat) : Nat := (a + b - 1) / b

/-- The little-endian value of a byte list (R7). -/
def leNat : List Byte → Nat
  | [] => 0
  | b :: t => b.toNat + 256 * leNat t

/-- The low `n` bytes of `v`, little-endian (R7). -/
def leBytes : Nat → Nat → List Byte
  | 0, _ => []
  | n + 1, v => BitVec.ofNat 8 v :: leBytes n (v / 256)

/-- Little-endian 32-bit words of a byte list. -/
def leWords : List Byte → List Word
  | a :: b :: c :: d :: t => BitVec.ofNat 32 (leNat [a, b, c, d]) :: leWords t
  | _ => []

/-- The bytes of 32-bit words, little-endian. -/
def wordsBytes (ws : List Word) : List Byte := ws.flatMap fun w => leBytes 4 w.toNat

/-- `k` bytes of a list from byte `i` on. -/
def slice {α : Type} (l : List α) (i k : Nat) : List α := (l.drop i).take k

/-- The little-endian field of `k` bytes at byte `i` of a record. -/
def leField (l : List Byte) (i k : Nat) : Nat := leNat (slice l i k)

/-- How many bits of a mask are set. -/
def popCount {n : Nat} (w : BitVec n) : Nat := (List.range n).countP fun i => w.getLsbD i

/-- The first `k < n` that satisfies `p`. -/
def firstBelow (n : Nat) (p : Nat → Bool) : Option Nat := (List.range n).find? p

/-- Replace element `i` of a list. -/
def listSet {α : Type} (l : List α) (i : Nat) (a : α) : List α := l.set i a

/-- Remove the first element that satisfies `p`. -/
def removeFirst {α : Type} (p : α → Bool) : List α → List α
  | [] => []
  | a :: t => if p a then t else a :: removeFirst p t

/-- Change every element that satisfies `p`. -/
def mapIf {α : Type} (p : α → Bool) (f : α → α) (l : List α) : List α := l.map fun a => if p a then f a else a

end Sys2Proof.Machine
end

