-- ==== Sys2Proof/Machine/Float.lean ====
section
/-! DEFINITION. Element formats and their arithmetic (R46, R49, R50, R114, R156): exact values, one rounding to nearest-even
at the end, NaNs and infinities, and the special functions within their stated error. -/

namespace Sys2Proof.Machine

/-- An exact value: `fin s m e` is (−1)^s × m × 2^e, with the sign kept on a zero. -/
inductive FVal
  | nan
  | inf (s : Bool)
  | fin (s : Bool) (m : Nat) (e : Int)
  deriving DecidableEq, Repr

/-- Which codes of a floating-point format are special (R46). -/
inductive FSpecial
  | ieee   -- all-ones exponent: infinity or NaN
  | e4m3   -- S.1111.111 is NaN, no infinity
  | plain  -- none
  deriving DecidableEq, Repr

/-- A floating-point format: exponent bits, mantissa bits, bias, special codes (R46). -/
structure FFmt where
  eb : Nat
  mb : Nat
  bias : Nat
  special : FSpecial
  deriving DecidableEq, Repr

def fmtFP32 : FFmt := ⟨8, 23, 127, .ieee⟩
def fmtBF16 : FFmt := ⟨8, 7, 127, .ieee⟩
def fmtE4M3 : FFmt := ⟨4, 3, 7, .e4m3⟩
def fmtE5M2 : FFmt := ⟨5, 2, 15, .ieee⟩
def fmtE2M1 : FFmt := ⟨2, 1, 1, .plain⟩
def fmtE2M3 : FFmt := ⟨2, 3, 1, .plain⟩
def fmtE3M2 : FFmt := ⟨3, 2, 3, .plain⟩

/-- The value of a code of a floating-point format (R46). -/
def fdecode (f : FFmt) (w : Nat) : FVal :=
  let s := natBit w (f.eb + f.mb)
  let e := natBits w (f.eb + f.mb - 1) f.mb
  let m := w % 2 ^ f.mb
  let top := 2 ^ f.eb - 1
  if f.special = .ieee ∧ e = top then (if m = 0 then .inf s else .nan)
  else if f.special = .e4m3 ∧ e = top ∧ m = 2 ^ f.mb - 1 then .nan
  else if e = 0 then .fin s m (1 - (f.bias : Int) - f.mb)
  else .fin s (m + 2 ^ f.mb) ((e : Int) - f.bias - f.mb)

/-- How many bits a magnitude has. -/
def bitLen (m : Nat) : Nat := if m = 0 then 0 else Nat.log2 m + 1

/-- The rounding of m / 2^k: to nearest with ties to even. -/
def rneShift (m k : Nat) : Nat :=
  let q := m >>> k
  let r := m % 2 ^ k
  let half := 2 ^ (k - 1)
  if k = 0 then m else if r > half ∨ (r = half ∧ q % 2 = 1) then q + 1 else q

/-- The rounding of m / 2^k upward (R60 step 1). -/
def ceilShift (m k : Nat) : Nat := if m % 2 ^ k = 0 then m >>> k else (m >>> k) + 1

/-- Encode a finite magnitude with a given rounding; `none` when it lies beyond the largest finite code. -/
def encMag (f : FFmt) (shiftR : Nat → Nat → Nat) (m : Nat) (e : Int) : Option Nat :=
  if m = 0 then some 0 else
  let emin : Int := 1 - (f.bias : Int) - f.mb
  let q : Int := max emin (e + bitLen m - (f.mb + 1))
  let r := if q ≤ e then m <<< (e - q).toNat else shiftR m (q - e).toNat
  let (r, q) := if r = 2 ^ (f.mb + 1) then (2 ^ f.mb, q + 1) else (r, q)
  if r < 2 ^ f.mb then some r
  else
    let ex := (q + f.mb + f.bias).toNat
    let code := ex * 2 ^ f.mb + (r - 2 ^ f.mb)
    let limit := match f.special with
      | .ieee => (2 ^ f.eb - 1) * 2 ^ f.mb
      | .e4m3 => 2 ^ (f.eb + f.mb) - 1
      | .plain => 2 ^ (f.eb + f.mb)
    if code < limit then some code else none

/-- A sign bit in front of a magnitude code. -/
def signed (f : FFmt) (s : Bool) (code : Nat) : Nat := s.toNat * 2 ^ (f.eb + f.mb) + code

/-- The infinity code of an IEEE format. -/
def infCode (f : FFmt) (s : Bool) : Nat := signed f s ((2 ^ f.eb - 1) * 2 ^ f.mb)

/-- A NaN code whose payload is open (log entry 10): every NaN code of the format is a value of this. -/
def nanCode (f : FFmt) (free : Nat) : Nat :=
  let s := natBit free (f.eb + f.mb)
  match f.special with
  | .ieee =>
    let m := free % 2 ^ f.mb
    signed f s ((2 ^ f.eb - 1) * 2 ^ f.mb + (if m = 0 then 2 ^ (f.mb - 1) else m))
  | _ => signed f s (2 ^ (f.eb + f.mb) - 1)

/-- Encode with round-to-nearest-even into a format with infinities; overflow gives an infinity (R26). -/
def fencode (f : FFmt) (free : Nat) (v : FVal) : Nat :=
  match v with
  | .nan => nanCode f free
  | .inf s => infCode f s
  | .fin s m e =>
    match encMag f rneShift m e with
    | some c => signed f s c
    | none => match f.special with
      | .ieee => infCode f s
      | _ => free % 2 ^ (f.eb + f.mb + 1)

/-- FP32 code of a value; `free` gives the payload of a NaN. -/
def enc32 (free : Nat) (v : FVal) : Word := BitVec.ofNat 32 (fencode fmtFP32 free v)

/-- The value of an FP32 word. -/
def dec32 (w : Word) : FVal := fdecode fmtFP32 w.toNat

/-- Round a value to FP32 and read it back: one rounding step of a chain. -/
def rnd32 (v : FVal) : FVal :=
  match v with
  | .fin s m e =>
    match encMag fmtFP32 rneShift m e with
    | some c => fdecode fmtFP32 (signed fmtFP32 s c)
    | none => .inf s
  | v => v

def FVal.neg : FVal → FVal
  | .nan => .nan
  | .inf s => .inf !s
  | .fin s m e => .fin (!s) m e

def FVal.abs : FVal → FVal
  | .nan => .nan
  | .inf _ => .inf false
  | .fin _ m e => .fin false m e

def FVal.isNan : FVal → Bool
  | .nan => true
  | _ => false

def FVal.isInf : FVal → Bool
  | .inf _ => true
  | _ => false

def FVal.isZero : FVal → Bool
  | .fin _ 0 _ => true
  | _ => false

def FVal.isFinite : FVal → Bool
  | .fin .. => true
  | _ => false

/-- Positive zero. -/
def fzero : FVal := .fin false 0 0
def fone : FVal := .fin false 1 0
def FVal.ofInt (i : Int) : FVal := .fin (decide (i < 0)) i.natAbs 0

/-- Exact product (IEEE 754 rules for signs, zeros and infinities). -/
def fmul : FVal → FVal → FVal
  | .nan, _ | _, .nan => .nan
  | .inf s, .inf t => .inf (s != t)
  | .inf s, .fin t m _ => if m = 0 then .nan else .inf (s != t)
  | .fin s m _, .inf t => if m = 0 then .nan else .inf (s != t)
  | .fin s m e, .fin t n f => .fin (s != t) (m * n) (e + f)

/-- Exact sum; an exact zero of two non-zero terms is +0, as round-to-nearest-even gives. -/
def fadd : FVal → FVal → FVal
  | .nan, _ | _, .nan => .nan
  | .inf s, .inf t => if s = t then .inf s else .nan
  | .inf s, .fin .. => .inf s
  | .fin .., .inf t => .inf t
  | .fin s m e, .fin t n f =>
    let g := min e f
    let a : Int := ((m <<< (e - g).toNat : Nat) : Int) * (if s then -1 else 1)
    let b : Int := ((n <<< (f - g).toNat : Nat) : Int) * (if t then -1 else 1)
    let c := a + b
    if c = 0 then .fin (s && t && decide (m = 0) && decide (n = 0)) 0 g else .fin (decide (c < 0)) c.natAbs g

def fsub (a b : FVal) : FVal := fadd a b.neg

/-- Exact a × b + c, to be rounded once. -/
def ffma (a b c : FVal) : FVal := fadd (fmul a b) c

/-- Quotient with a sticky bit: rounding it once to 24 bits or fewer rounds the exact quotient. -/
def fdivSticky : FVal → FVal → FVal
  | .fin s m e, .fin t n f =>
    if n = 0 then (if m = 0 then .nan else .inf (s != t))
    else
      let k := 80 + bitLen n
      let q := (m <<< k) / n
      let r := (m <<< k) % n
      .fin (s != t) (2 * q + (if r = 0 then 0 else 1)) (e - f - k - 1)
  | .fin s _ _, .inf t => .fin (s != t) 0 0
  | .inf s, .fin t _ _ => .inf (s != t)
  | _, _ => .nan

/-- Comparison of two finite values: a < b. -/
def finLt (s : Bool) (m : Nat) (e : Int) (t : Bool) (n : Nat) (f : Int) : Bool :=
  let g := min e f
  let a : Int := ((m <<< (e - g).toNat : Nat) : Int) * (if s then -1 else 1)
  let b : Int := ((n <<< (f - g).toNat : Nat) : Int) * (if t then -1 else 1)
  decide (a < b)

/-- a < b; false when either is a NaN. -/
def flt : FVal → FVal → Bool
  | .nan, _ | _, .nan => false
  | .inf s, .inf t => s && !t
  | .inf s, .fin .. => s
  | .fin .., .inf t => !t
  | .fin s m e, .fin t n f => finLt s m e t n f

/-- Maximum that propagates NaNs and takes +0 above −0 (R156; log entry 16). -/
def fmax (a b : FVal) : FVal :=
  match a, b with
  | .nan, _ | _, .nan => .nan
  | .fin s 0 e, .fin t 0 _ => .fin (s && t) 0 e
  | a, b => if flt a b then b else a

/-- Minimum that propagates NaNs and takes −0 below +0. -/
def fmin (a b : FVal) : FVal :=
  match a, b with
  | .nan, _ | _, .nan => .nan
  | .fin s 0 e, .fin t 0 _ => .fin (s || t) 0 e
  | a, b => if flt b a then b else a

/-- Element formats (R46), numbered by the tile-record codes of R152 where they have one. -/
inductive EFmt
  | int8 | int4 | e4m3 | e5m2 | e2m1 | e2m3 | e3m2 | bf16 | fp32
  deriving DecidableEq, Repr

/-- The element format codes of tile records and CVT (R152); 9 to 15 are reserved. -/
def efmtOfCode : Nat → Option EFmt
  | 0 => some .int8 | 1 => some .int4 | 2 => some .e4m3 | 3 => some .e5m2 | 4 => some .e2m1
  | 5 => some .e2m3 | 6 => some .e3m2 | 7 => some .bf16 | 8 => some .fp32 | _ => none

/-- Element width in bits (R46). -/
def efmtBits : EFmt → Nat
  | .int8 | .e4m3 | .e5m2 => 8
  | .int4 | .e2m1 => 4
  | .e2m3 | .e3m2 => 6
  | .bf16 => 16
  | .fp32 => 32

/-- The floating-point layout of a format, where it has one. -/
def efmtFloat : EFmt → Option FFmt
  | .int8 | .int4 => none
  | .e4m3 => some fmtE4M3
  | .e5m2 => some fmtE5M2
  | .e2m1 => some fmtE2M1
  | .e2m3 => some fmtE2M3
  | .e3m2 => some fmtE3M2
  | .bf16 => some fmtBF16
  | .fp32 => some fmtFP32

/-- The value of an element code (R46). -/
def elemVal (f : EFmt) (w : Nat) : FVal :=
  match efmtFloat f with
  | some ff => fdecode ff w
  | none => FVal.ofInt (signExt (efmtBits f) (w % 2 ^ efmtBits f))

/-- Is a format an integer format? -/
def efmtIsInt : EFmt → Bool
  | .int8 | .int4 => true
  | _ => false

/-- Is a format 4, 6 or 8 bits of floating point? -/
def efmtIsNarrowFloat : EFmt → Bool
  | .e4m3 | .e5m2 | .e2m1 | .e2m3 | .e3m2 => true
  | _ => false

/-- The largest finite magnitude of a quantised format, F of R58 (and of R46 for the others). -/
def efmtMax : EFmt → FVal
  | .int8 => .fin false 127 0
  | .int4 => .fin false 7 0
  | .e4m3 => .fin false 448 0
  | .e5m2 => .fin false 57344 0
  | .e2m1 => .fin false 6 0
  | .e2m3 => .fin false 15 (-1)
  | .e3m2 => .fin false 28 0
  | .bf16 => .fin false 255 120
  | .fp32 => .fin false 0xFFFFFF 104

/-- A UE4M4 group scale (R49): code 0x00 is zero; 0xFF is reserved (`none`). -/
def ue4m4 (b : Nat) : Option FVal :=
  if b = 0 then some fzero else if b = 0xFF then none
  else some (.fin false (16 + b % 16) ((b / 16 : Nat) - 8 - 4 : Int))

/-- An E8M0 block scale (R50); code 0xFF is NaN. -/
def e8m0 (b : Nat) : FVal := if b = 0xFF then .nan else .fin false 1 ((b : Int) - 127)

/-- An MX element (R47): a NaN or infinity code reads as the largest finite magnitude of its sign; the flag says so. -/
def mxVal (f : EFmt) (w : Nat) : FVal × Bool :=
  match f, elemVal f w with
  | .e4m3, .nan => (.fin (natBit w 7) 448 0, true)
  | .e5m2, .nan => (.fin (natBit w 7) 57344 0, true)
  | .e5m2, .inf s => (.fin s 57344 0, true)
  | _, v => (v, false)

/-- Round a finite value to an integer, ties to even. -/
def rneInt (s : Bool) (m : Nat) (e : Int) : Int :=
  let r : Nat := if 0 ≤ e then m <<< e.toNat else rneShift m (-e).toNat
  if s then -(r : Int) else r

/-- The code of ±F in a format. -/
def maxCode (f : EFmt) (s : Bool) : Nat :=
  match efmtFloat f, efmtMax f with
  | some ff, .fin _ m e => signed ff s ((encMag ff rneShift m e).getD 0)
  | none, .fin _ m _ => ((if s then -(m : Int) else m) % (2 ^ efmtBits f : Nat)).toNat
  | _, _ => 0

/-- Steps 1, 3 and 4 of R59 for one element already scaled: the code, and whether it is counted. The NaN of E4M3 and E5M2
has an open payload. FP6 has no NaN and the manual states no code for one: it is open too (log entry 14). BF16 and FP32
results are rounded, stop at the largest finite value (QUANT never produces an infinity), and nothing is counted under
step 3. A NaN becomes a BF16 NaN, and an infinity the largest finite BF16 value, both counted (DESIGN CHOICE, log entry 127). -/
def quantElem (f : EFmt) (free : Nat) (v : FVal) : Nat × Bool :=
  match f, v with
  | .bf16, .fin s m e => (signed fmtBF16 s ((encMag fmtBF16 rneShift m e).getD 0x7F7F), false)
  | .fp32, .fin s m e => (signed fmtFP32 s ((encMag fmtFP32 rneShift m e).getD 0x7F7FFFFF), false)
  | .int8, .nan | .int4, .nan | .e2m1, .nan => (0, true)
  | .e2m3, .nan | .e3m2, .nan => (Config.cvtOpen 1 free % 64, true)
  | f, .nan => (((efmtFloat f).map fun ff => nanCode ff free).getD 0, true)
  | f, .inf s => (maxCode f s, true)
  | f, .fin s m e =>
    if flt (efmtMax f) (.fin false m e) then (maxCode f s, true)
    else match efmtFloat f with
      | none => ((rneInt s m e % (2 ^ efmtBits f : Nat)).toNat, false)
      | some ff => (signed ff s ((encMag ff rneShift m e).getD 0), false)

/-- v rounded towards +infinity to BF16, stopping at the largest finite BF16 value (R60 step 1), for a magnitude. -/
def bf16Up (v : FVal) : Nat :=
  match v with
  | .fin s m e => match encMag fmtBF16 (if s then (fun m k => m >>> k) else ceilShift) m e with
    | some c => signed fmtBF16 s c
    | none => signed fmtBF16 s 0x7F7F
  | .inf false => 0x7F7F
  | .inf true => infCode fmtBF16 true
  | .nan => nanCode fmtBF16 (Config.nanBits 60 0 0)

/-- The larger of two BF16 history values, taken as values (R60 step 2). -/
def bf16Max (a b : Nat) : Nat := if flt (fdecode fmtBF16 a) (fdecode fmtBF16 b) then b else a

/-- Integer square root by bits, fuel the number of result bits. -/
def isqrtBits : Nat → Nat → Nat → Nat
  | 0, _, r => r
  | k + 1, n, r => let r' := r + 2 ^ k; isqrtBits k n (if r' * r' ≤ n then r' else r)

/-- Integer square root of a number. -/
def isqrt (n : Nat) : Nat := isqrtBits (bitLen n / 2 + 1) n 0

/-- 2^f in units of 2^-96 for a fraction f of 64 bits, rounded down at each factor. -/
def exp2Frac : Nat → Nat → Nat → Nat → Nat
  | 0, _, _, acc => acc
  | k + 1, root, f, acc =>
    exp2Frac k (isqrt (root <<< 96)) f (if natBit f k then (acc * root) >>> 96 else acc)

/-- A value just below 2^x for a finite x, to more than 40 bits; `none` where it is far outside FP32's range. -/
def exp2Low (s : Bool) (m : Nat) (e : Int) : Option FVal :=
  let scaled : Int := if 0 ≤ e + 64 then (m <<< (e + 64).toNat : Nat) else ((m >>> (-(e + 64)).toNat : Nat) : Int)
  let x : Int := if s then -scaled - (if e + 64 < 0 ∧ m % 2 ^ (-(e + 64)).toNat ≠ 0 then 1 else 0) else scaled
  if bitLen m + e > 10 then none
  else
    let i := x / (2 ^ 64 : Nat)
    let f := (x % (2 ^ 64 : Nat)).toNat
    some (.fin false (exp2Frac 64 (isqrt (2 <<< 192)) f (1 <<< 96)) (i - 96))

/-- FP32 code of the value rounded towards zero. -/
def encDown (v : FVal) : Word :=
  match v with
  | .fin s m e => match encMag fmtFP32 (fun m k => m >>> k) m e with
    | some c => BitVec.ofNat 32 (signed fmtFP32 s c)
    | none => BitVec.ofNat 32 (infCode fmtFP32 s)
  | v => enc32 0 v

/-- One of the FP32 values within the error bound of a value whose rounding towards zero is `d`: `d` and the `ulps` codes
above it in magnitude, chosen by a free value (log entry 11). -/
def sfuNear (op x ulps : Nat) (d : Word) : Word :=
  if bits d 30 23 = 255 then d else d + BitVec.ofNat 32 (Config.sfuPick op x % (ulps + 1))

/-- EXP2 (R114): error at most 1 ulp, exp2(0) = 1, exp2(−∞) = 0 (R120). -/
def exp2Word (x : Word) : Word :=
  match dec32 x with
  | .nan => enc32 (Config.nanBits 0x10 x.toNat 0) .nan
  | .inf true => 0
  | .inf false => BitVec.ofNat 32 (infCode fmtFP32 false)
  | .fin s m e =>
    if m = 0 then 0x3F800000#32
    else match exp2Low s m e with
      | some v => sfuNear 0x10 x.toNat 1 (encDown v)
      | none => if s then sfuNear 0x10 x.toNat 1 0 else BitVec.ofNat 32 (infCode fmtFP32 false)

/-- Fraction bits of log2 of y in [1,2), y in units of 2^-256: `k` more bits. -/
def log2Bits : Nat → Nat → Nat → Nat
  | 0, _, acc => acc
  | k + 1, y, acc =>
    let y2 := (y * y) >>> 256
    if natBit y2 257 then log2Bits k (y2 >>> 1) (2 * acc + 1) else log2Bits k y2 (2 * acc)

/-- FP32 infinity. -/
def infWord (s : Bool) : Word := BitVec.ofNat 32 (infCode fmtFP32 s)

/-- LOG2 (R156): within 2 ulp; zero, infinities and negative numbers as IEEE 754 has them (log entry 12). -/
def log2Word (x : Word) : Word :=
  match dec32 x with
  | .nan => enc32 (Config.nanBits 0x11 x.toNat 0) .nan
  | .fin false m e =>
    if m = 0 then infWord true
    else
      let l := bitLen m - 1
      let fr := log2Bits 96 (m <<< (256 - l)) 0
      let t : Int := (e + l) * (2 ^ 96 : Nat) + fr
      if t = 0 then 0 else sfuNear 0x11 x.toNat 2 (encDown (.fin (decide (t < 0)) t.natAbs (-96)))
  | .inf false => infWord false
  | .fin true m _ => if m = 0 then infWord true else enc32 (Config.nanBits 0x11 x.toNat 1) .nan
  | .inf true => enc32 (Config.nanBits 0x11 x.toNat 1) .nan

/-- RCP (R156): within 1 ulp; zero and infinities as IEEE 754 has them (log entry 12). -/
def rcpWord (x : Word) : Word :=
  match dec32 x with
  | .nan => enc32 (Config.nanBits 0x12 x.toNat 0) .nan
  | .fin s m e =>
    if m = 0 then infWord s else sfuNear 0x12 x.toNat 1 (encDown (fdivSticky fone (.fin s m e)))
  | .inf s => if s then 0x80000000 else 0

/-- RSQRT (R156): within 1 ulp; zero, infinities and negative numbers as IEEE 754 has them (log entry 12). -/
def rsqrtWord (x : Word) : Word :=
  match dec32 x with
  | .nan => enc32 (Config.nanBits 0x13 x.toNat 0) .nan
  | .fin false m e =>
    if m = 0 then infWord false
    else
      let (m, e) := if e % 2 = 0 then (m, e) else (2 * m, e - 1)
      let q := isqrt ((1 <<< 160) / m)
      sfuNear 0x13 x.toNat 1 (encDown (.fin false q (-80 - e / 2)))
  | .inf false => 0
  | .fin true m _ => if m = 0 then infWord true else enc32 (Config.nanBits 0x13 x.toNat 1) .nan
  | .inf true => enc32 (Config.nanBits 0x13 x.toNat 1) .nan

end Sys2Proof.Machine
end

