-- ==== Sys2Proof/Machine/Store.lean ====
section
/-! DEFINITION. Sparse memories as lists of (key, value) in ONE canonical form: keys strictly rising, no entry equal to
what an unlisted key reads as, so that equal memories are equal lists. -/

namespace Sys2Proof.Machine

/-- A sparse memory. What an unlisted key reads as is an argument of every operation. -/
abbrev Store (α : Type) := List (Nat × α)

/-- Read one key. -/
def storeGet {α : Type} (dflt : α) : Store α → Nat → α
  | [], _ => dflt
  | (k', v) :: t, k => if k' = k then v else storeGet dflt t k

/-- Write one key; writing what an unlisted key reads as removes the entry. -/
def storeSet {α : Type} [DecidableEq α] (dflt : α) : Store α → Nat → α → Store α
  | [], k, v => if v = dflt then [] else [(k, v)]
  | (k', v') :: t, k, v =>
    if k < k' then (if v = dflt then (k', v') :: t else (k, v) :: (k', v') :: t)
    else if k = k' then (if v = dflt then t else (k, v) :: t)
    else (k', v') :: storeSet dflt t k v

/-- Every key of the store is above `b`, keys rise strictly, and no entry holds its key's default. -/
def storeWfFrom {α : Type} [DecidableEq α] (dflt : Nat → α) : Option Nat → Store α → Bool
  | _, [] => true
  | b, (k, v) :: t =>
    (match b with | none => true | some b => decide (b < k)) && decide (v ≠ dflt k) && storeWfFrom dflt (some k) t

/-- The canonical form. -/
def storeWf {α : Type} [DecidableEq α] (dflt : Nat → α) (m : Store α) : Bool := storeWfFrom dflt none m

/-- Drop every entry whose key satisfies `p` (it then reads as unlisted). -/
def storeErase {α : Type} (p : Nat → Bool) (m : Store α) : Store α := m.filter fun e => !p e.1

end Sys2Proof.Machine
end

