-- ==== Sys2Proof/Machine/CoreState.lean ====
section
/-! DEFINITION. The state of one core as plain data: Sequencer, Tines, Vector Unit, Harrow, Thresher, scratchpad
(R22–R178). Registers of these blocks live in the register file of Machine/State.lean. -/

namespace Sys2Proof.Machine

/-- A byte on an internal path, with its poison marking (R330). -/
abbrev PByte := Byte × Bool

/-- Completion status codes (R291). -/
abbrev Code := Nat

/-- The four Sequencer states (R142). -/
inductive SeqState
  | stopped | running | draining | trapped
  deriving DecidableEq, Repr

/-- An open loop (R149): first and last bundle of the body, and how many more times the body repeats. -/
structure LoopState where
  first : Nat
  last : Nat
  left : Nat
  /-- the first four bundles of its body, as far as they have been fetched (R145) -/
  held : List Nat := []
  deriving DecidableEq, Repr

/-- One scratchpad word (R68, R81–R84): the data last written, and the bits by which the stored 72-bit code word differs
from the code of that data: [63:0] data bits, [71:64] check bits (WORD) or byte parities (BYTE). Poison is a stored
difference of 0x96 (WORD) or 0xFF (BYTE) in the check bits. -/
structure SpmWord where
  data : DWord := 0
  flip : BitVec 72 := 0
  deriving DecidableEq, Repr

/-- An operand named by an address register (R147). -/
inductive Operand
  | linear (off : Nat)
  | tile (transpose : Bool) (width : Nat) (col : Bool) (tile index start len : Nat)
  | vuQueue
  deriving DecidableEq, Repr

/-- Where a Tine takes an operand from: the scratchpad, or a FEED stream (R151). -/
inductive TineSrc
  | spm (o : Operand)
  | strm (s : Nat)
  deriving DecidableEq, Repr

/-- The fields of a tile record (R152). -/
structure TileRec where
  afmt : Nat
  wfmt : Nat
  smode : Nat
  gsize : Nat
  dbf16 : Bool
  dvu : Bool
  maskEn : Bool
  sht : Nat
  width : Nat
  scaleAddr : Nat
  rowScale : Nat
  maskAddr : Nat
  dest : Nat
  dstride : Nat
  deriving DecidableEq, Repr

/-- A matrix instruction accepted by a Tine (R151, R153). -/
structure MmaInstr where
  gang : Nat
  init : Bool
  last : Bool
  act : TineSrc
  wgt : TineSrc
  k : Nat
  /-- data rows of a FEED stream already claimed by earlier instructions -/
  actRow : Nat
  wgtRow : Nat
  rcd : TileRec
  /-- FP32 activation scale read at the INIT instruction's issue (R54) -/
  scale : Word
  /-- row mask of the whole gang tile, read at the INIT instruction's issue (R36) -/
  mask : BitVec 256
  /-- number of the tile within the core, shared by the Tines of a gang -/
  tileId : Nat
  /-- its row mask was read poisoned: the whole tile is tainted (R332) -/
  bad : Bool
  /-- groups already rescaled -/
  group : Nat
  /-- program cycle in which its first slot enters (R38, R153) -/
  start : Nat
  deriving DecidableEq, Repr

/-- A finished bank waiting for the drain port or draining (R28, R29). -/
structure BankDrain where
  bank : Bool
  tileId : Nat
  gang : Nat
  acc : Store Word
  mask : BitVec 64
  taint : Bool
  rcd : TileRec
  /-- a Cube-mode drain applies no row scale (R40); its blocks hold INT32 or FP32 -/
  cube : Bool
  intBlocks : Store Bool
  /-- program cycle in which row 0 is read (R29), and the next row to drain -/
  start : Nat
  row : Nat
  /-- the 64 row scales, with their poison, once the drain has begun (R28) -/
  scales : Option (List Word × Bool)
  deriving DecidableEq, Repr

/-- One drained row on its way to or in the Vector Unit input queue (R157). -/
structure VuRow where
  bf16 : Bool
  bytes : List PByte
  deriving DecidableEq, Repr

/-- One Tine. -/
structure TineState where
  queue : List MmaInstr := []
  /-- a tile is open in program order (R27), and the gang shape and record it was opened with -/
  opened : Option MmaInstr := none
  /-- address of the next scale slice of the open tile (R53) -/
  scalePtr : Nat := 0
  /-- accumulators of the tile being rescaled, at key 64 × row + column; default +0 -/
  acc : Store Word := []
  /-- the tile being rescaled has made its first accumulator write -/
  accBusy : Bool := false
  taint : Bool := false
  bank : Bool := false
  drains : List BankDrain := []
  /-- first program cycles in which the array takes another slot, and the drain port another row (R29, R153) -/
  slotFree : Nat := 0
  portFree : Nat := 0
  /-- vectors of a DIAG that wait for room in the Vector Unit input queue (R39, R157) -/
  diagRows : List VuRow := []
  /-- Cube mode (R40): accumulators at key 64 × block + 8 × i + j, whether each block holds INT32, and the tile's flags -/
  cubeMode : Bool := false
  cubeAcc : Store Word := []
  cubeInt : Store Bool := []
  cubeTaint : Bool := false
  cubeWrapped : Bool := false
  deriving DecidableEq, Repr

/-- A Harrow prefix table (R97, R99): codes per length 1 to 12, symbols in image order. -/
structure HTable where
  cnt : List Nat
  syms : List Nat
  deriving DecidableEq, Repr

/-- A table slot (R100). -/
structure HSlot where
  valid : Bool := false
  gen : Nat := 0
  table : HTable := ⟨[], []⟩
  deriving DecidableEq, Repr

/-- A table load in progress (R100). -/
structure HLoad where
  slot : Nat
  gen : Nat
  addr : Nat
  forester : Bool
  deriving DecidableEq, Repr

/-- Where a decode stream delivers (R106). -/
inductive HDest
  | spm (off : Nat)
  | feed (gang : Bool) (tine : Nat) (weight : Bool)
  deriving DecidableEq, Repr

/-- An open decode stream (R106), or a coded channel transfer's use of the lanes (R108). -/
structure HStream where
  num : Nat
  /-- none: a DECODE stream; some c: coded transfer of Skidder channel c into this scratchpad -/
  chan : Option Nat
  /-- its lanes, in the order of R95 -/
  lanes : List Nat
  k : Nat
  n : Nat
  dest : HDest
  issued : Nat
  /-- first block number of the region's stream, taken from its STREAM_IN or channel record -/
  firstBlk : Nat
  /-- a STREAM_IN has been issued for it (R159) -/
  fed : Bool
  /-- FEED rows claimed by issued Tine instructions (R168) -/
  claimed : Nat
  /-- blocks that have been delivered -/
  done : Nat
  /-- next row to be written to the scratchpad, or to be consumed by a Tine (R106) -/
  row : Nat
  /-- bytes decoded for rows not yet written or consumed, by stream byte number -/
  buf : Store PByte
  deriving DecidableEq, Repr

/-- A block in a lane's input queue, from its header's acceptance on, or under decoding (R101, R105). -/
structure HBlock where
  /-- stream number, or 4 + channel for a coded channel transfer -/
  owner : Nat
  blk : Nat
  hdr : List PByte
  payload : List PByte
  /-- its whole payload has arrived -/
  ready : Bool
  deriving DecidableEq, Repr

/-- A lane: its input queue and the block it holds with the bytes it will deliver (R104, R105). -/
structure HLane where
  queue : List HBlock := []
  cur : Option (HBlock × List PByte) := none
  deriving DecidableEq, Repr

/-- An ENCODE in progress (R109), or a coded channel transfer out (R111). -/
structure HEnc where
  chan : Option Nat
  src : Nat
  n : Nat
  k : Nat
  slot : Option Nat
  firstBlk : Nat
  done : Nat
  /-- program cycle of its issue, and the source bytes read since, the first stream byte of the block being built first (R109) -/
  issued : Nat
  raw : List PByte
  deriving DecidableEq, Repr

/-- A block the encoder has built (R110): header, payload, block number and stripe count. -/
structure EncOut where
  hdr : List Byte
  payload : List Byte
  blk : Nat
  k : Nat
  deriving DecidableEq, Repr

/-- An ENCODE at the program counter that a channel block keeps waiting (R111): none, waiting for the block to end, or free to
issue because the block has ended. -/
inductive EncWait
  | no | waiting | ready
  deriving DecidableEq, Repr

structure HarrowState where
  slots : Vector HSlot 16 := Vector.replicate 16 {}
  load : Option HLoad := none
  streams : List HStream := []
  lanes : Vector HLane 8 := Vector.replicate 8 {}
  /-- the ENCODE running, and the coded channel transfers that take the encoder while none runs (R109, R111) -/
  enc : Option HEnc := none
  chanEncs : List HEnc := []
  encWait : EncWait := .no
  /-- finished blocks of the ENCODE that the Skidder queue has no room for (R109) -/
  encOut : List EncOut := []
  deriving DecidableEq, Repr

/-- The fields of an attention record (R115). -/
structure AttRec where
  mode : Nat
  mask : Nat
  qk : Nat
  pFp8 : Bool
  triple : Bool
  outBf16 : Bool
  rows : Nat
  t : Nat
  gen : Nat
  ctx : Nat
  pageList : Nat
  pages : Nat
  committed : Nat
  visible : Nat
  spanLo : Nat
  spanHi : Nat
  qpos : Nat
  sigma : Word
  vscale : Word
  aoff : Nat
  boff : Nat
  wa : Nat
  wb : Nat
  bufs : Nat
  qaddr : Nat
  oaddr : Nat
  maskAddr : Nat
  stageAddr : Nat
  deriving DecidableEq, Repr

/-- Running state of one query row (R120, R121, R123). -/
structure AttRow where
  m : Word := 0xFF800000
  l : Word := 0
  o : List Word := []
  bad : Bool := false
  poison : Bool := false
  deriving DecidableEq, Repr

/-- A fetch stream (R127). -/
structure FetchStream where
  /-- its number within the core -/
  id : Nat
  recAddr : Nat
  rcd : AttRec
  /-- next block to fetch and next block to be read, counted from the span's first block -/
  fetched : Nat
  read : Nat
  /-- blocks whose page faulted (R126), by block number -/
  faults : List Nat
  /-- it feeds an EXPAND or an ATTEND already issued -/
  bound : Bool
  /-- a KVWRITE or KVCOMPACT has issued since it opened (R129) -/
  stale : Bool
  deriving DecidableEq, Repr

/-- An ATTEND running or queued (R119). -/
structure AttRun where
  /-- its fetch stream; none in EXPANDED mode -/
  stream : Option Nat
  rcd : AttRec
  block : Nat
  rows : List AttRow
  /-- query rows and tree mask words, read when the first block starts -/
  query : List (List PByte) := []
  tree : List (BitVec 64 × Bool) := []
  deriving DecidableEq, Repr

/-- An EXPAND in progress (R135). -/
structure Expand where
  /-- its record, and its fetch stream once it has issued -/
  recAddr : Nat
  stream : Nat
  rcd : AttRec
  uk : Nat
  uv : Nat
  dest : Nat
  scale : Word
  heads : Nat
  bf16 : Bool
  kd : Nat
  vd : Nat
  block : Nat
  sem : Option Nat
  deriving DecidableEq, Repr

structure ThrState where
  running : Option AttRun := none
  queued : Option AttRun := none
  streams : List FetchStream := []
  /-- number of the next stream -/
  nextId : Nat := 0
  expand : Option Expand := none
  deriving DecidableEq, Repr

/-- One core: what its island holds beside its registers. -/
structure CoreState where
  seq : SeqState := .stopped
  pc : Nat := 0
  loops : List LoopState := []
  /-- program cycles since START (R150, R165) -/
  prog : Nat := 0
  /-- the first program cycle whose scheduled engine work is still to be done (R33, R106, R109) -/
  ticked : Nat := 0
  /-- the granule of two bundles fetched last: its number and its value (R145) -/
  fetched : Option (Nat × Nat) := none
  /-- S0–S31 with their poison bits (R155, R330) -/
  sregs : Vector (Word × Bool) 32 := Vector.replicate 32 (0, false)
  tines : Vector TineState 4 := Vector.replicate 4 {}
  tileSeq : Nat := 0
  vuq : List VuRow := []
  /-- rows that the Vector Unit operation at the program counter has taken while it waits for more (R157) -/
  vuTaken : List VuRow := []
  /-- Scale History Table (R58): word w of entry e at key 16e + w -/
  sht : Store Word := []
  hrw : HarrowState := {}
  thr : ThrState := {}
  /-- scratchpad words by word offset (R68), written bits by granule (R88), corrected words awaiting write-back (R81) -/
  spm : Store SpmWord := []
  written : Store Bool := []
  ceWb : List Nat := []
  /-- partitions being swept (R88) -/
  sweeping : BitVec 8 := 0
  /-- set within an operation whose access meets a swept partition: the operation is then put off, so it never stays set (R89) -/
  sweepHit : Bool := false
  /-- root of the kernel that has been loaded since the core was last reset (R175, R394) -/
  kernel : Option Nat := none
  deriving DecidableEq, Repr

end Sys2Proof.Machine
end

