-- ==== Sys2Proof/Machine/MemState.lean ====
section
/-! DEFINITION. The state of the memories and the movers as plain data: near-memory granules, table words, Skidder
transfers, channels and core queues, transactions (R179–R208, R300, R318–R339). -/

namespace Sys2Proof.Machine

/-- One near-memory granule (R182, R319): the data last written, and the bits by which the stored granule and its 16
check bits differ from that data and its code. Poison is a check-bit difference of 0x9669. -/
structure NmGran where
  data : BitVec 512 := 0
  flip : BitVec 512 := 0
  chk : BitVec 16 := 0
  deriving DecidableEq, Repr

/-- One word of the Context or Residency Table (R327): its data and the stored difference, [31:0] data, [38:32] check. -/
structure TabWord where
  data : Word := 0
  flip : BitVec 39 := 0
  deriving DecidableEq, Repr

/-- Who owns a transfer or a transaction (R203): a Skidder channel of a Field, an entry of a core's Skidder queue, a
Field's Bucker, a Field's Forester, or the Surveyor. -/
inductive XferOwner
  | chan (f k : Nat)
  | skq (n e : Nat)
  | bucker (f : Nat)
  | forester (f : Nat)
  | surveyor
  deriving DecidableEq, Repr

/-- One run of bytes of a Bucker job (R265): source and destination Stand addresses, and the destination participant. -/
structure Piece where
  src : Nat
  dst : Nat
  len : Nat
  part : Nat
  deriving DecidableEq, Repr

/-- What a transfer moves (R160, R199, R128, R127). -/
inductive XferKind
  /-- uncoded bytes between any two places -/
  | copy
  /-- a Bucker job's pieces still to move (R265) -/
  | pieces (todo : List Piece)
  /-- a coded region into the lanes of a decode stream, or of the channel lanes (R105, R108) -/
  | blocksIn (stream : Nat)
  /-- the encoder's blocks to a coded region (R109, R111) -/
  | blocksOut
  /-- coded memory to memory, headers and payloads unchanged (R199) -/
  | blocksCopy
  /-- an entry held by an open fetch stream (R158) -/
  | fetch (stream : Nat)
  /-- an entry held by a KVWRITE or KVCOMPACT until its semaphore posts (R158) -/
  | kv
  /-- a KVWRITE of `cnt` rows, or a KVCOMPACT of the positions listed, that waits for memory whose accesses are held (R325,
  R351, R393) -/
  | kvWrite (rcd : AttRec) (p cnt src : Nat)
  | kvCompact (rcd : AttRec) (idx : List Nat)
  deriving DecidableEq, Repr

/-- A transfer in progress (R160, R161, R199–R201, R314). -/
structure Xfer where
  kind : XferKind
  src : Nat
  dst : Nat
  len : Nat
  hdr : Nat := 0
  firstBlk : Nat := 0
  /-- stripe count of a coded transfer -/
  k : Nat := 1
  ctx : Nat := 0
  gen : Nat := 0
  check : Bool := false
  rawOnly : Bool := false
  tslot : Nat := 0
  /-- device semaphore posted on completion -/
  sem : Option Nat := none
  /-- next byte, or next block, to request -/
  next : Nat := 0
  /-- block being fetched: header read so far, payload read so far -/
  blkHdr : Option (List PByte) := none
  blkGot : List PByte := []
  /-- data read and waiting for its write transaction: (destination Stand address, bytes, participant) -/
  held : List (Nat × List PByte × Nat) := []
  /-- uncoded copy into host memory: bytes of it that have been passed on in order, and data read ahead of them (R333, R335) -/
  passed : Nat := 0
  early : List (Nat × List PByte) := []
  /-- Bucker: participants whose pieces were not all accepted (R265) -/
  refused : List Nat := []
  /-- bytes that have arrived at the destination -/
  moved : Nat := 0
  /-- outcome so far: 0x00 OK -/
  code : Nat := 0
  /-- no further requests are issued (R201, R314, R333) -/
  stop : Bool := false
  /-- it met poison on the way to host memory (R333) -/
  hostPoison : Bool := false
  /-- counted in OUTSTANDING (R314) -/
  counted : Bool := false
  stalled : Bool := false
  deriving DecidableEq, Repr

/-- One entry of a core's Skidder queue (R161). -/
structure SkqEntry where
  idx : Nat
  xfer : Xfer
  deriving DecidableEq, Repr

/-- What a transfer that firmware puts on a channel is for. -/
inductive Purpose
  /-- an XFER WRITE or READ descriptor, with the pinned Residency entry and its generation (R284) -/
  | xferDesc (desc entry gen : Nat)
  /-- a segment of a root that is swapped in, and before it the header array of a coded one (R215, R225) -/
  | swapSeg (root seg : Nat)
  | swapHdr (root seg : Nat)
  /-- a segment copied from a Stand peer into a staged copy (R229) -/
  | peerSeg (root seg : Nat)
  /-- a segment copied from the weight store into a staged copy (R226) -/
  | stageSeg (root seg : Nat)
  /-- a leg of a Residency move (R197, R198) -/
  | move (entry : Nat)
  deriving DecidableEq, Repr

/-- What waits on a channel (R199): a posted record's address, or a transfer that firmware makes for a purpose of its own, whose
record's place the manual does not give. -/
inductive ChanItem
  | record (addr : Nat)
  | fw (x : Xfer) (p : Purpose)
  deriving DecidableEq, Repr

/-- One Skidder channel (R199). -/
structure Chan where
  queue : List ChanItem := []
  cur : Option Xfer := none
  /-- the purpose of the running transfer, when firmware keeps one -/
  purpose : Option Purpose := none
  halted : Bool := false
  code : Nat := 0
  deriving DecidableEq, Repr

/-- A Bucker's queue and running job (R264, R265). -/
structure Bkr where
  queue : List Nat := []
  cur : Option Xfer := none
  /-- arrival semaphore and number of sending sources, by destination participant -/
  arrive : List (Nat × Word × Nat) := []
  done : Option Nat := none
  /-- status of the last job -/
  code : Nat := 0
  deriving DecidableEq, Repr

/-- One memory transaction in flight (R203). Pools 0–3 are the Fields, 4 the host, 5 the fabric. -/
structure Txn where
  id : Nat
  pool : Nat
  owner : XferOwner
  write : Bool
  /-- target: device-physical or Stand address -/
  addr : Nat
  /-- host address, translated when the request was issued (R186) -/
  host : Option Nat
  /-- destination Stand address of the data a read brings; for a block header or payload see the transfer -/
  dst : Nat
  /-- Bucker participant -/
  part : Nat := 0
  len : Nat
  data : List PByte
  /-- generation of the issuing Field, or of the device (R350) -/
  gen : Nat
  /-- weight store: the pages it needs that have been read, each with whether it failed (R211, R262) -/
  got : List (Nat × Bool) := []
  ready : Bool := false
  /-- fabric port it was sent on (R251) -/
  port : Option Nat := none
  /-- the transfer was aborted: the reply is dropped and counted (R201) -/
  aborted : Bool := false
  deriving DecidableEq, Repr

/-- An arrival at a barrier group (R237): the device it came from, the semaphore to post there, and the count. -/
structure Arrival where
  dev : Nat
  sem : Nat
  cnt : Nat
  deriving DecidableEq, Repr

/-- How a reply ends a request (R203, R253, R256, R186). -/
inductive ReplyStatus
  | ok
  /-- the destination's Window Table refused it (R256) -/
  | refused
  /-- a device on the way dropped it for its hop count (R253) -/
  | hopDrop
  /-- the host completed it with a PCIe error (R185) -/
  | hostError
  deriving DecidableEq, Repr

/-- What a fabric packet carries (R253, R256). -/
inductive FabBody
  | write (tag addr : Nat) (data : List PByte) (check : Bool) (gen : Nat)
  | read (tag addr len : Nat) (check : Bool) (gen : Nat)
  | reply (tag : Nat) (status : ReplyStatus) (data : List PByte)
  deriving DecidableEq, Repr

/-- A packet: source device and its generation, destination device, hops so far (R253, R352). -/
structure FabPacket where
  src : Nat
  gen : Nat
  dst : Nat
  hops : Nat
  body : FabBody
  deriving DecidableEq, Repr

/-- A Hedgerow message (R242, R244, R352). -/
inductive HdgMsg
  | post (sem cnt : Nat)
  | arrive (group sem cnt : Nat)
  | token (job seq dev : Nat)
  | announce (dev gen : Nat)
  deriving DecidableEq, Repr

/-- A message on a Hedgerow lane: its destination device (16: every device), and the device that issued it with that device's
generation (R243, R352). -/
structure HdgFrame where
  dst : Nat
  src : Nat
  gen : Nat
  msg : HdgMsg
  deriving DecidableEq, Repr

/-- A device as the issuer of a message, and the generation that it sends under (R243). -/
structure Issuer where
  dev : Nat
  gen : Nat
  deriving DecidableEq, Repr

/-- A flit as it arrives (R248): its data, and the CRC that it carries. -/
structure Flit where
  data : List Byte
  crc : Word
  deriving DecidableEq, Repr

/-- What the device puts out: writes to host memory, packets and messages on ports, interrupts. -/
inductive OutMsg
  | host (addr : Nat) (data : List Byte)
  | msix (vector : Nat)
  /-- the THERMTRIP_N pin is asserted (R401) -/
  | thermTrip
  | packet (port : Nat) (p : FabPacket)
  | hdg (port : Nat) (f : HdgFrame)
  /-- replay of a port's unacknowledged flits from this sequence number (R248) -/
  | replay (port seq : Nat)
  | nak (port seq : Nat)
  /-- bytes answered on the service port (R386) -/
  | service (data : List Byte)
  deriving DecidableEq, Repr

/-- A fabric port (R248–R250). -/
structure Port where
  /-- next sequence number to send, unacknowledged flits from the oldest on, next sequence number expected -/
  txSeq : Nat := 0
  unacked : List Nat := []
  rxSeq : Nat := 0
  /-- discarding until the replayed flit arrives; failures of that flit in a row -/
  discarding : Bool := false
  fails : Nat := 0
  /-- retrains failed in a row; the training in progress is a retrain -/
  retrains : Nat := 0
  retraining : Bool := false
  /-- Hedgerow messages that wait while the port trains, and packets that wait for it or for its replay buffer (R248, R249) -/
  waitHdg : List HdgFrame := []
  waitPk : List FabPacket := []
  deriving DecidableEq, Repr

/-- A request from another device held while a Field resets (R351), with the window synchronisation it is counted in. -/
structure HeldReq where
  packet : FabPacket
  field : Nat
  marked : Bool
  deriving DecidableEq, Repr

end Sys2Proof.Machine
end

