-- ==== Sys2Proof/Machine/HostState.lean ====
section
/-! DEFINITION. What the host interface and firmware hold beside their registers, as plain data: descriptors, event records,
contexts, steps, model roots (R209–R231, R269–R317). -/

namespace Sys2Proof.Machine

/-- What the environment supplies when a descriptor runs: the bytes that host memory holds at the buffer it names (the input
of a STEP; the header of an image, then its manifest), whether the host answered with an error, and firmware's own choices
where the manual leaves them to firmware: homes of objects, the rows of each step of a STEP's input (R308), the Field it
tries first, the windows of this device that it opened for a context (R315). -/
structure DescEnv where
  data : List Byte := []
  manifest : List Byte := []
  poisoned : Bool := false
  place : List Nat := []
  plan : List Nat := []
  field : Option Nat := none
  windows : List Nat := []
  deriving DecidableEq, Repr

/-- How a command reaches a port: through the host link or not, whether the port's previous command is still to be executed, and,
for firmware's MOVE of an object that is or becomes coded, the core and the scratchpad offset of its staging area (R198). -/
structure PortAccess where
  host : Bool
  early : Bool
  stage : Option (Nat × Nat) := none
  deriving DecidableEq, Repr

/-- What the partner of a port tells at training (R250). -/
structure Partner where
  stand : Nat
  dev : Nat
  port : Nat
  gen : Nat
  deriving DecidableEq, Repr

/-- How a training ended, beside its lanes (R250, R352): the partner, and this device's requests on the port that another device
dropped for their generation. -/
structure TrainEnd where
  partner : Option Partner
  dropped : List Nat
  deriving DecidableEq, Repr

/-- A mirrored record of a queue: the queue, its index, its 32 bytes. -/
structure Mirror where
  queue : Nat
  index : Nat
  data : List Byte
  deriving DecidableEq, Repr

/-- A record that the Forester writes for a step (R175, R308, R309), at a place in a core's scratchpad. -/
inductive StepRec
  /-- an attention record for rows of a context from row `row` of its step on, or for its drafts; `body` holds what the kernel fixes -/
  | att (core off ctx row : Nat) (draft : Bool) (body : List Byte)
  /-- a transfer record that streams a weight segment of a root -/
  | seg (core off root seg : Nat)
  /-- another transfer record, checked against a context -/
  | xfer (core off ctx : Nat) (body : List Byte)
  deriving DecidableEq, Repr

/-- What firmware and the loaded kernel bring to a step: the Forester that forms it, the Fields whose cores it uses, its Stand
job and the other devices of it, the batch capacity of each root's kernel, the cores whose step semaphore is posted, the records. -/
structure StepPlan where
  field : Nat
  cores : List Nat
  job : Option Nat
  devs : List Nat := []
  caps : List (Nat × Nat)
  posts : List Nat
  recs : List StepRec := []
  deriving DecidableEq, Repr

/-- A part of a segment of a kernel, and where it goes in the scratchpad (R175). -/
structure KernelCopy where
  seg : Nat
  first : Nat
  len : Nat
  off : Nat
  deriving DecidableEq, Repr

/-- How a Forester sets a core up for a kernel of a root before START (R175): partition words, copies, tables by number in the table
list with the place that their images pass through, address registers, entry point and limits. -/
structure KernelPlan where
  root : Nat
  parts : List Word
  copies : List KernelCopy
  tables : List Nat
  area : Nat
  regs : List (Nat × Word)
  entry : Word
  waitLimit : Word
  wdogLimit : Word
  deriving DecidableEq, Repr

/-- A START: the core, and the kernel that its Forester loads first (R175, R176). -/
structure StartReq where
  core : Nat
  load : Option KernelPlan
  deriving DecidableEq, Repr

/-- What a member's kernel ended with: a status, and the tokens drawn at its last row and at each of its drafts (R310). -/
structure MemberOut where
  ctx : Nat
  code : Nat
  draws : List Nat
  deriving DecidableEq, Repr

/-- The set of a FENCE DEVICE (R286): descriptors read and not completed, and for each enabled ring its enabling and the
position that its tail then had. -/
structure FenceSet where
  ids : List Nat
  marks : List (Nat × Nat × Nat)
  deriving DecidableEq, Repr

/-- A descriptor that has been read and has not completed (R276). -/
structure Descr where
  id : Nat
  ring : Nat
  /-- enabling of the ring it was read in, and its position since then -/
  epoch : Nat
  pos : Nat
  slot : Nat
  /-- event queue and home Field of the ring when it was read -/
  eq : Nat
  home : Nat
  bytes : List Byte
  env : DescEnv
  /-- timestamps of the five counters when the doorbell that announced it arrived (R312) -/
  stamps : List Nat
  /-- false while a fence of its ring holds it back (R286) -/
  started : Bool
  fence : Option FenceSet
  /-- its work has ended and its record waits for space (R292) -/
  ended : Bool
  /-- a Function Level Reset or a device reset has overtaken it: its record is written nowhere (R276) -/
  discard : Bool
  deriving DecidableEq, Repr

/-- A ring beside its registers. -/
structure RingState where
  epoch : Nat := 0
  read : Nat := 0
  /-- accepted doorbells that announced descriptors not yet read: the position after the last, and the timestamps -/
  stamps : List (Nat × List Nat) := []
  /-- after a head takeover (R261): descriptors below this position end without running -/
  abortTo : Nat := 0
  deriving DecidableEq, Repr

/-- An event record, formed (R288). -/
structure EvRec where
  ty : Nat
  code : Nat := 0
  flags : Nat := 0
  src : Nat := 4
  ts : Nat := 0
  w1 : Nat := 0
  w2 : Nat := 0
  w3 : Nat := 0
  /-- the descriptor it completes -/
  desc : Option Nat := none
  deriving DecidableEq, Repr

/-- What firmware of a Stand's devices writes into each other's windows (R259–R261, R359): to the twin, a ring's tail, an event
record with its queue position, a heartbeat; to a member's control window a claim, or its part of a Stand job's step; to the active
head's a report that an aborted job is cleared. -/
inductive HeadMsg
  | tail (ring tail : Nat)
  | record (queue index : Nat) (data : List Byte)
  | heartbeat
  | claim (epoch : Nat)
  | work (job step : Nat)
  | report (job : Nat)
  deriving DecidableEq, Repr

/-- An event record on its way to the host: its queue, the host address of its slot, the record, its 32 bytes. -/
structure Placed where
  queue : Nat
  host : Nat
  rcd : EvRec
  data : List Byte
  deriving DecidableEq, Repr

/-- Such a write to another device: its transaction once it is issued, how it ended, and the event record that waits for it (R260). -/
structure HeadWrite where
  dev : Nat
  msg : HeadMsg
  id : Option Nat := none
  done : Bool := false
  /-- the window refused it (R257) -/
  refused : Bool := false
  held : Option Placed := none
  deriving DecidableEq, Repr

/-- An event queue beside its registers: COMPLETION records that wait, records lost since the last OVERFLOW, records written
since it armed. -/
structure EqState where
  waiting : List EvRec := []
  lost : Nat := 0
  since : Nat := 0
  deriving DecidableEq, Repr

/-- An armed correlation (R295): the host's value and the five counters captured. -/
structure Corr where
  value : Nat
  stamps : List Nat
  deriving DecidableEq, Repr

/-- A STEP that a context holds (R279–R282). -/
structure HeldStep where
  /-- its descriptor; none once its completion is to be written nowhere (R297) -/
  desc : Option Nat
  ring : Nat
  tokens : Nat
  inCount : Nat
  inAddr : Nat
  outAddr : Nat
  outCap : Nat
  stop : Nat
  /-- draft tokens with their parents -/
  drafts : List (Nat × Nat)
  /-- input tokens committed, and the spread of the rest over the steps to come -/
  inUsed : Nat := 0
  plan : List Nat := []
  /-- the input was spread over two steps or more (R312) -/
  spread : Bool := false
  written : Nat := 0
  corrected : Bool := false
  deriving DecidableEq, Repr

/-- Fields that CTX SET replaces (R283). -/
structure CtxSettings where
  priority : Nat := 0
  deadline : Nat := 0
  temp : Nat := 0
  topP : Nat := 0
  topK : Nat := 0
  seed : Nat := 0
  deriving DecidableEq, Repr

/-- A context beside its table entry: what its home Forester keeps (R300, R329) and what it has reserved (R304). -/
structure CtxFw where
  settings : CtxSettings := {}
  /-- a SET that takes effect at the next step -/
  nextSettings : Option CtxSettings := none
  held : Option HeldStep := none
  genCopy : Nat := 0
  /-- TRIM and TEARDOWN descriptors that wait -/
  trims : List Nat := []
  teardown : Option Nat := none
  /-- drain timeouts of this teardown so far (R315) -/
  timeouts : Nat := 0
  /-- KV pages reserved, KV page size in units of 4 KiB, whether their first home is the spill pool -/
  pages : Nat := 0
  pageUnits : Nat := 0
  spill : Bool := false
  /-- Residency entries reserved for KV pages, those of objects among them -/
  ents : Nat := 0
  /-- KV-page objects: Residency entry, first page, pages -/
  objs : List (Nat × Nat × Nat) := []
  /-- components of every slab of a page, (offset, row bytes), that firmware copied from the manifest when it last formed a step of
  the context (R124, R301) -/
  slabs : List (Nat × Nat) := []
  /-- entries of the page list whose units are taken; more than PAGES while a larger list waits for a step boundary -/
  listWant : Nat := 0
  deriving DecidableEq, Repr

/-- A member of a running step (R308): its rows, its drafts, and how many of its input tokens the rows hold; the pins taken
for it, with the generations they were taken under. -/
structure Member where
  ctx : Nat
  gen : Nat
  rows : Nat
  drafts : Nat
  share : Nat
  /-- COMMITTED and VISIBLE as copied when the step started -/
  committed : Nat := 0
  visible : Nat := 0
  pins : List (Nat × Nat)
  /-- status that its step has been given so far -/
  code : Nat := 0
  deriving DecidableEq, Repr

/-- A sub-batch (R307). -/
structure SubBatch where
  root : Nat
  members : List Member
  /-- a weight page was rebuilt (R228), or failed (R229) -/
  corrected : Bool := false
  code : Nat := 0
  deriving DecidableEq, Repr

/-- A running step (R307). -/
structure StepRun where
  id : Nat
  /-- Field whose Forester formed it, Fields whose cores it uses, and its Stand job -/
  field : Nat
  cores : List Nat
  /-- the cores themselves: those whose step semaphore was posted (R175, R236) -/
  used : List Nat := []
  job : Option Nat
  subs : List SubBatch
  deriving DecidableEq, Repr

/-- Where the copy of a segment lies. -/
structure SegState where
  /-- installed: first extent and number of extents; swapped in: 0 -/
  ext : Nat := 0
  exts : Nat := 0
  /-- device-physical address of its first byte -/
  addr : Nat := 0
  /-- swapped in: its Residency entry -/
  res : Option Nat := none
  bad : Bool := false
  weak : Bool := false
  /-- Residency entry of a staged copy, and whether reads are redirected to it (R229) -/
  staged : Option Nat := none
  redirect : Bool := false
  /-- a copy from a Stand peer is under way, and firmware forms no step that needs the segment -/
  copying : Bool := false
  /-- a staged copy by STAGE_RANK is under way (R226) -/
  filling : Bool := false
  /-- REPAIR: the new run of extents -/
  fresh : Option (Nat × Nat) := none
  deriving DecidableEq, Repr

/-- The MODEL operations that take time (R220). -/
inductive RootOpKind
  | install | swapin | repair
  deriving DecidableEq, Repr

/-- A MODEL operation in progress on a root. -/
structure RootOp where
  kind : RootOpKind
  /-- its descriptor, or the tag of a service-port command -/
  desc : Option Nat
  port : Option Nat
  makeCurrent : Bool
  /-- state to return to -/
  before : Nat
  /-- the image: its address in outbound space, its length, its header -/
  addr : Nat
  bytes : Nat
  /-- segments still to be put in place, and segments in place and waiting for the step boundary -/
  todo : List Nat
  /-- service port: where the last payload ended -/
  last : Nat := 0
  deriving DecidableEq, Repr

/-- A model root (R219). States: 0 EMPTY … 7 REPAIRING. -/
structure Root where
  st : Nat := 0
  current : Bool := false
  near : Bool := false
  streamOnly : Bool := false
  header : List Byte := []
  manifest : List Byte := []
  pins : Nat := 0
  segs : List SegState := []
  op : Option RootOp := none
  deriving DecidableEq, Repr

/-- A copy of the catalogue (R223): its sequence number, whether its CRC is good, the installed roots by number. -/
structure CatCopy where
  seq : Nat := 0
  good : Bool := true
  roots : List (Nat × Root) := []
  deriving DecidableEq, Repr

/-- An XFER WRITE or READ that waits for its object to come HOME, or a FREE that waits for its pins to go (R284). -/
structure XferWait where
  desc : Nat
  entry : Nat
  free : Bool
  deriving DecidableEq, Repr

/-- A move of firmware's (R197, R198): the entry, the Stand addresses it moves between, its bytes, the context that it is checked
against; whether the object is coded at either end, the staging area, and the table slot of its blocks (none: RAW_ONLY); the leg to
come next, and how it ended. -/
structure Move where
  entry : Nat
  src : Nat
  dst : Nat
  len : Nat
  owner : Nat
  ownerGen : Nat
  down : Bool
  /-- the Field whose Skidder moves it -/
  field : Nat
  staged : Bool
  core : Nat
  off : Nat
  slot : Option Nat
  leg : Nat := 0
  outcome : Option Nat := none
  deriving DecidableEq, Repr

/-- A transfer of firmware's that waits for room on a channel of its Field (R199). -/
structure ChanWait where
  field : Nat
  x : Xfer
  p : Purpose
  deriving DecidableEq, Repr

/-- A Windfall capture in progress (R360–R363): the regions written so far, and the number of the region in progress. -/
structure Capture where
  device : Bool
  field : Nat
  cause : Nat
  slot : Nat
  tsStart : Nat
  next : Nat
  done : List Byte
  deriving DecidableEq, Repr

/-- A firmware bank (R376, R385): its Surveyor and its Forester package. `none` is the package loaded at manufacture, whose
bytes the model does not hold. -/
structure Bank where
  srv : Option (List Byte)
  frs : Option (List Byte)
  deriving DecidableEq, Repr

/-- The memories that carry an error injector (R337). -/
inductive InjUnit
  | spm (n : Nat)
  | nm (f : Nat)
  | ctx
  | res
  deriving DecidableEq, Repr

/-- How a maintenance command arrives (R370): its block lies in TAL_MAINT_BUF and GO is written, or it is the payload of a service-port
command with this tag. -/
inductive MaintSrc
  | host
  | port (tag : Nat) (block : List Byte)
  deriving DecidableEq, Repr

/-- An access from outside to a semaphore of a core's island (R232): a post, a take, a register write. -/
inductive FifoOp
  | post (i cnt : Nat)
  | take (i cnt : Nat)
  | write (i : Nat) (v : Word)
  deriving DecidableEq, Repr

/-- A timestamp counter (R294): its value when it was last read, and whether it runs. -/
structure Clock where
  value : Nat := 0
  run : Bool := false
  deriving DecidableEq, Repr

/-- Power and clocks beside their registers (R391–R406). -/
structure PowerState where
  /-- core island clocks stopped at 105 °C (R401) -/
  crit : Bool := false
  /-- accesses to semaphores in the handshake FIFOs of islands whose clock is stopped (R232) -/
  fifo : List FifoOp := []
  /-- the Surveyor has lowered operating points for temperature and not raised them all again -/
  throttled : Bool := false
  tripped : Bool := false
  standby : Bool := false
  /-- loss of power has been detected: every core island clock is stopped (R406) -/
  lost : Bool := false
  /-- no power, or PWRGOOD deasserted -/
  off : Bool := false
  /-- the last samples of package power, newest first, in units of 0.05 W (R397) -/
  samples : List Nat := []
  /-- how long the start of each step is delayed (R398), in steps of the Surveyor's choice -/
  stepDelay : Nat := 0
  deriving DecidableEq, Repr

end Sys2Proof.Machine
end

