-- ==== Sys2Proof/Syntax.lean ====
section
/-! DEFINITION. The commands of the block, one constructor per row of the opcode table. An operand is what the command names (a
core, a Field, a value written) or what the world outside the block supplies with it: data read, outcomes of analogue processes,
choices the manual leaves to firmware or to a kernel. -/

namespace Sys2Proof

/-- A command: a register access, a port operation, an event on a link or a pin, or an event of one of the block's engines. -/
inductive Instr
  /-- BUNDLE_ISSUE (R146, R162–R167): core n issues its next bundle. `stalls`: the causes, by rank, of each stall cycle
  before it; `also`: a second core event of the same cycle is trapped with it (R169). -/
  | bundleIssue (n : Nat) (stalls : List (List Nat)) (also : Bool)
  /-- HDG_TIMEOUT (R163, R170). -/
  | hdgTimeout (n : Nat) (also : Bool)
  /-- WATCHDOG (R170). -/
  | watchdog (n : Nat) (also : Bool)
  /-- SEQUENCER_STOPPED (R142, R172). -/
  | sequencerStopped (n : Nat)
  /-- START (R142, R176, R392). `load`: the kernel that the Forester loads before it (R61, R100, R175). -/
  | start (q : Machine.StartReq)
  /-- RESUME (R142, R170, R176). -/
  | resume (n : Nat)
  /-- HALT (R170, R176). -/
  | halt (n : Nat) (also : Bool)
  /-- TINE_RESCALE (R25–R27, R32, R53–R55): the rescale stage of Tine t, or of its gang, closes one group. -/
  | tineRescale (n t : Nat)
  /-- TINE_DRAIN (R28–R30, R35–R38). -/
  | tineDrain (n t : Nat)
  /-- ATTEND_BLOCK (R119–R126). `wait`: cycles that it waited for its buffer (R127). -/
  | attendBlock (n wait : Nat)
  /-- KV_FETCH_BLOCK (R126, R127): the stream of the record at `a`. -/
  | kvFetchBlock (n a : Nat)
  /-- KVWRITE_DONE (R128–R132, R158): entry e of the core's Skidder queue. -/
  | kvwriteDone (n e : Nat)
  /-- LANE_BLOCK_START (R101–R103). -/
  | laneBlockStart (n l : Nat)
  /-- LANE_BLOCK_DONE (R101, R104, R105); a block that waited for room in the lane's queue is fetched. -/
  | laneBlockDone (n l : Nat)
  /-- TABLE_LOAD_DONE (R100). -/
  | tableLoadDone (n : Nat)
  /-- TABLE_LOAD (R100, R112): a write of LOAD to HRWn_TBL_CTRL. -/
  | tableLoad (n slot gen : Nat)
  /-- INVALIDATE (R100, R112). -/
  | invalidate (n slot : Nat)
  /-- CHAN_LANES_WRITE (R108, R112). -/
  | chanLanesWrite (n : Nat) (v : Word)
  /-- ENCODE_BLOCK_DONE (R109–R111). -/
  | encodeBlockDone (n : Nat)
  /-- EXPAND_DONE (R135, R158). -/
  | expandDone (n : Nat)
  /-- LATCH (R64). -/
  | latch (n : Nat)
  /-- COMMIT (R60, R64). -/
  | commit (n : Nat)
  /-- SWEEP (R88, R89). -/
  | sweep (n : Nat) (v : Word)
  /-- SWEEP_DONE (R88, R89): what waited for the sweep is served. -/
  | sweepDone (n : Nat)
  /-- PARTITION_WRITE (R78, R79). -/
  | partitionWrite (n k : Nat) (v : Word)
  /-- SPM_CE_WRITE_BACK (R81): word w of the scratchpad. -/
  | spmCeWriteBack (n w : Nat)
  /-- FORCED_GRANT (R77, R166): the access goes ahead of the island, which it stalls. -/
  | forcedGrant (n cycles : Nat) (bubble : Bool)
  /-- SKIDDER_TRANSFER_COMPLETE (R161, R314). -/
  | skidderTransferComplete (n e : Nat)
  /-- CHANNEL_POST (R199): a write of SKDn_CHk_POST_HI. -/
  | channelPost (f k : Nat) (hi : Word)
  /-- CHANNEL_RECORD_START (R199, R314). `host`: the bytes that host memory holds, each with its poison, when the record lies
  there. -/
  | channelRecordStart (f k : Nat) (host : List (Byte × Bool))
  /-- CHANNEL_TRANSFER_COMPLETE (R199, R333). -/
  | channelTransferComplete (f k : Nat)
  /-- TRANSFER_STALL (R200, R284). -/
  | transferStall (f : Nat) (coreQ : Bool) (core num : Nat)
  /-- TRANSFER_RESUME (R200). -/
  | transferResume (f : Nat) (coreQ : Bool) (core num : Nat)
  /-- SKIDDER_ABORT (R201, R334). -/
  | skidderAbort (f : Nat) (v : Word)
  /-- MEMORY_REPLY (R203, R314, R331, R350): a transaction is answered. `data`: what a remote or host read brings. -/
  | memoryReply (id : Nat) (status : Machine.ReplyStatus) (data : List (Byte × Bool))
  /-- BUDGET_GRANT (R204): the next waiter of a pool; `cycles` that it waited. -/
  | budgetGrant (p cycles : Nat)
  /-- NM_ACCESS (R181, R182, R320, R321, R336): a requester of Field rf reads or writes at offset x of Field f's near
  memory; held, it waits. -/
  | nmAccess (f x : Nat) (write : Bool) (data : List (Byte × Bool)) (len rf : Nat)
  /-- NM_CE_WRITE_BACK (R320): granule g. -/
  | nmCeWriteBack (g : Nat)
  /-- WS_PAGE_READ (R211, R228, R229). `errs`: bit errors of each die's page, none where it cannot be read; `peer`: a Stand
  peer that holds the segment. -/
  | wsPageRead (f page : Nat) (errs : List (Option Nat)) (peer : Option Nat)
  /-- OMAP_SYNC (R186). -/
  | omapSync (v : Word)
  /-- SPILL_POOL_WRITE (R187, R317): register w of the three. -/
  | spillPoolWrite (w : Nat) (v : Word)
  /-- RES_READ (R194, R195). -/
  | resRead (p e : Nat) (acc : Machine.PortAccess)
  /-- RES_ALLOC (R195). -/
  | resAlloc (p e : Nat) (acc : Machine.PortAccess)
  /-- RES_PIN (R191, R195). -/
  | resPin (p gen e : Nat) (acc : Machine.PortAccess)
  /-- RES_UNPIN (R195). -/
  | resUnpin (p gen e : Nat) (acc : Machine.PortAccess)
  /-- RES_MOVE (R195–R197, R302). -/
  | resMove (p gen : Nat) (down : Bool) (e : Nat) (acc : Machine.PortAccess)
  /-- RES_MOVE_DONE (R195, R197). -/
  | resMoveDone (p gen e : Nat) (acc : Machine.PortAccess)
  /-- RES_MOVE_CANCEL (R195, R197). -/
  | resMoveCancel (p gen e : Nat) (acc : Machine.PortAccess)
  /-- RES_RETIRE (R195). -/
  | resRetire (p gen e : Nat) (acc : Machine.PortAccess)
  /-- RES_RELEASE (R195). -/
  | resRelease (p gen e : Nat) (acc : Machine.PortAccess)
  /-- RES_FORGET (R195). -/
  | resForget (p gen e : Nat) (acc : Machine.PortAccess)
  /-- RES_RESERVED_OP (R207). -/
  | resReservedOp (p op e : Nat) (acc : Machine.PortAccess)
  /-- SEGMENT_PROGRAM (R212, R218, R224, R230): the installation engine takes the next segment of root r. -/
  | segmentProgram (r : Nat) (bs : List Byte) (bad : Bool) (fails : List (List Nat))
  /-- REPAIR_SWITCHOVER (R230). -/
  | repairSwitchover (r : Nat)
  /-- EXPERT_REQUEST (R227). -/
  | expertRequest (n r layer list count area : Nat) (sem : Word)
  /-- SEM_POST_ARRIVE (R232, R243): a post issued under generation gen of Field f. -/
  | semPostArrive (f gen i cnt : Nat)
  /-- HDG_POST (R234, R245, R246). -/
  | hdgPost (v : Word)
  /-- HDG_TAKE (R235, R245, R246). -/
  | hdgTake (v : Word)
  /-- HDG_SEM_WRITE (R233, R246). -/
  | hdgSemWrite (i : Nat) (v : Word)
  /-- NOTIFY_READ (R235). -/
  | notifyRead (f : Nat)
  /-- BARRIER_ARRIVAL (R237, R243). -/
  | barrierArrival (f gen g sem cnt : Nat)
  /-- HDG_BAR_ARRIVE (R237, R246). -/
  | hdgBarArrive (v : Word)
  /-- BARRIER_CFG_WRITE (R238, R246). -/
  | barrierCfgWrite (g : Nat) (v : Word)
  /-- HDG_ABORT (R244, R245). -/
  | hdgAbort (v : Word)
  /-- ABORT_TOKEN_RECEIVE (R243, R244): job j, sequence q, of device d under its generation. -/
  | abortTokenReceive (p j q : Nat) (d : Machine.Issuer)
  /-- HDG_ABORT_CLEAR (R245). -/
  | hdgAbortClear (v : Word)
  /-- HEDGEROW_FRAME_RECEIVE (R242, R243, R352). -/
  | hedgerowFrameReceive (p : Nat) (crcOk : Bool) (d gen dst : Nat) (m : Machine.HdgMsg)
  /-- GEN_ANNOUNCE_RECEIVE (R352). -/
  | genAnnounceReceive (p d v : Nat)
  /-- PORT_TRAINING (R250). -/
  | portTraining (p : Nat)
  /-- PORT_TRAINING_DONE (R249–R252, R352). `dropped`: this device's requests on the port that another device dropped for their
  generation. -/
  | portTrainingDone (p failed : Nat) (hdgLane : Bool) (e : Machine.TrainEnd)
  /-- FLIT_RECEIVE (R248): a flit with its data and its CRC. -/
  | flitReceive (p seq : Nat) (f : Machine.Flit)
  /-- ACK_TIMEOUT (R248, R249). -/
  | ackTimeout (p : Nat)
  /-- ACKNOWLEDGEMENT_RECEIVE (R248). -/
  | acknowledgementReceive (p seq : Nat) (neg : Bool)
  /-- RETRAIN (R249). -/
  | retrain (p : Nat) (v : Word)
  /-- FAB_CFG_WRITE (R250, R252). -/
  | fabCfgWrite (v : Word)
  /-- FAB_ROUTE_WRITE (R252). -/
  | fabRouteWrite (d : Nat) (v : Word)
  /-- FABRIC_PACKET_RECEIVE (R251, R253, R256, R352). -/
  | fabricPacketReceive (p : Nat) (k : Machine.FabPacket)
  /-- WINDOW_ENTRY_WRITE (R255). -/
  | windowEntryWrite (i w : Nat) (v : Word) (host : Bool)
  /-- WIN_SYNC (R258). -/
  | winSync (v : Word)
  /-- HEARTBEAT (R260). -/
  | heartbeat
  /-- HEAD_TAKEOVER (R261). -/
  | headTakeover (members : List Nat) (mirror : List Machine.Mirror) (done : List (Nat × Nat))
  /-- HEAD_CLAIM (R261). -/
  | headClaim (d epoch : Nat) (windows : List Nat)
  /-- BUCKER_POST (R264, R268). -/
  | buckerPost (f : Nat) (hi : Word)
  /-- BUCKER_JOB_START (R263–R265). `host`, `hostTab`: what host memory holds where the record or its table lies there. -/
  | buckerJobStart (f : Nat) (host hostTab : List (Byte × Bool))
  /-- BUCKER_JOB_DONE (R265, R266). -/
  | buckerJobDone (f : Nat)
  /-- RING_TAIL_DOORBELL (R273, R275, R312). -/
  | ringTailDoorbell (r off : Nat) (v : Word)
  /-- EQ_HEAD_DOORBELL (R273, R287, R292, R293). -/
  | eqHeadDoorbell (q off : Nat) (v : Word)
  /-- NARROW_WRITE_DROP (R9, R273). -/
  | narrowWriteDrop
  /-- DESCRIPTOR_READ (R274–R278): the home Forester of ring r reads the descriptor at its head; `bytes` are its 64 bytes.
  -/
  | descriptorRead (r : Nat) (bytes : List Byte) (env : Machine.DescEnv)
  /-- FENCE_COMPLETE (R286). -/
  | fenceComplete (r : Nat)
  /-- HOLDOFF_EXPIRY (R293). -/
  | holdoffExpiry (q : Nat)
  /-- RING_CFG_WRITE (R274). -/
  | ringCfgWrite (r : Nat) (v : Word)
  /-- EQ_CFG_WRITE (R287). -/
  | eqCfgWrite (q : Nat) (v : Word)
  /-- CORRELATION_ARM (R295). -/
  | correlationArm (v : Word)
  /-- TIMESTAMP_LATCH (R294). -/
  | timestampLatch (k : Nat)
  /-- FUNCTION_LEVEL_RESET (R297). -/
  | functionLevelReset
  /-- STEP_START (R307, R308, R313). -/
  | stepStart (plan : Machine.StepPlan)
  /-- STEP_COMMIT (R281, R310–R313). -/
  | stepCommit (id : Nat) (outs : List Machine.MemberOut)
  /-- CTX_PORT_READ (R317). -/
  | ctxPortRead (p e : Nat) (acc : Machine.PortAccess)
  /-- CTX_PORT_WRITE (R317). -/
  | ctxPortWrite (p gen e : Nat) (acc : Machine.PortAccess)
  /-- TAKE (R317): counter and amount stand in the port's first argument word. -/
  | take (p : Nat) (acc : Machine.PortAccess)
  /-- GIVE (R317). -/
  | give (p : Nat) (acc : Machine.PortAccess)
  /-- CTX_RESERVED_OP (R317). -/
  | ctxReservedOp (p op gen e : Nat) (acc : Machine.PortAccess)
  /-- DRAIN_TIMEOUT (R315). -/
  | drainTimeout (e : Nat) (stuck : List (Nat × Nat))
  /-- TEARDOWN_DRAINED (R315). -/
  | teardownDrained (e : Nat)
  /-- TRIM_APPLY (R283, R302). -/
  | trimApply (e : Nat)
  /-- SCRUB_TICK (R322). -/
  | scrubTick (f : Nat)
  /-- PPR_REQUEST (R325, R326). `spare`: the bank named has a spare row left. -/
  | pprRequest (f : Nat) (v : Word) (spare : Bool)
  /-- PPR_DONE (R325, R326). -/
  | pprDone (f : Nat) (failed : Bool)
  /-- INJECTOR_ARM (R337–R339). -/
  | injectorArm (unit : Machine.InjUnit) (v : Word)
  /-- QUARANTINE_CLEAR (R329). `fw`: with Idaskub's handling of the entry. -/
  | quarantineClear (res fw : Bool) (v : Word)
  /-- DEVICE_ERROR_REPORT (R174, R289, R333). -/
  | deviceErrorReport (block u : Nat)
  /-- CORE_RESET (R348, R354, R371). -/
  | coreReset (f : Nat) (v : Word) (host : Bool)
  /-- FIELD_RESET (R346, R347, R355–R358). `stuck`: regions that will not answer the capture. -/
  | fieldReset (f cause : Nat) (stuck : List (Nat × Nat))
  /-- FIELD_READY (R351, R355). -/
  | fieldReady (f : Nat)
  /-- FIELD_READY_TIMEOUT (R346, R355). -/
  | fieldReadyTimeout (f : Nat) (stuck : List (Nat × Nat))
  /-- FORESTER_TRAP (R332, R346). -/
  | foresterTrap (f cause addr : Nat) (stuck : List (Nat × Nat))
  /-- FORESTER_WATCHDOG (R346). -/
  | foresterWatchdog (f addr : Nat) (stuck : List (Nat × Nat))
  /-- SURVEYOR_TRAP (R332, R346). -/
  | surveyorTrap (cause addr : Nat) (stuck : List (Nat × Nat))
  /-- SURVEYOR_WATCHDOG (R346). -/
  | surveyorWatchdog (addr : Nat) (stuck : List (Nat × Nat))
  /-- HOST_FIELD_RESET (R346, R372). -/
  | hostFieldReset (v : Word) (stuck : List (Nat × Nat))
  /-- HOST_DEVICE_RESET (R346, R372). -/
  | hostDeviceReset (v : Word) (stuck : List (Nat × Nat))
  /-- DEVICE_RESET (R346–R350, R356–R358). -/
  | deviceReset (cause : Nat) (stuck : List (Nat × Nat))
  /-- DEVICE_READY (R356, R378, R379, R382). -/
  | deviceReady (stuck : List (Nat × Nat))
  /-- WINDFALL_TIME_LIMIT (R362). -/
  | windfallTimeLimit (stuck : List (Nat × Nat))
  /-- OBSERVATION_TIMEOUT (R362, R393). -/
  | observationTimeout (got : Nat) (stuck : List (Nat × Nat))
  /-- FIELD_FENCE (R353, R371). -/
  | fieldFence (f : Nat) (v : Word) (host : Bool)
  /-- FIELD_FENCE_DONE (R353). -/
  | fieldFenceDone (f : Nat)
  /-- STAND_ABORT_RECOVERY (R359). -/
  | standAbortRecovery (j started : Nat) (windows groups sems moves : List Nat)
  /-- TALLY_READ_SELECT (R369). -/
  | tallyReadSelect (v : Word)
  /-- WINDFALL_PAGE_SELECT (R369). -/
  | windfallPageSelect (v : Word)
  /-- REPAIR_ADD (R91, R370). -/
  | repairAdd (m : Machine.MaintSrc)
  /-- REPAIR_CLEAR (R370). -/
  | repairClear (m : Machine.MaintSrc)
  /-- TALLY_ERASE (R370). -/
  | tallyErase (m : Machine.MaintSrc)
  /-- FUSE_ADVANCE (R380): at most this many fuses before a loss of power. -/
  | fuseAdvance (fuses : Nat)
  /-- ATTEST_GO (R384). `busy`: a report is in progress. -/
  | attestGo (busy : Bool)
  /-- LOAD (R377, R385). `bytes`: the package as host memory holds it. -/
  | load (bytes : List Byte) (poisoned busy : Bool)
  /-- ACTIVATE (R385). -/
  | activate (busy : Bool)
  /-- IDENTIFY (R388). -/
  | identify (tag : Nat)
  /-- TALLY_READ (R369, R388). -/
  | tallyRead (tag first count : Nat)
  /-- WINDFALL_READ (R388). -/
  | windfallRead (tag arg : Nat)
  /-- ATTEST (R384, R388). -/
  | attest (tag : Nat) (nonce : List Byte) (busy : Bool)
  /-- CERT_READ (R383, R388). -/
  | certRead (tag : Nat)
  /-- FW_LOAD (R377, R385, R388). -/
  | fwLoad (tag : Nat) (bytes : List Byte) (busy : Bool)
  /-- FW_ACTIVATE (R385, R388). -/
  | fwActivate (tag : Nat) (busy : Bool)
  /-- IMAGE_INSTALL (R224, R285, R388). -/
  | imageInstall (tag arg len : Nat) (env : Machine.DescEnv)
  /-- IMAGE_REPAIR (R230, R388). -/
  | imageRepair (tag arg len : Nat) (env : Machine.DescEnv)
  /-- MAINT (R370, R388). -/
  | maint (tag : Nat) (block : List Byte)
  /-- RESET (R346, R379, R388). -/
  | reset (tag : Nat) (recovery : Bool) (stuck : List (Nat × Nat))
  /-- SERVICE_PORT_ENABLE (R386, R390). -/
  | servicePortEnable (v : Word)
  /-- SERVICE_RESERVED_OPCODE (R387). -/
  | serviceReservedOpcode (tag op magic : Nat)
  /-- POWER_LOSS (R366, R368, R406). -/
  | powerLoss (src mask : Nat)
  /-- PWRGOOD_DEASSERT (R405, R406). -/
  | pwrgoodDeassert
  /-- POWER_ON (R348, R378, R405, R408). -/
  | powerOn (devid hostSel : Nat)
  /-- DOMAIN_SWITCH (R392, R393, R403). -/
  | domainSwitch (k : Nat) (v : Word) (host : Bool)
  /-- DOMAIN_SWITCH_DONE (R392, R393, R398). -/
  | domainSwitchDone (k nonCore : Nat)
  /-- CORE_OP_WRITE (R392, R395, R396). -/
  | coreOpWrite (n : Nat) (v : Word) (host : Bool)
  /-- CORE_OP_APPLY (R236, R396). -/
  | coreOpApply (n : Nat)
  /-- OP_DEFER_EXPIRY (R396). -/
  | opDeferExpiry (n : Nat)
  /-- POWER_SETTING_WRITE (R397, R398). `nonCore`: the non-core power in mW. -/
  | powerSettingWrite (v : Word) (nonCore : Nat)
  /-- POWER_SAMPLE (R397, R398). -/
  | powerSample (x : Nat)
  /-- IDLE (R399). -/
  | idle
  /-- IDLE_WAKE (R394, R399). -/
  | idleWake (doms : List Nat)
  /-- STANDBY (R400). -/
  | standby (v : Word)
  /-- STANDBY_EXIT (R400). -/
  | standbyExit (stuck : List (Nat × Nat))
  /-- THERMAL_THROTTLE_TICK (R401). -/
  | thermalThrottleTick (temps : List Nat)
  /-- THERMAL_CRIT (R401). -/
  | thermalCrit (temps : List Nat)
  /-- THERMAL_CRIT_END (R401). -/
  | thermalCritEnd (temps : List Nat)
  /-- THERMAL_TRIP (R401). -/
  | thermalTrip (temps : List Nat)
  /-- THERMAL_TRIP_RECOVERY (R401). -/
  | thermalTripRecovery (temps : List Nat) (stuck : List (Nat × Nat))
  /-- THROTTLE_RAISE (R401). -/
  | throttleRaise (temps : List Nat)
  /-- STACK_PROGRAMMING_PAUSE (R401). -/
  | stackProgrammingPause (f temp : Nat)
  /-- STACK_PROGRAMMING_RESUME (R401). -/
  | stackProgrammingResume (f temp : Nat)
  /-- RC_REGISTER_READ (R9, R45): a read of `bytes` bytes at BAR0 offset o; a whole, aligned one performs the read action.
  -/
  | rcRegisterRead (o bytes : Nat)
  /-- REGISTER_WRITE (R9, R412). -/
  | registerWrite (o bytes : Nat) (v : DWord) (host : Bool)
  deriving DecidableEq, Repr

end Sys2Proof
end

