-- ==== Sys2Proof/Decode.lean ====
section
/-! DEFINITION. The decoder over the rows of the opcode table that give bits. The table of this block gives no row any bits: its
commands are register accesses, port operations and events, and no word spells one. -/

namespace Sys2Proof

/-- The command that a word spells: none, for every word. -/
def decodeTableWord (_nbits _w : Nat) : Option Instr := none

end Sys2Proof
end

