-- ==== Sys2Proof/Machine/Regs.lean ====
section
/-! DEFINITION. The set-up registers (R9, R19–R21, R412–R414): where each lies, which bits a write stores or clears, whether
a read clears it, its reset value. One row per register or register array, as the manual's register tables list them. -/

namespace Sys2Proof.Machine

/-- One row of the register tables. `rw`: bits a write stores. `w1c`: bits a written 1 clears. `rc`: a whole read clears. -/
structure RegRow where
  off : Nat
  count : Nat
  stride : Nat
  rw : Nat
  w1c : Nat
  rc : Bool
  reset : Nat
  deriving DecidableEq, Repr

/-! Region-relative offsets, under the register names of the manual. -/

def Reg.COREn_CTRL : Nat := 0
def Reg.COREn_STATUS : Nat := 4
def Reg.COREn_ENTRY : Nat := 8
def Reg.COREn_PC : Nat := 0xc
def Reg.COREn_TRAP : Nat := 0x10
def Reg.COREn_EVENT_PEND : Nat := 0x14
def Reg.COREn_EVENT_EN : Nat := 0x18
def Reg.COREn_WAIT_LIMIT : Nat := 0x1c
def Reg.COREn_WDOG_LIMIT : Nat := 0x20
def Reg.COREn_SKQ_STATUS : Nat := 0x24
def Reg.COREn_PROG_CYCLE_CNT : Nat := 0x40
def Reg.COREn_ISLAND_CYCLE_CNT : Nat := 0x44
def Reg.COREn_STALL_CNT : Nat := 0x48
def Reg.COREn_BUBBLE_CNT : Nat := 0x4c
def Reg.COREn_BUNDLE_CNT : Nat := 0x50
def Reg.COREn_SEM_HOLD_CNT : Nat := 0x54
def Reg.COREn_SKQ_HOLD_CNT : Nat := 0x58
def Reg.COREn_BUSY_HOLD_CNT : Nat := 0x5c
def Reg.COREn_CE_HOLD_CNT : Nat := 0x60
def Reg.COREn_SKQ_ERR_CNT : Nat := 0x64
def Reg.COREn_ARr : Nat := 0x100
def Reg.SPMn_CAP : Nat := 0x4000
def Reg.SPMn_STATUS : Nat := 0x4004
def Reg.SPMn_ERR_STATUS : Nat := 0x4008
def Reg.SPMn_ERR_EVENT_EN : Nat := 0x400c
def Reg.SPMn_SWEEP : Nat := 0x4010
def Reg.SPMn_ARB_CTRL : Nat := 0x4014
def Reg.SPMn_CE_ADDR : Nat := 0x4018
def Reg.SPMn_UE_ADDR : Nat := 0x401c
def Reg.SPMn_REPAIR_STATUS : Nat := 0x4020
def Reg.SPMn_CE_CNT : Nat := 0x4040
def Reg.SPMn_UE_CNT : Nat := 0x4044
def Reg.SPMn_RMW_CNT : Nat := 0x4048
def Reg.SPMn_CONFLICT_HOLD_CNT : Nat := 0x404c
def Reg.SPMn_ARB_HOLD_CNT : Nat := 0x4050
def Reg.SPMn_SWEEP_HOLD_CNT : Nat := 0x4054
def Reg.SPMn_DROP_CNT : Nat := 0x4058
def Reg.SPMn_INJ_CTRL : Nat := 0x4080
def Reg.SPMn_INJ_ADDR : Nat := 0x4084
def Reg.SPMn_INJ_DATA_LO : Nat := 0x4088
def Reg.SPMn_INJ_DATA_HI : Nat := 0x408c
def Reg.SPMn_PARTk : Nat := 0x4100
def Reg.TINEn_CAP : Nat := 0x8000
def Reg.TINEn_STATUS : Nat := 0x8004
def Reg.TINEn_ERR_STATUS : Nat := 0x8008
def Reg.TINEn_ERR_EVENT_EN : Nat := 0x800c
def Reg.TINEn_BUBBLE_HRW_CNT : Nat := 0x8010
def Reg.TINEn_BUBBLE_SPM_CNT : Nat := 0x8014
def Reg.TINEn_BUBBLE_ARB_CNT : Nat := 0x8018
def Reg.TINEn_DRAIN_HOLD_CNT : Nat := 0x801c
def Reg.TINEn_MASK_SLOT_CNT : Nat := 0x8020
def Reg.TINEn_PAD_SLOT_CNT : Nat := 0x8024
def Reg.TINEn_TILE_CNT : Nat := 0x8028
def Reg.VUn_CAP : Nat := 0xc000
def Reg.VUn_ERR_STATUS : Nat := 0xc008
def Reg.VUn_ERR_EVENT_EN : Nat := 0xc00c
def Reg.VUn_OP_CNT : Nat := 0xc040
def Reg.VUn_CVT_SAT_CNT : Nat := 0xc044
def Reg.VUn_PAGE_FAULT_CNT : Nat := 0xc048
def Reg.VUn_SHT_INDEX : Nat := 0xc100
def Reg.VUn_SHT_CTRL : Nat := 0xc104
def Reg.VUn_SHT_STATUS : Nat := 0xc108
def Reg.VUn_SHT_EVENT_EN : Nat := 0xc10c
def Reg.VUn_SAT_TOTAL_CNT : Nat := 0xc110
def Reg.VUn_SHT_DATAw : Nat := 0xc140
def Reg.THRn_CAP : Nat := 0x10000
def Reg.THRn_STATUS : Nat := 0x10004
def Reg.THRn_ERR_STATUS : Nat := 0x10008
def Reg.THRn_ERR_EVENT_EN : Nat := 0x1000c
def Reg.THRn_FAULT_INFO : Nat := 0x10010
def Reg.THRn_FAULT_CTX : Nat := 0x10014
def Reg.THRn_BLOCK_CNT : Nat := 0x10040
def Reg.THRn_ROW_CNT : Nat := 0x10044
def Reg.THRn_KV_WAIT_CNT : Nat := 0x10048
def Reg.THRn_QUEUE_HOLD_CNT : Nat := 0x1004c
def Reg.THRn_PAGE_FAULT_CNT : Nat := 0x10050
def Reg.THRn_KV_WRITE_DROP_CNT : Nat := 0x10054
def Reg.THRn_EMPTY_ROW_CNT : Nat := 0x10058
def Reg.THRn_KV_FETCH_CNT : Nat := 0x1005c
def Reg.HRWn_CAP : Nat := 0x14000
def Reg.HRWn_STATUS : Nat := 0x14004
def Reg.HRWn_ERR_STATUS : Nat := 0x14008
def Reg.HRWn_ERR_EVENT_EN : Nat := 0x1400c
def Reg.HRWn_LANE_CTRL : Nat := 0x14010
def Reg.HRWn_TBL_ADDR : Nat := 0x14014
def Reg.HRWn_TBL_CTRL : Nat := 0x14018
def Reg.HRWn_TBL_RESULT : Nat := 0x1401c
def Reg.HRWn_ERR_INFO : Nat := 0x14020
def Reg.HRWn_DEC_BLK_CNT : Nat := 0x14040
def Reg.HRWn_DEC_RAW_BLK_CNT : Nat := 0x14044
def Reg.HRWn_DEC_PAYLOAD_CNT : Nat := 0x14048
def Reg.HRWn_ENC_BLK_CNT : Nat := 0x1404c
def Reg.HRWn_ENC_RAW_BLK_CNT : Nat := 0x14050
def Reg.HRWn_DEC_ERR_CNT : Nat := 0x14054
def Reg.HRWn_GEN_MISMATCH_CNT : Nat := 0x14058
def Reg.HRWn_HOLD_CNT : Nat := 0x1405c
def Reg.HRWn_SLOTs : Nat := 0x14100
def Reg.FLDn_CTRL : Nat := 0
def Reg.FLDn_STATUS : Nat := 4
def Reg.FLDn_GEN : Nat := 8
def Reg.FLDn_CORE_RESET : Nat := 0xc
def Reg.FLDn_FENCE : Nat := 0x10
def Reg.FLDn_RESET_CAUSE : Nat := 0x14
def Reg.FLDn_STALE_REPLY_CNT : Nat := 0x40
def Reg.FLDn_FENCE_CNT : Nat := 0x44
def Reg.FLDn_CORE_EVENT : Nat := 0x100
def Reg.SKDn_CAP : Nat := 0x10000
def Reg.SKDn_STATUS : Nat := 0x10004
def Reg.SKDn_ERR_STATUS : Nat := 0x10008
def Reg.SKDn_ERR_EVENT_EN : Nat := 0x1000c
def Reg.SKDn_WDOG : Nat := 0x10010
def Reg.SKDn_ABORT : Nat := 0x10014
def Reg.SKDn_STALL_INFO : Nat := 0x10018
def Reg.SKDn_TXN : Nat := 0x1001c
def Reg.SKDn_XFER_CNT : Nat := 0x10040
def Reg.SKDn_BYTE_CNT : Nat := 0x10044
def Reg.SKDn_STALL_CNT : Nat := 0x10048
def Reg.SKDn_BUDGET_WAIT_CNT : Nat := 0x1004c
def Reg.SKDn_ABORT_CNT : Nat := 0x10050
def Reg.SKDn_LATE_REPLY_CNT : Nat := 0x10054
def Reg.SKDn_CHk_POST_LO : Nat := 0x10100
def Reg.SKDn_CHk_POST_HI : Nat := 0x10104
def Reg.SKDn_CHk_STATUS : Nat := 0x10200
def Reg.BKRn_CAP : Nat := 0x20000
def Reg.BKRn_STATUS : Nat := 0x20004
def Reg.BKRn_ERR_STATUS : Nat := 0x20008
def Reg.BKRn_ERR_EVENT_EN : Nat := 0x2000c
def Reg.BKRn_POST_LO : Nat := 0x20010
def Reg.BKRn_POST_HI : Nat := 0x20014
def Reg.BKRn_JOB_CNT : Nat := 0x20040
def Reg.BKRn_BYTE_CNT : Nat := 0x20044
def Reg.BKRn_REMOTE_BYTE_CNT : Nat := 0x20048
def Reg.NMn_CAP : Nat := 0x30000
def Reg.NMn_ECC_BASE : Nat := 0x30004
def Reg.NMn_STATUS : Nat := 0x30008
def Reg.NMn_RD_CNT : Nat := 0x30040
def Reg.NMn_WR_CNT : Nat := 0x30044
def Reg.NMn_RMW_CNT : Nat := 0x30048
def Reg.NMn_DROP_CNT : Nat := 0x3004c
def Reg.NMn_SCRUB_CTRL : Nat := 0x30100
def Reg.NMn_SCRUB_STATUS : Nat := 0x30104
def Reg.NMn_ERR_STATUS : Nat := 0x30108
def Reg.NMn_ERR_EVENT_EN : Nat := 0x3010c
def Reg.NMn_CE_ADDR : Nat := 0x30110
def Reg.NMn_UE_ADDR : Nat := 0x30114
def Reg.NMn_CE_ROW : Nat := 0x30118
def Reg.NMn_UE_ROW : Nat := 0x3011c
def Reg.NMn_CE_THRESH : Nat := 0x30120
def Reg.NMn_PPR_CTRL : Nat := 0x30124
def Reg.NMn_PPR_STATUS : Nat := 0x30128
def Reg.NMn_INJ_CTRL : Nat := 0x30130
def Reg.NMn_INJ_ADDR : Nat := 0x30134
def Reg.NMn_INJ_DATA_LO : Nat := 0x30138
def Reg.NMn_INJ_DATA_HI : Nat := 0x3013c
def Reg.NMn_CE_CNT : Nat := 0x30140
def Reg.NMn_UE_CNT : Nat := 0x30144
def Reg.NMn_POISON_READ_CNT : Nat := 0x30148
def Reg.NMn_SCRUB_CE_CNT : Nat := 0x3014c
def Reg.NMn_PPR_CNT : Nat := 0x30150
def Reg.CTX_CAP : Nat := 0x500000
def Reg.CTX_STATUS : Nat := 0x500004
def Reg.CTX_ERR_STATUS : Nat := 0x500008
def Reg.CTX_ERR_EVENT_EN : Nat := 0x50000c
def Reg.CTX_CE_CNT : Nat := 0x500050
def Reg.CTX_UE_CNT : Nat := 0x500054
def Reg.CTX_ECC_STATUS : Nat := 0x500058
def Reg.CTX_ECC_EVENT_EN : Nat := 0x50005c
def Reg.CTX_ERR_ENTRY : Nat := 0x500060
def Reg.CTX_QUAR_CLEAR : Nat := 0x500064
def Reg.CTX_INJ_CTRL : Nat := 0x500070
def Reg.CTX_INJ_MASK : Nat := 0x500074
def Reg.CTX_P0_ARGw : Nat := 0x500100
def Reg.CTX_P0_CMD : Nat := 0x500140
def Reg.CTX_P0_RESULT : Nat := 0x500144
def Reg.CTX_P1_ARGw : Nat := 0x500180
def Reg.CTX_P1_CMD : Nat := 0x5001c0
def Reg.CTX_P1_RESULT : Nat := 0x5001c4
def Reg.CTX_P2_ARGw : Nat := 0x500200
def Reg.CTX_P2_CMD : Nat := 0x500240
def Reg.CTX_P2_RESULT : Nat := 0x500244
def Reg.CTX_P3_ARGw : Nat := 0x500280
def Reg.CTX_P3_CMD : Nat := 0x5002c0
def Reg.CTX_P3_RESULT : Nat := 0x5002c4
def Reg.CTX_P4_ARGw : Nat := 0x500300
def Reg.CTX_P4_CMD : Nat := 0x500340
def Reg.CTX_P4_RESULT : Nat := 0x500344
def Reg.CTX_P5_ARGw : Nat := 0x500380
def Reg.CTX_P5_CMD : Nat := 0x5003c0
def Reg.CTX_P5_RESULT : Nat := 0x5003c4
def Reg.RES_CAP : Nat := 0x600000
def Reg.RES_STATUS : Nat := 0x600004
def Reg.RES_ERR_STATUS : Nat := 0x600008
def Reg.RES_ERR_EVENT_EN : Nat := 0x60000c
def Reg.RES_CE_CNT : Nat := 0x600050
def Reg.RES_UE_CNT : Nat := 0x600054
def Reg.RES_ECC_STATUS : Nat := 0x600058
def Reg.RES_ECC_EVENT_EN : Nat := 0x60005c
def Reg.RES_ERR_ENTRY : Nat := 0x600060
def Reg.RES_QUAR_CLEAR : Nat := 0x600064
def Reg.RES_INJ_CTRL : Nat := 0x600070
def Reg.RES_INJ_MASK : Nat := 0x600074
def Reg.RES_P0_ARGw : Nat := 0x600100
def Reg.RES_P0_CMD : Nat := 0x600120
def Reg.RES_P0_RESULT : Nat := 0x600124
def Reg.RES_P1_ARGw : Nat := 0x600140
def Reg.RES_P1_CMD : Nat := 0x600160
def Reg.RES_P1_RESULT : Nat := 0x600164
def Reg.RES_P2_ARGw : Nat := 0x600180
def Reg.RES_P2_CMD : Nat := 0x6001a0
def Reg.RES_P2_RESULT : Nat := 0x6001a4
def Reg.RES_P3_ARGw : Nat := 0x6001c0
def Reg.RES_P3_CMD : Nat := 0x6001e0
def Reg.RES_P3_RESULT : Nat := 0x6001e4
def Reg.RES_P4_ARGw : Nat := 0x600200
def Reg.RES_P4_CMD : Nat := 0x600220
def Reg.RES_P4_RESULT : Nat := 0x600224
def Reg.RES_P5_ARGw : Nat := 0x600240
def Reg.RES_P5_CMD : Nat := 0x600260
def Reg.RES_P5_RESULT : Nat := 0x600264
def Reg.CTX_DRAIN_TIMEOUT : Nat := 0x500010
def Reg.CTX_BUDGETc : Nat := 0x500020
def Reg.CTX_CMD_CNT : Nat := 0x500040
def Reg.CTX_STALE_DROP_CNT : Nat := 0x500044
def Reg.CTX_DRAIN_TIMEOUT_CNT : Nat := 0x500048
def Reg.CTX_TAKE_REFUSE_CNT : Nat := 0x50004c
def Reg.RES_SPILL_BASE_LO : Nat := 0x600010
def Reg.RES_SPILL_BASE_HI : Nat := 0x600014
def Reg.RES_SPILL_SIZE : Nat := 0x600018
def Reg.RES_TXN_HOST : Nat := 0x60001c
def Reg.RES_TXN_FAB : Nat := 0x600020
def Reg.RES_CMD_CNT : Nat := 0x600040
def Reg.RES_BUSY_CNT : Nat := 0x600044
def Reg.RES_STALE_CNT : Nat := 0x600048
def Reg.HDG_CAP : Nat := 0x800000
def Reg.HDG_STATUS : Nat := 0x800004
def Reg.HDG_ERR_STATUS : Nat := 0x800008
def Reg.HDG_ERR_EVENT_EN : Nat := 0x80000c
def Reg.HDG_ABORT : Nat := 0x800010
def Reg.HDG_ABORT_CLEAR : Nat := 0x800014
def Reg.HDG_POST : Nat := 0x800018
def Reg.HDG_TAKE : Nat := 0x80001c
def Reg.HDG_BAR_ARRIVE : Nat := 0x800020
def Reg.HDG_OVF_SEM : Nat := 0x800024
def Reg.HDG_ABORT_SEQi : Nat := 0x800030
def Reg.HDG_POST_CNT : Nat := 0x800040
def Reg.HDG_REMOTE_TX_CNT : Nat := 0x800044
def Reg.HDG_DROP_CNT : Nat := 0x800048
def Reg.HDG_UNREACH_CNT : Nat := 0x80004c
def Reg.HDG_STALE_CNT : Nat := 0x800050
def Reg.HDG_ABORT_DROP_CNT : Nat := 0x800054
def Reg.HDG_ABORT_DUP_CNT : Nat := 0x800058
def Reg.HDG_COREj_JOB : Nat := 0x800100
def Reg.HDG_FLDf_NOTIFY : Nat := 0x800140
def Reg.HDG_BARg_CFG : Nat := 0x801000
def Reg.HDG_BARg_STATUS : Nat := 0x801004
def Reg.HDG_SEMi : Nat := 0x804000
def Reg.FAB_CAP : Nat := 0x900000
def Reg.FAB_CFG : Nat := 0x900004
def Reg.FAB_STATUS : Nat := 0x900008
def Reg.FAB_ERR_STATUS : Nat := 0x90000c
def Reg.FAB_ERR_EVENT_EN : Nat := 0x900010
def Reg.FAB_TWIN : Nat := 0x900014
def Reg.FAB_HEAD : Nat := 0x900018
def Reg.FAB_HOP_DROP_CNT : Nat := 0x900040
def Reg.FAB_NO_ROUTE_CNT : Nat := 0x900044
def Reg.FAB_STALE_DROP_CNT : Nat := 0x900048
def Reg.FAB_ROUTEd : Nat := 0x900100
def Reg.FAB_PEER_GENi : Nat := 0x900200
def Reg.FAB_Pp_CTRL : Nat := 0x901000
def Reg.FAB_Pp_PARTNER : Nat := 0x901004
def Reg.FAB_Pp_CRC_ERR_CNT : Nat := 0x901040
def Reg.FAB_Pp_REPLAY_CNT : Nat := 0x901044
def Reg.FAB_Pp_RETRAIN_CNT : Nat := 0x901048
def Reg.FAB_Pp_TX_CNT : Nat := 0x90104c
def Reg.FAB_Pp_RX_CNT : Nat := 0x901050
def Reg.WIN_CAP : Nat := 0x700000
def Reg.WIN_STATUS : Nat := 0x700004
def Reg.WIN_ERR_STATUS : Nat := 0x700008
def Reg.WIN_ERR_EVENT_EN : Nat := 0x70000c
def Reg.WIN_SYNC : Nat := 0x700010
def Reg.WIN_LAST_REFUSE : Nat := 0x700014
def Reg.WIN_ACCEPT_CNT : Nat := 0x700040
def Reg.WIN_REFUSE_CNT : Nat := 0x700044
def Reg.WIN_ENTRYi_W0 : Nat := 0x710000
def Reg.WIN_ENTRYi_W1 : Nat := 0x710004
def Reg.WIN_ENTRYi_W2 : Nat := 0x710008
def Reg.WIN_ENTRYi_W3 : Nat := 0x71000c
def Reg.SRV_CAP0 : Nat := 0x100
def Reg.SRV_CAP1 : Nat := 0x104
def Reg.SRV_RESET_CTRL : Nat := 0x200
def Reg.SRV_RESET_STATUS : Nat := 0x204
def Reg.SRV_BOOT_STATUS : Nat := 0x300
def Reg.SRV_SVN : Nat := 0x304
def Reg.SRV_FW_VERSIONi : Nat := 0x308
def Reg.SRV_KEY_STATUS : Nat := 0x310
def Reg.SRV_ATTEST_NONCEw : Nat := 0x400
def Reg.SRV_ATTEST_CTRL : Nat := 0x420
def Reg.SRV_ATTEST_STATUS : Nat := 0x424
def Reg.SRV_FW_ADDR_LO : Nat := 0x500
def Reg.SRV_FW_ADDR_HI : Nat := 0x504
def Reg.SRV_FW_LEN : Nat := 0x508
def Reg.SRV_FW_CTRL : Nat := 0x50c
def Reg.SRV_FW_RESULT : Nat := 0x510
def Reg.SRV_ID_PUBw : Nat := 0x600
def Reg.SRV_UIDw : Nat := 0x640
def Reg.SRV_CERT_LEN : Nat := 0x650
def Reg.SRV_KEYk_Ww : Nat := 0x1000
def Reg.SRV_ATTEST_BUFw : Nat := 0x2000
def Reg.SRV_CERTw : Nat := 0x3000
def Reg.PWR_CAP : Nat := 0x100000
def Reg.PWR_SETTING : Nat := 0x100004
def Reg.PWR_STATUS : Nat := 0x100008
def Reg.PWR_ERR_STATUS : Nat := 0x10000c
def Reg.PWR_ERR_EVENT_EN : Nat := 0x100010
def Reg.PWR_MODE : Nat := 0x100014
def Reg.PWR_THROTTLE_C : Nat := 0x100018
def Reg.PWR_OP_DEFER : Nat := 0x10001c
def Reg.PWR_TEMPs : Nat := 0x100020
def Reg.PWR_OP_CHANGE_CNT : Nat := 0x100040
def Reg.PWR_THROTTLE_CNT : Nat := 0x100044
def Reg.PWR_OFF_ACCESS_CNT : Nat := 0x100048
def Reg.PWR_RANGE : Nat := 0x100050
def Reg.PWR_DOMk_CTRL : Nat := 0x100100
def Reg.PWR_INFRA_CTRL : Nat := 0x1001c0
def Reg.PWR_COREn_OP : Nat := 0x100200
def Reg.HST_CAP : Nat := 0x200000
def Reg.HST_STATUS : Nat := 0x200004
def Reg.HST_ERR_STATUS : Nat := 0x200008
def Reg.HST_ERR_EVENT_EN : Nat := 0x20000c
def Reg.HST_ERR_EQ : Nat := 0x200010
def Reg.HST_CORR_LO : Nat := 0x200014
def Reg.HST_CORR_HI : Nat := 0x200018
def Reg.HST_NARROW_WR_CNT : Nat := 0x200040
def Reg.HST_DB_CNT : Nat := 0x200044
def Reg.HST_DB_DROP_CNT : Nat := 0x200048
def Reg.HST_DESC_CNT : Nat := 0x20004c
def Reg.HST_EVENT_CNT : Nat := 0x200050
def Reg.HST_EVENT_LOST_CNT : Nat := 0x200054
def Reg.HST_TSs_LO : Nat := 0x200080
def Reg.HST_TSs_HI : Nat := 0x200084
def Reg.HST_RINGr_BASE_LO : Nat := 0x210000
def Reg.HST_RINGr_BASE_HI : Nat := 0x210004
def Reg.HST_RINGr_CFG : Nat := 0x210008
def Reg.HST_RINGr_HEAD : Nat := 0x21000c
def Reg.HST_RINGr_TAIL : Nat := 0x210010
def Reg.HST_EQq_BASE_LO : Nat := 0x220000
def Reg.HST_EQq_BASE_HI : Nat := 0x220004
def Reg.HST_EQq_CFG : Nat := 0x220008
def Reg.HST_EQq_HEAD : Nat := 0x22000c
def Reg.HST_EQq_WIDX : Nat := 0x220010
def Reg.MSIX_TABLE : Nat := 0x270000
def Reg.MSIX_PBA : Nat := 0x271000
def Reg.HST_OMAP_SYNC : Nat := 0x27ff00
def Reg.HST_OMAP_FAULT : Nat := 0x27ff04
def Reg.HST_OMAP_FAULT_CNT : Nat := 0x27ff08
def Reg.HST_OMAPi_W0 : Nat := 0x280000
def Reg.HST_OMAPi_W1 : Nat := 0x280004
def Reg.HST_OMAPi_W2 : Nat := 0x280008
def Reg.USB_CAP : Nat := 0x300000
def Reg.USB_STATUS : Nat := 0x300004
def Reg.USB_TUNNEL_ERR_CNT : Nat := 0x300040
def Reg.USB_SVC_CTRL : Nat := 0x301000
def Reg.USB_SVC_STATUS : Nat := 0x301004
def Reg.USB_SVC_VID : Nat := 0x301008
def Reg.USB_SVC_CMD_CNT : Nat := 0x301040
def Reg.TAL_CAP : Nat := 0x400000
def Reg.TAL_STATUS : Nat := 0x400004
def Reg.TAL_ERR_STATUS : Nat := 0x400008
def Reg.TAL_ERR_EVENT_EN : Nat := 0x40000c
def Reg.TAL_SEQ : Nat := 0x400010
def Reg.TAL_RD_SEL : Nat := 0x400014
def Reg.TAL_RD_STATUS : Nat := 0x400018
def Reg.TAL_WF_SEL : Nat := 0x400020
def Reg.TAL_WF_STATUS : Nat := 0x400024
def Reg.TAL_REC_CNT : Nat := 0x400040
def Reg.TAL_SUPPRESS_CNT : Nat := 0x400044
def Reg.TAL_RD_DATAw : Nat := 0x400080
def Reg.TAL_MAINT_NONCEw : Nat := 0x400100
def Reg.TAL_MAINT_CTRL : Nat := 0x400110
def Reg.TAL_MAINT_RESULT : Nat := 0x400114
def Reg.TAL_MAINT_BUFw : Nat := 0x400200
def Reg.TAL_WF_WINDOWw : Nat := 0x401000
def Reg.WSn_CAP : Nat := 0x40000
def Reg.WSn_STATUS : Nat := 0x40004
def Reg.WSn_ERR_STATUS : Nat := 0x40008
def Reg.WSn_ERR_EVENT_EN : Nat := 0x4000c
def Reg.WSn_ERR_ADDR : Nat := 0x40010
def Reg.WSn_WEAR : Nat := 0x40014
def Reg.WSn_FREE : Nat := 0x40018
def Reg.WSn_RD_CNT : Nat := 0x40040
def Reg.WSn_BCH_CE_CNT : Nat := 0x40044
def Reg.WSn_REBUILD_CNT : Nat := 0x40048
def Reg.WSn_UE_CNT : Nat := 0x4004c
def Reg.WSn_DROP_CNT : Nat := 0x40050
def Reg.WSn_PROG_CNT : Nat := 0x40054

/-- Registers of the core region, part 0. -/
def coreRows0 : List RegRow := [
  ⟨0, 1, 4, 0, 0, false, 0⟩, /- COREn_CTRL, R176 -/
  ⟨4, 1, 4, 0, 0, false, 0⟩, /- COREn_STATUS, R142 -/
  ⟨8, 1, 4, 0x7fffe0, 0, false, 0⟩, /- COREn_ENTRY, R176 -/
  ⟨0xc, 1, 4, 0, 0, false, 0⟩, /- COREn_PC, R169 -/
  ⟨0x10, 1, 4, 0, 0, false, 0⟩, /- COREn_TRAP, R170 -/
  ⟨0x14, 1, 4, 0, 0x1e0, false, 0⟩, /- COREn_EVENT_PEND, R173 -/
  ⟨0x18, 1, 4, 0x1ff, 0, false, 0x1ff⟩, /- COREn_EVENT_EN, R173 -/
  ⟨0x1c, 1, 4, 0xffffff, 0, false, 0x1c9c4⟩, /- COREn_WAIT_LIMIT, R163 -/
  ⟨0x20, 1, 4, 0xffffff, 0, false, 0⟩, /- COREn_WDOG_LIMIT, R170 -/
  ⟨0x24, 1, 4, 0, 0, false, 0⟩, /- COREn_SKQ_STATUS, R161 -/
  ⟨0x40, 1, 4, 0, 0, true, 0⟩, /- COREn_PROG_CYCLE_CNT, R176 -/
  ⟨0x44, 1, 4, 0, 0, true, 0⟩, /- COREn_ISLAND_CYCLE_CNT, R176 -/
  ⟨0x48, 1, 4, 0, 0, true, 0⟩, /- COREn_STALL_CNT, R176 -/
  ⟨0x4c, 1, 4, 0, 0, true, 0⟩, /- COREn_BUBBLE_CNT, R176 -/
  ⟨0x50, 1, 4, 0, 0, true, 0⟩, /- COREn_BUNDLE_CNT, R176 -/
  ⟨0x54, 1, 4, 0, 0, true, 0⟩, /- COREn_SEM_HOLD_CNT, R176 -/
  ⟨0x58, 1, 4, 0, 0, true, 0⟩, /- COREn_SKQ_HOLD_CNT, R176 -/
  ⟨0x5c, 1, 4, 0, 0, true, 0⟩, /- COREn_BUSY_HOLD_CNT, R176 -/
  ⟨0x60, 1, 4, 0, 0, true, 0⟩, /- COREn_CE_HOLD_CNT, R176 -/
  ⟨0x64, 1, 4, 0, 0, true, 0⟩, /- COREn_SKQ_ERR_CNT, R176 -/
  ⟨0x100, 32, 4, 0xffffffff, 0, false, 0⟩, /- COREn_ARr, R176 -/
  ⟨0x4000, 1, 4, 0, 0, false, 0x1608542⟩, /- SPMn_CAP, R93 -/
  ⟨0x4004, 1, 4, 0, 0, false, 0⟩, /- SPMn_STATUS, R93 -/
  ⟨0x4008, 1, 4, 0, 0xff, false, 0⟩, /- SPMn_ERR_STATUS, R93 -/
  ⟨0x400c, 1, 4, 0xff, 0, false, 0xa2⟩, /- SPMn_ERR_EVENT_EN, R93 -/
  ⟨0x4010, 1, 4, 0, 0, false, 0⟩, /- SPMn_SWEEP, R93 -/
  ⟨0x4014, 1, 4, 0x1ff, 0, false, 0x40⟩, /- SPMn_ARB_CTRL, R93 -/
  ⟨0x4018, 1, 4, 0, 0, false, 0⟩, /- SPMn_CE_ADDR, R93 -/
  ⟨0x401c, 1, 4, 0, 0, false, 0⟩, /- SPMn_UE_ADDR, R93 -/
  ⟨0x4020, 1, 4, 0, 0, false, 0⟩, /- SPMn_REPAIR_STATUS, R93 -/
  ⟨0x4040, 1, 4, 0, 0, true, 0⟩, /- SPMn_CE_CNT, R93 -/
  ⟨0x4044, 1, 4, 0, 0, true, 0⟩, /- SPMn_UE_CNT, R93 -/
  ⟨0x4048, 1, 4, 0, 0, true, 0⟩, /- SPMn_RMW_CNT, R93 -/
  ⟨0x404c, 1, 4, 0, 0, true, 0⟩, /- SPMn_CONFLICT_HOLD_CNT, R93 -/
  ⟨0x4050, 1, 4, 0, 0, true, 0⟩, /- SPMn_ARB_HOLD_CNT, R93 -/
  ⟨0x4054, 1, 4, 0, 0, true, 0⟩, /- SPMn_SWEEP_HOLD_CNT, R93 -/
  ⟨0x4058, 1, 4, 0, 0, true, 0⟩, /- SPMn_DROP_CNT, R93 -/
  ⟨0x4080, 1, 4, 0xf80000ff, 0, false, 0⟩, /- SPMn_INJ_CTRL, R343 -/
  ⟨0x4084, 1, 4, 0x7fffc0, 0, false, 0⟩, /- SPMn_INJ_ADDR, R343 -/
  ⟨0x4088, 1, 4, 0xffffffff, 0, false, 0⟩ /- SPMn_INJ_DATA_LO, R343 -/]

/-- Registers of the core region, part 1. -/
def coreRows1 : List RegRow := [
  ⟨0x408c, 1, 4, 0xffffffff, 0, false, 0⟩, /- SPMn_INJ_DATA_HI, R343 -/
  ⟨0x4100, 8, 4, 0xe0007f7f, 0, false, 0⟩, /- SPMn_PARTk, R93 -/
  ⟨0x8000, 1, 4, 0, 0, false, 0x7ff⟩, /- TINEn_CAP, R45 -/
  ⟨0x8004, 1, 4, 0, 0, false, 0⟩, /- TINEn_STATUS, R45 -/
  ⟨0x8008, 1, 4, 0, 0xf, false, 0⟩, /- TINEn_ERR_STATUS, R45 -/
  ⟨0x800c, 1, 4, 0xf, 0, false, 1⟩, /- TINEn_ERR_EVENT_EN, R45 -/
  ⟨0x8010, 1, 4, 0, 0, true, 0⟩, /- TINEn_BUBBLE_HRW_CNT, R44 -/
  ⟨0x8014, 1, 4, 0, 0, true, 0⟩, /- TINEn_BUBBLE_SPM_CNT, R44 -/
  ⟨0x8018, 1, 4, 0, 0, true, 0⟩, /- TINEn_BUBBLE_ARB_CNT, R44 -/
  ⟨0x801c, 1, 4, 0, 0, true, 0⟩, /- TINEn_DRAIN_HOLD_CNT, R44 -/
  ⟨0x8020, 1, 4, 0, 0, true, 0⟩, /- TINEn_MASK_SLOT_CNT, R44 -/
  ⟨0x8024, 1, 4, 0, 0, true, 0⟩, /- TINEn_PAD_SLOT_CNT, R44 -/
  ⟨0x8028, 1, 4, 0, 0, true, 0⟩, /- TINEn_TILE_CNT, R44 -/
  ⟨0xc000, 1, 4, 0, 0, false, 0x3f⟩, /- VUn_CAP, R177 -/
  ⟨0xc008, 1, 4, 0, 0x1f, false, 0⟩, /- VUn_ERR_STATUS, R177 -/
  ⟨0xc00c, 1, 4, 0x1f, 0, false, 0x11⟩, /- VUn_ERR_EVENT_EN, R177 -/
  ⟨0xc040, 1, 4, 0, 0, true, 0⟩, /- VUn_OP_CNT, R177 -/
  ⟨0xc044, 1, 4, 0, 0, true, 0⟩, /- VUn_CVT_SAT_CNT, R177 -/
  ⟨0xc048, 1, 4, 0, 0, true, 0⟩, /- VUn_PAGE_FAULT_CNT, R177 -/
  ⟨0xc100, 1, 4, 0xff, 0, false, 0⟩, /- VUn_SHT_INDEX, R66 -/
  ⟨0xc104, 1, 4, 0, 0, false, 0⟩, /- VUn_SHT_CTRL, R66 -/
  ⟨0xc108, 1, 4, 0, 7, false, 0⟩, /- VUn_SHT_STATUS, R66 -/
  ⟨0xc10c, 1, 4, 7, 0, false, 1⟩, /- VUn_SHT_EVENT_EN, R66 -/
  ⟨0xc110, 1, 4, 0, 0, true, 0⟩, /- VUn_SAT_TOTAL_CNT, R66 -/
  ⟨0xc140, 16, 4, 0xffffffff, 0, false, 0⟩, /- VUn_SHT_DATAw, R66 -/
  ⟨0x10000, 1, 4, 0, 0, false, 0x10403f⟩, /- THRn_CAP, R141 -/
  ⟨0x10004, 1, 4, 0, 0, false, 0⟩, /- THRn_STATUS, R141 -/
  ⟨0x10008, 1, 4, 0, 0x1f, false, 0⟩, /- THRn_ERR_STATUS, R141 -/
  ⟨0x1000c, 1, 4, 0x1f, 0, false, 0x19⟩, /- THRn_ERR_EVENT_EN, R141 -/
  ⟨0x10010, 1, 4, 0, 0, false, 0⟩, /- THRn_FAULT_INFO, R141 -/
  ⟨0x10014, 1, 4, 0, 0, false, 0⟩, /- THRn_FAULT_CTX, R141 -/
  ⟨0x10040, 1, 4, 0, 0, true, 0⟩, /- THRn_BLOCK_CNT, R141 -/
  ⟨0x10044, 1, 4, 0, 0, true, 0⟩, /- THRn_ROW_CNT, R141 -/
  ⟨0x10048, 1, 4, 0, 0, true, 0⟩, /- THRn_KV_WAIT_CNT, R141 -/
  ⟨0x1004c, 1, 4, 0, 0, true, 0⟩, /- THRn_QUEUE_HOLD_CNT, R141 -/
  ⟨0x10050, 1, 4, 0, 0, true, 0⟩, /- THRn_PAGE_FAULT_CNT, R141 -/
  ⟨0x10054, 1, 4, 0, 0, true, 0⟩, /- THRn_KV_WRITE_DROP_CNT, R141 -/
  ⟨0x10058, 1, 4, 0, 0, true, 0⟩, /- THRn_EMPTY_ROW_CNT, R141 -/
  ⟨0x1005c, 1, 4, 0, 0, true, 0⟩, /- THRn_KV_FETCH_CNT, R141 -/
  ⟨0x14000, 1, 4, 0, 0, false, 0x4810c1⟩ /- HRWn_CAP, R112 -/]

/-- Registers of the core region, part 2. -/
def coreRows2 : List RegRow := [
  ⟨0x14004, 1, 4, 0, 0, false, 0⟩, /- HRWn_STATUS, R112 -/
  ⟨0x14008, 1, 4, 0, 0x3f, false, 0⟩, /- HRWn_ERR_STATUS, R112 -/
  ⟨0x1400c, 1, 4, 0x3f, 0, false, 0x3f⟩, /- HRWn_ERR_EVENT_EN, R112 -/
  ⟨0x14010, 1, 4, 0xff, 0, false, 0x80⟩, /- HRWn_LANE_CTRL, R112 -/
  ⟨0x14014, 1, 4, 0x7fffc0, 0, false, 0⟩, /- HRWn_TBL_ADDR, R112 -/
  ⟨0x14018, 1, 4, 0, 0, false, 0⟩, /- HRWn_TBL_CTRL, R112 -/
  ⟨0x1401c, 1, 4, 0, 0, false, 0⟩, /- HRWn_TBL_RESULT, R112 -/
  ⟨0x14020, 1, 4, 0, 0, false, 0⟩, /- HRWn_ERR_INFO, R112 -/
  ⟨0x14040, 1, 4, 0, 0, true, 0⟩, /- HRWn_DEC_BLK_CNT, R112 -/
  ⟨0x14044, 1, 4, 0, 0, true, 0⟩, /- HRWn_DEC_RAW_BLK_CNT, R112 -/
  ⟨0x14048, 1, 4, 0, 0, true, 0⟩, /- HRWn_DEC_PAYLOAD_CNT, R112 -/
  ⟨0x1404c, 1, 4, 0, 0, true, 0⟩, /- HRWn_ENC_BLK_CNT, R112 -/
  ⟨0x14050, 1, 4, 0, 0, true, 0⟩, /- HRWn_ENC_RAW_BLK_CNT, R112 -/
  ⟨0x14054, 1, 4, 0, 0, true, 0⟩, /- HRWn_DEC_ERR_CNT, R112 -/
  ⟨0x14058, 1, 4, 0, 0, true, 0⟩, /- HRWn_GEN_MISMATCH_CNT, R112 -/
  ⟨0x1405c, 1, 4, 0, 0, true, 0⟩, /- HRWn_HOLD_CNT, R112 -/
  ⟨0x14100, 16, 4, 0, 0, false, 0⟩ /- HRWn_SLOTs, R112 -/]

def coreRows : List RegRow := coreRows0 ++ coreRows1 ++ coreRows2

/-- Registers of the field region, part 0. -/
def fieldRows0 : List RegRow := [
  ⟨0, 1, 4, 0, 0, false, 0⟩, /- FLDn_CTRL, R371 -/
  ⟨4, 1, 4, 0, 0x8000000, false, 0x40000000⟩, /- FLDn_STATUS, R371 -/
  ⟨8, 1, 4, 0, 0, false, 0⟩, /- FLDn_GEN, R349 -/
  ⟨0xc, 1, 4, 0, 0, false, 0⟩, /- FLDn_CORE_RESET, R354 -/
  ⟨0x10, 1, 4, 0, 0, false, 0⟩, /- FLDn_FENCE, R353 -/
  ⟨0x14, 1, 4, 0, 0, false, 0⟩, /- FLDn_RESET_CAUSE, R371 -/
  ⟨0x40, 1, 4, 0, 0, true, 0⟩, /- FLDn_STALE_REPLY_CNT, R371 -/
  ⟨0x44, 1, 4, 0, 0, true, 0⟩, /- FLDn_FENCE_CNT, R371 -/
  ⟨0x100, 1, 4, 0, 0, false, 0⟩, /- FLDn_CORE_EVENT, R178 -/
  ⟨0x10000, 1, 4, 0, 0, false, 0x810⟩, /- SKDn_CAP, R205 -/
  ⟨0x10004, 1, 4, 0, 0, false, 0⟩, /- SKDn_STATUS, R205 -/
  ⟨0x10008, 1, 4, 0, 0xf, false, 0⟩, /- SKDn_ERR_STATUS, R205 -/
  ⟨0x1000c, 1, 4, 0xf, 0, false, 0xf⟩, /- SKDn_ERR_EVENT_EN, R205 -/
  ⟨0x10010, 1, 4, 0xffffff, 0, false, 0xe4e2⟩, /- SKDn_WDOG, R205 -/
  ⟨0x10014, 1, 4, 0, 0, false, 0⟩, /- SKDn_ABORT, R205 -/
  ⟨0x10018, 1, 4, 0, 0, false, 0⟩, /- SKDn_STALL_INFO, R205 -/
  ⟨0x1001c, 1, 4, 0, 0, false, 0x600⟩, /- SKDn_TXN, R205 -/
  ⟨0x10040, 1, 4, 0, 0, true, 0⟩, /- SKDn_XFER_CNT, R205 -/
  ⟨0x10044, 1, 4, 0, 0, true, 0⟩, /- SKDn_BYTE_CNT, R205 -/
  ⟨0x10048, 1, 4, 0, 0, true, 0⟩, /- SKDn_STALL_CNT, R205 -/
  ⟨0x1004c, 1, 4, 0, 0, true, 0⟩, /- SKDn_BUDGET_WAIT_CNT, R205 -/
  ⟨0x10050, 1, 4, 0, 0, true, 0⟩, /- SKDn_ABORT_CNT, R205 -/
  ⟨0x10054, 1, 4, 0, 0, true, 0⟩, /- SKDn_LATE_REPLY_CNT, R205 -/
  ⟨0x10100, 16, 8, 0, 0, false, 0⟩, /- SKDn_CHk_POST_LO, R205 -/
  ⟨0x10104, 16, 8, 0, 0, false, 0⟩, /- SKDn_CHk_POST_HI, R205 -/
  ⟨0x10200, 16, 4, 0, 0, false, 0⟩, /- SKDn_CHk_STATUS, R205 -/
  ⟨0x20000, 1, 4, 0, 0, false, 0x404⟩, /- BKRn_CAP, R268 -/
  ⟨0x20004, 1, 4, 0, 0, false, 0⟩, /- BKRn_STATUS, R268 -/
  ⟨0x20008, 1, 4, 0, 3, false, 0⟩, /- BKRn_ERR_STATUS, R268 -/
  ⟨0x2000c, 1, 4, 3, 0, false, 3⟩, /- BKRn_ERR_EVENT_EN, R268 -/
  ⟨0x20010, 1, 4, 0, 0, false, 0⟩, /- BKRn_POST_LO, R268 -/
  ⟨0x20014, 1, 4, 0, 0, false, 0⟩, /- BKRn_POST_HI, R268 -/
  ⟨0x20040, 1, 4, 0, 0, true, 0⟩, /- BKRn_JOB_CNT, R268 -/
  ⟨0x20044, 1, 4, 0, 0, true, 0⟩, /- BKRn_BYTE_CNT, R268 -/
  ⟨0x20048, 1, 4, 0, 0, true, 0⟩, /- BKRn_REMOTE_BYTE_CNT, R268 -/
  ⟨0x30000, 1, 4, 0, 0, false, 0⟩, /- NMn_CAP, R206 -/
  ⟨0x30004, 1, 4, 0, 0, false, 0⟩, /- NMn_ECC_BASE, R206 -/
  ⟨0x30008, 1, 4, 0, 0, false, 0⟩, /- NMn_STATUS, R206 -/
  ⟨0x30040, 1, 4, 0, 0, true, 0⟩, /- NMn_RD_CNT, R206 -/
  ⟨0x30044, 1, 4, 0, 0, true, 0⟩ /- NMn_WR_CNT, R206 -/]

/-- Registers of the field region, part 1. -/
def fieldRows1 : List RegRow := [
  ⟨0x30048, 1, 4, 0, 0, true, 0⟩, /- NMn_RMW_CNT, R206 -/
  ⟨0x3004c, 1, 4, 0, 0, true, 0⟩, /- NMn_DROP_CNT, R206 -/
  ⟨0x30100, 1, 4, 0x80ffffff, 0, false, 0x6156⟩, /- NMn_SCRUB_CTRL, R342 -/
  ⟨0x30104, 1, 4, 0, 0, false, 0⟩, /- NMn_SCRUB_STATUS, R342 -/
  ⟨0x30108, 1, 4, 0, 0x3ff, false, 0⟩, /- NMn_ERR_STATUS, R342 -/
  ⟨0x3010c, 1, 4, 0x3ff, 0, false, 0x3b2⟩, /- NMn_ERR_EVENT_EN, R342 -/
  ⟨0x30110, 1, 4, 0, 0, false, 0⟩, /- NMn_CE_ADDR, R342 -/
  ⟨0x30114, 1, 4, 0, 0, false, 0⟩, /- NMn_UE_ADDR, R342 -/
  ⟨0x30118, 1, 4, 0, 0, false, 0⟩, /- NMn_CE_ROW, R342 -/
  ⟨0x3011c, 1, 4, 0, 0, false, 0⟩, /- NMn_UE_ROW, R342 -/
  ⟨0x30120, 1, 4, 0xffff, 0, false, 0x10⟩, /- NMn_CE_THRESH, R342 -/
  ⟨0x30124, 1, 4, 0, 0, false, 0⟩, /- NMn_PPR_CTRL, R342 -/
  ⟨0x30128, 1, 4, 0, 0, false, 0⟩, /- NMn_PPR_STATUS, R342 -/
  ⟨0x30130, 1, 4, 0xf800ffff, 0, false, 0⟩, /- NMn_INJ_CTRL, R342 -/
  ⟨0x30134, 1, 4, 0xfffffff, 0, false, 0⟩, /- NMn_INJ_ADDR, R342 -/
  ⟨0x30138, 1, 4, 0xffffffff, 0, false, 0⟩, /- NMn_INJ_DATA_LO, R342 -/
  ⟨0x3013c, 1, 4, 0xffffffff, 0, false, 0⟩, /- NMn_INJ_DATA_HI, R342 -/
  ⟨0x30140, 1, 4, 0, 0, true, 0⟩, /- NMn_CE_CNT, R342 -/
  ⟨0x30144, 1, 4, 0, 0, true, 0⟩, /- NMn_UE_CNT, R342 -/
  ⟨0x30148, 1, 4, 0, 0, true, 0⟩, /- NMn_POISON_READ_CNT, R342 -/
  ⟨0x3014c, 1, 4, 0, 0, true, 0⟩, /- NMn_SCRUB_CE_CNT, R342 -/
  ⟨0x30150, 1, 4, 0, 0, true, 0⟩, /- NMn_PPR_CNT, R342 -/
  ⟨0x40000, 1, 4, 0, 0, false, 0x801fa00⟩, /- WSn_CAP, R231 -/
  ⟨0x40004, 1, 4, 0, 0, false, 0⟩, /- WSn_STATUS, R231 -/
  ⟨0x40008, 1, 4, 0, 0x1f, false, 0⟩, /- WSn_ERR_STATUS, R231 -/
  ⟨0x4000c, 1, 4, 0x1f, 0, false, 0x1f⟩, /- WSn_ERR_EVENT_EN, R231 -/
  ⟨0x40010, 1, 4, 0, 0, false, 0⟩, /- WSn_ERR_ADDR, R231 -/
  ⟨0x40014, 1, 4, 0, 0, false, 0⟩, /- WSn_WEAR, R231 -/
  ⟨0x40018, 1, 4, 0, 0, false, 0⟩, /- WSn_FREE, R231 -/
  ⟨0x40040, 1, 4, 0, 0, true, 0⟩, /- WSn_RD_CNT, R231 -/
  ⟨0x40044, 1, 4, 0, 0, true, 0⟩, /- WSn_BCH_CE_CNT, R231 -/
  ⟨0x40048, 1, 4, 0, 0, true, 0⟩, /- WSn_REBUILD_CNT, R231 -/
  ⟨0x4004c, 1, 4, 0, 0, true, 0⟩, /- WSn_UE_CNT, R231 -/
  ⟨0x40050, 1, 4, 0, 0, true, 0⟩, /- WSn_DROP_CNT, R231 -/
  ⟨0x40054, 1, 4, 0, 0, true, 0⟩ /- WSn_PROG_CNT, R231 -/]

def fieldRows : List RegRow := fieldRows0 ++ fieldRows1

/-- Registers of the global regions, part 0. -/
def globalRows0 : List RegRow := [
  ⟨0x100, 1, 4, 0, 0, false, 0⟩, /- SRV_CAP0, R3 -/
  ⟨0x104, 1, 4, 0, 0, false, 0⟩, /- SRV_CAP1, R3 -/
  ⟨0x200, 1, 4, 0, 0, false, 0⟩, /- SRV_RESET_CTRL, R372 -/
  ⟨0x204, 1, 4, 0, 0, false, 0x80010001⟩, /- SRV_RESET_STATUS, R372 -/
  ⟨0x300, 1, 4, 0, 0, false, 0⟩, /- SRV_BOOT_STATUS, R389 -/
  ⟨0x304, 1, 4, 0, 0, false, 0⟩, /- SRV_SVN, R389 -/
  ⟨0x308, 2, 4, 0, 0, false, 0⟩, /- SRV_FW_VERSIONi, R389 -/
  ⟨0x310, 1, 4, 0, 0, false, 0⟩, /- SRV_KEY_STATUS, R389 -/
  ⟨0x400, 8, 4, 0xffffffff, 0, false, 0⟩, /- SRV_ATTEST_NONCEw, R389 -/
  ⟨0x420, 1, 4, 0, 0, false, 0⟩, /- SRV_ATTEST_CTRL, R389 -/
  ⟨0x424, 1, 4, 0, 0, false, 0⟩, /- SRV_ATTEST_STATUS, R389 -/
  ⟨0x500, 1, 4, 0xffffffc0, 0, false, 0⟩, /- SRV_FW_ADDR_LO, R389 -/
  ⟨0x504, 1, 4, 0xffff, 0, false, 0⟩, /- SRV_FW_ADDR_HI, R389 -/
  ⟨0x508, 1, 4, 0xffffffff, 0, false, 0⟩, /- SRV_FW_LEN, R389 -/
  ⟨0x50c, 1, 4, 0, 0, false, 0⟩, /- SRV_FW_CTRL, R389 -/
  ⟨0x510, 1, 4, 0, 0, false, 0⟩, /- SRV_FW_RESULT, R389 -/
  ⟨0x600, 16, 4, 0, 0, false, 0⟩, /- SRV_ID_PUBw, R383 -/
  ⟨0x640, 4, 4, 0, 0, false, 0⟩, /- SRV_UIDw, R383 -/
  ⟨0x650, 1, 4, 0, 0, false, 0⟩, /- SRV_CERT_LEN, R389 -/
  ⟨0x1000, 128, 4, 0, 0, false, 0⟩, /- SRV_KEYk_Ww, R389 -/
  ⟨0x2000, 704, 4, 0, 0, false, 0⟩, /- SRV_ATTEST_BUFw, R384 -/
  ⟨0x3000, 512, 4, 0, 0, false, 0⟩, /- SRV_CERTw, R383 -/
  ⟨0x100000, 1, 4, 0, 0, false, 0x4005⟩, /- PWR_CAP, R411 -/
  ⟨0x100004, 1, 4, 0xfff, 0, false, 0x12c⟩, /- PWR_SETTING, R397 -/
  ⟨0x100008, 1, 4, 0, 0, false, 0⟩, /- PWR_STATUS, R411 -/
  ⟨0x10000c, 1, 4, 0, 0x7f, false, 0⟩, /- PWR_ERR_STATUS, R411 -/
  ⟨0x100010, 1, 4, 0x7f, 0, false, 0x5e⟩, /- PWR_ERR_EVENT_EN, R411 -/
  ⟨0x100014, 1, 4, 0, 0, false, 0⟩, /- PWR_MODE, R399 -/
  ⟨0x100018, 1, 4, 0xff, 0, false, 0x5f⟩, /- PWR_THROTTLE_C, R401 -/
  ⟨0x10001c, 1, 4, 0xffffff, 0, false, 0x2dc7⟩, /- PWR_OP_DEFER, R396 -/
  ⟨0x100020, 8, 4, 0, 0, false, 0⟩, /- PWR_TEMPs, R401 -/
  ⟨0x100040, 1, 4, 0, 0, true, 0⟩, /- PWR_OP_CHANGE_CNT, R411 -/
  ⟨0x100044, 1, 4, 0, 0, true, 0⟩, /- PWR_THROTTLE_CNT, R411 -/
  ⟨0x100048, 1, 4, 0, 0, true, 0⟩, /- PWR_OFF_ACCESS_CNT, R411 -/
  ⟨0x100050, 1, 4, 0, 0, false, 0x4b0012c⟩, /- PWR_RANGE, R397 -/
  ⟨0x100100, 48, 4, 3, 0, false, 0⟩, /- PWR_DOMk_CTRL, R411 -/
  ⟨0x1001c0, 16, 4, 0x13, 0, false, 0x202⟩, /- PWR_INFRA_CTRL, R411 -/
  ⟨0x100200, 16, 4, 7, 0, false, 0⟩, /- PWR_COREn_OP, R396 -/
  ⟨0x200000, 1, 4, 0, 0, false, 0x4004040⟩, /- HST_CAP, R298 -/
  ⟨0x200004, 1, 4, 0, 0, false, 0⟩ /- HST_STATUS, R298 -/]

/-- Registers of the global regions, part 1. -/
def globalRows1 : List RegRow := [
  ⟨0x200008, 1, 4, 0, 0x3f, false, 0⟩, /- HST_ERR_STATUS, R298 -/
  ⟨0x20000c, 1, 4, 0x3f, 0, false, 0x3f⟩, /- HST_ERR_EVENT_EN, R298 -/
  ⟨0x200010, 1, 4, 0x8000003f, 0, false, 0⟩, /- HST_ERR_EQ, R289 -/
  ⟨0x200014, 1, 4, 0, 0, false, 0⟩, /- HST_CORR_LO, R295 -/
  ⟨0x200018, 1, 4, 0, 0, false, 0⟩, /- HST_CORR_HI, R295 -/
  ⟨0x200040, 1, 4, 0, 0, true, 0⟩, /- HST_NARROW_WR_CNT, R298 -/
  ⟨0x200044, 1, 4, 0, 0, true, 0⟩, /- HST_DB_CNT, R298 -/
  ⟨0x200048, 1, 4, 0, 0, true, 0⟩, /- HST_DB_DROP_CNT, R298 -/
  ⟨0x20004c, 1, 4, 0, 0, true, 0⟩, /- HST_DESC_CNT, R298 -/
  ⟨0x200050, 1, 4, 0, 0, true, 0⟩, /- HST_EVENT_CNT, R298 -/
  ⟨0x200054, 1, 4, 0, 0, true, 0⟩, /- HST_EVENT_LOST_CNT, R298 -/
  ⟨0x200080, 5, 8, 0, 0, false, 0⟩, /- HST_TSs_LO, R294 -/
  ⟨0x200084, 5, 8, 0, 0, false, 0⟩, /- HST_TSs_HI, R294 -/
  ⟨0x210000, 1024, 32, 0xffffffc0, 0, false, 0⟩, /- HST_RINGr_BASE_LO, R274 -/
  ⟨0x210004, 1024, 32, 0xffff, 0, false, 0⟩, /- HST_RINGr_BASE_HI, R274 -/
  ⟨0x210008, 1024, 32, 0xffc0000f, 0, false, 0⟩, /- HST_RINGr_CFG, R274 -/
  ⟨0x21000c, 1024, 32, 0, 0, false, 0⟩, /- HST_RINGr_HEAD, R275 -/
  ⟨0x210010, 1024, 32, 0, 0, false, 0⟩, /- HST_RINGr_TAIL, R275 -/
  ⟨0x220000, 64, 32, 0xffffffc0, 0, false, 0⟩, /- HST_EQq_BASE_LO, R287 -/
  ⟨0x220004, 64, 32, 0xffff, 0, false, 0⟩, /- HST_EQq_BASE_HI, R287 -/
  ⟨0x220008, 64, 32, 0xbfffffff, 0, false, 0⟩, /- HST_EQq_CFG, R287 -/
  ⟨0x22000c, 64, 32, 0, 0, false, 0⟩, /- HST_EQq_HEAD, R287 -/
  ⟨0x220010, 64, 32, 0, 0, false, 0⟩, /- HST_EQq_WIDX, R287 -/
  ⟨0x270000, 256, 4, 0xffffffff, 0, false, 0⟩, /- MSIX_TABLE, R272 -/
  ⟨0x271000, 2, 4, 0, 0, false, 0⟩, /- MSIX_PBA, R272 -/
  ⟨0x27ff00, 1, 4, 0, 0, false, 0⟩, /- HST_OMAP_SYNC, R186 -/
  ⟨0x27ff04, 1, 4, 0, 0, false, 0⟩, /- HST_OMAP_FAULT, R208 -/
  ⟨0x27ff08, 1, 4, 0, 0, true, 0⟩, /- HST_OMAP_FAULT_CNT, R208 -/
  ⟨0x280000, 4096, 16, 0xf07fffff, 0, false, 0⟩, /- HST_OMAPi_W0, R184 -/
  ⟨0x280004, 4096, 16, 0xfffff000, 0, false, 0⟩, /- HST_OMAPi_W1, R184 -/
  ⟨0x280008, 4096, 16, 0xffffffff, 0, false, 0⟩, /- HST_OMAPi_W2, R184 -/
  ⟨0x300000, 1, 4, 0, 0, false, 3⟩, /- USB_CAP, R299 -/
  ⟨0x300004, 1, 4, 0, 0, false, 0⟩, /- USB_STATUS, R299 -/
  ⟨0x300040, 1, 4, 0, 0, true, 0⟩, /- USB_TUNNEL_ERR_CNT, R299 -/
  ⟨0x301000, 1, 4, 1, 0, false, 1⟩, /- USB_SVC_CTRL, R390 -/
  ⟨0x301004, 1, 4, 0, 0, false, 0⟩, /- USB_SVC_STATUS, R390 -/
  ⟨0x301008, 1, 4, 0, 0, false, 0⟩, /- USB_SVC_VID, R390 -/
  ⟨0x301040, 1, 4, 0, 0, true, 0⟩, /- USB_SVC_CMD_CNT, R390 -/
  ⟨0x400000, 1, 4, 0, 0, false, 0x7fff0204⟩, /- TAL_CAP, R374 -/
  ⟨0x400004, 1, 4, 0, 0, false, 0⟩ /- TAL_STATUS, R374 -/]

/-- Registers of the global regions, part 2. -/
def globalRows2 : List RegRow := [
  ⟨0x400008, 1, 4, 0, 0xf, false, 0⟩, /- TAL_ERR_STATUS, R374 -/
  ⟨0x40000c, 1, 4, 0xf, 0, false, 0xb⟩, /- TAL_ERR_EVENT_EN, R374 -/
  ⟨0x400010, 1, 4, 0, 0, false, 0⟩, /- TAL_SEQ, R365 -/
  ⟨0x400014, 1, 4, 0x7fff, 0, false, 0⟩, /- TAL_RD_SEL, R369 -/
  ⟨0x400018, 1, 4, 0, 0, false, 0⟩, /- TAL_RD_STATUS, R369 -/
  ⟨0x400020, 1, 4, 0x103ff, 0, false, 0⟩, /- TAL_WF_SEL, R369 -/
  ⟨0x400024, 1, 4, 0, 0, false, 0⟩, /- TAL_WF_STATUS, R374 -/
  ⟨0x400040, 1, 4, 0, 0, true, 0⟩, /- TAL_REC_CNT, R374 -/
  ⟨0x400044, 1, 4, 0, 0, true, 0⟩, /- TAL_SUPPRESS_CNT, R374 -/
  ⟨0x400080, 32, 4, 0, 0, false, 0⟩, /- TAL_RD_DATAw, R369 -/
  ⟨0x400100, 4, 4, 0, 0, false, 0⟩, /- TAL_MAINT_NONCEw, R370 -/
  ⟨0x400110, 1, 4, 0, 0, false, 0⟩, /- TAL_MAINT_CTRL, R370 -/
  ⟨0x400114, 1, 4, 0, 0, false, 0⟩, /- TAL_MAINT_RESULT, R370 -/
  ⟨0x400200, 128, 4, 0xffffffff, 0, false, 0⟩, /- TAL_MAINT_BUFw, R370 -/
  ⟨0x401000, 1024, 4, 0, 0, false, 0⟩, /- TAL_WF_WINDOWw, R369 -/
  ⟨0x500000, 1, 4, 0, 0, false, 0x6ffff⟩, /- CTX_CAP, R316 -/
  ⟨0x500004, 1, 4, 0, 0, false, 0⟩, /- CTX_STATUS, R316 -/
  ⟨0x500008, 1, 4, 0, 7, false, 0⟩, /- CTX_ERR_STATUS, R316 -/
  ⟨0x50000c, 1, 4, 7, 0, false, 7⟩, /- CTX_ERR_EVENT_EN, R316 -/
  ⟨0x500010, 1, 4, 0xffffff, 0, false, 0x1313⟩, /- CTX_DRAIN_TIMEOUT, R316 -/
  ⟨0x500020, 6, 4, 0, 0, false, 0⟩, /- CTX_BUDGETc, R317 -/
  ⟨0x500040, 1, 4, 0, 0, true, 0⟩, /- CTX_CMD_CNT, R316 -/
  ⟨0x500044, 1, 4, 0, 0, true, 0⟩, /- CTX_STALE_DROP_CNT, R316 -/
  ⟨0x500048, 1, 4, 0, 0, true, 0⟩, /- CTX_DRAIN_TIMEOUT_CNT, R316 -/
  ⟨0x50004c, 1, 4, 0, 0, true, 0⟩, /- CTX_TAKE_REFUSE_CNT, R316 -/
  ⟨0x500050, 1, 4, 0, 0, true, 0⟩, /- CTX_CE_CNT, R344 -/
  ⟨0x500054, 1, 4, 0, 0, true, 0⟩, /- CTX_UE_CNT, R344 -/
  ⟨0x500058, 1, 4, 0, 3, false, 0⟩, /- CTX_ECC_STATUS, R344 -/
  ⟨0x50005c, 1, 4, 3, 0, false, 2⟩, /- CTX_ECC_EVENT_EN, R344 -/
  ⟨0x500060, 1, 4, 0, 0, false, 0⟩, /- CTX_ERR_ENTRY, R344 -/
  ⟨0x500064, 1, 4, 0, 0, false, 0⟩, /- CTX_QUAR_CLEAR, R344 -/
  ⟨0x500070, 1, 4, 0xfc7fffff, 0, false, 0⟩, /- CTX_INJ_CTRL, R344 -/
  ⟨0x500074, 1, 4, 0xffffffff, 0, false, 0⟩, /- CTX_INJ_MASK, R344 -/
  ⟨0x500100, 16, 4, 0xffffffff, 0, false, 0⟩, /- CTX_P0_ARGw, R316 -/
  ⟨0x500140, 1, 4, 0, 0, false, 0⟩, /- CTX_P0_CMD, R316 -/
  ⟨0x500144, 1, 4, 0, 0, false, 0⟩, /- CTX_P0_RESULT, R316 -/
  ⟨0x500180, 16, 4, 0xffffffff, 0, false, 0⟩, /- CTX_P1_ARGw, R316 -/
  ⟨0x5001c0, 1, 4, 0, 0, false, 0⟩, /- CTX_P1_CMD, R316 -/
  ⟨0x5001c4, 1, 4, 0, 0, false, 0⟩, /- CTX_P1_RESULT, R316 -/
  ⟨0x500200, 16, 4, 0xffffffff, 0, false, 0⟩ /- CTX_P2_ARGw, R316 -/]

/-- Registers of the global regions, part 3. -/
def globalRows3 : List RegRow := [
  ⟨0x500240, 1, 4, 0, 0, false, 0⟩, /- CTX_P2_CMD, R316 -/
  ⟨0x500244, 1, 4, 0, 0, false, 0⟩, /- CTX_P2_RESULT, R316 -/
  ⟨0x500280, 16, 4, 0xffffffff, 0, false, 0⟩, /- CTX_P3_ARGw, R316 -/
  ⟨0x5002c0, 1, 4, 0, 0, false, 0⟩, /- CTX_P3_CMD, R316 -/
  ⟨0x5002c4, 1, 4, 0, 0, false, 0⟩, /- CTX_P3_RESULT, R316 -/
  ⟨0x500300, 16, 4, 0xffffffff, 0, false, 0⟩, /- CTX_P4_ARGw, R316 -/
  ⟨0x500340, 1, 4, 0, 0, false, 0⟩, /- CTX_P4_CMD, R316 -/
  ⟨0x500344, 1, 4, 0, 0, false, 0⟩, /- CTX_P4_RESULT, R316 -/
  ⟨0x500380, 16, 4, 0xffffffff, 0, false, 0⟩, /- CTX_P5_ARGw, R316 -/
  ⟨0x5003c0, 1, 4, 0, 0, false, 0⟩, /- CTX_P5_CMD, R316 -/
  ⟨0x5003c4, 1, 4, 0, 0, false, 0⟩, /- CTX_P5_RESULT, R316 -/
  ⟨0x600000, 1, 4, 0, 0, false, 0x67fff⟩, /- RES_CAP, R207 -/
  ⟨0x600004, 1, 4, 0, 0, false, 0⟩, /- RES_STATUS, R207 -/
  ⟨0x600008, 1, 4, 0, 3, false, 0⟩, /- RES_ERR_STATUS, R207 -/
  ⟨0x60000c, 1, 4, 3, 0, false, 3⟩, /- RES_ERR_EVENT_EN, R207 -/
  ⟨0x600010, 1, 4, 0xfffff000, 0, false, 0⟩, /- RES_SPILL_BASE_LO, R207 -/
  ⟨0x600014, 1, 4, 0xffff, 0, false, 0⟩, /- RES_SPILL_BASE_HI, R207 -/
  ⟨0x600018, 1, 4, 0xffffffff, 0, false, 0⟩, /- RES_SPILL_SIZE, R207 -/
  ⟨0x60001c, 1, 4, 0, 0, false, 0x400⟩, /- RES_TXN_HOST, R207 -/
  ⟨0x600020, 1, 4, 0, 0, false, 0x400⟩, /- RES_TXN_FAB, R207 -/
  ⟨0x600040, 1, 4, 0, 0, true, 0⟩, /- RES_CMD_CNT, R207 -/
  ⟨0x600044, 1, 4, 0, 0, true, 0⟩, /- RES_BUSY_CNT, R207 -/
  ⟨0x600048, 1, 4, 0, 0, true, 0⟩, /- RES_STALE_CNT, R207 -/
  ⟨0x600050, 1, 4, 0, 0, true, 0⟩, /- RES_CE_CNT, R344 -/
  ⟨0x600054, 1, 4, 0, 0, true, 0⟩, /- RES_UE_CNT, R344 -/
  ⟨0x600058, 1, 4, 0, 3, false, 0⟩, /- RES_ECC_STATUS, R344 -/
  ⟨0x60005c, 1, 4, 3, 0, false, 2⟩, /- RES_ECC_EVENT_EN, R344 -/
  ⟨0x600060, 1, 4, 0, 0, false, 0⟩, /- RES_ERR_ENTRY, R344 -/
  ⟨0x600064, 1, 4, 0, 0, false, 0⟩, /- RES_QUAR_CLEAR, R344 -/
  ⟨0x600070, 1, 4, 0xfc7f7fff, 0, false, 0⟩, /- RES_INJ_CTRL, R344 -/
  ⟨0x600074, 1, 4, 0xffffffff, 0, false, 0⟩, /- RES_INJ_MASK, R344 -/
  ⟨0x600100, 8, 4, 0xffffffff, 0, false, 0⟩, /- RES_P0_ARGw, R207 -/
  ⟨0x600120, 1, 4, 0, 0, false, 0⟩, /- RES_P0_CMD, R207 -/
  ⟨0x600124, 1, 4, 0, 0, false, 0⟩, /- RES_P0_RESULT, R207 -/
  ⟨0x600140, 8, 4, 0xffffffff, 0, false, 0⟩, /- RES_P1_ARGw, R207 -/
  ⟨0x600160, 1, 4, 0, 0, false, 0⟩, /- RES_P1_CMD, R207 -/
  ⟨0x600164, 1, 4, 0, 0, false, 0⟩, /- RES_P1_RESULT, R207 -/
  ⟨0x600180, 8, 4, 0xffffffff, 0, false, 0⟩, /- RES_P2_ARGw, R207 -/
  ⟨0x6001a0, 1, 4, 0, 0, false, 0⟩, /- RES_P2_CMD, R207 -/
  ⟨0x6001a4, 1, 4, 0, 0, false, 0⟩ /- RES_P2_RESULT, R207 -/]

/-- Registers of the global regions, part 4. -/
def globalRows4 : List RegRow := [
  ⟨0x6001c0, 8, 4, 0xffffffff, 0, false, 0⟩, /- RES_P3_ARGw, R207 -/
  ⟨0x6001e0, 1, 4, 0, 0, false, 0⟩, /- RES_P3_CMD, R207 -/
  ⟨0x6001e4, 1, 4, 0, 0, false, 0⟩, /- RES_P3_RESULT, R207 -/
  ⟨0x600200, 8, 4, 0xffffffff, 0, false, 0⟩, /- RES_P4_ARGw, R207 -/
  ⟨0x600220, 1, 4, 0, 0, false, 0⟩, /- RES_P4_CMD, R207 -/
  ⟨0x600224, 1, 4, 0, 0, false, 0⟩, /- RES_P4_RESULT, R207 -/
  ⟨0x600240, 8, 4, 0xffffffff, 0, false, 0⟩, /- RES_P5_ARGw, R207 -/
  ⟨0x600260, 1, 4, 0, 0, false, 0⟩, /- RES_P5_CMD, R207 -/
  ⟨0x600264, 1, 4, 0, 0, false, 0⟩, /- RES_P5_RESULT, R207 -/
  ⟨0x700000, 1, 4, 0, 0, false, 0x3ff⟩, /- WIN_CAP, R267 -/
  ⟨0x700004, 1, 4, 0, 0, false, 0⟩, /- WIN_STATUS, R267 -/
  ⟨0x700008, 1, 4, 0, 7, false, 0⟩, /- WIN_ERR_STATUS, R267 -/
  ⟨0x70000c, 1, 4, 7, 0, false, 6⟩, /- WIN_ERR_EVENT_EN, R267 -/
  ⟨0x700010, 1, 4, 0, 0, false, 0⟩, /- WIN_SYNC, R258 -/
  ⟨0x700014, 1, 4, 0, 0, false, 0⟩, /- WIN_LAST_REFUSE, R267 -/
  ⟨0x700040, 1, 4, 0, 0, true, 0⟩, /- WIN_ACCEPT_CNT, R267 -/
  ⟨0x700044, 1, 4, 0, 0, true, 0⟩, /- WIN_REFUSE_CNT, R267 -/
  ⟨0x710000, 1024, 16, 0xffffffff, 0, false, 0⟩, /- WIN_ENTRYi_W0, R254 -/
  ⟨0x710004, 1024, 16, 0xffffffc0, 0, false, 0⟩, /- WIN_ENTRYi_W1, R254 -/
  ⟨0x710008, 1024, 16, 0xffff, 0, false, 0⟩, /- WIN_ENTRYi_W2, R254 -/
  ⟨0x71000c, 1024, 16, 0xfffffff, 0, false, 0⟩, /- WIN_ENTRYi_W3, R254 -/
  ⟨0x800000, 1, 4, 0, 0, false, 0⟩, /- HDG_CAP, R246 -/
  ⟨0x800004, 1, 4, 0, 0, false, 0⟩, /- HDG_STATUS, R246 -/
  ⟨0x800008, 1, 4, 0, 0x3f, false, 0⟩, /- HDG_ERR_STATUS, R246 -/
  ⟨0x80000c, 1, 4, 0x3f, 0, false, 0x3f⟩, /- HDG_ERR_EVENT_EN, R246 -/
  ⟨0x800010, 1, 4, 0, 0, false, 0⟩, /- HDG_ABORT, R246 -/
  ⟨0x800014, 1, 4, 0, 0, false, 0⟩, /- HDG_ABORT_CLEAR, R246 -/
  ⟨0x800018, 1, 4, 0, 0, false, 0⟩, /- HDG_POST, R246 -/
  ⟨0x80001c, 1, 4, 0, 0, false, 0⟩, /- HDG_TAKE, R246 -/
  ⟨0x800020, 1, 4, 0, 0, false, 0⟩, /- HDG_BAR_ARRIVE, R246 -/
  ⟨0x800024, 1, 4, 0, 0, false, 0⟩, /- HDG_OVF_SEM, R246 -/
  ⟨0x800030, 2, 4, 0, 0, false, 0⟩, /- HDG_ABORT_SEQi, R246 -/
  ⟨0x800040, 1, 4, 0, 0, true, 0⟩, /- HDG_POST_CNT, R246 -/
  ⟨0x800044, 1, 4, 0, 0, true, 0⟩, /- HDG_REMOTE_TX_CNT, R246 -/
  ⟨0x800048, 1, 4, 0, 0, true, 0⟩, /- HDG_DROP_CNT, R246 -/
  ⟨0x80004c, 1, 4, 0, 0, true, 0⟩, /- HDG_UNREACH_CNT, R246 -/
  ⟨0x800050, 1, 4, 0, 0, true, 0⟩, /- HDG_STALE_CNT, R246 -/
  ⟨0x800054, 1, 4, 0, 0, true, 0⟩, /- HDG_ABORT_DROP_CNT, R246 -/
  ⟨0x800058, 1, 4, 0, 0, true, 0⟩, /- HDG_ABORT_DUP_CNT, R246 -/
  ⟨0x800100, 16, 4, 0x1f, 0, false, 0⟩ /- HDG_COREj_JOB, R246 -/]

/-- Registers of the global regions, part 5. -/
def globalRows5 : List RegRow := [
  ⟨0x800140, 4, 4, 0, 0, false, 0⟩, /- HDG_FLDf_NOTIFY, R246 -/
  ⟨0x801000, 128, 8, 0xcf0000ff, 0, false, 0⟩, /- HDG_BARg_CFG, R246 -/
  ⟨0x801004, 128, 8, 0, 0, false, 0⟩, /- HDG_BARg_STATUS, R246 -/
  ⟨0x804000, 4096, 4, 0x8000ffff, 0, false, 0⟩, /- HDG_SEMi, R246 -/
  ⟨0x900000, 1, 4, 0, 0, false, 0⟩, /- FAB_CAP, R266 -/
  ⟨0x900004, 1, 4, 0x800fffff, 0, false, 0⟩, /- FAB_CFG, R266 -/
  ⟨0x900008, 1, 4, 0, 0, false, 0⟩, /- FAB_STATUS, R266 -/
  ⟨0x90000c, 1, 4, 0, 0x7f, false, 0⟩, /- FAB_ERR_STATUS, R266 -/
  ⟨0x900010, 1, 4, 0x7f, 0, false, 0x7e⟩, /- FAB_ERR_EVENT_EN, R266 -/
  ⟨0x900014, 1, 4, 0xc00ff00f, 0, false, 0⟩, /- FAB_TWIN, R266 -/
  ⟨0x900018, 1, 4, 0x800ff00f, 0, false, 0⟩, /- FAB_HEAD, R266 -/
  ⟨0x900040, 1, 4, 0, 0, true, 0⟩, /- FAB_HOP_DROP_CNT, R266 -/
  ⟨0x900044, 1, 4, 0, 0, true, 0⟩, /- FAB_NO_ROUTE_CNT, R266 -/
  ⟨0x900048, 1, 4, 0, 0, true, 0⟩, /- FAB_STALE_DROP_CNT, R373 -/
  ⟨0x900100, 16, 4, 0x800000f7, 0, false, 0⟩, /- FAB_ROUTEd, R266 -/
  ⟨0x900200, 4, 4, 0, 0, false, 0⟩, /- FAB_PEER_GENi, R373 -/
  ⟨0x901000, 6, 256, 0, 0, false, 0⟩, /- FAB_Pp_CTRL, R266 -/
  ⟨0x901004, 6, 256, 0, 0, false, 0⟩, /- FAB_Pp_PARTNER, R266 -/
  ⟨0x901040, 6, 256, 0, 0, true, 0⟩, /- FAB_Pp_CRC_ERR_CNT, R266 -/
  ⟨0x901044, 6, 256, 0, 0, true, 0⟩, /- FAB_Pp_REPLAY_CNT, R266 -/
  ⟨0x901048, 6, 256, 0, 0, true, 0⟩, /- FAB_Pp_RETRAIN_CNT, R266 -/
  ⟨0x90104c, 6, 256, 0, 0, true, 0⟩, /- FAB_Pp_TX_CNT, R266 -/
  ⟨0x901050, 6, 256, 0, 0, true, 0⟩ /- FAB_Pp_RX_CNT, R266 -/]

def globalRows : List RegRow := globalRows0 ++ globalRows1 ++ globalRows2 ++ globalRows3 ++ globalRows4 ++ globalRows5

/-- The row that holds an offset, when one does. -/
def rowHas (o : Nat) (r : RegRow) : Bool :=
  decide (r.off ≤ o) && decide ((o - r.off) % r.stride = 0) && decide ((o - r.off) / r.stride < r.count)

/-- Base of the region of Field f (R19). -/
def fieldBase (f : Nat) : Nat := 0xC00000 + f * 0x100000

/-- Base of the region of core n (R20). -/
def coreBase (n : Nat) : Nat := fieldBase (n / 4) + 0x80000 + n % 4 * 0x20000

/-- A register of core n. -/
def coreReg (n o : Nat) : Nat := coreBase n + o

/-- A register of Field f. -/
def fieldReg (f o : Nat) : Nat := fieldBase f + o

/-- Which region a BAR0 offset lies in (R19–R21), and the offset within it. -/
inductive Region
  | core (n : Nat)
  | field (f : Nat)
  | global
  | hole
  deriving DecidableEq, Repr

def regionOf (o : Nat) : Region × Nat :=
  if o < 0xA00000 then (.global, o)
  else if o < 0xC00000 ∨ 0x1000000 ≤ o then (.hole, 0)
  else
    let f := (o - 0xC00000) / 0x100000
    let x := o % 0x100000
    if x < 0x80000 then (.field f, x)
    else (.core (4 * f + (x - 0x80000) / 0x20000), (x - 0x80000) % 0x20000)

/-- The register table row of a BAR0 offset. -/
def regRow (o : Nat) : Option RegRow :=
  match regionOf o with
  | (.core _, x) => coreRows.find? (rowHas x)
  | (.field _, x) => fieldRows.find? (rowHas x)
  | (.global, x) => globalRows.find? (rowHas x)
  | (.hole, _) => none

end Sys2Proof.Machine
end

