-- ==== Sys2Proof/Machine/Records.lean ====
section
/-! DEFINITION. CRC-32 (R248) and the bytes of a Tally record (R365). -/

namespace Sys2Proof.Machine

/-! ### CRC-32 -/

/-- One bit of the reflected IEEE 802.3 CRC. -/
def crcBit (c : Nat) : Nat := if c % 2 = 1 then c / 2 ^^^ 0xEDB88320 else c / 2

def crcBits : Nat → Nat → Nat
  | 0, c => c
  | k + 1, c => crcBits k (crcBit c)

def crcStep (c : Nat) (b : Byte) : Nat := crcBits 8 (c ^^^ b.toNat)

/-- CRC-32 with the IEEE 802.3 polynomial (R248). PRESUMED: bit order, preset and final inversion are those of IEEE 802.3
(log entry 28). -/
def crc32 (bs : List Byte) : Nat := bs.foldl crcStep 0xFFFFFFFF ^^^ 0xFFFFFFFF

/-- A Tally record (R365). -/
def tallyRecord (seq ty src flags ts boot gen supp : Nat) (data : List Byte) : List Byte :=
  let body := leBytes 4 seq ++ leBytes 2 ty ++ leBytes 1 src ++ leBytes 1 flags ++ leBytes 8 ts ++ leBytes 2 boot
    ++ leBytes 1 gen ++ [0] ++ leBytes 4 supp ++ (data ++ List.replicate 100 0).take 100
  body ++ leBytes 4 (crc32 body)

/-- Words of a record's data, four bytes each (log entry 27). -/
def dataWords (ws : List Nat) : List Byte := ws.flatMap fun w => leBytes 4 w

/-- DATA of a RESET record (R366): domain 1 a Field, 2 the device. -/
def resetData (domain f cause gen : Nat) (absorbed : Bool) (wfSeq : Nat) : List Byte :=
  leBytes 1 domain ++ leBytes 1 f ++ leBytes 1 cause ++ leBytes 1 gen ++ leBytes 1 absorbed.toNat ++ [0, 0, 0] ++ leBytes 4 wfSeq

end Sys2Proof.Machine
end

