-- ==== Sys2Proof/Machine/State.lean ====
section
/-! DEFINITION. The state of the FN-1640 as plain data, the faults and refusals, and the machine right after reset. -/

namespace Sys2Proof.Machine

/-- Family members (R2–R6). -/
inductive Part
  | fn1640 | fn0820 | fn0410 | fn0102
  deriving DecidableEq, Repr

/-- No command of this block stops with a fault: every error the manual describes is an effect on the state (a flag, a
status code, poison). The type is empty. -/
inductive Fault
  deriving DecidableEq, Repr

/-- Why a command has no meaning. -/
inductive Refusal
  /-- raised by exec alone, for a command that has no meaning yet; safe: the machine stops -/
  | notModelled (mnemonic : String)
  deriving DecidableEq, Repr

/-- What a Field holds beside its registers. -/
structure FieldState where
  /-- hidden threshold counter of corrected granules (R324) -/
  ceCount : Nat := 0
  /-- weight-store pages by page number (R211), program counts by extent, extents retired (R212) -/
  pages : Store (BitVec 16384) := []
  wear : Store Nat := []
  retired : List Nat := []
  /-- bytes read and programmed that no whole MiB of WSn_RD_CNT and WSn_PROG_CNT counts yet -/
  rdPart : Nat := 0
  progPart : Nat := 0
  /-- programming is paused for temperature (R401) -/
  wsPaused : Bool := false
  /-- channel, bank and row under post-package repair (R325) -/
  ppr : Option (Nat × Nat × Nat) := none
  /-- the context whose operations a fence aborts, while the fence runs (R353) -/
  fence : Option Nat := none
  /-- events of job aborts that the Field's Forester has received (R245) -/
  abortEvents : Nat := 0
  deriving DecidableEq, Repr

/-- The machine. -/
structure State where
  part : Part := .fn1640
  /-- set-up registers by BAR0 offset (R9, R19); an unlisted register holds its reset value -/
  regs : Store Word := []
  cores : Vector CoreState 16 := Vector.replicate 16 {}
  fields : Vector FieldState 4 := Vector.replicate 4 {}
  nm : Store NmGran := []
  nmWb : List Nat := []
  chans : Vector (Vector Chan 16) 4 := Vector.replicate 4 (Vector.replicate 16 {})
  skqs : Vector (List SkqEntry) 16 := Vector.replicate 16 []
  txns : List Txn := []
  txnSeq : Nat := 0
  waiters : List (Nat × XferOwner) := []
  /-- transactions that HST_OMAP_SYNC waits for (R186) -/
  omapMarks : List Nat := []
  bkrs : Vector Bkr 4 := Vector.replicate 4 {}
  /-- notify queues of the Fields (R235) and waiting barrier arrivals, (group, arrival) (R237) -/
  notify : Vector (List Nat) 4 := Vector.replicate 4 []
  arrivals : List (Nat × Arrival) := []
  /-- straps (R408): DEVID and HOSTSEL -/
  straps : Nat := 0
  hostSel : Nat := 0
  ports : Vector Port 6 := Vector.replicate 6 {}
  heldReqs : List HeldReq := []
  /-- everything the device has put out, newest first -/
  out : List OutMsg := []
  /-- Tally ring by slot (R364), suppressed records by pair, pairs written (R367), device resets since manufacture -/
  tally : Store (Option (BitVec 1024)) := []
  talSupp : Store Nat := []
  talSeen : List Nat := []
  boots : Nat := 1
  /-- Windfall slots (R363): the bytes written from the start of each -/
  windfall : Vector (List Byte) 2 := Vector.replicate 2 []
  ctx : Store TabWord := []
  res : Store TabWord := []
  /-- model roots (R219) -/
  roots : Vector Root 64 := Vector.replicate 64 {}
  /-- the two copies of the catalogue, written in turn (R223) -/
  catalog : Vector CatCopy 2 := Vector.replicate 2 {}
  /-- tier and Field recorded for the destination of a Residency move in progress (R195), 4 × tier + Field, by entry -/
  resDest : Store Nat := []
  /-- moves of firmware's that have not ended in MOVE_DONE or MOVE_CANCEL (R197) -/
  moves : List Move := []
  /-- near memory and spill pool given out by firmware: device-physical address and bytes (R189) -/
  given : List (Nat × Nat) := []
  rings : Store RingState := []
  eqs : Vector EqState 64 := Vector.replicate 64 {}
  /-- records that found no enabled error queue, and the NOTICE held for it (R292, R358) -/
  errLost : Nat := 0
  errHeld : List EvRec := []
  descs : List Descr := []
  descSeq : Nat := 0
  corr : Option Corr := none
  /-- head takeover (R261): completions already mirrored, (ring, slot), and the rings whose doorbell is still to come -/
  mirrored : List (Nat × Nat) := []
  takeoverRings : List Nat := []
  /-- the Surveyor's writes to other devices that have not ended, and records that wait for theirs, oldest first (R260, R261) -/
  headWrites : List HeadWrite := []
  ctxFw : Store CtxFw := []
  /-- entries allocated by XFER ALLOC and not freed (R284) -/
  hostObjs : List Nat := []
  xferWaits : List XferWait := []
  chanWaits : List ChanWait := []
  /-- channel transfers of firmware's that have ended: purpose, status, bytes moved -/
  fwDone : List (Purpose × Nat × Nat) := []
  steps : List StepRun := []
  stepSeq : Nat := 0
  /-- Windfall: the capture in progress, Fields that wait for theirs with the cause, and the page latched -/
  capture : Option Capture := none
  captureWaits : List (Nat × Nat) := []
  wfPage : List Byte := []
  /-- Windfall SEQ of the capture before the device reset in progress (R366) -/
  wfSeq : Nat := 0
  banks : Vector Bank 2 := ⟨#[⟨none, none⟩, ⟨some [], some []⟩], rfl⟩
  bankPtr : Nat := 0
  /-- the packages that run (R384), and whether the next boot is into recovery mode (R379) -/
  runSrv : Option (List Byte) := none
  runFrs : Option (List Byte) := none
  toRecovery : Bool := false
  /-- detail code of a Forester package that failed, until the boot from the other bank ends (R379) -/
  bootFail : Option Nat := none
  /-- repair-map entries (R92), and those in force since the last device reset (R91) -/
  repairMap : List Word := []
  repairOn : List Word := []
  power : PowerState := {}
  /-- the value answered to the last register read, and the upper word of a 64-bit one -/
  resp : Word := 0
  respHi : Word := 0
  /-- timestamp counters (R294): the Fields' and the Surveyor's -/
  clocks : Vector Clock 5 := Vector.replicate 5 {}
  ctxQuar : List Nat := []
  resQuar : List Nat := []
  freeCtr : Nat := 0
  pending : List Instr := []
  deriving DecidableEq, Repr

/-- Registers that hold something other than their reset value right after reset: the two Tally records, the budget counters as
the Surveyor fills them (R317) with five GIVE commands on its port, and the generations raised at power-on (R349). -/
def resetRegs : Store Word :=
  [(0x400004, 2), (0x400010, 2), (0x400040, 2),
   (0x500020, 0x3A2000), (0x500024, 0x3A2000), (0x500028, 0x3A2000), (0x50002C, 0x3A2000), (0x500034, 0x8000), (0x500040, 5),
   (0x500300, 0x5008000), (0x500344, 0x80000000),
   (0xC00008, 1), (0xD00008, 1), (0xE00008, 1), (0xF00008, 1)]

/-- A record of the first boot, with the free timestamp of use k (log entry 26). -/
def resetRecord (seq ty k : Nat) (data : List Byte) : Option (BitVec 1024) :=
  some (BitVec.ofNat 1024 (leNat (tallyRecord seq ty 0 0 (Config.fresh k % 2 ^ 64) 1 1 0 data)))

/-- The timestamp counters of the first boot: all run, at free values from use 3 on (log entry 26). -/
def resetClocks : Vector Clock 5 := Vector.ofFn fun k => ⟨Config.fresh (3 + k.val) % 2 ^ 64, true⟩

/-- The FN-1640 right after the power-on reset of a new chip, at READY (R348, R356, R378, R413): every register at the reset value
of its table, device and Field generations 1, the RESET and BOOT records in Tally, the NOTICE of the reset held for the error queue
(R358). Registers whose reset value the manual leaves open are named in log entry 40. -/
def State.reset : State :=
  { regs := resetRegs,
    tally := [(0, resetRecord 1 0x0002 0 (resetData 2 0 1 1 false 0)),
      (1, resetRecord 2 0x0001 1 (dataWords [1, (Config.fuse 0x308).toNat, (Config.fuse 0x30C).toNat]))],
    talSeen := [0x200, 0x100],
    errHeld := [{ ty := 3, code := 5, ts := Config.fresh 2 % 2 ^ 64, w1 := 0x200, w2 := 0x101, w3 := 1 }],
    clocks := resetClocks,
    freeCtr := 8 }

end Sys2Proof.Machine
end

