-- ==== Sys2Proof/Machine/Ops.lean ====
section
/-! DEFINITION. Named operations on the state shared by every block: registers, flags, counters, cores, free values. -/

namespace Sys2Proof.Machine

/-! ### The part (R2–R6) -/

/-- Fields present. -/
def fieldCount : Part → Nat
  | .fn1640 => 4 | .fn0820 => 2 | .fn0410 => 1 | .fn0102 => 1

/-- Cores present. -/
def coreCount : Part → Nat
  | .fn1640 => 16 | .fn0820 => 8 | .fn0410 => 4 | .fn0102 => 1

/-- Every present core has a Thresher. -/
def hasThresher : Part → Bool
  | .fn1640 | .fn0820 => true
  | .fn0410 | .fn0102 => false

/-- A weight store is fitted. -/
def hasWeightStore : Part → Bool
  | .fn1640 | .fn0820 => true
  | .fn0410 | .fn0102 => false

/-- Fabric ports fitted. -/
def portCount : Part → Nat
  | .fn1640 => 6 | .fn0820 => 2 | .fn0410 => 0 | .fn0102 => 0

/-- A USB4 router is fitted. -/
def hasUsb4 : Part → Bool
  | .fn1640 | .fn0820 => true
  | .fn0410 | .fn0102 => false

/-- Populated near memory of a Field, in bytes (R180). -/
def nmBytes : Part → Nat
  | .fn0102 => 0x100000000
  | _ => 0x400000000

/-- First near-memory offset that is not addressable: 31P/32 (R181). -/
def nmDataEnd (p : Part) : Nat := 31 * nmBytes p / 32

/-! ### Registers (R4, R9, R412) -/

/-- Words that no two chips share, or that only manufacture knows: unique identifier, identity key, fused keys and their
purposes, security version counters, versions of the firmware loaded at manufacture, the first maintenance nonce, USB vendor id,
certificate (R370, R383, R386, R389). Their values are free (log entry 25). -/
def isChipWord (o : Nat) : Bool :=
  o == Reg.SRV_FW_VERSIONi || o == Reg.SRV_FW_VERSIONi + 4 || (decide (Reg.TAL_MAINT_NONCEw ≤ o) && decide (o < Reg.TAL_MAINT_NONCEw + 16))
    || o == Reg.SRV_SVN || o == Reg.SRV_KEY_STATUS || o == Reg.SRV_CERT_LEN || o == Reg.USB_SVC_VID
    || (decide (0x600 ≤ o) && decide (o < 0x650)) || (decide (0x1000 ≤ o) && decide (o < 0x1200))
    || (decide (0x3000 ≤ o) && decide (o < 0x3800))

/-- Reset values fixed at manufacture that differ between parts (R3, R141, R206, R246, R266, R299, R397, R411), the spare rows
read at training (R326), the host link at its full rate and width (R269, log entry 38), and the masked state in which PCIe leaves the MSI-X vector controls (R272). -/
def fusedReset (p : Part) (o : Nat) : Option Word :=
  match regionOf o with
  | (.core _, x) => if x = Reg.THRn_CAP ∧ !hasThresher p then some 0 else if x = Reg.THRn_ERR_EVENT_EN ∧ !hasThresher p then some 0
      else if x = Reg.SPMn_PARTk then some 0x80000060 else none
  | (.field _, x) => if x = Reg.NMn_CAP then some (if p = .fn0102 then 0x00040040 else 0x00040100)
      else if x = Reg.NMn_ECC_BASE then some (if p = .fn0102 then 0x0000F800 else 0x0003E000)
      else if x = Reg.NMn_PPR_STATUS then some (Config.fuse o &&& 0xFF)
      else if Reg.WSn_CAP ≤ x ∧ x ≤ Reg.WSn_PROG_CNT ∧ !hasWeightStore p then some 0 else none
  | (.global, x) =>
      if x = Reg.HDG_CAP then some (match p with
        | .fn1640 => 0x60801000 | .fn0820 => 0x20800800 | .fn0410 => 0x00800400 | .fn0102 => 0x00800100)
      else if x = Reg.SRV_CAP0 then some (match p with
        | .fn1640 => 0x1FFFFFFF | .fn0820 => 0x10F00FF3 | .fn0410 => 0x000000F1 | .fn0102 => 0x00000011)
      else if x = Reg.SRV_CAP1 then some (match p with
        | .fn1640 => 0x04400040 | .fn0820 => 0x02200020 | .fn0410 => 0x00100010 | .fn0102 => 0x10040002)
      else if x = Reg.FAB_CAP then some (match p with
        | .fn1640 => 0x003F4014 | .fn0820 => 0x00034014 | _ => 0)
      else if x = Reg.USB_CAP then some (if hasUsb4 p then 3 else 2)
      else if x = Reg.PWR_CAP then some (if p = .fn0102 then 0x4003 else 0x4005)
      else if x = Reg.PWR_RANGE then some (match p with
        | .fn1640 => 0x04B0012C | .fn0820 => 0x025800A0 | .fn0410 => 0x00F0003C | .fn0102 => 0x00280003)
      else if x = Reg.PWR_SETTING then some (match p with
        | .fn1640 => 0x12C | .fn0820 => 0xA0 | .fn0410 => 0x3C | .fn0102 => 3)
      else if x = Reg.HST_STATUS then some (if p = .fn0102 then 0x411 else 0x541)
      else if Reg.MSIX_TABLE ≤ x ∧ x < Reg.MSIX_TABLE + 0x400 ∧ x % 16 = 12 then some 1
      else if isChipWord x then some (Config.fuse x)
      else none
  | (.hole, _) => none

/-- The value a register holds until something writes it. -/
def regReset (p : Part) (o : Nat) : Word :=
  match fusedReset p o with
  | some w => w
  | none => match regRow o with
    | some r => BitVec.ofNat 32 r.reset
    | none => 0

/-- The stored value of a register. -/
def State.reg (s : State) (o : Nat) : Word := storeGet (regReset s.part o) s.regs o

/-- Store a register. -/
def State.setReg (s : State) (o : Nat) (v : Word) : State :=
  { s with regs := storeSet (regReset s.part o) s.regs o v }

/-- Count in a counter that stops at 0xFFFF_FFFF (R45). -/
def State.bump (s : State) (o k : Nat) : State := s.setReg o (satAdd32 (s.reg o) k)

/-- Set flags. -/
def State.raise (s : State) (o : Nat) (m : Word) : State := s.setReg o (s.reg o ||| m)

/-- Clear flags. -/
def State.lower (s : State) (o : Nat) (m : Word) : State := s.setReg o (s.reg o &&& ~~~m)

/-! ### Cores -/

/-- The island of core n. -/
def State.core (s : State) (n : Nat) : CoreState := s.cores[n]?.getD {}

/-- Replace the island of core n. -/
def State.setCore (s : State) (n : Nat) (c : CoreState) : State := { s with cores := s.cores.setIfInBounds n c }

/-- Change the island of core n. -/
def State.modCore (s : State) (n : Nat) (f : CoreState → CoreState) : State := s.setCore n (f (s.core n))

/-- A core that this part has (R2). -/
def corePresent (s : State) (n : Nat) : Bool := decide (n < coreCount s.part)

/-- A Field that this part has (R2). -/
def fieldPresent (s : State) (f : Nat) : Bool := decide (f < fieldCount s.part)

/-- The core's Sequencer is running: every state except STOPPED (R143). -/
def seqRunning (s : State) (n : Nat) : Bool := decide ((s.core n).seq ≠ .stopped)

/-- Stall and cycle counters count only in RUNNING or DRAINING (R176). -/
def countsCycles (s : State) (n : Nat) : Bool :=
  match (s.core n).seq with
  | .running | .draining => true
  | _ => false

/-! ### Power domains (R391–R393) -/

/-- PWR_DOMk_CTRL. -/
def domReg (k : Nat) : Nat := Reg.PWR_DOMk_CTRL + 4 * k

/-- State of domain k: 0 OFF, 1 RETAIN, 2 ON, 3 switching. -/
def domState (s : State) (k : Nat) : Nat := bits (s.reg (domReg k)) 9 8
def domOn (s : State) (k : Nat) : Bool := decide (domState s k = 2)

/-- An access to a domain that is not ON (R393). -/
def offAccess (s : State) : State := (s.bump Reg.PWR_OFF_ACCESS_CNT 1).raise Reg.PWR_ERR_STATUS (bitMask 4)

/-! ### Stalls (R34, R165, R166) -/

/-- The fourteen stall causes of R166, by rank. -/
def stallCounter : Nat → Nat
  | 1 => Reg.TINEn_DRAIN_HOLD_CNT
  | 2 => Reg.COREn_SEM_HOLD_CNT
  | 3 => Reg.COREn_SKQ_HOLD_CNT
  | 4 => Reg.THRn_QUEUE_HOLD_CNT
  | 5 => Reg.THRn_KV_WAIT_CNT
  | 6 => Reg.HRWn_HOLD_CNT
  | 7 => Reg.COREn_BUSY_HOLD_CNT
  | 8 => Reg.SPMn_SWEEP_HOLD_CNT
  | 9 => Reg.SPMn_CONFLICT_HOLD_CNT
  | 10 => Reg.SPMn_ARB_HOLD_CNT
  | 11 => Reg.COREn_CE_HOLD_CNT
  | 12 => Reg.TINEn_BUBBLE_SPM_CNT
  | 13 => Reg.TINEn_BUBBLE_HRW_CNT
  | _ => Reg.TINEn_BUBBLE_ARB_CNT

/-- Count k stall cycles of core n under the cause of one rank: once in that cause's counter, in the island cycles, in the
stall count, and in the bubble count for the bubble causes (R166, R167). -/
def countStall (s : State) (n rank k : Nat) : State :=
  if countsCycles s n && decide (0 < k) then
    let s := s.bump (coreReg n (stallCounter rank)) k
    let s := s.bump (coreReg n Reg.COREn_STALL_CNT) k
    let s := s.bump (coreReg n Reg.COREn_ISLAND_CYCLE_CNT) k
    if 12 ≤ rank then s.bump (coreReg n Reg.COREn_BUBBLE_CNT) k else s
  else s

/-- Count k program cycles of core n (R167). -/
def countProg (s : State) (n k : Nat) : State :=
  let s := s.bump (coreReg n Reg.COREn_PROG_CYCLE_CNT) k
  let s := s.bump (coreReg n Reg.COREn_ISLAND_CYCLE_CNT) k
  s.modCore n fun c => { c with prog := c.prog + k }

/-! ### Free values -/

/-- Advance the free-value counter: the value of this use is `Config.fresh s.freeCtr`. -/
def State.tickFree (s : State) : State := { s with freeCtr := s.freeCtr + 1 }

end Sys2Proof.Machine
end

