-- ==== Sys2Proof/Machine/Scratchpad.lean ====
section
/-! DEFINITION. The two-dimensional scratchpad (R67–R93): address forms, partitions, check modes, poison, written bits,
sweeps, injection. -/

namespace Sys2Proof.Machine

/-- Populated bytes of a scratchpad: 6 MiB (R67). -/
def spmSize : Nat := 0x600000

/-- The bank of a byte offset (R68). -/
def spmBank (x : Nat) : Nat := ((x >>> 11) % 32 + (x >>> 6) % 32) % 32

/-- The bank-internal row of a byte offset (R68). -/
def spmRow (x : Nat) : Nat := (x >>> 16) * 32 + (x >>> 11) % 32

/-- Byte offset of the granule in row r, column c of a tile (R68). -/
def tileGranule (t r c : Nat) : Nat := (t * 1024 + r * 32 + c) * 64

/-- Who reaches a scratchpad, where the rules differ by requester (R75, R86). -/
inductive SpmReq
  /-- an engine of the core -/
  | engine
  /-- the Forester, or a Skidder transfer it or the host posted (R86) -/
  | forester
  /-- any other asynchronous requester, a window among them -/
  | other
  deriving DecidableEq, Repr

/-- The enabled partition that covers a tile (R78). -/
def partOfTile (s : State) (n t : Nat) : Option Nat :=
  firstBelow 8 fun k =>
    let w := s.reg (coreReg n (Reg.SPMn_PARTk + 4 * k))
    flag w 31 && decide (bits w 14 8 ≤ t) && decide (t < bits w 14 8 + bits w 6 0)

/-- The partition of a byte offset; none outside the populated range or every partition (R69, R80). -/
def partOf (s : State) (n x : Nat) : Option Nat :=
  if corePresent s n && decide (x < spmSize) then partOfTile s n (x >>> 16) else none

/-- The register of partition k of core n. -/
def partWord (s : State) (n k : Nat) : Word := s.reg (coreReg n (Reg.SPMn_PARTk + 4 * k))

/-- Is an offset in an instruction partition (R78)? -/
def inInstrPart (s : State) (n x : Nat) : Bool :=
  match partOf s n x with
  | some k => flag (partWord s n k) 30
  | none => false

/-- How a stored word reads (R81, R83, R84). -/
inductive WordRead
  | clean (d : DWord)
  | corrected (d : DWord) (bit : Nat)
  | parity          -- BYTE mode: a parity error
  | poison
  | aliased         -- WORD mode: a double-bit error with the poison syndrome (R84)
  | uncorrectable
  deriving DecidableEq, Repr

/-- Parity mismatch of byte b of a BYTE-mode word: an odd number of differences in the byte and its parity bit. -/
def byteBad (w : SpmWord) (b : Nat) : Bool :=
  popCount (BitVec.ofNat 8 (bits w.flip (8 * b + 7) (8 * b)) ) % 2 != (flag w.flip (64 + b)).toNat

/-- Decode a stored word in WORD or BYTE mode. Three or more flips outside the poison marking have an outcome that the
manual leaves open (log entry 13). -/
def readWord (byteMode : Bool) (w : SpmWord) : WordRead :=
  let raw := w.data ^^^ BitVec.ofNat 64 w.flip.toNat
  if byteMode then
    let bad := (List.range 8).map (byteBad w)
    if bad.all id then .poison else if bad.any id then .parity else .clean raw
  else if w.flip = 0 then .clean w.data
  else if w.flip = BitVec.ofNat 72 (0x96 <<< 64) then .poison
  else match popCount w.flip with
    | 1 => .corrected w.data (Nat.log2 w.flip.toNat)
    | 2 => if Config.eccOutcome w.flip.toNat % 2 = 0 then .uncorrectable else .aliased
    | _ => match Config.eccOutcome w.flip.toNat % 4 with
      | 0 => .clean (BitVec.ofNat 64 (Config.eccData w.data.toNat w.flip.toNat))
      | 1 => .corrected (BitVec.ofNat 64 (Config.eccData w.data.toNat w.flip.toNat)) (Config.eccOutcome w.flip.toNat / 4 % 72)
      | 2 => .poison
      | _ => .uncorrectable

/-- The poison marking of a check mode (R84). -/
def poisonFlip (byteMode : Bool) : BitVec 72 :=
  if byteMode then BitVec.ofNat 72 (0xFF <<< 64) else BitVec.ofNat 72 (0x96 <<< 64)

/-- A record of SPMn_CE_ADDR or SPMn_UE_ADDR (R93). -/
def spmAddrRec (k wi bit : Nat) : Word := BitVec.ofNat 32 (1 <<< 31 ||| k <<< 28 ||| (wi <<< 8) % 2 ^ 28 ||| bit)

/-- Bytes of a word, each marked. -/
def wordBytes (d : DWord) (poison : Bool) : List PByte := (leBytes 8 d.toNat).map fun b => (b, poison)

/-- What a scratchpad read gives: the bytes, how many words were corrected, and the state with what it records. -/
structure SpmRd where
  bytes : List PByte
  ce : Nat
  st : State

/-- Record an access outside every partition or the populated range (R69, R80). -/
def spmOutOfPart (s : State) (n : Nat) : State :=
  (s.raise (coreReg n Reg.SPMn_ERR_STATUS) (bitMask 3)).bump (coreReg n Reg.SPMn_DROP_CNT) 1

/-- Record a detected error in word wi of partition k (R81, R83). -/
def spmUe (s : State) (n k wi : Nat) : State :=
  let s := s.bump (coreReg n Reg.SPMn_UE_CNT) 1
  let s := s.setReg (coreReg n Reg.SPMn_UE_ADDR) (spmAddrRec k wi 0x7F)
  s.raise (coreReg n Reg.SPMn_ERR_STATUS) (bitMask 1)

/-- Record a corrected word of partition k (R81). -/
def spmCe (s : State) (n k wi bit : Nat) : State :=
  let s := s.bump (coreReg n Reg.SPMn_CE_CNT) 1
  let s := s.setReg (coreReg n Reg.SPMn_CE_ADDR) (spmAddrRec k wi bit)
  s.raise (coreReg n Reg.SPMn_ERR_STATUS) (bitMask 0)

/-- A stored poisoned word was read (R84). -/
def spmPoisonRead (s : State) (n : Nat) : State := s.raise (coreReg n Reg.SPMn_ERR_STATUS) (bitMask 2)

/-- A scheduled access met a partition that is being swept (R89): the operation that makes it is put off (`scheduled`). -/
def sweepMeet (s : State) (n k : Nat) : State :=
  if flag (s.core n).sweeping k then s.modCore n fun c => { c with sweepHit := true } else s

/-- Run an operation of core n's scheduled engines: when one of its accesses meets a partition that is being swept, none of it
happens and the island holds one cycle (R89). -/
def scheduled (s : State) (n : Nat) (f : State → State) : State :=
  if ((f s).core n).sweepHit then countStall s n 8 1 else f s

/-- Do any of these bytes lie in a partition that is being swept (R89)? -/
def spmSwept (s : State) (n x len : Nat) : Bool :=
  (s.core n).sweeping ≠ 0 && (List.range ((x + len - 1) / 64 - x / 64 + 1)).any fun i =>
    match partOf s n ((x / 64 + i) * 64) with
    | some k => flag (s.core n).sweeping k
    | none => false

/-- Read one 8-byte word (R81, R83, R84, R88). `first` is set on the first word an access touches in a granule, so that an
access outside every partition is counted once a granule (log entry 20). -/
def spmReadWord (s : State) (n wi : Nat) (first : Bool) : SpmRd :=
  match partOf s n (8 * wi) with
  | none => ⟨wordBytes 0 true, 0, if first && corePresent s n then spmOutOfPart s n else s⟩
  | some k =>
    let s := sweepMeet s n k
    let c := s.core n
    if !storeGet false c.written (wi / 8) then ⟨wordBytes 0 false, 0, s⟩
    else match readWord (flag (partWord s n k) 29) (storeGet {} c.spm wi) with
      | .clean d => ⟨wordBytes d false, 0, s⟩
      | .corrected d b =>
        ⟨wordBytes d false, 1, (spmCe s n k wi b).modCore n fun c => { c with ceWb := if wi ∈ c.ceWb then c.ceWb else c.ceWb ++ [wi] }⟩
      | .poison => ⟨wordBytes 0 true, 0, spmPoisonRead s n⟩
      | .parity | .uncorrectable => ⟨wordBytes 0 true, 0, spmUe s n k wi⟩
      | .aliased => ⟨wordBytes 0 true, 0, spmPoisonRead (spmUe s n k wi) n⟩

/-- Read `k` words from word `wi` on. -/
def spmReadWords : Nat → State → Nat → Nat → Bool → SpmRd
  | 0, s, _, _, _ => ⟨[], 0, s⟩
  | k + 1, s, n, wi, first =>
    let r := spmReadWord s n wi (first || decide (wi % 8 = 0))
    let t := spmReadWords k r.st n (wi + 1) false
    ⟨r.bytes ++ t.bytes, r.ce + t.ce, t.st⟩

/-- Read `len` bytes at offset x (R70, R80). -/
def spmRead (s : State) (n x len : Nat) : SpmRd :=
  if len = 0 then ⟨[], 0, s⟩ else
  let r := spmReadWords ((x + len - 1) / 8 - x / 8 + 1) s n (x / 8) true
  { r with bytes := slice r.bytes (x % 8) len }

/-- Read `k` words from word `wi` on, leaving out the words of which no byte is needed (R36: a masked row is never read). -/
def spmReadNeed : Nat → State → Nat → Nat → Bool → (Nat → Bool) → SpmRd
  | 0, s, _, _, _, _ => ⟨[], 0, s⟩
  | k + 1, s, n, wi, first, need =>
    let first := first || decide (wi % 8 = 0)
    let here := (List.range 8).any fun b => need (8 * wi + b)
    let r : SpmRd := if here then spmReadWord s n wi first else ⟨wordBytes 0 false, 0, s⟩
    let t := spmReadNeed k r.st n (wi + 1) (first && !here) need
    ⟨r.bytes ++ t.bytes, r.ce + t.ce, t.st⟩

/-- Read the words that bytes are needed of, in separate granules (R70): `need i` asks for byte i of the granules in order. -/
def spmReadGranules (s : State) (n : Nat) (need : Nat → Bool) : List Nat → SpmRd
  | [] => ⟨[], 0, s⟩
  | x :: t =>
    let r := spmReadNeed 8 s n (x / 8) true fun b => need (b - x)
    let q := spmReadGranules r.st n (fun i => need (i + 64)) t
    ⟨r.bytes ++ q.bytes, r.ce + q.ce, q.st⟩

/-- Merge written bytes into a word: byte b of the word takes the written byte when there is one. -/
def mergeWord (d : DWord) (lo : Nat) (bs : List PByte) : DWord :=
  BitVec.ofNat 64 (leNat ((List.range 8).map fun i =>
    if lo ≤ i ∧ i < lo + bs.length then ((bs[i - lo]?).getD (0, false)).1 else BitVec.ofNat 8 (d.toNat >>> (8 * i))))

/-- Write part or all of one word of a written granule: bytes lo … lo + length − 1 (R82, R83, R85, R331). -/
def spmWriteWord (s : State) (n k wi lo : Nat) (bs : List PByte) (wasWritten : Bool) : State :=
  let byteMode := flag (partWord s n k) 29
  let old := storeGet {} (s.core n).spm wi
  let poisoned := bs.any (·.2)
  let put (s : State) (w : SpmWord) : State := s.modCore n fun c =>
    { c with spm := storeSet {} c.spm wi w, ceWb := c.ceWb.filter (· ≠ wi) }
  let marked (d : DWord) (p : Bool) : SpmWord := ⟨d, if p then poisonFlip byteMode else 0⟩
  if lo = 0 ∧ bs.length = 8 then put s (marked (mergeWord 0 0 bs) poisoned)
  else if byteMode then
    if poisoned then put s (marked (mergeWord old.data lo bs) true)
    else
      -- the written bytes take good parity; the others keep theirs (R85)
      let keep : Nat := leNat ((List.range 8).map fun i => if lo ≤ i ∧ i < lo + bs.length then 0 else 0xFF)
      let keepP : Nat := ((List.range 8).filter fun i => !(decide (lo ≤ i) && decide (i < lo + bs.length))).foldl (fun a i => a + 2 ^ i) 0
      put s ⟨mergeWord old.data lo bs, old.flip &&& BitVec.ofNat 72 (keep + keepP <<< 64)⟩
  else
    let s := if wasWritten then s.bump (coreReg n Reg.SPMn_RMW_CNT) 1 else s
    match readWord false old with
    | .clean d => put s (marked (mergeWord d lo bs) poisoned)
    | .corrected d b => put (spmCe s n k wi b) (marked (mergeWord d lo bs) poisoned)
    | .poison => spmPoisonRead s n
    | .aliased => spmPoisonRead (spmUe s n k wi) n
    | .parity | .uncorrectable => spmUe s n k wi

/-- Apply an armed injector to the granule just written (R337, R338). -/
def spmInject (s : State) (n g : Nat) : State :=
  let ctl := s.reg (coreReg n Reg.SPMn_INJ_CTRL)
  if flag ctl 31 && (!flag ctl 30 || decide (bits (s.reg (coreReg n Reg.SPMn_INJ_ADDR)) 22 6 = g)) then
    let wi := 8 * g + bits ctl 29 27
    let mask : BitVec 72 := BitVec.ofNat 72 ((s.reg (coreReg n Reg.SPMn_INJ_DATA_LO)).toNat
      + (s.reg (coreReg n Reg.SPMn_INJ_DATA_HI)).toNat <<< 32 + bits ctl 7 0 <<< 64)
    let s := s.modCore n fun c =>
      let w := storeGet {} c.spm wi
      { c with spm := storeSet {} c.spm wi { w with flip := w.flip ^^^ mask } }
    s.setReg (coreReg n Reg.SPMn_INJ_CTRL) (setFlag ctl 31 false)
  else s

/-- Write the words of one granule that bytes from offset x cover; `fuel` words at most. -/
def spmWriteWords : Nat → State → Nat → Nat → Nat → List PByte → Bool → State
  | 0, s, _, _, _, _, _ => s
  | f + 1, s, n, k, x, bs, was =>
    let m := min bs.length (8 - x % 8)
    if m = 0 then s
    else spmWriteWords f (spmWriteWord s n k (x / 8) (x % 8) (bs.take m) was) n k (x + m) (bs.drop m) was

/-- Write bytes within one granule (R73, R86, R88, R171). -/
def spmWriteGranule (s : State) (n x : Nat) (bs : List PByte) (who : SpmReq) : State :=
  match partOf s n x with
  | none => if corePresent s n then spmOutOfPart s n else s
  | some k =>
    let s := if who = .engine then sweepMeet s n k else s
    if flag (partWord s n k) 30 && (decide (who ≠ .forester) || seqRunning s n) then
      (s.raise (coreReg n Reg.SPMn_ERR_STATUS) (bitMask 4)).bump (coreReg n Reg.SPMn_DROP_CNT) 1
    else
      let g := x / 64
      let was := storeGet false (s.core n).written g
      let s := if was then s else s.modCore n fun c =>
        { c with written := storeSet false c.written g true,
                 spm := storeErase (fun wi => decide (wi / 8 = g)) c.spm,
                 ceWb := c.ceWb.filter (· / 8 ≠ g) }
      spmInject (spmWriteWords 9 s n k x bs was) n g

/-- Write bytes at offset x, granule by granule; `fuel` granules at most. -/
def spmWriteLoop : Nat → State → Nat → Nat → List PByte → SpmReq → State
  | 0, s, _, _, _, _ => s
  | f + 1, s, n, x, bs, who =>
    let m := min bs.length (64 - x % 64)
    if m = 0 then s else spmWriteLoop f (spmWriteGranule s n x (bs.take m) who) n (x + m) (bs.drop m) who

/-- Write bytes at offset x of core n's scratchpad (R80, R86). -/
def spmWrite (s : State) (n x : Nat) (bs : List PByte) (who : SpmReq) : State :=
  spmWriteLoop (bs.length / 64 + 2) s n x bs who

/-- Would a write of these bytes be dropped anywhere (R80, R86, R90)? Used for the window outcome. -/
def spmWriteDropped (s : State) (n x len : Nat) (who : SpmReq) : Bool :=
  (List.range ((x + len - 1) / 64 - x / 64 + 1)).any fun i =>
    match partOf s n ((x / 64 + i) * 64) with
    | none => true
    | some k => flag (partWord s n k) 30 && (decide (who ≠ .forester) || seqRunning s n)

/-- A corrected word is written back as it was delivered, unless a write reached it first (R81). -/
def spmWriteBack (s : State) (n wi : Nat) : State :=
  if wi ∈ (s.core n).ceWb then s.modCore n fun c =>
    { c with spm := (match readWord false (storeGet {} c.spm wi) with
        | .corrected d _ => storeSet {} c.spm wi ⟨d, 0⟩
        | _ => c.spm), ceWb := c.ceWb.filter (· ≠ wi) }
  else s

/-- Clear the written bits of the tiles that satisfy p (R88): they read as zero. -/
def spmClearTiles (s : State) (n : Nat) (p : Nat → Bool) : State := s.modCore n fun c =>
  { c with written := storeErase (fun g => p (g / 1024)) c.written,
           spm := storeErase (fun wi => p (wi / 8192)) c.spm,
           ceWb := c.ceWb.filter fun wi => !p (wi / 8192) }

/-- Check mode of a tile: none outside every partition (R79). -/
def tileMode (s : State) (n t : Nat) : Option Bool := (partOfTile s n t).map fun k => flag (partWord s n k) 29

end Sys2Proof.Machine
end

