-- ==== Sys2Proof/Machine/Operands.lean ====
section
/-! DEFINITION. Operand forms of a core's slots: address registers (R146, R147), tile accesses (R70), transposed delivery
(R72), and vectors of elements packed as R48 and R152 lay them out. -/

namespace Sys2Proof.Machine

/-- The value of address register r of core n: AR0 reads 0 (R146). -/
def readAR (s : State) (n r : Nat) : Word := if r = 0 then 0 else s.reg (coreReg n (Reg.COREn_ARr + 4 * r))

/-- Write address register r: writes to AR0 are ignored (R146). -/
def writeAR (s : State) (n r : Nat) (v : Word) : State :=
  if r = 0 then s else s.setReg (coreReg n (Reg.COREn_ARr + 4 * r)) v

/-- The form an address register's value names (R147, R70, R72); none where it breaks them. -/
def operandOf (w : Word) : Option Operand :=
  match bits w 31 30 with
  | 0 => if bits w 29 23 = 0 then some (.linear (bits w 22 0)) else none
  | 1 => some .vuQueue
  | 2 =>
    let tr := flag w 29
    let ew := bits w 28 27
    let len := bits w 8 4 + 1
    if bits w 3 0 = 0 ∧ ew ≠ 3 ∧ bits w 25 19 < 96 ∧ bits w 13 9 + len ≤ 32 ∧ (tr = false ∨ len = 32) then
      some (.tile tr (2 ^ ew) (flag w 26) (bits w 25 19) (bits w 18 14) (bits w 13 9) len)
    else none
  | _ => none

/-- The granules of a tile access, in access order (R70). -/
def tileGranules (col : Bool) (t index start len : Nat) : List Nat :=
  (List.range len).map fun i => if col then tileGranule t (start + i) index else tileGranule t index (start + i)

/-- Byte i of a transposed 32-granule delivery comes from this byte of the granules in order (R72). -/
def transposeByte (w i : Nat) : Nat :=
  let e := i / (32 * w)
  let g := i % (32 * w) / w
  64 * g + e * w + i % w

/-- The delivered byte that byte x of the granules in order becomes: `transposeByte` inverted. -/
def transposeInv (w x : Nat) : Nat := x % 64 / w * (32 * w) + x / 64 * w + x % w

/-- May an operand of this form be read as `len` bytes? A tile access covers 64 × length bytes (log entry 21). -/
def readFits (o : Operand) (len : Nat) : Bool :=
  match o with
  | .linear _ => true
  | .tile _ _ _ _ _ _ l => decide (len ≤ 64 * l)
  | .vuQueue => false

/-- May it be written? Transposed delivery exists on read ports only (R147). -/
def writeFits (o : Operand) (len : Nat) : Bool :=
  match o with
  | .linear _ => true
  | .tile tr _ _ _ _ _ l => !tr && decide (len ≤ 64 * l)
  | .vuQueue => false

/-- Read bytes i … i + len − 1 of an operand, of which only those with `need` matter: no other word is read (R36). -/
def readOperandNeed (s : State) (n : Nat) (o : Operand) (i len : Nat) (need : Nat → Bool) : SpmRd :=
  let inRange (b : Nat) : Bool := decide (i ≤ b) && decide (b < i + len) && need (b - i)
  match o with
  | .linear off =>
    let x := off + i
    let r := spmReadNeed (if len = 0 then 0 else (x + len - 1) / 8 - x / 8 + 1) s n (x / 8) true fun b => decide (off ≤ b) && inRange (b - off)
    { r with bytes := slice r.bytes (x % 8) len }
  | .tile tr w col t index start l =>
    let r := spmReadGranules s n (fun x => inRange (if tr then transposeInv w x else x)) (tileGranules col t index start l)
    let all := if tr then (List.range 2048).map fun j => (r.bytes[transposeByte w j]?).getD (0, true) else r.bytes
    { r with bytes := slice all i len }
  | .vuQueue => ⟨[], 0, s⟩

/-- Read `len` bytes of an operand from byte `i` of it. -/
def readOperand (s : State) (n : Nat) (o : Operand) (i len : Nat) : SpmRd := readOperandNeed s n o i len fun _ => true

/-- Write the granule-sized pieces of a tile destination in access order. -/
def writeGranules (s : State) (n : Nat) (bs : List PByte) : List Nat → State
  | [] => s
  | x :: t => if bs.isEmpty then s else writeGranules (spmWrite s n x (bs.take 64) .engine) n (bs.drop 64) t

/-- Write bytes to an operand. -/
def writeOperand (s : State) (n : Nat) (o : Operand) (bs : List PByte) : State :=
  match o with
  | .linear off => spmWrite s n off bs .engine
  | .tile _ _ col t index start l => writeGranules s n bs (tileGranules col t index start l)
  | .vuQueue => s

/-- A linear operand at a 64-byte-aligned offset: the form records take (R115, R152, R160). -/
def recordAddr (w : Word) : Option Nat :=
  match operandOf w with
  | some (.linear off) => if off % 64 = 0 then some off else none
  | _ => none

/-- The plain bytes of a marked list. -/
def plain (bs : List PByte) : List Byte := bs.map (·.1)

/-- Is any byte poisoned? -/
def anyPoison (bs : List PByte) : Bool := bs.any (·.2)

/-- Element `i` of packed elements `b` bits wide (R48): its code and whether a byte it lies in is poisoned. -/
def elemAt (b : Nat) (bs : List PByte) (i : Nat) : Nat × Bool :=
  let lo := b * i / 8
  let part := slice bs lo ((b * i + b - 1) / 8 - lo + 1)
  ((leNat (plain part) >>> (b * i % 8)) % 2 ^ b, anyPoison part)

/-- The elements of packed bytes. -/
def unpackElems (b count : Nat) (bs : List PByte) : List (Nat × Bool) := (List.range count).map (elemAt b bs)

/-- Pack element codes `b` bits wide, little-endian; a byte is poisoned when an element in it is. -/
def packElems (b : Nat) (es : List (Nat × Bool)) : List PByte :=
  let v := (es.zipIdx).foldl (fun a e => a + (e.1.1 % 2 ^ b) <<< (b * e.2)) 0
  let len := (b * es.length + 7) / 8
  (leBytes len v).zipIdx.map fun p =>
    (p.1, (slice es (8 * p.2 / b) ((8 * p.2 + 7) / b - 8 * p.2 / b + 1)).any (·.2))

end Sys2Proof.Machine
end

