-- ==== Sys2Proof/Machine/Memory.lean ====
section
/-! DEFINITION. The device-physical map and near memory (R7, R18, R180–R182, R319–R324, R331, R336–R338). -/

namespace Sys2Proof.Machine

/-- What Field f holds beside its registers. -/
def State.field (s : State) (f : Nat) : FieldState := s.fields[f]?.getD {}
def State.setField (s : State) (f : Nat) (x : FieldState) : State := { s with fields := s.fields.setIfInBounds f x }
def State.modField (s : State) (f : Nat) (g : FieldState → FieldState) : State := s.setField f (g (s.field f))

/-- Where a device-physical address leads (R7, R18): the set-up registers, a scratchpad offset, a Field's near memory or
weight store, host memory, or nothing. -/
inductive Place
  | regs (o : Nat)
  | spm (n x : Nat)
  | nm (f x : Nat)
  | ws (f x : Nat)
  | host (a : Nat)
  | none
  deriving DecidableEq, Repr

def placeOf (a : Nat) : Place :=
  if a < 0x1000000 then .regs a
  else if 0x4000000 ≤ a ∧ a < 0xC000000 then .spm ((a - 0x4000000) / 0x800000) ((a - 0x4000000) % 0x800000)
  else if 0x1000000000 ≤ a ∧ a < 0x2000000000 then .nm ((a - 0x1000000000) / 0x400000000) ((a - 0x1000000000) % 0x400000000)
  else if 0x10000000000 ≤ a ∧ a < 0x14000000000 then .ws ((a - 0x10000000000) / 0x1000000000) ((a - 0x10000000000) % 0x1000000000)
  else if 0x800000000000 ≤ a ∧ a < 0x1000000000000 then .host a
  else .none

/-- Device-physical address of an offset in Field f's near memory (R18). -/
def nmAddr (f x : Nat) : Nat := 0x1000000000 + f * 0x400000000 + x

/-- Device-physical address of an offset in core n's scratchpad (R7, R68). -/
def spmAddr (n x : Nat) : Nat := 0x4000000 + n * 0x800000 + x

/-- Is an offset of Field f's near memory addressable (R18, R181)? -/
def nmPopulated (s : State) (f x : Nat) : Bool := fieldPresent s f && decide (x < nmDataEnd s.part)

/-- Field f is capturing or resetting (R371). -/
def fieldInReset (s : State) (f : Nat) : Bool := flag (s.reg (fieldReg f Reg.FLDn_STATUS)) 31

/-- Field f is resetting: past its capture, to the end of which its memories serve others (R347, R351, R355). -/
def fieldResetting (s : State) (f : Nat) : Bool := fieldInReset s f && !flag (s.reg (fieldReg f Reg.FLDn_STATUS)) 29

/-- The device is resetting (R372). -/
def deviceInReset (s : State) : Bool := !flag (s.reg Reg.SRV_RESET_STATUS) 31

/-- The channel of a near-memory offset (R180). -/
def nmChannel (x : Nat) : Nat := (x >>> 8) % 4

/-- Is this offset in the row that a post-package repair of Field f names (R325)? -/
def nmRowHeld (s : State) (f x : Nat) : Bool :=
  match (s.field f).ppr with
  | some (c, b, r) =>
    let br := Config.nmBankRow (nmAddr f x)
    decide (nmChannel x = c) && decide (natBits br 21 18 = b) && decide (natBits br 17 0 = r)
  | none => false

/-- Do any of the bytes from offset x on lie in the channel that a post-package repair of Field f holds (R325, log entry 83)? -/
def nmChannelHeld (s : State) (f x len : Nat) : Bool :=
  match (s.field f).ppr with
  | some (c, _, _) => (List.range (min 4 ((x + len - 1) / 256 - x / 256 + 1))).any fun i => decide (nmChannel (x + 256 * i) = c)
  | none => false

/-- The domains that Field f's near memory needs are ON (R391, R393). -/
def nmOn (s : State) (f : Nat) : Bool := domOn s (48 + f) && domOn s (56 + f / 2)

/-- Accesses to bytes of Field f's near memory wait: its Field is resetting, a domain that it needs is not ON, or a channel
they need is under repair (R325, R351, R393). -/
def nmHeld (s : State) (f x len : Nat) : Bool :=
  fieldPresent s f && (fieldResetting s f || !nmOn s f || nmChannelHeld s f x len)

/-- Asynchronous accesses to these bytes of core n's scratchpad wait: its Field is resetting, its domain is not ON, or they meet a
partition that is being swept (R89, R351, R393). -/
def spmHeld (s : State) (n x len : Nat) : Bool :=
  corePresent s n && (!domOn s (3 * n + 2) || fieldResetting s (n / 4) || spmSwept s n x len)

/-- An asynchronous read of core n's scratchpad: a corrected word stalls the island for two cycles (R81). -/
def spmReadAsync (s : State) (n x len : Nat) : List PByte × State :=
  let r := spmRead s n x len
  (r.bytes, countStall r.st n 11 (2 * r.ce))

/-- An access treated as unpopulated is counted in the slot's Field, or in the requester's own for an absent Field (R336). -/
def nmDrop (s : State) (f rf : Nat) : State :=
  let g := if fieldPresent s f then f else rf
  (s.bump (fieldReg g Reg.NMn_DROP_CNT) 1).raise (fieldReg g Reg.NMn_ERR_STATUS) (bitMask 3)

/-- How a stored granule reads (R319, R320). -/
inductive GranRead
  | clean (d : BitVec 512)
  | corrected (d : BitVec 512)
  | poison
  | uncorrectable
  deriving DecidableEq, Repr

def readGran (g : NmGran) : GranRead :=
  if g.flip = 0 ∧ g.chk = 0 then .clean g.data
  else if g.flip = 0 ∧ g.chk = 0x9669 then .poison
  else match popCount g.flip + popCount g.chk with
    | 1 => .corrected g.data
    | 2 => if Config.eccOutcome (g.flip.toNat + g.chk.toNat <<< 512) % 2 = 0 then .uncorrectable else .poison
    | _ => match Config.eccOutcome (g.flip.toNat + g.chk.toNat <<< 512) % 4 with
      | 0 => .clean (BitVec.ofNat 512 (Config.eccData g.data.toNat (g.flip.toNat + g.chk.toNat <<< 512)))
      | 1 => .corrected (BitVec.ofNat 512 (Config.eccData g.data.toNat (g.flip.toNat + g.chk.toNat <<< 512)))
      | 2 => .poison
      | _ => .uncorrectable

/-- A record of NMn_CE_ADDR or NMn_UE_ADDR, and of the row registers (R342). -/
def nmAddrRec (scrub : Bool) (x : Nat) : Word := BitVec.ofNat 32 (1 <<< 31 + scrub.toNat <<< 30 + x / 64 % 2 ^ 28)
def nmRowRec (f x : Nat) : Word :=
  let br := Config.nmBankRow (nmAddr f x)
  BitVec.ofNat 32 (1 <<< 31 + ((x >>> 8) % 4) <<< 28 + natBits br 21 18 <<< 24 + natBits br 17 0)

/-- Count one corrected granule toward the threshold (R324). -/
def ceThreshold (s : State) (f : Nat) : State :=
  let c := (s.field f).ceCount + 1
  let thresh := bits (s.reg (fieldReg f Reg.NMn_CE_THRESH)) 15 0
  if thresh ≠ 0 ∧ thresh ≤ c then
    (s.modField f fun x => { x with ceCount := 0 }).raise (fieldReg f Reg.NMn_ERR_STATUS) (bitMask 4)
  else s.modField f fun x => { x with ceCount := c }

/-- Record a corrected granule (R320, R324). -/
def recordCe (s : State) (f x : Nat) (scrub : Bool) : State :=
  let s := s.bump (fieldReg f Reg.NMn_CE_CNT) 1
  let s := s.setReg (fieldReg f Reg.NMn_CE_ADDR) (nmAddrRec scrub x)
  let s := s.setReg (fieldReg f Reg.NMn_CE_ROW) (nmRowRec f x)
  ceThreshold (s.raise (fieldReg f Reg.NMn_ERR_STATUS) (bitMask 0)) f

/-- Record an uncorrectable granule (R320, R322). -/
def recordUe (s : State) (f x : Nat) (scrub : Bool) : State :=
  let s := s.bump (fieldReg f Reg.NMn_UE_CNT) 1
  let s := s.setReg (fieldReg f Reg.NMn_UE_ADDR) (nmAddrRec scrub x)
  let s := s.setReg (fieldReg f Reg.NMn_UE_ROW) (nmRowRec f x)
  s.raise (fieldReg f Reg.NMn_ERR_STATUS) (if scrub then bitMask 1 ||| bitMask 5 else bitMask 1)

/-- The stored granule at a device-physical address. -/
def State.gran (s : State) (a : Nat) : NmGran := storeGet {} s.nm (a / 64)

/-- Store a granule. -/
def State.setGran (s : State) (a : Nat) (g : NmGran) : State :=
  { s with nm := storeSet {} s.nm (a / 64) g, nmWb := s.nmWb.filter (· ≠ a / 64) }

/-- Bytes of a granule, each marked. -/
def granBytes (d : BitVec 512) (poison : Bool) : List PByte := (leBytes 64 d.toNat).map fun b => (b, poison)

/-- Read the granule that holds offset x of Field f's near memory, for a requester of Field rf (R320, R336). -/
def nmReadGran (s : State) (f x rf : Nat) : List PByte × State :=
  if !nmPopulated s f x then (granBytes 0 true, nmDrop s f rf)
  else
    let a := nmAddr f x
    let s := s.bump (fieldReg f Reg.NMn_RD_CNT) 1
    match readGran (s.gran a) with
    | .clean d => (granBytes d false, s)
    | .corrected d =>
      let s := recordCe s f x false
      (granBytes d false, { s with nmWb := if a / 64 ∈ s.nmWb then s.nmWb else s.nmWb ++ [a / 64] })
    | .poison => (granBytes 0 true, (s.bump (fieldReg f Reg.NMn_POISON_READ_CNT) 1).raise (fieldReg f Reg.NMn_ERR_STATUS) (bitMask 2))
    | .uncorrectable => (granBytes 0 true, recordUe s f x false)

/-- Apply an armed near-memory injector to the granule just written (R337, R338). -/
def nmInject (s : State) (f x : Nat) : State :=
  let ctl := s.reg (fieldReg f Reg.NMn_INJ_CTRL)
  if flag ctl 31 && (!flag ctl 30 || decide (bits (s.reg (fieldReg f Reg.NMn_INJ_ADDR)) 27 0 = x / 64)) then
    let mask := (s.reg (fieldReg f Reg.NMn_INJ_DATA_LO)).toNat + (s.reg (fieldReg f Reg.NMn_INJ_DATA_HI)).toNat <<< 32
    let g := s.gran (nmAddr f x)
    let s := s.setGran (nmAddr f x) { g with flip := g.flip ^^^ BitVec.ofNat 512 (mask <<< (64 * bits ctl 29 27)),
                                             chk := g.chk ^^^ BitVec.ofNat 16 (bits ctl 15 0) }
    s.setReg (fieldReg f Reg.NMn_INJ_CTRL) (setFlag ctl 31 false)
  else s

/-- A stored granule for given data, poisoned or not (R319). -/
def markGran (d : BitVec 512) (poison : Bool) : NmGran := ⟨d, 0, if poison then 0x9669 else 0⟩

/-- Write bytes within one granule of Field f's near memory (R181, R182, R321, R331). -/
def nmWriteGran (s : State) (f x rf : Nat) (bs : List PByte) : State :=
  if !nmPopulated s f x then nmDrop s f rf
  else
    let a := nmAddr f x
    let s := s.bump (fieldReg f Reg.NMn_WR_CNT) 1
    if x % 64 = 0 ∧ bs.length = 64 then
      nmInject (s.setGran a (markGran (BitVec.ofNat 512 (leNat (plain bs))) (anyPoison bs))) f x
    else
      let s := (s.bump (fieldReg f Reg.NMn_RMW_CNT) 1).bump (fieldReg f Reg.NMn_RD_CNT) 1
      let merge (d : BitVec 512) : BitVec 512 :=
        let old := leBytes 64 d.toNat
        BitVec.ofNat 512 (leNat (old.take (x % 64) ++ plain bs ++ old.drop (x % 64 + bs.length)))
      match readGran (s.gran a) with
      | .clean d => nmInject (s.setGran a (markGran (merge d) (anyPoison bs))) f x
      | .corrected d => nmInject ((recordCe s f x false).setGran a (markGran (merge d) (anyPoison bs))) f x
      | .poison =>
        let s := (s.bump (fieldReg f Reg.NMn_POISON_READ_CNT) 1).raise (fieldReg f Reg.NMn_ERR_STATUS) (bitMask 2)
        nmInject (s.setGran a (markGran (s.gran a).data true)) f x
      | .uncorrectable => nmInject ((recordUe s f x false).setGran a (markGran (s.gran a).data true)) f x

/-- Read bytes of near memory granule by granule; `fuel` granules at most. -/
def nmReadLoop : Nat → State → Nat → Nat → Nat → Nat → List PByte × State
  | 0, s, _, _, _, _ => ([], s)
  | k + 1, s, f, x, len, rf =>
    if len = 0 then ([], s) else
    let m := min len (64 - x % 64)
    let r := nmReadGran s f (x - x % 64) rf
    let t := nmReadLoop k r.2 f (x + m) (len - m) rf
    (slice r.1 (x % 64) m ++ t.1, t.2)

/-- Write bytes of near memory granule by granule. -/
def nmWriteLoop : Nat → State → Nat → Nat → List PByte → Nat → State
  | 0, s, _, _, _, _ => s
  | k + 1, s, f, x, bs, rf =>
    let m := min bs.length (64 - x % 64)
    if m = 0 then s else nmWriteLoop k (nmWriteGran s f x rf (bs.take m)) f (x + m) (bs.drop m) rf

/-- Read bytes of near memory. -/
def nmRead (s : State) (f x len rf : Nat) : List PByte × State := nmReadLoop (len / 64 + 2) s f x len rf

/-- Write bytes of near memory. -/
def nmWrite (s : State) (f x : Nat) (bs : List PByte) (rf : Nat) : State := nmWriteLoop (bs.length / 64 + 2) s f x bs rf

/-- A corrected granule is written back, as it was delivered, in an idle slot (R320), unless a write came first. -/
def nmWriteBack (s : State) (g : Nat) : State :=
  if g ∈ s.nmWb then
    match readGran (s.gran (64 * g)) with
    | .corrected d => s.setGran (64 * g) (markGran d false)
    | _ => s.setGran (64 * g) (s.gran (64 * g))
  else s

/-! ### The weight store as other requesters meet it (R192, R209, R231, R336) -/

/-- An access that the weight store of slot f refuses a requester of Field rf (R192, R209, R231, R336). -/
def wsDrop (s : State) (f rf : Nat) : State :=
  let g := if fieldPresent s f then f else rf
  if hasWeightStore s.part then
    (s.bump (fieldReg g Reg.WSn_DROP_CNT) 1).raise (fieldReg g Reg.WSn_ERR_STATUS) (bitMask 2)
  else s

/-- May weight-store bytes at this slot offset be read by any requester (R209)? -/
def wsReadable (s : State) (f x len : Nat) : Bool :=
  hasWeightStore s.part && fieldPresent s f && decide (0x4000000 ≤ x) && decide (x + len ≤ 0xEE6800000)

/-- Count bytes toward a MiB counter (R231). -/
def countMib (s : State) (o f part k : Nat) : Nat × State := ((part + k) % 1048576, s.bump (fieldReg f o) ((part + k) / 1048576))

/-- Bytes of a stack as stored. -/
def wsBytes (s : State) (f x len : Nat) : List Byte :=
  let first := x / 2048
  let all := (List.range (ceilDiv (x % 2048 + len) 2048)).flatMap fun k => leBytes 2048 (storeGet 0 (s.field f).pages (first + k)).toNat
  slice all (x % 2048) len

/-- A read of stack f that a requester of Field rf makes within one command. Its pages are read without error (DESIGN CHOICE, log
entry 130): a command that reads them has no page outcome of its own. -/
def wsReadNow (s : State) (f x len rf : Nat) : List PByte × State :=
  if wsReadable s f x len then
    let c := countMib s Reg.WSn_RD_CNT f (s.field f).rdPart len
    ((wsBytes s f x len).map fun b => (b, false), c.2.modField f fun y => { y with rdPart := c.1 })
  else (List.replicate len (0, true), wsDrop s f rf)

end Sys2Proof.Machine
end

