-- ==== Sys2Proof/Machine/Partitions.lean ====
section
/-! DEFINITION. Partition writes and sweeps (R78, R79, R88, R89). -/

namespace Sys2Proof.Machine

/-- A write to SPMn_PARTk that R79 refuses. -/
def partRefused (s : State) (n k : Nat) (v : Word) : Bool :=
  let lo := bits v 14 8
  let hi := lo + bits v 6 0
  seqRunning s n || decide (96 < hi) || (flag v 31 && decide (bits v 6 0 = 0)) || (flag v 30 && flag v 29)
    || (flag v 31 && (List.range 8).any fun j =>
      let w := partWord s n j
      decide (j ≠ k) && flag w 31 && decide (lo < bits w 14 8 + bits w 6 0) && decide (bits w 14 8 < hi))

/-- PARTITION_WRITE: every tile whose check mode changes is swept. -/
def partitionWrite (s : State) (n k : Nat) (v : Word) : State :=
  if !corePresent s n ∨ 8 ≤ k then s
  else if partRefused s n k v then s.raise (coreReg n Reg.SPMn_ERR_STATUS) (bitMask 5)
  else
    let t := s.setReg (coreReg n (Reg.SPMn_PARTk + 4 * k)) (v &&& 0xE0007F7F)
    let moved (i : Nat) : Bool := decide (tileMode s n i ≠ tileMode t n i)
    if (List.range 96).any moved then
      (spmClearTiles t n moved).modCore n fun c => { c with sweeping := setFlag c.sweeping k true }
    else t

/-- SWEEP: a write to SPMn_SWEEP. The sweep takes effect from its start. -/
def sweepStart (s : State) (n : Nat) (v : Word) : State :=
  if !corePresent s n then s
  else
    let parts := (List.range 8).filter fun k => flag v k && flag (partWord s n k) 31 && !flag (s.core n).sweeping k
    let covered (t : Nat) : Bool := parts.any fun k => let w := partWord s n k; decide (bits w 14 8 ≤ t) && decide (t < bits w 14 8 + bits w 6 0)
    (spmClearTiles s n covered).modCore n fun c => { c with sweeping := parts.foldl (fun m k => setFlag m k true) c.sweeping }

/-- SWEEP_DONE: the sweeps of core n end. -/
def sweepDone (s : State) (n : Nat) : State :=
  if (s.core n).sweeping = 0 then s
  else (s.modCore n fun c => { c with sweeping := 0 }).raise (coreReg n Reg.SPMn_ERR_STATUS) (bitMask 6)

end Sys2Proof.Machine
end

