-- ==== Sys2Proof/Machine/Harrow.lean ====
section
/-! DEFINITION. Harrow block coding (R94–R112): coded regions, headers, prefix tables, slots and their in-use counts, lanes,
decode streams, the encoder. -/

namespace Sys2Proof.Machine

/-! ### Regions (R94, R95) -/

/-- Blocks of a stream of n bytes striped over k lanes. -/
def blockCount (n k : Nat) : Nat := ceilDiv n (4096 * k) * k

/-- Raw length of block i of a stream (R95). -/
def blockLen (n k i : Nat) : Nat := if (i / k + 1) * (4096 * k) ≤ n then 4096 else n % (4096 * k) / k

/-- Stream byte of byte `off` of block i (R95, inverted). -/
def streamByte (k i off : Nat) : Nat := (i / k * (128 * k) + off / 32 * k + i % k) * 32 + off % 32

/-! ### Headers (R96) -/

structure HdrFields where
  raw : Bool
  poison : Bool
  stripe : Nat
  slot : Nat
  gen : Nat
  len : Nat
  rlen : Nat
  index : Nat
  deriving DecidableEq, Repr

def parseHdr (b : List PByte) : HdrFields :=
  let w0 := leField (plain b) 0 4
  let w1 := leField (plain b) 4 4
  ⟨natBit w0 31, natBit w0 30, natBits w0 29 28, natBits w0 27 24, natBits w0 23 20, natBits w0 12 0, natBits w1 12 0,
    leField (plain b) 8 4⟩

def buildHdr (h : HdrFields) : List Byte :=
  leBytes 4 (h.raw.toNat <<< 31 + h.poison.toNat <<< 30 + (h.stripe % 4) <<< 28 + (h.slot % 16) <<< 24 + (h.gen % 16) <<< 20 + h.len % 8192)
    ++ leBytes 4 (h.rlen % 8192) ++ leBytes 4 h.index ++ leBytes 4 0

/-! ### Prefix tables (R97–R99) -/

/-- A table image as a table; none where the image is invalid (R99). -/
def parseTable (b : List Byte) : Option HTable :=
  let nsym := leField b 2 2
  let cnt : List Nat := (List.range 12).map fun l => leField b (4 + 2 * l) 2
  let syms : List Nat := (slice b 32 nsym).map (·.toNat)
  let kraft : Nat := (cnt.zipIdx.map fun c => c.1 * 2 ^ (11 - c.2)).sum
  if leField b 0 1 = 1 ∧ 1 ≤ nsym ∧ nsym ≤ 256 ∧ cnt.sum = nsym ∧ kraft ≤ 4096 ∧ syms.Nodup then some ⟨cnt, syms⟩ else none

/-- (first code, first symbol index, count) of each length 1 to 12, in order (R97). -/
def codeRows : List Nat → Nat → Nat → Nat → List (Nat × Nat × Nat)
  | [], _, _, _ => []
  | c :: t, code, prev, idx => let f := (code + prev) <<< 1; (f, idx, c) :: codeRows t f c (idx + c)

def tableRows (t : HTable) : List (Nat × Nat × Nat) := codeRows t.cnt 0 0 0

/-- Bit i of a payload (R98): byte 0 first, bit 0 of each byte first. -/
def payloadBit (p : List PByte) (i : Nat) : Option (Bool × Bool) := p[i / 8]?.map fun b => (b.1.getLsbD (i % 8), b.2)

/-- Why a symbol could not be decoded (R103). -/
inductive DecodeFail
  | bad
  | poison
  deriving DecidableEq, Repr

/-- The end of the codes, as a code of the longest length: every longer continuation of an unused prefix lies at or above it. -/
def codeStop (rows : List (Nat × Nat × Nat)) : Nat := match rows.getLast? with | some (f, _, c) => f + c | none => 0

/-- Decode one symbol from bit i on: the symbol index and the next bit. A prefix that no code continues fails at once (R103):
`stop` is the table's `codeStop`. -/
def decodeSym (stop : Nat) : List (Nat × Nat × Nat) → List PByte → Nat → Nat → Except DecodeFail (Nat × Nat)
  | [], _, _, _ => .error .bad
  | (f, idx, c) :: t, p, i, code =>
    if stop ≤ code * 2 ^ (t.length + 1) then .error .bad else
    match payloadBit p i with
    | none => .error .bad
    | some (_, true) => .error .poison
    | some (b, false) =>
      let code := 2 * code + b.toNat
      if f ≤ code ∧ code < f + c then .ok (idx + (code - f), i + 1) else decodeSym stop t p (i + 1) code

/-- Decode up to `n` symbols: the bytes decoded, and how decoding failed when it did. -/
def decodeSyms (rows : List (Nat × Nat × Nat)) (syms : List Nat) (p : List PByte) : Nat → Nat → List Byte × Option DecodeFail
  | 0, _ => ([], none)
  | n + 1, i =>
    match decodeSym (codeStop rows) rows p i 0 with
    | .error e => ([], some e)
    | .ok (k, j) =>
      let r := decodeSyms rows syms p n j
      (BitVec.ofNat 8 ((syms[k]?).getD 0) :: r.1, r.2)

/-- The code of a byte value: its value and length, when the table has one (R97). -/
def encodeSym (t : HTable) (b : Byte) : Option (Nat × Nat) :=
  match t.syms.idxOf? b.toNat with
  | none => none
  | some k =>
    ((tableRows t).zipIdx.find? fun r => decide (r.1.2.1 ≤ k) && decide (k < r.1.2.1 + r.1.2.2)).map fun r =>
      (r.1.1 + (k - r.1.2.1), r.2 + 1)

/-- The bits of a code, most significant first. -/
def codeBits (v l : Nat) : List Bool := (List.range l).map fun i => v.testBit (l - 1 - i)

/-- Pack bits into bytes from bit 0 upward, padding with zeros (R98). -/
def packBits : Nat → List Bool → List Byte
  | 0, _ => []
  | f + 1, bs =>
    if bs.isEmpty then []
    else BitVec.ofNat 8 (((bs.take 8).zipIdx.map fun p => p.1.toNat * 2 ^ p.2).sum) :: packBits f (bs.drop 8)

/-- The coded payload of raw bytes; none where a value has no code. -/
def encodeBytes (t : HTable) (bs : List Byte) : Option (List Byte) :=
  let codes := bs.map (encodeSym t)
  if codes.all Option.isSome then
    let bits := codes.flatMap fun c => match c with | some (v, l) => codeBits v l | none => []
    some (packBits bits.length bits)
  else none

/-! ### Slots (R100, R101) -/

def hrw (s : State) (n : Nat) : HarrowState := (s.core n).hrw
def modHrw (s : State) (n : Nat) (f : HarrowState → HarrowState) : State := s.modCore n fun c => { c with hrw := f c.hrw }
def hrwFlag (s : State) (n : Nat) (m : Word) : State := s.raise (coreReg n Reg.HRWn_ERR_STATUS) m

def hslot (h : HarrowState) (i : Nat) : HSlot := h.slots[i]?.getD {}

/-- Does a block's header name slot i with its current generation (R101)? Raw blocks carry both fields too (R110). -/
def namesSlot (h : HarrowState) (i : Nat) (hd : HdrFields) : Bool := decide (hd.slot = i) && decide (hd.gen = (hslot h i).gen)

/-- The job that holds the encoder (R111): no channel block starts while an ENCODE waits for it. -/
def encJob (h : HarrowState) : Option HEnc :=
  match h.enc with
  | some e => some e
  | none => if h.encWait = .ready then none else h.chanEncs.head?

/-- Does the block that a job builds name slot i with its current generation? Under RAW_ONLY it names slot 0, generation 0. -/
def jobNames (h : HarrowState) (i : Nat) (e : HEnc) : Bool :=
  match e.slot with
  | some x => decide (x = i)
  | none => decide (i = 0) && decide ((hslot h 0).gen = 0)

/-- In-use count of slot i (R101): blocks queued or being decoded in a lane, the block being encoded, and finished blocks whose
header waits to be written. -/
def slotInUse (h : HarrowState) (i : Nat) : Nat :=
  let lane (l : HLane) : Nat := (l.queue.countP fun b => namesSlot h i (parseHdr b.hdr))
    + (match l.cur with | some (b, _) => (namesSlot h i (parseHdr b.hdr)).toNat | none => 0)
  (h.lanes.toList.map lane).sum + (match encJob h with | some e => (jobNames h i e).toNat | none => 0)
    + h.encOut.countP fun b => namesSlot h i (parseHdr (b.hdr.map fun x => (x, false)))

/-- HRWn_TBL_RESULT (R112). -/
def tblResult (slot code : Nat) : Word := BitVec.ofNat 32 (1 <<< 31 + slot <<< 8 + code)

/-- Request a table load (R100). -/
def tblLoad (s : State) (n slot gen addr : Nat) (forester : Bool) : State :=
  let res (s : State) (c : Nat) : State := if forester then s.setReg (coreReg n Reg.HRWn_TBL_RESULT) (tblResult slot c) else s
  if (hrw s n).load.isSome || decide (0 < slotInUse (hrw s n) slot) then res (hrwFlag s n (bitMask 3)) 0x0A
  else
    let s := modHrw s n fun h => { h with load := some ⟨slot, gen, addr, forester⟩ }
    if forester then s.setReg (coreReg n Reg.HRWn_TBL_RESULT) (BitVec.ofNat 32 (1 <<< 30 + slot <<< 8)) else s

/-- Invalidate a slot (R100): refused with TABLE_BUSY while it is in use or a load runs. -/
def tblInvalidate (s : State) (n slot : Nat) : State :=
  if (hrw s n).load.isSome || decide (0 < slotInUse (hrw s n) slot) then
    (hrwFlag s n (bitMask 3)).setReg (coreReg n Reg.HRWn_TBL_RESULT) (tblResult slot 0x0A)
  else
    (modHrw s n fun h => { h with slots := h.slots.setIfInBounds slot { hslot h slot with valid := false } }).setReg
      (coreReg n Reg.HRWn_TBL_RESULT) (tblResult slot 0)

/-- A table load ends (R99, R100). -/
def tblLoadDone (s : State) (n : Nat) : State :=
  match (hrw s n).load with
  | none => s
  | some l =>
    let r := spmRead s n l.addr 320
    let s := countStall r.st n 11 (2 * r.ce)
    let code := if anyPoison r.bytes then 0x02 else if (parseTable (plain r.bytes)).isNone then 0x0B else 0x00
    let s := modHrw s n fun h => { h with
      load := none,
      slots := h.slots.setIfInBounds l.slot (match code, parseTable (plain r.bytes) with
        | 0, some t => ⟨true, l.gen, t⟩
        | _, _ => { hslot h l.slot with valid := false }) }
    let s := if code = 0 then s else hrwFlag s n (bitMask 4)
    if l.forester then s.setReg (coreReg n Reg.HRWn_TBL_RESULT) (tblResult l.slot code) else s

/-! ### Lanes (R102–R105) -/

def hlane (h : HarrowState) (l : Nat) : HLane := h.lanes[l]?.getD {}
def setLane (s : State) (n l : Nat) (x : HLane) : State := modHrw s n fun h => { h with lanes := h.lanes.setIfInBounds l x }

/-- The stream that owns a block. -/
def ownerStream (h : HarrowState) (owner : Nat) : Option HStream :=
  h.streams.find? fun x => match x.chan with | none => decide (x.num = owner) | some c => decide (4 + c = owner)

/-- Record a failed block (R102, R103, R112). -/
def hrwFail (s : State) (n l kind : Nat) (m : Word) (b : HBlock) : State :=
  let s := hrwFlag s n m
  let s := s.bump (coreReg n (if kind = 2 then Reg.HRWn_GEN_MISMATCH_CNT else Reg.HRWn_DEC_ERR_CNT)) 1
  let chan := decide (4 ≤ b.owner)
  s.setReg (coreReg n Reg.HRWn_ERR_INFO)
    (BitVec.ofNat 32 (1 <<< 31 + kind <<< 28 + (if chan then 0 else b.owner % 4) <<< 26 + l <<< 23 + chan.toNat <<< 22 + b.blk % 2 ^ 22))

/-- Poison every 32-byte row from the one that holds byte i on (R103). -/
def poisonFrom (i len : Nat) (bs : List Byte) : List PByte :=
  (List.range len).map fun j => if j < i / 32 * 32 then ((bs[j]?).getD 0, false) else (0, true)

/-- What a lane makes of a block (R102, R103): the bytes, and the failure kind with its flag. -/
def blockOutcome (h : HarrowState) (st : HStream) (b : HBlock) : List PByte × Option (Nat × Word) :=
  let f := parseHdr b.hdr
  let i := b.blk - st.firstBlk
  let len := blockLen st.n st.k i
  let all : List PByte := List.replicate len (0, true)
  let slot := hslot h f.slot
  if anyPoison b.hdr || f.poison then (all, some (3, bitMask 2))
  else if 2 ^ f.stripe ≠ st.k ∨ f.rlen ≠ len ∨ f.index ≠ b.blk then (all, some (5, bitMask 0))
  else if f.raw ∧ f.len ≠ f.rlen then (all, some (5, bitMask 0))
  else if f.raw then
    match b.payload.findIdx? (·.2) with
    | some j => (poisonFrom j len (plain b.payload), some (4, bitMask 2))
    | none => (b.payload.take len, none)
  else if !slot.valid ∨ f.gen ≠ slot.gen then (all, some (2, bitMask 1))
  else if f.len = 0 ∨ 3584 < f.len then (all, some (1, bitMask 0))
  else
    let r := decodeSyms (tableRows slot.table) slot.table.syms (b.payload.take f.len) len 0
    match r.2 with
    | none => (r.1.map fun x => (x, false), none)
    | some .bad => (poisonFrom r.1.length len r.1, some (1, bitMask 0))
    | some .poison => (poisonFrom r.1.length len r.1, some (4, bitMask 2))

/-- Change a stream. -/
def modStream (s : State) (n : Nat) (st : HStream) (f : HStream → HStream) : State := modHrw s n fun h =>
  { h with streams := mapIf (fun x => decide (x.num = st.num) && decide (x.chan = st.chan)) f h.streams }

/-- The open decode stream of a number. -/
def findStream (c : CoreState) (num : Nat) : Option HStream := c.hrw.streams.find? fun h => decide (h.num = num) && h.chan.isNone

/-- Rows of a stream (R106). -/
def streamRows (h : HStream) : Nat := h.n / (32 * h.k)

/-- Bytes [32k·row, 32k·(row + rows)) of a stream, when its lanes have supplied them all. -/
def streamBytes (h : HStream) (row rows : Nat) : Option (List PByte) :=
  let w := 32 * h.k
  let got := (List.range (w * rows)).map fun i => h.buf.find? fun e => decide (e.1 = w * row + i)
  if got.all Option.isSome then some (got.filterMap fun e => e.map (·.2)) else none

/-- The lane's block has delivered its last byte: it is counted, and the lane is free (R101, R112). -/
def laneFree (s : State) (n l : Nat) : State :=
  match (hlane (hrw s n) l).cur with
  | none => s
  | some (b, _) =>
    let s := setLane s n l { hlane (hrw s n) l with cur := none }
    let f := parseHdr b.hdr
    let s := s.bump (coreReg n Reg.HRWn_DEC_BLK_CNT) 1
    let s := if f.raw then s.bump (coreReg n Reg.HRWn_DEC_RAW_BLK_CNT) 1 else s
    s.bump (coreReg n Reg.HRWn_DEC_PAYLOAD_CNT) (ceilDiv f.len 64)

/-- Close a decode stream after its last row (R106): blocks that its lanes still hold have delivered their last byte. -/
def closeStream (s : State) (n num : Nat) : State :=
  let s := (List.range 8).foldl (fun s l => match (hlane (hrw s n) l).cur with
    | some (b, _) => if b.owner = num then laneFree s n l else s
    | none => s) s
  modHrw s n fun h => { h with streams := h.streams.filter fun x => !(decide (x.num = num) && x.chan.isNone) }

/-- Row `row` and those before it have been written or consumed. -/
def pastRow (s : State) (n : Nat) (st : HStream) (row : Nat) : State :=
  modStream s n st fun x => { x with row := row + 1, buf := storeErase (fun b => decide (b < 32 * x.k * (row + 1))) x.buf }

/-- Is the next row of a scratchpad stream due at program cycle c or before (R106)? Outside RUNNING no bundle counts program
cycles, and every row is due (log entry 114). -/
def rowDue (h : HStream) (c : Option Nat) : Bool :=
  match c with
  | some c => decide (h.issued + 8 + h.row ≤ c)
  | none => true

/-- Write rows of scratchpad stream `num` in order while they are due and supplied; `fuel` rows at most. -/
def rowsOut : Nat → State → Nat → Nat → Option Nat → State
  | 0, s, _, _, _ => s
  | f + 1, s, n, num, c =>
    match findStream (s.core n) num with
    | none => s
    | some h =>
      match h.dest, streamBytes h h.row 1 with
      | .spm off, some bs =>
        if h.row < streamRows h ∧ rowDue h c then
          let s := pastRow (spmWrite s n (off + 32 * h.k * h.row) bs .engine) n h h.row
          if h.row + 1 = streamRows h then closeStream s n num else rowsOut f s n num c
        else s
      | _, _ => s

/-- Write the due rows of every scratchpad stream (R106). -/
def writeRows (s : State) (n : Nat) (c : Option Nat) : State := (List.range 4).foldl (fun s num =>
  match findStream (s.core n) num with
  | some h => rowsOut (streamRows h) s n num c
  | none => s) s

/-- A row of a scratchpad stream is due at program cycle c and not supplied (R107). -/
def rowLate (s : State) (n c : Nat) : Bool := (hrw s n).streams.any fun h => match h.dest with
  | .spm _ => h.chan.isNone && rowDue h (some c) && decide (h.row < streamRows h)
  | .feed .. => false

/-- LANE_BLOCK_START: lane l starts the oldest block of its queue (R100, R102, R103). Nothing happens while the lane holds
a block, its queue is empty, the payload is still arriving, or the slot named is being loaded. What the lane decodes is seen
outside Harrow only row by row, as the rows fall due (R105, R106). -/
def laneStart (s : State) (n l : Nat) : State :=
  let h := hrw s n
  let la := hlane h l
  match la.cur, la.queue with
  | none, b :: rest =>
    match ownerStream h b.owner with
    | none => s
    | some st =>
      let f := parseHdr b.hdr
      let loading := match h.load with | some x => decide (x.slot = f.slot) && !anyPoison b.hdr | none => false
      if loading || !b.ready then s
      else
        let o := blockOutcome h st b
        let s := setLane s n l { queue := rest, cur := some (b, o.1) }
        let s := match o.2 with
          | some (k, m) => hrwFail s n l k m b
          | none => s
        if st.chan.isSome then s
        else
          let s := modStream s n st fun x => { x with
            buf := o.1.zipIdx.foldl (fun m p => storeSet (0, false) m (streamByte x.k (b.blk - x.firstBlk) p.2) p.1) x.buf }
          if (s.core n).seq = .running then s else writeRows s n none
  | _, _ => s

/-- Write a block's bytes into the scratchpad, one 32-byte row at a time, at its stream bytes (R95, R108). -/
def deliverRows (s : State) (n off k i : Nat) (bs : List PByte) : State :=
  (List.range (bs.length / 32)).foldl (fun s r => spmWrite s n (off + streamByte k i (32 * r)) (slice bs (32 * r) 32) .forester) s

/-- Does a row of a block lie in a partition that is being swept? A channel transfer's write of it waits (R89). -/
def rowsSwept (s : State) (n off k i len : Nat) : Bool :=
  (List.range (len / 32)).any fun r => spmSwept s n (off + streamByte k i (32 * r)) 32

/-- LANE_BLOCK_DONE: the lane has delivered its block's last byte and is free (R101, R104, R105). A lane is at most its output
buffer of 256 bytes, eight rows, ahead of the rows written or consumed; a channel transfer's block is written as it comes, and
its stream closes with its last block (R108). -/
def laneDone (s : State) (n l : Nat) : State :=
  let h := hrw s n
  match (hlane h l).cur with
  | none => s
  | some (b, bytes) =>
    match ownerStream h b.owner with
    | none => laneFree s n l
    | some st =>
      let i := b.blk - st.firstBlk
      let upd (s : State) : State := modStream s n st fun x => { x with done := x.done + 1 }
      match st.chan, st.dest with
      | some _, .spm off =>
        if rowsSwept s n off st.k i bytes.length then s else
        let s := upd (deliverRows (laneFree s n l) n off st.k i bytes)
        modHrw s n fun h => { h with streams := h.streams.filter fun x => !(decide (x.chan = st.chan) && decide (blockCount x.n x.k ≤ x.done)) }
      | _, _ =>
        if i / st.k * 128 + bytes.length / 32 ≤ st.row + 8 then upd (laneFree s n l) else s

/-! ### Encoder (R109–R111) -/

/-- Read source bytes from stream byte i of an encoder job on: 128 to a program cycle (R109). -/
def encFetch (s : State) (n : Nat) (e : HEnc) (i len : Nat) : List PByte × State :=
  let q := spmRead s n (e.src + i) len
  (q.bytes, countStall q.st n 11 (2 * q.ce))

/-- Stream bytes of an ENCODE that have been read. -/
def encHave (e : HEnc) : Nat := e.done / e.k * (4096 * e.k) + e.raw.length

/-- The ENCODE reads its source through program cycle c: 128 bytes a cycle from the cycle after its issue (R109); all of it
outside RUNNING (log entry 114). -/
def encRead (s : State) (n : Nat) (c : Option Nat) : State :=
  match (hrw s n).enc with
  | none => s
  | some e =>
    let upto := match c with
      | some c => min e.n (128 * (c - e.issued))
      | none => e.n
    if upto ≤ encHave e then s
    else
      let r := encFetch s n e (encHave e) (upto - encHave e)
      modHrw r.2 n fun h => { h with enc := some { e with raw := e.raw ++ r.1 } }

/-- The raw bytes of the block an ENCODE builds next, once they have all been read (R95). -/
def encBlockRaw (e : HEnc) : Option (List PByte) :=
  let len := blockLen e.n e.k e.done
  if len = 0 then some []
  else if (len / 32 - 1) * (32 * e.k) + 32 * (e.done % e.k) + 32 ≤ e.raw.length then
    some ((List.range (len / 32)).flatMap fun r => slice e.raw (32 * (r * e.k + e.done % e.k)) 32)
  else none

/-- The raw bytes of a channel's next block, read as the encoder takes it (R111). -/
def encChanRaw (s : State) (n : Nat) (e : HEnc) : List PByte × State :=
  (List.range (blockLen e.n e.k e.done / 32)).foldl (fun (acc : List PByte × State) r =>
    let q := encFetch acc.2 n e (streamByte e.k e.done (32 * r)) 32
    (acc.1 ++ q.1, q.2)) ([], s)

/-- The header and payload the encoder writes for raw bytes (R110). -/
def encodeBlock (h : HarrowState) (e : HEnc) (i : Nat) (bs : List PByte) : List Byte × List Byte × Bool :=
  let slot := match e.slot with | some x => hslot h x | none => {}
  let hd (raw poison : Bool) (len : Nat) : HdrFields :=
    ⟨raw, poison, Nat.log2 e.k, e.slot.getD 0, if e.slot.isSome then slot.gen else 0, len, bs.length, e.firstBlk + i⟩
  if anyPoison bs then (buildHdr (hd true true bs.length), plain bs, true)
  else if e.slot.isNone then (buildHdr (hd true false bs.length), plain bs, true)
  else match encodeBytes slot.table (plain bs) with
    | none => (buildHdr (hd true false bs.length), plain bs, true)
    | some p =>
      if 3584 < p.length then (buildHdr (hd true false bs.length), plain bs, true)
      else (buildHdr (hd false false p.length), p, false)

/-- Build the next block of a job from its raw bytes, and count it (R110). -/
def encBuild (s : State) (n : Nat) (e : HEnc) (bs : List PByte) : EncOut × State :=
  let b := encodeBlock (hrw s n) e e.done bs
  let s := if anyPoison bs then hrwFlag s n (bitMask 2) else s
  let s := s.bump (coreReg n Reg.HRWn_ENC_BLK_CNT) 1
  (⟨b.1, b.2.1, e.firstBlk + e.done, e.k⟩, if b.2.2 then s.bump (coreReg n Reg.HRWn_ENC_RAW_BLK_CNT) 1 else s)

/-- A job's next state; none after its last block. -/
def encNext (e : HEnc) : Option HEnc :=
  let last := decide (blockCount e.n e.k ≤ e.done + 1)
  if last then none
  else some { e with done := e.done + 1, raw := if (e.done + 1) % e.k = 0 then e.raw.drop (4096 * e.k) else e.raw }

/-- Encode the next block of the job that holds the encoder, with the channel it belongs to; the job leaves the encoder after its
last block (R109–R111). None while an ENCODE's block has not been read, or finished blocks wait for the queue. -/
def encodeNext (s : State) (n : Nat) : Option (EncOut × Option Nat × State) :=
  match encJob (hrw s n) with
  | none => none
  | some e =>
    match e.chan with
    | some _ =>
      let r := encChanRaw s n e
      let b := encBuild r.2 n e r.1
      some (b.1, e.chan, modHrw b.2 n fun h => { h with
        chanEncs := (encNext e).toList ++ h.chanEncs.drop 1, encWait := if h.encWait = .waiting then .ready else h.encWait })
    | none =>
      match encBlockRaw e with
      | none => none
      | some bs =>
        if (hrw s n).encOut.isEmpty then
          let b := encBuild s n e bs
          some (b.1, none, modHrw b.2 n fun h => { h with enc := encNext e })
        else none

/-! ### Opening streams (R106, R108) -/

/-- Lanes of a stream. -/
def laneSet (l0 k : Nat) : List Nat := (List.range k).map (l0 + ·)

/-- Lanes that the open streams use. -/
def lanesUsed (h : HarrowState) : List Nat := h.streams.flatMap (·.lanes)

/-- May a DECODE open this stream (R94, R106)? -/
def decodeLegal (s : State) (n num l0 k bytes : Nat) : Bool :=
  let h := hrw s n
  let ch := s.reg (coreReg n Reg.HRWn_LANE_CTRL)
  decide (l0 + k ≤ 8) && (laneSet l0 k).all (fun l => !flag ch l && !(lanesUsed h).contains l)
    && !(h.streams.any fun x => decide (x.num = num) && x.chan.isNone)
    && decide (0 < bytes) && decide (bytes % (64 * k) = 0)

/-- Open a decode stream at the current program cycle. -/
def decodeOpen (s : State) (n num l0 k bytes : Nat) (d : HDest) : State :=
  modHrw s n fun h => { h with streams := h.streams ++ [{
    num, chan := none, lanes := laneSet l0 k, k, n := bytes, dest := d, issued := (s.core n).prog, firstBlk := 0, fed := false,
    claimed := 0, done := 0, row := 0, buf := [] }] }

/-- CHAN_LANES of HRWn_LANE_CTRL is written only while the Sequencer is stopped (R108). -/
def chanLanesWrite (s : State) (n : Nat) (v : Word) : State :=
  if seqRunning s n then hrwFlag s n (bitMask 5)
  else s.setReg (coreReg n Reg.HRWn_LANE_CTRL) (v &&& 0xFF)

end Sys2Proof.Machine
end

