-- ==== Sys2Proof/Machine/Tally.lean ====
section
/-! DEFINITION. Timestamps (R294), the Tally ring (R364–R369) and traps (R169, R170). -/

namespace Sys2Proof.Machine

/-! ### Timestamps (R294) -/

/-- Timestamp counter k, 4 for the Surveyor's. -/
def State.clock (s : State) (k : Nat) : Clock := s.clocks[k]?.getD {}
def State.setClock (s : State) (k : Nat) (c : Clock) : State := { s with clocks := s.clocks.setIfInBounds k c }

/-- The value of counter k now: it has advanced by a free amount since it was last read. A counter held at 0 by a reset may have
been started since with its control core: whether it has is free, until READY says so (log entry 26). -/
def stamp (s : State) (k : Nat) : Nat × State :=
  let c := s.clock k
  let v := Config.fresh s.freeCtr
  let s := s.tickFree
  if c.run || decide (v % 2 = 1) then
    let x := (c.value + v / 2) % 2 ^ 64
    (x, s.setClock k ⟨x, true⟩)
  else (0, s)

/-! ### Tally -/

/-- Types that R367 does not limit. -/
def unlimitedType (ty : Nat) : Bool :=
  [0x0001, 0x0002, 0x0003, 0x0004, 0x0030, 0x0031, 0x0040, 0x0050, 0x0060].contains ty

/-- The device generation (R349). -/
def devGen (s : State) : Nat := bits (s.reg Reg.SRV_RESET_STATUS) 23 16

/-- The generation of Field f (R349). -/
def fldGen (s : State) (f : Nat) : Nat := bits (s.reg (fieldReg f Reg.FLDn_GEN)) 7 0

/-- Write a record into the slot after the newest one (R364). -/
def tallyWrite (s : State) (ty src flags : Nat) (data : List Byte) : State :=
  let pair := ty * 256 + src
  let seq := ((s.reg Reg.TAL_SEQ).toNat + 1) % 2 ^ 32
  let st := s.reg Reg.TAL_STATUS
  let slot := bits st 14 0
  let now := stamp s 4
  let rec_ := tallyRecord seq ty src flags now.1 (s.boots % 65536) (devGen s) (storeGet 0 s.talSupp pair) data
  let s := now.2
  let s := { s with tally := storeSet none s.tally slot (some (BitVec.ofNat 1024 (leNat rec_))),
                    talSupp := storeSet 0 s.talSupp pair 0,
                    talSeen := if s.talSeen.contains pair then s.talSeen else s.talSeen ++ [pair] }
  let s := s.setReg Reg.TAL_SEQ (BitVec.ofNat 32 seq)
  let st := setBits st 14 0 (slot + 1)
  let s := s.setReg Reg.TAL_STATUS (if slot = 32767 then setFlag st 31 true else st)
  s.bump Reg.TAL_REC_CNT 1

/-- Append a record unless R367 suppresses it. Whether the pair's last record is less than 100 ms old is a free value. -/
def tallyAppend (s : State) (ty src : Nat) (data : List Byte) : State :=
  let pair := ty * 256 + src
  let early := decide (Config.fresh s.freeCtr % 2 = 0)
  let s := s.tickFree
  if !unlimitedType ty && s.talSeen.contains pair && early then
    let s := { s with talSupp := storeSet 0 s.talSupp pair (storeGet 0 s.talSupp pair + 1) }
    (s.bump Reg.TAL_SUPPRESS_CNT 1).raise Reg.TAL_ERR_STATUS (bitMask 2)
  else tallyWrite s ty src 0 data

/-- A record's source byte (R365). -/
def srcDevice : Nat := 0
def srcField (f : Nat) : Nat := 0x10 + f
def srcCore (n : Nat) : Nat := 0x20 + n
def srcStand : Nat := 0x30

/-- Latch slot i for the host (R369). -/
def tallyLatch (s : State) (i : Nat) : State :=
  let put (s : State) (bs : List Byte) : State := (List.range 32).foldl (fun s w =>
    s.setReg (Reg.TAL_RD_DATAw + 4 * w) (BitVec.ofNat 32 (leField bs (4 * w) 4))) s
  let s := s.setReg Reg.TAL_RD_SEL (BitVec.ofNat 32 (i % 32768))
  match storeGet none s.tally (i % 32768) with
  | none => (put s (List.replicate 128 0)).setReg Reg.TAL_RD_STATUS (bitMask 29)
  | some r =>
    let bs := leBytes 128 r.toNat
    let s := put s bs
    if crc32 (bs.take 124) = leField bs 124 4 then s.setReg Reg.TAL_RD_STATUS (bitMask 31)
    else (s.setReg Reg.TAL_RD_STATUS (bitMask 30)).raise Reg.TAL_ERR_STATUS (bitMask 0)

/-! ### Traps (R169, R170) -/

/-- COREn_TRAP. -/
def trapWord (multi : Bool) (cause slot : Nat) : Word :=
  BitVec.ofNat 32 (1 <<< 31 + multi.toNat <<< 30 + (cause % 8) <<< 27 + (slot % 8) <<< 24)

/-- The Sequencer of core n traps: the bundle address is in COREn_PC, the cause in COREn_TRAP, and firmware records the
trap in Tally (R142, R169, R170, R173, R174). -/
def trapCore (s : State) (n cause slot : Nat) (multi : Bool) : State :=
  let s := s.modCore n fun c => { c with seq := .trapped, hrw := { c.hrw with encWait := .no } }
  let s := s.setReg (coreReg n Reg.COREn_TRAP) (trapWord multi cause slot)
  let s := s.setReg (coreReg n Reg.COREn_PC) (BitVec.ofNat 32 (32 * (s.core n).pc))
  let s := s.raise (coreReg n Reg.COREn_EVENT_PEND) (bitMask 5)
  tallyAppend s 0x0003 (srcCore n)
    (dataWords [n, (s.reg (coreReg n Reg.COREn_TRAP)).toNat, (s.reg (coreReg n Reg.COREn_PC)).toNat])

end Sys2Proof.Machine
end

