-- ==== Sys2Proof/Machine/Hedgerow.lean ====
section
/-! DEFINITION. Hedgerow synchronisation (R232–R246): semaphores, names, notification, barrier groups, job aborts, and the
routes of R253 that Hedgerow messages and data share. -/

namespace Sys2Proof.Machine

/-! ### This device and its routes (R252, R253) -/

/-- This device's number. -/
def devNum (s : State) : Nat := if portCount s.part = 0 then s.straps else bits (s.reg Reg.FAB_CFG) 3 0

/-- The fabric is enabled. -/
def fabEn (s : State) : Bool := decide (0 < portCount s.part) && flag (s.reg Reg.FAB_CFG) 31

/-- State of port p (R266): 0 DOWN, 1 TRAINING, 2 UP, 3 ISOLATED. -/
def portState (s : State) (p : Nat) : Nat := bits (s.reg Reg.FAB_STATUS) (2 * p + 1) (2 * p)

/-- Set the state of port p. -/
def setPortState (s : State) (p v : Nat) : State :=
  s.setReg Reg.FAB_STATUS (setBits (s.reg Reg.FAB_STATUS) (2 * p + 1) (2 * p) v)

def State.port (s : State) (p : Nat) : Port := s.ports[p]?.getD {}
def State.setPort (s : State) (p : Nat) (x : Port) : State := { s with ports := s.ports.setIfInBounds p x }

/-- The port that a valid route toward device d names now (R253): the primary, or the alternate while the primary is not UP. -/
def routeChoice (s : State) (d : Nat) : Option Nat :=
  let w := s.reg (Reg.FAB_ROUTEd + 4 * d)
  if fabEn s && decide (d < 16) && flag w 31 then
    some (if flag w 7 && decide (portState s (bits w 2 0) ≠ 2) then bits w 6 4 else bits w 2 0)
  else none

/-- The fitted port toward device d (R4, R253). -/
def routePort (s : State) (d : Nat) : Option Nat := (routeChoice s d).filter fun p => decide (p < portCount s.part)

/-- Put something out. -/
def State.emit (s : State) (m : OutMsg) : State := { s with out := m :: s.out }

def HdgMsg.isToken : HdgMsg → Bool
  | .token .. => true
  | _ => false

/-- A waiting message takes its place: an abort token ahead of every other message (R242). -/
def queueFrame (l : List HdgFrame) (f : HdgFrame) : List HdgFrame :=
  if f.msg.isToken then l.takeWhile (·.msg.isToken) ++ f :: l.dropWhile (·.msg.isToken) else l ++ [f]

/-- A frame leaves on port p while it is UP, and waits while it trains (R242, R249). -/
def sendFrame (s : State) (p : Nat) (f : HdgFrame) : State :=
  if portState s p = 2 then (s.emit (.hdg p f)).bump Reg.HDG_REMOTE_TX_CNT 1
  else if portState s p = 1 then s.setPort p { s.port p with waitHdg := queueFrame (s.port p).waitHdg f }
  else s

/-- Send a Hedgerow message on toward its device; one that reaches no device is dropped and counted (R234). -/
def hdgForward (s : State) (f : HdgFrame) : State :=
  match routePort s f.dst with
  | some p => if portState s p = 2 ∨ portState s p = 1 then sendFrame s p f else s.bump Reg.HDG_UNREACH_CNT 1
  | none => s.bump Reg.HDG_UNREACH_CNT 1

/-- Send this device's own Hedgerow message to another device, under this device's generation (R243). -/
def hdgSend (s : State) (d : Nat) (m : HdgMsg) : State := hdgForward s ⟨d, devNum s, devGen s, m⟩

/-! ### Semaphores (R232–R235) -/

def semReg (i : Nat) : Nat := Reg.HDG_SEMi + 4 * i
def semVal (s : State) (i : Nat) : Nat := bits (s.reg (semReg i)) 15 0
def setSemVal (s : State) (i v : Nat) : State := s.setReg (semReg i) (setBits (s.reg (semReg i)) 15 0 v)

/-- Semaphores of absent cores do not exist. -/
def semPresent (s : State) (i : Nat) : Bool := decide (i < 4096) && corePresent s (i / 256)

/-- Job j has been aborted and not cleared (R245). -/
def jobAborted (s : State) (j : Nat) : Bool := flag (s.reg Reg.HDG_STATUS) j

/-- Core n belongs to an aborted job. -/
def coreAborted (s : State) (n : Nat) : Bool :=
  let w := s.reg (Reg.HDG_COREj_JOB + 4 * n)
  flag w 4 && jobAborted s (bits w 3 0)

/-- A NOTIFY semaphore enters its Field's notify queue (R235). -/
def notifySem (s : State) (i : Nat) : State :=
  let f := i / 1024
  let q := s.notify[f]?.getD []
  if q.length < 64 then { s with notify := s.notify.setIfInBounds f (q ++ [i]) }
  else s.raise Reg.HDG_ERR_STATUS (bitMask 4)

/-- The island clock of core n is stopped: the device is in its thermal stop or loses its power, or the core's base domain is
not ON (R232, R391, R401, R406). -/
def clockStopped (s : State) (n : Nat) : Bool := s.power.crit || s.power.lost || !domOn s (3 * n + 2)

/-- An access from outside enters the handshake FIFO of a core's island (R232). -/
def fifoAdd (s : State) (x : FifoOp) : State := { s with power := { s.power with fifo := s.power.fifo ++ [x] } }

/-- A post of cnt acts on device semaphore i in its island (R232, R235). -/
def semApply (s : State) (i cnt : Nat) : State :=
  if coreAborted s (i / 256) then s.bump Reg.HDG_ABORT_DROP_CNT 1
  else
    let s := s.bump Reg.HDG_POST_CNT 1
    let v := semVal s i
    let s := if v = 0 ∧ 0 < cnt ∧ flag (s.reg (semReg i)) 31 then notifySem s i else s
    if 0xFFFF < v + cnt then
      let s := setSemVal s i 0xFFFF
      let s := s.setReg Reg.HDG_OVF_SEM (BitVec.ofNat 32 (1 <<< 31 + i))
      s.raise Reg.HDG_ERR_STATUS (bitMask 3)
    else setSemVal s i (v + cnt)

/-- A post of cnt reaches device semaphore i (R232, R235, R243, R245): dropped at an absent core, a Field in reset or a core of an
aborted job; while the island clock is stopped it waits in the crossing FIFO. -/
def semPost (s : State) (i cnt : Nat) : State :=
  if !semPresent s i then s.bump Reg.HDG_DROP_CNT 1
  else if fieldInReset s (i / 1024) then s.bump Reg.HDG_STALE_CNT 1
  else if clockStopped s (i / 256) && !coreAborted s (i / 256) then fifoAdd s (.post i cnt)
  else semApply s i cnt

/-- Reserved bits of a semaphore name are 0 (R234). -/
def nameOk (w : Word) : Bool := bits w 30 20 == 0 && bits w 15 12 == 0

/-- A name with REMOTE set and another device's number. -/
def nameRemote (s : State) (w : Word) : Bool := flag w 31 && bits w 19 16 != devNum s

/-- Post cnt to the semaphore a name names (R234). -/
def postName (s : State) (w : Word) (cnt : Nat) : State :=
  if nameRemote s w then hdgSend s (bits w 19 16) (.post (bits w 11 0) cnt) else semPost s (bits w 11 0) cnt

/-- HDG_POST (R245, R246). -/
def hdgPost (s : State) (v : Word) : State :=
  if bits v 30 28 ≠ 0 ∨ bits v 15 12 ≠ 0 ∨ (!nameRemote s v && !semPresent s (bits v 11 0)) then
    s.raise Reg.HDG_ERR_STATUS (bitMask 2)
  else postName s v (bits v 27 20 % 256 + 1)

/-- A take acts on device semaphore i in its island (R235). -/
def takeApply (s : State) (i cnt : Nat) : State :=
  if coreAborted s (i / 256) then s.bump Reg.HDG_ABORT_DROP_CNT 1
  else if semVal s i < cnt then s.raise Reg.HDG_ERR_STATUS (bitMask 2)
  else setSemVal s i (semVal s i - cnt)

/-- HDG_TAKE (R232, R235, R245, R246). -/
def hdgTake (s : State) (v : Word) : State :=
  let i := bits v 27 16
  if bits v 31 28 ≠ 0 ∨ !semPresent s i then s.raise Reg.HDG_ERR_STATUS (bitMask 2)
  else if clockStopped s (i / 256) && !coreAborted s (i / 256) then fifoAdd s (.take i (bits v 15 0))
  else takeApply s i (bits v 15 0)

/-- A write to HDG_SEMi (R232, R233). -/
def hdgSemWrite (s : State) (i : Nat) (v : Word) : State :=
  if !semPresent s i then s
  else if clockStopped s (i / 256) then fifoAdd s (.write i v)
  else s.setReg (semReg i) (v &&& 0x8000FFFF)

/-- The semaphore that an access in the FIFO acts on. -/
def FifoOp.sem : FifoOp → Nat
  | .post i _ | .take i _ | .write i _ => i

/-- An access leaves the FIFO. -/
def fifoApply (s : State) : FifoOp → State
  | .post i cnt => semApply s i cnt
  | .take i cnt => takeApply s i cnt
  | .write i v => s.setReg (semReg i) (v &&& 0x8000FFFF)

/-- Island clocks have restarted: what waited for them is applied in order (R232). -/
def fifoRun (s : State) : State :=
  let runs (x : FifoOp) : Bool := !clockStopped s (x.sem / 256)
  (s.power.fifo.filter runs).foldl fifoApply { s with power := { s.power with fifo := s.power.fifo.filter fun x => !runs x } }

/-- A read of HDG_FLDf_NOTIFY removes the oldest entry (R235, R246). -/
def notifyRead (s : State) (f : Nat) : Word × State :=
  match (s.notify[f]?).getD [] with
  | [] => (0, s)
  | i :: rest => (BitVec.ofNat 32 (1 <<< 31 + i), { s with notify := s.notify.setIfInBounds f rest })

/-! ### Barrier groups (R237, R238) -/

def barCfg (s : State) (g : Nat) : Word := s.reg (Reg.HDG_BARg_CFG + 8 * g)
def barStatus (s : State) (g : Nat) : Word := s.reg (Reg.HDG_BARg_STATUS + 8 * g)
def setBarStatus (s : State) (g : Nat) (v : Word) : State := s.setReg (Reg.HDG_BARg_STATUS + 8 * g) v

/-- Group g belongs to an aborted job. -/
def groupAborted (s : State) (g : Nat) : Bool := flag (barCfg s g) 30 && jobAborted s (bits (barCfg s g) 27 24)

/-- Post an arrival's count to its semaphore on its own device. -/
def postArrival (s : State) (a : Arrival) : State :=
  if a.dev = devNum s then semPost s a.sem a.cnt else hdgSend s a.dev (.post a.sem a.cnt)

/-- An arrival reaches group g of this device. -/
def barArrive (s : State) (g : Nat) (a : Arrival) : State :=
  if groupAborted s g then s.bump Reg.HDG_ABORT_DROP_CNT 1
  else if !flag (barCfg s g) 31 then (s.raise Reg.HDG_ERR_STATUS (bitMask 5)).bump Reg.HDG_DROP_CNT 1
  else
    let st := barStatus s g
    let n := bits st 8 0 + 1
    let s := { s with arrivals := s.arrivals ++ [(g, a)] }
    if bits (barCfg s g) 7 0 + 1 ≤ n then
      let all := (s.arrivals.filter fun x => decide (x.1 = g)).map (·.2)
      let s := { s with arrivals := s.arrivals.filter fun x => decide (x.1 ≠ g) }
      let s := setBarStatus s g (setBits (setBits st 8 0 0) 31 24 (bits st 31 24 + 1))
      all.foldl postArrival s
    else setBarStatus s g (setBits st 8 0 n)

/-- An arrival at the group a name names (R237). -/
def arriveName (s : State) (w : Word) (sem cnt : Nat) : State :=
  if nameRemote s w then hdgSend s (bits w 19 16) (.arrive (bits w 6 0) sem cnt)
  else barArrive s (bits w 6 0) ⟨devNum s, sem, cnt⟩

/-- HDG_BAR_ARRIVE (R237, R246): a Forester's or the Surveyor's arrival, with count 1. -/
def hdgBarArrive (s : State) (v : Word) : State :=
  if bits v 31 24 ≠ 0 ∨ flag v 23 ∨ bits v 15 12 ≠ 0 ∨ !semPresent s (bits v 11 0) then
    s.raise Reg.HDG_ERR_STATUS (bitMask 2)
  else barArrive s (bits v 22 16) ⟨devNum s, bits v 11 0, 1⟩

/-- A write to HDG_BARg_CFG (R238). -/
def barCfgWrite (s : State) (g : Nat) (v : Word) : State :=
  if bits (barStatus s g) 8 0 ≠ 0 then s.raise Reg.HDG_ERR_STATUS (bitMask 2)
  else s.setReg (Reg.HDG_BARg_CFG + 8 * g) (v &&& 0xCF0000FF)

/-! ### Aborts (R244, R245) -/

/-- Recorded sequence number of job j. -/
def abortSeq (s : State) (j : Nat) : Nat :=
  bits (s.reg (Reg.HDG_ABORT_SEQi + 4 * (j / 8))) (4 * (j % 8) + 3) (4 * (j % 8))
def setAbortSeq (s : State) (j v : Nat) : State :=
  let r := Reg.HDG_ABORT_SEQi + 4 * (j / 8)
  s.setReg r (setBits (s.reg r) (4 * (j % 8) + 3) (4 * (j % 8)) v)

/-- Apply an abort of job j (R245). -/
def applyAbort (s : State) (j : Nat) : State :=
  let s := s.raise Reg.HDG_STATUS (bitMask j)
  let s := s.raise Reg.HDG_ERR_STATUS (bitMask 0)
  let s := (List.range (fieldCount s.part)).foldl (fun s f => s.modField f fun x => { x with abortEvents := x.abortEvents + 1 }) s
  let s := (List.range (coreCount s.part)).foldl (fun s n =>
    let w := s.reg (Reg.HDG_COREj_JOB + 4 * n)
    if flag w 4 && decide (bits w 3 0 = j) && decide ((s.core n).seq = .running) then trapCore s n 5 0 false else s) s
  (List.range 128).foldl (fun s g =>
    if flag (barCfg s g) 30 && decide (bits (barCfg s g) 27 24 = j) then
      let s := setBarStatus s g (setBits (barStatus s g) 8 0 0)
      { s with arrivals := s.arrivals.filter fun x => decide (x.1 ≠ g) }
    else s) s

/-- Send a message on every Hedgerow lane but one, under the generation of the device that issued it. -/
def flood (s : State) (skip : Option Nat) (src gen : Nat) (m : HdgMsg) : State :=
  (List.range (portCount s.part)).foldl (fun s p => if some p = skip then s else sendFrame s p ⟨16, src, gen, m⟩) s

/-- HDG_ABORT (R244). -/
def hdgAbort (s : State) (j : Nat) : State :=
  let q := (abortSeq s j + 1) % 16
  let s := setAbortSeq s j q
  let s := applyAbort s j
  let s := s.raise Reg.HDG_ERR_STATUS (bitMask 1)
  tallyAppend (flood s none (devNum s) (devGen s) (.token j q (devNum s))) 0x0040 srcStand (dataWords [j, q, devNum s])

/-- A token of device d's under its generation arrives on port p (R244). -/
def abortToken (s : State) (p j q d gen : Nat) : State :=
  if abortSeq s j = q then s.bump Reg.HDG_ABORT_DUP_CNT 1
  else
    let s := setAbortSeq s j q
    let s := applyAbort s j
    tallyAppend (flood s (some p) d gen (.token j q d)) 0x0040 srcStand (dataWords [j, q, d])

/-- HDG_ABORT_CLEAR (R245). -/
def hdgAbortClear (s : State) (v : Word) : State := s.lower Reg.HDG_STATUS (v &&& 0xFFFF)

/-- Recorded generation of device d (R352). -/
def peerGen (s : State) (d : Nat) : Nat :=
  bits (s.reg (Reg.FAB_PEER_GENi + 4 * (d / 4))) (8 * (d % 4) + 7) (8 * (d % 4))
def setPeerGen (s : State) (d v : Nat) : State :=
  let r := Reg.FAB_PEER_GENi + 4 * (d / 4)
  s.setReg r (setBits (s.reg r) (8 * (d % 4) + 7) (8 * (d % 4)) v)

/-- A generation announcement arrives on port p (R352). -/
def genAnnounce (s : State) (p d v : Nat) : State :=
  if peerGen s d = v then s else flood (setPeerGen s d v) (some p) d v (.announce d v)

/-- SEM_POST_ARRIVE: a post issued under generation gen of Field f of this device arrives (R232, R243). -/
def semPostArrive (s : State) (f gen i cnt : Nat) : State :=
  if gen ≠ fldGen s f then s.bump Reg.HDG_STALE_CNT 1 else semPost s i cnt

/-- BARRIER_ARRIVAL: an arrival issued under generation gen of Field f of this device arrives (R237, R243). -/
def barrierArrival (s : State) (f gen g sem cnt : Nat) : State :=
  if gen ≠ fldGen s f then s.bump Reg.HDG_STALE_CNT 1 else barArrive s (g % 128) ⟨devNum s, sem, cnt⟩

/-- HEDGEROW_FRAME_RECEIVE: a frame from device d under its generation arrives on port p, for device dst (R242–R244,
R352). A frame that fails its CRC is replayed, and nothing else happens. -/
def frameReceive (s : State) (p : Nat) (crcOk : Bool) (d gen dst : Nat) (m : HdgMsg) : State :=
  if !crcOk ∨ portState s p ≠ 2 then s
  else match m with
    | .token j q o =>
      if gen ≠ peerGen s (o % 16) then s.bump Reg.HDG_STALE_CNT 1 else abortToken s p (j % 16) (q % 16) (o % 16) gen
    | .announce o v => genAnnounce s p (o % 16) (v % 256)
    | .post i cnt =>
      if dst ≠ devNum s then hdgForward s ⟨dst, d, gen, m⟩
      else if gen ≠ peerGen s d then s.bump Reg.HDG_STALE_CNT 1 else semPost s i cnt
    | .arrive g i cnt =>
      if dst ≠ devNum s then hdgForward s ⟨dst, d, gen, m⟩
      else if gen ≠ peerGen s d then s.bump Reg.HDG_STALE_CNT 1 else barArrive s (g % 128) ⟨d, i, cnt⟩

end Sys2Proof.Machine
end

