-- ==== Sys2Proof/Machine/Links.lean ====
section
/-! DEFINITION. Fabric links (R247–R250, R252, R253): packets sent on ports, flits, acknowledgements, replay. -/

namespace Sys2Proof.Machine

/-- A register of port p (R266). -/
def portReg (p o : Nat) : Nat := o + 0x100 * p

/-- Raise flags of FAB_ERR_STATUS. -/
def fabFlag (s : State) (m : Word) : State := s.raise Reg.FAB_ERR_STATUS m

/-- 64-byte units of data that a packet carries. -/
def bodyUnits : FabBody → Nat
  | .write _ _ d _ _ => ceilDiv d.length 64
  | .reply _ _ d => ceilDiv d.length 64
  | .read .. => 0

/-- Flits of a packet: its data, or one flit for a packet without data (R248). -/
def bodyFlits (b : FabBody) : Nat := max 1 (bodyUnits b)

/-- A port takes the next sequence numbers for k flits (R248). -/
def takeFlits (x : Port) (k : Nat) : Port :=
  { x with txSeq := (x.txSeq + k) % 4096, unacked := x.unacked ++ (List.range k).map fun i => (x.txSeq + i) % 4096 }

/-- The replay buffer of a port has room for a packet's flits: it holds 1,024 (R248). -/
def replayRoom (x : Port) (k : FabPacket) : Bool := decide (x.unacked.length + bodyFlits k.body ≤ 1024)

/-- A packet's flits leave on port p. -/
def putPacket (s : State) (p : Nat) (k : FabPacket) : State :=
  let s := s.setPort p (takeFlits (s.port p) (bodyFlits k.body))
  (s.emit (.packet p k)).bump (portReg p Reg.FAB_Pp_TX_CNT) (bodyUnits k.body)

/-- Packets that wait leave port p in order while it is UP, as the replay buffer has room; `fuel` packets at most. -/
def sendWaiting : Nat → State → Nat → State
  | 0, s, _ => s
  | f + 1, s, p =>
    match (s.port p).waitPk with
    | [] => s
    | k :: rest =>
      if portState s p = 2 ∧ replayRoom (s.port p) k then
        sendWaiting f (putPacket (s.setPort p { s.port p with waitPk := rest }) p k) p
      else s

/-- Send a packet on port p: at once while it is UP and its replay buffer has room; it waits its turn otherwise, and while the
port trains; a port that is DOWN or ISOLATED carries nothing (R248–R250). -/
def sendPacket (s : State) (p : Nat) (k : FabPacket) : State :=
  if portState s p = 2 ∨ portState s p = 1 then
    let s := s.setPort p { s.port p with waitPk := (s.port p).waitPk ++ [k] }
    sendWaiting (s.port p).waitPk.length s p
  else s

/-- Send this device's own packet to device d: its hop count starts at 1 (log entry 34). -/
def sendTo (s : State) (d : Nat) (b : FabBody) : State :=
  match routePort s d with
  | some p => sendPacket s p ⟨devNum s, devGen s, d, 1, b⟩
  | none => s

/-- A port toward device d that can take a request: UP, or training (R249, R253). -/
def livePort (s : State) (d : Nat) : Option Nat :=
  match routePort s d with
  | some p => if portState s p = 2 ∨ portState s p = 1 then some p else none
  | none => none

/-- A retrain of port p starts (R249). -/
def startRetrain (s : State) (p : Nat) : State :=
  let s := setPortState s p 1
  let s := s.setPort p { s.port p with retraining := true }
  fabFlag (s.bump (portReg p Reg.FAB_Pp_RETRAIN_CNT) 1) (bitMask 1)

/-- The CRC-32 that a flit carries, over its sequence number and its data (R248; what it covers: DESIGN CHOICE, log entry 125). -/
def flitCrc (seq : Nat) (data : List Byte) : Word := BitVec.ofNat 32 (crc32 (leBytes 2 (seq % 4096) ++ data))

/-- FLIT_RECEIVE (R248, R249): a flit with its data and its CRC arrives at port p. A flit that fails its CRC is counted, also
while the port waits for a replayed flit; a flit that is merely discarded is not a failed flit. -/
def flitReceive (s : State) (p seq : Nat) (data : List Byte) (crc : Word) : State :=
  let x := s.port p
  let ok := decide (flitCrc seq data = crc)
  if portState s p ≠ 2 then s
  else
    let s := if ok then s else s.bump (portReg p Reg.FAB_Pp_CRC_ERR_CNT) 1
    if seq % 4096 ≠ x.rxSeq then s
    else if ok then s.setPort p { x with rxSeq := (x.rxSeq + 1) % 4096, discarding := false, fails := 0 }
    else
      let s := s.setPort p { x with discarding := true, fails := x.fails + 1 }
      let s := s.emit (.nak p x.rxSeq)
      if 16 ≤ x.fails + 1 then startRetrain (s.setPort p { s.port p with fails := 0 }) p else s

/-- Replay from sequence number q (R248): earlier flits are acknowledged. -/
def replayFrom (s : State) (p q : Nat) : State :=
  let x := s.port p
  let s := s.setPort p { x with unacked := x.unacked.dropWhile (· ≠ q) }
  let s := (s.emit (.replay p q)).bump (portReg p Reg.FAB_Pp_REPLAY_CNT) 1
  fabFlag (sendWaiting x.waitPk.length s p) (bitMask 0)

/-- ACKNOWLEDGEMENT_RECEIVE (R248): an acknowledgement frees every flit up to its own; a negative one replays from its. -/
def ackReceive (s : State) (p seq : Nat) (neg : Bool) : State :=
  let x := s.port p
  if portState s p ≠ 2 ∨ !x.unacked.contains (seq % 4096) then s
  else if neg then replayFrom s p (seq % 4096)
  else
    let s := s.setPort p { x with unacked := (x.unacked.dropWhile (· ≠ seq % 4096)).drop 1 }
    sendWaiting x.waitPk.length s p

/-- ACK_TIMEOUT (R249). -/
def ackTimeout (s : State) (p : Nat) : State :=
  if portState s p = 2 ∧ !(s.port p).unacked.isEmpty then startRetrain s p else s

/-- RETRAIN (R249, R266): it starts a retrain at any time. -/
def retrainWrite (s : State) (p : Nat) (v : Word) : State :=
  if p < portCount s.part ∧ flag v 0 then startRetrain s p else s

/-- PORT_TRAINING (R250): a port that is not training starts. -/
def portTraining (s : State) (p : Nat) : State :=
  if p < portCount s.part ∧ portState s p ≠ 1 then
    let s := setPortState s p 1
    s.setPort p { s.port p with retraining := false, retrains := 0 }
  else s

/-- What waited for the port leaves it in order (R242, R249). -/
def releasePort (s : State) (p : Nat) : State :=
  let x := s.port p
  let s := sendWaiting x.waitPk.length (s.setPort p { x with waitHdg := [] }) p
  x.waitHdg.foldl (fun s f => (s.emit (.hdg p f)).bump Reg.HDG_REMOTE_TX_CNT 1) s

end Sys2Proof.Machine
end

