-- ==== Sys2Proof/Machine/Tables.lean ====
section
/-! DEFINITION. The Context Table and the Residency Table as protected memories (R300, R193, R327–R329, R337, R338, R344),
and the generation checks of R314. -/

namespace Sys2Proof.Machine

/-- The two on-die tables. -/
inductive TabId
  | ctx | res
  deriving DecidableEq, Repr

/-- Words of an entry, entries of a table, base of its registers. -/
def TabId.words : TabId → Nat
  | .ctx => 16 | .res => 8
def TabId.entries : TabId → Nat
  | .ctx => 65536 | .res => 32768
def TabId.base : TabId → Nat
  | .ctx => 0x500000 | .res => 0x600000

/-- A register of a table, by its Context Table name (R344). -/
def tabReg (t : TabId) (o : Nat) : Nat := o - Reg.CTX_CAP + t.base

def tabWordAt (s : State) (t : TabId) (e w : Nat) : TabWord :=
  match t with
  | .ctx => storeGet {} s.ctx (16 * e + w)
  | .res => storeGet {} s.res (8 * e + w)

def setTabWord (s : State) (t : TabId) (e w : Nat) (x : TabWord) : State :=
  match t with
  | .ctx => { s with ctx := storeSet {} s.ctx (16 * e + w) x }
  | .res => { s with res := storeSet {} s.res (8 * e + w) x }

def quarantined (s : State) (t : TabId) (e : Nat) : Bool :=
  match t with
  | .ctx => s.ctxQuar.contains e
  | .res => s.resQuar.contains e

def setQuar (s : State) (t : TabId) (l : List Nat) : State :=
  match t with
  | .ctx => { s with ctxQuar := l }
  | .res => { s with resQuar := l }

def quarList (s : State) : TabId → List Nat
  | .ctx => s.ctxQuar
  | .res => s.resQuar

/-- How a table word decodes (R327): its value and whether it was corrected; none when uncorrectable. -/
def tabDecode (x : TabWord) : Option (Word × Bool) :=
  match popCount x.flip with
  | 0 => some (x.data, false)
  | 1 => some (x.data, true)
  | 2 => none
  | _ => match Config.eccOutcome x.flip.toNat % 3 with
    | 0 => some (BitVec.ofNat 32 (Config.eccData x.data.toNat x.flip.toNat), false)
    | 1 => some (BitVec.ofNat 32 (Config.eccData x.data.toNat x.flip.toNat), true)
    | _ => none

/-- CTX_ERR_ENTRY, RES_ERR_ENTRY (R344). -/
def errEntry (quar : Bool) (w e : Nat) : Word := BitVec.ofNat 32 (1 <<< 31 + quar.toNat <<< 30 + w <<< 26 + e)

/-- The table engine reads the words listed of entry e: the value of each, none where uncorrectable, after correction,
write-back, records and quarantine (R327, R328). -/
def tabRead (s : State) (t : TabId) (e : Nat) : List Nat → List (Option Word) × State
  | [] => ([], s)
  | w :: rest =>
    match tabDecode (tabWordAt s t e w) with
    | some (v, false) =>
      let r := tabRead s t e rest
      (some v :: r.1, r.2)
    | some (v, true) =>
      let s := setTabWord s t e w ⟨v, 0⟩
      let s := s.bump (tabReg t Reg.CTX_CE_CNT) 1
      let s := s.raise (tabReg t Reg.CTX_ECC_STATUS) 1
      let s := s.setReg (tabReg t Reg.CTX_ERR_ENTRY) (errEntry false w e)
      let r := tabRead s t e rest
      (some v :: r.1, r.2)
    | none =>
      let s := if quarantined s t e then s else
        let s := setQuar s t (quarList s t ++ [e])
        let s := s.bump (tabReg t Reg.CTX_UE_CNT) 1
        let s := s.raise (tabReg t Reg.CTX_ECC_STATUS) 2
        s.setReg (tabReg t Reg.CTX_ERR_ENTRY) (errEntry true w e)
      let r := tabRead s t e rest
      (none :: r.1, r.2)

/-- All words of an entry. -/
def tabReadAll (s : State) (t : TabId) (e : Nat) : List (Option Word) × State := tabRead s t e (List.range t.words)

/-- Apply an armed table injector when its word of the entry has changed (R337, R338). -/
def tabInject (s : State) (t : TabId) (e w : Nat) : State :=
  let ctl := s.reg (tabReg t Reg.CTX_INJ_CTRL)
  if flag ctl 31 && decide (bits ctl 29 26 = w) && (!flag ctl 30 || decide (bits ctl 15 0 = e)) then
    let x := tabWordAt s t e w
    let m : BitVec 39 := BitVec.ofNat 39 ((s.reg (tabReg t Reg.CTX_INJ_MASK)).toNat + bits ctl 22 16 <<< 32)
    (setTabWord s t e w { x with flip := x.flip ^^^ m }).setReg (tabReg t Reg.CTX_INJ_CTRL) (setFlag ctl 31 false)
  else s

/-- The table engine writes words of an entry. -/
def tabWrite (s : State) (t : TabId) (e : Nat) : List (Nat × Word) → State
  | [] => s
  | (w, v) :: rest =>
    let old := (tabWordAt s t e w).data
    let s := setTabWord s t e w ⟨v, 0⟩
    let s := if old = v then s else tabInject s t e w
    tabWrite s t e rest

/-- The value of a read word; an uncorrectable word reads 0xFFFF_FFFF (R328). -/
def tabVal (l : List (Option Word)) (w : Nat) : Word :=
  match l[w]? with
  | some (some v) => v
  | _ => 0xFFFFFFFF

/-- A write to CTX_QUAR_CLEAR or RES_QUAR_CLEAR (R329). -/
def quarClear (s : State) (t : TabId) (v : Word) : State :=
  let e := match t with | .ctx => bits v 15 0 | .res => bits v 14 0
  let w0 : Word := match t with
    | .ctx => BitVec.ofNat 32 (bits v 27 16)
    | .res => BitVec.ofNat 32 (bits v 23 16 <<< 12)
  if quarantined s t e && (t == .ctx || bits v 27 24 == 0) then
    let s := setQuar s t ((quarList s t).filter (· ≠ e))
    tabWrite s t e ((List.range t.words).map fun w => (w, if w = 0 then w0 else 0))
  else s

/-! ### Generation checks (R314) -/

/-- Does the generation of an operation match the entry's GEN? A quarantined entry fails (R328). -/
def genCheck (s : State) (ctx gen : Nat) : Bool × State :=
  if quarantined s .ctx ctx then (false, s)
  else
    let r := tabRead s .ctx ctx [0]
    match r.1 with
    | [some w] => (decide (bits w 11 0 = gen), r.2)
    | _ => (false, r.2)

/-- Hardware changes OUTSTANDING; discarded for a quarantined entry (R328). -/
def outstanding (s : State) (ctx : Nat) (f : Nat → Nat) : State :=
  if quarantined s .ctx ctx then s
  else
    let r := tabRead s .ctx ctx [1]
    match r.1 with
    | [some w] => tabWrite r.2 .ctx ctx [(1, setBits w 15 0 (f (bits w 15 0)))]
    | _ => r.2

/-- A checked operation starts: whether it may, and OUTSTANDING counted when it may. -/
def checkedStart (s : State) (ctx gen : Nat) : Bool × State :=
  let r := genCheck s ctx gen
  if r.1 then (true, outstanding r.2 ctx (· + 1)) else (false, r.2)

/-- A request or reply of a checked operation: whether it stands; a failure is counted. -/
def checkedReq (s : State) (ctx gen : Nat) : Bool × State :=
  let r := genCheck s ctx gen
  if r.1 then r else (false, r.2.bump Reg.CTX_STALE_DROP_CNT 1)

end Sys2Proof.Machine
end

