-- ==== Sys2Proof/Machine/Skidder.lean ====
section
/-! DEFINITION. Transfers (R160, R161, R183–R186, R199–R205, R253, R257, R314, R331, R333, R334, R350): the outbound map, the
transaction budget, requests and replies, channels and core Skidder queues. -/

namespace Sys2Proof.Machine

/-! ### Where a Stand address leads (R253) -/

inductive Target
  | here (p : Place)
  | far (d a : Nat)
  | noRoute
  | noUnit
  deriving DecidableEq, Repr

def standTarget (s : State) (a : Nat) : Target :=
  let d := a / 2 ^ 48 % 16
  let x := a % 2 ^ 48
  if portCount s.part = 0 then (if d = s.straps then .here (placeOf x) else .noUnit)
  else if !fabEn s ∨ d = devNum s then .here (placeOf x)
  else match routeChoice s d with
    | none => .noRoute
    | some p => if p < portCount s.part then .far d x else .noUnit

/-! ### Domains of memories (R391, R393) -/

/-- Is the domain of a scratchpad, near memory or weight-store stack ON? -/
def placeOn (s : State) : Place → Bool
  | .spm n _ => domOn s (3 * n + 2)
  | .nm f _ => domOn s (48 + f) && domOn s (56 + f / 2)
  | .ws f _ => domOn s (52 + f)
  | _ => true

/-! ### Outbound map (R183–R186) -/

/-- Outbound map entry of a host-space address. -/
def omapEntry (a : Nat) : Nat := (a - 0x800000000000) / 0x800000000
def omapWord (s : State) (i w : Nat) : Word := s.reg (Reg.HST_OMAPi_W0 + 16 * i + 4 * w)

/-- Why an access at this offset of an entry is not legal (R183, R208); none when it is. -/
def omapKind (s : State) (i off : Nat) (write : Bool) : Option Nat :=
  let w := omapWord s i 0
  if !flag w 31 then some 0
  else if (bits w 22 0 + 1) * 4096 ≤ off then some 1
  else if write then (if flag w 29 then none else some 3)
  else if flag w 30 then none else some 2

/-- Host address of a device-physical host-space address. -/
def omapHost (s : State) (a : Nat) : Nat :=
  let i := omapEntry a
  ((omapWord s i 2).toNat <<< 32 + bits (omapWord s i 1) 31 12 * 4096 + a % 0x800000000) % 2 ^ 64

/-- Check entries from i on, for bytes a … b − 1: the first failing entry with its kind. -/
def omapScan (s : State) (write : Bool) : Nat → Nat → Nat → Option (Nat × Nat)
  | 0, _, _ => none
  | f + 1, a, b =>
    if b ≤ a then none
    else
      let i := omapEntry a
      let stop := 0x800000000000 + (i + 1) * 0x800000000
      match omapKind s i ((min b stop - 1) % 0x800000000) write with
      | some k => some (i, k)
      | none => omapScan s write f stop b

/-- Check a whole range (R185): none when every part passes, else the HST_OMAP_FAULT record. -/
def omapCheck (s : State) (a len : Nat) (write : Bool) : Option Word :=
  if len = 0 then none
  else if a < 0x800000000000 ∨ 0x1000000000000 < a + len then some (BitVec.ofNat 32 (1 <<< 31 + 1 <<< 28))
  else (omapScan s write 4097 a (a + len)).map fun r => BitVec.ofNat 32 (1 <<< 31 + r.2 <<< 29 + r.1)

/-- Record a failed check (R185, R208). -/
def omapFail (s : State) (w : Word) : State := (s.setReg Reg.HST_OMAP_FAULT w).bump Reg.HST_OMAP_FAULT_CNT 1

/-! ### Transfers and who owns them -/

/-- Field whose requesters issue an owner's requests. -/
def ownerField : XferOwner → Nat
  | .chan f _ => f
  | .skq n _ => n / 4
  | .bucker f => f
  | .forester f => f
  | .surveyor => 0

/-- The generation that an owner's requests carry (R350): its Field's, or the device's for the Surveyor. -/
def ownerGen (s : State) : XferOwner → Nat
  | .surveyor => devGen s
  | o => fldGen s (ownerField o)

def State.chan (s : State) (f k : Nat) : Chan := (s.chans[f]?.getD (Vector.replicate 16 {}))[k]?.getD {}
def State.setChan (s : State) (f k : Nat) (c : Chan) : State :=
  { s with chans := s.chans.setIfInBounds f ((s.chans[f]?.getD (Vector.replicate 16 {})).setIfInBounds k c) }
def State.skq (s : State) (n : Nat) : List SkqEntry := s.skqs[n]?.getD []
def State.setSkq (s : State) (n : Nat) (l : List SkqEntry) : State := { s with skqs := s.skqs.setIfInBounds n l }
def State.bkr (s : State) (f : Nat) : Bkr := s.bkrs[f]?.getD {}
def State.setBkr (s : State) (f : Nat) (b : Bkr) : State := { s with bkrs := s.bkrs.setIfInBounds f b }

def getXfer (s : State) : XferOwner → Option Xfer
  | .chan f k => (s.chan f k).cur
  | .skq n e => ((s.skq n).find? fun x => decide (x.idx = e)).map (·.xfer)
  | .bucker f => (s.bkr f).cur
  | .forester _ | .surveyor => none

def setXfer (s : State) (o : XferOwner) (x : Xfer) : State :=
  match o with
  | .chan f k => s.setChan f k { s.chan f k with cur := some x }
  | .skq n e => s.setSkq n (mapIf (fun q => decide (q.idx = e)) (fun q => { q with xfer := x }) (s.skq n))
  | .bucker f => s.setBkr f { s.bkr f with cur := some x }
  | .forester _ | .surveyor => s

/-- Change a transfer, when it exists. -/
def modXfer (s : State) (o : XferOwner) (g : Xfer → Xfer) : State :=
  match getXfer s o with
  | some x => setXfer s o (g x)
  | none => s

/-- End a transfer with a status: it issues no further requests; the first status stands. -/
def Xfer.fail (x : Xfer) (code : Nat) : Xfer := if x.stop then x else { x with stop := true, code }

/-! ### Transaction budget (R203, R204) -/

/-- Size of a pool; a pool of an absent Field or of absent ports does not exist. -/
def poolSize (s : State) (p : Nat) : Nat :=
  if p < 4 then (if fieldPresent s p then 1536 else 0)
  else if p = 4 then 1024
  else if 0 < portCount s.part then 1024 else 0

/-- Transactions of a pool that are in use: those of a domain that has been reset since are released (R203, R350). -/
def poolUsed (s : State) (p : Nat) : Nat :=
  s.txns.countP fun t => decide (t.pool = p) && decide (t.gen = ownerGen s t.owner)

/-- Pool of a request; none where the target takes no transaction (an address that leads nowhere). A scratchpad whose domain is
not ON holds requests under number 16 + core. -/
def poolOf (o : XferOwner) : Target → Option Nat
  | .here (.spm n _) => some (16 + n)
  | .here (.nm _ _) | .here (.ws _ _) => some (ownerField o)
  | .here (.host _) => some 4
  | .far _ _ => some 5
  | _ => none

/-- May a requester take a transaction now? 32 of each pool are for firmware alone; others wait behind earlier waiters. A Field
that is quiesced or resetting issues none (R347). -/
def mayIssue (s : State) (o : XferOwner) (p : Nat) (granted : Bool) : Bool :=
  let fw := match o with | .forester _ | .surveyor => true | _ => false
  !(decide (o ≠ .surveyor) && fieldInReset s (ownerField o)) && !deviceInReset s && decide (poolUsed s p + (if fw then 0 else 32) < poolSize s p)
    && (granted || fw || !s.waiters.any fun w => decide (w.1 = p))

/-- Wait for the pool, or for a scratchpad, once. A core's own queue that waits for a sweep stalls its island, as a scheduled
requester (R75, R89); an access to a domain that is not ON is counted (R393). -/
def addWaiter (s : State) (p : Nat) (o : XferOwner) : State :=
  if s.waiters.contains (p, o) then s
  else
    let s := { s with waiters := s.waiters ++ [(p, o)] }
    if p < 16 then s
    else if !domOn s (3 * (p - 16) + 2) then offAccess s
    else match o with
      | .skq n _ => if n = p - 16 ∧ (s.core n).sweeping ≠ 0 then countStall s n 8 1 else s
      | _ => s

/-- Issue a transaction; one for another device leaves as a packet with the generation and the check flag of its transfer
(R253, R256). -/
def issueTxn (s : State) (o : XferOwner) (p : Nat) (write : Bool) (addr dst part len : Nat) (data : List PByte)
    (host : Option Nat) : State :=
  let far : Option (Nat × Nat) := match standTarget s addr with | .far d a => some (d, a) | _ => none
  let id := s.txnSeq
  let x := getXfer s o
  let s := match standTarget s addr with | .here pl => if placeOn s pl then s else offAccess s | _ => s
  let chk := match x with | some x => x.check | none => false
  let gen := match x with | some x => x.gen | none => 0
  let s := { s with
    txns := s.txns ++ [{ id, pool := p, owner := o, write, addr, host, dst, part, len, data, gen := ownerGen s o,
                         port := match far with | some (d, _) => routePort s d | none => none }],
    txnSeq := s.txnSeq + 1 }
  match far with
  | some (d, a) => sendTo s d (if write then .write id a data chk gen else .read id a len chk gen)
  | none => s

/-! ### Units of 64 bytes and poison (R331) -/

/-- Mark whole 64-byte units: a unit with a poisoned byte is poisoned. -/
def unitPoison (bs : List PByte) : List PByte :=
  bs.zipIdx.map fun p => (p.1.1, anyPoison (slice bs (p.2 / 64 * 64) 64))

/-- The bytes before the first poisoned unit. -/
def cleanPrefix (bs : List PByte) : List PByte :=
  match bs.findIdx? (·.2) with
  | some i => bs.take (i / 64 * 64)
  | none => bs

/-- Who a transfer's scratchpad writes come from (R86). -/
def writerOf : XferOwner → SpmReq
  | .chan _ _ | .forester _ | .surveyor => .forester
  | _ => .other

/-- Count data that has arrived (R205, R268). -/
def countMoved (s : State) (o : XferOwner) (len : Nat) : State :=
  let s := modXfer s o fun x => { x with moved := x.moved + len }
  match o with
  | .bucker f => s.bump (fieldReg f Reg.BKRn_BYTE_CNT) (ceilDiv len 64)
  | _ => s.bump (fieldReg (ownerField o) Reg.SKDn_BYTE_CNT) (ceilDiv len 64)

/-- Is a checked operation's request still of the context's generation (R314)? -/
def xferGenOk (s : State) (o : XferOwner) : Bool × State :=
  match getXfer s o with
  | some x => if x.check then checkedReq s x.ctx x.gen else (true, s)
  | none => (true, s)

/-- Write bytes that have been read to their destination, or issue the write transaction: none when the pool has no room or the
scratchpad's accesses are held (R185, R203, R314, R331, R333). A destination in the register mirror or in no range of the map takes
nothing, and nothing is counted (DESIGN CHOICE, log entry 126). -/
def sendBytes (s : State) (o : XferOwner) (dst part : Nat) (bs : List PByte) (granted : Bool) : Option State :=
  let stopped (s : State) (c : Nat) : State := modXfer s o fun x => { x.fail c with refused := part :: x.refused }
  match standTarget s dst with
  | .here (.spm n x) =>
    let g := xferGenOk s o
    if spmHeld s n x bs.length then none
    else if g.1 then some (countMoved (spmWrite g.2 n x (unitPoison bs) (writerOf o)) o bs.length) else some (stopped g.2 1)
  | .here (.nm _ _) =>
    let p := ownerField o
    if mayIssue s o p granted then some (issueTxn s o p true dst dst part bs.length (unitPoison bs) none) else none
  | .here (.ws f _) => some (wsDrop s f (ownerField o))
  | .here (.host a) =>
    let good := cleanPrefix bs
    let halt (s : State) : State := if good.length < bs.length then modXfer s o fun x => { x.fail 2 with hostPoison := true } else s
    if good.isEmpty then some (halt s)
    else if !mayIssue s o 4 granted then none
    else match omapCheck s a good.length true with
      | some w => some (stopped (omapFail s w) 0x0B)
      | none => some (halt (issueTxn s o 4 true dst dst part good.length good (some (omapHost s a))))
  | .here _ => some s
  | .far d _ =>
    if (livePort s d).isNone then some (stopped s 0x08)
    else if mayIssue s o 5 granted then some (issueTxn s o 5 true dst dst part bs.length (unitPoison bs) none) else none
  | .noRoute => some (stopped ((s.bump Reg.FAB_NO_ROUTE_CNT 1).raise Reg.FAB_ERR_STATUS (bitMask 4)) 0x0B)
  | .noUnit => some (stopped s 0x0C)

/-- A read begins: the bytes at once where the source is a scratchpad or leads nowhere, or a transaction; `lost` where no port
leads to the device any more. -/
inductive ReadStart
  | got (bs : List PByte) (s : State)
  | sent (s : State)
  | full (pool : Nat)
  | lost

/-- A source in the register mirror or in no range of the map reads as poison, and nothing is counted (DESIGN CHOICE, log entry
126). -/
def startRead (s : State) (o : XferOwner) (src dst part len : Nat) (granted : Bool) : ReadStart :=
  let stopped (s : State) (c : Nat) : ReadStart := .got [] (modXfer s o fun x => { x.fail c with refused := part :: x.refused })
  let send (p : Nat) (host : Option Nat) : ReadStart :=
    if mayIssue s o p granted then .sent (issueTxn s o p false src dst part len [] host) else .full p
  match standTarget s src with
  | .here (.spm n x) =>
    if spmHeld s n x len then .full (16 + n)
    else
      let r := spmReadAsync s n x len
      .got (unitPoison r.1) r.2
  | .here (.nm _ _) | .here (.ws _ _) => send (ownerField o) none
  | .here (.host a) =>
    match omapCheck s a len false with
    | some w => stopped (omapFail s w) 0x0B
    | none => send 4 (some (omapHost s a))
  | .here _ => .got (List.replicate len (0, true)) s
  | .far d _ => if (livePort s d).isNone then .lost else send 5 none
  | .noRoute => stopped ((s.bump Reg.FAB_NO_ROUTE_CNT 1).raise Reg.FAB_ERR_STATUS (bitMask 4)) 0x0B
  | .noUnit => stopped s 0x0C

/-- Does the owner have a request in flight that still counts for it? -/
def inFlight (s : State) (o : XferOwner) : Bool := s.txns.any fun t => decide (t.owner = o) && !t.aborted

/-- Does a Stand address lead into host memory? -/
def toHost (s : State) (a : Nat) : Bool := match standTarget s a with | .here (.host _) => true | _ => false

/-- Take read bytes to their destination, or hold them for the pool behind what is held already. A transfer that has stopped
issues no further requests (R201, R257, R314, R333). -/
def passOn (s : State) (o : XferOwner) (dst part : Nat) (bs : List PByte) (granted : Bool) : State :=
  match getXfer s o with
  | none => s
  | some x =>
    if bs.isEmpty then s
    else if x.stop then setXfer s o { x with refused := part :: x.refused } else
    -- a Bucker job that moves a poisoned piece ends POISONED (R265)
    let s := match o with
      | .bucker _ => if anyPoison bs then modXfer s o fun x => if x.code = 0 then { x with code := 2 } else x else s
      | _ => s
    let hold (s : State) : State := modXfer s o fun x => { x with held := x.held ++ [(dst, bs, part)] }
    if !x.held.isEmpty then hold s
    else match sendBytes s o dst part bs granted with
      | some s => s
      | none => match poolOf o (standTarget s dst) with
        | some p => addWaiter (hold s) p o
        | none => hold s

/-- Pass on the data of an uncoded copy that lies next in order; `fuel` pieces at most. -/
def passOrdered : Nat → State → XferOwner → Bool → State
  | 0, s, _, _ => s
  | f + 1, s, o, granted =>
    match getXfer s o with
    | none => s
    | some x =>
      match x.early.find? fun e => decide (e.1 = x.dst + x.passed) with
      | none => s
      | some e =>
        let s := modXfer s o fun x => { x with passed := x.passed + e.2.length, early := x.early.erase e }
        passOrdered f (passOn s o e.1 0 e.2 granted) o granted

/-- Take the bytes that a read of an uncoded transfer brought to their destination: into host memory in order, so that what is
written before a halt is the start of the data (R333, R335). -/
def passData (s : State) (o : XferOwner) (dst part : Nat) (bs : List PByte) (granted : Bool) : State :=
  match getXfer s o with
  | none => s
  | some x =>
    if x.kind = .copy ∧ toHost s dst = true then
      passOrdered (x.early.length + 1) (setXfer s o { x with early := x.early ++ [(dst, bs)] }) o granted
    else passOn s o dst part bs granted

/-- A read whose request failed delivers its data poisoned where a poisoned unit can be written, and the transfer ends with the
status given (R251, R256, R257). -/
def lostRead (s : State) (o : XferOwner) (dst part len code : Nat) : State :=
  let s := if toHost s dst then s else passOn s o dst part (List.replicate len (0, true)) false
  modXfer s o fun x => { x.fail code with refused := part :: x.refused }

/-! ### Coded blocks (R94–R96, R105, R108, R199) -/

/-- Payload bytes a header asks for: nothing of a poisoned header, and never past the slot (R94, R96). -/
def payloadLen (hdr : List PByte) : Nat := if anyPoison hdr then 0 else min (parseHdr hdr).len 4096

/-- The lane's input queue, of four headers and 8 KiB of payload, has room for a block (R105). -/
def laneRoom (l : HLane) (hdr : List PByte) : Bool :=
  decide (l.queue.length < 4) && decide ((l.queue.map fun b => payloadLen b.hdr).sum + payloadLen hdr ≤ 8192)

/-- The core whose lanes a coded transfer uses, and its stream owner number (R101, R108). -/
def lanesOf (o : XferOwner) (x : Xfer) (stream : Nat) : Nat × Nat :=
  match o with
  | .skq n _ => (n, stream)
  | .chan _ k => (match placeOf (x.dst % 2 ^ 48) with | .spm n _ => n | _ => 16, 4 + k)
  | _ => (16, 0)

/-- Blocks of a coded transfer. -/
def xferBlocks (x : Xfer) : Nat := blockCount x.len x.k

/-- Header array of a memory-to-memory coded copy's destination: padded to whole 4 KiB units in front of its block slots, as
R193 and R215 lay a coded region out (log entry 29). -/
def copyHdrBase (x : Xfer) : Nat := x.dst - 4096 * ceilDiv (xferBlocks x) 256

/-- Open the channel's stream over the lanes of CHAN_LANES (R108), once the first header has named the stripe count
(log entry 30); it waits while the mask has too few free lanes. -/
def openChanStream (s : State) (n c : Nat) (x : Xfer) : State :=
  let h := hrw s n
  let mask := s.reg (coreReg n Reg.HRWn_LANE_CTRL)
  let free := (List.range 8).filter fun l => flag mask l && !(lanesUsed h).contains l
  if (ownerStream h (4 + c)).isSome ∨ free.length < x.k then s
  else
    let off := match placeOf (x.dst % 2 ^ 48) with | .spm _ y => y | _ => 0
    modHrw s n fun h => { h with streams := h.streams ++ [{
      num := 4 + c, chan := some c, lanes := free.take x.k, k := x.k, n := x.len, dest := .spm off, issued := 0,
      firstBlk := x.firstBlk, fed := true, claimed := 0, done := 0, row := 0, buf := [] }] }

/-- The lane that the next block of a coded transfer goes to (R95, R105): its core and its number. -/
def blockLane (s : State) (o : XferOwner) (x : Xfer) (stream : Nat) : Option (Nat × Nat) :=
  let (n, own) := lanesOf o x stream
  match ownerStream (hrw s n) own with
  | none => none
  | some st => (st.lanes[x.next % st.k]?).map fun l => (n, l)

/-- The entry of the next block in its lane's queue. -/
def isNextBlock (o : XferOwner) (x : Xfer) (stream : Nat) (b : HBlock) : Bool :=
  decide (b.owner = (lanesOf o x stream).2) && decide (b.blk = x.firstBlk + x.next) && !b.ready

/-- A block's header enters its lane's queue (R101, R105); false while the queue has no room, or no stream is open. -/
def blockEnter (s : State) (o : XferOwner) (x : Xfer) (stream : Nat) (hdr : List PByte) : State × Bool :=
  match blockLane s o x stream with
  | none => (s, false)
  | some (n, l) =>
    let la := hlane (hrw s n) l
    if la.queue.any (isNextBlock o x stream) then (s, true)
    else if laneRoom la hdr then
      (setLane s n l { la with queue := la.queue ++ [⟨(lanesOf o x stream).2, x.firstBlk + x.next, hdr, [], false⟩] }, true)
    else (s, false)

/-- The header that a coded copy writes into host memory: `POISON` is set where its block was read poisoned (R110, R333). -/
def hostHdr (hdr : List PByte) (bad : Bool) : List PByte :=
  if bad then (buildHdr { parseHdr hdr with poison := true }).map fun b => (b, false) else hdr

/-- A block whose header and payload are here is complete: in its lane, or on its way to the copy's destination. A copy into host
memory carries poison in the header and never halts (R333). -/
def blockArrived (s : State) (o : XferOwner) (x : Xfer) (hdr : List PByte) : State :=
  let advance (s : State) : State := modXfer s o fun x => { x with next := x.next + 1, blkHdr := none, blkGot := [] }
  match x.kind with
  | .blocksIn stream =>
    match blockLane s o x stream with
    | none => s
    | some (n, l) =>
      let la := hlane (hrw s n) l
      let s := setLane s n l { la with
        queue := mapIf (isNextBlock o x stream) (fun b => { b with payload := x.blkGot, ready := true }) la.queue }
      advance (countMoved s o x.blkGot.length)
  | .blocksCopy =>
    let b := x.firstBlk + x.next
    let bad := anyPoison hdr || anyPoison x.blkGot
    let toH (a : Nat) : Bool := toHost s a
    let data (i : Nat) : List PByte :=
      let d := slice x.blkGot (512 * i) 512
      if toH x.dst then d.map fun p => (p.1, false) else d
    let s := passOn s o (copyHdrBase x + 16 * b) 0 (if toH (copyHdrBase x) then hostHdr hdr bad else hdr) false
    let s := (List.range (ceilDiv x.blkGot.length 512)).foldl (fun s i => passOn s o (x.dst + 4096 * b + 512 * i) 0 (data i) false) s
    advance s
  | _ => s

/-- The next step of a coded transfer's read side: a header, its entry into a lane, a payload request, or the block's end. -/
def blockStep (s : State) (o : XferOwner) (x : Xfer) (granted : Bool) : State × Bool :=
  let b := x.firstBlk + x.next
  let absorb (s : State) (r : ReadStart) (len : Nat) (keep : List PByte → Xfer → Xfer) : State × Bool :=
    match r with
    | .got bs s => (modXfer s o (keep bs), true)
    | .sent s => (s, true)
    | .full p => (addWaiter s p o, false)
    | .lost => (modXfer s o fun x => (keep (List.replicate len (0, true)) x).fail 0x08, true)
  if inFlight s o ∨ !x.held.isEmpty ∨ xferBlocks x ≤ x.next then (s, false)
  else match x.blkHdr with
    | none => absorb s (startRead s o (x.hdr + 16 * b) 0 0 16 granted) 16 fun bs x => { x with blkHdr := some bs }
    | some hdr =>
      -- a channel transfer takes its stripe count from its first header
      let s := match o with
        | .chan _ _ => if x.next = 0 ∧ x.blkGot.isEmpty then
            modXfer s o fun x => { x with k := if anyPoison hdr then 1 else 2 ^ (parseHdr hdr).stripe } else s
        | _ => s
      let x := (getXfer s o).getD x
      let s := match o, x.kind with
        | .chan _ c, .blocksIn _ => let n := (lanesOf o x 0).1; if n < 16 then openChanStream s n c x else s
        | _, _ => s
      let r := match x.kind with
        | .blocksIn stream => blockEnter s o x stream hdr
        | _ => (s, true)
      if !r.2 then r
      else if x.blkGot.length < payloadLen hdr then
        let m := min 512 (payloadLen hdr - x.blkGot.length)
        absorb r.1 (startRead r.1 o (x.src + 4096 * b + x.blkGot.length) 0 0 m granted) m fun bs x => { x with blkGot := x.blkGot ++ bs }
      else
        let s' := blockArrived r.1 o x hdr
        (s', (getXfer s' o).map (·.next) != some x.next)

/-! ### The encoder's blocks (R109–R111, R160) -/

/-- A finished block goes to the transfer that takes it. -/
def deliverBlock (s : State) (o : XferOwner) (b : EncOut) : State :=
  let mark (l : List Byte) : List PByte := l.map fun x => (x, false)
  let s := modXfer s o fun x => { x with k := b.k, next := x.next + 1 }
  match getXfer s o with
  | none => s
  | some x =>
    let s := (List.range (ceilDiv b.payload.length 512)).foldl (fun s i =>
      passOn s o (x.dst + 4096 * b.blk + 512 * i) 0 (mark (slice b.payload (512 * i) 512)) false) s
    passOn s o (x.hdr + 16 * b.blk) 0 (mark b.hdr) false

/-- The oldest STREAM_OUT of core n with blocks still to take takes the ENCODE's finished block, unless it still holds data of an
earlier one: the queue has no room for it then (R109). -/
def encDeliver (s : State) (n : Nat) : State :=
  match (hrw s n).encOut with
  | [] => s
  | b :: rest =>
    match (s.skq n).find? fun q => decide (q.xfer.kind = .blocksOut) && decide (q.xfer.next < blockCount q.xfer.len b.k) with
    | none => s
    | some q => if q.xfer.held.isEmpty then deliverBlock (modHrw s n fun h => { h with encOut := rest }) (.skq n q.idx) b else s

/-! ### Moving a transfer on -/

/-- Bytes of the next request of an uncoded copy: 512 at most, within one aligned 512-byte unit at either end, so that no request
reaches into another memory's slot (R18, R203). -/
def copyPiece (x : Xfer) : Nat :=
  min (x.len - x.next) (min (512 - (x.src + x.next) % 512) (512 - (x.dst + x.next) % 512))

/-- One step of a transfer: a held write, the next piece, or the next block. False when nothing more can be done now. -/
def moveOn (s : State) (o : XferOwner) (granted : Bool) : State × Bool :=
  match getXfer s o with
  | none => (s, false)
  | some x =>
    if x.stop then (s, false)
    else match x.held with
      | (dst, bs, part) :: rest =>
        match sendBytes s o dst part bs granted with
        | some s => (modXfer s o fun x => { x with held := rest }, true)
        | none => (match poolOf o (standTarget s dst) with | some p => addWaiter s p o | none => s, false)
      | [] =>
        match x.kind with
        | .copy =>
          if x.len ≤ x.next then (s, false)
          else
            let m := copyPiece x
            let dst := x.dst + x.next
            let past (s : State) : State := modXfer s o fun x => { x with next := x.next + m }
            match startRead s o (x.src + x.next) dst 0 m granted with
            | .full p => (addWaiter s p o, false)
            | .sent s => (past s, true)
            | .got bs s => (passData (past s) o dst 0 bs granted, true)
            | .lost => (lostRead (past s) o dst 0 m 0x08, true)
        | .pieces (p :: rest) =>
          let past (s : State) : State := modXfer s o fun x => { x with kind := .pieces rest }
          match startRead s o p.src p.dst p.part p.len granted with
          | .full q => (addWaiter s q o, false)
          | .sent s => (past s, true)
          | .got bs s => (passData (past s) o p.dst p.part bs granted, true)
          | .lost => (lostRead (past s) o p.dst p.part p.len 0x08, true)
        | .blocksIn _ | .blocksCopy => blockStep s o x granted
        | _ => (s, false)

/-- Move a transfer on until it can do no more now; `fuel` steps at most. -/
def pump : Nat → State → XferOwner → State
  | 0, s, _ => s
  | f + 1, s, o =>
    let r := moveOn s o false
    if r.2 then pump f r.1 o else r.1

/-- Steps that a transfer can need. -/
def pumpFuel (x : Xfer) : Nat :=
  match x.kind with
  | .pieces l => 3 * l.length + 8
  | _ => 12 * (x.len / 512 + 1) + 3 * x.held.length + 64

def pumpAll (s : State) (o : XferOwner) : State :=
  let s := match getXfer s o with
    | some x => if s.waiters.any fun w => decide (w.2 = o) then s else pump (pumpFuel x) s o
    | none => s
  match o with
  | .skq n _ => encDeliver s n
  | _ => s

/-- Transfers that waited for core n's scratchpad run on: its domain is ON again, its Field ready, its sweep over (R89, R351, R393). -/
def pumpScratch (s : State) (n : Nat) : State :=
  let l := s.waiters.filter fun w => decide (w.1 = 16 + n)
  l.foldl (fun s w => pumpAll s w.2) { s with waiters := s.waiters.filter fun w => decide (w.1 ≠ 16 + n) }

/-- BUDGET_GRANT (R204): the first requester waiting for the pool issues one request, and waits again for its next; the
cycles it waited are counted for a Field pool. -/
def budgetGrant (s : State) (p cycles : Nat) : State :=
  match s.waiters.find? fun w => decide (w.1 = p) && decide (p < 6) with
  | none => s
  | some w =>
    let s := if p < 4 then s.bump (fieldReg p Reg.SKDn_BUDGET_WAIT_CNT) cycles else s
    if poolUsed s p + 32 < poolSize s p then
      let s := { s with waiters := s.waiters.erase w }
      let r := moveOn s w.2 true
      if r.2 then
        if r.1.waiters.any fun v => decide (v.1 = p) then
          match getXfer r.1 w.2 with
          | some x => if x.stop then r.1 else addWaiter r.1 p w.2
          | none => r.1
        else pumpAll r.1 w.2
      else r.1
    else s

/-! ### Replies (R186, R201, R211, R257, R314, R331, R350, R351) -/

/-- The Field whose memory a local request targets. -/
def txnField (s : State) (t : Txn) : Option Nat :=
  match standTarget s t.addr with
  | .here (.nm f _) | .here (.ws f _) => some f
  | _ => none

/-- A reply cannot come yet: the target Field is resetting (R351), its domain is not ON (R393), its channel is under repair (R325),
or the page has not been read (R211). -/
def replyHeld (s : State) (t : Txn) : Bool :=
  (match standTarget s t.addr with | .here (.nm f x) => nmHeld s f x t.len | _ => false)
  || (match standTarget s t.addr with | .here pl => !placeOn s pl | _ => false)
  || (match txnField s t with
    | some f => fieldPresent s f && fieldResetting s f
    | none => false)
  || (match standTarget s t.addr with
    | .here (.ws f x) => !t.write && wsReadable s f x t.len && !t.ready
    | _ => false)

/-- What a read brings back. -/
def replyBytes (s : State) (t : Txn) (status : ReplyStatus) (data : List PByte) : List PByte × State :=
  let rf := ownerField t.owner
  let given : List PByte := ((data ++ List.replicate t.len ((0, false) : PByte)).take t.len).map fun (b : PByte) => (b.1, b.2 || decide (status ≠ ReplyStatus.ok))
  match standTarget s t.addr with
  | .here (.nm f x) => nmRead s f x t.len rf
  | .here (.ws f x) => if wsReadable s f x t.len then (t.data, s) else (List.replicate t.len (0, true), wsDrop s f rf)
  | _ => (given, s)

/-- The status with which a transfer ends after a failed request (R253, R257). -/
def failCode : ReplyStatus → Nat
  | .refused => 0x06
  | .hopDrop => 0x0B
  | _ => 0

/-- A read reply is taken by its transfer. -/
def takeRead (s : State) (t : Txn) (bs : List PByte) : State :=
  match getXfer s t.owner with
  | none => s
  | some x =>
    match x.kind with
    | .blocksIn _ | .blocksCopy =>
      match x.blkHdr with
      | none => modXfer s t.owner fun x => { x with blkHdr := some bs }
      | some _ => modXfer s t.owner fun x => { x with blkGot := x.blkGot ++ bs }
    | _ => passData s t.owner t.dst t.part bs false

/-- A read's request failed (R251, R253, R257): what it was to bring is lost, and the transfer ends with a status. -/
def failRead (s : State) (t : Txn) (code : Nat) : State :=
  match getXfer s t.owner with
  | some x => match x.kind with
    | .blocksIn _ | .blocksCopy => modXfer (takeRead s t (List.replicate t.len (0, true))) t.owner fun x => x.fail code
    | _ => lostRead s t.owner t.dst t.part t.len code
  | none => s

/-- A write reply: a local or host write is performed now, and the data has arrived. -/
def takeWrite (s : State) (t : Txn) : State :=
  match standTarget s t.addr with
  | .here (.nm f x) =>
    let g := xferGenOk s t.owner
    if g.1 then countMoved (nmWrite g.2 f x t.data (ownerField t.owner)) t.owner t.len
    else modXfer g.2 t.owner fun x => { x.fail 1 with refused := t.part :: x.refused }
  | .here (.host _) =>
    let g := xferGenOk s t.owner
    if g.1 then countMoved (g.2.emit (.host (t.host.getD 0) (plain t.data))) t.owner t.len
    else modXfer g.2 t.owner fun x => { x.fail 1 with refused := t.part :: x.refused }
  | .far _ _ =>
    let s := countMoved s t.owner t.len
    match t.owner with
    | .bucker f => s.bump (fieldReg f Reg.BKRn_REMOTE_BYTE_CNT) (ceilDiv t.len 64)
    | _ => s
  | _ => s

/-- A write of the Surveyor's to another device has ended (R260, R261). -/
def headAck (s : State) (id : Nat) (refused : Bool) : State :=
  { s with headWrites := mapIf (fun w => decide (w.id = some id)) (fun w => { w with done := true, refused }) s.headWrites }

/-- MEMORY_REPLY: the reply to request id arrives. -/
def memoryReply (s : State) (id : Nat) (status : ReplyStatus) (data : List PByte) : State :=
  match s.txns.find? fun t => decide (t.id = id) with
  | none => s
  | some t =>
    let f := ownerField t.owner
    let free (s : State) : State := { s with txns := s.txns.filter (fun u => decide (u.id ≠ id)),
                                             omapMarks := s.omapMarks.filter (· ≠ id) }
    if t.gen ≠ ownerGen s t.owner then
      (match t.owner with | .surveyor => free s | _ => (free s).bump (fieldReg f Reg.FLDn_STALE_REPLY_CNT) 1)
    else if t.owner = .surveyor then headAck (free s) id (decide (status = .refused))
    else if t.aborted then (free s).bump (fieldReg f Reg.SKDn_LATE_REPLY_CNT) 1
    else if replyHeld s t then s
    else
      let s := free s
      let s :=
        if failCode status ≠ 0 then
          if t.write then modXfer s t.owner fun x => { x.fail (failCode status) with refused := t.part :: x.refused }
          else failRead s t (failCode status)
        else if t.write then takeWrite s t
        else
          let r := replyBytes s t status data
          let g := xferGenOk r.2 t.owner
          if g.1 then takeRead g.2 t r.1 else modXfer g.2 t.owner fun x => { x.fail 1 with refused := t.part :: x.refused }
      pumpAll s t.owner

/-! ### Starting and ending transfers -/

/-- A status that stops a transfer before it moves a byte (R185, R253): the ranges it reads and writes. -/
def rangeCode (s : State) (a len : Nat) (write : Bool) : Option (Nat × State) :=
  match standTarget s a with
  | .noUnit => some (0x0C, s)
  | .noRoute => some (0x0B, (s.bump Reg.FAB_NO_ROUTE_CNT 1).raise Reg.FAB_ERR_STATUS (bitMask 4))
  | .here _ =>
    -- a range that reaches outbound space from below lies partly outside it
    if 0x800000000000 < a % 2 ^ 48 + len then (omapCheck s (a % 2 ^ 48) len write).map fun w => (0x0B, omapFail s w) else none
  | _ => none

/-- The ranges of a transfer: address, length, whether it is written. -/
def xferRanges (x : Xfer) : List (Nat × Nat × Bool) :=
  let n := xferBlocks x
  let coded (b h : Nat) (w : Bool) : List (Nat × Nat × Bool) :=
    [(h + 16 * x.firstBlk, 16 * n, w), (b + 4096 * x.firstBlk, 4096 * n, w)]
  match x.kind with
  | .copy => [(x.src, x.len, false), (x.dst, x.len, true)]
  | .blocksIn _ => coded x.src x.hdr false
  | .blocksOut => coded x.dst x.hdr true
  | .blocksCopy => coded x.src x.hdr false ++ coded x.dst (copyHdrBase x) true
  | .pieces l => l.flatMap fun p => [(p.src, p.len, false), (p.dst, p.len, true)]
  | _ => []

/-- The checks before a transfer moves any byte: the transfer as it starts. -/
def startXfer (s : State) (x : Xfer) : Xfer × State :=
  if x.stop then (x, s)
  else match (xferRanges x).findSome? fun r => rangeCode s r.1 r.2.1 r.2.2 with
  | some (c, s) => (x.fail c, s)
  | none =>
    if x.check then
      let g := checkedStart s x.ctx x.gen
      if g.1 then ({ x with counted := true }, g.2) else (x.fail 1, g.2)
    else (x, s)

/-- Everything a transfer had to do is done (R161, R257, R314). -/
def xferComplete (s : State) (o : XferOwner) (x : Xfer) : Bool :=
  !inFlight s o && (x.stop || (x.held.isEmpty && match x.kind with
    | .copy => decide (x.len ≤ x.next)
    | .pieces l => l.isEmpty
    | .blocksIn _ => decide (xferBlocks x ≤ x.next) && (match o with
        | .chan _ c => (ownerStream (hrw s (lanesOf o x 0).1) (4 + c)).isNone
        | _ => true)
    | .blocksOut | .blocksCopy => decide (xferBlocks x ≤ x.next)
    | .fetch _ | .kv | .kvWrite .. | .kvCompact .. => false))

/-- OUTSTANDING is given back when a counted operation completes (R314). -/
def uncount (s : State) (x : Xfer) : State := if x.counted then outstanding s x.ctx (· - 1) else s

/-- Requests and waits of an owner end: replies still to come are dropped (R201). -/
def dropRequests (s : State) (o : XferOwner) : State :=
  { s with txns := mapIf (fun t => decide (t.owner = o)) (fun t => { t with aborted := true }) s.txns,
           waiters := s.waiters.filter fun w => decide (w.2 ≠ o) }

/-- An entry of core n's Skidder queue ends with a status (R161). -/
def finishSkq (s : State) (n e code : Nat) : State :=
  match (s.skq n).find? fun q => decide (q.idx = e) with
  | none => s
  | some q =>
    let s := dropRequests s (.skq n e)
    let s := s.setSkq n ((s.skq n).filter fun q => decide (q.idx ≠ e))
    let s := uncount s q.xfer
    let s := s.bump (fieldReg (n / 4) Reg.SKDn_XFER_CNT) 1
    let s := if code = 0 then s else
      let s := s.setReg (coreReg n Reg.COREn_SKQ_STATUS) (BitVec.ofNat 32 (1 <<< 31 + e <<< 8 + code))
      let s := s.bump (coreReg n Reg.COREn_SKQ_ERR_CNT) 1
      s.raise (coreReg n Reg.COREn_EVENT_PEND) (bitMask 7)
    match q.xfer.sem with
    | some k => semPost s k 1
    | none => s

/-- SKIDDER_TRANSFER_COMPLETE: entry e of core n's queue completes when its work is done (R161, R314, R333). -/
def skqComplete (s : State) (n e : Nat) : State :=
  match (s.skq n).find? fun q => decide (q.idx = e) with
  | some q => if xferComplete s (.skq n e) q.xfer then finishSkq s n e q.xfer.code else s
  | none => s

/-- Drop a channel's stream, the blocks its lanes hold, and its encoder job (R108, R111). -/
def dropChanCoding (s : State) (c : Nat) (x : Xfer) : State :=
  let off (s : State) (a : Nat) : State := match placeOf (a % 2 ^ 48) with
    | .spm n _ => modHrw s n fun h => { h with
        streams := h.streams.filter fun y => decide (y.chan ≠ some c),
        lanes := h.lanes.map fun l => {
          queue := l.queue.filter fun b => decide (b.owner ≠ 4 + c),
          cur := l.cur.filter fun b => decide (b.1.owner ≠ 4 + c) },
        chanEncs := h.chanEncs.filter fun y => decide (y.chan ≠ some c) }
    | _ => s
  off (off s x.dst) x.src

/-- The transfer of channel k ends with a status (R199, R333). -/
def finishChan (s : State) (f k code : Nat) : State :=
  match (s.chan f k).cur with
  | none => s
  | some x =>
    let s := dropRequests s (.chan f k)
    let s := dropChanCoding s k x
    let s := match (s.chan f k).purpose with
      | some p => { s with fwDone := s.fwDone ++ [(p, code, x.moved)] }
      | none => s
    let s := s.setChan f k { s.chan f k with cur := none, purpose := none, code, halted := x.hostPoison && decide (code = 2) }
    let s := uncount s x
    let s := s.bump (fieldReg f Reg.SKDn_XFER_CNT) 1
    let s := if x.hostPoison && decide (code = 2) then s.raise (fieldReg f Reg.SKDn_ERR_STATUS) (bitMask 1) else s
    match x.sem with
    | some i => semPost s i 1
    | none => s

/-- A channel's transfer completes when its work is done (R199). -/
def chanComplete (s : State) (f k : Nat) : State :=
  match (s.chan f k).cur with
  | some x => if xferComplete s (.chan f k) x then finishChan s f k x.code else s
  | none => s

/-! ### Channels (R199–R201, R334) -/

/-- A post: the write of the high word queues the record (R199). -/
def chanPost (s : State) (f k : Nat) (hi : Word) : State :=
  let a := (s.reg (fieldReg f (Reg.SKDn_CHk_POST_LO + 8 * k))).toNat / 64 * 64 + bits hi 15 0 <<< 32
  let c := s.chan f k
  if c.queue.length < 8 then s.setChan f k { c with queue := c.queue ++ [.record a] }
  else s.raise (fieldReg f Reg.SKDn_ERR_STATUS) (bitMask 2)

/-- How a read that the Forester of a Field makes ends. -/
inductive FwRead
  | got (bs : List PByte) (s : State)
  /-- the bytes cannot be read (R199) -/
  | none (s : State)
  /-- the access waits: for the budget (R203), for a sweep (R89), for its memory (R325, R351, R393) -/
  | wait (s : State)

/-- The Forester of Field f waits for a domain: the access is counted once (R393). -/
def fwWait (s : State) (f p : Nat) (off : Bool) : State :=
  if s.waiters.contains (p, .forester f) then s
  else
    let s := { s with waiters := s.waiters ++ [(p, .forester f)] }
    if off then offAccess s else s

/-- What the Forester of Field f waited for has come. -/
def fwServed (s : State) (f : Nat) : State :=
  { s with waiters := s.waiters.filter fun w => decide (w.2 ≠ .forester f) }

/-- The Forester of Field f reads bytes that firmware names by device-physical address (R199, R203, R336): its transaction of the
pool begins and ends with the read. Bytes in host memory are what the host answers. Numbers 16 + core and 48 + Field stand for
memories that it waits for. -/
def readRecord (s : State) (f a len : Nat) (host : List PByte) : FwRead :=
  match placeOf a with
  | .nm g x =>
    if !mayIssue s (.forester f) f true then .wait s
    else if nmHeld s g x len then .wait (fwWait s f (48 + g) (!nmOn s g))
    else
      let r := nmRead s g x len f
      if nmPopulated s g x && nmPopulated s g (x + len - 1) then .got r.1 (fwServed r.2 f) else .none (fwServed r.2 f)
  | .ws g x => .none (if wsReadable s g x len then s else wsDrop s g f)
  | .spm n x =>
    if spmHeld s n x len then .wait (fwWait s f (16 + n) (!domOn s (3 * n + 2)))
    else
      let r := spmReadAsync s n x len
      if corePresent s n && decide (x + len ≤ spmSize) then .got r.1 (fwServed r.2 f) else .none (fwServed r.2 f)
  | .host _ =>
    match omapCheck s a len false with
    | some _ => .none s
    | Option.none => if mayIssue s (.forester f) 4 true then .got ((host ++ List.replicate len (0, false)).take len) s else .wait s
  | _ => .none s

/-- The transfer a channel record describes (R160, R199). One whose length is not a multiple of 64 bytes moves nothing and ends with
BAD_DESCRIPTOR; its semaphore is known, and is posted. -/
def parseChanRec (b : List Byte) : Xfer :=
  let src := leField b 0 8 % 2 ^ 52
  let dst := leField b 8 8 % 2 ^ 52
  let len := leField b 16 4
  let sem := leField b 36 2
  let fl := leField b 38 1
  let gen := leField b 34 2
  let isSpm (a : Nat) : Bool := match placeOf (a % 2 ^ 48) with | .spm _ _ => true | _ => false
  let kind : XferKind := if !natBit fl 0 then .copy
    else if isSpm dst then .blocksIn 0 else if isSpm src then .blocksOut else .blocksCopy
  let x : Xfer := {
    kind, src, dst, len, hdr := leField b 24 8 % 2 ^ 52, firstBlk := leField b 20 4, ctx := leField b 32 2,
    gen := gen % 4096, check := natBit gen 15, rawOnly := natBit fl 1, tslot := natBits fl 7 4,
    sem := if natBit sem 15 then some (sem % 4096) else none }
  if len % 64 = 0 then x else x.fail 0x0B

/-- A coded channel transfer out joins the encoder of its scratchpad's core (R111). -/
def joinEncoder (s : State) (k : Nat) (x : Xfer) : State :=
  match x.kind, placeOf (x.src % 2 ^ 48) with
  | .blocksOut, .spm n y => if x.stop ∨ x.len = 0 then s else modHrw s n fun h => { h with chanEncs := h.chanEncs ++ [{
      chan := some k, src := y, n := x.len, k := 1, slot := if x.rawOnly then none else some x.tslot,
      firstBlk := x.firstBlk, done := 0, issued := 0, raw := [] }] }
  | _, _ => s

/-- A transfer starts on channel k of Field f. -/
def chanRun (s : State) (f k : Nat) (x : Xfer) (p : Option Purpose) : State :=
  let r := startXfer s x
  let s := r.2.setChan f k { r.2.chan f k with cur := some r.1, purpose := p }
  pumpAll (joinEncoder s k r.1) (.chan f k)

/-- CHANNEL_RECORD_START: channel k of Field f reads and starts its next record (R199, R314). -/
def chanStart (s : State) (f k : Nat) (host : List PByte) : State :=
  let c := s.chan f k
  let next (s : State) (rest : List ChanItem) : State := s.setChan f k { s.chan f k with queue := rest }
  let bad (s : State) (code : Nat) : State :=
    (s.setChan f k { s.chan f k with code }).raise (fieldReg f Reg.SKDn_ERR_STATUS) (bitMask 3)
  if fieldInReset s f then s else match c.cur, c.halted, c.queue with
  | none, false, .fw x p :: rest => chanRun (next s rest) f k x (some p)
  | none, false, .record a :: rest =>
    match readRecord s f a 64 host with
    | .wait s => s
    | .none s => bad (next s rest) 0x0B
    | .got b s => if anyPoison b then bad (next s rest) 0x02 else chanRun (next s rest) f k (parseChanRec (plain b)) none
  | _, _, _ => s

/-- SKDn_ABORT (R201, R334). -/
def skidderAbort (s : State) (f : Nat) (v : Word) : State :=
  let num := bits v 27 24
  if flag v 30 then
    let n := 4 * f + bits v 29 28
    if (s.skq n).any fun q => decide (q.idx = num) then
      (finishSkq s n num 0x01).bump (fieldReg f Reg.SKDn_ABORT_CNT) 1
    else s
  else
    let c := s.chan f num
    if c.halted then s.setChan f num { c with halted := false }
    else if c.cur.isSome then (finishChan s f num 0x01).bump (fieldReg f Reg.SKDn_ABORT_CNT) 1
    else s

/-- The owner that SKDn_ABORT's and SKDn_STALL_INFO's fields name. -/
def namedOwner (f : Nat) (coreQ : Bool) (core num : Nat) : XferOwner :=
  if coreQ then .skq (4 * f + core % 4) (num % 16) else .chan f (num % 16)

/-- A transfer waits for the budget: it has no transaction outstanding, and does not stall (R204). -/
def budgetWait (s : State) (o : XferOwner) : Bool :=
  !inFlight s o && s.waiters.any fun w => decide (w.2 = o) && decide (w.1 < 6)

/-- TRANSFER_STALL: a transfer has made no progress for the time in SKDn_WDOG (R200). -/
def transferStall (s : State) (f : Nat) (coreQ : Bool) (core num : Nat) : State :=
  let o := namedOwner f coreQ core num
  match getXfer s o with
  | none => s
  | some x =>
    if x.stalled ∨ budgetWait s o = true ∨ bits (s.reg (fieldReg f Reg.SKDn_WDOG)) 23 0 = 0 then s
    else
      let s := setXfer s o { x with stalled := true }
      let s := s.raise (fieldReg f Reg.SKDn_ERR_STATUS) (bitMask 0)
      let s := s.setReg (fieldReg f Reg.SKDn_STALL_INFO)
        (BitVec.ofNat 32 (1 <<< 31 + coreQ.toNat <<< 30 + (if coreQ then core % 4 else 0) <<< 28 + (num % 16) <<< 24))
      s.bump (fieldReg f Reg.SKDn_STALL_CNT) 1

/-- TRANSFER_RESUME: progress resumes, and the channel or entry is RUNNING again (R200). -/
def transferResume (s : State) (f : Nat) (coreQ : Bool) (core num : Nat) : State :=
  modXfer s (namedOwner f coreQ core num) fun x => { x with stalled := false }

/-- ENCODE_BLOCK_DONE: the encoder of core n finishes a block, which goes to the core's Skidder queue or to the channel whose
transfer it is (R109–R111). Outside RUNNING the ENCODE's source has all been read (log entry 114); a channel's next block waits
while the channel still holds data of the one before. -/
def encodeBlockDone (s : State) (n : Nat) : State :=
  let s := if (s.core n).seq = .running then s else encRead s n none
  let busy := match (encJob (hrw s n)).bind (·.chan) with
    | some k => match getXfer s (.chan (n / 4) k) with
      | some x => !x.held.isEmpty
      | none => false
    | none => false
  if busy then s
  else match encodeNext s n with
    | none => s
    | some (b, some k, s) => match getXfer s (.chan (n / 4) k) with
      | some x => if x.stop then s else deliverBlock s (.chan (n / 4) k) b
      | none => s
    | some (b, none, s) => encDeliver (modHrw s n fun h => { h with encOut := h.encOut ++ [b] }) n

/-- HST_OMAP_SYNC: a check starts over every request now in flight through the map (R186). -/
def omapSync (s : State) (v : Word) : State :=
  if flag v 0 then { s with omapMarks := (s.txns.filter fun t => t.host.isSome).map (·.id) } else s

/-- Move on every transfer that may wait for room in core n's lanes, or for lanes (R105, R108). -/
def pumpCore (s : State) (n : Nat) : State :=
  let s := (s.skq n).foldl (fun s q => pumpAll s (.skq n q.idx)) s
  (List.range 16).foldl (fun s k => pumpAll s (.chan (n / 4) k)) s

/-! ### A core's queue (R161) -/

/-- A write to CHAN_LANES: coded transfers that wait for lanes go on (R108). -/
def chanLanes (s : State) (n : Nat) (v : Word) : State := pumpCore (chanLanesWrite s n v) n

/-- The lowest free entry number. -/
def freeEntry (s : State) (n : Nat) : Option Nat := firstBelow 16 fun e => !(s.skq n).any fun q => decide (q.idx = e)

/-- Take an entry at issue. -/
def skqAdd (s : State) (n : Nat) (x : Xfer) : State :=
  match freeEntry s n with
  | none => s
  | some e => pumpAll (s.setSkq n (s.skq n ++ [⟨e, x⟩])) (.skq n e)

end Sys2Proof.Machine
end

