-- ==== Sys2Proof/Machine/Vector.lean ====
section
/-! DEFINITION. The Vector Unit and the Scale History Table (R58–R66, R138, R155–R157, R332). -/

namespace Sys2Proof.Machine

/-! ### Scale History Table -/

/-- Word w of entry e (R58). -/
def shtWord (s : State) (n e w : Nat) : Word := storeGet 0 (s.core n).sht (16 * e + w)
def setSht (s : State) (n e w : Nat) (v : Word) : State :=
  s.modCore n fun c => { c with sht := storeSet 0 c.sht (16 * e + w) v }

def shtFmt (s : State) (n e : Nat) : Nat := bits (shtWord s n e 12) 8 6
def shtCount (s : State) (n e : Nat) : Nat := bits (shtWord s n e 12) 20 16

/-- The quantised format of an `FMT` code (R58); 6 and 7 are reserved. -/
def shtFormat : Nat → Option EFmt
  | 0 => some .int8 | 1 => some .int4 | 2 => some .e4m3 | 3 => some .e5m2 | 4 => some .e2m1 | 5 => some .bf16
  | _ => none

/-- History slot k: a BF16 value (R58). -/
def shtHist (s : State) (n e k : Nat) : Nat :=
  let w := shtWord s n e (k % 16 / 2)
  if k % 2 = 0 then bits w 15 0 else bits w 31 16

/-- Step 2 of R60: recompute CUR_SCALE and CUR_INV. -/
def shtScale (s : State) (n e : Nat) : State :=
  let w12 := shtWord s n e 12
  let cnt := bits w12 20 16
  let ptr := bits w12 15 12
  let win := bits w12 3 0 + 1
  if shtFmt s n e = 5 then setSht (setSht s n e 9 0x3F800000) n e 10 0x3F800000
  else
    let u := (List.range (min win cnt)).foldl (fun u k => bf16Max u (shtHist s n e (ptr + 16 - 1 - k))) 0
    let uv := fdecode fmtBF16 u
    let seed := shtWord s n e 11
    if uv.isZero then
      setSht (setSht s n e 9 seed) n e 10 (enc32 (Config.nanBits 60 seed.toNat 0) (fdivSticky fone (dec32 seed)))
    else
      let f := efmtMax ((shtFormat (shtFmt s n e)).getD .int8)
      let uh := fmul uv (.fin false 1 (bits w12 5 4))
      let sc := enc32 (Config.nanBits 60 u 1) (fdivSticky uh f)
      let iv := enc32 (Config.nanBits 60 u 2) (fdivSticky f uh)
      setSht (setSht s n e 9 sc) n e 10 iv

/-- PUSH (R60): record, then recompute the scale. -/
def shtPush (s : State) (n e : Nat) (v : Option Word) : State :=
  let x := (v.getD (shtWord s n e 8))
  let w12 := shtWord s n e 12
  let ptr := bits w12 15 12
  let b := bf16Up (dec32 x)
  let hw := shtWord s n e (ptr / 2)
  let s := setSht s n e (ptr / 2) (if ptr % 2 = 0 then setBits hw 15 0 b else setBits hw 31 16 b)
  let s := setSht s n e 12 (setBits (setBits w12 15 12 ((ptr + 1) % 16)) 20 16 (min (bits w12 20 16 + 1) 16))
  let s := setSht s n e 8 0
  let s := setSht s n e 13 (setBits (shtWord s n e 13) 15 0 0)
  shtScale s n e

/-- Count k elements into an entry's OVF_CNT and note a threshold crossing (R59, R65). -/
def shtOverflow (s : State) (n e k : Nat) : State :=
  if k = 0 then s else
  let w := shtWord s n e 13
  let before := bits w 15 0
  let after := satAdd16 before k
  let thr := bits w 31 16
  let s := setSht s n e 13 (setBits w 15 0 after)
  let s := s.bump (coreReg n Reg.VUn_SAT_TOTAL_CNT) k
  if thr ≠ 0 ∧ before < thr ∧ thr ≤ after then
    let o := coreReg n Reg.VUn_SHT_STATUS
    if flag (s.reg o) 0 then (if bits (s.reg o) 15 8 = e then s else s.raise o (bitMask 1))
    else s.setReg o (setBits (s.reg o ||| bitMask 0) 15 8 e)
  else s

/-- A seed is legal when positive, finite and normal (R61, R64). -/
def seedLegal (w : Word) : Bool := !flag w 31 && decide (0 < bits w 30 23) && decide (bits w 30 23 < 255)

/-- LATCH (R64): a snapshot of the indexed entry into the data registers. -/
def shtLatch (s : State) (n : Nat) : State :=
  let e := bits (s.reg (coreReg n Reg.VUn_SHT_INDEX)) 7 0
  (List.range 16).foldl (fun st w => st.setReg (coreReg n (Reg.VUn_SHT_DATAw + 4 * w)) (shtWord s n e w)) s

/-- COMMIT (R64): refused while the Sequencer runs, for a reserved format, a count above 16 or an illegal seed. -/
def shtCommit (s : State) (n : Nat) : State :=
  let e := bits (s.reg (coreReg n Reg.VUn_SHT_INDEX)) 7 0
  let d (w : Nat) : Word := s.reg (coreReg n (Reg.VUn_SHT_DATAw + 4 * w))
  if seqRunning s n || decide (5 < bits (d 12) 8 6) || decide (16 < bits (d 12) 20 16) || !seedLegal (d 11) then
    s.raise (coreReg n Reg.VUn_SHT_STATUS) (bitMask 2)
  else
    let s := [0, 1, 2, 3, 4, 5, 6, 7, 8, 11, 12, 13, 14, 15].foldl (fun st w =>
      setSht st n e w (match w with
        | 12 => d 12 &&& 0x001FF1FF
        | 14 => d 14 &&& 0xFFFF
        | 15 => 0
        | w => d w)) s
    shtScale s n e

/-! ### Elements -/

/-- The fields of the Vector Unit slot (R155). -/
structure VuSlot where
  op : Nat
  dreg : Nat
  areg : Nat
  x : Nat
  nm1 : Nat
  deriving DecidableEq, Repr

def vuSlot (v : Nat) : VuSlot :=
  ⟨natBits v 39 34, natBits v 33 29, natBits v 28 24, natBits v 23 16, natBits v 15 0⟩

/-- Elements of an operation. -/
def VuSlot.count (v : VuSlot) : Nat := 64 * (v.nm1 + 1)

/-- The format code in `X`[7:6]: 0 FP32, 1 BF16 (R155). -/
def vuFmt (c : Nat) : Option EFmt :=
  match c with
  | 0 => some .fp32 | 1 => some .bf16 | _ => none

/-- Raise flags of VUn_ERR_STATUS. -/
def vuFlag (s : State) (n : Nat) (m : Word) : State := s.raise (coreReg n Reg.VUn_ERR_STATUS) m

/-- Rows an operand takes from the input queue: one per 64 elements (R157). -/
def vuqRows (o : Operand) (count : Nat) : Nat := if o = .vuQueue then count / 64 else 0

/-- What reading a vector gives. -/
structure VecRd where
  elems : List (Nat × Bool)
  ce : Nat
  st : State

/-- Read a vector of elements b bits wide. Queue rows narrower than 64 elements leave the others open (log entry 19). -/
def readVec (s : State) (n : Nat) (o : Operand) (b count : Nat) : VecRd :=
  match o with
  | .vuQueue =>
    let rows := (s.core n).vuq.take (count / 64)
    let st := s.modCore n fun c => { c with vuq := c.vuq.drop (count / 64) }
    ⟨rows.flatMap fun r => (List.range 64).map fun i =>
      if b * (i + 1) ≤ 8 * r.bytes.length then elemAt b r.bytes i else (Config.cvtOpen 2 i % 2 ^ b, false), 0, st⟩
  | o =>
    let r := readOperand s n o 0 (b * count / 8)
    ⟨unpackElems b count r.bytes, r.ce, r.st⟩

/-- Note what an operation writes: infinities, NaNs, poison (R177, R332). -/
def vuNote (s : State) (n : Nat) (f : EFmt) (es : List (Nat × Bool)) : State :=
  let vals := (es.filter fun e => !e.2).map fun e => elemVal f e.1
  let s := if vals.any (·.isInf) then vuFlag s n (bitMask 1) else s
  let s := if vals.any (·.isNan) then vuFlag s n (bitMask 2) else s
  if es.any (·.2) then vuFlag s n (bitMask 0) else s

/-- Write a vector and note what was written. -/
def writeVec (s : State) (n : Nat) (o : Operand) (f : EFmt) (es : List (Nat × Bool)) : State :=
  writeOperand (vuNote s n f es) n o (packElems (efmtBits f) es)

/-- Scalar register r of core n. -/
def sreg (s : State) (n r : Nat) : Word × Bool := (s.core n).sregs[r % 32]?.getD (0, false)
def setSreg (s : State) (n r : Nat) (v : Word × Bool) : State :=
  s.modCore n fun c => { c with sregs := c.sregs.setIfInBounds (r % 32) v }

/-- One element of an element-wise operation, computed in FP32; a BF16 result is rounded once more on writing (R155, R156). -/
def eltOp (op : Nat) (f : EFmt) (a b d : Nat) : Nat :=
  let w := efmtBits f
  let ff := if f = .bf16 then fmtBF16 else fmtFP32
  let va := elemVal f a
  let vb := dec32 (BitVec.ofNat 32 b)
  let out (v : FVal) : Nat := fencode ff (Config.nanBits op a b) (if f = .bf16 then rnd32 v else v)
  match op with
  | 1 => out (fadd va vb)
  | 2 => out (fsub va vb)
  | 3 => out (fmul va vb)
  | 4 => out (ffma va vb (elemVal f d))
  | 5 => out (fmax va vb)
  | 6 => out (fmin va vb)
  | 7 => a % 2 ^ (w - 1)
  | 8 => a ^^^ 2 ^ (w - 1)
  | _ => a

/-- FP32 bits of an element: the operand of FP32 arithmetic. -/
def widen (f : EFmt) (a : Nat) : Nat := if f = .bf16 then a * 65536 else a

/-- Element-wise operations (R155): 0x01–0x09. -/
def vuElement (s : State) (n : Nat) (v : VuSlot) (f : EFmt) (a d : Operand) (b : Option Operand) :
    State :=

  let w := efmtBits f
  let ra := readVec s n a w v.count
  let unary := decide (7 ≤ v.op)
  let rb : VecRd := if unary then ⟨[], 0, ra.st⟩ else match b with
    | some o =>
      let r := readVec ra.st n o w v.count
      { r with elems := r.elems.map fun e => (widen f e.1, e.2) }
    | none =>
      let x := sreg ra.st n (v.x % 32)
      ⟨List.replicate v.count (x.1.toNat, x.2), 0, ra.st⟩
  let rd : VecRd := if v.op = 4 then readVec rb.st n d w v.count else ⟨[], 0, rb.st⟩
  let es := ra.elems.zipIdx.map fun p =>
    let y := (rb.elems[p.2]?).getD (0, false)
    let z := (rd.elems[p.2]?).getD (0, false)
    (eltOp v.op f p.1.1 y.1 z.1, p.1.2 || y.2 || z.2)
  writeVec (countStall rd.st n 11 (2 * (ra.ce + rb.ce + rd.ce))) n d f es

/-- Special functions (R156): 0x10–0x13. BF16 results round once on writing. -/
def sfuElem (op : Nat) (f : EFmt) (a : Nat) : Nat :=
  let x := BitVec.ofNat 32 (widen f a)
  let y := match op with
    | 0x10 => exp2Word x | 0x11 => log2Word x | 0x12 => rcpWord x | _ => rsqrtWord x
  if f = .bf16 then fencode fmtBF16 (Config.nanBits op a 0) (dec32 y) else y.toNat

/-- Add the values of a list in an order the manual leaves open (log entry 18): each addition takes two values, picked by
a free value, and rounds their sum. -/
def sumOpen : Nat → Nat → List FVal → FVal
  | 0, _, l => l.headD fzero
  | k + 1, c, l =>
    match l with
    | [] => fzero
    | [x] => x
    | l =>
      let i := Config.sumPick c (2 * k) % l.length
      let x := (l[i]?).getD fzero
      let l := l.eraseIdx i
      let j := Config.sumPick c (2 * k + 1) % l.length
      let y := (l[j]?).getD fzero
      sumOpen k c (rnd32 (fadd x y) :: l.eraseIdx j)

/-- Reductions (R155): RAMAX, RSUM, RMAX. -/
def vuReduce (s : State) (n : Nat) (v : VuSlot) (f : EFmt) (a : Operand) : State :=
  let r := readVec s n a (efmtBits f) v.count
  let vals := r.elems.map fun e => elemVal f e.1
  let res := match v.op with
    | 0x18 => vals.foldl (fun m x => fmax m x.abs) fzero
    | 0x19 => sumOpen vals.length v.count vals
    | _ => vals.tail.foldl fmax (vals.headD fzero)
  let code := enc32 (Config.nanBits v.op v.count 0) res
  let p := r.elems.any (·.2)
  let s := countStall r.st n 11 (2 * r.ce)
  setSreg (vuNote s n .fp32 [(code.toNat, p)]) n v.x (code, p)

/-- CVT (R156): steps 1, 3 and 4 of R59 with a multiplier of 1. -/
def vuCvt (s : State) (n : Nat) (v : VuSlot) (sf df : EFmt) (a d : Operand) : State :=
  let r := readVec s n a (efmtBits sf) v.count
  let es := r.elems.map fun e => (quantElem df (Config.nanBits 0x20 e.1 0) (elemVal sf e.1), e.2)
  let s := countStall r.st n 11 (2 * r.ce)
  let s := s.bump (coreReg n Reg.VUn_CVT_SAT_CNT) (es.countP fun e => e.1.2 && !e.2)
  writeVec s n d df (es.map fun e => (e.1.1, e.2))

/-- Steps 1 to 4 of R59 on one element: a finite value is scaled first. Where the product of a zero and an infinite `CUR_INV` is a
NaN, the element is a free value of the format and nothing is counted (log entry 14). -/
def quantScaled (f : EFmt) (free : Nat) (x inv : FVal) : Nat × Bool :=
  match f, x with
  | .bf16, x => quantElem .bf16 free x
  | f, .fin s m e =>
    let y := rnd32 (fmul (.fin s m e) inv)
    if y.isNan then (Config.cvtOpen 3 free % 2 ^ efmtBits f, false) else quantElem f free y
  | f, x => quantElem f free x

/-- QUANT (R59, R65, R332): poisoned elements are not folded and not counted. -/
def vuQuant (s : State) (n : Nat) (v : VuSlot) (sf : EFmt) (a d : Operand) : State :=
  let e := v.x
  let f := (shtFormat (shtFmt s n e)).getD .int8
  let r := readVec s n a (efmtBits sf) v.count
  let inv := dec32 (shtWord s n e 10)
  let es := r.elems.map fun x =>
    let val := elemVal sf x.1
    (quantScaled f (Config.nanBits 0x28 x.1 e) val inv, x.2)
  let good := (r.elems.filter fun x => !x.2).map fun x => elemVal sf x.1
  let amax := good.foldl (fun m x => if x.isFinite then fmax m x.abs else m) (dec32 (shtWord s n e 8))
  let s := countStall r.st n 11 (2 * r.ce)
  let s := setSht s n e 8 (enc32 0 amax)
  let s := shtOverflow s n e (es.countP fun x => x.1.2 && !x.2)
  writeVec s n d f (es.map fun x => (x.1.1, x.2))

/-- PUSH (R60, R332): a poisoned value operand leaves the entry unchanged. -/
def vuPush (s : State) (n : Nat) (v : VuSlot) : State :=
  if v.nm1 % 2 = 1 then
    let x := sreg s n v.areg
    if x.2 then vuFlag s n (bitMask 0) else shtPush s n v.x (some x.1)
  else shtPush s n v.x none

/-! ### MERGE (R122, R138) -/

/-- Triple size of R122. -/
def tripleBytes (dv : Nat) : Nat := ceilDiv (64 + 4 * dv) 64 * 64

/-- Row size of a finalised output (R122). -/
def outRowBytes (dv es : Nat) : Nat := 64 * ceilDiv (dv * es) 64

/-- A merge record within its limits (R155). -/
def mergeLegal (b : List Byte) : Bool :=
  let n := leField b 0 1
  let rows := leField b 1 1
  let dv := leField b 2 2
  decide (2 ≤ n) && decide (n ≤ 16) && decide (1 ≤ rows) && decide (rows ≤ 64)
    && decide (32 ≤ dv) && decide (dv ≤ 1024) && decide (dv % 32 = 0)

/-- Finalise a row (R120): one reciprocal, one scale, one multiply per element. -/
def finaliseRow (l : Word) (o : List Word) (vscale : Word) : List FVal :=
  let w := rnd32 (fmul (dec32 (rcpWord l)) (dec32 vscale))
  o.map fun x => rnd32 (fmul (dec32 x) w)

/-- Merge the triples of one row in the order listed (R138). -/
def mergeRow (ts : List (Word × Word × List Word)) (m : Word) (dv : Nat) : Word × List Word :=
  ts.foldl (fun (acc : Word × List Word) t =>
    let c := dec32 (exp2Word (enc32 (Config.nanBits 0x30 t.1.toNat m.toNat) (rnd32 (fsub (dec32 t.1) (dec32 m)))))
    let l := enc32 (Config.nanBits 0x31 t.2.1.toNat acc.1.toNat) (ffma (dec32 t.2.1) c (dec32 acc.1))
    let o := (List.range dv).map fun d =>
      let od := (acc.2[d]?).getD 0
      let x := (t.2.2[d]?).getD 0
      enc32 (Config.nanBits 0x32 x.toNat od.toNat) (ffma (dec32 x) c (dec32 od))
    (l, o)) (0, List.replicate dv 0)

/-- The output of one attention row (R120–R123): a triple, or the finalised row; the flags it raises. -/
structure RowOut where
  bytes : List PByte
  nan : Bool
  empty : Bool
  inf : Bool

def rowOut (triple bf16 : Bool) (dv : Nat) (vscale : Word) (m l : Word) (o : List Word) (bad poison : Bool) : RowOut :=
  let mark (bs : List Byte) : List PByte := bs.map fun b => (b, poison)
  let nanW := enc32 (Config.nanBits 0x79 m.toNat l.toNat) .nan
  let o := if bad then List.replicate dv nanW else o
  let m := if bad then nanW else m
  let isEmpty := !bad && decide (m = 0xFF800000)
  if triple then
    ⟨mark (leBytes 4 m.toNat ++ leBytes 4 l.toNat ++ List.replicate 56 0 ++ wordsBytes o), bad, false,
      o.any fun w => (dec32 w).isInf⟩
  else
    let es := if bf16 then 2 else 4
    let vals : List FVal := if bad then List.replicate dv .nan
      else if isEmpty then List.replicate dv fzero else finaliseRow l o vscale
    let f := if bf16 then fmtBF16 else fmtFP32
    let codes := vals.map fun v => fencode f (Config.nanBits 0x7A m.toNat l.toNat) v
    ⟨mark (codes.flatMap fun c => leBytes es c), bad || (!bad && vals.any (·.isNan)), isEmpty,
      codes.any fun c => (fdecode f c).isInf⟩

/-- MERGE (R138). -/
def vuMerge (s : State) (n out : Nat) (b : List Byte) (poisonRec : Bool) : State :=

  let cnt := leField b 0 1
  let rows := leField b 1 1
  let dv := leField b 2 2
  let fl := leField b 4 1
  let triple := natBit fl 0
  let bf16 := natBit fl 1
  let vscale := BitVec.ofNat 32 (leField b 8 4)
  let base := leField b 16 4
  (List.range rows).foldl (fun s r =>
    let rds := (List.range cnt).foldl (fun (acc : List (List PByte) × Nat × State) i =>
      let q := spmRead acc.2.2 n (base + (i * rows + r) * tripleBytes dv) (64 + 4 * dv)
      (acc.1 ++ [q.bytes], acc.2.1 + q.ce, q.st)) ([], 0, s)
    let s := countStall rds.2.2 n 11 (2 * rds.2.1)
    let ts := rds.1.map fun bs =>
      (BitVec.ofNat 32 (leField (plain bs) 0 4), BitVec.ofNat 32 (leField (plain bs) 4 4), leWords (slice (plain bs) 64 (4 * dv)))
    let poison := poisonRec || rds.1.any fun bs => anyPoison bs
    let bad := ts.any fun t => (dec32 t.1).isNan
    let m := enc32 0 (ts.foldl (fun m t => fmax m (dec32 t.1)) (.inf true))
    let lo : Word × List Word := if bad then (0, List.replicate dv 0)
      else if m = 0xFF800000 then (0, List.replicate dv 0) else mergeRow ts m dv
    let ro := rowOut triple bf16 dv vscale m lo.1 lo.2 bad poison
    let s := if poison then vuFlag s n (bitMask 0)
      else
        let s := if ro.nan then vuFlag s n (bitMask 2) else s
        let s := if ro.empty then vuFlag s n (bitMask 3) else s
        if ro.inf then vuFlag s n (bitMask 1) else s
    let size := if triple then tripleBytes dv else outRowBytes dv (if bf16 then 2 else 4)
    spmWrite s n (out + r * size) ro.bytes .engine) s

/-! ### SLD, SST, PGCHK -/

def vuSld (s : State) (n : Nat) (v : VuSlot) (a : Operand) : State :=
  let r := readOperand s n a 0 (4 * (v.nm1 + 1))
  let s := countStall r.st n 11 (2 * r.ce)
  let s := if anyPoison r.bytes then vuFlag s n (bitMask 0) else s
  (List.range (v.nm1 + 1)).foldl (fun s i =>
    let e := elemAt 32 r.bytes i
    setSreg s n (v.x + i) (BitVec.ofNat 32 e.1, e.2)) s

def vuSst (s : State) (n : Nat) (v : VuSlot) (a : Operand) : State :=
  let es := (List.range (v.nm1 + 1)).map fun i => sreg s n (v.x + i)
  let s := if es.any (·.2) then vuFlag s n (bitMask 0) else s
  writeOperand s n a (es.flatMap fun e => (leBytes 4 e.1.toNat).map fun b => (b, e.2))

/-- A page entry (R125). -/
def pageValid (e : DWord) : Bool := flag e 63
def pageResident (e : DWord) : Bool := flag e 62
def pageAddr (e : DWord) : Nat := bits e 46 12 * 4096

/-- Read bytes through the device-physical map for a requester of Field rf; an address that leads to no memory reads poisoned. -/
def mapRead (s : State) (rf a len : Nat) : List PByte × State :=
  match placeOf a with
  | .nm f x => nmRead s f x len rf
  | .ws f x => wsReadNow s f x len rf
  | _ => (List.replicate len (0, true), s)

/-- Read page entry `page` of a page list, for core n (R125, R126): the entry, or the fault kind. -/
def readPage (s : State) (n pageList pages page : Nat) : Except Nat DWord × State :=
  if pages ≤ page then (.error 4, s)
  else
    let r := mapRead s (n / 4) (pageList + 8 * page) 8
    let e : DWord := BitVec.ofNat 64 (leNat (plain r.1))
    if anyPoison r.1 then (.error 3, r.2)
    else if !pageValid e then (.error 1, r.2)
    else if !pageResident e then (.error 2, r.2)
    else (.ok e, r.2)

/-- PGCHK (R156): 1.0 when the entry is usable under R126, else 0.0 with PAGE_FAULT. -/
def vuPgchk (s : State) (n : Nat) (v : VuSlot) (rcd : Nat) : State :=
  let r := spmRead s n rcd 128
  let s := countStall r.st n 11 (2 * r.ce)
  let pg := readPage s n (leField (plain r.bytes) 8 6) (leField (plain r.bytes) 14 2) v.nm1
  match pg.1, anyPoison (slice r.bytes 8 8) with
  | .ok _, false => setSreg pg.2 n v.x (0x3F800000, false)
  | _, _ =>
    let s := vuFlag pg.2 n (bitMask 4)
    setSreg (s.bump (coreReg n Reg.VUn_PAGE_FAULT_CNT) 1) n v.x (0, false)

/-! ### The slot -/

/-- Operands of a Vector Unit operation: source a, source b, destination. -/
def vuOperands (s : State) (n : Nat) (v : VuSlot) : Option Operand × Option Operand × Option Operand :=
  (operandOf (readAR s n v.areg), operandOf (readAR s n (v.x % 32)), operandOf (readAR s n v.dreg))

def srcOk (o : Option Operand) (len : Nat) : Bool :=
  match o with
  | some .vuQueue => true
  | some o => readFits o len
  | none => false

def dstOk (o : Option Operand) (len : Nat) : Bool :=
  match o with
  | some o => writeFits o len
  | none => false

def isLinear (o : Option Operand) : Bool :=
  match o with
  | some (.linear _) => true
  | _ => false

/-- Is the Vector Unit slot legal (R147, R155, R168)? QUANT entries follow R66. -/
def vuLegal (s : State) (n : Nat) (v : VuSlot) : Bool :=
  let (a, b, d) := vuOperands s n v
  match v.op with
  | 0 => true
  | 0x01 | 0x02 | 0x03 | 0x04 | 0x05 | 0x06 | 0x07 | 0x08 | 0x09 =>
    match vuFmt (v.x / 64) with
    | none => false
    | some f =>
      let len := v.count * efmtBits f / 8
      srcOk a len && (decide (7 ≤ v.op) || natBit v.x 5 || srcOk b len) && dstOk d len
  | 0x10 | 0x11 | 0x12 | 0x13 =>
    match vuFmt (v.x / 64) with
    | none => false
    | some f => decide (v.x % 64 = 0) && srcOk a (v.count * efmtBits f / 8) && dstOk d (v.count * efmtBits f / 8)
  | 0x18 | 0x19 | 0x1A =>
    match vuFmt (v.x / 64) with
    | none => false
    | some f => srcOk a (v.count * efmtBits f / 8)
  | 0x20 =>
    match efmtOfCode (v.x / 16), efmtOfCode (v.x % 16) with
    | some sf, some df => srcOk a (v.count * efmtBits sf / 8) && dstOk d (v.count * efmtBits df / 8)
    | _, _ => false
  | 0x28 | 0x2B =>
    let sf : EFmt := if v.op = 0x28 then .fp32 else .bf16
    match shtFormat (shtFmt s n v.x) with
    | none => false
    | some f =>
      !(decide (shtWord s n v.x 11 = 0) && decide (shtCount s n v.x = 0))
        && srcOk a (v.count * efmtBits sf / 8) && dstOk d (v.count * efmtBits f / 8)
  | 0x29 | 0x2A => true
  | 0x30 =>
    match recordAddr (readAR s n v.areg) with
    | some x => mergeLegal (plain (spmRead s n x 64).bytes) && isLinear d
    | none => false
  | 0x38 => srcOk a (4 * (v.nm1 + 1)) && decide (a ≠ some .vuQueue)
  | 0x39 => dstOk a (4 * (v.nm1 + 1))
  | 0x3A => (recordAddr (readAR s n v.areg)).isSome
  | _ => false

/-- Rows a legal operation takes from the input queue (R157). -/
def vuNeedsRows (s : State) (n : Nat) (v : VuSlot) : Nat :=
  let (a, b, _) := vuOperands s n v
  let ra := match a with | some o => vuqRows o v.count | none => 0
  let rb := match b with | some o => vuqRows o v.count | none => 0
  match v.op with
  | 0x01 | 0x02 | 0x03 | 0x04 | 0x05 | 0x06 => ra + (if natBit v.x 5 then 0 else rb)
  | 0x07 | 0x08 | 0x09 | 0x10 | 0x11 | 0x12 | 0x13 | 0x18 | 0x19 | 0x1A | 0x20 | 0x28 | 0x2B => ra
  | _ => 0

/-- Execute a legal Vector Unit slot (R155). -/
def vuExec (s : State) (n : Nat) (v : VuSlot) : State :=
  let (a, b, d) := vuOperands s n v
  let oa := a.getD (.linear 0)
  let od := d.getD (.linear 0)
  let f := (vuFmt (v.x / 64)).getD .fp32
  if v.op = 0 then s else
  let s := s.bump (coreReg n Reg.VUn_OP_CNT) 1
  match v.op with
  | 0x01 | 0x02 | 0x03 | 0x04 | 0x05 | 0x06 | 0x07 | 0x08 | 0x09 =>
    vuElement s n v f oa od (if natBit v.x 5 then none else b)
  | 0x10 | 0x11 | 0x12 | 0x13 =>
    let r := readVec s n oa (efmtBits f) v.count
    writeVec (countStall r.st n 11 (2 * r.ce)) n od f (r.elems.map fun e => (sfuElem v.op f e.1, e.2))
  | 0x18 | 0x19 | 0x1A => vuReduce s n v f oa
  | 0x20 => vuCvt s n v ((efmtOfCode (v.x / 16)).getD .fp32) ((efmtOfCode (v.x % 16)).getD .fp32) oa od
  | 0x28 => vuQuant s n v .fp32 oa od
  | 0x2B => vuQuant s n v .bf16 oa od
  | 0x29 => setSreg s n v.dreg (shtWord s n v.x 8, false)
  | 0x2A => vuPush s n v
  | 0x30 =>
    match recordAddr (readAR s n v.areg), od with
    | some x, .linear out =>
      let r := spmRead s n x 64
      vuMerge (countStall r.st n 11 (2 * r.ce)) n out (plain r.bytes) (anyPoison r.bytes)
    | _, _ => s
  | 0x38 => vuSld s n v oa
  | 0x39 => vuSst s n v oa
  | 0x3A =>
    match recordAddr (readAR s n v.areg) with
    | some x => vuPgchk s n v x
    | none => s
  | _ => s

end Sys2Proof.Machine
end

