-- ==== Sys2Proof/Machine/Thresher.lean ====
section
/-! DEFINITION. The Thresher (R113–R136, R158): attention records, fetch streams, the soft maximum block by block, cache
writes, compaction, expansion. -/

namespace Sys2Proof.Machine

/-! ### The attention record (R115, R116) -/

def parseAttRec (b : List Byte) : AttRec :=
  let w := leField b 0 4
  let c := leField b 4 4
  let u (i : Nat) : Nat := leField b i 4
  { mode := natBits w 31 30, mask := natBits w 29 28, qk := natBits w 27 26, pFp8 := natBit w 25, triple := natBit w 24,
    outBf16 := natBit w 23, rows := natBits w 13 7, t := natBits w 6 0, gen := natBits c 27 16, ctx := natBits c 15 0,
    pageList := leField b 8 6, pages := leField b 14 2, committed := u 16 % 2 ^ 24, visible := u 20 % 2 ^ 24,
    spanLo := u 24 % 2 ^ 24, spanHi := u 28 % 2 ^ 24, qpos := u 32 % 2 ^ 24, sigma := BitVec.ofNat 32 (u 36),
    vscale := BitVec.ofNat 32 (u 40), aoff := u 44, boff := u 48, wa := leField b 52 2, wb := leField b 54 2,
    bufs := leField b 56 1, qaddr := u 64, oaddr := u 68, maskAddr := u 72, stageAddr := u 76 }

/-- Element bytes of queries, keys and values. -/
def AttRec.es (r : AttRec) : Nat := if r.qk = 2 then 2 else 1
def AttRec.fmt (r : AttRec) : FFmt := if r.qk = 0 then fmtE4M3 else if r.qk = 1 then fmtE5M2 else fmtBF16
/-- FOLD mode (R134). -/
def AttRec.fold (r : AttRec) : Bool := r.mode == 1
/-- Score and value dimensions (R117). -/
def AttRec.ds (r : AttRec) : Nat := if r.fold then r.wa + r.wb else r.wa
def AttRec.dv (r : AttRec) : Nat := if r.fold then r.wa else r.wb
/-- End of the range: min(SPAN_HI, VISIBLE) (R113). -/
def AttRec.hi (r : AttRec) : Nat := min r.spanHi r.visible
/-- KV blocks of the range. -/
def AttRec.blocks (r : AttRec) : Nat := ceilDiv (r.hi - r.spanLo) 64
/-- Bytes of one staging buffer: 64 rows of component A, then 64 of component B (R127). -/
def AttRec.bufBytes (r : AttRec) : Nat := 64 * (r.wa + r.wb) * r.es
/-- Bytes of one row of the output (R122). -/
def AttRec.outBytes (r : AttRec) : Nat :=
  if r.triple then tripleBytes r.dv else outRowBytes r.dv (if r.outBf16 then 2 else 4)

/-- The limits on dimensions (R116); FOLD takes FP8 only. -/
def dimsLegal (r : AttRec) : Bool :=
  if r.fold then decide (64 ≤ r.wa) && decide (r.wa ≤ 1024) && decide (r.wa % 64 = 0) && decide (r.wb ≤ 128)
    && decide (r.wb % 32 = 0) && decide (r.qk ≠ 2)
  else decide (32 ≤ r.wa) && decide (r.wa ≤ 256) && decide (r.wa % 32 = 0)
    && decide (32 ≤ r.wb) && decide (r.wb ≤ 256) && decide (r.wb % 32 = 0)

/-- The record breaks no rule of R116. A staging ring of no buffer or of more than 16 is refused (log entry 31). -/
def attLegal (r : AttRec) : Bool :=
  decide (r.mode ≠ 3) && decide (r.mask ≠ 3) && decide (r.qk ≠ 3)
    && decide (r.rows ≠ 0) && decide (r.t ≠ 0) && decide (r.rows % r.t = 0) && decide (r.rows ≤ 64) && decide (r.t ≤ 64)
    && decide (r.spanLo % 64 = 0) && decide (r.spanLo ≤ r.spanHi)
    && decide (r.committed ≤ r.visible) && decide (r.visible ≤ 64 * r.pages)
    && !(r.mask == 2 && decide (64 < r.visible - r.committed))
    && dimsLegal r && decide (1 ≤ r.bufs) && decide (r.bufs ≤ 16)
    && [r.pageList, r.aoff, r.boff, r.qaddr, r.oaddr, r.maskAddr, r.stageAddr].all (fun a => decide (a % 64 = 0))
    && decide (r.stageAddr + r.bufs * r.bufBytes ≤ spmSize) && decide (r.oaddr + r.rows * r.outBytes ≤ spmSize)

/-- Read a record at issue: none where it is poisoned or breaks R116 (log entry 31). -/
def readAttRec (s : State) (n a : Nat) : Option AttRec × State :=
  let r := spmRead s n a 128
  let s := countStall r.st n 11 (2 * r.ce)
  let q := parseAttRec (plain r.bytes)
  (if anyPoison r.bytes ∨ !attLegal q then none else some q, s)

/-! ### State access and records -/

def thr (s : State) (n : Nat) : ThrState := (s.core n).thr
def modThr (s : State) (n : Nat) (f : ThrState → ThrState) : State := s.modCore n fun c => { c with thr := f c.thr }
def thrFlag (s : State) (n i : Nat) : State := s.raise (coreReg n Reg.THRn_ERR_STATUS) (bitMask i)

/-- THRn_FAULT_INFO and THRn_FAULT_CTX (R141). -/
def thrFault (s : State) (n kind pos : Nat) (r : AttRec) : State :=
  let s := s.setReg (coreReg n Reg.THRn_FAULT_INFO) (BitVec.ofNat 32 (1 <<< 31 + kind <<< 28 + pos % 2 ^ 24))
  s.setReg (coreReg n Reg.THRn_FAULT_CTX) (BitVec.ofNat 32 (r.gen <<< 16 + r.ctx))

/-- A page fault (R126). -/
def pageFault (s : State) (n kind pos : Nat) (r : AttRec) : State :=
  thrFault ((thrFlag s n 3).bump (coreReg n Reg.THRn_PAGE_FAULT_CNT) 1) n kind pos r

/-! ### Fetch streams (R127) -/

/-- Accesses to these bytes of a memory wait (R325, R351, R393). -/
def kvHeld (s : State) (a len : Nat) : Bool := match placeOf a with
  | .nm f x => nmHeld s f x len
  | .ws f _ => fieldPresent s f && (fieldResetting s f || !domOn s (52 + f))
  | _ => false

/-- A write of the Thresher's: a weight store drops it and counts it (R192, R212). -/
def kvWrite (s : State) (n a : Nat) (bs : List PByte) : State :=
  match placeOf a with
  | .nm f x => nmWrite s f x bs (n / 4)
  | .ws f _ => wsDrop s f (n / 4)
  | _ => s

/-- Open a stream for a record, with its entry of the Skidder queue (R158). -/
def openFetch (s : State) (n a : Nat) (r : AttRec) (bound : Bool) : State :=
  let id := (thr s n).nextId
  let s := modThr s n fun t => { t with streams := t.streams ++ [⟨id, a, r, 0, 0, [], bound, false⟩], nextId := id + 1 }
  skqAdd s n { kind := .fetch id, src := 0, dst := 0, len := 0 }

/-- Change a stream. -/
def modFetch (s : State) (n id : Nat) (f : FetchStream → FetchStream) : State :=
  modThr s n fun t => { t with streams := mapIf (fun x => decide (x.id = id)) f t.streams }

def findFetch (s : State) (n id : Nat) : Option FetchStream := (thr s n).streams.find? fun x => decide (x.id = id)

/-- Close a stream and give its entry back. -/
def closeFetch (s : State) (n id : Nat) : State :=
  let s := modThr s n fun t => { t with streams := t.streams.filter fun x => decide (x.id ≠ id) }
  s.setSkq n (removeFirst (fun q => decide (q.xfer.kind = .fetch id)) (s.skq n))

/-- An entry of the core's queue still serves the stream: it has not been aborted (R201). -/
def fetchAlive (s : State) (n id : Nat) : Bool := (s.skq n).any fun q => decide (q.xfer.kind = .fetch id)

/-- The open stream of a record that no consumer has yet. -/
def freeFetch (s : State) (n a : Nat) : Option FetchStream := (thr s n).streams.find? fun x => decide (x.recAddr = a) && !x.bound

/-- Bind the first free stream of a record to its consumer, or open one (R127): the stream's number. What it staged before a KVWRITE
or KVCOMPACT that has issued since is fetched again, so that the consumer sees that write's data (R129; log entry 129). -/
def bindFetch (s : State) (n a : Nat) (r : AttRec) : Nat × State :=
  match freeFetch s n a with
  | some x => (x.id, modFetch s n x.id fun x =>
      if x.stale then { x with bound := true, stale := false, fetched := 0, faults := [] } else { x with bound := true })
  | none => ((thr s n).nextId, openFetch s n a r true)

/-- A KVWRITE or KVCOMPACT of the core still waits for its memory; what fetches later must see its data (R129). -/
def kvParked (s : State) (n : Nat) : Bool := (s.skq n).any fun q => match q.xfer.kind with
  | .kvWrite .. | .kvCompact .. => true
  | _ => false

/-- Positions of block b that lie in the range (R113, R130, R137). -/
def AttRec.blockRows (r : AttRec) (b : Nat) : Nat := min 64 (r.hi - (r.spanLo + 64 * b))

/-- KV_FETCH_BLOCK: a stream of the record at `a` stages its next block, the positions of its range and no other (R126, R127,
R130). Its requests are transactions of the core's Skidder queue (R203). -/
def kvFetchBlock (s : State) (n a : Nat) : State :=
  match (thr s n).streams.find? fun x => decide (x.recAddr = a) && decide (x.fetched < x.rcd.blocks) with
  | none => s
  | some st =>
    let r := st.rcd
    let b := st.fetched
    if st.read + r.bufs ≤ b ∨ !fetchAlive s n st.id ∨ kvParked s n ∨ !mayIssue s (.skq n 0) (n / 4) true
        ∨ kvHeld s (r.pageList + 8 * (r.spanLo / 64 + b)) 8 then s
    else
      let upd (s : State) (bad : Bool) : State :=
        modFetch s n st.id fun x => { x with fetched := b + 1, faults := if bad then x.faults ++ [b] else x.faults }
      let pg := readPage s n r.pageList r.pages (r.spanLo / 64 + b)
      match pg.1 with
      | .error k => upd (pageFault pg.2 n k (r.spanLo + 64 * b) r) true
      | .ok e =>
        let la := r.blockRows b * (r.wa * r.es)
        let lb := r.blockRows b * (r.wb * r.es)
        let base := r.stageAddr + b % r.bufs * r.bufBytes
        if kvHeld s (pageAddr e + r.aoff) la || kvHeld s (pageAddr e + r.boff) lb || spmSwept s n base r.bufBytes then s else
        let ra := mapRead pg.2 (n / 4) (pageAddr e + r.aoff) la
        let rb := mapRead ra.2 (n / 4) (pageAddr e + r.boff) lb
        let s := spmWrite rb.2 n base (unitPoison ra.1) .other
        let s := spmWrite s n (base + 64 * r.wa * r.es) (unitPoison rb.1) .other
        upd (s.bump (coreReg n Reg.THRn_KV_FETCH_CNT) (ceilDiv la 64 + ceilDiv lb 64)) false

/-! ### Masks (R131) -/

/-- Is position j in the range of token t? Tree mask words with their poison. -/
def inRange (r : AttRec) (tree : List (BitVec 64 × Bool)) (t j : Nat) : Bool :=
  decide (r.spanLo ≤ j) && decide (j < r.hi) && (match r.mask with
    | 0 => true
    | 1 => decide (j ≤ r.qpos + t)
    | _ => decide (j < r.committed) || (match tree[t]? with
        | some w => decide (j - r.committed < 64) && w.1.getLsbD (j - r.committed)
        | none => false))

/-! ### One KV block (R114, R120, R121, R123) -/

/-- A dot product: exact for FP8, FP32 step by step for BF16. -/
def attDot (bf16 : Bool) (q a : List FVal) : FVal :=
  if bf16 then (q.zip a).foldl (fun acc p => rnd32 (ffma p.1 p.2 acc)) fzero
  else (q.zip a).foldl (fun acc p => fadd acc (fmul p.1 p.2)) fzero

/-- P rounding (R114). -/
def roundP (fp8 : Bool) (w : Word) : FVal :=
  let f := if fp8 then fmtE4M3 else fmtBF16
  fdecode f (fencode f (Config.nanBits 0x7B w.toNat 0) (dec32 w))

/-- A sum of products within a block: exact for FP8 values, FP32 step by step for BF16. -/
def attSum (bf16 : Bool) (ps vs : List FVal) : FVal := attDot bf16 ps vs

def valsOf (f : FFmt) (es : Nat) (bs : List PByte) : List FVal :=
  (List.range (bs.length / es)).map fun i => fdecode f (leField (plain bs) (es * i) es)

/-- One block of one row. `js`: the positions of the block in the row's range, as offsets 0 to 63. -/
def attRowBlock (r : AttRec) (q : List PByte) (keys vals : Nat → List PByte) (js : List Nat) (w : AttRow) : AttRow :=
  let bf := r.qk == 2
  if w.bad then w
  else
    let qv := valsOf r.fmt r.es (q.take (r.ds * r.es))
    let sc (j : Nat) : FVal := rnd32 (fmul (rnd32 (attDot bf qv (valsOf r.fmt r.es (keys j)))) (dec32 r.sigma))
    let ss := js.map sc
    if ss.any fun x => !x.isFinite then { w with bad := true }
    else
      let m := ss.foldl fmax (dec32 w.m)
      if m = .inf true then w
      else
        let ex (a : FVal) : Word := exp2Word (enc32 0 (rnd32 (fsub a m)))
        let c := dec32 (ex (dec32 w.m))
        let ps := ss.map fun x => roundP r.pFp8 (ex x)
        let vs := js.map fun j => valsOf r.fmt r.es (vals j)
        let l := enc32 (Config.nanBits 0x7C w.l.toNat 0) (ffma (dec32 w.l) c (attSum bf ps (ps.map fun _ => fone)))
        let o0 := if w.o.isEmpty then List.replicate r.dv 0 else w.o
        let o := o0.zipIdx.map fun p =>
          enc32 (Config.nanBits 0x7D p.1.toNat p.2) (ffma (dec32 p.1) c (attSum bf ps (vs.map fun v => (v[p.2]?).getD fzero)))
        { w with m := enc32 0 m, l, o }

/-- Where block b of an ATTEND lies: the staging buffer, or the arrays that an EXPAND wrote (R127, R135). -/
def blockAddrs (r : AttRec) (b : Nat) : Nat × Nat :=
  if r.mode = 2 then (r.aoff + b * (64 * r.wa * r.es), r.boff + b * (64 * r.wb * r.es))
  else
    let base := r.stageAddr + b % r.bufs * r.bufBytes
    (base, base + 64 * r.wa * r.es)

/-- Read the query tile and the tree mask when an ATTEND's first block starts. -/
def attStart (s : State) (n : Nat) (a : AttRun) : AttRun × State :=
  let r := a.rcd
  let stride := ceilDiv (r.ds * r.es) 64 * 64
  let q := (List.range r.rows).foldl (fun (acc : List (List PByte) × State) i =>
    let x := spmRead acc.2 n (r.qaddr + i * stride) (r.ds * r.es)
    (acc.1 ++ [x.bytes], countStall x.st n 11 (2 * x.ce))) ([], s)
  let t : SpmRd := if r.mask = 2 then spmRead q.2 n r.maskAddr (8 * r.t) else ⟨[], 0, q.2⟩
  let s := countStall t.st n 11 (2 * t.ce)
  ({ a with query := q.1,
            tree := (List.range r.t).map fun i =>
              (BitVec.ofNat 64 (leField (plain t.bytes) (8 * i) 8), anyPoison (slice t.bytes (8 * i) 8)),
            rows := List.replicate r.rows {} }, s)

/-- The rows after one block; `fault`: the block's page could not be used. -/
def attBlockRows (s : State) (n : Nat) (a : AttRun) (fault : Bool) : List AttRow × State :=
  let r := a.rcd
  let p0 := r.spanLo + 64 * a.block
  let ad := blockAddrs r a.block
  let ra := if fault then ⟨[], 0, s⟩ else spmRead s n ad.1 (r.blockRows a.block * (r.wa * r.es))
  let rb := if fault then ⟨[], 0, ra.st⟩ else spmRead ra.st n ad.2 (r.blockRows a.block * (r.wb * r.es))
  let s := countStall rb.st n 11 (2 * (ra.ce + rb.ce))
  let rowA (j : Nat) : List PByte := slice ra.bytes (j * r.wa * r.es) (r.wa * r.es)
  let rowB (j : Nat) : List PByte := slice rb.bytes (j * r.wb * r.es) (r.wb * r.es)
  let keys (j : Nat) : List PByte := if r.fold then rowA j ++ rowB j else rowA j
  let vals (j : Nat) : List PByte := if r.fold then rowA j else rowB j
  (a.rows.zipIdx.map fun p =>
    let t := p.2 % r.t
    let js := (List.range 64).filter fun j => inRange r a.tree t (p0 + j)
    let q := (a.query[p.2]?).getD []
    let poison := p.1.poison || anyPoison q || (decide (r.mask = 2) && ((a.tree[t]?).map (·.2)).getD false)
      || (fault && !js.isEmpty) || js.any fun j => anyPoison (keys j) || anyPoison (vals j)
    if fault then { p.1 with poison } else { attRowBlock r q keys vals js p.1 with poison }, s)

/-- Write the output rows of a finished ATTEND (R121–R123). -/
def attFinish (s : State) (n : Nat) (a : AttRun) : State :=
  let r := a.rcd
  a.rows.zipIdx.foldl (fun s p =>
    let w := p.1
    let o := if w.o.isEmpty then List.replicate r.dv 0 else w.o
    let out := rowOut r.triple r.outBf16 r.dv r.vscale w.m w.l o w.bad w.poison
    let s := if w.poison then thrFlag s n 0
      else
        let s := if w.bad then thrFlag s n 1 else s
        if out.empty && !r.triple then (thrFlag s n 2).bump (coreReg n Reg.THRn_EMPTY_ROW_CNT) 1 else s
    let s := spmWrite s n (r.oaddr + p.2 * r.outBytes) out.bytes .engine
    s.bump (coreReg n Reg.THRn_ROW_CNT) 1) s

/-- The ATTEND behind moves up, and its stream closes (R119, R127). -/
def attNext (s : State) (n : Nat) (a : AttRun) : State :=
  let s := match a.stream with
    | none => s
    | some id => closeFetch s n id
  modThr s n fun t => { t with running := t.queued, queued := none }

/-- ATTEND_BLOCK: the next KV block of the running ATTEND, once its staging buffer is filled; after the last block the output
is written. `wait`: hold cycles for the buffer (R119, R126). -/
def attendBlock (s : State) (n wait : Nat) : State :=
  match (thr s n).running with
  | none => s
  | some a =>
    let r := a.rcd
    let st := a.stream.bind (findFetch s n)
    let staged : Bool := a.stream.isNone || decide (r.blocks ≤ a.block) || (match st with | some x => decide (a.block < x.fetched) | none => false)
    let s := countStall s n 5 wait
    if !staged then s
    else
      let (a, s) := if a.block = 0 then attStart s n a else (a, s)
      if r.blocks ≤ a.block then attNext (attFinish s n a) n a
      else
        let fault := match st with | some x => x.faults.contains a.block | none => false
        let (rows, s) := attBlockRows s n a fault
        let s := s.bump (coreReg n Reg.THRn_BLOCK_CNT) 1
        let a := { a with rows, block := a.block + 1 }
        let s := modThr s n fun t => { t with running := some a }
        let s := match a.stream with
          | some id => modFetch s n id fun x => { x with read := a.block }
          | none => s
        if r.blocks ≤ a.block then attNext (attFinish s n a) n a else s

/-! ### KVWRITE and KVCOMPACT (R128, R129, R132) -/

/-- A dropped write (R128). -/
def kvDrop (s : State) (n kind pos : Nat) (r : AttRec) : State :=
  thrFault ((thrFlag s n 4).bump (coreReg n Reg.THRn_KV_WRITE_DROP_CNT) 1) n kind pos r

/-- Page entries of the pages listed: the first fault with its position, or the entries. -/
def readPages (s : State) (n : Nat) (r : AttRec) : List Nat → Except (Nat × Nat) (List (Nat × DWord)) × State
  | [] => (.ok [], s)
  | p :: rest =>
    let e := readPage s n r.pageList r.pages p
    match e.1 with
    | .error k => (.error (k, 64 * p), e.2)
    | .ok w =>
      let t := readPages e.2 n r rest
      (match t.1 with
        | .ok l => .ok ((p, w) :: l)
        | .error x => .error x, t.2)

/-- Checks common to KVWRITE and KVCOMPACT for the positions that the operation needs, in ascending order: the page entries, or the
state after the drop, which records the first position concerned (R126, R128, R132). -/
def kvPages (s : State) (n : Nat) (r : AttRec) (ps : List Nat) : Except State (List (Nat × DWord) × State) :=
  match ps.find? (· < r.committed), ps.find? (64 * r.pages ≤ ·) with
  | some p, _ => .error (kvDrop s n 5 p r)
  | none, some p => .error (kvDrop (pageFault s n 4 p r) n 4 p r)
  | none, none =>
    match readPages s n r (ps.map (· / 64)).eraseDups with
    | (.ok l, s) => .ok (l, s)
    | (.error (k, at64), s) =>
      let pos := (ps.find? (at64 ≤ ·)).getD at64
      .error (kvDrop (pageFault s n k pos r) n k pos r)

/-- The positions of a KVWRITE, and of a KVCOMPACT: the sources and destinations of the entries that move, in ascending order. -/
def writeSpan (p cnt : Nat) : List Nat := (List.range cnt).map (p + ·)
def compactSpan (r : AttRec) (idx : List Nat) : List Nat :=
  let moves := idx.zipIdx.filter fun x => decide (x.1 ≠ x.2)
  (List.range 256).filterMap fun k => if moves.any fun x => decide (x.1 = k) || decide (x.2 = k) then some (r.committed + k) else none

/-- The entry a KVWRITE or KVCOMPACT holds until its semaphore posts (R158), and whether it may write (R314). -/
def kvEntry (s : State) (n : Nat) (r : AttRec) (sem : Option Nat) : Bool × State :=
  let g := checkedStart s r.ctx r.gen
  let x : Xfer := { kind := .kv, src := 0, dst := 0, len := 0, ctx := r.ctx, gen := r.gen, check := true,
                    counted := g.1, sem := sem.map (256 * n + ·) }
  (g.1, skqAdd g.2 n (if g.1 then x else x.fail 1))

def pageOf (l : List (Nat × DWord)) (p : Nat) : Nat := ((l.find? fun e => decide (e.1 = p)).map fun e => pageAddr e.2).getD 0

/-- Must a KVWRITE or KVCOMPACT wait for memory whose accesses are held, or for the budget (R203)? `offs` gives the offsets within a position's page that it touches, with their lengths. -/
def kvLate (s : State) (n : Nat) (r : AttRec) (ps : List Nat) (offs : Nat → List (Nat × Nat)) : Bool :=
  !mayIssue s (.skq n 0) (n / 4) true || ps.any fun q =>
    let pg := q / 64
    decide (pg < r.pages) && (kvHeld s (r.pageList + 8 * pg) 8 || match (readPage s n r.pageList r.pages pg).1 with
      | .ok e => (offs q).any fun o => kvHeld s (pageAddr e + o.1) o.2
      | .error _ => false)

/-- Take an entry for an operation that waits. -/
def kvWait (s : State) (n : Nat) (k : XferKind) (r : AttRec) (sem : Option Nat) : State :=
  skqAdd s n { kind := k, src := 0, dst := 0, len := 0, ctx := r.ctx, gen := r.gen, check := true, sem := sem.map (256 * n + ·) }

/-- What a stream without a consumer has staged may be overtaken by a write that issues now (R129). -/
def kvIssued (s : State) (n : Nat) : State :=
  modThr s n fun t => { t with streams := mapIf (fun x => !x.bound) (fun x => { x with stale := true }) t.streams }

/-- A row as the Thresher writes it: poisoned whole where any of it was read poisoned, which sets `POISON_OUT` (R141, R332). -/
def kvRow (s : State) (n a : Nat) (bs : List PByte) : State :=
  let s := if anyPoison bs then thrFlag s n 0 else s
  kvWrite s n a (unitPoison (if anyPoison bs then bs.map fun b => (b.1, true) else bs))

/-- Offsets within a position's page that a KVWRITE touches. -/
def writeOffs (r : AttRec) (q : Nat) : List (Nat × Nat) :=
  [(r.aoff + q % 64 * (r.wa * r.es), r.wa * r.es), (r.boff + q % 64 * (r.wb * r.es), r.wb * r.es)]

/-- Perform a KVWRITE: write n component-A rows and n component-B rows into their pages (R128). -/
def kvWriteRun (s : State) (n : Nat) (r : AttRec) (p cnt src : Nat) (sem : Option Nat) : State :=
  match kvPages s n r (writeSpan p cnt) with
  | .error s => s
  | .ok (pages, s) =>
    let e := kvEntry s n r sem
    if !e.1 then e.2
    else
      let row (s : State) (i off w base : Nat) : State :=
        let x := spmRead s n (base + i * (ceilDiv (w * r.es) 64 * 64)) (w * r.es)
        kvRow (countStall x.st n 11 (2 * x.ce)) n (pageOf pages ((p + i) / 64) + off + (p + i) % 64 * (w * r.es)) x.bytes
      let s := (List.range cnt).foldl (fun s i => row s i r.aoff r.wa src) e.2
      (List.range cnt).foldl (fun s i => row s i r.boff r.wb (src + cnt * (ceilDiv (r.wa * r.es) 64 * 64))) s

/-- KVWRITE issues: it waits behind those of the core that wait. -/
def kvWriteOp (s : State) (n : Nat) (r : AttRec) (p cnt src : Nat) (sem : Option Nat) : State :=
  let s := kvIssued s n
  if kvParked s n || kvLate s n r (writeSpan p cnt) (writeOffs r) then kvWait s n (.kvWrite r p cnt src) r sem
  else kvWriteRun s n r p cnt src sem

/-- Components of every slab of a page, (offset, row bytes): those that firmware copied from the manifest of the context's root when
it formed the context's step, or the record's own two where it has formed none (R124, R301; log entry 32). -/
def kvComponents (s : State) (r : AttRec) : List (Nat × Nat) :=
  match (storeGet {} s.ctxFw r.ctx).slabs with
  | [] => [(r.aoff, r.wa * r.es), (r.boff, r.wb * r.es)]
  | l => l

/-- Offsets within a position's page that a KVCOMPACT touches. -/
def compactOffs (s : State) (r : AttRec) (q : Nat) : List (Nat × Nat) := (kvComponents s r).map fun c => (c.1 + q % 64 * c.2, c.2)

/-- Perform a KVCOMPACT: copy the KV of accepted positions down, in every slab, in ascending order (R132). -/
def kvCompactRun (s : State) (n : Nat) (r : AttRec) (idx : List Nat) (sem : Option Nat) : State :=
  let comps := kvComponents s r
  match kvPages s n r (compactSpan r idx) with
  | .error s => s
  | .ok (pages, s) =>
    let e := kvEntry s n r sem
    if !e.1 then e.2
    else
      idx.zipIdx.foldl (fun s p =>
        if p.1 = p.2 then s
        else comps.foldl (fun s c =>
          let a (q : Nat) : Nat := pageOf pages (q / 64) + c.1 + q % 64 * c.2
          let x := mapRead s (n / 4) (a (r.committed + p.1)) c.2
          kvRow x.2 n (a (r.committed + p.2)) x.1) s) e.2

/-- KVCOMPACT issues: it waits behind those of the core that wait. -/
def kvCompactOp (s : State) (n : Nat) (r : AttRec) (idx : List Nat) (sem : Option Nat) : State :=
  let s := kvIssued s n
  if kvParked s n || kvLate s n r (compactSpan r idx) (compactOffs s r) then kvWait s n (.kvCompact r idx) r sem
  else kvCompactRun s n r idx sem

/-- KVWRITE_DONE: the rows of entry e are in near memory, or the write ended cancelled; its semaphore posts (R128, R132). Of the
operations that wait, the oldest is performed once its memory can be reached. -/
def kvDone (s : State) (n e : Nat) : State :=
  match (s.skq n).find? fun q => decide (q.idx = e) with
  | some q =>
    let rest := (s.skq n).filter fun q => decide (q.idx ≠ e)
    let free := s.setSkq n rest
    let first := !kvParked (s.setSkq n ((s.skq n).takeWhile fun q => decide (q.idx ≠ e))) n
    let sem := q.xfer.sem.map (· % 256)
    match q.xfer.kind with
    | .kv => finishSkq s n e q.xfer.code
    | .kvWrite r p cnt src =>
      if !first || kvLate s n r (writeSpan p cnt) (writeOffs r) then s else kvWriteRun free n r p cnt src sem
    | .kvCompact r idx =>
      if !first || kvLate s n r (compactSpan r idx) (compactOffs s r) then s else kvCompactRun free n r idx sem
    | _ => s
  | none => s

/-! ### EXPAND (R135) -/

/-- Bytes of one block of keys, and of values, of an EXPAND's destination. -/
def expandBytes (e : Expand) : Nat × Nat :=
  let es := if e.bf16 then 2 else 1
  (64 * ((e.kd + e.rcd.wb) * es), 64 * (e.vd * es))

/-- One product row: latent × matrix column c, exact, scaled, rounded once (R135). The up-projection matrices lie row-major by
latent dimension, the columns of all heads side by side (log entry 33). -/
def expandElem (e : Expand) (lat : List FVal) (mat : List FVal) (cols c : Nat) : Nat :=
  let v := (lat.zipIdx).foldl (fun acc p => fadd acc (fmul p.1 ((mat[p.2 * cols + c]?).getD fzero))) fzero
  let f := if e.bf16 then fmtBF16 else fmtE4M3
  fencode f (Config.nanBits 0x7E c 0) (fmul v (dec32 e.scale))

/-- Write the arrays of one block for every head: a row for each position of the range, and none for the positions of the last block
past it (DESIGN CHOICE, log entry 128). -/
def expandBlock (s : State) (n : Nat) (e : Expand) (fault : Bool) : State :=
  let r := e.rcd
  let es := if e.bf16 then 2 else 1
  let base := r.stageAddr + e.block % r.bufs * r.bufBytes
  let rows := r.blockRows e.block
  let blank (len : Nat) : SpmRd := ⟨List.replicate len (0, true), 0, s⟩
  let x := if fault then blank (rows * (r.wa * r.es)) else spmRead s n base (rows * (r.wa * r.es))
  let y := if fault then { blank (rows * (r.wb * r.es)) with st := x.st } else spmRead x.st n (base + 64 * r.wa * r.es) (rows * (r.wb * r.es))
  let uk := spmRead y.st n e.uk (r.wa * e.heads * e.kd * r.es)
  let uv := spmRead uk.st n e.uv (r.wa * e.heads * e.vd * r.es)
  let s := countStall uv.st n 11 (2 * (x.ce + y.ce + uk.ce + uv.ce))
  let mk := valsOf r.fmt r.es uk.bytes
  let mv := valsOf r.fmt r.es uv.bytes
  let mats := anyPoison uk.bytes || anyPoison uv.bytes
  let rowA (j : Nat) : List PByte := slice x.bytes (j * r.wa * r.es) (r.wa * r.es)
  let rowB (j : Nat) : List PByte := slice y.bytes (j * r.wb * r.es) (r.wb * r.es)
  let s := if mats || anyPoison x.bytes || anyPoison y.bytes then thrFlag s n 0 else s
  let code (c : Nat) (p : Bool) : List PByte := (leBytes es c).map fun b => (b, p)
  -- the rotary component keeps its value; a BF16 array holds it in BF16
  let rot (j : Nat) : List PByte := if e.bf16 then
      (rowB j).flatMap fun b => code (fencode fmtBF16 (Config.nanBits 0x7F b.1.toNat 0) (fdecode r.fmt b.1.toNat)) b.2
    else rowB j
  let (kb, vb) := expandBytes e
  let blocks := r.blocks
  let vbase := e.dest + e.heads * blocks * kb
  (List.range e.heads).foldl (fun s h =>
    let k := (List.range rows).flatMap fun j =>
      let lat := valsOf r.fmt r.es (rowA j)
      ((List.range e.kd).flatMap fun c => code (expandElem e lat mk (e.heads * e.kd) (h * e.kd + c)) (mats || anyPoison (rowA j)))
        ++ rot j
    let v := (List.range rows).flatMap fun j =>
      let lat := valsOf r.fmt r.es (rowA j)
      (List.range e.vd).flatMap fun c => code (expandElem e lat mv (e.heads * e.vd) (h * e.vd + c)) (mats || anyPoison (rowA j))
    let s := spmWrite s n (e.dest + (h * blocks + e.block) * kb) k .engine
    spmWrite s n (vbase + (h * blocks + e.block) * vb) v .engine) s

/-- Expand every block that has been staged and not yet expanded; `fuel` blocks at most. -/
def expandStaged : Nat → State → Nat → State
  | 0, s, _ => s
  | f + 1, s, n =>
    match (thr s n).expand with
    | none => s
    | some e =>
      match findFetch s n e.stream with
      | none => s
      | some st =>
        if e.block < st.fetched then
          let s := expandBlock s n e (st.faults.contains e.block)
          let s := modThr s n fun t => { t with expand := some { e with block := e.block + 1 } }
          expandStaged f (modFetch s n e.stream fun x => { x with read := e.block + 1 }) n
        else s

/-- EXPAND_DONE: every block has been expanded; the stream closes and the semaphore posts (R135, R158). -/
def expandDone (s : State) (n : Nat) : State :=
  let blocks := match (thr s n).expand with | some e => e.rcd.blocks | none => 0
  let s := expandStaged blocks s n
  match (thr s n).expand with
  | none => s
  | some e =>
    if e.block < e.rcd.blocks then s
    else
      let s := modThr (closeFetch s n e.stream) n fun t => { t with expand := none }
      match e.sem with
      | some k => semPost s (256 * n + k) 1
      | none => s

/-! ### The slot (R158) -/

/-- A decoded Thresher operation. -/
inductive ThrOp
  | attend (a : Nat) (r : AttRec)
  | kvfetch (a : Nat) (r : AttRec)
  | kvwrite (r : AttRec) (p cnt src : Nat) (sem : Option Nat)
  | kvcompact (r : AttRec) (idx : List Nat) (sem : Option Nat)
  | expand (e : Expand)

/-- Decode the slot: none is a NOP, an error an illegal bundle (R116, R158, R168). -/
def thrDecode (s : State) (n v : Nat) : Except Unit (Option ThrOp) × State :=
  let op := natBits v 31 28
  let sem : Option Nat := if natBit v 8 then some (natBits v 7 0) else none
  if op = 0 then (if natBits v 17 9 = 0 then .ok none else .error (), s)
  else if 5 < op ∨ natBits v 17 9 ≠ 0 ∨ !hasThresher s.part ∨ (op ≤ 2 ∧ natBit v 8) then (.error (), s)
  else match recordAddr (readAR s n (natBits v 27 23)) with
    | none => (.error (), s)
    | some a =>
      let r := readAttRec s n a
      match r.1 with
      | none => (.error (), r.2)
      | some q =>
        if op = 1 then (.ok (some (.attend a q)), r.2)
        else if op = 2 then (.ok (some (.kvfetch a q)), r.2)
        else match recordAddr (readAR r.2 n (natBits v 22 18)) with
          | none => (.error (), r.2)
          | some b =>
            let x := spmRead r.2 n b 128
            let s := countStall x.st n 11 (2 * x.ce)
            let d := plain x.bytes
            if anyPoison x.bytes then (.error (), s)
            else if op = 3 then
              let cnt := leField d 4 1
              (if 1 ≤ cnt ∧ cnt ≤ 64 ∧ leField d 8 4 % 64 = 0 then
                .ok (some (.kvwrite q (leField d 0 4 % 2 ^ 24) cnt (leField d 8 4) sem)) else .error (), s)
            else if op = 4 then
              let k := leField d 0 1
              let idx := (slice d 64 k).map (·.toNat)
              let rising := (idx.zip (idx.drop 1)).all fun p => decide (p.1 < p.2)
              (if 1 ≤ k ∧ k ≤ 64 ∧ rising then .ok (some (.kvcompact q idx sem)) else .error (), s)
            else
              let heads := leField d 16 1
              let e : Expand := {
                recAddr := a, stream := 0, rcd := q, uk := leField d 0 4, uv := leField d 4 4, dest := leField d 8 4,
                scale := BitVec.ofNat 32 (leField d 12 4), heads, bf16 := natBit (leField d 17 1) 0,
                kd := leField d 18 2, vd := leField d 20 2, block := 0, sem }
              (if q.mode = 1 ∧ 1 ≤ heads ∧ heads ≤ 64 then .ok (some (.expand e)) else .error (), s)

/-- Would the operation hold the island: the rank of the cause (R119, R127, R161, R166). -/
def thrHold (s : State) (n : Nat) : ThrOp → Option Nat
  | .attend a r =>
    if (thr s n).queued.isSome ∧ (thr s n).running.isSome then some 4
    else if r.mode = 2 then none
    else if (freeFetch s n a).isSome then none
    else if 4 ≤ (thr s n).streams.length then some 4
    else if (freeEntry s n).isNone then some 3 else none
  | .kvfetch _ _ =>
    if 4 ≤ (thr s n).streams.length then some 4 else if (freeEntry s n).isNone then some 3 else none
  | .kvwrite .. | .kvcompact .. => if (freeEntry s n).isNone then some 3 else none
  | .expand e =>
    if (thr s n).expand.isSome then some 7
    else if (freeFetch s n e.recAddr).isSome then none
    else if 4 ≤ (thr s n).streams.length then some 4
    else if (freeEntry s n).isNone then some 3 else none

/-- Issue the operation. -/
def thrIssue (s : State) (n : Nat) : ThrOp → State
  | .attend a r =>
    let b : Option Nat × State := if r.mode = 2 then (none, s) else ((bindFetch s n a r).map some id)
    let run : AttRun := { stream := b.1, rcd := r, block := 0, rows := [] }
    modThr b.2 n fun t => match t.running with
      | none => { t with running := some run }
      | some _ => { t with queued := some run }
  | .kvfetch a r => openFetch s n a r false
  | .kvwrite r p cnt src sem => kvWriteOp s n r p cnt src sem
  | .kvcompact r idx sem => kvCompactOp s n r idx sem
  | .expand e =>
    let b := bindFetch s n e.recAddr e.rcd
    modThr b.2 n fun t => { t with expand := some { e with stream := b.1 } }

end Sys2Proof.Machine
end

