-- ==== Sys2Proof/Machine/Tine.lean ====
section
/-! DEFINITION. Tines (R22–R45, R47–R57, R151–R154): pairings, slices, group sums, rescaling, drains, masks, the diagonal
path and Cube compatibility mode. -/

namespace Sys2Proof.Machine

/-! ### Pairings and layout -/

def isFp8 : EFmt → Bool
  | .e4m3 | .e5m2 => true
  | _ => false

def isFp6 : EFmt → Bool
  | .e2m3 | .e3m2 => true
  | _ => false

/-- A weight read as an MX format: an FP6 code, or any weight under scale mode E8M0 (R152). -/
def isMx (w : EFmt) (smode : Nat) : Bool := isFp6 w || decide (smode = 2)

/-- K positions per slot of an operand pairing, none where R23 (and R56 for MX weights) names no such pairing. BF16 activations
take INT8 and INT4 weights: the table's row says so, a sentence after it says otherwise (DESIGN CHOICE, log entry 115). -/
def slotWidth (a w : EFmt) (mx : Bool) : Option Nat :=
  match a, w with
  | .int8, .int8 => some 1
  | .int8, .int4 => some 2
  | .int4, .int4 => some 2
  | .e2m1, .e2m1 => if mx then none else some 2
  | .bf16, .fp32 => none
  | .bf16, _ => some 1
  | a, w =>
    if isFp8 a then
      if isFp8 w then some 1
      else if w = .e2m1 then some 2
      else if isFp6 w then some 1
      else none
    else none

/-- Legal pairing of scale mode, group size and weight format (R52, R56). An FP6 weight under NONE takes group size 32 alone
(DESIGN CHOICE, log entry 116). -/
def scaleLegal (a w : EFmt) (smode gsize : Nat) : Bool :=
  match smode with
  | 0 => if isFp6 w then decide (gsize = 0) else decide (gsize ≤ 2)
  | 1 => decide (gsize ≤ 2) && !isFp6 w && decide (w ≠ .bf16)
  | 2 => decide (gsize = 0) && (isFp8 w || isFp6 w || decide (w = .e2m1)) && (isFp8 a || decide (a = .bf16))
  | _ => false

/-- Group size in K positions (R152). -/
def groupLen (gsize : Nat) : Nat := 32 * 2 ^ gsize

/-- K positions that one stored slice of an operand holds: two for 4-bit elements and in two-position slots (R48). -/
def storedStep (f : EFmt) (s : Nat) : Nat := if efmtBits f = 4 then 2 else s

/-- Bytes of one stored slice of 64 lanes (R23, R48; weights of BF16 mode in their stored format, log entry 22). -/
def sliceBytes (f : EFmt) (s : Nat) : Nat := 64 * efmtBits f * storedStep f s / 8

/-- Row tiles and column tiles of a gang shape (R24). -/
def gangRows : Nat → Nat
  | 1 => 2 | 3 => 4 | _ => 1
def gangCols : Nat → Nat
  | 1 => 2 | 2 => 4 | _ => 1

/-- Row tile and column tile that Tine t computes (R24). -/
def gangPlace (gang t : Nat) : Nat × Nat :=
  match gang with
  | 1 => (t / 2, t % 2)
  | 2 => (0, t)
  | 3 => (t, 0)
  | _ => (0, 0)

/-- The Tines that an instruction drives. -/
def gangTines (gang t : Nat) : List Nat := if gang = 0 then [t] else [0, 1, 2, 3]

/-- The element of lane i at K position k (counted from the first slice given) in stored slices (R48). -/
def laneElem (f : EFmt) (s : Nat) (bs : List PByte) (sliceLen i k : Nat) : Nat × Bool :=
  let t := k / storedStep f s
  let base := t * sliceLen
  let b := efmtBits f
  if b = 4 then
    let (v, p) := elemAt 8 (slice bs (base + i) 1) 0
    (if k % 2 = 0 then v % 16 else v / 16, p)
  else if b = 8 then elemAt 8 (slice bs (base + storedStep f s * i + k % storedStep f s) 1) 0
  else elemAt b (slice bs base sliceLen) i

/-! ### Reading operands -/

/-- The bytes of one operand for `slots` slots of `width` bytes from slot `slot0`. `none` where a FEED row has not been supplied
yet. -/
def fetchSlots (s : State) (n : Nat) (src : TineSrc) (row0 slot0 slots width : Nat) (need : Nat → Bool) : Option SpmRd :=
  match src with
  | .spm o => some (readOperandNeed s n o (slot0 * width) (slots * width) need)
  | .strm num =>
    match findStream (s.core n) num with
    | none => none
    | some h => (streamBytes h (row0 + slot0) slots).map fun bs => ⟨bs, 0, s⟩

/-! ### Group sums and rescaling -/

/-- Value of an element code of an operand. -/
def operandVal (f : EFmt) (mx : Bool) (code : Nat) : FVal := if mx then (mxVal f code).1 else elemVal f code

/-- The group partial of one cell (R25): exact in every mode but BF16, where each product is added into FP32. -/
def groupPartial (bf16 : Bool) : List (FVal × FVal) → FVal → FVal
  | [], p => p
  | (a, b) :: t, p => groupPartial bf16 t (if bf16 then rnd32 (ffma a b p) else ffma a b p)

/-- One accumulator update (R55): the combined scale, then one fused rounding; a zero group scale adds +0. -/
def rescaleCell (acc : Word) (p : FVal) (a : Word) (g : FVal) : Word :=
  if g.isZero then enc32 (Config.nanBits 0x55 acc.toNat 0) (fadd (dec32 acc) fzero)
  else
    let c := rnd32 (fmul (dec32 a) g)
    enc32 (Config.nanBits 0x55 acc.toNat a.toNat) (ffma p c (dec32 acc))

/-- Raise flags of TINEn_ERR_STATUS. -/
def tineFlag (s : State) (n : Nat) (m : Word) : State := s.raise (coreReg n Reg.TINEn_ERR_STATUS) m

/-- Replace Tine t of core n. -/
def setTine (s : State) (n t : Nat) (x : TineState) : State :=
  s.modCore n fun c => { c with tines := c.tines.setIfInBounds t x }

/-- Tine t of core n. -/
def getTine (s : State) (n t : Nat) : TineState := (s.core n).tines[t]?.getD {}

/-- Close the FEED streams whose last row has been consumed (R106): all rows claimed, and no accepted instruction still
to read one. -/
def closeFeeds (s : State) (n : Nat) : State :=
  let used (num : Nat) : Bool := (s.core n).tines.toList.any fun t => t.queue.any fun i => decide (i.act = .strm num) || decide (i.wgt = .strm num)
  (List.range 4).foldl (fun s num => match findStream (s.core n) num with
    | some h => (match h.dest with
      | .feed .. => if h.claimed = streamRows h ∧ !used num then closeStream s n num else s
      | .spm _ => s)
    | none => s) s

/-- Everything one group needs of its instruction: formats, K positions per slot, group length, first position and positions with
data. -/
structure GroupPlan where
  af : EFmt
  wf : EFmt
  mx : Bool
  s : Nat
  gs : Nat
  k0 : Nat
  kn : Nat

def groupPlan (i : MmaInstr) : GroupPlan :=
  let af := (efmtOfCode i.rcd.afmt).getD .int8
  let wf := (efmtOfCode i.rcd.wfmt).getD .int8
  let mx := isMx wf i.rcd.smode
  let gs := groupLen i.rcd.gsize
  { af, wf, mx, s := (slotWidth af wf mx).getD 1, gs, k0 := i.group * gs, kn := min gs (i.k - i.group * gs) }

/-- The decoded group scales of the columns, and whether one is poisoned or the reserved poison code (R49, R50, R53). -/
def groupScales (smode : Nat) (bs : List PByte) : List FVal × Bool :=
  let g := (plain bs).map fun b => match smode with
    | 1 => (ue4m4 b.toNat)
    | 2 => some (e8m0 b.toNat)
    | _ => some fone
  (g.map (·.getD fzero), g.any Option.isNone || anyPoison bs)

/-- Output row r of the whole gang tile is masked (R36). -/
def rowMasked (i : MmaInstr) (r : Nat) : Bool := i.rcd.maskEn && i.mask.getLsbD r

/-- What one group brings to the Tines it drives, read once for all of them (R24): activation, weight and scale slices. -/
structure GroupData where
  acts : List PByte
  wgts : List PByte
  scales : List PByte
  ce : Nat
  st : State

/-- Read a group's slices: no word that only masked rows need (R36), and one scale slice (R53). -/
def fetchGroup (s : State) (n : Nat) (i : MmaInstr) (p : GroupPlan) (scalePtr : Nat) : Option GroupData :=
  let aLen := sliceBytes p.af p.s
  let wLen := sliceBytes p.wf p.s
  let aStep := storedStep p.af p.s
  let wStep := storedStep p.wf p.s
  let parts := gangRows i.gang
  let rowOf (b : Nat) : Nat := -- the output row that byte b of the activation slices belongs to
    let x := b % aLen
    64 * (b / aLen % parts) + (if efmtBits p.af = 16 then x / 2 else if efmtBits p.af = 8 then x / aStep else x)
  match fetchSlots s n i.act i.actRow (p.k0 / aStep) (ceilDiv p.kn aStep) (parts * aLen) fun b => !rowMasked i (rowOf b) with
  | none => none
  | some ra =>
  match fetchSlots ra.st n i.wgt i.wgtRow (p.k0 / wStep) (ceilDiv p.kn wStep) (gangCols i.gang * wLen) fun _ => true with
  | none => none
  | some rw =>
  let rs : SpmRd := if i.rcd.smode = 0 then ⟨List.replicate (64 * gangCols i.gang) (0, false), 0, rw.st⟩
    else spmRead rw.st n scalePtr (64 * gangCols i.gang)
  some ⟨ra.bytes, rw.bytes, rs.bytes, ra.ce + rw.ce + rs.ce, rs.st⟩

/-- Elements of one operand of a group: for each row (or column) of the gang tile, its codes at the group's K positions. -/
def groupElems (f : EFmt) (p : GroupPlan) (parts : Nat) (bs : List PByte) : List (List (Nat × Bool)) :=
  let len := sliceBytes f p.s
  (List.range parts).flatMap fun q =>
    let own := (List.range (ceilDiv p.kn (storedStep f p.s))).flatMap fun t => slice bs ((t * parts + q) * len) len
    (List.range 64).map fun r => (List.range p.kn).map fun k => laneElem f p.s own len r k

/-- What a group's slices come to: operand values of every row and column of the gang tile, the column scales, and whether the
group taints the tile (R35: poison in any slice, weight block or group scale, of every Tine it goes to). -/
structure GroupVals where
  acts : List (List FVal)
  wgts : List (List FVal)
  scales : List FVal
  taint : Bool
  /-- weight elements read as saturated (R47) -/
  sats : Nat

def groupVals (i : MmaInstr) (p : GroupPlan) (d : GroupData) : GroupVals :=
  let a := groupElems p.af p (gangRows i.gang) d.acts
  let w := groupElems p.wf p (gangCols i.gang) d.wgts
  let g := groupScales i.rcd.smode d.scales
  { acts := a.map fun e => e.map fun x => operandVal p.af false x.1
    wgts := w.map fun e => e.map fun x => operandVal p.wf p.mx x.1
    scales := g.1
    taint := i.bad || g.2 || (a.zipIdx.any fun e => !rowMasked i e.2 && e.1.any (·.2)) || w.any fun e => e.any (·.2)
    sats := if p.mx then (w.map fun e => e.countP fun x => (mxVal p.wf x.1).2).sum else 0 }

/-- Program cycles that a slot takes, and from a slot's entry to the accumulator write of a group that ends on it (R23, R38). -/
def slotCycles (f : EFmt) : Nat := if f = .bf16 then 4 else 1
def writeLatency (f : EFmt) : Nat := match f with
  | .int8 | .int4 => 8
  | .bf16 => 10
  | _ => 9

/-- Program cycles that an instruction's slots take, pads included (R37). -/
def instrCycles (i : MmaInstr) : Nat :=
  let p := groupPlan i
  ceilDiv i.k p.gs * (p.gs / p.s) * slotCycles p.af

/-- Program cycle of the accumulator write of the instruction's current group (R38). -/
def groupDue (i : MmaInstr) : Nat :=
  let p := groupPlan i
  i.start + (i.group + 1) * (p.gs / p.s) * slotCycles p.af - 1 + writeLatency p.af

/-- The instruction's current group is its last. -/
def groupEnds (i : MmaInstr) : Bool := decide (i.k ≤ (i.group + 1) * groupLen i.rcd.gsize)

/-- The group is the first of its tile: it clears its bank (R27). -/
def groupFirst (i : MmaInstr) : Bool := i.init && decide (i.group = 0)

/-- The accumulators of one Tine after a group (R25, R55, R57): cell (r, j) of the Tine at row tile and column tile `place`. -/
def groupAcc (i : MmaInstr) (p : GroupPlan) (v : GroupVals) (place : Nat × Nat) (acc0 : Store Word) : Store Word :=
  ((List.range 64).filter fun r => !rowMasked i (64 * place.1 + r)).foldl (fun (m : Store Word) r =>
    let av := (v.acts[64 * place.1 + r]?).getD []
    (List.range 64).foldl (fun (m : Store Word) j =>
      let part := groupPartial (decide (p.af = .bf16)) (av.zip ((v.wgts[64 * place.2 + j]?).getD [])) fzero
      storeSet 0 m (64 * r + j)
        (rescaleCell (storeGet 0 m (64 * r + j)) part i.scale ((v.scales[64 * place.2 + j]?).getD fone))) m) acc0

/-- A finished tile waits for the drain port of Tine t: the drains of a gang run in the order of the Tines (R24, R29). -/
def finishTile (x : TineState) (i : MmaInstr) (t : Nat) (acc : Store Word) (taint : Bool) (due : Nat) : TineState :=
  let begins := max (due + 1) x.portFree + (if i.gang = 0 then 0 else 64 * t)
  { x with
    acc := [], accBusy := false, taint := false, bank := !x.bank, portFree := begins + 64
    drains := x.drains ++ [{
      bank := x.bank, tileId := i.tileId, gang := i.gang, acc := acc,
      mask := if i.rcd.maskEn then BitVec.ofNat 64 (i.mask.toNat >>> (64 * (gangPlace i.gang t).1)) else 0,
      taint := taint, rcd := i.rcd, cube := false, intBlocks := [], start := begins, row := 0, scales := none }] }

/-- The rescale stage of Tine t takes a group (R25, R29, R36, R37, R53). -/
def rescaleTine (n : Nat) (i : MmaInstr) (p : GroupPlan) (v : GroupVals) (scalePtr : Nat) (s : State) (t : Nat) : State :=
  let x := getTine s n t
  let place := gangPlace i.gang t
  let acc := groupAcc i p v place (if groupFirst i then [] else x.acc)
  let taint := (!groupFirst i && x.taint) || v.taint
  let slots := p.gs / p.s
  let masked := (List.range 64).countP fun r => rowMasked i (64 * place.1 + r)
  let s := s.bump (coreReg n Reg.TINEn_MASK_SLOT_CNT) (slots * masked)
  let s := s.bump (coreReg n Reg.TINEn_PAD_SLOT_CNT) (slots - ceilDiv p.kn p.s)
  let x := { x with acc := acc, accBusy := true, taint := taint,
                    scalePtr := if i.rcd.smode = 0 then scalePtr else scalePtr + 64 * gangCols i.gang }
  setTine s n t (
    if !groupEnds i then { x with queue := { i with group := i.group + 1 } :: x.queue.drop 1 }
    else
      let x := { x with queue := x.queue.drop 1 }
      if i.last then finishTile x i t acc taint (groupDue i) else x)

/-- The rows of a FEED stream through the group's last slot have been consumed (R106). -/
def consumeRows (s : State) (n : Nat) (src : TineSrc) (last : Nat) : State :=
  match src with
  | .spm _ => s
  | .strm num =>
    match findStream (s.core n) num with
    | some h => pastRow s n h last
    | none => s

/-- The current group of the instruction in front of Tine t enters the rescale stage of every Tine that the instruction drives
(R24, R25, R35–R37, R53, R55, R57); while a FEED row is missing the island stalls instead (R107). -/
def rescaleGroup (s : State) (n t : Nat) (i : MmaInstr) : State :=
  let p := groupPlan i
  let scalePtr := if groupFirst i then i.rcd.scaleAddr else (getTine s n t).scalePtr
  match fetchGroup s n i p scalePtr with
  | none => countStall s n 13 1
  | some d =>
    let v := groupVals i p d
    let s := countStall d.st n 12 (2 * d.ce)
    let s := if 0 < v.sats then s.bump (coreReg n Reg.VUn_SAT_TOTAL_CNT) v.sats else s
    let s := (gangTines i.gang t).foldl (rescaleTine n i p v scalePtr) s
    let last (row0 : Nat) (f : EFmt) : Nat := row0 + p.k0 / storedStep f p.s + ceilDiv p.kn (storedStep f p.s) - 1
    let s := consumeRows s n i.act (last i.actRow p.af)
    let s := consumeRows s n i.wgt (last i.wgtRow p.wf)
    if groupEnds i then closeFeeds s n else s

/-- The instruction in front of Tine t, once every Tine it drives has it in front (R24, R153). -/
def frontInstr (s : State) (n t : Nat) : Option MmaInstr :=
  match (getTine s n t).queue with
  | [] => none
  | i :: _ => if (gangTines i.gang t).all fun u => decide ((getTine s n u).queue.head? = some i) then some i else none

/-- A tile's first accumulator write finds both banks of a Tine occupied (R29). -/
def rescaleHeld (s : State) (n t : Nat) (i : MmaInstr) : Bool :=
  groupFirst i && (gangTines i.gang t).any fun u => decide (2 ≤ (getTine s n u).drains.length)

/-- TINE_RESCALE on Tine t of core n (R24, R29, R55): nothing when no instruction runs or a gang is not in front of all four
Tines; a drain hold while both banks are occupied at a tile's first accumulator write; otherwise the group is processed. -/
def tineRescale (s : State) (n t : Nat) : State :=
  match frontInstr s n t with
  | none => s
  | some i => if rescaleHeld s n t i then countStall s n 1 1 else rescaleGroup s n t i

/-! ### Drain -/

/-- One drained element (R28, R51): times its row scale, then converted. A Cube INT32 element is converted exactly as read. -/
def drainElem (d : BankDrain) (scale : Word) (i j : Nat) : FVal :=
  let w := storeGet 0 d.acc (64 * i + j)
  if d.cube then
    if storeGet false d.intBlocks (i / 8 * 8 + j / 8) then FVal.ofInt w.toInt else dec32 w
  else rnd32 (fmul (dec32 w) (dec32 scale))

/-- The code a drain writes, and whether it is an infinity or a NaN. -/
def drainCode (bf16 : Bool) (w : Nat) (v : FVal) : Nat × Bool × Bool :=
  let f := if bf16 then fmtBF16 else fmtFP32
  let c := fencode f (Config.nanBits 0x28 w 0) v
  let back := fdecode f c
  (c, back.isInf, back.isNan)

/-- Drain one row: to the scratchpad, or to the Vector Unit input queue (R28, R36, R157). Column tile c of a gang lies 64 × c
elements into the row's destination, also where the drain width is below 64 (DESIGN CHOICE, log entry 117). A tainted tile raises
POISON_OUT alone: its elements have no value that could be an infinity or a NaN (DESIGN CHOICE, log entry 118). -/
def drainRow (s : State) (n t : Nat) (d : BankDrain) (scales : List Word) (i : Nat) : State :=
  if d.mask.getLsbD i then s else
  let place := gangPlace d.gang t
  let es := if d.rcd.dbf16 then 2 else 4
  let codes := (List.range d.rcd.width).map fun j =>
    drainCode d.rcd.dbf16 (storeGet 0 d.acc (64 * i + j)).toNat (drainElem d ((scales[j]?).getD 0) i j)
  let bytes : List PByte := codes.flatMap fun c => (leBytes es c.1).map fun b => (b, d.taint)
  let s := if d.taint then tineFlag s n (bitMask 0)
    else
      let s := if codes.any (·.2.1) then tineFlag s n (bitMask 2) else s
      if codes.any (·.2.2) then tineFlag s n (bitMask 1) else s
  if d.rcd.dvu then s.modCore n fun c => { c with vuq := c.vuq ++ [⟨d.rcd.dbf16, bytes⟩] }
  else spmWrite s n (d.rcd.dest + (64 * place.1 + i) * d.rcd.dstride + 64 * place.2 * es) bytes .engine

/-- Must another Tine of the gang drain first (R24)? -/
def gangWaits (s : State) (n t : Nat) (d : BankDrain) : Bool :=
  decide (d.gang ≠ 0) && (List.range t).any fun u =>
    let x := getTine s n u
    (x.drains.any fun e => decide (e.tileId = d.tileId)) || (x.queue.any fun e => decide (e.tileId = d.tileId))

/-- The row scales of a drain, read when it begins, with whether one is poisoned: a poisoned scale then taints every row, those of
columns beyond the drain width included (DESIGN CHOICE, log entry 119). A Cube drain applies none (R40). -/
def drainScales (s : State) (n t : Nat) (d : BankDrain) : (List Word × Bool) × State :=
  match d.scales with
  | some x => (x, s)
  | none =>
    if d.cube then (([], false), s)
    else
      let rs := spmRead s n (d.rcd.rowScale + 256 * (gangPlace d.gang t).2) 256
      ((leWords (plain rs.bytes), anyPoison rs.bytes), countStall rs.st n 12 (2 * rs.ce))

/-- Room for a drained row in the Vector Unit input queue (R157). -/
def vuqRoom (s : State) (n : Nat) : Bool := decide ((s.core n).vuq.length < 128)

/-- Drain the next row of Tine t's oldest finished bank, after which the bank is free when the row was its last (R28, R29): none
where no drain can go on. -/
def drainNext (s : State) (n t : Nat) : Option State :=
  match (getTine s n t).drains with
  | [] => none
  | d :: rest =>
    if !(getTine s n t).diagRows.isEmpty || gangWaits s n t d || (d.rcd.dvu && !d.mask.getLsbD d.row && !vuqRoom s n) then none
    else
      let r := drainScales s n t d
      let d := { d with scales := some r.1, taint := d.taint || r.1.2 }
      let s := drainRow r.2 n t d r.1.1 d.row
      let x := getTine s n t
      if d.row < 63 then some (setTine s n t { x with drains := { d with row := d.row + 1 } :: rest })
      else some (setTine (s.bump (coreReg n Reg.TINEn_TILE_CNT) 1) n t { x with drains := rest })

/-- Drain up to `k` rows. -/
def drainRows : Nat → State → Nat → Nat → State
  | 0, s, _, _ => s
  | k + 1, s, n, t => match drainNext s n t with
    | some s => drainRows k s n t
    | none => s

/-- Move the vectors of a DIAG that wait into the Vector Unit input queue, as far as there is room (R39, R157). -/
def diagRowsOut (s : State) (n t : Nat) : State :=
  let x := getTine s n t
  let k := 128 - (s.core n).vuq.length
  let s := s.modCore n fun c => { c with vuq := c.vuq ++ x.diagRows.take k }
  setTine s n t { getTine s n t with diagRows := x.diagRows.drop k }

/-- The drain port of Tine t faces a full Vector Unit input queue (R157). -/
def drainBlocked (s : State) (n t : Nat) : Bool :=
  !vuqRoom s n && (!(getTine s n t).diagRows.isEmpty || (match (getTine s n t).drains with
    | [] => false
    | d :: _ => d.rcd.dvu && !d.mask.getLsbD d.row && !gangWaits s n t d))

/-- TINE_DRAIN of Tine t (R28, R29, R33, R35, R36, R157): the rows left of the oldest finished bank in order, as far as the Vector
Unit input queue has room; a drain to a full queue is a drain hold. -/
def tineDrain (s : State) (n t : Nat) : State :=
  let s := diagRowsOut s n t
  let left := match (getTine s n t).drains with | [] => 0 | d :: _ => 64 - d.row
  let s := drainRows left s n t
  if drainBlocked s n t then countStall s n 1 1 else s

/-! ### Program time (R33, R38) -/

/-- The Tine event of the earliest program cycle, c at the latest: its cycle, its Tine, and whether it is a drained row. -/
def nextTineEvent (s : State) (n c : Nat) : Option (Nat × Nat × Bool) :=
  let evs : List (Nat × Nat × Bool) := (List.range 4).flatMap fun t =>
    (match (getTine s n t).drains with | [] => [] | d :: _ => [(d.start + d.row + 5, t, true)])
      ++ (match frontInstr s n t with
        | some i => if i.gang = 0 ∨ t = 0 then [(groupDue i, t, false)] else []
        | none => [])
  (evs.filter fun e => decide (e.1 ≤ c)).foldl (fun (m : Option (Nat × Nat × Bool)) e =>
    match m with
    | none => some e
    | some x => if e.1 < x.1 then some e else some x) none

/-- Banks of Tine t whose last row is read after program cycle c (R29: a write may fall in the cycle of the last read). -/
def banksAt (s : State) (n t c : Nat) : Nat := (getTine s n t).drains.countP fun d => decide (c < d.start + 63)

/-- A tile's first accumulator write at program cycle c finds both banks of a Tine occupied (R29). -/
def heldAt (s : State) (n t c : Nat) (i : MmaInstr) : Bool :=
  groupFirst i && (gangTines i.gang t).any fun u => decide (2 ≤ banksAt s n u c)

/-- The drain that follows one that ended in a drain hold at program cycle c begins in the cycle after (R29). -/
def portEarly (s : State) (n t c : Nat) : State :=
  let x := getTine s n t
  match x.drains with
  | [] => setTine s n t { x with portFree := min x.portFree (c + 1) }
  | d :: rest => setTine s n t { x with drains := { d with start := min d.start (c + 1) } :: rest, portFree := min x.portFree (c + 65) }

/-- The drain of Tine t runs on through a drain hold at program cycle c until a bank is free (R29, R32): each row not yet read takes
a hold cycle, as far as the drain can go on. -/
def holdDrain : Nat → State → Nat → Nat → Nat → State
  | 0, s, _, _, _ => s
  | k + 1, s, n, t, c =>
    if banksAt s n t c < 2 then portEarly s n t c
    else
      let unread := match (getTine s n t).drains with | [] => false | d :: _ => decide (c < d.start + d.row)
      match drainNext s n t with
      | some s => holdDrain k (if unread then countStall s n 1 1 else s) n t c
      | none => s

/-- The Tines' work that falls due at program cycle c or before, in order of time; `fuel` events at most. An event that cannot
happen yet ends it: the drain faces a full queue, or a FEED row is missing. -/
def tineWork : Nat → State → Nat → Nat → State
  | 0, s, _, _ => s
  | f + 1, s, n, c =>
    match nextTineEvent s n c with
    | none => s
    | some (_, t, true) => (match drainNext (diagRowsOut s n t) n t with | some s => tineWork f s n c | none => s)
    | some (when, t, false) =>
      match frontInstr s n t with
      | none => s
      | some i =>
        let s := if heldAt s n t when i then (gangTines i.gang t).foldl (fun s u => holdDrain 65 s n u when) s else s
        if heldAt s n t when i then s
        else match fetchGroup s n i (groupPlan i) 0 with
          | none => s
          | some _ => tineWork f (rescaleGroup s n t i) n c

/-- Tine events that can be due: groups of the instructions accepted, and 64 rows of each tile that is finished or finishes. -/
def tineFuel (s : State) (n : Nat) : Nat := ((List.range 4).map fun t =>
  ((getTine s n t).queue.map fun i => ceilDiv i.k (groupLen i.rcd.gsize) + 64).sum + 64 * (getTine s n t).drains.length).sum

/-- The rank of the stall that Tine work still due at program cycle c gives: a drain hold, or a bubble for a FEED row (R34). -/
def tineLate (s : State) (n c : Nat) : Option Nat :=
  match nextTineEvent s n c with
  | none => none
  | some (_, t, true) => if drainBlocked s n t then some 1 else none
  | some (when, t, false) => match frontInstr s n t with
    | some i => if heldAt s n t when i then some 1 else some 13
    | none => none

/-! ### Diagonal path (R39) -/

/-- One DIAG vector: 64 elements of a and b, and the destination's previous contents for a × b + c, which are read at DEST also
where the result goes to the Vector Unit (DESIGN CHOICE, log entry 120). a × b + c rounds once, straight to the destination format
(DESIGN CHOICE, log entry 121). -/
def diagVector (s : State) (n t : Nat) (r : TileRec) (a b : Operand) (v : Nat) : State :=
  let f : EFmt := if r.afmt = 7 then .bf16 else .fp32
  let es := efmtBits f / 8
  let of : EFmt := if r.dbf16 then .bf16 else .fp32
  let os := efmtBits of / 8
  let ra := readOperand s n a (64 * es * v) (64 * es)
  let rb := readOperand ra.st n b (64 * es * v) (64 * es)
  let rc := if r.smode = 2 then spmRead rb.st n (r.dest + r.dstride * v) (64 * os) else ⟨[], 0, rb.st⟩
  let out := (List.range 64).map fun i =>
    let x := elemAt (8 * es) ra.bytes i
    let y := elemAt (8 * es) rb.bytes i
    let z := elemAt (8 * os) rc.bytes i
    let val := match r.smode with
      | 0 => fmul (elemVal f x.1) (elemVal f y.1)
      | 1 => fadd (elemVal f x.1) (elemVal f y.1)
      | _ => ffma (elemVal f x.1) (elemVal f y.1) (elemVal of z.1)
    (fencode (if r.dbf16 then fmtBF16 else fmtFP32) (Config.nanBits 0x39 x.1 y.1) val, x.2 || y.2 || (decide (r.smode = 2) && z.2))
  let vals := out.filter (fun e => !e.2) |>.map fun e => elemVal of e.1
  let s := countStall rc.st n 12 (2 * (ra.ce + rb.ce + rc.ce))
  let s := if vals.any (·.isInf) then tineFlag s n (bitMask 2) else s
  let s := if vals.any (·.isNan) then tineFlag s n (bitMask 1) else s
  let s := if out.any (·.2) then tineFlag s n (bitMask 0) else s
  let bytes : List PByte := out.flatMap fun e => (leBytes os e.1).map fun b => (b, e.2)
  if r.dvu then setTine s n t { getTine s n t with diagRows := (getTine s n t).diagRows ++ [⟨r.dbf16, bytes⟩] }
  else spmWrite s n (r.dest + r.dstride * v) bytes .engine

/-! ### Cube compatibility mode (R40, R41, R154) -/

/-- One K position of an INT8 cube (R40): one product is added to the INT32 accumulator, which wraps; the second part says that
it has wrapped. -/
def cubeAddInt (w : Word × Bool) (x : Int) : Word × Bool :=
  let y := w.1.toInt + x
  (BitVec.ofInt 32 y, w.2 || decide (y < -2147483648 ∨ 2147483647 < y))

/-- One cube: C += A × B on an 8 × 8 block, K positions in order. Operands are row-major (log entry 23). A block whose format
changes between INT8 and floating point without FIRST goes on from the bits it holds (DESIGN CHOICE, log entry 122). -/
def cubeStep (s : State) (n : Nat) (entry : Nat) : State :=
  let t := natBits entry 63 62
  let blk := natBits entry 61 56
  let cf := natBits entry 55 54
  let f : EFmt := match cf with | 0 => .int8 | 1 => .e4m3 | 2 => .e5m2 | _ => .bf16
  let es := efmtBits f / 8
  let ra := spmRead s n (natBits entry 52 36 * 64) (64 * es)
  let rb := spmRead ra.st n (natBits entry 35 19 * 64) (64 * es)
  let s := countStall rb.st n 12 (2 * (ra.ce + rb.ce))
  let ti := getTine s n t
  let acc0 := if natBit entry 53 then storeErase (fun k => decide (k / 64 = blk)) ti.cubeAcc else ti.cubeAcc
  let a (i k : Nat) := (elemAt (8 * es) ra.bytes (8 * i + k)).1
  let b (k j : Nat) := (elemAt (8 * es) rb.bytes (8 * k + j)).1
  let stepInt (i j : Nat) (w : Word) : Word × Bool :=
    (List.range 8).foldl (fun x k => cubeAddInt x (signExt 8 (a i k) * signExt 8 (b k j))) (w, false)
  let stepFp (i j : Nat) (w : Word) : Word :=
    (List.range 8).foldl (fun w k => enc32 (Config.nanBits 0x40 w.toNat k) (ffma (elemVal f (a i k)) (elemVal f (b k j)) (dec32 w))) w
  let cells := (List.range 64).map fun c => (c / 8, c % 8)
  let old (c : Nat × Nat) : Word := storeGet 0 acc0 (64 * blk + 8 * c.1 + c.2)
  let acc := cells.foldl (fun m c => storeSet 0 m (64 * blk + 8 * c.1 + c.2)
    (if cf = 0 then (stepInt c.1 c.2 (old c)).1 else stepFp c.1 c.2 (old c))) acc0
  let wrapped := decide (cf = 0) && cells.any fun c => (stepInt c.1 c.2 (old c)).2
  let s := if wrapped && !ti.cubeWrapped then tineFlag s n (bitMask 3) else s
  setTine s n t { ti with cubeMode := true, cubeAcc := acc, cubeInt := storeSet false ti.cubeInt blk (decide (cf = 0)),
                          cubeTaint := ti.cubeTaint || anyPoison ra.bytes || anyPoison rb.bytes,
                          cubeWrapped := ti.cubeWrapped || wrapped }

/-- CSTORE (R154): the Tine's blocks wait for the drain port as one finished tile; block b covers the 8 × 8 cells of
block row b / 8 and block column b mod 8 (log entry 23). The next cubes start from zero, with FIRST or without (DESIGN CHOICE,
log entry 123). -/
def cubeStore (s : State) (n t tileId : Nat) (r : TileRec) : State :=
  let ti := getTine s n t
  let begins := max ((s.core n).prog + (if ti.cubeInt.isEmpty then 9 else 8)) ti.portFree
  let acc : Store Word := (List.range 4096).foldl (fun m x =>
    let i := x / 64
    let j := x % 64
    storeSet 0 m x (storeGet 0 ti.cubeAcc (64 * (i / 8 * 8 + j / 8) + 8 * (i % 8) + j % 8))) []
  setTine s n t { ti with
    cubeMode := false, cubeAcc := [], cubeInt := [], cubeTaint := false, cubeWrapped := false, bank := !ti.bank, portFree := begins + 64,
    drains := ti.drains ++ [{
      bank := ti.bank, tileId := tileId, gang := 0, acc := acc, mask := 0, taint := ti.cubeTaint, rcd := r, cube := true, intBlocks := ti.cubeInt, start := begins, row := 0, scales := none }] }

/-- A tile record (R152). -/
def parseTileRec (b : List Byte) : TileRec :=
  let b0 := leField b 0 1
  let b1 := leField b 1 1
  { afmt := natBits b0 7 4, wfmt := natBits b0 3 0, smode := natBits b1 7 6, gsize := natBits b1 5 4,
    dbf16 := natBit b1 3, dvu := natBit b1 2, maskEn := natBit b1 1, sht := leField b 2 1,
    width := 8 * (natBits (leField b 3 1) 7 5 + 1), scaleAddr := leField b 4 4, rowScale := leField b 8 4,
    maskAddr := leField b 12 4, dest := leField b 16 4, dstride := leField b 20 4 }

end Sys2Proof.Machine
end

