-- ==== Sys2Proof/Machine/Slots.lean ====
section
/-! DEFINITION. The slots of a bundle (R148, R151–R162): what each slot's operation is, whether it is legal, whether it
holds the island, and what it does when it issues. -/

namespace Sys2Proof.Machine

/-! ### Tine slot (R151–R154) -/

/-- The fields of the Tine slot. -/
structure TineSlot where
  op : Nat
  gang : Nat
  tine : Nat
  init : Bool
  last : Bool
  astrm : Bool
  wstrm : Bool
  rreg : Nat
  areg : Nat
  wreg : Nat
  ainc : Bool
  winc : Bool
  km1 : Nat
  deriving DecidableEq, Repr

def tineSlot (v : Nat) : TineSlot :=
  { op := natBits v 55 52, gang := natBits v 51 50, tine := natBits v 49 48, init := natBit v 47, last := natBit v 46,
    astrm := natBit v 45, wstrm := natBit v 44, rreg := natBits v 43 39, areg := natBits v 38 34, wreg := natBits v 33 29,
    ainc := natBit v 28, winc := natBit v 27, km1 := natBits v 15 0 }

/-- A decoded Tine operation, with the address-register increments it makes. -/
inductive TineOp
  | mma (tines : List Nat) (i : MmaInstr) (incs : List (Nat × Nat)) (claims : List (Nat × Nat))
  | diag (t : Nat) (r : TileRec) (a b : Operand) (vecs : Nat) (incs : List (Nat × Nat))
  | cube (entries : List Nat)
  | cstore (t : Nat) (r : TileRec)

/-- A tile is open on Tine t: an INIT without its LAST, or Cube blocks that no CSTORE has drained (R27, R40). -/
def tileOpen (s : State) (n t : Nat) : Bool := (getTine s n t).opened.isSome || (getTine s n t).cubeMode

/-- No open tile and an idle drain (R39). -/
def tineIdle (s : State) (n t : Nat) : Bool :=
  !tileOpen s n t && (getTine s n t).queue.isEmpty && (getTine s n t).drains.isEmpty

/-- The tile record that register r names; none where the register or the record breaks R147 or R152. A poisoned record is
refused (log entry 31). -/
def readTileRec (s : State) (n r : Nat) : Option TileRec × State :=
  match recordAddr (readAR s n r) with
  | none => (none, s)
  | some a =>
    let b := spmRead s n a 64
    (if anyPoison b.bytes then none else some (parseTileRec (plain b.bytes)), countStall b.st n 12 (2 * b.ce))

/-- An MMA operand from the scratchpad or from a FEED stream: the source and the stream's first row (R106, R147, R151). -/
def mmaSource (s : State) (n : Nat) (t : TineSlot) (weight : Bool) (total rows width : Nat) : Option (TineSrc × Nat) :=
  let strm := if weight then t.wstrm else t.astrm
  let reg := if weight then t.wreg else t.areg
  if strm then
    if 3 < reg then none
    else match findStream (s.core n) reg with
      | none => none
      | some h =>
        match h.dest with
        | .spm _ => none
        | .feed gang tine w =>
          if gang = decide (t.gang ≠ 0) ∧ (gang ∨ tine = t.tine) ∧ w = weight ∧ 32 * h.k = width
              ∧ h.issued + 5 ≤ (s.core n).prog ∧ h.claimed + rows ≤ streamRows h then some (.strm reg, h.claimed)
          else none
  else match operandOf (readAR s n reg) with
    | some o => if readFits o total then some (.spm o, 0) else none
    | none => none

/-- The row mask of a tile: 64 bytes of the granule that MASKADDR lies in (R36), and whether it was poisoned. -/
def readMask (s : State) (n : Nat) (r : TileRec) : BitVec 256 × Bool × State :=
  if r.maskEn then
    let b := spmRead s n (r.maskAddr / 64 * 64) 32
    let p := anyPoison b.bytes
    (if p then 0 else BitVec.ofNat 256 (leNat (plain b.bytes)), p, countStall b.st n 12 (2 * b.ce))
  else (0, false, s)

/-- The activation scale of R54. -/
def actScale (s : State) (n : Nat) (af : EFmt) (sht : Nat) : Word := if af = .bf16 then 0x3F800000 else shtWord s n sht 9

/-- Decode an MMA (R23, R24, R27, R52, R56, R151, R152). -/
def mmaDecode (s : State) (n : Nat) (t : TineSlot) (r : TileRec) : Option TineOp × State :=
  let tines := gangTines t.gang t.tine
  let opened := (getTine s n (tines.headD 0)).opened
  match efmtOfCode r.afmt, efmtOfCode r.wfmt with
  | some af, some wf =>
    let mx := isMx wf r.smode
    match slotWidth af wf mx with
    | none => (none, s)
    | some sw =>
      let k := t.km1 + 1
      let gs := groupLen r.gsize
      let bytes (f : EFmt) (parts : Nat) : Nat := ceilDiv k (storedStep f sw) * parts * sliceBytes f sw
      let ab := bytes af (gangRows t.gang)
      let wb := bytes wf (gangCols t.gang)
      let rows := ceilDiv k sw
      let order := if t.init then tines.all fun x => !tileOpen s n x
        else tines.all fun x => match (getTine s n x).opened with
          | some o => decide (o.gang = t.gang) && decide (o.tileId = (opened.map (·.tileId)).getD 0) && decide (o.rcd.afmt = r.afmt)
              && decide (o.rcd.wfmt = r.wfmt) && decide (o.rcd.smode = r.smode) && decide (o.rcd.gsize = r.gsize)
          | none => false
      let bfStream := decide (af = .bf16) && (t.astrm || t.wstrm)
      let src := mmaSource s n t false ab rows (gangRows t.gang * sliceBytes af sw)
      let wsrc := mmaSource s n t true wb rows (gangCols t.gang * sliceBytes wf sw)
      if scaleLegal af wf r.smode r.gsize && order && !bfStream && (t.last || decide (k % gs = 0))
          && (!t.last || decide (r.dstride % 64 = 0)) then
        match src, wsrc with
        | some a, some w =>
          let incs := (if t.ainc && !t.astrm then [(t.areg, ab)] else []) ++ (if t.winc && !t.wstrm then [(t.wreg, wb)] else [])
          let claims := (if t.astrm then [(t.areg, rows)] else []) ++ (if t.wstrm then [(t.wreg, rows)] else [])
          let base : MmaInstr := {
            gang := t.gang, init := t.init, last := t.last, act := a.1, wgt := w.1, k, actRow := a.2, wgtRow := w.2, rcd := r,
            scale := 0, mask := 0, tileId := (s.core n).tileSeq, bad := false, group := 0, start := 0 }
          match t.init, opened with
          | true, _ =>
            let m := readMask s n r
            (some (.mma tines { base with scale := actScale s n af r.sht, mask := m.1, bad := m.2.1 } incs claims), m.2.2)
          | false, some o =>
            (some (.mma tines { base with
              scale := o.scale, mask := o.mask, bad := o.bad, tileId := o.tileId,
              rcd := { r with maskEn := o.rcd.maskEn, sht := o.rcd.sht, maskAddr := o.rcd.maskAddr, scaleAddr := o.rcd.scaleAddr } }
              incs claims), s)
          | false, none => (none, s)
        | _, _ => (none, s)
      else (none, s)
  | _, _ => (none, s)

/-- Decode a DIAG (R39, R152). -/
def diagDecode (s : State) (n : Nat) (t : TineSlot) (r : TileRec) : Option TineOp :=
  let es := if r.afmt = 7 then 2 else 4
  let vecs := t.km1 + 1
  let total := 64 * es * vecs
  if (r.afmt = 7 ∨ r.afmt = 8) ∧ r.smode ≤ 2 ∧ !t.astrm ∧ !t.wstrm ∧ r.dstride % 64 = 0 ∧ tineIdle s n t.tine then
    match operandOf (readAR s n t.areg), operandOf (readAR s n t.wreg) with
    | some a, some b =>
      if readFits a total ∧ readFits b total then
        some (.diag t.tine r a b vecs ((if t.ainc then [(t.areg, total)] else []) ++ (if t.winc then [(t.wreg, total)] else [])))
      else none
    | _, _ => none
  else none

/-- Decode a CUBE: the entries of its list (R154). Cube mode cannot be fed from a stream (R106). -/
def cubeDecode (s : State) (n : Nat) (t : TineSlot) : Option TineOp × State :=
  match operandOf (readAR s n t.rreg) with
  | some (.linear a) =>
    if 31 < t.km1 ∨ t.astrm = true ∨ t.wstrm = true then (none, s)
    else
      let b := spmRead s n a (8 * (t.km1 + 1))
      let es := (List.range (t.km1 + 1)).map fun i => leField (plain b.bytes) (8 * i) 8
      let s := countStall b.st n 12 (2 * b.ce)
      if anyPoison b.bytes ∨ (es.any fun e => (getTine s n (natBits e 63 62)).opened.isSome) then (none, s)
      else (some (.cube es), s)
  | _ => (none, s)

/-- Decode the Tine slot: `some none` is a NOP, `none` an illegal bundle. A gang shape other than 0 on a DIAG is one (DESIGN
CHOICE, log entry 124), as on the operations of Cube mode (R40). -/
def tineDecode (s : State) (n v : Nat) : Option (Option TineOp) × State :=
  let t := tineSlot v
  let wrap (r : Option TineOp × State) : Option (Option TineOp) × State := (r.1.map some, r.2)
  if natBits v 26 16 ≠ 0 ∨ 4 < t.op ∨ (t.gang ≠ 0 ∧ (t.tine ≠ 0 ∨ (t.op ≠ 1 ∧ t.op ≠ 0))) then (none, s)
  else match t.op with
    | 0 => (some none, s)
    | 3 => wrap (cubeDecode s n t)
    | op =>
      let r := readTileRec s n t.rreg
      match r.1 with
      | none => (none, r.2)
      | some q =>
        if op = 1 then wrap (mmaDecode r.2 n t q)
        else if op = 2 then wrap (diagDecode r.2 n t q, r.2)
        else if (getTine r.2 n t.tine).cubeMode ∧ q.dstride % 64 = 0 then (some (some (.cstore t.tine q)), r.2)
        else (none, r.2)

/-- A cube that starts a tile finds both banks of its Tine occupied (R29). -/
def cubeHeld (s : State) (n t : Nat) : Bool := !(getTine s n t).cubeMode && decide (2 ≤ banksAt s n t (s.core n).prog)

/-- Does the operation hold the island: the rank of the cause (R29, R153). -/
def tineHold (s : State) (n : Nat) : TineOp → Option Nat
  | .mma tines _ _ _ => if tines.any fun t => decide (2 ≤ (getTine s n t).queue.length) then some 7 else none
  | .diag .. => none
  | .cube es =>
    if es.any fun e => cubeHeld s n (natBits e 63 62) then some 1
    else if es.any fun e => !(getTine s n (natBits e 63 62)).queue.isEmpty then some 7 else none
  | .cstore _ _ => none

/-- Claim rows of a FEED stream (R106, R168). -/
def claimRows (s : State) (n num rows : Nat) : State := modHrw s n fun h => { h with
  streams := mapIf (fun x => decide (x.num = num) && x.chan.isNone) (fun x => { x with claimed := x.claimed + rows }) h.streams }

/-- Issue the operation. -/
def tineIssue (s : State) (n : Nat) : TineOp → State
  | .mma tines i _ claims =>
    let s := claims.foldl (fun s c => claimRows s n c.1 c.2) s
    let s := if i.init then s.modCore n fun c => { c with tileSeq := c.tileSeq + 1 } else s
    let start := tines.foldl (fun m t => max m (getTine s n t).slotFree) ((s.core n).prog + 3)
    let i := { i with start := start }
    tines.foldl (fun s t =>
      let x := getTine s n t
      setTine s n t { x with queue := x.queue ++ [i], opened := if i.last then none else some i, slotFree := start + instrCycles i }) s
  | .diag t r a b vecs _ => diagRowsOut ((List.range vecs).foldl (fun s v => diagVector s n t r a b v) s) n t
  | .cube es => es.foldl (fun s e => cubeStep s n e) s
  | .cstore t r =>
    let s := s.modCore n fun c => { c with tileSeq := c.tileSeq + 1 }
    cubeStore s n t (s.core n).tileSeq r

/-- The address-register increments of the operation (R151). -/
def tineIncs : TineOp → List (Nat × Nat)
  | .mma _ _ incs _ => incs
  | .diag _ _ _ _ _ incs => incs
  | _ => []

/-! ### Harrow slot (R100, R106, R109, R159) -/

/-- A decoded Harrow operation. -/
inductive HrwOp
  | decode (num l0 k bytes : Nat) (d : HDest)
  | encode (e : HEnc)
  | tload (slot gen addr : Nat)

/-- Decode the Harrow slot: `some none` is a NOP, `none` an illegal bundle. An ENCODE's need of a STREAM_OUT is checked
after the Skidder slot of the same bundle (R159). -/
def hrwDecode (s : State) (n v : Nat) : Option (Option HrwOp) :=
  match natBits v 23 20 with
  | 0 => some none
  | 1 =>
    let k := 2 ^ natBits v 14 13
    let num := natBits v 19 18
    let l0 := natBits v 17 15
    let bytes := (readAR s n (natBits v 11 7)).toNat
    let dest : Option HDest :=
      if natBit v 12 then (if natBit v 2 then none else some (.feed (natBit v 6) (natBits v 5 4) (natBit v 3)))
      else match operandOf (readAR s n (natBits v 6 2)) with
        | some (.linear off) => some (.spm off)
        | _ => none
    match dest with
    | some d => if natBits v 1 0 = 0 ∧ decodeLegal s n num l0 k bytes then some (some (.decode num l0 k bytes d)) else none
    | none => none
  | 2 =>
    let k := 2 ^ natBits v 14 13
    let nreg := natBits v 12 8
    let bytes := (readAR s n nreg).toNat
    let raw := natBit v 3
    let slot := natBits v 7 4
    match operandOf (readAR s n (natBits v 19 15)) with
    | some (.linear off) =>
      if natBits v 2 0 = 0 ∧ nreg % 2 = 0 ∧ 0 < bytes ∧ bytes % (64 * k) = 0 ∧ (raw ∨ (hslot (hrw s n) slot).valid) then
        some (some (.encode { chan := none, src := off, n := bytes, k, slot := if raw then none else some slot,
                              firstBlk := (readAR s n (nreg + 1)).toNat, done := 0, issued := (s.core n).prog, raw := [] }))
      else none
    | _ => none
  | 3 =>
    match recordAddr (readAR s n (natBits v 11 7)) with
    | some a => if natBits v 6 0 = 0 then some (some (.tload (natBits v 19 16) (natBits v 15 12) a)) else none
    | none => none
  | _ => none

/-- Holds of the Harrow slot: an ENCODE while one runs (R164) or while a channel's block is being encoded (R111), a TLOAD while a
load runs (R164). -/
def hrwHold (s : State) (n : Nat) : HrwOp → Option Nat
  | .decode .. => none
  | .encode _ =>
    if (hrw s n).enc.isSome then some 7
    else if !(hrw s n).chanEncs.isEmpty && decide ((hrw s n).encWait ≠ .ready) then some 6 else none
  | .tload .. => if (hrw s n).load.isSome then some 7 else none

def hrwIssue (s : State) (n : Nat) : HrwOp → State
  | .decode num l0 k bytes d => decodeOpen s n num l0 k bytes d
  | .encode e => modHrw s n fun h => { h with enc := some e, encWait := .no }
  | .tload slot gen addr => tblLoad s n slot gen addr false

/-- A STREAM_OUT of the core still has blocks to take (R159). -/
def streamOutOpen (s : State) (n k : Nat) : Bool :=
  (s.skq n).any fun q => decide (q.xfer.kind = .blocksOut) && decide (q.xfer.next < blockCount q.xfer.len k)

/-! ### Skidder slot (R160) -/

/-- A Stand address in this core's own scratchpad; in any scratchpad of this device. -/
def ownSpm (s : State) (n a : Nat) : Bool :=
  match standTarget s a with
  | .here (.spm m _) => decide (m = n)
  | _ => false
def anySpm (s : State) (a : Nat) : Bool :=
  match standTarget s a with
  | .here (.spm _ _) => true
  | _ => false

/-- Decode the Skidder slot: `some none` is a NOP, `none` an illegal bundle. -/
def skidDecode (s : State) (n v : Nat) : Option (Option Xfer) × State :=
  let op := natBits v 23 20
  if natBits v 12 9 ≠ 0 ∨ 5 < op then (none, s)
  else if op = 0 then (some none, s)
  else match recordAddr (readAR s n (natBits v 19 15)) with
    | none => (none, s)
    | some a =>
      let r := spmRead s n a 64
      let s := countStall r.st n 11 (2 * r.ce)
      let b := plain r.bytes
      let src := leField b 0 8 % 2 ^ 52
      let dst := leField b 8 8 % 2 ^ 52
      let len := leField b 16 4
      let gen := leField b 34 2
      let num := natBits v 14 13
      let x : Xfer := { kind := .copy, src, dst, len, hdr := leField b 24 8 % 2 ^ 52, firstBlk := leField b 20 4,
                        ctx := leField b 32 2, gen := gen % 4096, check := natBit gen 15,
                        sem := if natBit v 8 then some (256 * n + natBits v 7 0) else none }
      if anyPoison r.bytes ∨ leField b 36 3 ≠ 0 ∨ len % 64 ≠ 0 then (none, s)
      else match op with
        | 1 => (if ownSpm s n dst ∧ (!anySpm s src ∨ ownSpm s n src) then some (some x) else none, s)
        | 2 => (if ownSpm s n src ∧ (!anySpm s dst ∨ ownSpm s n dst) then some (some x) else none, s)
        | 3 => match findStream (s.core n) num with
          | some h => (if h.fed then none else some (some { x with kind := .blocksIn num, k := h.k }), s)
          | none => (none, s)
        | 4 => (some (some { x with kind := .blocksOut }), s)
        | _ => (if anySpm s src ∨ anySpm s dst then none else some (some x), s)

/-- Issue the transfer: its stream takes its first block number from the record, and an entry of the queue is taken (R161). -/
def skidIssue (s : State) (n : Nat) (x : Xfer) : State :=
  let s := match x.kind with
    | .blocksIn num => modHrw s n fun h => { h with
        streams := mapIf (fun y => decide (y.num = num) && y.chan.isNone) (fun y => { y with fed := true, firstBlk := x.firstBlk }) h.streams }
    | _ => s
  let r := startXfer s x
  skqAdd r.2 n r.1

/-- Entries of the core's Skidder queue that a Thresher operation takes (R127, R158). -/
def thrEntries (s : State) (n : Nat) : ThrOp → Nat
  | .attend a r => if r.mode = 2 ∨ (freeFetch s n a).isSome then 0 else 1
  | .expand e => if (freeFetch s n e.recAddr).isSome then 0 else 1
  | _ => 1

/-! ### Hedgerow slot (R162, R163) -/

/-- The slot gates its bundle: a WAIT whose semaphore is too low. -/
def waitUnmet (s : State) (n v : Nat) : Bool :=
  decide (natBits v 19 16 = 1) && decide (semVal s (256 * n + natBits v 15 8) < natBits v 7 5 + 1)

/-- Is the slot legal: a POSTR or a BARRIER names a semaphore or a group with its reserved bits 0 (R234, R237). -/
def hdgLegal (s : State) (n v : Nat) : Bool :=
  let name := readAR s n (natBits v 4 0)
  match natBits v 19 16 with
  | 3 => nameOk name
  | 4 => nameOk name && bits name 11 7 == 0
  | op => decide (op ≤ 4)

def hdgIssue (s : State) (n v : Nat) : State :=
  let sem := 256 * n + natBits v 15 8
  let cnt := natBits v 7 5 + 1
  let name := readAR s n (natBits v 4 0)
  match natBits v 19 16 with
  | 1 => setSemVal s sem (semVal s sem - cnt)
  | 2 => semPost s sem cnt
  | 3 => postName s name cnt
  | 4 => arriveName s name sem cnt
  | _ => s

/-! ### Control slot (R148, R149) -/

/-- May a LOOP at bundle pc open (R149)? -/
def loopLegal (c : CoreState) (v : Nat) : Bool :=
  let stop := c.pc + natBits v 10 0 + 1
  decide (c.loops.length < 4) && (match c.loops with | [] => true | l :: _ => decide (stop ≤ l.last))

def ctlLegal (c : CoreState) (v : Nat) : Bool :=
  match natBits v 35 32 with
  | 4 => loopLegal c v
  | op => decide (op ≤ 5)

/-- What the control slot writes: register and value, from the values at issue (R146, R148). -/
def ctlWrite (s : State) (n v : Nat) : Option (Nat × Word) :=
  let r := natBits v 31 27
  let imm := natBits v 26 0
  match natBits v 35 32 with
  | 1 => some (r, BitVec.ofNat 32 imm)
  | 2 => some (r, readAR s n r + BitVec.ofInt 32 (signExt 27 imm))
  | 3 => some (r, setBits (readAR s n r) 31 27 (imm % 32))
  | _ => none

/-- The bundle after pc: back to an open loop's start while repeats remain, else on; loops whose body ends here close. -/
def nextPc : List LoopState → Nat → Nat × List LoopState
  | [], pc => ((pc + 1) % 2 ^ 18, [])
  | l :: t, pc =>
    if l.last = pc then
      if 0 < l.left then (l.first, { l with left := l.left - 1 } :: t) else nextPc t pc
    else ((pc + 1) % 2 ^ 18, l :: t)

/-- Where the Sequencer goes after the bundle at pc whose control slot is v (R149). -/
def advancePc (c : CoreState) (v : Nat) : CoreState :=
  if natBits v 35 32 = 4 then
    { c with pc := (c.pc + 1) % 2 ^ 18, loops := ⟨c.pc + 1, c.pc + natBits v 10 0 + 1, natBits v 26 11, []⟩ :: c.loops }
  else
    let r := nextPc c.loops c.pc
    { c with pc := r.1, loops := r.2 }

end Sys2Proof.Machine
end

