-- ==== Sys2Proof/Machine/Bundle.lean ====
section
/-! DEFINITION. The Sequencer (R142–R150, R161–R172): fetching and issuing a bundle, traps, starting, halting, stopping. -/

namespace Sys2Proof.Machine

/-- The slots of a bundle (R144). -/
structure BundleSlots where
  tine : Nat
  vu : Nat
  thr : Nat
  hrw : Nat
  skid : Nat
  hdg : Nat
  ctl : Nat
  rsvd : Nat
  wait : Nat
  deriving DecidableEq, Repr

def splitBundle (w : Nat) : BundleSlots :=
  { tine := natBits w 255 200, vu := natBits w 199 160, thr := natBits w 159 128, hrw := natBits w 127 104,
    skid := natBits w 103 80, hdg := natBits w 79 60, ctl := natBits w 59 24, rsvd := natBits w 23 16, wait := natBits w 15 0 }

/-- The bundle at the program counter when the Sequencer holds it already: among the first four of an open loop's body, or in the
granule fetched last (R145). -/
def heldBundle (c : CoreState) : Option Nat :=
  match c.loops.findSome? fun l => if l.first ≤ c.pc then l.held[c.pc - l.first]? else none with
  | some w => some w
  | none => match c.fetched with
    | some (g, v) => if g = c.pc / 2 then some (natBits v (256 * (c.pc % 2) + 255) (256 * (c.pc % 2))) else none
    | none => none

/-- Note the bundle at the program counter in every open loop that it continues the first four bundles of. -/
def holdBundle (c : CoreState) (w : Nat) : CoreState := { c with
  loops := c.loops.map fun l =>
    if l.held.length < 4 ∧ c.pc = l.first + l.held.length ∧ c.pc ≤ l.last then { l with held := l.held ++ [w] } else l }

/-- Fetch the bundle at the program counter (R87, R145): none where the fetch of its granule returns poison or lies outside every
instruction partition. A bundle that the Sequencer holds is not fetched again. -/
def fetchBundle (s : State) (n : Nat) : Option Nat × State :=
  let c := s.core n
  let off := 32 * c.pc
  if inInstrPart s n off then
    match heldBundle c with
    | some w => (some w, s.modCore n fun c => holdBundle c w)
    | none =>
      let r := spmRead s n (off / 64 * 64) 64
      let s := countStall r.st n 11 (2 * r.ce)
      if anyPoison r.bytes then (none, s)
      else
        let v := leNat (plain r.bytes)
        let w := natBits v (256 * (c.pc % 2) + 255) (256 * (c.pc % 2))
        (some w, s.modCore n fun c => holdBundle { c with fetched := some (c.pc / 2, v) } w)
  else (none, s)

/-- What an attempt to issue a bundle comes to. -/
inductive IssueResult
  | illegal (slot : Nat)
  | hold (rank : Nat) (s : State)
  | issued (s : State)

/-- An ENCODE that a channel's block keeps waiting has begun to wait (R111). -/
def encBegins (s : State) (n : Nat) (e : HEnc) : State :=
  if hrwHold s n (.encode e) = some 6 then modHrw s n fun h => { h with encWait := .waiting } else s

/-- The Vector Unit operation that waits takes the rows that are there (R157). -/
def takeRows (s : State) (n need : Nat) : State := s.modCore n fun c =>
  let k := need - c.vuTaken.length
  { c with vuTaken := c.vuTaken ++ c.vuq.take k, vuq := c.vuq.drop k }

/-- The rows that a Vector Unit operation has taken while it waited come first. -/
def giveRows (s : State) (n : Nat) : State := s.modCore n fun c => { c with vuq := c.vuTaken ++ c.vuq, vuTaken := [] }

/-- Every slot but control, decoded and issued in one program cycle (R146, R168): the state after them, or the first slot
that is illegal, or the highest-ranked cause that holds. Slots are decoded on the values at issue; a STREAM_IN may name the
stream that a DECODE of the same bundle opens, and an ENCODE the STREAM_OUT of the same bundle (R159). -/
def issueSlots (s : State) (n : Nat) (b : BundleSlots) : IssueResult :=
  let vu := vuSlot b.vu
  let t := tineDecode s n b.tine
  let th := thrDecode s n b.thr
  let h := hrwDecode s n b.hrw
  let s1 := match h with
    | some (some (.decode num l0 k bytes d)) => hrwIssue s n (.decode num l0 k bytes d)
    | some (some (.tload slot gen addr)) => hrwIssue s n (.tload slot gen addr)
    | _ => s
  let sk := skidDecode s1 n b.skid
  let s2 := match sk.1 with
    | some (some x) => skidIssue sk.2 n x
    | _ => sk.2
  let encOk := match h with
    | some (some (.encode e)) => streamOutOpen s2 n e.k
    | _ => true
  let thrOp : Except Unit (Option ThrOp) := th.1
  let entries := (match sk.1 with | some (some _) => 1 | _ => 0) + (match thrOp with | .ok (some o) => thrEntries s n o | _ => 0)
  let holds := [
    match t.1 with | some (some o) => tineHold s n o | _ => none,
    match thrOp with | .ok (some o) => thrHold s n o | _ => none,
    match h with | some (some o) => hrwHold s n o | _ => none,
    if 0 < entries ∧ 16 < (s.skq n).length + entries then some 3 else none,
    if (t.2.core n).sweepHit ∨ (sk.2.core n).sweepHit then some 8 else none].filterMap id
  let rowsShort := vuLegal s n vu && decide ((s.core n).vuTaken.length + (s.core n).vuq.length < vuNeedsRows s n vu)
  match holds with
  | r :: rs => .hold (rs.foldl min (if rowsShort then min r 7 else r)) (match h with
    | some (some (.encode e)) => encBegins s n e
    | _ => s)
  | [] =>
    if rowsShort then .hold 7 (takeRows s n (vuNeedsRows s n vu)) else
    if b.rsvd ≠ 0 then .illegal 0
    else match t.1 with
      | none => .illegal 1
      | some top =>
        if !vuLegal s n vu then .illegal 2
        else match thrOp with
          | .error _ => .illegal 3
          | .ok tho =>
            if h.isNone ∨ !encOk then .illegal 4
            else if sk.1.isNone then .illegal 5
            else if !hdgLegal s n b.hdg then .illegal 6
            else if !ctlLegal (s.core n) b.ctl then .illegal 7
            else
              let s3 := match h with
                | some (some (.encode e)) => hrwIssue s2 n (.encode e)
                | _ => s2
              let s4 := match top with
                | some o => tineIssue (tineDecode s3 n b.tine).2 n o
                | none => s3
              let s5 := vuExec (giveRows s4 n) n vu
              let s6 := match tho with
                | some o => thrIssue (thrDecode s5 n b.thr).2 n o
                | none => s5
              .issued (hdgIssue s6 n b.hdg)

/-- The increments that other slots make to address registers. -/
def bundleIncs (s : State) (n : Nat) (b : BundleSlots) : List (Nat × Nat) :=
  match (tineDecode s n b.tine).1 with
  | some (some o) => tineIncs o
  | _ => []

/-- Address registers after a bundle: increments add together, and the control slot's value stands (R146). -/
def updateARs (s : State) (n : Nat) (incs : List (Nat × Nat)) (ctl : Option (Nat × Word)) : State :=
  let s := incs.foldl (fun s i => writeAR s n i.1 (readAR s n i.1 + BitVec.ofNat 32 i.2)) s
  match ctl with
  | some (r, v) => writeAR s n r v
  | none => s

/-- A STOP is illegal while a Tine has an open tile, or a FEED stream has rows that no issued instruction will consume (R168),
the bundle's own slots counted as issued. -/
def stopLegal (s : State) (n : Nat) : Bool :=
  (List.range 4).all (fun t => !tileOpen s n t)
    && (s.core n).hrw.streams.all fun h => match h.dest with
      | .feed .. => decide (h.claimed = streamRows h) || h.chan.isSome
      | .spm _ => true

/-! ### Program cycles of the scheduled engines (R33, R106, R109, R239) -/

/-- The scheduled work of program cycle c: encoder reads, then Tine events, then decode rows. -/
def engineCycle (s : State) (n c : Nat) : State :=
  let s := encRead s n (some c)
  let s := tineWork (tineFuel s n) s n c
  writeRows s n (some c)

/-- The rank of the stall when work of program cycle c could not be done (R34, R107, R109). -/
def engineLate (s : State) (n c : Nat) : Option Nat :=
  let hrwLate := rowLate s n c || !(hrw s n).encOut.isEmpty
  match tineLate s n c with
  | some 1 => some 1
  | r => if hrwLate then some 6 else r

/-- No scheduled engine has work that falls due with program time. -/
def enginesIdle (s : State) (n : Nat) : Bool :=
  (s.core n).tines.toList.all (fun t => t.queue.isEmpty && t.drains.isEmpty)
    && (hrw s n).enc.isNone && (hrw s n).encOut.isEmpty && ((hrw s n).streams.all fun h => h.chan.isSome)

/-- Do the work of `k` program cycles at most, until work of one cannot be done. -/
def engineRun : Nat → State → Nat → State
  | 0, s, _ => s
  | k + 1, s, n =>
    let c := (s.core n).ticked
    let s := engineCycle s n c
    if (engineLate s n c).isSome then s
    else engineRun k (s.modCore n fun x => { x with ticked := c + 1 }) n

/-- Do the scheduled work of every program cycle through c, as far as the engines can. -/
def engines (s : State) (n c : Nat) : State :=
  if enginesIdle s n then s.modCore n fun x => { x with ticked := max x.ticked (c + 1) }
  else engineRun (c + 1 - (s.core n).ticked) s n

/-- The rank under which the bundle at program cycle c is held by work of cycle c or before. A drain that meets a full Vector Unit
queue in cycle c itself leaves that cycle's Vector Unit operation its chance to take rows (R157). -/
def engineHold (s : State) (n c : Nat) : Option Nat :=
  let t := (s.core n).ticked
  if c < t then none
  else match engineLate s n t with
    | some 1 => if t = c ∧ (List.range 4).any (drainBlocked s n) then none else some 1
    | r => r

/-- Issue the bundle w at core n, or hold, or trap (R146, R163, R167–R169). -/
def issueBundle (s : State) (n w : Nat) (also : Bool) : State :=
  let b := splitBundle w
  if waitUnmet s n b.hdg then countStall s n 2 1
  else match issueSlots s n b with
    | .hold r s => countStall s n r 1
    | .illegal slot => trapCore s n 2 slot also
    | .issued s' =>
      let stop := decide (natBits b.ctl 35 32 = 5)
      if stop && !stopLegal s' n then trapCore s n 2 7 also
      else
        let s' := updateARs s' n (bundleIncs s n b) (ctlWrite s n b.ctl)
        let s' := s'.modCore n fun c => advancePc c b.ctl
        -- a STOP bundle's own cycle and wait count as the program's last cycles
        let s' := (countProg s' n (1 + b.wait)).bump (coreReg n Reg.COREn_BUNDLE_CNT) 1
        let s' := engines s' n ((s'.core n).prog - 1)
        if stop then writeRows (encRead (s'.modCore n fun c => { c with seq := .draining }) n none) n none else s'

/-- BUNDLE_ISSUE at core n (R145, R146, R150, R163, R167–R169). `stalls` are the stall cycles that pass before it, each with
the ranks of the causes that apply; `also` says that a further trap cause arises in the same cycle. The engines' work that is due
at this program cycle or before comes first (R33, R239); an access that meets a sweep puts all of it off (R89). -/
def bundleIssue (s : State) (n : Nat) (stalls : List (List Nat)) (also : Bool) : State :=
  if !corePresent s n ∨ (s.core n).seq ≠ .running then s
  else
    let s := stalls.foldl (fun s c => match c with
      | [] => s
      | r :: rs => countStall s n (rs.foldl min r) 1) s
    scheduled s n fun s =>
      let s := engines s n (s.core n).prog
      match engineHold s n (s.core n).prog with
      | some r => countStall s n r 1
      | none =>
        let f := fetchBundle s n
        match f.1 with
        | none => trapCore f.2 n 1 0 also
        | some w => issueBundle f.2 n w also

/-- HDG_TIMEOUT (R163, R170): the WAIT at the program counter is not satisfied and a limit is set. -/
def hdgTimeout (s : State) (n : Nat) (also : Bool) : State :=
  if !corePresent s n ∨ (s.core n).seq ≠ .running ∨ bits (s.reg (coreReg n Reg.COREn_WAIT_LIMIT)) 23 0 = 0 then s
  else match (fetchBundle s n).1 with
    | none => s
    | some w => if waitUnmet s n (splitBundle w).hdg then trapCore s n 4 0 also else s

/-- WATCHDOG (R142, R170). -/
def watchdog (s : State) (n : Nat) (also : Bool) : State :=
  let live := match (s.core n).seq with | .running | .draining => true | _ => false
  if corePresent s n && live && decide (bits (s.reg (coreReg n Reg.COREn_WDOG_LIMIT)) 23 0 ≠ 0) then trapCore s n 3 0 also
  else s

/-- A refused core register write (R176). -/
def coreReject (s : State) (n : Nat) : State := s.raise (coreReg n Reg.COREn_EVENT_PEND) (bitMask 8)

/-- START (R142, R176, R392). -/
def seqStart (s : State) (n : Nat) : State :=
  if (s.core n).seq = .stopped ∧ domOn s (3 * n) ∧ domOn s (3 * n + 1) then
    s.modCore n fun c => { c with
      seq := .running, pc := bits (s.reg (coreReg n Reg.COREn_ENTRY)) 22 5, loops := [], prog := 0, ticked := 0, fetched := none,
      tines := c.tines.map fun t => { t with slotFree := 0, portFree := 0 } }
  else coreReject s n

/-- RESUME (R142, R170, R176). -/
def seqResume (s : State) (n : Nat) : State :=
  let t := s.reg (coreReg n Reg.COREn_TRAP)
  if (s.core n).seq = .trapped ∧ (bits t 29 27 = 4 ∨ bits t 29 27 = 5) then
    (s.modCore n fun c => { c with seq := .running }).setReg (coreReg n Reg.COREn_TRAP) 0
  else coreReject s n

/-- HALT (R170, R176). -/
def seqHalt (s : State) (n : Nat) (also : Bool) : State :=
  if (s.core n).seq = .running then trapCore s n 5 0 also else coreReject s n

/-- A write to COREn_CTRL (R176). -/
def coreCtrl (s : State) (n : Nat) (v : Word) : State :=
  match bits v 2 0 with
  | 0 => s
  | 1 => seqStart s n
  | 2 => seqResume s n
  | 4 => seqHalt s n false
  | _ => coreReject s n

/-- Everything that STOP waits for (R172). -/
def drained (s : State) (n : Nat) : Bool :=
  (List.range 4).all (fun t => tineIdle s n t && (getTine s n t).diagRows.isEmpty)
    && (thr s n).running.isNone && (thr s n).queued.isNone && (thr s n).streams.isEmpty && (thr s n).expand.isNone
    && ((hrw s n).streams.all fun h => h.chan.isSome) && (hrw s n).enc.isNone && (hrw s n).encOut.isEmpty && (s.skq n).isEmpty

/-- SEQUENCER_STOPPED (R142, R172). -/
def sequencerStopped (s : State) (n : Nat) : State :=
  if corePresent s n ∧ (s.core n).seq = .draining ∧ drained s n then
    (s.modCore n fun c => { c with seq := .stopped }).raise (coreReg n Reg.COREn_EVENT_PEND) (bitMask 6)
  else s

end Sys2Proof.Machine
end

