-- ==== Sys2Proof/Machine/Fabric.lean ====
section
/-! DEFINITION. Ports going up and down, Stand set-up, the Window Table, packets, and Bucker jobs (R250–R268, R351, R352). -/

namespace Sys2Proof.Machine

/-! ### Ports (R250, R251) -/

/-- Transactions sent on a port end without a reply (R251, R352): they are released, and the transfers that hold them end with
DOMAIN_RESET, their reads delivering poison. One that an abort or a reset of its issuer has overtaken is only released. -/
def loseTxns (s : State) (lost : List Txn) : State :=
  let ids := lost.map (·.id)
  let s := { s with txns := s.txns.filter fun t => !ids.contains t.id, omapMarks := s.omapMarks.filter fun k => !ids.contains k }
  lost.foldl (fun s t =>
    if t.gen ≠ ownerGen s t.owner ∨ t.aborted then s
    else if t.owner = .surveyor then headAck s t.id false
    else if t.write then modXfer s t.owner fun x => { x.fail 0x08 with refused := t.part :: x.refused }
    else failRead s t 0x08) s

/-- A port goes DOWN (R251): its transactions are lost, and its waiting Hedgerow messages are dropped and counted. -/
def portDown (s : State) (p : Nat) : State :=
  let x := s.port p
  let lost := s.txns.filter fun t => decide (t.port = some p)
  let s := (setPortState s p 0).setPort p { rxSeq := 0 }
  let s := s.bump Reg.HDG_UNREACH_CNT x.waitHdg.length
  fabFlag (loseTxns s lost) (bitMask 2)

/-- PORT_TRAINING_DONE (R249, R250, R251, R352): `failed` data lanes did not come up, the Hedgerow lane did or did not. `dropped`:
this device's requests on the port that another device dropped for their generation; a retrain releases them. -/
def portTrainingDone (s : State) (p failed : Nat) (hdgLane : Bool) (partner : Option Partner) (dropped : List Nat) : State :=
  if portState s p ≠ 1 then s
  else
    let x := s.port p
    match partner, decide (2 < failed) || !hdgLane with
    | some q, false =>
      let cfg := s.reg Reg.FAB_CFG
      let s := s.setReg Reg.FAB_STATUS (setFlag (s.reg Reg.FAB_STATUS) (24 + p) (decide (0 < failed)))
      let s := s.setReg (portReg p Reg.FAB_Pp_PARTNER) (BitVec.ofNat 32 (1 <<< 31 + (decide (0 < failed)).toNat <<< 30
        + (q.port % 8) <<< 24 + (q.dev % 16) <<< 20 + (q.stand % 65536) <<< 4))
      let s := s.setPort p { x with retrains := 0, retraining := false }
      if q.stand % 65536 ≠ bits cfg 19 4 ∨ q.dev % 16 = devNum s then
        fabFlag (setPortState s p 3) (bitMask 3)
      else
        let s := setPeerGen (setPortState s p 2) (q.dev % 16) (q.gen % 256)
        let s := if x.retraining then loseTxns s (s.txns.filter fun t => decide (t.port = some p) && dropped.contains t.id) else s
        -- replay from the first unacknowledged flit, then what waited; then announce this device's generation
        let s := match x.unacked with
          | u :: _ => if x.retraining then replayFrom s p u else s.setPort p { s.port p with txSeq := 0, rxSeq := 0, unacked := [] }
          | [] => if x.retraining then s else s.setPort p { s.port p with txSeq := 0, rxSeq := 0 }
        flood (releasePort s p) none (devNum s) (devGen s) (.announce (devNum s) (devGen s))
    | _, _ =>
      if x.retraining ∧ x.retrains + 1 < 3 then
        (s.setPort p { x with retrains := x.retrains + 1 }).bump (portReg p Reg.FAB_Pp_RETRAIN_CNT) 1
      else portDown s p

/-- FAB_CFG_WRITE (R250–R252). -/
def fabCfgWrite (s : State) (v : Word) : State :=
  let old := s.reg Reg.FAB_CFG
  if portCount s.part = 0 then s
  else if flag old 31 ∧ bits v 19 0 ≠ bits old 19 0 then fabFlag s (bitMask 6)
  else
    let s := s.setReg Reg.FAB_CFG (v &&& 0x800FFFFF)
    if !flag old 31 ∧ flag v 31 then (List.range (portCount s.part)).foldl (fun s p => portTraining s p) s
    else if flag old 31 ∧ !flag v 31 then (List.range (portCount s.part)).foldl (fun s p => portDown s p) s
    else s

/-- FAB_ROUTE_WRITE (R266). -/
def fabRouteWrite (s : State) (d : Nat) (v : Word) : State :=
  if portCount s.part = 0 ∨ 16 ≤ d then s
  else if 6 ≤ bits v 2 0 ∨ 6 ≤ bits v 6 4 then fabFlag s (bitMask 6)
  else s.setReg (Reg.FAB_ROUTEd + 4 * d) (v &&& 0x800000F7)

/-! ### Window Table (R254–R258) -/

def winWord (s : State) (i w : Nat) : Word := s.reg (Reg.WIN_ENTRYi_W0 + 16 * i + 4 * w)
def winOpen (s : State) (i : Nat) : Bool := flag (winWord s i 0) 31
def winBase (s : State) (i : Nat) : Nat := bits (winWord s i 2) 15 0 <<< 32 + bits (winWord s i 1) 31 6 * 64
def winSize (s : State) (i : Nat) : Nat := 64 * bits (winWord s i 3) 27 0

/-- A range within one core's populated scratchpad or one Field's near-memory data range. -/
def winContained (s : State) (a len : Nat) : Bool :=
  match placeOf a with
  | .spm n x => corePresent s n && decide (x + len ≤ spmSize)
  | .nm f x => fieldPresent s f && decide (x + len ≤ nmDataEnd s.part)
  | _ => false

def winOverlaps (s : State) (i j : Nat) : Bool :=
  decide (winBase s i < winBase s j + winSize s j) && decide (winBase s j < winBase s i + winSize s i)

/-- WINDOW_ENTRY_WRITE: word w of entry i (R255). `host`: the write arrives from the host link. -/
def windowEntryWrite (s : State) (i w : Nat) (v : Word) (host : Bool) : State :=
  let o := Reg.WIN_ENTRYi_W0 + 16 * i + 4 * w
  let reject := s.raise Reg.WIN_ERR_STATUS (bitMask 1)
  if 1024 ≤ i ∨ 4 ≤ w then s
  else if host then s.raise Reg.WIN_ERR_STATUS (bitMask 2)
  else match w with
    | 0 =>
      if flag v 31 && (decide (winSize s i = 0) || !winContained s (winBase s i) (winSize s i)
          || (List.range 1024).any fun j => decide (j ≠ i) && winOpen s j && winOverlaps s i j) then reject
      else s.setReg o v
    | 1 => if winOpen s i then reject else s.setReg o (v &&& 0xFFFFFFC0)
    | 2 => if winOpen s i then reject else s.setReg o (v &&& 0xFFFF)
    | _ => if winOpen s i then reject else s.setReg o (v &&& 0xFFFFFFF)

/-- WIN_SYNC (R258): the requests accepted so far that have not finished are marked. -/
def winSync (s : State) (v : Word) : State :=
  if flag v 0 then { s with heldReqs := s.heldReqs.map fun h => { h with marked := true } } else s

/-- The window that covers every byte of a request, and the reason for refusing it (R256). -/
def winCheck (s : State) (src a len : Nat) (write check : Bool) (gen : Nat) : Option Nat × Option Nat :=
  if !winContained s a len then (none, some 6)
  else match firstBelow 1024 fun i => winOpen s i && decide (winBase s i ≤ a) && decide (a + len ≤ winBase s i + winSize s i) with
    | none => (none, some 1)
    | some i =>
      let w := winWord s i 0
      let bad : Option Nat :=
        if !flag w src then some 2
        else if !(if write then flag w 30 else flag w 29) then some 3
        else if flag w 28 && !(check && decide (gen = bits w 27 16)) then some 4
        else match placeOf a with
          | .spm n x => if write then (if spmWriteDropped s n x len .other then some 5 else none)
              else if (List.range (ceilDiv (x % 64 + len) 64)).any fun k => (partOf s n ((x / 64 + k) * 64)).isNone then some 5 else none
          | _ => none
      (some i, bad)

/-- An access that breaks R80 or R86 at a scratchpad is recorded there too, granule by granule (R80, R86, R90). -/
def spmRefuse (s : State) (n x len : Nat) (write : Bool) : State :=
  (List.range (ceilDiv (x % 64 + len) 64)).foldl (fun s k =>
    match partOf s n ((x / 64 + k) * 64) with
    | none => spmOutOfPart s n
    | some j =>
      if write && flag (partWord s n j) 30 then (s.raise (coreReg n Reg.SPMn_ERR_STATUS) (bitMask 4)).bump (coreReg n Reg.SPMn_DROP_CNT) 1
      else s) s

/-- Record a refusal (R256, R267). -/
def winRefuse (s : State) (src a len : Nat) (write : Bool) (win : Option Nat) (reason : Nat) : State :=
  let s := s.bump Reg.WIN_REFUSE_CNT 1
  let s := s.raise Reg.WIN_ERR_STATUS (bitMask 0)
  let s := s.setReg Reg.WIN_LAST_REFUSE (BitVec.ofNat 32 (1 <<< 31 + reason <<< 28 + (src % 16) <<< 16
    + win.isNone.toNat <<< 10 + win.getD 0))
  match decide (reason = 5), placeOf a with
  | true, .spm n x => spmRefuse s n x len write
  | _, _ => s

/-! ### Packets (R253, R256, R351, R352) -/

/-- Perform an accepted request and answer it. -/
def performRequest (s : State) (k : FabPacket) : State :=
  match k.body with
  | .write tag a d _ _ =>
    let s := match placeOf a with
      | .spm n x => spmWrite s n x (unitPoison d) .other
      | .nm f x => nmWrite s f x (unitPoison d) f
      | _ => s
    sendTo s k.src (.reply tag .ok [])
  | .read tag a len _ _ =>
    match placeOf a with
    | .spm n x => let r := spmReadAsync s n x len; sendTo r.2 k.src (.reply tag .ok (unitPoison r.1))
    | .nm f x => let r := nmRead s f x len f; sendTo r.2 k.src (.reply tag .ok (unitPoison r.1))
    | _ => s
  | .reply .. => s

/-- The Field that holds an address. -/
def placeField : Place → Option Nat
  | .spm n _ => some (n / 4)
  | .nm f _ => some f
  | .ws f _ => some f
  | _ => none

/-- The memory that a request is for holds its accesses: its Field resets, a domain is not ON, a sweep or a repair runs (R89, R325,
R351, R393). -/
def placeHeld (s : State) (a len : Nat) : Bool :=
  match placeOf a with
  | .spm n x => spmHeld s n x len
  | .nm f x => nmHeld s f x len
  | _ => false

/-- Address and length of a request. -/
def bodyRange : FabBody → Nat × Nat
  | .write _ a d _ _ => (a, d.length)
  | .read _ a len _ _ => (a, len)
  | .reply .. => (0, 0)

/-- A request for this device: checked once, then performed, or held while its memory holds its accesses; an access to a domain
that is not ON is counted (R256, R258, R351, R393). -/
def takeRequest (s : State) (k : FabPacket) (tag a len : Nat) (write check : Bool) (gen : Nat) : State :=
  match winCheck s k.src a len write check gen with
  | (win, some reason) =>
    let s := winRefuse s k.src a len write win reason
    sendTo s k.src (.reply tag .refused (if write then [] else List.replicate len (0, true)))
  | (_, none) =>
    let s := s.bump Reg.WIN_ACCEPT_CNT 1
    if placeHeld s a len then
      let s := if placeOn s (placeOf a) then s else offAccess s
      { s with heldReqs := s.heldReqs ++ [⟨k, (placeField (placeOf a)).getD 0, false⟩] }
    else performRequest s k

/-- FABRIC_PACKET_RECEIVE on port p. A packet of a stale generation is dropped at whichever device meets it; a forwarding
device without a route drops the packet like one of too many hops (log entry 35). -/
def packetReceive (s : State) (p : Nat) (k : FabPacket) : State :=
  if portState s p ≠ 2 then s
  else
    let s := s.bump (portReg p Reg.FAB_Pp_RX_CNT) (bodyUnits k.body)
    if k.gen ≠ peerGen s k.src then s.bump Reg.FAB_STALE_DROP_CNT 1
    else if k.dst ≠ devNum s then
      let reject (s : State) : State := match k.body with
        | .write tag .. => sendTo s k.src (.reply tag .hopDrop [])
        | .read tag _ len _ _ => sendTo s k.src (.reply tag .hopDrop (List.replicate len (0, true)))
        | .reply .. => s
      if 4 ≤ k.hops then reject (fabFlag (s.bump Reg.FAB_HOP_DROP_CNT 1) (bitMask 5))
      else match routePort s k.dst with
        | some q => sendPacket s q { k with hops := k.hops + 1 }
        | none => reject (fabFlag (s.bump Reg.FAB_NO_ROUTE_CNT 1) (bitMask 4))
    else match k.body with
      | .write tag a d c g => takeRequest s k tag a d.length true c g
      | .read tag a len c g => takeRequest s k tag a len false c g
      | .reply tag st d => memoryReply s tag st d

/-- Serve the requests whose memories no longer hold their accesses, in the order they came (R89, R325, R351, R393). -/
def releaseHeld (s : State) : State :=
  let ready (h : HeldReq) : Bool := !placeHeld s (bodyRange h.packet.body).1 (bodyRange h.packet.body).2
  let now := s.heldReqs.filter ready
  now.foldl (fun s h => performRequest s h.packet) { s with heldReqs := s.heldReqs.filter fun h => !ready h }

/-! ### Twin heads (R259–R261) -/

/-- This device is the active head of a Stand. -/
def activeHead (s : State) : Bool := fabEn s && decide (bits (s.reg Reg.FAB_TWIN) 31 30 = 1)
def twinDev (s : State) : Nat := bits (s.reg Reg.FAB_TWIN) 3 0

/-- Kind of a record in another device's window, and its number among those of its kind. -/
def HeadMsg.slot : HeadMsg → Nat × Nat
  | .tail r _ => (1, r)
  | .record q _ _ => (2, q)
  | .heartbeat => (3, 0)
  | .claim _ => (4, 0)
  | .work j _ => (6, j)
  | .report j => (5, j)

/-- The 64 bytes of such a record (DESIGN CHOICE, log entry 131). -/
def HeadMsg.bytes (m : HeadMsg) : List Byte :=
  let head := leBytes 2 m.slot.1 ++ leBytes 2 m.slot.2
  let rest : List Byte := match m with
    | .tail _ t => leBytes 4 t
    | .record _ i d => leBytes 4 i ++ List.replicate 24 0 ++ d
    | .claim e | .work _ e => leBytes 4 e
    | .heartbeat | .report _ => []
  (head ++ rest ++ List.replicate 64 0).take 64

/-- Issue a write of the Surveyor's to another device, once the pool has room; one that no port carries ends at once. -/
def headIssue (s : State) (w : HeadWrite) : HeadWrite × State :=
  if w.id.isSome ∨ w.done then (w, s)
  else if w.dev = devNum s ∨ (livePort s w.dev).isNone then ({ w with done := true }, s)
  else if mayIssue s .surveyor 5 true then
    let a := w.dev * 2 ^ 48 + 64 * Config.headSlot w.dev w.msg.slot.1 w.msg.slot.2 % 2 ^ 48
    ({ w with id := some s.txnSeq }, issueTxn s .surveyor 5 true a 0 0 64 (w.msg.bytes.map fun b => (b, false)) none)
  else (w, s)

/-- Issue what can be issued, oldest first. -/
def headPump (s : State) : State :=
  let r := s.headWrites.foldl (fun (p : List HeadWrite × State) w => let q := headIssue p.2 w; (p.1 ++ [q.1], q.2)) ([], s)
  { r.2 with headWrites := r.1 }

/-- Write a record into device d's window; `held` waits until the write has landed (R240, R260). -/
def headSend (s : State) (d : Nat) (m : HeadMsg) (held : Option Placed) : State :=
  headPump { s with headWrites := s.headWrites ++ [{ dev := d, msg := m, held }] }

/-- HEARTBEAT (R260). -/
def heartbeat (s : State) : State := if activeHead s then headSend s (twinDev s) .heartbeat none else s

/-- HEAD_CLAIM (R261): a claim of device d with an epoch arrives, and firmware rewrites the control windows named. -/
def headClaim (s : State) (d epoch : Nat) (windows : List Nat) : State :=
  let h := s.reg Reg.FAB_HEAD
  let ahead := (epoch + 256 - bits h 19 12) % 256
  if 0 < ahead ∧ ahead < 128 then
    let s := s.setReg Reg.FAB_HEAD (BitVec.ofNat 32 (1 <<< 31 + (epoch % 256) <<< 12 + d % 16))
    windows.foldl (fun s i => windowEntryWrite s i 0 (setBits (winWord s i 0) 15 0 (1 <<< (d % 16))) false) s
  else s

/-! ### Bucker jobs (R263–R265) -/

/-- A job record (R264). -/
structure BkrRec where
  dstL : Nat
  srcL : Nat
  transpose : Bool
  elem : Nat
  parts : Nat
  first : Nat
  count : Nat
  rows : Nat
  cols : Nat
  unit : Nat
  table : Nat
  done : Option Nat
  gen : Nat
  check : Bool
  ctx : Nat
  deriving DecidableEq, Repr

def parseBkrRec (b : List Byte) : BkrRec :=
  let b0 := leField b 0 1
  let b1 := leField b 1 1
  let dn := leField b 32 4
  let g := leField b 36 2
  { dstL := b0 / 16, srcL := b0 % 16, transpose := natBit b1 2, elem := natBits b1 1 0, parts := leField b 2 2,
    first := leField b 4 2, count := leField b 6 2, rows := leField b 8 4, cols := leField b 12 4, unit := leField b 16 4,
    table := leField b 24 8, done := if natBit dn 31 then some (dn % 4096) else none,
    gen := g % 4096, check := natBit g 15, ctx := leField b 38 2 }

/-- The rule of a layout (R263). -/
def layoutOk (r : BkrRec) (l : Nat) : Bool :=
  match l with
  | 0 => decide (r.rows % r.parts = 0)
  | 1 => decide (r.cols % r.parts = 0)
  | 2 => decide (0 < r.unit) && decide (r.cols % r.unit = 0)
  | 3 => decide (0 < r.unit) && decide (r.unit % 64 = 0) && decide (r.rows ≤ r.parts * r.unit)
  | 4 => true
  | _ => false

/-- Rows that participant i holds. -/
def layoutRows (r : BkrRec) (l i : Nat) : Nat × Nat :=
  match l with
  | 0 => (i * r.rows / r.parts, (i + 1) * r.rows / r.parts)
  | 3 => (min (i * r.unit) r.rows, min ((i + 1) * r.unit) r.rows)
  | _ => (0, r.rows)

/-- Columns that participant i holds, as runs: first column, end, and the run's first column within the block. -/
def layoutCols (r : BkrRec) (l i : Nat) : List (Nat × Nat × Nat) :=
  match l with
  | 1 => [(i * r.cols / r.parts, (i + 1) * r.cols / r.parts, 0)]
  | 2 =>
    let heads := (List.range (r.cols / r.unit)).filter fun h => decide (h % r.parts = i)
    heads.zipIdx.map fun p => (p.1 * r.unit, (p.1 + 1) * r.unit, p.2 * r.unit)
  | _ => [(0, r.cols, 0)]

def runsWidth (l : List (Nat × Nat × Nat)) : Nat := (l.map fun c => c.2.1 - c.1).sum

/-- Split a run of bytes into requests within one aligned 512-byte unit at either end; `fuel` requests at most. -/
def splitRun : Nat → Nat → Nat → Nat → Nat → List Piece
  | 0, _, _, _, _ => []
  | f + 1, src, dst, part, len =>
    let m := min len (min (512 - src % 512) (512 - dst % 512))
    if m = 0 then [] else ⟨src, dst, m, part⟩ :: splitRun f (src + m) (dst + m) part (len - m)

/-- The pieces that source i sends to destination j. -/
def jobPieces (r : BkrRec) (srcAddr dstAddr i j : Nat) : List Piece :=
  let es := 2 ^ r.elem
  let sr := layoutRows r r.srcL i
  let dr := layoutRows r r.dstL j
  let sc := layoutCols r r.srcL i
  let dc := layoutCols r r.dstL j
  let sStride := 64 * ceilDiv (runsWidth sc * es) 64
  let dStride := if r.transpose then 64 * ceilDiv ((dr.2 - dr.1) * es) 64 else 64 * ceilDiv (runsWidth dc * es) 64
  let lo := max sr.1 dr.1
  let hi := min sr.2 dr.2
  let pairs := sc.flatMap fun a => dc.map fun b => (a, b)
  -- a REPLICATED source serves the destination of its own number alone
  if r.srcL = 4 ∧ i ≠ j then []
  else (List.range (hi - lo)).flatMap fun k =>
    let row := lo + k
    pairs.flatMap fun p =>
      let a := p.1
      let b := p.2
      let c0 := max a.1 b.1
      let c1 := min a.2.1 b.2.1
      let src (c : Nat) : Nat := srcAddr + (row - sr.1) * sStride + (a.2.2 + (c - a.1)) * es
      if r.transpose then (List.range (c1 - c0)).map fun x =>
        ⟨src (c0 + x), dstAddr + (b.2.2 + (c0 + x - b.1)) * dStride + (row - dr.1) * es, es, j⟩
      else splitRun (2 * ((c1 - c0) * es / 512) + 3) (src c0) (dstAddr + (row - dr.1) * dStride + (b.2.2 + (c0 - b.1)) * es) j ((c1 - c0) * es)

/-- BUCKER_POST (R264): the write of the high word posts. -/
def buckerPost (s : State) (f : Nat) (hi : Word) : State :=
  let a := (s.reg (fieldReg f Reg.BKRn_POST_LO)).toNat / 64 * 64 + bits hi 15 0 <<< 32
  let b := s.bkr f
  if b.queue.length < 4 then s.setBkr f { b with queue := b.queue ++ [a] }
  else s.raise (fieldReg f Reg.BKRn_ERR_STATUS) (bitMask 1)

/-- A job ends with a status (R265, R268). -/
def buckerEnd (s : State) (f code : Nat) (done : Option Nat) : State :=
  let s := s.setBkr f { s.bkr f with cur := none, arrive := [], done := none, code }
  let s := s.bump (fieldReg f Reg.BKRn_JOB_CNT) 1
  let s := if code = 0 then s else s.raise (fieldReg f Reg.BKRn_ERR_STATUS) (bitMask 0)
  match done with
  | some k => semPost s k 1
  | none => s

/-- A record within the rules of R263 and R264. -/
def bkrLegal (r : BkrRec) : Bool :=
  decide (r.elem ≤ 2) && decide (1 ≤ r.parts) && decide (r.parts ≤ 256) && decide (1 ≤ r.count)
    && decide (r.first + r.count ≤ r.parts) && decide (1 ≤ r.rows) && decide (r.rows ≤ 1048576)
    && decide (1 ≤ r.cols) && decide (r.cols ≤ 65536) && decide (r.table % 64 = 0)
    && layoutOk r r.srcL && layoutOk r r.dstL

/-- Does a Stand address lead to a memory of this device? -/
def localBlock (s : State) (a : Nat) : Bool :=
  match standTarget s a with
  | .here (.spm _ _) | .here (.nm _ _) => true
  | _ => false

/-- A job whose record and table have been read (R264, R265, R314). -/
def buckerRun (s : State) (f : Nat) (r : BkrRec) (tb : List PByte) : State :=
  let src (i : Nat) : Nat := leField (plain tb) (32 * i) 8 % 2 ^ 52
  let dst (j : Nat) : Nat := leField (plain tb) (32 * j + 8) 8 % 2 ^ 52
  let sem (j : Nat) : Word := BitVec.ofNat 32 (leField (plain tb) (32 * j + 16) 4)
  let srcs := (List.range r.count).map (r.first + ·)
  if anyPoison tb then buckerEnd s f 0x02 r.done
  else if !srcs.all fun i => localBlock s (src i) then buckerEnd s f 0x0B r.done
  else
    let ps (i j : Nat) : List Piece := jobPieces r (src i) (dst j) i j
    let all := srcs.flatMap fun i => (List.range r.parts).flatMap fun j => ps i j
    let arrive := (List.range r.parts).filterMap fun j =>
      let n := srcs.countP fun i => !(ps i j).isEmpty
      if n = 0 then none else some (j, sem j, n)
    let x : Xfer := { kind := .pieces all, src := 0, dst := 0, len := 0, ctx := r.ctx, gen := r.gen, check := r.check }
    let x := startXfer s x
    let s := x.2.setBkr f { x.2.bkr f with cur := some x.1, arrive, done := r.done }
    pumpAll s (.bucker f)

/-- BUCKER_JOB_START (R264, R265, R314): the oldest queued job. `host`, `hostTab` are the record's and the table's bytes where
they lie in host memory. While a read of them waits, the job stays where it is. -/
def buckerStart (s : State) (f : Nat) (host hostTab : List PByte) : State :=
  let b := s.bkr f
  let next (s : State) (rest : List Nat) : State := s.setBkr f { s.bkr f with queue := rest }
  if fieldInReset s f then s else match b.cur, b.queue with
  | none, a :: rest =>
    match readRecord s f a 64 host with
    | .wait s => s
    | .none s => buckerEnd (next s rest) f 0x0B none
    | .got rb s =>
      let r := parseBkrRec (plain rb)
      if anyPoison rb then buckerEnd (next s rest) f 0x02 none
      else if !bkrLegal r then buckerEnd (next s rest) f 0x0B r.done
      else match readRecord s f r.table (32 * r.parts) hostTab with
        | .wait s => s
        | .none s => buckerEnd (next s rest) f 0x0B r.done
        | .got tb s => buckerRun (next s rest) f r tb
  | _, _ => s

/-- Post a destination's arrival semaphore n times over: counts of at most 8 (R265). -/
def postArrivals (s : State) (name : Word) (n : Nat) : State :=
  (List.range (ceilDiv n 8)).foldl (fun s i => postName s name (min 8 (n - 8 * i))) s

/-- BUCKER_JOB_DONE (R265): posts to every destination whose pieces were all accepted, then DONE_SEM. -/
def buckerDone (s : State) (f : Nat) : State :=
  let b := s.bkr f
  match b.cur with
  | none => s
  | some x =>
    if xferComplete s (.bucker f) x then
      let left := match x.kind with | .pieces l => l.map (·.part) | _ => []
      let bad := x.refused ++ left ++ x.held.map (·.2.2)
      let s := dropRequests s (.bucker f)
      let s := b.arrive.foldl (fun s a => if bad.contains a.1 then s else postArrivals s a.2.1 a.2.2) s
      buckerEnd (uncount s x) f x.code b.done
    else s

end Sys2Proof.Machine
end

