-- ==== Sys2Proof/Machine/HostIf.lean ====
section
/-! DEFINITION. The host interface (R260, R261, R269–R299): event records and queues, MSI-X, ring and queue set-up, doorbells,
timestamps, correlation. -/

namespace Sys2Proof.Machine

/-! ### Rings and queues as registers describe them -/

def ringReg (r o : Nat) : Nat := o + 32 * r
def eqReg (q o : Nat) : Nat := o + 32 * q
def ringCfg (s : State) (r : Nat) : Word := s.reg (ringReg r Reg.HST_RINGr_CFG)
def eqCfg (s : State) (q : Nat) : Word := s.reg (eqReg q Reg.HST_EQq_CFG)
def ringEn (s : State) (r : Nat) : Bool := decide (r < 1024) && flag (ringCfg s r) 31
def eqEn (s : State) (q : Nat) : Bool := decide (q < 64) && flag (eqCfg s q) 31

/-- Entries of a ring or queue: 2^k (R274, R298). -/
def cfgSize (cfg : Word) : Nat := 2 ^ (6 + min (bits cfg 3 0) 10)

def pairBase (lo hi : Word) : Nat := bits hi 15 0 <<< 32 + bits lo 31 6 * 64
def ringBase (s : State) (r : Nat) : Nat := pairBase (s.reg (ringReg r Reg.HST_RINGr_BASE_LO)) (s.reg (ringReg r Reg.HST_RINGr_BASE_HI))
def eqBase (s : State) (q : Nat) : Nat := pairBase (s.reg (eqReg q Reg.HST_EQq_BASE_LO)) (s.reg (eqReg q Reg.HST_EQq_BASE_HI))

def State.eqSt (s : State) (q : Nat) : EqState := s.eqs[q]?.getD {}
def State.setEqSt (s : State) (q : Nat) (x : EqState) : State := { s with eqs := s.eqs.setIfInBounds q x }
def State.ringSt (s : State) (r : Nat) : RingState := storeGet {} s.rings r
def State.setRingSt (s : State) (r : Nat) (x : RingState) : State := { s with rings := storeSet {} s.rings r x }

/-- Flags of HST_ERR_STATUS. -/
def hstFlag (s : State) (i : Nat) : State := s.raise Reg.HST_ERR_STATUS (bitMask i)

/-! ### Timestamps (R294, R295) -/

/-- The five counters now. -/
def stampAll (s : State) : List Nat × State :=
  (List.range 5).foldl (fun p k => let t := stamp p.2 k; (p.1 ++ [t.1], t.2)) ([], s)

/-- TIMESTAMP_LATCH (R294): a read of HST_TSs_LO answers the counter's low word and latches its high one. The registers of an absent
Field read 0 (R4). -/
def timestampLatch (s : State) (k : Nat) : State :=
  if 5 ≤ k then s
  else if k < 4 ∧ !fieldPresent s k then { s with resp := 0, respHi := 0 }
  else
    let t := stamp s k
    { t.2.setReg (Reg.HST_TSs_HI + 8 * k) (BitVec.ofNat 32 (t.1 >>> 32)) with resp := BitVec.ofNat 32 t.1 }

/-- CORRELATION_ARM: the write of HST_CORR_HI (R295). -/
def correlationArm (s : State) (v : Word) : State :=
  let s := if s.corr.isSome then hstFlag s 4 else s
  let t := stampAll s
  { t.2.setReg Reg.HST_CORR_HI v with corr := some ⟨(s.reg Reg.HST_CORR_LO).toNat + v.toNat <<< 32, t.1⟩ }

/-! ### MSI-X (R293) -/

/-- Raise vector v: a masked vector sets its pending bit. -/
def raiseVector (s : State) (v : Nat) : State :=
  if flag (s.reg (Reg.MSIX_TABLE + 16 * v + 12)) 0 then s.raise (Reg.MSIX_PBA + 4 * (v / 32)) (bitMask (v % 32))
  else s.emit (.msix v)

def eqArmed (s : State) (q : Nat) : Bool := flag (s.reg (eqReg q Reg.HST_EQq_HEAD)) 16
def setArmed (s : State) (q : Nat) (b : Bool) : State :=
  (s.setReg (eqReg q Reg.HST_EQq_HEAD) (setFlag (s.reg (eqReg q Reg.HST_EQq_HEAD)) 16 b)).setEqSt q { s.eqSt q with since := 0 }

/-- The queue raises its vector and disarms. -/
def eqRaise (s : State) (q : Nat) : State := setArmed (raiseVector s (bits (eqCfg s q) 29 24)) q false

/-- A record has been written to queue q. -/
def eqWritten (s : State) (q : Nat) : State :=
  if eqArmed s q then
    let n := (s.eqSt q).since + 1
    if bits (eqCfg s q) 23 16 + 1 ≤ n ∨ bits (eqCfg s q) 15 4 = 0 then eqRaise s q
    else s.setEqSt q { s.eqSt q with since := n }
  else s

/-- HOLDOFF_EXPIRY (R293): a record has been written since the queue armed. -/
def holdoffExpiry (s : State) (q : Nat) : State :=
  if eqEn s q && eqArmed s q && decide (0 < (s.eqSt q).since) then eqRaise s q else s

/-! ### Event records (R287–R292) -/

/-- Form a record: its timestamp is taken now. -/
def formRec (s : State) (r : EvRec) : EvRec × State :=
  let t := stamp s r.src
  ({ r with ts := t.1 }, t.2)

/-- The 32 bytes of a record (R288). -/
def recBytes (s : State) (r : EvRec) (phase : Bool) : List Byte :=
  leBytes 1 r.ty ++ leBytes 1 r.code ++ leBytes 1 (s.corr.isSome.toNat <<< 7 + r.flags % 8)
    ++ leBytes 1 (phase.toNat <<< 7 + (r.src % 8) <<< 4 + devNum s % 16)
    ++ leBytes 4 r.w1 ++ leBytes 4 r.w2 ++ leBytes 4 r.w3
    ++ leBytes 8 (match s.corr with | some c => c.value | none => 0)
    ++ leBytes 8 (match s.corr with | some c => (c.stamps[r.src]?).getD 0 | none => r.ts)

/-- The descriptor with this id has completed. -/
def dropDesc (s : State) (id : Nat) : State := { s with descs := s.descs.filter fun d => decide (d.id ≠ id) }
def dropDescOf (s : State) (r : EvRec) : State := match r.desc with | some id => dropDesc s id | none => s

/-- What an attempt to write a record comes to. -/
inductive PutResult
  | written (s : State)
  | full
  | faulted (s : State)

/-- A record reaches its slot in host memory. -/
def placeRecord (s : State) (x : Placed) : State :=
  dropDescOf (eqWritten ((s.emit (.host x.host x.data)).bump Reg.HST_EVENT_CNT 1) x.queue) x.rcd

/-- Records whose mirror writes have ended reach the host in order; `fuel` records at most (R260, R287). -/
def headFlush : Nat → State → State
  | 0, s => s
  | k + 1, s =>
    match s.headWrites.find? fun w => w.held.isSome with
    | some w => match w.done, w.held with
      | true, some x => headFlush k (placeRecord { s with headWrites := s.headWrites.erase w } x)
      | _, _ => s
    | none => s

/-- A record that has its place: the active head mirrors it first, and waits for that write (R260). -/
def sendPlaced (s : State) (i : Nat) (x : Placed) : State :=
  if activeHead s then
    let s := headSend s (twinDev s) (.record x.queue i x.data) (some x)
    headFlush s.headWrites.length s
  else if s.headWrites.any fun w => w.held.isSome then
    { s with headWrites := s.headWrites ++ [{ dev := twinDev s, msg := .record x.queue i x.data, done := true, held := some x }] }
  else placeRecord s x

/-- Try to write a record into its queue's next slot (R287, R260, R292, R295). -/
def putRecord (s : State) (q : Nat) (r : EvRec) : PutResult :=
  let size := cfgSize (eqCfg s q)
  let w := s.reg (eqReg q Reg.HST_EQq_WIDX)
  let i := bits w 15 0
  if (i + 1) % size = bits (s.reg (eqReg q Reg.HST_EQq_HEAD)) 15 0 then .full
  else
    let a := eqBase s q + 32 * i
    match omapCheck s a 32 true with
    | some f => .faulted ((hstFlag (omapFail s f) 5).setReg (eqReg q Reg.HST_EQq_WIDX) (setFlag w 17 true))
    | none =>
      let bs := recBytes s r (flag w 16)
      let w := setFlag (setBits w 15 0 ((i + 1) % size)) 17 false
      let w := if (i + 1) % size = 0 then setFlag w 16 (!flag w 16) else w
      .written (sendPlaced { s.setReg (eqReg q Reg.HST_EQq_WIDX) w with corr := none } i ⟨q, omapHost s a, r, bs⟩)

/-- Records lost and counted (R292). -/
def loseRecord (s : State) : State := hstFlag (s.bump Reg.HST_EVENT_LOST_CNT 1) 3

/-- Write one OVERFLOW record when some are owed, then the record: the state, and whether the record was written. -/
def putWithOverflow (s : State) (q : Nat) (r : EvRec) : State × Bool :=
  let lost := (s.eqSt q).lost
  let first : PutResult := if lost = 0 then .written s else
    let f := formRec s { ty := 5, src := r.src, w3 := lost }
    match putRecord f.2 q f.1 with
    | .written s => .written (s.setEqSt q { s.eqSt q with lost := 0 })
    | x => x
  match first with
  | .written s => match putRecord s q r with
    | .written s => (s, true)
    | .full => (s, false)
    | .faulted s => (s, false)
  | .full => (s, false)
  | .faulted s => (s, false)

/-- A record of an enabled queue: written, or left waiting (a COMPLETION), or lost (R287, R292). -/
def sendRecord (s : State) (q : Nat) (r : EvRec) : State :=
  if !eqEn s q then (if r.ty = 1 then dropDescOf s r else loseRecord s)
  else
    let ready := (s.eqSt q).waiting.isEmpty && !flag (s.reg (eqReg q Reg.HST_EQq_WIDX)) 17
    let t : State × Bool := if ready then putWithOverflow s q r else (s, false)
    if t.2 then t.1
    else if r.ty = 1 then t.1.setEqSt q { t.1.eqSt q with waiting := (t.1.eqSt q).waiting ++ [r] }
    else loseRecord (t.1.setEqSt q { t.1.eqSt q with lost := (t.1.eqSt q).lost + 1 })

/-- Write the COMPLETION records that wait, in order, while they can be written. -/
def flushEq : Nat → State → Nat → State
  | 0, s, _ => s
  | k + 1, s, q =>
    match (s.eqSt q).waiting with
    | [] => s
    | r :: rest =>
      let t := putWithOverflow s q r
      if t.2 then flushEq k (t.1.setEqSt q { t.1.eqSt q with waiting := rest }) q else t.1

/-- The queue that HST_ERR_EQ names, when it can take records. -/
def errEq (s : State) : Option Nat :=
  let w := s.reg Reg.HST_ERR_EQ
  if flag w 31 && eqEn s (bits w 5 0) then some (bits w 5 0) else none

/-- Records that were held for the error queue go first, then records are owed that found none (R292, R358). -/
def releaseErrHeld (s : State) : State :=
  match errEq s with
  | none => s
  | some q =>
    let held := s.errHeld
    let s := held.foldl (fun s r => sendRecord s q r) { s with errHeld := [] }
    let s := s.setEqSt q { s.eqSt q with lost := (s.eqSt q).lost + s.errLost }
    { s with errLost := 0 }

/-- A DEVICE_ERROR, NOTICE or TAKEOVER record (R289, R292). -/
def errRecord (s : State) (r : EvRec) : State :=
  let f := formRec s r
  match errEq s with
  | some q => sendRecord (releaseErrHeld f.2) q f.1
  | none => loseRecord { f.2 with errLost := f.2.errLost + 1 }

/-- A NOTICE (R289). -/
def notice (s : State) (code w1 w2 w3 : Nat) : State := errRecord s { ty := 3, code, w1, w2, w3 }

/-- Ports that have gone DOWN between two states are reported to the host (R251, R289). -/
def linkNotices (old s : State) : State :=
  (List.range (portCount s.part)).foldl (fun s p =>
    if portState old p ≠ 0 ∧ portState s p = 0 then notice s 0x02 p (bits (old.reg (portReg p Reg.FAB_Pp_PARTNER)) 23 20) 0 else s) s

/-- An old head learns that it has lost its role (R261): it reports the loss to its own host with a TAKEOVER record (DESIGN CHOICE,
log entry 59). -/
def roleLost (s : State) : State :=
  let t := s.reg Reg.FAB_TWIN
  errRecord (s.setReg Reg.FAB_TWIN (setBits t 31 30 0))
    { ty := 4, w1 := (bits t 19 12 + 1) % 256, w2 := twinDev s, w3 := devNum s }

def HeadMsg.isControl : HeadMsg → Bool
  | .work .. => true
  | _ => false

/-- The Surveyor takes the ends of its writes to other devices (R260, R261): records that waited go to the host, a refused control
write of the active head ends its role, and writes that waited for the budget go out. -/
def headRun (s : State) : State :=
  let lost := activeHead s && s.headWrites.any fun w => w.done && w.refused && w.msg.isControl
  let s := { s with headWrites := s.headWrites.filter fun w => !w.done || w.held.isSome }
  let s := headPump (if lost then roleLost s else s)
  headFlush s.headWrites.length s

/-- The NOTICE of a device reset is held until the error queue is enabled (R358). -/
def noticeHeld (s : State) (code w1 w2 w3 : Nat) : State :=
  match errEq s with
  | some _ => notice s code w1 w2 w3
  | none => let f := formRec s { ty := 3, code, w1, w2, w3 }; { f.2 with errHeld := f.2.errHeld ++ [f.1] }

/-! ### Completions (R276, R289–R292) -/

def findDesc (s : State) (id : Nat) : Option Descr := s.descs.find? fun d => decide (d.id = id)

def descTag (d : Descr) : Nat := leField d.bytes 4 4
def descQuiet (d : Descr) : Bool := natBit (leField d.bytes 1 1) 0

/-- A descriptor ends: its COMPLETION, or none where QUIET or an overtaking reset leaves none. -/
def completeDesc (s : State) (id code flags detail count : Nat) : State :=
  match findDesc s id with
  | none => s
  | some d =>
    if d.ended then s
    else if d.discard ∨ (descQuiet d ∧ code = 0 ∧ flags = 0) then dropDesc s id
    else
      let s := { s with descs := mapIf (fun d => decide (d.id = id)) (fun d => { d with ended := true }) s.descs }
      let f := formRec s { ty := 1, code, flags, src := d.home, w1 := descTag d, w2 := d.slot <<< 16 + d.ring,
                           w3 := (detail % 256) <<< 24 + count % 2 ^ 24, desc := some id }
      sendRecord f.2 d.eq f.1

/-- Flags of a descriptor that ends without running: a STEP that asked for tokens wrote none of them (R291). -/
def unrunFlags (s : State) (id : Nat) : Nat :=
  match findDesc s id with
  | some d => if leField d.bytes 0 1 = 1 ∧ leField d.bytes 12 3 ≠ 0 then 4 else 0
  | none => 0

/-- A descriptor ends without running. -/
def refuseDesc (s : State) (id code detail : Nat) : State := completeDesc s id code (unrunFlags s id) detail 0

/-- A descriptor that breaks a rule (R277). -/
def badDesc (s : State) (id detail : Nat) : State := refuseDesc s id 0x0B detail

/-! ### Set-up writes (R274, R287) -/

/-- Clear EN of a ring: nothing more is read. -/
def ringDisable (s : State) (r : Nat) : State :=
  s.setReg (ringReg r Reg.HST_RINGr_CFG) (setFlag (ringCfg s r) 31 false)

/-- RING_CFG_WRITE (R274). -/
def ringCfgWrite (s : State) (r : Nat) (v : Word) : State :=
  let v := v &&& 0xFFC0000F
  let refuse := hstFlag s 2
  if 1024 ≤ r then s
  else if ringEn s r then (if flag v 31 then refuse else s.setReg (ringReg r Reg.HST_RINGr_CFG) v)
  else if !flag v 31 then s.setReg (ringReg r Reg.HST_RINGr_CFG) v
  else if !fieldPresent s (bits v 29 28) ∨ !eqEn s (bits v 27 22) then refuse
  else
    let s := s.setReg (ringReg r Reg.HST_RINGr_CFG) v
    let s := (s.setReg (ringReg r Reg.HST_RINGr_HEAD) 0).setReg (ringReg r Reg.HST_RINGr_TAIL) 0
    s.setRingSt r { epoch := (s.ringSt r).epoch + 1 }

/-- Clear EN of a queue: records that wait are discarded. -/
def eqDisable (s : State) (q : Nat) : State :=
  let mine (w : HeadWrite) : Option EvRec := w.held.bind fun x => if x.queue = q then some x.rcd else none
  let w := s.headWrites.filterMap mine ++ (s.eqSt q).waiting
  let s := { s with headWrites := s.headWrites.map fun w => if (mine w).isSome then { w with held := none } else w }
  let s := s.setReg (eqReg q Reg.HST_EQq_CFG) (setFlag (eqCfg s q) 31 false)
  w.foldl dropDescOf (s.setEqSt q { s.eqSt q with waiting := [] })

/-- EQ_CFG_WRITE (R287). -/
def eqCfgWrite (s : State) (q : Nat) (v : Word) : State :=
  let v := v &&& 0xBFFFFFFF
  let refuse := hstFlag s 2
  if 64 ≤ q then s
  else if eqEn s q then
    if flag v 31 ∨ ((List.range 1024).any fun r => ringEn s r && decide (bits (ringCfg s r) 27 22 = q)) then refuse
    else (eqDisable s q).setReg (eqReg q Reg.HST_EQq_CFG) v
  else if !flag v 31 then s.setReg (eqReg q Reg.HST_EQq_CFG) v
  else
    let s := s.setReg (eqReg q Reg.HST_EQq_CFG) v
    let s := (s.setReg (eqReg q Reg.HST_EQq_HEAD) 0).setReg (eqReg q Reg.HST_EQq_WIDX) (bitMask 16)
    releaseErrHeld (s.setEqSt q { lost := (s.eqSt q).lost })

/-- A write to a base register of a ring or queue (R274, R287). -/
def baseWrite (s : State) (o : Nat) (en : Bool) (hi : Bool) (v : Word) : State :=
  if en then hstFlag s 2 else s.setReg o (if hi then v &&& 0xFFFF else v &&& 0xFFFFFFC0)

/-! ### Doorbells (R273, R275, R292) -/

/-- A doorbell is dropped. -/
def dbDrop (s : State) : State := hstFlag (s.bump Reg.HST_DB_DROP_CNT 1) 1

/-- Descriptors pending in ring r. -/
def ringPending (s : State) (r : Nat) : Nat :=
  let size := cfgSize (ringCfg s r)
  (bits (s.reg (ringReg r Reg.HST_RINGr_TAIL)) 15 0 + size - bits (s.reg (ringReg r Reg.HST_RINGr_HEAD)) 15 0) % size

/-- An accepted doorbell announces the descriptors below a position (R312): those already announced keep the stamps of the doorbell
that made them pending. -/
def announceTo (l : List (Nat × List Nat)) (hi : Nat) (t : List Nat) : List (Nat × List Nat) :=
  l.takeWhile (fun p => decide (p.1 < hi)) ++ [(hi, match l.dropWhile (fun p => decide (p.1 < hi)) with | p :: _ => p.2 | [] => t)]

/-- RING_TAIL_DOORBELL: a write at this offset of page r (R273, R275, R260, R261, R312). -/
def ringTail (s : State) (r off : Nat) (v : Word) : State :=
  if 1024 ≤ r then s
  else if off ≠ 0 ∨ bits v 31 16 ≠ 0 ∨ !ringEn s r ∨ cfgSize (ringCfg s r) ≤ bits v 15 0 then dbDrop s
  else
    let s := (s.setReg (ringReg r Reg.HST_RINGr_TAIL) v).bump Reg.HST_DB_CNT 1
    let t := stampAll s
    let x := t.2.ringSt r
    let hi := x.read + ringPending t.2 r
    let s := t.2.setRingSt r { x with
      stamps := announceTo x.stamps hi t.1,
      abortTo := if t.2.takeoverRings.contains r then hi else x.abortTo }
    let s := { s with takeoverRings := s.takeoverRings.filter (· ≠ r) }
    if activeHead s then headSend s (twinDev s) (.tail r (bits v 15 0)) none else s

/-- EQ_HEAD_DOORBELL: a write at this offset of page q (R273, R287, R292, R293). -/
def eqHead (s : State) (q off : Nat) (v : Word) : State :=
  let size := cfgSize (eqCfg s q)
  let new := bits v 15 0
  let head := bits (s.reg (eqReg q Reg.HST_EQq_HEAD)) 15 0
  let widx := bits (s.reg (eqReg q Reg.HST_EQq_WIDX)) 15 0
  if 1024 ≤ q then s
  else if off ≠ 0x800 ∨ 64 ≤ q ∨ bits v 31 17 ≠ 0 ∨ !eqEn s q ∨ size ≤ new ∨ (widx + size - head) % size < (new + size - head) % size then
    dbDrop s
  else
    let s := (s.setReg (eqReg q Reg.HST_EQq_HEAD) (setBits (s.reg (eqReg q Reg.HST_EQq_HEAD)) 15 0 new)).bump Reg.HST_DB_CNT 1
    let s := if flag v 16 then
        let s := setArmed s q true
        if widx ≠ new then eqRaise s q else s
      else s
    flushEq ((s.eqSt q).waiting.length) s q

/-- NARROW_WRITE_DROP (R9, R273). -/
def narrowWrite (s : State) : State := hstFlag (s.bump Reg.HST_NARROW_WR_CNT 1) 0

/-! ### Head takeover (R261) -/

/-- Resume a queue at its mirrored position: the last mirrored record is written again. -/
def resumeQueue (s : State) (m : Mirror) : State :=
  if !eqEn s m.queue then s
  else
    let size := cfgSize (eqCfg s m.queue)
    let i := m.index % size
    let bs := (m.data ++ List.replicate 32 0).take 32
    let a := eqBase s m.queue + 32 * i
    let phase := natBit (leField bs 3 1) 7
    let w : Word := BitVec.ofNat 32 ((if (i + 1) % size = 0 then !phase else phase).toNat <<< 16 + (i + 1) % size)
    let s := s.setReg (eqReg m.queue Reg.HST_EQq_WIDX) w
    match omapCheck s a 32 true with
    | some f => hstFlag ((omapFail s f).setReg (eqReg m.queue Reg.HST_EQq_WIDX) (setFlag w 17 true)) 5
    | none => s.emit (.host (omapHost s a) bs)

/-- HEAD_TAKEOVER: the standby head takes over. `members` are the devices that get a claim, `mirror` the last mirrored record
of each queue, `done` the ring slots whose completions were mirrored. -/
def headTakeover (s : State) (members : List Nat) (mirror : List Mirror) (done : List (Nat × Nat)) : State :=
  let t := s.reg Reg.FAB_TWIN
  if !fabEn s ∨ bits t 31 30 ≠ 2 then s
  else
    let epoch := (bits t 19 12 + 1) % 256
    let s := s.setReg Reg.FAB_TWIN (setBits (setBits t 31 30 1) 19 12 epoch)
    let s := members.foldl (fun s d => headSend s d (.claim epoch) none) s
    let s := errRecord s { ty := 4, w1 := epoch, w2 := devNum s, w3 := twinDev s }
    let s := mirror.foldl resumeQueue s
    let s := { s with mirrored := done, takeoverRings := List.range 1024 }
    tallyAppend s 0x0041 srcStand (dataWords [epoch, devNum s, twinDev s])

end Sys2Proof.Machine
end

