-- ==== Sys2Proof/Machine/Crypto.lean ====
section
/-! DEFINITION. SHA-256 and ECDSA P-256 verification (R213, R375), as the standards that the manual names define them. PRESUMED:
the constants and steps are those of FIPS 180-4 and FIPS 186-5 (log entry 36). -/

namespace Sys2Proof.Machine

/-! ### SHA-256 -/

/-- Words laid end to end in numbers of 256 bits, the first word highest. -/
def packedWords (l : List Nat) : List Word :=
  l.flatMap fun x => (List.range 8).map fun i => BitVec.ofNat 32 (x >>> (224 - 32 * i))

/-- The first 32 bits of the fractional parts of the square roots of the first 8 primes. -/
def shaInit : List Word := packedWords [0x6a09e667bb67ae853c6ef372a54ff53a510e527f9b05688c1f83d9ab5be0cd19]

/-- The first 32 bits of the fractional parts of the cube roots of the first 64 primes, 8 to a number. -/
def shaK : List Word := packedWords
  [0x428a2f9871374491b5c0fbcfe9b5dba53956c25b59f111f1923f82a4ab1c5ed5,
   0xd807aa9812835b01243185be550c7dc372be5d7480deb1fe9bdc06a7c19bf174,
   0xe49b69c1efbe47860fc19dc6240ca1cc2de92c6f4a7484aa5cb0a9dc76f988da,
   0x983e5152a831c66db00327c8bf597fc7c6e00bf3d5a7914706ca635114292967,
   0x27b70a852e1b21384d2c6dfc53380d13650a7354766a0abb81c2c92e92722c85,
   0xa2bfe8a1a81a664bc24b8b70c76c51a3d192e819d6990624f40e3585106aa070,
   0x19a4c1161e376c082748774c34b0bcb5391c0cb34ed8aa4a5b9cca4f682e6ff3,
   0x748f82ee78a5636f84c878148cc7020890befffaa4506cebbef9a3f7c67178f2]

def rotr (x : Word) (k : Nat) : Word := x.rotateRight k

/-- Big-endian value of bytes. -/
def beNat (bs : List Byte) : Nat := bs.foldl (fun a b => 256 * a + b.toNat) 0

/-- The low k bytes of a number, big-endian. -/
def beBytes (k v : Nat) : List Byte := (leBytes k v).reverse

/-- Big-endian words of a block. -/
def beWords : List Byte → List Word
  | a :: b :: c :: d :: t => BitVec.ofNat 32 (beNat [a, b, c, d]) :: beWords t
  | _ => []

/-- Extend the message schedule by k words; the newest word comes first. -/
def shaSchedule : Nat → List Word → List Word
  | 0, w => w
  | k + 1, w =>
    let g (i : Nat) : Word := (w[i]?).getD 0
    let s0 := rotr (g 14) 7 ^^^ rotr (g 14) 18 ^^^ (g 14 >>> 3)
    let s1 := rotr (g 1) 17 ^^^ rotr (g 1) 19 ^^^ (g 1 >>> 10)
    shaSchedule k ((g 15 + s0 + g 6 + s1) :: w)

structure ShaState where
  a : Word
  b : Word
  c : Word
  d : Word
  e : Word
  f : Word
  g : Word
  h : Word
  deriving DecidableEq, Repr

def shaRound (x : ShaState) (kw : Word × Word) : ShaState :=
  let s1 := rotr x.e 6 ^^^ rotr x.e 11 ^^^ rotr x.e 25
  let ch := (x.e &&& x.f) ^^^ (~~~x.e &&& x.g)
  let t1 := x.h + s1 + ch + kw.1 + kw.2
  let s0 := rotr x.a 2 ^^^ rotr x.a 13 ^^^ rotr x.a 22
  let maj := (x.a &&& x.b) ^^^ (x.a &&& x.c) ^^^ (x.b &&& x.c)
  ⟨t1 + (s0 + maj), x.a, x.b, x.c, x.d + t1, x.e, x.f, x.g⟩

def shaList (x : ShaState) : List Word := [x.a, x.b, x.c, x.d, x.e, x.f, x.g, x.h]
def shaOf (l : List Word) : ShaState :=
  let g (i : Nat) : Word := (l[i]?).getD 0
  ⟨g 0, g 1, g 2, g 3, g 4, g 5, g 6, g 7⟩

/-- One block of 64 bytes. -/
def shaBlock (h : List Word) (block : List Byte) : List Word :=
  let w := (shaSchedule 48 (beWords block).reverse).reverse
  let x := (shaK.zip w).foldl shaRound (shaOf h)
  (h.zip (shaList x)).map fun p => p.1 + p.2

/-- Blocks in order; `fuel` blocks at most. -/
def shaBlocks : Nat → List Word → List Byte → List Word
  | 0, h, _ => h
  | k + 1, h, bs => if bs.isEmpty then h else shaBlocks k (shaBlock h (bs.take 64)) (bs.drop 64)

/-- SHA-256 of a byte string: 32 bytes. -/
def sha256 (bs : List Byte) : List Byte :=
  let pad := bs ++ [0x80] ++ List.replicate ((119 - bs.length % 64) % 64) 0 ++ beBytes 8 (8 * bs.length)
  (shaBlocks (pad.length / 64) shaInit pad).flatMap fun w => beBytes 4 w.toNat

/-! ### ECDSA P-256 -/

def p256P : Nat := 0xffffffff00000001000000000000000000000000ffffffffffffffffffffffff
def p256N : Nat := 0xffffffff00000000ffffffffffffffffbce6faada7179e84f3b9cac2fc632551
def p256G : Nat × Nat :=
  (0x6b17d1f2e12c4247f8bce6e563a440f277037d812deb33a0f4a13945d898c296,
   0x4fe342e2fe1a7f9b8ee7eb4a7c0f9e162bce33576b315ececbb6406837bf51f5)

/-- x^e modulo m over the low k bits of e. -/
def powMod (m : Nat) : Nat → Nat → Nat → Nat
  | 0, _, _ => 1
  | k + 1, x, e =>
    let h := powMod m k (x * x % m) (e / 2)
    if e % 2 = 1 then h * x % m else h

/-- The inverse modulo a prime of 256 bits. -/
def invMod (m x : Nat) : Nat := powMod m 256 (x % m) (m - 2)

def subMod (m a b : Nat) : Nat := (a + m - b % m) % m

/-- The sum of two points; none is the point at infinity. -/
def ecAdd : Option (Nat × Nat) → Option (Nat × Nat) → Option (Nat × Nat)
  | none, q => q
  | p, none => p
  | some (x1, y1), some (x2, y2) =>
    let m := p256P
    let line (l : Nat) : Option (Nat × Nat) :=
      let x := subMod m (subMod m (l * l % m) x1) x2
      some (x, subMod m (l * subMod m x1 x % m) y1)
    if x1 = x2 then
      if (y1 + y2) % m = 0 then none
      else line ((3 * x1 * x1 + (m - 3)) % m * invMod m (2 * y1) % m)
    else line (subMod m y2 y1 * invMod m (subMod m x2 x1) % m)

/-- k times a point, over the low `bits` bits of k. -/
def ecMul : Nat → Nat → Option (Nat × Nat) → Option (Nat × Nat)
  | 0, _, _ => none
  | b + 1, k, p =>
    let r := ecMul b (k / 2) (ecAdd p p)
    if k % 2 = 1 then ecAdd p r else r

/-- ECDSA verification of a digest under a public key, r then s big-endian. -/
def ecdsaVerify (key : Nat × Nat) (digest sig : List Byte) : Bool :=
  let r := beNat (sig.take 32)
  let t := beNat (slice sig 32 32)
  if r = 0 ∨ p256N ≤ r ∨ t = 0 ∨ p256N ≤ t then false
  else
    let w := invMod p256N t
    let e := beNat (digest.take 32)
    match ecAdd (ecMul 256 (e * w % p256N) (some p256G)) (ecMul 256 (r * w % p256N) (some key)) with
    | some (x, _) => decide (x % p256N = r)
    | none => false

/-! ### Key slots (R375, R389) -/

/-- The bytes held in k registers from offset o on, in the order of their addresses. -/
def regBytes (s : State) (o k : Nat) : List Byte := (List.range k).flatMap fun w => leBytes 4 (s.reg (o + 4 * w)).toNat

/-- The number that eight registers from offset o on hold, the most significant word first (log entry 54). -/
def beRegs (s : State) (o : Nat) : Nat := (List.range 8).foldl (fun x w => x * 2 ^ 32 + (s.reg (o + 4 * w)).toNat) 0

/-- The public key of slot k: X then Y, each big-endian. -/
def slotKey (s : State) (k : Nat) : Nat × Nat :=
  (beRegs s (Reg.SRV_KEYk_Ww + 64 * k), beRegs s (Reg.SRV_KEYk_Ww + 64 * k + 32))

/-- May slot k verify objects of a purpose: 0 FIRMWARE, 1 IMAGE, 2 MAINT? -/
def slotOk (s : State) (k purpose : Nat) : Bool :=
  let w := s.reg Reg.SRV_KEY_STATUS
  decide (k < 8) && flag w (3 * k + purpose) && !flag w (24 + k)

/-- Does a signature over bytes verify under KEY_ID for a purpose (R375)? -/
def signatureOk (s : State) (k purpose : Nat) (msg sig : List Byte) : Bool :=
  slotOk s k purpose && ecdsaVerify (slotKey s k) (sha256 msg) sig

end Sys2Proof.Machine
end

