-- ==== Sys2Proof/Machine/Ports.lean ====
section
/-! DEFINITION. The command ports of the Residency Table (R194–R196, R207) and of the Context Table (R317), the budget
counters, and the spill pool's registers (R187). -/

namespace Sys2Proof.Machine

/-! ### Ports -/

/-- Argument word w, command and result register of port p. -/
def resArg (p w : Nat) : Nat := Reg.RES_P0_ARGw + 0x40 * p + 4 * w
def resResult (p : Nat) : Nat := Reg.RES_P0_RESULT + 0x40 * p
def ctxArg (p w : Nat) : Nat := Reg.CTX_P0_ARGw + 0x80 * p + 4 * w
def ctxResult (p : Nat) : Nat := Reg.CTX_P0_RESULT + 0x80 * p

/-! ### Residency Table -/

def resValid (w0 : Word) : Bool := flag w0 31
def resState (w0 : Word) : Nat := bits w0 30 28
def resKind (w0 : Word) : Nat := bits w0 27 25
def resGen (w0 : Word) : Nat := bits w0 19 12
def resPins (w0 : Word) : Nat := bits w0 7 0

/-- The fields of an entry that exist (R193): reserved bits read 0. -/
def resMask (w : Nat) : Word :=
  match w with
  | 0 => 0xFFFFF0FF | 1 => 0xFFFF0FFF | 3 => 0xFFFF | 5 => 0xFFFF | 6 => 0xFFFFF0FF | _ => 0xFFFFFFFF

/-- A Residency command as RES_Pp_CMD carries it. -/
structure ResCmd where
  op : Nat
  down : Bool
  gen : Nat
  entry : Nat
  deriving DecidableEq, Repr

def parseResCmd (v : Word) : ResCmd := ⟨bits v 31 28, flag v 27, bits v 26 19, bits v 14 0⟩

/-- The answer of a command: its code, whether the generation was stale, and the entry's words to write. -/
structure ResAnswer where
  code : Nat
  stale : Bool
  writes : List (Nat × Word)
  deriving DecidableEq, Repr

def resOk (ws : List (Nat × Word)) : ResAnswer := ⟨0x00, false, ws⟩
def resBusy : ResAnswer := ⟨0x09, false, []⟩
def resBad : ResAnswer := ⟨0x0B, false, []⟩

/-- The Residency state machine (R195) on the words of an entry that is not quarantined. `dst` is the tier and Field recorded
for a move in progress. -/
def resMachine (c : ResCmd) (w : Nat → Word) (arg : Nat → Word) (dst : Nat) : ResAnswer :=
  let w0 := w 0
  let gen' : Word := setBits w0 19 12 (resGen w0 + 1)
  let st (v : Word) (x : Nat) : Word := setBits v 30 28 x
  if 10 ≤ c.op then resBad
  else if c.op = 0 then resOk []
  else if c.op = 1 then
    if resValid w0 then resBusy
    else
      let a0 := setBits (setBits (setBits (arg 0 &&& resMask 0) 30 28 0) 19 12 (resGen w0)) 7 0 0
      resOk ((List.range 8).map fun i => (i, match i with
        | 0 => a0 ||| bitMask 31
        | 4 => 0
        | 5 => 0
        | i => arg i &&& resMask i))
  else if c.gen ≠ resGen w0 then ⟨0x09, true, []⟩
  else if !resValid w0 then resBad
  else
    let staged := decide (resKind w0 = 3)
    match resState w0, c.op with
    | 0, 2 => resOk [(0, st (setBits w0 7 0 1) 3)]
    | 0, 4 => if staged && c.down then resBad
        else resOk [(0, st w0 (if c.down then 2 else 1)), (4, arg 4), (5, arg 5 &&& resMask 5)]
    | 0, 7 => if staged then resBad else resOk [(0, st w0 4)]
    | 0, 9 => if staged then resOk [(0, setFlag gen' 31 false)] else resBad
    | 3, 2 => if resPins w0 < 255 then resOk [(0, setBits w0 7 0 (resPins w0 + 1))] else resBusy
    | 3, 3 => resOk [(0, if resPins w0 ≤ 1 then st (setBits w0 7 0 0) 0 else setBits w0 7 0 (resPins w0 - 1))]
    | 3, 4 | 3, 7 | 3, 9 => resBusy
    | 1, 5 | 2, 5 =>
      resOk [(0, setFlag (setBits (setBits (st gen' 0) 21 20 (dst / 4)) 23 22 (dst % 4)) 24 (flag (arg 0) 24)),
        (2, w 4), (3, w 5), (4, 0), (5, 0)]
    | 1, 6 | 2, 6 => resOk [(0, st w0 0), (4, 0), (5, 0)]
    | 1, 2 | 1, 4 | 1, 7 | 1, 9 | 2, 2 | 2, 4 | 2, 7 | 2, 9 => resBusy
    | 4, 8 => resOk [(0, setFlag gen' 31 false)]
    | 4, 2 | 4, 4 | 4, 9 => resBusy
    | _, _ => resBad

/-- RES_Pp_RESULT. -/
def resResultWord (stale : Bool) (gen code : Nat) : Word :=
  BitVec.ofNat 32 (1 <<< 31 + stale.toNat <<< 30 + (gen % 256) <<< 8 + code % 256)

/-- Execute a Residency command whose argument words are `arg` (R194–R196, R207, R328): its answer and the state. Entries
are read and written whole by the table engine. -/
def resExec (s : State) (c : ResCmd) (arg : Nat → Word) (port5 : Bool) : ResAnswer × Nat × State :=
  let s := s.bump Reg.RES_CMD_CNT 1
  let r := tabReadAll s .res c.entry
  let s := r.2
  let w := tabVal r.1
  let quar := quarantined s .res c.entry
  let a := if port5 && c.op != 0 then resBad
    else if quar && c.op != 0 then resBusy
    else resMachine c w arg (storeGet 0 s.resDest c.entry)
  let s := tabWrite s .res c.entry a.writes
  let s := if c.op = 4 ∧ a.code = 0 then
      { s with resDest := storeSet 0 s.resDest c.entry (4 * bits (arg 0) 21 20 + bits (arg 0) 23 22) }
    else s
  let s := if a.code = 0x09 then s.bump Reg.RES_BUSY_CNT 1 else s
  let s := if a.stale then s.bump Reg.RES_STALE_CNT 1 else s
  let gen := match a.writes.find? fun x => decide (x.1 = 0) with
    | some x => resGen x.2
    | none => resGen (w 0)
  (a, gen, s)

/-- A command written to RES_Pp_CMD (R194, R207). -/
def resPort (s : State) (p : Nat) (c : ResCmd) (acc : PortAccess) : State :=
  if acc.host ∧ p < 5 then s.raise Reg.RES_ERR_STATUS (bitMask 1)
  else if acc.early then s.raise Reg.RES_ERR_STATUS (bitMask 0)
  else
    let arg (i : Nat) : Word := s.reg (resArg p i)
    let before := (tabReadAll s .res c.entry).1
    let x := resExec s c arg (decide (p = 5))
    let s := if c.op = 0 then
        (List.range 8).foldl (fun s i => s.setReg (resArg p i) (tabVal before i)) x.2.2
      else x.2.2
    s.setReg (resResult p) (resResultWord x.1.stale x.2.1 x.1.code)

/-- Entries of the Residency Table in FREE (R207). -/
def resFree (s : State) : Nat := 0x8000 - (s.res.countP fun e => decide (e.1 % 8 = 0) && flag e.2.data 31)

/-! ### Context Table -/

def ctxState (w0 : Word) : Nat := bits w0 31 29
def ctxGen (w0 : Word) : Nat := bits w0 11 0

/-- The fields of an entry that exist (R300): reserved bits are written 0. -/
def ctxMask (w : Nat) : Word :=
  match w with
  | 0 => 0xFFFFCFFF | 1 => 0xFC00FFFF | 2 => 0xFFFFFF | 3 => 0xFFFFFF | 5 => 0xFFFFFFC0 | 7 => 0x80007FFF
  | 11 => 0xFFFF03FF | 12 => 0xFFFFFF | 14 => 0x1FFFFF | _ => 0xFFFFFFFF

/-- Words of an entry as the table engine reads them. -/
def ctxRead (s : State) (e : Nat) : (Nat → Word) × State :=
  let r := tabReadAll s .ctx e
  (tabVal r.1, r.2)

/-- Words that firmware writes into an entry: every word but OUTSTANDING (R301, R317). -/
def ctxWrites (cur new : Nat → Word) : List (Nat × Word) :=
  (List.range 16).map fun i => (i, match i with
    | 1 => setBits (new 1 &&& ctxMask 1) 15 0 (bits (cur 1) 15 0)
    | i => new i &&& ctxMask i)

/-- Budget counter c (R317). -/
def budget (s : State) (c : Nat) : Nat := bits (s.reg (Reg.CTX_BUDGETc + 4 * c)) 23 0
def setBudget (s : State) (c v : Nat) : State := s.setReg (Reg.CTX_BUDGETc + 4 * c) (BitVec.ofNat 32 (v % 2 ^ 24))

/-- TAKE and GIVE of an amount: the code, and the state. -/
def budgetTake (s : State) (c a : Nat) : Nat × State :=
  if 5 < c then (0x0B, s)
  else if a ≤ budget s c then (0x00, setBudget s c (budget s c - a))
  else (0x03, s.bump Reg.CTX_TAKE_REFUSE_CNT 1)

def budgetGive (s : State) (c a : Nat) : Nat × State :=
  if 5 < c ∨ 0xFFFFFF < budget s c + a then (0x0B, s) else (0x00, setBudget s c (budget s c + a))

/-- CTX_Pp_RESULT. -/
def ctxResultWord (stale : Bool) (gen code : Nat) : Word :=
  BitVec.ofNat 32 (1 <<< 31 + stale.toNat <<< 30 + (gen % 4096) <<< 12 + code % 256)

/-- A command written to CTX_Pp_CMD (R317, R328); a WRITE to FREE while OUTSTANDING is not 0 is refused (R315). -/
def ctxPort (s : State) (p op gen entry : Nat) (acc : PortAccess) : State :=
  if acc.host ∧ p < 5 then s.raise Reg.CTX_ERR_STATUS (bitMask 2)
  else if acc.early then s.raise Reg.CTX_ERR_STATUS (bitMask 1)
  else
    let s := s.bump Reg.CTX_CMD_CNT 1
    let arg (i : Nat) : Word := s.reg (ctxArg p i)
    let result (s : State) (stale : Bool) (g code : Nat) : State := s.setReg (ctxResult p) (ctxResultWord stale g code)
    if p = 5 ∧ op ≠ 0 then result s false 0 0x0B
    else match op with
      | 0 =>
        let r := ctxRead s entry
        let s := (List.range 16).foldl (fun s i => s.setReg (ctxArg p i) (r.1 i)) r.2
        result s false (ctxGen (r.1 0)) 0x00
      | 1 =>
        let r := ctxRead s entry
        if quarantined r.2 .ctx entry then result r.2 false (ctxGen (r.1 0)) 0x09
        else if gen ≠ ctxGen (r.1 0) then result r.2 true (ctxGen (r.1 0)) 0x09
        else if ctxState (arg 0) = 0 ∧ bits (r.1 1) 15 0 ≠ 0 then result r.2 false gen 0x09
        else result (tabWrite r.2 .ctx entry (ctxWrites r.1 arg)) false (ctxGen (arg 0)) 0x00
      | 2 => let r := budgetTake s (bits (arg 0) 26 24) (bits (arg 0) 23 0); result r.2 false 0 r.1
      | 3 => let r := budgetGive s (bits (arg 0) 26 24) (bits (arg 0) 23 0); result r.2 false 0 r.1
      | _ => result s false 0 0x0B

/-- Entries of the Context Table that are not FREE (R316). -/
def ctxUsed (s : State) : Nat := s.ctx.countP fun e => decide (e.1 % 16 = 0) && decide (bits e.2.data 31 29 ≠ 0)

/-! ### Firmware's own commands -/

/-- Firmware's commands go through the Surveyor's port, one after another (R194, R317; DESIGN CHOICE, log entry 60). -/
def fwPort : Nat := 4
def fwAcc : PortAccess := { host := false, early := false }

/-- A Context Table command of firmware's: its code and the state. -/
def fwCtx (s : State) (op gen e : Nat) : Nat × State :=
  let s := ctxPort s fwPort op gen e fwAcc
  (bits (s.reg (ctxResult fwPort)) 7 0, s)

/-- A Residency command of firmware's with argument words: its code and the state. -/
def fwResArgs (s : State) (c : ResCmd) (arg : Nat → Word) : Nat × State :=
  let s := (List.range 8).foldl (fun s i => s.setReg (resArg fwPort i) (arg i)) s
  let s := resPort s fwPort c fwAcc
  (bits (s.reg (resResult fwPort)) 7 0, s)

/-- One without. -/
def fwRes (s : State) (op gen e : Nat) : Nat × State :=
  let s := resPort s fwPort ⟨op, false, gen, e⟩ fwAcc
  (bits (s.reg (resResult fwPort)) 7 0, s)

/-! ### Spill pool (R187) -/

/-- Full value of counter 4 for a pool size in MiB (R187, R317). -/
def spillUnits (mib : Nat) : Nat := min (256 * mib) 0xFFFFFF

/-- No entry has its home in host memory or is moving there, and no reservation of the pool is held. -/
def spillIdle (s : State) : Bool :=
  (s.res.all fun e => !(decide (e.1 % 8 = 0) && flag e.2.data 31
    && (decide (bits e.2.data 21 20 = 1)
      || ((decide (bits e.2.data 30 28 = 1) || decide (bits e.2.data 30 28 = 2)) && decide (storeGet 0 s.resDest (e.1 / 8) / 4 = 1)))))
  && decide (budget s 4 = spillUnits (s.reg Reg.RES_SPILL_SIZE).toNat)

/-- A write to register w of the spill pool: 0 RES_SPILL_BASE_LO, 1 RES_SPILL_BASE_HI, 2 RES_SPILL_SIZE. -/
def spillWrite (s : State) (w : Nat) (v : Word) : State :=
  if !spillIdle s then s.raise Reg.RES_ERR_STATUS (bitMask 0)
  else match w with
    | 0 => s.setReg Reg.RES_SPILL_BASE_LO (v &&& 0xFFFFF000)
    | 1 => s.setReg Reg.RES_SPILL_BASE_HI (v &&& 0xFFFF)
    | 2 =>
      -- a TAKE of the old size and a GIVE of the new (R317)
      let move (s : State) (op a : Nat) : State := (fwCtx (s.setReg (ctxArg fwPort 0) (BitVec.ofNat 32 (4 <<< 24 + a))) op 0 0).2
      move (move (s.setReg Reg.RES_SPILL_SIZE v) 2 (budget s 4)) 3 (spillUnits v.toNat)
    | _ => s

end Sys2Proof.Machine
end

