-- ==== Sys2Proof/Machine/Alloc.lean ====
section
/-! DEFINITION. How firmware gives out memory and uses the tables: budget counters, homes, Residency objects, context entries,
page lists (R125, R188–R198, R300–R304, R317). -/

namespace Sys2Proof.Machine

/-! ### Budget counters (R304, R317) -/

/-- A TAKE by firmware: whether it was granted. More than the field holds is more than any counter has. -/
def fwTake (s : State) (c a : Nat) : Bool × State :=
  if 2 ^ 24 ≤ a then (false, s)
  else
    let r := fwCtx (s.setReg (ctxArg fwPort 0) (BitVec.ofNat 32 (c <<< 24 + a))) 2 0 0
    (decide (r.1 = 0), r.2)

/-- A GIVE by firmware. -/
def fwGive (s : State) (c a : Nat) : State :=
  if 2 ^ 24 ≤ a then s else (fwCtx (s.setReg (ctxArg fwPort 0) (BitVec.ofNat 32 (c <<< 24 + a))) 3 0 0).2

/-- Several takes as one admission: a refused one returns the earlier ones (R304). -/
def fwTakeAll (s : State) : List (Nat × Nat) → Bool × State
  | [] => (true, s)
  | (c, a) :: rest =>
    let r := fwTake s c a
    if r.1 then
      let t := fwTakeAll r.2 rest
      if t.1 then t else (false, fwGive t.2 c a)
    else (false, r.2)

/-! ### Places (R187, R189) -/

/-- Does a range lie clear of everything given out? -/
def rangeFree (s : State) (a len : Nat) : Bool := s.given.all fun g => decide (a + len ≤ g.1) || decide (g.1 + g.2 ≤ a)

/-- A place for `len` bytes within [lo, hi): the one firmware asks for when it is free, else the lowest. -/
def findPlace (s : State) (lo hi len : Nat) (want : Option Nat) : Option Nat :=
  let fits (a : Nat) : Bool := decide (lo ≤ a) && decide (a + len ≤ hi) && decide (a % 4096 = 0) && rangeFree s a len
  match want.filter fits with
  | some a => some a
  | none =>
    let ends := s.given.map fun g => 4096 * ceilDiv (g.1 + g.2) 4096
    ((lo :: ends).filter fits).foldl (fun m a => match m with | none => some a | some b => some (min a b)) none

/-- Give out a range. -/
def giveOut (s : State) (a len : Nat) : State := { s with given := (a, len) :: s.given }

/-- Take a range back. -/
def takeBack (s : State) (a : Nat) : State := { s with given := s.given.filter fun g => decide (g.1 ≠ a) }

/-- Bounds of a tier: near memory of a Field, or the part of the spill pool that firmware uses (R187). -/
def tierBounds (s : State) (tier f : Nat) : Nat × Nat :=
  if tier = 1 then
    let b := (s.reg Reg.RES_SPILL_BASE_HI).toNat <<< 32 + (s.reg Reg.RES_SPILL_BASE_LO).toNat
    (b, b + 4096 * spillUnits (s.reg Reg.RES_SPILL_SIZE).toNat)
  else (nmAddr f 0, nmAddr f (nmDataEnd s.part))

/-- The budget counter of a tier. -/
def tierCounter (tier f : Nat) : Nat := if tier = 1 then 4 else f

/-! ### Residency objects (R193, R195) -/

/-- A table word as a READ of it answers (R327, R328). -/
def tabSeen (s : State) (t : TabId) (e w : Nat) : Word :=
  match tabDecode (tabWordAt s t e w) with
  | some (v, _) => v
  | none => 0xFFFFFFFF

/-- A word of an entry as firmware reads it. -/
def resWord (s : State) (e w : Nat) : Word := tabSeen s .res e w
def resHome (s : State) (e : Nat) : Nat := (resWord s e 2).toNat + (resWord s e 3).toNat <<< 32
def resDestAddr (s : State) (e : Nat) : Nat := (resWord s e 4).toNat + (resWord s e 5).toNat <<< 32
def resSize (s : State) (e : Nat) : Nat := bits (resWord s e 6) 31 12
def resTier (s : State) (e : Nat) : Nat := bits (resWord s e 0) 21 20
def resField (s : State) (e : Nat) : Nat := bits (resWord s e 0) 23 22
def resCoded (s : State) (e : Nat) : Bool := flag (resWord s e 0) 24
def resOwner (s : State) (e : Nat) : Nat := bits (resWord s e 1) 31 16
def resOwnerGen (s : State) (e : Nat) : Nat := bits (resWord s e 1) 11 0
def resLive (s : State) (e : Nat) : Bool := flag (resWord s e 0) 31

/-- Units of 4 KiB that an object of a size takes: a coded region has its header array in front (R193). -/
def codedUnits (size : Nat) (coded : Bool) : Nat := if coded then size + ceilDiv size 256 else size

/-- The lowest FREE entry. -/
def freeRes (s : State) : Option Nat := firstBelow 32768 fun e => !resLive s e && !quarantined s .res e

/-- What an object to be allocated is. -/
structure ObjSpec where
  kind : Nat
  coded : Bool
  tier : Nat
  field : Nat
  owner : Nat
  ownerGen : Nat
  size : Nat
  flags : Nat
  deriving DecidableEq, Repr

/-- Allocate a Residency object at a home (ALLOC, R195). -/
def newObject (s : State) (o : ObjSpec) (home : Nat) : Option (Nat × State) :=
  match freeRes s with
  | none => none
  | some e =>
    let arg (w : Nat) : Word := match w with
      | 0 => BitVec.ofNat 32 (o.kind <<< 25 + o.coded.toNat <<< 24 + o.field <<< 22 + o.tier <<< 20)
      | 1 => BitVec.ofNat 32 (o.owner <<< 16 + o.ownerGen)
      | 2 => BitVec.ofNat 32 home
      | 3 => BitVec.ofNat 32 (home >>> 32)
      | 6 => BitVec.ofNat 32 (o.size <<< 12 + o.flags)
      | _ => 0
    let r := fwResArgs s ⟨1, false, 0, e⟩ arg
    if r.1 = 0 then some (e, r.2) else none

/-- Place and allocate an object whose reservations are held. -/
def placeObject (s : State) (o : ObjSpec) (want : Option Nat) : Option (Nat × State) :=
  let len := 4096 * codedUnits o.size o.coded
  let b := tierBounds s o.tier o.field
  match findPlace s b.1 b.2 len want with
  | none => none
  | some a => newObject (giveOut s a len) o a

/-- PIN and UNPIN of an entry at its present generation. -/
def pinEntry (s : State) (e : Nat) : Option (Nat × State) :=
  let g := resGen (resWord s e 0)
  let r := fwRes s 2 g e
  if r.1 = 0 then some (g, r.2) else none
def unpinEntry (s : State) (e gen : Nat) : State := (fwRes s 3 gen e).2

/-- Stop the transfers that firmware makes for purposes that p selects: waiting ones are dropped, running ones aborted (R201). -/
def dropFwXfers (s : State) (p : Purpose → Bool) : State :=
  let s := { s with chanWaits := s.chanWaits.filter fun w => !p w.p, fwDone := s.fwDone.filter fun d => !p d.1 }
  (List.range 4).foldl (fun s f => (List.range 16).foldl (fun s k =>
    let s := s.setChan f k { s.chan f k with queue := (s.chan f k).queue.filter fun q => match q with | .fw _ q => !p q | _ => true }
    match (s.chan f k).purpose with
    | some q => if p q then finishChan (s.setChan f k { s.chan f k with purpose := none }) f k 1 else s
    | none => s) s) s

/-- Is an object coded at the end of a move to a tier (R198)? A coded one that stays in near memory is moved as it is. -/
def destCoded (s : State) (e tier : Nat) : Bool := decide (tier = 1) || (resCoded s e && decide (resTier s e ≠ 1))

/-- MOVE_CANCEL, with the move's transfer aborted first: the destination's space and reservation are given back (R197, R304). -/
def cancelMove (s : State) (e : Nat) : State :=
  let s := dropFwXfers s fun p => decide (p = .move e)
  let dst := storeGet 0 s.resDest e
  let units := codedUnits (resSize s e) (destCoded s e (dst / 4))
  let a := resDestAddr s e
  let r := fwRes s 6 (resGen (resWord s e 0)) e
  if r.1 = 0 then
    let t := takeBack { r.2 with moves := r.2.moves.filter fun m => decide (m.entry ≠ e) } a
    if s.moves.any fun m => decide (m.entry = e) then fwGive t (tierCounter (dst / 4) (dst % 4)) units else t
  else r.2

/-- Release an object: a move is cancelled first; its space and its reservations are given back. None while it is pinned
(R195, R315). -/
def releaseObject (s : State) (e : Nat) : Option State :=
  let s := if resState (resWord s e 0) = 1 ∨ resState (resWord s e 0) = 2 then cancelMove s e else s
  let w0 := resWord s e 0
  let home := resHome s e
  let units := codedUnits (resSize s e) (resCoded s e)
  let c := tierCounter (resTier s e) (resField s e)
  let back (s : State) : State := fwGive (fwGive (takeBack s home) c units) 5 1
  if resKind w0 = 3 then
    let r := fwRes s 9 (resGen w0) e
    if r.1 = 0 then some (back r.2) else none
  else
    let r := if resState w0 = 4 then (0, s) else fwRes s 7 (resGen w0) e
    if r.1 ≠ 0 then none
    else
      let q := fwRes r.2 8 (resGen w0) e
      if q.1 = 0 then some (back q.2) else none

/-- Entries of the objects that a context owns at a generation. -/
def ownedBy (s : State) (ctx gen : Nat) : List Nat :=
  (s.res.filter fun x => decide (x.1 % 8 = 0)).filterMap fun x =>
    let e := x.1 / 8
    if resLive s e && decide (resOwner s e = ctx) && decide (resOwnerGen s e = gen) && !quarantined s .res e then some e else none

/-! ### Allocation flags (R188, R189) -/

/-- Are the flags legal, and not STREAM_ONLY? -/
def allocLegal (s : State) (a : Nat) : Bool :=
  !natBit a 7 && decide (natBits a 2 0 ≤ 2) && !(decide (natBits a 2 0 = 2) && natBit a 3)
    && !(natBit a 6 && !fieldPresent s (natBits a 5 4))

/-- First homes to try, in order: (tier, Field). The spill pool only with ALLOW_HOST_SPILL (R188, R304). Which Field comes first
is firmware's choice. -/
def firstHomes (s : State) (a : Nat) (field : Option Nat) (home : Nat) : List (Nat × Nat) :=
  let all := (List.range (fieldCount s.part))
  let near := if natBit a 6 then [natBits a 5 4] else match field with
    | some f => if f ∈ all then f :: all.filter (· ≠ f) else all
    | none => all
  near.map (fun f => (0, f)) ++ (if natBits a 2 0 ≤ 1 ∧ natBit a 3 then [(1, home)] else [])

/-! ### Context entries (R300, R301) -/

/-- A word of an entry as firmware reads it. -/
def ctxWord (s : State) (e w : Nat) : Word := tabSeen s .ctx e w

/-- Firmware's READ of an entry: the table engine checks every word of it (R317, R327, R328). -/
def fwCtxRead (s : State) (e : Nat) : State := (fwCtx s 0 0 e).2

/-- Firmware changes some words of an entry: a READ, then a WRITE under the generation read; a quarantined entry answers BUSY
(R301, R317, R328). -/
def fwCtxSet (s : State) (e : Nat) (ws : List (Nat × Word)) : State :=
  let s := fwCtxRead s e
  let g := bits (s.reg (ctxResult fwPort)) 23 12
  (fwCtx (ws.foldl (fun s p => s.setReg (ctxArg fwPort p.1) p.2) s) 1 g e).2

/-- Replace bits [hi:lo] of a word of an entry. -/
def ctxSetBits (s : State) (e w hi lo v : Nat) : State := fwCtxSet s e [(w, setBits (ctxWord s e w) hi lo v)]

def State.fw (s : State) (e : Nat) : CtxFw := storeGet {} s.ctxFw e
def State.setFw (s : State) (e : Nat) (x : CtxFw) : State := { s with ctxFw := storeSet {} s.ctxFw e x }

/-- Contexts whose entry is not FREE, by index. -/
def liveCtxs (s : State) : List Nat :=
  (s.ctx.filter fun x => decide (x.1 % 16 = 0) && decide (ctxState x.2.data ≠ 0)).map (·.1 / 16)

def ctxStateOf (s : State) (e : Nat) : Nat := ctxState (ctxWord s e 0)
/-- Open: ACTIVE or PARKED. -/
def ctxOpen (s : State) (e : Nat) : Bool := decide (ctxStateOf s e = 1) || decide (ctxStateOf s e = 2)
def ctxHome (s : State) (e : Nat) : Nat := bits (ctxWord s e 0) 23 22
def ctxRoot (s : State) (e : Nat) : Nat := bits (ctxWord s e 1) 31 26
def ctxStepPend (s : State) (e : Nat) : Bool := flag (ctxWord s e 0) 28
def ctxCancel (s : State) (e : Nat) : Bool := flag (ctxWord s e 0) 27
def ctxRootTok (s : State) (e : Nat) : Bool := flag (ctxWord s e 0) 25
def ctxCommitted (s : State) (e : Nat) : Nat := bits (ctxWord s e 2) 23 0
def ctxMaxPos (s : State) (e : Nat) : Nat := bits (ctxWord s e 4) 23 0
def ctxDue (s : State) (e : Nat) : Nat := (ctxWord s e 9).toNat + (ctxWord s e 10).toNat <<< 32
def ctxList (s : State) (e : Nat) : Nat := bits (ctxWord s e 6) 15 0 <<< 32 + bits (ctxWord s e 5) 31 6 * 64
def ctxListCap (s : State) (e : Nat) : Nat := bits (ctxWord s e 6) 31 16

/-- The 64-byte image of an entry (R300). -/
def ctxImage (s : State) (e : Nat) : List Byte := (List.range 16).flatMap fun w => leBytes 4 (ctxWord s e w).toNat

/-- Is the context a member of a running step? -/
def inStep (s : State) (e : Nat) : Bool := s.steps.any fun t => t.subs.any fun b => b.members.any fun m => decide (m.ctx = e)

/-! ### Page lists (R125, R197, R304) -/

/-- Write page entry i of a context's list. -/
def putPage (s : State) (e i : Nat) (v : Nat) : State :=
  let a := ctxList s e + 8 * i
  match placeOf a with
  | .nm f x => nmWrite s f x ((leBytes 8 v).map fun b => (b, false)) f
  | _ => s

/-- A page entry: VALID, RESIDENT, its object, its address. -/
def pageEntry (resident : Bool) (entry addr : Nat) : Nat :=
  1 <<< 63 + resident.toNat <<< 62 + (entry % 32768) <<< 47 + natBits addr 46 12 <<< 12

/-- Write the entries of an object's pages. -/
def putObjPages (s : State) (e : Nat) (obj : Nat × Nat × Nat) (resident : Bool) (home : Nat) : State :=
  let u := (s.fw e).pageUnits * 4096
  (List.range obj.2.2).foldl (fun s i => putPage s e (obj.2.1 + i) (pageEntry resident obj.1 (home + i * u))) s

/-- Every object of the context is HOME, or pinned, in near memory, and so is what is reserved for the objects to come. -/
def ctxWarm (s : State) (e : Nat) : Bool :=
  !(s.fw e).spill &&
  (ownedBy s e (ctxGen (ctxWord s e 0))).all fun r =>
    decide (resTier s r = 0) && (decide (resState (resWord s r 0) = 0) || decide (resState (resWord s r 0) = 3))

/-- ACTIVE and PARKED follow where the context's objects are (R302). -/
def ctxFollow (s : State) (e : Nat) : State :=
  if ctxOpen s e then
    let want := if ctxWarm s e then 1 else 2
    if ctxStateOf s e = want then s else ctxSetBits s e 0 31 29 want
  else s

end Sys2Proof.Machine
end

