-- ==== Sys2Proof/Machine/Images.lean ====
section
/-! DEFINITION. Apjan images (R213–R218): header, manifest, segment entries, and the checks on them. -/

namespace Sys2Proof.Machine

/-! ### Header (R213) -/

def imgMagic (h : List Byte) : Nat := leField h 0 4
def imgFormat (h : List Byte) : Nat := leField h 4 2
def imgBytes (h : List Byte) : Nat := leField h 8 8
def imgManOffset (h : List Byte) : Nat := leField h 16 8
def imgManBytes (h : List Byte) : Nat := leField h 24 4
def imgKey (h : List Byte) : Nat := leField h 28 4
def imgDigest (h : List Byte) : List Byte := slice h 32 32

/-- Check 2 of R218, with R285's rule on the length. -/
def headerOk (h : List Byte) (bytes : Nat) : Bool :=
  decide (imgMagic h = 0x4E4A5041) && decide (imgFormat h = 1) && decide (bytes = imgBytes h) && decide (imgManOffset h % 64 = 0)
    && decide (128 ≤ imgManBytes h) && decide (imgManBytes h ≤ 0x1000000) && decide (imgManOffset h + imgManBytes h ≤ imgBytes h)

/-! ### Manifest (R214–R216) -/

def manModel (m : List Byte) : Nat := leField m 0 2
def manVersion (m : List Byte) : Nat := leField m 2 2
def manReqCap (m : List Byte) : Nat := leField m 4 4
def manLayers (m : List Byte) : Nat := leField m 8 2
def manSegments (m : List Byte) : Nat := leField m 10 2
def manTables (m : List Byte) : Nat := leField m 12 2
def manSeeds (m : List Byte) : Nat := leField m 14 2
def manExperts (m : List Byte) : Nat := leField m 16 2
def manKvComps (m : List Byte) : Nat := leField m 18 2
def manKvPage (m : List Byte) : Nat := leField m 20 4
def manKvPos (m : List Byte) : Nat := leField m 24 4

/-- A segment table entry (R215). -/
structure SegInfo where
  seg : Nat
  kind : Nat
  coded : Bool
  stripe : Nat
  field : Nat
  layer : Nat
  expert : Nat
  rank : Nat
  blocks : Nat
  raw : Nat
  offset : Nat
  digest : List Byte
  deriving DecidableEq, Repr

def segInfo (m : List Byte) (i : Nat) : SegInfo :=
  let e := slice m (leField m 32 4 + 64 * i) 64
  let b2 := leField e 2 1
  { seg := leField e 0 2, kind := natBits b2 7 4, coded := natBit b2 3, stripe := 2 ^ natBits b2 2 1,
    field := leField e 3 1 % 4, layer := leField e 4 2, expert := leField e 6 2, rank := leField e 8 2,
    blocks := leField e 12 4, raw := leField e 16 8, offset := leField e 24 8, digest := slice e 32 32 }

/-- Header array of a coded segment, padded to whole 4 KiB units. -/
def segHdrBytes (g : SegInfo) : Nat := if g.coded then 4096 * ceilDiv g.blocks 256 else 0

/-- Bytes that a segment spans in the image, and installed in whole units. -/
def segImageBytes (g : SegInfo) : Nat := if g.coded then segHdrBytes g + 4096 * g.blocks else g.raw
def segInstalled (g : SegInfo) : Nat := segHdrBytes g + 4096 * g.blocks

/-- A segment entry agrees with itself (R215). -/
def segOk (g : SegInfo) (i total : Nat) : Bool :=
  decide (g.seg = i) && decide (g.kind ≤ 2) && decide (g.offset % 4096 = 0) && decide (g.offset + segImageBytes g ≤ total)
    && (if g.coded then decide (g.raw % (64 * g.stripe) = 0)
          && decide (g.blocks = g.stripe * ceilDiv g.raw (4096 * g.stripe))
        else decide (g.blocks = ceilDiv g.raw 4096) && decide (g.stripe = 1))

/-- A table of `n` entries of `k` bytes at offset `off` lies within the manifest. -/
def tableIn (m : List Byte) (n off k : Nat) : Bool := decide (n = 0) || decide (off + n * k ≤ m.length)

/-- A seed-table entry (R216, R61): a core present in SRV_CAP0, and a positive, finite, normal SEED. -/
def seedOk (cap0 : Word) (e : List Byte) : Bool :=
  let x := leField e 4 4
  decide (leField e 0 1 < 16) && flag cap0 (4 + leField e 0 1) && !natBit x 31 && decide (0 < natBits x 30 23) && decide (natBits x 30 23 < 255)

/-- An entry of the table list (R216): Harrow slot, generation, kind, table image. -/
structure TableInfo where
  slot : Nat
  gen : Nat
  kind : Nat
  image : List Byte
  deriving DecidableEq, Repr

def tableInfo (m : List Byte) (i : Nat) : TableInfo :=
  let e := slice m (leField m 36 4 + 8 * i) 8
  { slot := leField e 0 1 % 16, gen := leField e 1 1 % 16, kind := leField e 2 2, image := slice m (leField e 4 4) 320 }
def manTableList (m : List Byte) : List TableInfo := (List.range (manTables m)).map (tableInfo m)

/-- A seed-table entry (R216): core, Scale History Table entry, word 12, SEED, THRESH, TAG. -/
structure SeedInfo where
  core : Nat
  entry : Nat
  fmt : Nat
  seed : Word
  thresh : Nat
  tag : Nat
  deriving DecidableEq, Repr

def seedInfo (m : List Byte) (i : Nat) : SeedInfo :=
  let e := slice m (leField m 40 4 + 16 * i) 16
  { core := leField e 0 1, entry := leField e 1 1, fmt := natBits (leField e 2 2) 8 0, seed := BitVec.ofNat 32 (leField e 4 4),
    thresh := leField e 8 2, tag := leField e 10 2 }
def manSeedList (m : List Byte) : List SeedInfo := (List.range (manSeeds m)).map (seedInfo m)

/-- Check 5 of R218. -/
def manifestOk (cap0 : Word) (m : List Byte) (total : Nat) : Bool :=
  decide (128 ≤ m.length) && decide (BitVec.ofNat 32 (manReqCap m) &&& ~~~cap0 = (0 : Word))
    && decide (1 ≤ manSegments m) && decide (manSegments m ≤ 4096) && decide (manTables m ≤ 1024)
    && tableIn m (manSegments m) (leField m 32 4) 64 && tableIn m (manTables m) (leField m 36 4) 8
    && tableIn m (manSeeds m) (leField m 40 4) 16 && tableIn m (manLayers m) (leField m 44 4) 24
    && tableIn m (manExperts m) (leField m 48 4) 8 && tableIn m (manKvComps m) (leField m 52 4) 8
    && (List.range (manTables m)).all (fun i =>
        let e := slice m (leField m 36 4 + 8 * i) 8
        decide (leField e 0 1 ≤ 15) && decide (leField e 1 1 ≤ 15) && decide (leField e 2 2 ≤ 3) && decide (leField e 4 4 + 320 ≤ m.length))
    && (List.range (manSegments m)).all (fun i => segOk (segInfo m i) i total && flag cap0 (segInfo m i).field)
    && (List.range (manSeeds m)).all (fun i => seedOk cap0 (slice m (leField m 40 4 + 16 * i) 16))
    && (List.range (manExperts m)).all (fun i =>
        let e := slice m (leField m 48 4 + 8 * i) 8
        decide (leField e 4 2 + leField e 6 2 ≤ manSegments m))

/-! ### A segment's bytes (R215) -/

/-- A block header within the rules of R215. -/
def blockHdrOk (h : List Byte) : Bool :=
  let f := parseHdr (h.map fun b => (b, false))
  if f.raw then decide (f.len = f.rlen) && decide (f.rlen ≤ 4096) else decide (1 ≤ f.len) && decide (f.len ≤ 3584)

/-- Payload length that block j's header gives. -/
def blockLenOf (hdrs : List Byte) (j : Nat) : Nat := (parseHdr ((slice hdrs (16 * j) 16).map fun b => (b, false))).len

/-- Every block header of a coded segment keeps its payload within its slot. -/
def hdrsOk (g : SegInfo) (hdrs : List Byte) : Bool :=
  !g.coded || (List.range g.blocks).all fun j => blockHdrOk (slice hdrs (16 * j) 16)

/-- The payload pieces of a segment whose significant bytes are `bs`, header array first (R215): offset within the segment's
installed form, bytes. -/
def segPieces (g : SegInfo) (bs : List Byte) : List (Nat × List Byte) :=
  if g.coded then
    let hdrs := bs.take (16 * g.blocks)
    let step (acc : List (Nat × List Byte) × List Byte) (j : Nat) : List (Nat × List Byte) × List Byte :=
      let n := blockLenOf hdrs j
      (acc.1 ++ [(segHdrBytes g + 4096 * j, acc.2.take n)], acc.2.drop n)
    (0, hdrs) :: ((List.range g.blocks).foldl step ([], bs.drop (16 * g.blocks))).1
  else [(0, bs.take g.raw)]

/-- The ranges that a pass reads of a segment, as offsets within its installed form (R226). -/
def segRanges (g : SegInfo) (hdrs : List Byte) : List (Nat × Nat) :=
  if g.coded then (0, 16 * g.blocks) :: (List.range g.blocks).map fun j => (segHdrBytes g + 4096 * j, blockLenOf hdrs j)
  else [(0, g.raw)]

/-- A failed check: its order of R218 as a status and a detail code. -/
structure ImageFail where
  code : Nat
  detail : Nat
  deriving DecidableEq, Repr

/-- Checks 2 to 5 of R218 on a header and manifest; none when they pass. -/
def imageChecks (s : State) (h m : List Byte) (bytes : Nat) (poisoned : Bool) : Option ImageFail :=
  if poisoned ∨ !headerOk h bytes then some ⟨0x0B, 0x01⟩
  else if !signatureOk s (imgKey h) 1 (h.take 64) (slice h 64 64) then some ⟨0x0B, 0x02⟩
  else if sha256 m ≠ imgDigest h then some ⟨0x0B, 0x03⟩
  else if !manifestOk (s.reg Reg.SRV_CAP0) m (imgBytes h) then some ⟨0x0B, 0x04⟩
  else none

end Sys2Proof.Machine
end

