-- ==== Sys2Proof/Machine/WeightStore.lean ====
section
/-! DEFINITION. The weight store (R209–R212, R228–R231, R262): pages, extents, programming, page reads and what follows from
them. -/

namespace Sys2Proof.Machine

def State.root (s : State) (r : Nat) : Root := s.roots[r]?.getD {}

/-- What the catalogue holds of a root (R223): nothing of one that is EMPTY or swapped in, and nothing that ends with a reset. -/
def catRoot (x : Root) : Root :=
  if x.near ∨ x.st = 0 then {}
  else { x with
    pins := 0,
    op := x.op.map fun o => { o with desc := none, port := none, addr := 0, bytes := 0, todo := [], last := 0 },
    segs := x.segs.map fun g => { g with res := none, staged := none, redirect := false, copying := false, filling := false, fresh := none } }

/-- The copy of the catalogue that is used: the later one whose CRC is good (R223). -/
def catPick (s : State) : CatCopy :=
  let a := s.catalog[0]
  let b := s.catalog[1]
  if b.good && (!a.good || decide (a.seq < b.seq)) then b else a

/-- A catalogue update goes to the other copy, whole, with the next sequence number (R223; log entry 132). -/
def catWrite (s : State) (r : Nat) (x : Root) : State :=
  let a := s.catalog[0]
  let b := s.catalog[1]
  if a.seq < b.seq then { s with catalog := s.catalog.setIfInBounds 0 ⟨b.seq + 1, true, storeSet {} b.roots r x⟩ }
  else { s with catalog := s.catalog.setIfInBounds 1 ⟨a.seq + 1, true, storeSet {} a.roots r x⟩ }

/-- Change a root, and the catalogue where it holds what changes. -/
def State.setRoot (s : State) (r : Nat) (x : Root) : State :=
  let t := if catRoot x = catRoot (s.root r) then s else catWrite s r (catRoot x)
  { t with roots := t.roots.setIfInBounds r x }
def State.modRoot (s : State) (r : Nat) (f : Root → Root) : State := s.setRoot r (f (s.root r))

/-- A root's state changes, which a NOTICE tells (R289). -/
def setRootState (s : State) (r st : Nat) : State :=
  if (s.root r).st = st then s
  else notice (s.modRoot r fun x => { x with st }) 0x01 r st 0

/-- Change segment i of a root. -/
def modSeg (s : State) (r i : Nat) (f : SegState → SegState) : State :=
  s.modRoot r fun x => { x with segs := match x.segs[i]? with | some g => x.segs.set i (f g) | none => x.segs }
def segAt (s : State) (r i : Nat) : SegState := ((s.root r).segs[i]?).getD {}
def infoAt (s : State) (r i : Nat) : SegInfo := segInfo (s.root r).manifest i

/-! ### Extents (R209, R212) -/

def extFirst : Nat := 16
def extEnd : Nat := 15258
def extBytes : Nat := 0x400000

/-- Extents that the segments of roots hold in stack f. -/
def heldRuns (s : State) (f : Nat) : List (Nat × Nat) :=
  (List.range 64).flatMap fun r =>
    (s.root r).segs.zipIdx.flatMap fun p =>
      if (infoAt s r p.2).field = f then
        (if 0 < p.1.exts then [(p.1.ext, p.1.exts)] else []) ++ (match p.1.fresh with | some q => [q] | none => [])
      else []

/-- Is an extent free? -/
def extFree (s : State) (f : Nat) (held : List (Nat × Nat)) (e : Nat) : Bool :=
  decide (extFirst ≤ e) && decide (e < extEnd) && !(s.field f).retired.contains e
    && held.all fun h => decide (e < h.1) || decide (h.1 + h.2 ≤ e)

def extWear (s : State) (f e : Nat) : Nat := storeGet 0 (s.field f).wear e

/-- Highest program count of a run. -/
def runWear (s : State) (f e n : Nat) : Nat := ((List.range n).map fun i => extWear s f (e + i)).foldl max 0

/-- The run for a segment of n extents: free, lowest highest program count, then lowest number (R212). -/
def chooseRun (s : State) (f n : Nat) : Option Nat :=
  let held := heldRuns s f
  let ok (e : Nat) : Bool := (List.range n).all fun i => extFree s f held (e + i)
  let cands := ((List.range (extEnd - extFirst)).map (extFirst + ·)).filter ok
  cands.foldl (fun m e => match m with
    | none => some e
    | some b => if runWear s f e n < runWear s f b n then some e else some b) none

/-- WSn_FREE and WSn_WEAR as firmware maintains them (R231). -/
def wsFreeWord (s : State) (f : Nat) : Word :=
  let held := heldRuns s f
  let r := (List.range (extEnd - extFirst)).foldl (fun (acc : Nat × Nat × Nat) i =>
    if extFree s f held (extFirst + i) then (acc.1 + 1, acc.2.1 + 1, max acc.2.2 (acc.2.1 + 1)) else (acc.1, 0, acc.2.2)) (0, 0, 0)
  BitVec.ofNat 32 (r.2.2 <<< 16 + r.1)
def wsWearWord (s : State) (f : Nat) : Word :=
  BitVec.ofNat 32 (((s.field f).wear.map (·.2)).foldl max 0 <<< 16 + (s.field f).retired.length)

/-- A stack is being programmed: an installation or a repair has segments of it still to program. -/
def wsProgramming (s : State) (f : Nat) : Bool :=
  !(s.field f).wsPaused && (List.range 64).any fun r => match (s.root r).op with
    | some o => decide (o.kind ≠ .swapin) && o.todo.any fun i => decide ((infoAt s r i).field = f)
    | none => false

/-- Program one extent: one cycle of wear; at 10,000 it is retired (R212). -/
def wearExtent (s : State) (f e : Nat) : State :=
  let w := extWear s f e + 1
  let s := s.modField f fun x => { x with wear := storeSet 0 x.wear e w }
  if w = 10000 then
    let s := s.modField f fun x => { x with retired := if x.retired.contains e then x.retired else x.retired ++ [e] }
    tallyAppend (s.raise (fieldReg f Reg.WSn_ERR_STATUS) (bitMask 3)) 0x0012 (srcField f) (dataWords [f, e])
  else s

/-- Write one byte range into stack f's pages. -/
def wsPut : Nat → Store (BitVec 16384) → Nat → List Byte → Store (BitVec 16384)
  | 0, m, _, _ => m
  | k + 1, m, x, bs =>
    if bs.isEmpty then m
    else
      let n := min bs.length (2048 - x % 2048)
      let old := leBytes 2048 (storeGet 0 m (x / 2048)).toNat
      let page := old.take (x % 2048) ++ bs.take n ++ old.drop (x % 2048 + n)
      wsPut k (storeSet 0 m (x / 2048) (BitVec.ofNat 16384 (leNat page))) (x + n) (bs.drop n)

def wsWrite (s : State) (f x : Nat) (bs : List Byte) : State :=
  s.modField f fun y => { y with pages := wsPut (bs.length / 2048 + 2) y.pages x bs }

/-- Program a segment's bytes into a run of extents. `failed` are the extents of the run, from 0, that hold a page whose
verification failed twice: each is retired (R212). True when the run holds the segment. -/
def programRun (s : State) (f e : Nat) (g : SegInfo) (bs : List Byte) (failed : List Nat) : Bool × State :=
  let n := ceilDiv (segInstalled g) extBytes
  let s := (List.range n).foldl (fun s i => wearExtent s f (e + i)) s
  let s := (segPieces g bs).foldl (fun s p => wsWrite s f (e * extBytes + p.1) p.2) s
  let c := countMib s Reg.WSn_PROG_CNT f (s.field f).progPart bs.length
  let s := c.2.modField f fun x => { x with progPart := c.1 }
  let bad := failed.filter (· < n)
  if bad.isEmpty then (true, s)
  else
    let s := s.modField f fun x => { x with retired := bad.foldl (fun l i => if l.contains (e + i) then l else l ++ [e + i]) x.retired }
    (false, s.raise (fieldReg f Reg.WSn_ERR_STATUS) (bitMask 4))

/-! ### Segments that a page belongs to -/

/-- The roots and segments that hold a slot offset of stack f. -/
def segsAt (s : State) (f x : Nat) : List (Nat × Nat) :=
  (List.range 64).flatMap fun r =>
    (s.root r).segs.zipIdx.filterMap fun p =>
      if !(s.root r).near && decide (0 < p.1.exts) && decide ((infoAt s r p.2).field = f)
          && decide (p.1.ext * extBytes ≤ x) && decide (x < (p.1.ext + p.1.exts) * extBytes) then some (r, p.2) else none

/-- Mark the running sub-batches of a root (R228, R229). -/
def markSubs (s : State) (r : Nat) (f : SubBatch → SubBatch) : State :=
  { s with steps := s.steps.map fun t => { t with subs := mapIf (fun b => decide (b.root = r)) f t.subs } }

/-- A root loses its last source of a segment: it enters DEGRADED (R220, R229). -/
def degradeRoot (s : State) (r : Nat) : State :=
  let x := s.root r
  if x.st = 3 then setRootState s r 4
  else if x.st = 7 then s.modRoot r fun x => { x with op := x.op.map fun o => if o.before = 3 then { o with before := 4 } else o }
  else s

/-- A channel of Field f with room, the idle ones first (R199). -/
def pickChan (s : State) (f : Nat) : Option Nat :=
  match firstBelow 16 fun k => (s.chan f k).cur.isNone && (s.chan f k).queue.isEmpty && !(s.chan f k).halted with
  | some k => some k
  | none => firstBelow 16 fun k => decide ((s.chan f k).queue.length < 8) && !(s.chan f k).halted

/-- Firmware puts a transfer on a channel of Field f, or holds it until one has room (R199). -/
def postFw (s : State) (f : Nat) (x : Xfer) (p : Purpose) : State :=
  match pickChan s f with
  | some k => s.setChan f k { s.chan f k with queue := (s.chan f k).queue ++ [.fw x p] }
  | none => { s with chanWaits := s.chanWaits ++ [⟨f, x, p⟩] }

/-- A copy of a segment from its source into memory at `dst`, in the form that an installed segment has (R199, R225). -/
def segXfer (g : SegInfo) (src dst : Nat) : Xfer :=
  if g.coded then { kind := .blocksCopy, src := src + segHdrBytes g, dst := dst + segHdrBytes g, len := 4096 * g.blocks, hdr := src }
  else { kind := .copy, src, dst, len := g.raw }

/-- The object that a copy of a segment takes in near memory (R225, R226). -/
def segObject (g : SegInfo) : ObjSpec :=
  { kind := 3, coded := g.coded, tier := 0, field := g.field, owner := 0xFFFF, ownerGen := 0, size := max 1 g.blocks, flags := 0 }

/-- Reserve, place and pin a STAGED object for a segment: its entry. -/
def stageObject (s : State) (g : SegInfo) (want : Option Nat) : Option (Nat × State) :=
  let o := segObject g
  let t := fwTakeAll s [(g.field, codedUnits o.size o.coded), (5, 1)]
  if !t.1 ∨ !fieldPresent s g.field then none
  else match placeObject t.2 o want with
    | none => none
    | some (e, s) => match pinEntry s e with
      | some (_, s) => some (e, s)
      | none => none

/-- Unpin and forget a STAGED object. -/
def dropStaged (s : State) (e : Nat) : State :=
  let n := resPins (resWord s e 0)
  let s := (List.range n).foldl (fun s _ => unpinEntry s e (resGen (resWord s e 0))) s
  (releaseObject s e).getD s

/-- A staged copy of Field f that may be forgotten (R226): a good one, complete, of a root that no running step reads; the highest
STAGE_RANK first. -/
def forgettable (s : State) (f : Nat) : Option (Nat × Nat × Nat) :=
  let all := (List.range 64).flatMap fun r => (s.root r).segs.zipIdx.filterMap fun p =>
    if (infoAt s r p.2).field = f ∧ !p.1.bad ∧ !p.1.filling ∧ !s.steps.any fun t => t.subs.any fun b => decide (b.root = r) then
      p.1.staged.map fun e => (r, p.2, e) else none
  all.foldl (fun m q => match m with
    | none => some q
    | some b => if (infoAt s b.1 b.2.1).rank < (infoAt s q.1 q.2.1).rank then some q else some b) none

/-- Forget staged copies of Field f until `units` units of its near memory are free; `fuel` copies at most. -/
def forgetRoom : Nat → State → Nat → Nat → State
  | 0, s, _, _ => s
  | k + 1, s, f, units =>
    if units ≤ budget s f then s
    else match forgettable s f with
      | none => s
      | some (r, i, e) => forgetRoom k (modSeg (dropStaged s e) r i fun g => { g with staged := none, redirect := false }) f units

/-- Make room for units of a tier: staged copies in near memory are forgotten when the room is needed (R226). -/
def makeRoom (s : State) (tier f units : Nat) : State := if tier = 0 then forgetRoom 4096 s f units else s

/-- A segment's page has failed (R229): the mark, and where reads go from now on. `peer` is the Stand address of the segment in
a peer that holds a root with the same digest. A BAD segment that has lost its redirected copy fails anew. -/
def segFailed (s : State) (r i : Nat) (peer : Option Nat) : State :=
  let s := markSubs s r fun b => { b with code := 2 }
  let g := segAt s r i
  if g.bad && (g.redirect || g.copying) then s
  else
    let s := modSeg s r i fun g => { g with bad := true }
    match if g.filling then none else g.staged, peer with
    | some e, _ =>
      let s := match pinEntry s e with | some (_, s) => s | none => s
      modSeg s r i fun g => { g with redirect := true }
    | none, some a =>
      -- a staged copy under way comes from the failing source
      let s := match g.staged with | some e => dropStaged s e | none => s
      let s := modSeg s r i fun g => { g with staged := none, filling := false }
      let o := segObject (infoAt s r i)
      match stageObject (makeRoom s 0 o.field (codedUnits o.size o.coded)) (infoAt s r i) none with
      | none => degradeRoot s r
      | some (e, s) =>
        let s := modSeg s r i fun g => { g with staged := some e, copying := true }
        postFw s (infoAt s r i).field (segXfer (infoAt s r i) a (resHome s e)) (.peerSeg r i)
    | none, none => degradeRoot s r

/-- The staged copy of a segment is lost: reads go back to the source, and a root whose segment is BAD has no other source
(R229). -/
def copyLost (s : State) (r i : Nat) : State :=
  let g := segAt s r i
  let s := modSeg s r i fun g => { g with staged := none, redirect := false, copying := false, filling := false }
  if g.bad then degradeRoot s r else s

/-! ### Page reads (R211, R228, R262) -/

/-- Slot offset of a weight-store transaction of stack f that waits for pages. -/
def wsTxnOff (s : State) (f : Nat) (t : Txn) : Option Nat :=
  match standTarget s t.addr with
  | .here (.ws g x) => if g = f ∧ !t.write ∧ !t.ready ∧ wsReadable s g x t.len then some x else none
  | _ => none

/-- Reads of one 512-byte unit by one Field, in order of arrival: one joins the first read of another requester, of four at most
(R262). -/
def combineReads (l : List (XferOwner × Nat)) : List (List (XferOwner × Nat)) :=
  l.foldl (fun gs q => match gs.findIdx? fun g => decide (g.length < 4) && g.all fun p => decide (p.1 ≠ q.1) with
    | some i => gs.set i (((gs[i]?).getD []) ++ [q])
    | none => gs ++ [[q]]) []

/-- Bytes of a page that a transaction needs. -/
def pageShare (x len page : Nat) : Nat := min (x + len) ((page + 1) * 2048) - max x (page * 2048)

/-- The outcome of reading a page: bit errors of each of the nine dies of its stripe, none for one that does not answer. -/
inductive PageOutcome
  | clean | corrected | rebuilt | failed
  deriving DecidableEq, Repr

def pageOutcome (errs : List (Option Nat)) (die : Nat) : PageOutcome :=
  let ok (k : Nat) : Bool := match (errs[k]?).getD (some 0) with | some n => decide (n ≤ 24) | none => false
  if ok die then (if (errs[die]?).getD (some 0) = some 0 then .clean else .corrected)
  else if (List.range 9).all fun k => decide (k = die) || ok k then .rebuilt
  else .failed

/-- WSn_ERR_ADDR and the record of a rebuilt or failed page. -/
def pageRecord (s : State) (f page : Nat) (failed : Bool) (seg : Nat) : State :=
  let s := s.setReg (fieldReg f Reg.WSn_ERR_ADDR) (BitVec.ofNat 32 (1 <<< 31 + failed.toNat <<< 30 + page % 2 ^ 25))
  let s := s.raise (fieldReg f Reg.WSn_ERR_STATUS) (bitMask failed.toNat)
  let s := s.bump (fieldReg f (if failed then Reg.WSn_UE_CNT else Reg.WSn_REBUILD_CNT)) 1
  tallyAppend s (if failed then 0x0011 else 0x0010) (srcField f) (dataWords [f, page, seg])

/-- WS_PAGE_READ: page `page` of stack f is read for the transactions that wait for it. -/
def wsPageRead (s : State) (f page : Nat) (errs : List (Option Nat)) (peer : Option Nat) : State :=
  let needs (t : Txn) : Bool := match wsTxnOff s f t with
    | some x => decide (x / 2048 ≤ page) && decide (page ≤ (x + t.len - 1) / 2048) && !(t.got.any fun g => decide (g.1 = page))
    | none => false
  let want := s.txns.filter needs
  if !fieldPresent s f ∨ !hasWeightStore s.part ∨ !domOn s (52 + f) ∨ want.isEmpty then s
  else
    let out := pageOutcome errs (page % 8)
    let bad := decide (out = .failed)
    -- combined reads are counted once
    let reads := want.filterMap fun t => (wsTxnOff s f t).map fun x => ((t.pool, x / 512), (t.owner, pageShare x t.len page))
    let groups := (reads.map (·.1)).eraseDups.flatMap fun k => combineReads ((reads.filter fun q => decide (q.1 = k)).map (·.2))
    let bytes := (groups.map fun g => (g.map (·.2)).foldl max 0).sum
    let c := countMib s Reg.WSn_RD_CNT f (s.field f).rdPart bytes
    let s := c.2.modField f fun y => { y with rdPart := c.1 }
    let take (t : Txn) : Txn := match wsTxnOff s f t with
      | none => t
      | some x =>
        let got := t.got ++ [(page, bad)]
        let done := decide (got.length = (x + t.len - 1) / 2048 - x / 2048 + 1)
        let data : List PByte := (wsBytes s f x t.len).zipIdx.map fun b =>
          if got.any fun g => decide (g.1 = (x + b.2) / 2048) && g.2 then (0, true) else (b.1, false)
        { t with got, ready := done, data := if done then data else t.data }
    let s := { s with txns := mapIf needs take s.txns }
    let segs := segsAt s f (page * 2048)
    let num := match segs with | p :: _ => p.2 | [] => 0xFFFF
    match out with
    | .clean => s
    | .corrected => s.bump (fieldReg f Reg.WSn_BCH_CE_CNT) 1
    | .rebuilt =>
      let s := pageRecord s f page false num
      segs.foldl (fun s p => markSubs (modSeg s p.1 p.2 fun g => { g with weak := true }) p.1 fun b => { b with corrected := true }) s
    | .failed =>
      let s := pageRecord s f page true num
      segs.foldl (fun s p => segFailed s p.1 p.2 peer) s

/-! ### Temperature (R401) -/

/-- STACK_PROGRAMMING_PAUSE and STACK_PROGRAMMING_RESUME. -/
def wsPause (s : State) (f : Nat) (p : Bool) : State :=
  if fieldPresent s f ∧ hasWeightStore s.part then s.modField f fun x => { x with wsPaused := p } else s

end Sys2Proof.Machine
end

