-- ==== Sys2Proof/Machine/Roots.lean ====
section
/-! DEFINITION. Model roots (R218–R230, R285, R388, R415): installation, swap-in, switch, removal, repair, query. -/

namespace Sys2Proof.Machine

/-! ### Ends of operations -/

/-- Where a MODEL operation's answer goes: a descriptor's completion, or the service port's response (R224, R387). -/
def answerOp (s : State) (o : RootOp) (code detail : Nat) : State :=
  let s := match o.desc with
    | some id => completeDesc s id code 0 detail 0
    | none => s
  match o.port with
  | some tag => (s.emit (.service (svcResponse code detail tag 0 []))).bump Reg.USB_SVC_CMD_CNT 1
  | none => s
where
  /-- A response header and its payload (R387). -/
  svcResponse (code detail tag arg0 : Nat) (payload : List Byte) : List Byte :=
    leBytes 4 0x5256534B ++ leBytes 1 code ++ leBytes 1 detail ++ leBytes 2 tag ++ leBytes 8 payload.length ++ leBytes 8 arg0
      ++ leBytes 8 0 ++ payload

/-- Stop the transfers of a root: waiting ones are dropped, running ones aborted (R201). -/
def dropRootXfers (s : State) (r : Nat) : State := dropFwXfers s fun p => match p with
  | .swapSeg q _ | .swapHdr q _ | .peerSeg q _ | .stageSeg q _ => decide (q = r)
  | .xferDesc .. | .move _ => false

/-- Free everything that a root holds: it becomes EMPTY; extents keep their wear (R218, R220). -/
def emptyRoot (s : State) (r : Nat) : State :=
  let s := dropRootXfers s r
  let segs := (s.root r).segs
  let s := segs.foldl (fun s g =>
    let s := match g.res with | some e => dropStaged s e | none => s
    match g.staged with | some e => dropStaged s e | none => s) s
  let st := (s.root r).st
  setRootState (s.setRoot r { st }) r 0

/-- REMOVING: staged copies forgotten, space freed, then EMPTY (R220). -/
def removeRoot (s : State) (r : Nat) : State := emptyRoot (setRootState (s.modRoot r fun x => { x with current := false }) r 6) r

/-- A root enters a state; RETIRING with no context bound goes on to REMOVING (R220). -/
def settleRoot (s : State) (r st : Nat) : State :=
  let s := setRootState s r st
  if st = 5 ∧ (s.root r).pins = 0 then removeRoot s r else s

/-- RETIRING: no new bindings (R220). -/
def retireRoot (s : State) (r : Nat) : State := settleRoot (s.modRoot r fun x => { x with current := false }) r 5

/-- A context takes and gives back its binding (R221). -/
def rootPin (s : State) (r : Nat) : State := s.modRoot r fun x => { x with pins := x.pins + 1 }
def rootUnpin (s : State) (r : Nat) : State :=
  let s := s.modRoot r fun x => { x with pins := x.pins - 1 }
  if (s.root r).st = 5 ∧ (s.root r).pins = 0 then removeRoot s r else s

/-- The root that a request binds to; none where the binding fails (R221). -/
def bindRoot (s : State) (model : Nat) (byRoot : Bool) : Option Nat :=
  let r := if byRoot then (if model < 64 then some model else none)
    else firstBelow 64 fun r => (s.root r).current && decide (manModel (s.root r).manifest = model)
  r.filter fun r => decide ((s.root r).st = 3)

/-- Another root of the same MODEL_ID. -/
def sameModel (s : State) (r q : Nat) : Bool :=
  decide (q ≠ r) && decide ((s.root q).st ≠ 0) && !(s.root q).manifest.isEmpty
    && decide (manModel (s.root q).manifest = manModel (s.root r).manifest)

/-- An operation fails: everything it took is freed, and the root returns to EMPTY or to its state before REPAIR (R218, R230). -/
def failOp (s : State) (r : Nat) (o : RootOp) (x : ImageFail) : State :=
  let s := match o.kind with
    | .repair =>
      let s := s.modRoot r fun x => { x with op := none, segs := x.segs.map fun g => { g with fresh := none } }
      settleRoot s r o.before
    | _ => emptyRoot s r
  answerOp s o x.code x.detail

/-- INSTALL or SWAPIN ends: every segment is in place and verified (R220). -/
def rootReady (s : State) (r : Nat) (o : RootOp) : State :=
  let cur := o.makeCurrent && !(List.range 64).any fun q => sameModel s r q && (s.root q).current
  let s := s.modRoot r fun x => { x with op := none, current := x.current || cur }
  answerOp (setRootState s r 3) o 0 0

/-! ### Starting INSTALL, SWAPIN and REPAIR (R218, R224, R225, R230, R415) -/

/-- Place the runs of segments, one after another; none where one finds no room. -/
def placeRuns (s : State) (r : Nat) (fresh : Bool) : List Nat → Option State
  | [] => some s
  | i :: rest =>
    let g := infoAt s r i
    let n := ceilDiv (segInstalled g) extBytes
    match if fieldPresent s g.field then chooseRun s g.field n else none with
    | none => none
    | some e =>
      let addr := 0x10000000000 + g.field * 0x1000000000 + e * extBytes
      let put : SegState → SegState := fun q =>
        if fresh then { q with fresh := some (e, n) } else { q with ext := e, exts := n, addr := addr }
      placeRuns (modSeg s r i put) r fresh rest

/-- Stage the objects of a swapped-in root; none where one finds no room. -/
def placeObjects (s : State) (r : Nat) (want : List Nat) : List Nat → Option State
  | [] => some s
  | i :: rest =>
    let o := segObject (infoAt s r i)
    match stageObject (makeRoom s 0 o.field (codedUnits o.size o.coded)) (infoAt s r i) (want[i]?) with
    | none => none
    | some (e, s) => placeObjects (modSeg s r i fun q => { q with res := some e, addr := resHome s e }) r want rest

/-- Post the copy of a segment that is swapped in from `src`: the header array of a coded one goes first, to be checked (R215, R225). -/
def swapPost (s : State) (r i src : Nat) : State :=
  let g := infoAt s r i
  if g.coded then postFw s g.field { kind := .copy, src, dst := (segAt s r i).addr, len := 16 * g.blocks } (.swapHdr r i)
  else postFw s g.field (segXfer g src (segAt s r i).addr) (.swapSeg r i)

/-- What a request to load an image carries. -/
structure LoadReq where
  kind : RootOpKind
  root : Nat
  makeCurrent : Bool
  streamOnly : Bool
  desc : Option Nat
  port : Option Nat
  addr : Nat
  bytes : Nat
  env : DescEnv
  deriving DecidableEq, Repr

/-- Segments that a REPAIR has to rewrite. -/
def repairList (s : State) (r : Nat) : List Nat :=
  (List.range (manSegments (s.root r).manifest)).filter fun i => ((segAt s r i).bad || (segAt s r i).weak) && (segAt s r i).fresh.isNone

/-- Begin a load that the root's state allows: the checks of R218 in order, then the first space. -/
def beginLoad (s : State) (q : LoadReq) : State :=
  let before := (s.root q.root).st
  let o : RootOp := { kind := q.kind, desc := q.desc, port := q.port, makeCurrent := q.makeCurrent, before, addr := q.addr,
                      bytes := q.bytes, todo := [] }
  let s := s.modRoot q.root fun x => { x with op := some o, near := if q.kind = .swapin then true else x.near }
  let s := setRootState s q.root (match q.kind with | .install => 1 | .swapin => 2 | .repair => 7)
  let fail (s : State) (c d : Nat) : State := failOp s q.root o ⟨c, d⟩
  match if q.port.isNone then omapCheck s q.addr q.bytes false else none with
  | some w => fail (omapFail s w) 0x0B 0x12
  | none =>
    match imageChecks s q.env.data q.env.manifest q.bytes q.env.poisoned with
    | some x => fail s x.code x.detail
    | none =>
      if q.kind = .repair then
        if imgDigest q.env.data ≠ imgDigest (s.root q.root).header then fail s 0x0B 0x0A
        else
          let todo := repairList s q.root
          match placeRuns s q.root true todo with
          | none => fail s 0x03 0x06
          | some s => s.modRoot q.root fun x => { x with op := some { o with todo } }
      else
        let m := q.env.manifest
        if (List.range 64).any fun p => decide (p ≠ q.root) && decide ((s.root p).st ≠ 0) && !(s.root p).manifest.isEmpty
            && decide (manModel (s.root p).manifest = manModel m) && decide (manVersion (s.root p).manifest = manVersion m) then
          fail s 0x0B 0x05
        else
          let n := manSegments m
          let todo := List.range n
          let so := decide (q.kind = .install) && q.streamOnly
          let s := s.modRoot q.root fun x =>
            { x with header := q.env.data.take 256, manifest := m, segs := List.replicate n {}, streamOnly := so,
                     op := some { o with todo } }
          match q.kind with
          | .swapin =>
            match placeObjects s q.root q.env.place todo with
            | none => fail s 0x03 0x06
            | some s =>
              todo.foldl (fun s i => swapPost s q.root i (q.addr + (infoAt s q.root i).offset)) s
          | _ =>
            match placeRuns s q.root false todo with
            | none => fail s 0x03 0x06
            | some s => s

/-- A request to load an image, as the root's state answers it (R220). -/
def loadRequest (s : State) (q : LoadReq) : State :=
  let x := s.root q.root
  let o : RootOp := { kind := q.kind, desc := q.desc, port := q.port, makeCurrent := false, before := x.st, addr := 0, bytes := 0, todo := [] }
  if 64 ≤ q.root then answerOp s o 0x0B 0
  else if q.kind ≠ .swapin ∧ !hasWeightStore s.part then answerOp s o 0x0C 0
  else if x.op.isSome then answerOp s o 0x09 0
  else match q.kind with
    | .repair => if (x.st = 3 ∨ x.st = 4 ∨ x.st = 5) ∧ !x.near then beginLoad s q else answerOp s o 0x0B 0
    | _ => if x.st = 0 then beginLoad s q else answerOp s o 0x0B 0

/-! ### Programming (R212, R218, R224, R388) -/

/-- Attempts to program a segment: the failed extents of each; a run that fails is given up for another (R212). -/
def programTries : Nat → State → Nat → Nat → List Byte → List (List Nat) → Bool × State
  | 0, s, _, _, _, _ => (false, s)
  | k + 1, s, r, i, bs, fails =>
    let g := infoAt s r i
    let q := segAt s r i
    let run := match q.fresh with | some p => p.1 | none => q.ext
    let p := programRun s g.field run g bs (fails.headD [])
    if p.1 then p
    else match placeRuns (modSeg p.2 r i fun q => if q.fresh.isSome then { q with fresh := none } else { q with exts := 0 }) r q.fresh.isSome [i] with
      | none => (false, p.2)
      | some s => programTries k s r i bs fails.tail

/-- What check of R218 a segment of an image fails as it passes (R215, R415): its header array is read and checked first, then its
payloads are read. `port`: it arrives on the service port, and no map applies. -/
def segCheck (s : State) (o : RootOp) (g : SegInfo) (bs : List Byte) (bad : Bool) : Option (ImageFail × State) :=
  let map (l : List (Nat × Nat)) : Option (ImageFail × State) :=
    if o.port.isSome then none
    else (l.findSome? fun p => omapCheck s (o.addr + g.offset + p.1) p.2 false).map fun w => (⟨0x0B, 0x12⟩, omapFail s w)
  let ranges := segRanges g bs
  let hdrs := if g.coded then ranges.take 1 else []
  match map hdrs with
  | some x => some x
  | none =>
    if bad ∧ g.coded ∧ bs.length < 16 * g.blocks then some (⟨0x02, 0x08⟩, s)
    else if !hdrsOk g bs then some (⟨0x0B, 0x0C⟩, s)
    else match map (ranges.drop hdrs.length) with
      | some x => some x
      | none =>
        if bad then some (⟨0x02, 0x08⟩, s)
        else if sha256 (bs.take ((ranges.map (·.2)).sum)) ≠ g.digest then some (⟨0x0B, 0x07⟩, s) else none

/-- SEGMENT_PROGRAM: the installation engine takes the next segment of root r. `bs` are its significant bytes as they arrive,
`bad` an error of their read (of the header array, where fewer bytes than that came), `fails` the extents that fail verification in
each attempt. -/
def segmentProgram (s : State) (r : Nat) (bs : List Byte) (bad : Bool) (fails : List (List Nat)) : State :=
  match (s.root r).op with
  | none => s
  | some o =>
    match o.todo with
    | [] => s
    | i :: rest =>
      let g := infoAt s r i
      if o.kind = .swapin ∨ (s.field g.field).wsPaused ∨ !domOn s (52 + g.field) then s
      else if o.port.isSome ∧ g.offset < o.last then failOp s r o ⟨0x0B, 0x0B⟩
      else match segCheck s o g bs bad with
        | some (x, s) => failOp s r o x
        | none =>
          let p := programTries (fails.length + 1) s r i bs fails
          if !p.1 then failOp p.2 r o ⟨0x05, 0x09⟩
          else
            let o := { o with todo := rest, last := g.offset + segImageBytes g }
            let s := p.2.modRoot r fun x => { x with op := some o }
            if rest.isEmpty ∧ o.kind = .install then rootReady s r o else s

/-- REPAIR_SWITCHOVER (R230): at a step boundary of the root, with every copy good, reads move to the new copies at once. A
segment marked in the meantime is rewritten first. -/
def repairSwitchover (s : State) (r : Nat) : State :=
  match (s.root r).op with
  | none => s
  | some o =>
    if o.kind ≠ .repair ∨ !o.todo.isEmpty ∨ (s.steps.any fun t => t.subs.any fun b => decide (b.root = r)) then s
    else
      let more := repairList s r
      if !more.isEmpty then
        match placeRuns s r true more with
        | none => failOp s r o ⟨0x03, 0x06⟩
        | some s => s.modRoot r fun x => { x with op := some { o with todo := more } }
      else
        let s := (List.range (s.root r).segs.length).foldl (fun s i =>
          let g := segAt s r i
          match g.fresh with
          | none => s
          | some (e, n) =>
            let s := match g.staged with | some q => dropStaged s q | none => s
            modSeg s r i fun g => { g with
              ext := e, exts := n, addr := 0x10000000000 + (infoAt s r i).field * 0x1000000000 + e * extBytes, bad := false, weak := false,
              staged := none, redirect := false, copying := false, fresh := none }) s
        let s := s.modRoot r fun x => { x with op := none }
        answerOp (settleRoot s r (if o.before = 5 then 5 else 3)) o 0 0

/-! ### Swap-in and copies from a peer (R225, R229) -/

/-- Bytes of near memory as they were written, whatever errors the granules have taken since; no counter sees this read. -/
def nmPeek (s : State) (a len : Nat) : List Byte :=
  let all := (List.range (ceilDiv (a % 64 + len) 64)).flatMap fun k => leBytes 64 (s.gran (64 * (a / 64 + k))).data.toNat
  slice all (a % 64) len

/-- Is a byte of this range stored poisoned, as an error of its read leaves it (R331)? -/
def nmPoisoned (s : State) (a len : Nat) : Bool :=
  (List.range (ceilDiv (a % 64 + len) 64)).any fun k => let g := s.gran (64 * (a / 64 + k)); decide (g.flip = 0) && decide (g.chk = 0x9669)

/-- A segment's bytes have passed: what check 8 or 9 of R218 they fail. The check is made on the bytes as they pass (R225), so an error
that near memory takes does not count here; the header array of a coded segment has been checked before. -/
def swapCheck (s : State) (g : SegInfo) (a : Nat) : Option ImageFail :=
  let hdrs := if g.coded then nmPeek s a (16 * g.blocks) else []
  let ranges := segRanges g hdrs
  if ranges.any fun p => nmPoisoned s (a + p.1) p.2 then some ⟨0x02, 0x08⟩
  else if !hdrsOk g hdrs then some ⟨0x0B, 0x0C⟩
  else if sha256 (ranges.flatMap fun p => nmPeek s (a + p.1) p.2) ≠ g.digest then some ⟨0x0B, 0x07⟩ else none

/-- A failed transfer of a segment as a failed check (R218, R415). -/
def swapFail (code : Nat) : ImageFail := ⟨code, if code = 0x0B then 0x12 else if code = 0x02 then 0x08 else 0⟩

/-- The header array of a segment that is swapped in is here: it is checked, then the segment is copied (R215). -/
def swapHdrDone (s : State) (r i code : Nat) : State :=
  match (s.root r).op with
  | none => s
  | some o =>
    let g := infoAt s r i
    let a := (segAt s r i).addr
    if code ≠ 0 then failOp s r o (swapFail code)
    else if nmPoisoned s a (16 * g.blocks) then failOp s r o ⟨0x02, 0x08⟩
    else if !hdrsOk g (nmPeek s a (16 * g.blocks)) then failOp s r o ⟨0x0B, 0x0C⟩
    else postFw s g.field (segXfer g (o.addr + g.offset) a) (.swapSeg r i)

/-- A transfer of a segment has ended with a status. -/
def swapSegDone (s : State) (r i code : Nat) : State :=
  match (s.root r).op with
  | none => s
  | some o =>
    if code ≠ 0 then failOp s r o (swapFail code)
    else match swapCheck s (infoAt s r i) (segAt s r i).addr with
      | some x => failOp s r o x
      | none =>
        let o := { o with todo := o.todo.filter (· ≠ i) }
        let s := s.modRoot r fun x => { x with op := some o }
        if o.todo.isEmpty then rootReady s r o else s

/-- A copy of a segment in near memory is whole and good. -/
def copyGood (s : State) (r i e code : Nat) : Bool := decide (code = 0) && (swapCheck s (infoAt s r i) (resHome s e)).isNone

/-- The copy of a segment from a Stand peer has ended (R229). -/
def peerSegDone (s : State) (r i code : Nat) : State :=
  match (segAt s r i).staged with
  | none => s
  | some e =>
    if copyGood s r i e code then modSeg s r i fun g => { g with copying := false, redirect := true }
    else degradeRoot (modSeg (dropStaged s e) r i fun g => { g with copying := false, staged := none }) r

/-! ### Staging by rank (R226) -/

/-- The next segment to stage: the lowest STAGE_RANK that is not 0. -/
def nextToStage (s : State) (r : Nat) : Option Nat :=
  let ok (i : Nat) : Bool := decide (0 < (infoAt s r i).rank) && (segAt s r i).staged.isNone && !(segAt s r i).bad
  ((List.range (s.root r).segs.length).filter ok).foldl (fun m i => match m with
    | none => some i
    | some j => if (infoAt s r i).rank < (infoAt s r j).rank then some i else some j) none

/-- Firmware stages the next segment of a READY root while near memory has room above the watermark (R226; DESIGN CHOICE, log entry
133: one copy at a time, begun when a step of the root starts). -/
def stageNext (s : State) (r : Nat) : State :=
  let x := s.root r
  if x.st ≠ 3 ∨ x.near ∨ x.streamOnly ∨ x.segs.any (·.filling) then s
  else match nextToStage s r with
    | none => s
    | some i => match stageObject s (infoAt s r i) none with
      | none => s
      | some (e, s) =>
        let s := modSeg s r i fun g => { g with staged := some e, filling := true }
        postFw s (infoAt s r i).field (segXfer (infoAt s r i) (segAt s r i).addr (resHome s e)) (.stageSeg r i)

/-- The copy of a segment by rank has ended: reads go to it from now on. -/
def stageSegDone (s : State) (r i code : Nat) : State :=
  match (segAt s r i).staged with
  | none => s
  | some e =>
    if copyGood s r i e code ∧ !(segAt s r i).bad then
      stageNext (modSeg s r i fun g => { g with filling := false, redirect := true }) r
    else modSeg (dropStaged s e) r i fun g => { g with filling := false, staged := none }

/-- Near memory has reported an uncorrectable granule: a copy that reads are redirected to and that holds it is lost (R229). -/
def copyErrors (s : State) : State :=
  (List.range (fieldCount s.part)).foldl (fun s f =>
    let w := s.reg (fieldReg f Reg.NMn_UE_ADDR)
    let a := nmAddr f (64 * bits w 27 0)
    if !flag (s.reg (fieldReg f Reg.NMn_ERR_STATUS)) 1 ∨ !flag w 31 ∨ readGran (s.gran a) ≠ .uncorrectable then s
    else
      let hit := (List.range 64).flatMap fun r => (s.root r).segs.zipIdx.filterMap fun p => match p.1.staged with
        | some e => if p.1.redirect && decide (resHome s e ≤ a)
            && decide (a < resHome s e + 4096 * codedUnits (resSize s e) (resCoded s e)) then some (r, p.2, e) else none
        | none => none
      hit.foldl (fun s q => copyLost (dropStaged s q.2.2) q.1 q.2.1) s) s

/-! ### Query (R219) -/

def mbUp (bytes : Nat) : Nat := ceilDiv bytes 1000000

/-- The 64-byte root record. -/
def rootRecord (s : State) (r : Nat) : List Byte :=
  let x := s.root r
  let objBytes (e : Nat) : Nat := 4096 * codedUnits (resSize s e) (resCoded s e)
  let store := (x.segs.map fun g => if x.near then (match g.res with | some e => objBytes e | none => 0) else g.exts * extBytes).sum
  let staged := if x.near then 0 else (x.segs.map fun g => match g.staged with | some e => objBytes e | none => 0).sum
  leBytes 1 r ++ leBytes 1 (x.st <<< 5 + x.current.toNat <<< 4 + x.near.toNat <<< 3 + x.streamOnly.toNat <<< 2)
    ++ leBytes 2 (manModel x.manifest) ++ leBytes 2 (manVersion x.manifest) ++ leBytes 2 (x.segs.countP (·.bad)) ++ leBytes 4 x.pins
    ++ leBytes 2 (manSegments x.manifest) ++ leBytes 2 (x.segs.countP (·.weak)) ++ leBytes 4 (mbUp store) ++ leBytes 4 (mbUp staged)
    ++ List.replicate 8 0 ++ ((imgDigest x.header) ++ List.replicate 32 0).take 32

/-! ### Descriptors (R220, R222, R285) -/

/-- SWITCH (R222). -/
def rootSwitch (s : State) (id r : Nat) (retireOld : Bool) : State :=
  let x := s.root r
  if x.op.isSome then completeDesc s id 0x09 0 0 0
  else if x.st = 4 ∨ x.st = 5 then completeDesc s id 0x05 0 0 0
  else if x.st ≠ 3 then badDesc s id 0
  else
    let old := (List.range 64).filter fun q => sameModel s r q && (s.root q).current
    let s := old.foldl (fun s q =>
      let s := s.modRoot q fun x => { x with current := false }
      if !retireOld then s
      else if (s.root q).op.isSome then s.modRoot q fun x => { x with op := x.op.map fun o => { o with before := 5 } }
      else retireRoot s q) s
    completeDesc (s.modRoot r fun x => { x with current := true }) id 0 0 0 0

/-- REMOVE (R220). -/
def rootRemove (s : State) (id r : Nat) : State :=
  let x := s.root r
  if x.op.isSome then completeDesc s id 0x09 0 0 0
  else if x.st = 5 then completeDesc s id 0 0 0 0
  else if x.st = 3 ∨ x.st = 4 then completeDesc (if x.pins = 0 then removeRoot s r else retireRoot s r) id 0 0 0 0
  else badDesc s id 0

/-- A MODEL descriptor. -/
def modelDesc (s : State) (d : Descr) : State :=
  let b := d.bytes
  let op := leField b 2 1
  let fl := leField b 9 1
  let r := leField b 8 1
  let addr := leField b 16 8
  if 5 < op ∨ natBits fl 7 3 ≠ 0 ∨ leField b 10 6 ≠ 0 ∨ leField b 32 32 ≠ 0 then badDesc s d.id 0x10
  else if 64 ≤ r then badDesc s d.id 0
  else
    let req (kind : RootOpKind) : LoadReq :=
      { kind, root := r, makeCurrent := natBit fl 0, streamOnly := natBit fl 2, desc := some d.id, port := none, addr,
        bytes := leField b 24 8, env := d.env }
    match op with
    | 0 => loadRequest s (req .install)
    | 1 => loadRequest s (req .swapin)
    | 2 => rootSwitch s d.id r (natBit fl 1)
    | 3 => rootRemove s d.id r
    | 4 => loadRequest s (req .repair)
    | _ =>
      match omapCheck s addr 64 true with
      | some w => badDesc (omapFail s w) d.id 0x12
      | none => completeDesc (s.emit (.host (omapHost s addr) (rootRecord s r))) d.id 0 0 0 0

/-! ### Experts (R227) -/

/-- Where a segment is read: its staged copy when reads go there (R226, R229). -/
def segBase (s : State) (r i : Nat) : Nat :=
  match (segAt s r i).redirect, (segAt s r i).staged with
  | true, some e => resHome s e
  | _, _ => (segAt s r i).addr

/-- A core-queue record that streams a segment (R160). -/
def segRecord (s : State) (r i : Nat) : List Byte :=
  let g := infoAt s r i
  let base := segBase s r i
  leBytes 8 (base + segHdrBytes g) ++ leBytes 8 0 ++ leBytes 4 g.raw ++ leBytes 4 0 ++ leBytes 8 (if g.coded then base else 0)
    ++ List.replicate 32 0

/-- EXPERT_REQUEST: core n's kernel has written the indices of its experts, 16 bits each, to its scratchpad at `list`; the
Forester writes the records of their segments from `area` on, and posts the kernel's semaphore. -/
def expertRequest (s : State) (n r layer list count area : Nat) (sem : Word) : State :=
  let m := (s.root r).manifest
  if !corePresent s n ∨ 64 ≤ r ∨ (s.root r).st = 0 ∨ spmHeld s n list (2 * count) = true then s
  else
    let x := spmReadAsync s n list (2 * count)
    if anyPoison x.1 then x.2
    else
      let segs := (List.range count).flatMap fun k =>
        let want := leField (plain x.1) (2 * k) 2
        match (List.range (manExperts m)).find? fun j =>
            let e := slice m (leField m 48 4 + 8 * j) 8
            decide (leField e 0 2 = layer) && decide (leField e 2 2 = want) with
        | some j => let e := slice m (leField m 48 4 + 8 * j) 8; (List.range (leField e 6 2)).map (leField e 4 2 + ·)
        | none => []
      let s := segs.zipIdx.foldl (fun s p => spmWrite s n (area + 64 * p.2) ((segRecord s r p.1).map fun b => (b, false)) .forester) x.2
      postName s sem 1

end Sys2Proof.Machine
end

