-- ==== Sys2Proof/Machine/Moves.lean ====
section
/-! DEFINITION. Moves of Residency objects as firmware makes them (R125, R189–R191, R195–R198, R304): what the allocation flags allow,
the reservation at the destination, the legs of the transfer, what firmware does after each command of a move. -/

namespace Sys2Proof.Machine

/-! ### What firmware does after a Residency command (R125, R195, R197, R302) -/

/-- The KV-page object of a context that an entry holds. -/
def kvObject (s : State) (e : Nat) : Option (Nat × Nat × Nat) := ((s.fw (resOwner s e)).objs.find? fun o => decide (o.1 = e))

/-- After an accepted command, firmware follows it: page entries of a moved object, the state of its context, the space of its home. -/
def resFollow (s t : State) (c : ResCmd) : State :=
  let e := c.entry
  if resWord s e 0 = resWord t e 0 then t
  else
    let len (s : State) (coded : Bool) : Nat := 4096 * codedUnits (resSize s e) coded
    let t := match c.op with
      | 1 => giveOut t (resHome t e) (len t (resCoded t e))
      | 4 =>
        let t := giveOut t (resDestAddr t e) (len t (decide (storeGet 0 t.resDest e / 4 = 1)))
        match kvObject t e with | some o => putObjPages t (resOwner t e) o false (resHome t e) | none => t
      | 5 =>
        let t := takeBack t (resHome s e)
        match kvObject t e with
        | some o => if resTier t e = 0 then putObjPages t (resOwner t e) o true (resHome t e) else t
        | none => t
      | 6 =>
        let t := takeBack t (resDestAddr s e)
        match kvObject t e with
        | some o => if resTier t e = 0 then putObjPages t (resOwner t e) o true (resHome t e) else t
        | none => t
      | 8 | 9 => takeBack t (resHome s e)
      | _ => t
    let owner := resOwner t e
    if c.op = 4 ∨ c.op = 5 ∨ c.op = 6 then (if owner = 0xFFFF then t else ctxFollow t owner) else t

/-- MOVE_CANCEL by firmware, and what follows it (R195, R197, R357, R359). -/
def stopMove (s : State) (e : Nat) : State := resFollow s (cancelMove s e) ⟨6, false, 0, e⟩

/-- Writes of a context's page list wait: its near memory holds its accesses (R325, R351, R393). -/
def listHeld (s : State) (e : Nat) : Bool :=
  match placeOf (ctxList s e) with
  | .nm f x => nmHeld s f x (8 * ctxListCap s e)
  | _ => false

/-- Does what firmware does to an entry write a page list that waits? -/
def followHeld (s : State) (e : Nat) : Bool := (kvObject s e).isSome && listHeld s (resOwner s e)

/-! ### What the flags allow (R188–R190) -/

/-- The destination that a port's argument words name: tier, Field, address. -/
def moveDest (s : State) (p : Nat) : Nat × Nat × Nat :=
  (bits (s.reg (resArg p 0)) 21 20, bits (s.reg (resArg p 0)) 23 22,
   (s.reg (resArg p 4)).toNat + bits (s.reg (resArg p 5)) 15 0 <<< 32)

/-- Would the table accept this MOVE (R195)? -/
def moveReady (s : State) (c : ResCmd) : Bool :=
  let w0 := resWord s c.entry 0
  resValid w0 && decide (resGen w0 = c.gen) && decide (resState w0 = 0) && !(decide (resKind w0 = 3) && c.down)
    && !quarantined s .res c.entry

/-- Does firmware move the object there (R189, R190)? Down only to the spill pool and with ALLOW_HOST_SPILL, up only into near memory,
neither where PLACE lets it never move; the place is free. -/
def moveAllowed (s : State) (c : ResCmd) (dst : Nat × Nat × Nat) : Bool :=
  let e := c.entry
  let fl := bits (resWord s e 6) 7 0
  let len := 4096 * codedUnits (resSize s e) (destCoded s e dst.1)
  let b := tierBounds s dst.1 dst.2.1
  decide (natBits fl 2 0 ≤ 1)
    && (if c.down then decide (dst.1 = 1) && decide (resTier s e = 0) && natBit fl 3
        else decide (dst.1 = 0) && decide (resTier s e ≤ 1) && fieldPresent s dst.2.1 && (!natBit fl 6 || decide (natBits fl 5 4 = dst.2.1)))
    && decide (dst.2.2 % 4096 = 0) && decide (b.1 ≤ dst.2.2) && decide (dst.2.2 + len ≤ b.2) && rangeFree s dst.2.2 len

/-! ### The table and the staging area of a coded move (R100, R198, R216) -/

/-- Bytes of a staging area. -/
def stageBytes : Nat := 65536

/-- A staging area in a core of Field f: populated, and in no instruction partition. -/
def stageOk (s : State) (f n off : Nat) : Bool :=
  decide (n / 4 = f) && corePresent s n && decide (off % 64 = 0) && decide (off + stageBytes ≤ spmSize)
    && !spmWriteDropped s n off stageBytes .other

/-- The table that the manifest of the owner's root names for an object's kind; none: RAW_ONLY. -/
def moveTable (s : State) (e : Nat) : Option TableInfo :=
  let want : Option Nat := match resKind (resWord s e 0) with
    | 0 => some 2
    | 1 => some 1
    | 2 => some 3
    | _ => none
  match want with
  | some k => if resOwner s e = 0xFFFF then none
      else (manTableList (s.root (ctxRoot s (resOwner s e))).manifest).find? fun t => decide (t.kind = k)
  | none => none

/-- Make sure that core n holds a table, loaded from the staging area when it does not; none while its slot is in use or the image is
not good. -/
def ensureTable (s : State) (n off : Nat) (t : TableInfo) : Option State :=
  let held (s : State) : Bool := (hslot (hrw s n) t.slot).valid && decide ((hslot (hrw s n) t.slot).gen = t.gen)
  if held s then some s
  else if (hrw s n).load.isSome || decide (0 < slotInUse (hrw s n) t.slot) then none
  else
    let s := spmWrite s n off (t.image.map fun b => (b, false)) .forester
    let s := tblLoadDone (tblLoad s n t.slot t.gen off true) n
    if held s then some s else none

/-- What a move needs before it starts: the table slot of its blocks, and the state. -/
def movePrep (s : State) (e f : Nat) (staged : Bool) (stage : Option (Nat × Nat)) : Option (Option Nat × State) :=
  if !staged then some (none, s)
  else match stage with
    | none => none
    | some (n, off) =>
      if !stageOk s f n off || spmHeld s n off stageBytes then none
      else match moveTable s e with
        | none => some (none, s)
        | some t => (ensureTable s n off t).map fun s => (some t.slot, s)

/-! ### The legs of a move (R197, R198) -/

/-- Transfers that a move takes: a coded one passes the staging area chunk by chunk. -/
def moveLegs (m : Move) : Nat := if m.staged then 2 * ceilDiv m.len stageBytes else 1

/-- The transfer of the leg to come. The pool holds a coded region of stripe count 1: its header array, then its blocks. -/
def moveXfer (m : Move) : Xfer :=
  let i := m.leg / 2
  let area := spmAddr m.core m.off
  let len := min stageBytes (m.len - stageBytes * i)
  let near := (if m.down then m.src else m.dst) + stageBytes * i
  let region := if m.down then m.dst else m.src
  let base := region + 4096 * ceilDiv (m.len / 4096) 256
  let x : Xfer :=
    if !m.staged then { kind := .copy, src := m.src, dst := m.dst, len := m.len }
    else if m.down then
      if m.leg % 2 = 0 then { kind := .copy, src := near, dst := area, len }
      else { kind := .blocksOut, src := area, dst := base, len, hdr := region, firstBlk := 16 * i, rawOnly := m.slot.isNone, tslot := m.slot.getD 0 }
    else if m.leg % 2 = 0 then { kind := .blocksIn 0, src := base, dst := area, len, hdr := region, firstBlk := 16 * i }
    else { kind := .copy, src := area, dst := near, len }
  { x with ctx := m.owner % 65536, gen := m.ownerGen, check := decide (m.owner ≠ 0xFFFF) }

/-- Post the leg to come. -/
def moveNext (s : State) (m : Move) : State := postFw s m.field (moveXfer m) (.move m.entry)

def findMove (s : State) (e : Nat) : Option Move := s.moves.find? fun m => decide (m.entry = e)
def setMove (s : State) (m : Move) : State := { s with moves := mapIf (fun x => decide (x.entry = m.entry)) (fun _ => m) s.moves }
def dropMove (s : State) (e : Nat) : State := { s with moves := s.moves.filter fun m => decide (m.entry ≠ e) }

/-- A leg has ended with a status. -/
def moveDone (s : State) (e code : Nat) : State :=
  match findMove s e with
  | none => s
  | some m =>
    if code ≠ 0 then setMove s { m with outcome := some code }
    else if moveLegs m ≤ m.leg + 1 then setMove s { m with outcome := some 0 }
    else
      let m := { m with leg := m.leg + 1 }
      moveNext (setMove s m) m

/-! ### The commands of a move -/

/-- The code in a port's RES_Pp_RESULT. -/
def resCode (s : State) (p : Nat) : Nat := bits (s.reg (resResult p)) 7 0

/-- MOVE (R197, R198, R304): the reservation at the destination first; a refused one, or a command that is turned away, starts nothing. -/
def moveStart (s : State) (p : Nat) (c : ResCmd) (acc : PortAccess) : State :=
  let e := c.entry
  let dst := moveDest s p
  let staged := destCoded s e dst.1 != resCoded s e
  let f := if c.down then resField s e else dst.2.1
  if !moveAllowed s c dst ∨ followHeld s e then s
  else match movePrep s e f staged acc.stage with
    | none => s
    | some (slot, s) =>
      let units := codedUnits (resSize s e) (destCoded s e dst.1)
      let k := fwTake (makeRoom s dst.1 dst.2.1 units) (tierCounter dst.1 dst.2.1) units
      if !k.1 then k.2
      else
        let t := resPort k.2 p c acc
        if resCode t p ≠ 0 then fwGive t (tierCounter dst.1 dst.2.1) units
        else
          let m : Move := {
            entry := e, src := resHome s e, dst := dst.2.2, len := 4096 * (if staged then resSize s e else units), owner := resOwner s e,
            ownerGen := resOwnerGen s e, down := c.down, field := f, staged, core := (acc.stage.map (·.1)).getD 0,
            off := (acc.stage.map (·.2)).getD 0, slot }
          let t := resFollow k.2 t c
          moveNext { t with moves := t.moves ++ [m] } m

/-- MOVE_DONE and MOVE_CANCEL of a move that firmware has started (R197, R304): the one that its transfer's outcome calls for; the
reservation at the place that is left is given back. -/
def moveEnd (s : State) (p : Nat) (c : ResCmd) (acc : PortAccess) (m : Move) : State :=
  let e := c.entry
  let dst := storeGet 0 s.resDest e
  let coded := destCoded s e (dst / 4)
  let back : Nat × Nat :=
    if c.op = 5 then (tierCounter (resTier s e) (resField s e), codedUnits (resSize s e) (resCoded s e))
    else (tierCounter (dst / 4) (dst % 4), codedUnits (resSize s e) coded)
  if m.outcome.isNone ∨ decide (m.outcome = some 0) ≠ decide (c.op = 5) ∨ followHeld s e then s
  else
    let s := if c.op = 5 then s.setReg (resArg p 0) (setFlag (s.reg (resArg p 0)) 24 coded) else s
    let t := resPort s p c acc
    if resCode t p ≠ 0 then t else fwGive (dropMove (resFollow s t c) e) back.1 back.2

/-- A command through a port, and what firmware does then. A command of its own firmware issues only as R189 to R198 have it; the
host's, and those that the port or the entry turns away, reach the port as they are. -/
def resIssue (s : State) (p : Nat) (c : ResCmd) (acc : PortAccess) : State :=
  let plain := let t := resPort s p c acc; if p < 5 then resFollow s t c else t
  if 5 ≤ p ∨ acc.host ∨ acc.early then plain
  else if c.op = 4 then (if moveReady s c then moveStart s p c acc else plain)
  else if c.op = 5 ∨ c.op = 6 then
    match findMove s c.entry with
    | some m => if c.gen = resGen (resWord s c.entry 0) then moveEnd s p c acc m else plain
    | none => plain
  else plain

end Sys2Proof.Machine
end

