-- ==== Sys2Proof/Machine/Xfers.lean ====
section
/-! DEFINITION. XFER descriptors (R284, R335) and what firmware does when a transfer of its own ends (R199, R225, R229). -/

namespace Sys2Proof.Machine

/-! ### ALLOC -/

/-- Try the homes of an allocation in order: reservations, then space. -/
def allocAt (s : State) (o : ObjSpec) (want : Option Nat) : List (Nat × Nat) → Option (Nat × State)
  | [] => none
  | (tier, f) :: rest =>
    let t := fwTake (makeRoom s tier f o.size) (tierCounter tier f) o.size
    if t.1 then
      match placeObject t.2 { o with tier := tier, field := f } want with
      | some p => some p
      | none => allocAt (fwGive t.2 (tierCounter tier f) o.size) o want rest
    else allocAt t.2 o want rest

/-- XFER ALLOC (R188, R189, R284). -/
def xferAlloc (s : State) (d : Descr) : State :=
  let b := d.bytes
  let a := leField b 10 1
  let okind := natBits (leField b 11 1) 2 0
  let size := leField b 12 4
  if ¬(okind = 1 ∨ okind = 2) ∨ !allocLegal s a then badDesc s d.id 0x10
  else if size = 0 ∨ 0xFFFFF < size then badDesc s d.id 0x14
  else
    let o : ObjSpec := { kind := okind, coded := false, tier := 0, field := 0, owner := leField b 32 2,
                         ownerGen := natBits (leField b 34 2) 11 0, size, flags := a }
    let t := fwTake s 5 1
    if !t.1 then completeDesc t.2 d.id 3 0 0 0
    else match allocAt t.2 o d.env.place.head? (firstHomes t.2 a d.env.field d.home) with
      | none => completeDesc (fwGive t.2 5 1) d.id 3 0 0 0
      | some (e, s) => completeDesc { s with hostObjs := s.hostObjs ++ [e] } d.id 0 0 0 e

/-! ### WRITE, READ and FREE -/

/-- Is the descriptor an XFER READ? -/
def isXferRead (d : Descr) : Bool := decide (leField d.bytes 2 1 = 2)

/-- Start a WRITE or READ whose object is HOME and not coded, once it can be pinned: the state, none while it waits (R284). -/
def xferTry (s : State) (id e : Nat) : Option State :=
  match findDesc s id with
  | none => some s
  | some d =>
    if !s.hostObjs.contains e ∨ !resLive s e then some (badDesc s id 0x14)
    else
      let st := resState (resWord s e 0)
      if (st = 0 ∨ st = 3) ∧ !resCoded s e then
        match pinEntry s e with
        | none => none
        | some (g, s) =>
          let obj := resHome s e + leField d.bytes 16 8
          let host := leField d.bytes 24 8
          let own := resOwner s e
          let x : Xfer := { kind := .copy, src := if isXferRead d then obj else host, dst := if isXferRead d then host else obj,
                            len := leField d.bytes 12 4, ctx := own % 65536, gen := resOwnerGen s e, check := decide (own ≠ 0xFFFF) }
          some (postFw s (resField s e) x (.xferDesc id e g))
      else none

/-- Finish a FREE once the object is not pinned: the state, none while it waits. -/
def freeTry (s : State) (id e : Nat) : Option State :=
  (releaseObject s e).map fun s => completeDesc s id 0 0 0 0

def waitTry (s : State) (w : XferWait) : Option State := if w.free then freeTry s w.desc w.entry else xferTry s w.desc w.entry

/-- Start a waiting XFER, or leave it waiting. -/
def waitXfer (s : State) (w : XferWait) : State :=
  match waitTry s w with
  | some s => s
  | none => { s with xferWaits := s.xferWaits ++ [w] }

/-- An XFER descriptor (R277, R284): the object and its range are checked before the outbound map. -/
def xferDesc (s : State) (d : Descr) : State :=
  let b := d.bytes
  let op := leField b 2 1
  let e := leField b 8 2
  let len := leField b 12 4
  let off := leField b 16 8
  if 3 < op ∨ natBit e 15 ∨ natBits (leField b 11 1) 7 3 ≠ 0 ∨ natBits (leField b 34 2) 15 12 ≠ 0 ∨ leField b 36 28 ≠ 0 then
    badDesc s d.id 0x10
  else if op = 0 then xferAlloc s d
  else if !s.hostObjs.contains e ∨ !resLive s e then badDesc s d.id 0x14
  else if op = 3 then waitXfer { s with hostObjs := s.hostObjs.filter (· ≠ e) } ⟨d.id, e, true⟩
  else if len % 64 ≠ 0 ∨ off % 64 ≠ 0 ∨ 4096 * resSize s e < off + len then badDesc s d.id 0x14
  else match omapCheck s (leField b 24 8) len (decide (op = 2)) with
    | some w => badDesc (omapFail s w) d.id 0x12
    | none => waitXfer s ⟨d.id, e, false⟩

/-- A WRITE's or READ's transfer has ended: the object is unpinned, and the descriptor completes (R284, R335). -/
def xferDone (s : State) (id e gen code moved : Nat) : State :=
  let s := unpinEntry s e gen
  match findDesc s id with
  | none => s
  | some d => completeDesc s id code 0 (if code = 0x0B then 0x12 else 0) (if code = 2 ∧ isXferRead d then moved / 64 else 0)

/-- A stall of a transfer that an XFER waits for is told in a NOTICE (R200, R284, R289). -/
def xferStall (s : State) (f : Nat) (coreQ : Bool) (core num : Nat) : State :=
  let was := match getXfer s (namedOwner f coreQ core num) with | some x => x.stalled | none => true
  let t := transferStall s f coreQ core num
  let now := match getXfer t (namedOwner f coreQ core num) with | some x => x.stalled | none => false
  if was || !now || coreQ then t
  else match (t.chan f (num % 16)).purpose with
    | some (.xferDesc id _ _) => match findDesc t id with
      | some d => errRecord t { ty := 3, code := 0x03, src := d.home, w1 := descTag d, w2 := d.slot <<< 16 + d.ring }
      | none => t
    | _ => t

/-! ### What firmware does when transfers end -/

/-- One of firmware's transfers has ended. -/
def fwEvent (s : State) (x : Purpose × Nat × Nat) : State :=
  match x.1 with
  | .xferDesc id e g => xferDone s id e g x.2.1 x.2.2
  | .swapSeg r i => swapSegDone s r i x.2.1
  | .swapHdr r i => swapHdrDone s r i x.2.1
  | .peerSeg r i => peerSegDone s r i x.2.1
  | .stageSeg r i => stageSegDone s r i x.2.1
  | .move e => moveDone s e x.2.1

/-- Firmware takes note of the ends of its writes to other devices, of copies that near memory has lost and of its transfers that have
ended, then posts those that waited for a channel, then tries the XFER descriptors that wait. -/
def fwRun (s : State) : State :=
  let s := copyErrors (headRun s)
  let done := s.fwDone
  let s := done.foldl fwEvent { s with fwDone := [] }
  let chans := s.chanWaits
  let s := chans.foldl (fun s w => postFw s w.field w.x w.p) { s with chanWaits := [] }
  let waits := s.xferWaits
  waits.foldl waitXfer { s with xferWaits := [] }

end Sys2Proof.Machine
end

