-- ==== Sys2Proof/Machine/Admission.lean ====
section
/-! DEFINITION. Admission (R217, R303–R306): the predicted step period, reservations, CTX OPEN, growth. -/

namespace Sys2Proof.Machine

/-! ### The predicted period (R217, R306) -/

/-- A nonnegative fraction: a time in ns. -/
structure Frac where
  num : Nat
  den : Nat
  deriving DecidableEq, Repr

def Frac.add (a b : Frac) : Frac :=
  let n := a.num * b.den + b.num * a.den
  let d := a.den * b.den
  let g := Nat.gcd n d
  if g = 0 then ⟨n, d⟩ else ⟨n / g, d / g⟩
def Frac.max (a b : Frac) : Frac := if a.num * b.den < b.num * a.den then b else a

/-- Bandwidth of layer i of a root, in units of 0.2 GB/s: 128 GB/s for each stack with unstaged segments, 112 GB/s while it
programs, 102.4 GB/s for each Field whose near memory holds staged or swapped-in segments. -/
def layerBw (s : State) (r i : Nat) : Nat :=
  let x := s.root r
  let here (f : Nat) (p : SegState × Nat) : Bool := decide ((infoAt s r p.2).layer = i) && decide ((infoAt s r p.2).field = f)
  let staged (g : SegState) : Bool := g.res.isSome || (g.staged.isSome && !g.copying && !g.filling)
  ((List.range (fieldCount s.part)).map fun f =>
    (if !x.near && x.segs.zipIdx.any fun p => here f p && !staged p.1 then (if wsProgramming s f then 560 else 640) else 0)
      + (if x.segs.zipIdx.any fun p => here f p && staged p.1 then 512 else 0)).sum

/-- Predicted time of layer i for a step of `rows` rows reading `kvpos` positions. -/
def layerTime (s : State) (r i rows kvpos : Nat) : Frac :=
  let m := (s.root r).manifest
  let c := slice m (leField m 44 4 + 24 * i) 24
  let wbytes := (leField c 4 4 + leField c 16 2 * leField c 12 4) * 1024
  let bw := layerBw s r i
  let weights : Frac := if wbytes = 0 then ⟨0, 1⟩ else if bw = 0 then ⟨Config.costOpen r i, 1⟩ else ⟨5 * wbytes, bw⟩
  let arith : Frac := ⟨rows * leField c 8 4, 1000⟩
  let kv : Frac := ⟨5 * kvpos * manKvPos m, 512 * fieldCount s.part⟩
  (⟨leField c 0 4, 1⟩ : Frac).add ((weights.max arith).max kv)

/-- An admitted context as the time test sees it. -/
structure Load where
  root : Nat
  maxPos : Nat
  deadline : Nat
  deriving DecidableEq, Repr

/-- Contexts in ACTIVE or PARKED, except one (R306). -/
def loads (s : State) (skip : Nat) : List Load :=
  (liveCtxs s).filterMap fun e =>
    if e ≠ skip ∧ ctxOpen s e then some ⟨ctxRoot s e, ctxMaxPos s e, (ctxWord s e 8).toNat⟩ else none

/-- The step period P of the device under a load. -/
def periodOf (s : State) (l : List Load) : Frac :=
  (List.range 64).foldl (fun acc r =>
    let mine := l.filter fun x => decide (x.root = r)
    if mine.isEmpty then acc
    else (List.range (manLayers (s.root r).manifest)).foldl (fun acc i =>
      acc.add (layerTime s r i mine.length ((mine.map (·.maxPos)).sum))) acc) ⟨0, 1⟩

/-- The time test: 2 P is at most the deadline of the candidate and of every admitted context with a deadline. -/
def timeOk (s : State) (e : Nat) (cand : Load) : Bool :=
  if cand.deadline = 0 then true
  else
    let l := cand :: loads s e
    let p := periodOf s l
    l.all fun x => decide (x.deadline = 0) || decide (2 * p.num ≤ 1000 * x.deadline * p.den)

/-! ### Reservations (R304) -/

/-- KV pages of a number of positions, and entries of the page list that holds them. -/
def kvPages4 (pos : Nat) : Nat := ceilDiv pos 64
def listEntries (pages : Nat) : Nat := 512 * max 1 (ceilDiv pages 512)

def kvPageUnits (s : State) (r : Nat) : Nat := ceilDiv (manKvPage (s.root r).manifest) 4096

/-- Pages whose objects are allocated. -/
def pagesHeld (x : CtxFw) : Nat := (x.objs.map fun o => o.2.2).sum

def giveAll (s : State) (l : List (Nat × Nat)) : State := l.foldl (fun s p => fwGive s p.1 p.2) s

/-- Reserve for a first admission at the first home that has room: its tier and Field, and what was taken. -/
def reserveAt (s : State) (pages units list : Nat) (home : Nat) : List (Nat × Nat) → Option (Nat × Nat × List (Nat × Nat)) × State
  | [] => (none, s)
  | (tier, f) :: rest =>
    let h := if tier = 1 then home else f
    let takes := [(tierCounter tier h, pages * units), (h, list / 512), (5, ceilDiv pages 16)]
    let t := fwTakeAll (makeRoom s tier h (pages * units + list / 512)) takes
    if t.1 then (some (tier, h, takes), t.2) else reserveAt t.2 pages units list home rest

/-- A cleared page list of `entries` entries in the near memory of a Field. -/
def newList (s : State) (f entries : Nat) (want : Option Nat) : Option (Nat × State) :=
  let b := tierBounds s 0 f
  match findPlace s b.1 b.2 (8 * entries) want with
  | none => none
  | some a => some (a, nmWrite (giveOut s a (8 * entries)) f (a - nmAddr f 0) (List.replicate (8 * entries) ((0, false) : PByte)) f)

/-! ### CTX OPEN (R303) -/

/-- The settings that OPEN and SET carry (R283). -/
def descSettings (b : List Byte) : CtxSettings :=
  { priority := leField b 20 1, deadline := leField b 24 4, temp := leField b 28 4, topP := leField b 32 4, topK := leField b 36 2,
    seed := leField b 40 8 }

/-- An admitted context's entry. -/
def openEntry (s : State) (e : Nat) (b : List Byte) (r tier home list : Nat) (entries : Nat) : State :=
  let w0 := (if tier = 1 then 2 else 1) <<< 29 + (natBit (leField b 14 1) 0).toNat <<< 24 + home <<< 22 + leField b 20 1 <<< 14
    + ctxGen (ctxWord s e 0)
  let ws : List Nat := [w0, r <<< 26, 0, 0, leField b 15 1 <<< 24 + leField b 16 3, list % 2 ^ 32, entries <<< 16 + list >>> 32, 0,
    leField b 24 4, 0, 0, 0, 0, 0, (devNum s % 16) <<< 17 + 1 <<< (devNum s % 16), 0]
  fwCtxSet s e (ws.zipIdx.map fun p => (p.2, BitVec.ofNat 32 p.1))

/-- CTX OPEN: the five checks in order (R303, R304). -/
def ctxOpenDesc (s : State) (d : Descr) : State :=
  let b := d.bytes
  let e := leField b 8 2
  let pos := leField b 16 3
  let fail (s : State) (c : Nat) : State := completeDesc s d.id c 0 0 0
  if quarantined s .ctx e ∨ ctxStateOf s e ≠ 0 then fail s 9
  else if !allocLegal s (leField b 15 1) then badDesc s d.id 0x10
  else match bindRoot s (leField b 12 2) (natBit (leField b 14 1) 0) with
    | none => fail s 5
    | some r =>
      let pages := kvPages4 pos
      let units := kvPageUnits s r
      let entries := listEntries pages
      if 1048576 < pos then fail s 3
      else
        let a := leField b 15 1
        let home := if natBit a 6 then natBits a 5 4 else (d.env.field.filter fun f => fieldPresent s f).getD d.home
        let t := reserveAt s pages units entries home (firstHomes s a d.env.field home)
        match t.1 with
        | none => fail t.2 3
        | some (tier, home, takes) =>
          if !timeOk t.2 e ⟨r, pos, leField b 24 4⟩ then fail (giveAll t.2 takes) 4
          else match newList t.2 home entries d.env.place.head? with
            | none => fail (giveAll t.2 takes) 3
            | some (list, s) =>
              let s := rootPin (openEntry s e b r tier home list entries) r
              let g := ctxGen (ctxWord s e 0)
              let s := s.setFw e { settings := descSettings b, genCopy := g, pages, pageUnits := units, spill := decide (tier = 1),
                                   ents := ceilDiv pages 16 }
              completeDesc s d.id 0 0 0 g

/-! ### Growth and pages (R304, R305) -/

/-- Reserve more pages for a context: whether every TAKE was granted, and the state. A larger page list's units are taken with the
rest; the list itself changes at a step boundary. -/
def growPages (s : State) (e pages : Nat) : Bool × State :=
  let x := s.fw e
  let ents := max x.ents (ceilDiv pages 16)
  let want := listEntries pages
  let list := if ctxListCap s e < want ∧ x.listWant < want then (want - x.listWant) / 512 else 0
  let t := fwTakeAll s [(if x.spill then 4 else ctxHome s e, (pages - x.pages) * x.pageUnits), (ctxHome s e, list), (5, ents - x.ents)]
  if t.1 then (true, t.2.setFw e { x with pages := max x.pages pages, ents, listWant := if list = 0 then x.listWant else want })
  else t

/-- Admit a STEP's growth to N positions (R305): a status, 0 when it is admitted. -/
def growAdmit (s : State) (e n : Nat) : Nat × State :=
  if n ≤ ctxMaxPos s e then (0, s)
  else if 1048576 < n then (3, s)
  else
    let pos := 64 * ceilDiv n 64
    let r := growPages s e (ceilDiv n 64)
    let t := r.2
    if !r.1 then (3, t)
    else
      if timeOk t e ⟨ctxRoot s e, pos, (ctxWord s e 8).toNat⟩ then (0, ctxSetBits t e 4 23 0 pos)
      else
        -- nothing else changes: what was taken is given back
        let x := s.fw e
        let y := t.fw e
        let back := [(if x.spill then 4 else ctxHome s e, (y.pages - x.pages) * x.pageUnits),
          (ctxHome s e, (y.listWant - x.listWant) / 512), (5, y.ents - x.ents)]
        (4, giveAll (t.setFw e x) back)

/-- The larger page list takes the old one's place at a boundary (R304). -/
def swapList (s : State) (e : Nat) : State :=
  let x := s.fw e
  let cap := ctxListCap s e
  if x.listWant ≤ cap then s
  else match newList s (ctxHome s e) x.listWant none with
    | none => s
    | some (a, s) =>
      let old := ctxList s e
      let s := fwCtxSet s e [(5, BitVec.ofNat 32 a), (6, BitVec.ofNat 32 (x.listWant <<< 16 + a >>> 32))]
      let s := fwGive (takeBack s old) (ctxHome s e) (cap / 512)
      x.objs.foldl (fun s o => putObjPages s e o (decide (resTier s o.1 = 0) && decide (resState (resWord s o.1 0) % 3 = 0))
        (resHome s o.1)) (s.setFw e { x with listWant := 0 })

/-- Allocate the pages that a number of positions needs, object by object, each of up to 16 pages from the reservation. -/
def allocPages : Nat → State → Nat → Nat → State
  | 0, s, _, _ => s
  | k + 1, s, e, need =>
    let x := s.fw e
    let have_ := pagesHeld x
    if need ≤ have_ ∨ x.pages ≤ have_ then s
    else
      let n := min 16 (x.pages - have_)
      let tier := if x.spill then 1 else 0
      -- a part-filled object left by an earlier reservation takes an entry of its own
      let t := if x.objs.length < x.ents then (true, s) else fwTake s 5 1
      let o : ObjSpec := { kind := 0, coded := false, tier, field := ctxHome s e, owner := e, ownerGen := ctxGen (ctxWord s e 0),
                           size := n * x.pageUnits, flags := bits (ctxWord s e 4) 31 24 }
      if !t.1 then t.2
      else match placeObject t.2 o none with
        | none => if x.objs.length < x.ents then s else fwGive t.2 5 1
        | some (r, s) =>
          let obj := (r, have_, n)
          let s := s.setFw e { x with objs := x.objs ++ [obj], ents := max x.ents (x.objs.length + 1) }
          allocPages k (putObjPages s e obj (!x.spill) (resHome s r)) e need

/-- At a boundary, firmware gets a context ready for its next step: its page list, its reservation after a TRIM, the pages of
`need` positions, its state (R302, R304). A reservation held in the spill pool moves to near memory when that has room. -/
def readyPages (s : State) (e need : Nat) : State :=
  let s := swapList s e
  let s := if ctxMaxPos s e < need then
      let r := growPages s e (ceilDiv need 64)
      if r.1 then ctxSetBits r.2 e 4 23 0 (64 * ceilDiv need 64) else r.2
    else s
  let x := s.fw e
  let units := (x.pages - pagesHeld x) * x.pageUnits
  let s := if !x.spill then s else
    let t := fwTake s (ctxHome s e) units
    if t.1 then (fwGive t.2 4 units).setFw e { x with spill := false } else t.2
  ctxFollow (allocPages (ceilDiv need 64 + 1) s e (ceilDiv need 64)) e

/-- Every page of these positions is allocated. -/
def pagesReady (s : State) (e need : Nat) : Bool := decide (ceilDiv need 64 ≤ pagesHeld (s.fw e))

end Sys2Proof.Machine
end

