-- ==== Sys2Proof/Machine/Serving.lean ====
section
/-! DEFINITION. Contexts and steps (R279–R283, R302–R315): STEP acceptance, formation, commit, and the other CTX operations. -/

namespace Sys2Proof.Machine

/-! ### How a held STEP ends -/

/-- LATE_POLICY of a ring is RETIRE_LATE (R313). -/
def retireLate (s : State) (ring : Nat) : Bool := flag (ringCfg s ring) 30

/-- The held STEP of a context ends (R282, R291). -/
def endStep (s : State) (e code detail : Nat) (stopped : Bool) : State :=
  let x := s.fw e
  match x.held with
  | none => s
  | some h =>
    let w0 := ctxWord s e 0
    -- the LATE bit of an uncorrectable word 0 is lost
    let flags := (flag w0 26 && w0 != 0xFFFFFFFF).toNat + 2 * h.corrected.toNat + 4 * (decide (h.written < h.tokens) && !stopped).toNat
    let s := fwCtxSet s e [(0, setBits w0 28 26 0), (9, 0), (10, 0), (12, 0)]
    let s := s.setFw e { x with held := none }
    match h.desc with
    | some id => completeDesc s id code flags detail h.written
    | none => s

/-- Cancel the held STEP: at once, or at the end of the running step that holds it (R283, R315). -/
def cancelStep (s : State) (e : Nat) : State :=
  if (s.fw e).held.isNone then s
  else if inStep s e then ctxSetBits s e 0 27 27 1
  else endStep s e 1 0 false

/-- A root whose contexts' STEPs complete MODEL_FAULT (R229, R230). -/
def rootFaulted (s : State) (r : Nat) : Bool :=
  let x := s.root r
  decide (x.st = 4) || (decide (x.st = 7) && x.op.any fun o => decide (o.before = 4))

/-! ### STEP RUN (R279–R282, R305) -/

/-- The draft entries of an input buffer (R280). -/
def parseDrafts (bs : List Byte) (n : Nat) : List (Nat × Nat) :=
  (List.range n).map fun i => (leField bs (8 * i) 4, leField bs (8 * i + 4) 2)

/-- Predicted time of a step of `rows` rows of a context (R217). -/
def stepTime (s : State) (e rows : Nat) : Frac :=
  (List.range (manLayers (s.root (ctxRoot s e)).manifest)).foldl (fun acc i =>
    acc.add (layerTime s (ctxRoot s e) i rows (ctxMaxPos s e))) ⟨0, 1⟩

/-- The rows of each step that takes the input: firmware's spread when R308 allows it, else one step. Each step has 64 rows at least,
and takes half the context's deadline at most unless it is too short to be parted again (DESIGN CHOICE, log entry
137). -/
def stepPlan (s : State) (e : Nat) (plan : List Nat) (rows : Nat) : List Nat :=
  let dl := (ctxWord s e 8).toNat
  let inTime (n : Nat) : Bool := decide (n < 128) || decide (2 * (stepTime s e n).num ≤ 1000 * dl * (stepTime s e n).den)
  if decide (plan.sum = rows) && decide (2 ≤ plan.length) && (plan.all fun n => decide (64 ≤ n))
      && (decide (dl = 0) || plan.all inTime) then plan
  else [rows]

/-- A STEP descriptor. -/
def stepDesc (s : State) (d : Descr) : State :=
  let b := d.bytes
  let e := leField b 8 2
  let tokens := leField b 12 3
  let count := leField b 16 3
  let drafts := leField b 20 2
  let inAddr := leField b 24 8
  let outAddr := leField b 32 8
  let cap := leField b 40 4
  let root := (ctxRootTok s e).toNat
  let input := 4 * count + 8 * drafts
  if leField b 2 1 ≠ 0 ∨ natBits (leField b 10 2) 15 12 ≠ 0 ∨ leField b 15 1 ≠ 0 ∨ leField b 19 1 ≠ 0 ∨ leField b 22 2 ≠ 0
      ∨ leField b 48 16 ≠ 0 then badDesc s d.id 0x10
  else if quarantined s .ctx e ∨ !ctxOpen s e ∨ ctxGen (ctxWord s e 0) ≠ leField b 10 2 then badDesc s d.id 0x11
  else if outAddr % 64 ≠ 0 ∨ cap < tokens then badDesc s d.id 0x15
  else if (s.fw e).held.isSome then refuseDesc s d.id 9 0
  else if rootFaulted s (ctxRoot s e) then refuseDesc s d.id 5 0
  else if 64 < drafts ∨ (root = 0 ∧ count = 0 ∧ (tokens ≠ 0 ∨ drafts ≠ 0)) then badDesc s d.id 0x13
  else match (omapCheck s inAddr input false).orElse fun _ => omapCheck s outAddr (64 + 4 * cap) true with
    | some w => badDesc (omapFail s w) d.id 0x12
    | none =>
      let ds := parseDrafts (d.env.data.drop (4 * count)) drafts
      if tokens = 0 ∧ count = 0 ∧ drafts = 0 then completeDesc s d.id 0 0 0 0
      else if d.env.poisoned ∧ 0 < input then refuseDesc s d.id 2 0
      else if ds.zipIdx.any fun p => decide (p.1.2 ≠ 0xFFFF) && decide (p.2 ≤ p.1.2) then badDesc s d.id 0x13
      else
        let g := growAdmit s e (ctxCommitted s e + root + count + drafts + tokens)
        if g.1 ≠ 0 then refuseDesc g.2 d.id g.1 0
        else
          let s := g.2
          let plan := stepPlan s e d.env.plan (root + count)
          let spread := decide (2 ≤ plan.length)
          let dl := (ctxWord s e 8).toNat
          let due := if dl = 0 ∨ spread then 0 else ((d.stamps[ctxHome s e]?).getD 0 + 100 * dl) % 2 ^ 64
          let s := fwCtxSet s e [(0, setBits (ctxWord s e 0) 28 26 4), (9, BitVec.ofNat 32 due), (10, BitVec.ofNat 32 (due >>> 32)),
            (11, BitVec.ofNat 32 (d.slot <<< 16 + d.ring)), (12, BitVec.ofNat 32 tokens)]
          s.setFw e { s.fw e with held := some {
            desc := some d.id, ring := d.ring, tokens, inCount := count, inAddr, outAddr, outCap := cap, stop := leField b 44 4,
            drafts := ds, plan, spread } }

/-! ### Other CTX operations (R283, R302, R315) -/

/-- Settings take effect (SET, R283). -/
def applySettings (s : State) (e : Nat) (x : CtxSettings) : State :=
  let s := s.setFw e { s.fw e with settings := x, nextSettings := none }
  fwCtxSet s e [(0, setBits (ctxWord s e 0) 21 14 x.priority), (8, BitVec.ofNat 32 x.deadline)]

/-- Settings that waited for the running step. -/
def lateSettings (s : State) (e : Nat) : State :=
  match (s.fw e).nextSettings with
  | some x => applySettings s e x
  | none => s

/-- Close the windows that firmware opened for a context, and start WIN_SYNC (R258, R315). -/
def closeWindows (s : State) (ws : List Nat) : State :=
  let s := ws.foldl (fun s i =>
    if i < 1024 then s.setReg (Reg.WIN_ENTRYi_W0 + 16 * i) (setFlag (winWord s i 0) 31 false) else s) s
  winSync s 1

/-- TEARDOWN: one WRITE raises GEN, sets CANCEL and DRAINING; the held STEP is cancelled; the windows close (R315). -/
def ctxTeardown (s : State) (d : Descr) (e : Nat) : State :=
  let w0 := ctxWord s e 0
  let g := (ctxGen w0 + 1) % 4096
  let s := fwCtxSet s e [(0, setFlag (setBits (setBits w0 31 29 3) 11 0 g) 27 true)]
  let s := s.setFw e { s.fw e with teardown := some d.id, timeouts := 0, genCopy := g }
  closeWindows (cancelStep s e) d.env.windows

/-- Release one object of a context: the reservation that it used goes with it. -/
def releaseOwned (s : State) (e r : Nat) : State :=
  match releaseObject s r with
  | none => s
  | some s =>
    let x := s.fw e
    let kv := x.objs.any fun o => decide (o.1 = r)
    let x := if kv then
        let n := ((x.objs.filter fun o => decide (o.1 = r)).map fun o => o.2.2).sum
        { x with objs := x.objs.filter fun o => decide (o.1 ≠ r), pages := x.pages - n, ents := x.ents - 1 }
      else x
    { s.setFw e x with hostObjs := s.hostObjs.filter (· ≠ r) }

/-- Return what a context has reserved and not used. -/
def returnSpare (s : State) (e : Nat) : State :=
  let x := s.fw e
  let held := pagesHeld x
  let s := giveAll s [(if x.spill then 4 else ctxHome s e, (x.pages - held) * x.pageUnits), (5, x.ents - x.objs.length)]
  s.setFw e { x with pages := min x.pages held, ents := min x.ents x.objs.length }

/-- Requests of a checked operation, or of a window, that a teardown still waits for (R258, R315). -/
def drainBusy (s : State) (e : Nat) : Bool :=
  inStep s e || decide (bits (ctxWord s e 1) 15 0 ≠ 0) || s.heldReqs.any (·.marked)

/-- TEARDOWN_DRAINED (R315): steps 5 and 6, once the context is in no step and nothing of it is outstanding. -/
def teardownDrained (s : State) (e : Nat) : State :=
  if quarantined s .ctx e ∨ ctxStateOf s e ≠ 3 ∨ drainBusy s e then s
  else
    let g := ctxGen (ctxWord s e 0)
    let old := (g + 4095) % 4096
    let s := (ownedBy s e old).foldl (fun s r => releaseOwned s e r) s
    if !(ownedBy s e old).isEmpty then s
    else
      let s := returnSpare s e
      let x := s.fw e
      let s := fwGive (takeBack s (ctxList s e)) (ctxHome s e) ((ctxListCap s e + x.listWant) / 512)
      let r := ctxRoot s e
      let s := fwCtxSet s e ((List.range 16).map fun w => (w, if w = 0 then BitVec.ofNat 32 g else 0))
      let s := rootUnpin (s.setFw e { genCopy := g }) r
      let s := x.trims.foldl (fun s id => completeDesc s id 0 0 0 0) s
      match x.teardown with
      | some id => completeDesc s id 0 0 0 0
      | none => s

/-- TRIM_APPLY (R283, R302): the context is in no step. -/
def trimApply (s : State) (e : Nat) : State :=
  let x := s.fw e
  if x.trims.isEmpty ∨ inStep s e ∨ !ctxOpen s e ∨ listHeld s e then s
  else
    let above := x.objs.filter fun o => decide (ctxCommitted s e ≤ 64 * o.2.1)
    let s := above.foldl (fun s o =>
      let t := releaseOwned s e o.1
      if (t.fw e).objs.any fun q => decide (q.1 = o.1) then t
      else (List.range o.2.2).foldl (fun s i => putPage s e (o.2.1 + i) 0) t) s
    let s := returnSpare s e
    let s := ctxSetBits s e 4 23 0 (64 * pagesHeld (s.fw e))
    let s := s.setFw e { s.fw e with trims := [] }
    ctxFollow (x.trims.foldl (fun s id => completeDesc s id 0 0 0 0) s) e

/-- A CTX descriptor. -/
def ctxDesc (s : State) (d : Descr) : State :=
  let b := d.bytes
  let e := leField b 8 2
  let op := leField b 2 1
  let gen := leField b 10 2
  if 5 < op ∨ natBits gen 15 12 ≠ 0 ∨ natBits (leField b 14 1) 7 1 ≠ 0 ∨ leField b 19 1 ≠ 0 ∨ leField b 21 3 ≠ 0 ∨ leField b 38 2 ≠ 0
      ∨ leField b 56 8 ≠ 0 then badDesc s d.id 0x10
  else if op = 0 then ctxOpenDesc s d
  else if quarantined s .ctx e ∨ !ctxOpen s e ∨ ctxGen (ctxWord s e 0) ≠ gen then badDesc s d.id 0x11
  else match op with
    | 1 => completeDesc (cancelStep s e) d.id 0 0 0 0
    | 2 => ctxTeardown s d e
    | 3 => s.setFw e { s.fw e with trims := (s.fw e).trims ++ [d.id] }
    | 4 => match omapCheck s (leField b 48 8) 64 true with
      | some w => badDesc (omapFail s w) d.id 0x12
      | none => completeDesc (s.emit (.host (omapHost s (leField b 48 8)) (ctxImage s e))) d.id 0 0 0 0
    | _ =>
      let s := if inStep s e then s.setFw e { s.fw e with nextSettings := some (descSettings b) } else applySettings s e (descSettings b)
      completeDesc s d.id 0 0 0 0

/-! ### Forming a step (R307, R308) -/

/-- At a boundary, STEPs that no running step holds and that end there: cancelled by a Function Level Reset, on a root that is
DEGRADED, or late under RETIRE_LATE (R229, R297, R313). -/
def boundaryEnds (s : State) : State :=
  let t := stampAll s
  (liveCtxs t.2).foldl (fun s e =>
    match (s.fw e).held with
    | none => s
    | some h =>
      if inStep s e then s
      else if ctxCancel s e then endStep s e 1 0 false
      else if rootFaulted s (ctxRoot s e) then endStep s e 5 0 false
      else if ctxDue s e ≠ 0 ∧ retireLate s h.ring ∧ ctxDue s e < (t.1[ctxHome s e]?).getD 0 then
        endStep (ctxSetBits s e 0 26 26 1) e 0 0 false
      else s) t.2

/-- Rows and drafts of the context's next step (R308). -/
def nextRows (h : HeldStep) : Nat × Nat := (h.plan.headD 1, if h.plan.length ≤ 1 then h.drafts.length else 0)

/-- Positions that the context's next step reads or writes. -/
def nextNeed (s : State) (e : Nat) : Nat :=
  match (s.fw e).held with
  | some h => ctxCommitted s e + (nextRows h).1 + (nextRows h).2
  | none => 0

/-- A step that holds the root's sub-batch is running: the root's contexts wait for its end (R10). -/
def rootRuns (s : State) (r : Nat) : Bool := s.steps.any fun t => t.subs.any fun b => decide (b.root = r)

/-- May the context join a step now (R10, R229, R302, R304, R307)? -/
def eligible (s : State) (e : Nat) : Bool :=
  let x := s.root (ctxRoot s e)
  decide (ctxStateOf s e = 1) && !rootRuns s (ctxRoot s e) && ctxStepPend s e && !ctxCancel s e && !inStep s e && (s.fw e).held.isSome
    && !quarantined s .ctx e && !fieldInReset s (ctxHome s e)
    && (decide (x.st = 3) || decide (x.st = 5) || decide (x.st = 7)) && !rootFaulted s (ctxRoot s e) && !(x.segs.any (·.copying))
    && decide (nextNeed s e ≤ ctxMaxPos s e) && pagesReady s e (nextNeed s e)

/-- The order of R307: lowest PRIORITY, earliest DUE with 0 last, lowest index. -/
def before (s : State) (a b : Nat) : Bool :=
  let p (e : Nat) : Nat := bits (ctxWord s e 0) 21 14
  let q (e : Nat) : Nat := if ctxDue s e = 0 then 2 ^ 64 else ctxDue s e
  decide (p a < p b) || (decide (p a = p b) && (decide (q a < q b) || (decide (q a = q b) && decide (a < b))))

def insertCtx (s : State) (e : Nat) : List Nat → List Nat
  | [] => [e]
  | x :: l => if before s e x then e :: x :: l else x :: insertCtx s e l

def sortCtxs (s : State) (l : List Nat) : List Nat := l.foldr (insertCtx s) []

/-- Pin every object of a context (R191): the pins, none where one is refused. -/
def pinAll (s : State) : List Nat → Option (List (Nat × Nat) × State)
  | [] => some ([], s)
  | r :: rest =>
    match pinEntry s r with
    | none => none
    | some (g, t) => match pinAll t rest with
      | some (l, t) => some ((r, g) :: l, t)
      | none => none

def unpinAll (s : State) (l : List (Nat × Nat)) : State := l.foldl (fun s p => unpinEntry s p.1 p.2) s

/-- The components of every slab of a root's KV page, (offset, row bytes) (R124, R216). -/
def kvSlabs (m : List Byte) : List (Nat × Nat) :=
  let comps := (List.range (manKvComps m)).map fun i =>
    let o := leField m 52 4 + 8 * i
    leField m o 2 * leField m (o + 2) 1
  let sizes := comps.map fun w => ceilDiv (64 * w) 64 * 64
  let slab := sizes.sum
  if slab = 0 then []
  else (List.range (min (manLayers m) (manKvPage m / slab))).flatMap fun l =>
    comps.zipIdx.map fun c => (l * slab + (sizes.take c.2).sum, c.1)

/-- A context joins a step: its input is checked again, its objects pinned, its lengths and its page layout copied (R282, R301, R308);
its entry keeps VISIBLE until the commit (R311). -/
def joinStep (s : State) (e : Nat) : Option Member × State :=
  match (s.fw e).held with
  | none => (none, s)
  | some h =>
    let n := nextRows h
    let last := decide (h.plan.length ≤ 1)
    let share := min (h.inCount - h.inUsed) (n.1 - (if h.inUsed = 0 then (ctxRootTok s e).toNat else 0))
    let share := if h.inUsed < h.inCount then share else 0
    let len := 4 * share + (if last then 8 * h.drafts.length else 0)
    match omapCheck s (h.inAddr + 4 * h.inUsed) len false with
    | some w => (none, endStep (omapFail s w) e 0x0B 0x12 false)
    | none =>
      let g := ctxGen (ctxWord s e 0)
      match pinAll s (ownedBy s e g) with
      | none => (none, s)
      | some (pins, s) =>
        let s := s.setFw e { s.fw e with slabs := kvSlabs (s.root (ctxRoot s e)).manifest }
        let s := if (ctxWord s e 8).toNat = 0 then fwCtxSet s e [(9, 0), (10, 0)] else s
        (some { ctx := e, gen := g, rows := n.1, drafts := n.2, share, committed := ctxCommitted s e,
                visible := ctxCommitted s e + n.1 + n.2, pins }, s)

def joinAll (s : State) : List Nat → List Member × State
  | [] => ([], s)
  | e :: rest =>
    let r := joinStep s e
    let t := joinAll r.2 rest
    (r.1.toList ++ t.1, t.2)

/-- The sub-batches of a step, in ascending root number. -/
def formSubs (s : State) (caps : List (Nat × Nat)) (l : List Nat) : List Nat → List SubBatch × State
  | [] => ([], s)
  | r :: rest =>
    let cap := ((caps.find? fun c => decide (c.1 = r)).map (·.2)).getD 0
    let m := joinAll s ((sortCtxs s (l.filter fun e => decide (ctxRoot s e = r))).take cap)
    let t := formSubs m.2 caps l rest
    (if m.1.isEmpty then t.1 else { root := r, members := m.1 } :: t.1, t.2)

/-! ### The records of a step (R175, R308, R309) -/

/-- The core and the bytes of the scratchpad that a record takes. -/
def StepRec.place : StepRec → Nat × Nat × Nat
  | .att n x .. => (n, x, 128)
  | .seg n x _ _ => (n, x, 64)
  | .xfer n x _ _ => (n, x, 64)

/-- An attention record of a member: what the kernel fixes, with the context's generation, page list and lengths. Drafts lie in a TREE
record from the first draft's position on; beside drafts, other rows lie in CAUSAL records (R309). -/
def attRecord (s : State) (m : Member) (row : Nat) (draft : Bool) (body : List Byte) : List Byte :=
  let b := (body ++ List.replicate 128 0).take 128
  let w0 : Word := BitVec.ofNat 32 (leField b 0 4)
  let mask := if draft then 2 else if 0 < m.drafts then 1 else bits w0 29 28
  let first := if draft then m.committed + m.rows else m.committed
  leBytes 4 (setBits w0 29 28 mask).toNat ++ leBytes 4 (m.gen <<< 16 + m.ctx) ++ leBytes 6 (ctxList s m.ctx) ++ leBytes 2 (ctxListCap s m.ctx)
    ++ leBytes 4 first ++ leBytes 4 m.visible ++ slice b 24 8 ++ leBytes 4 (if draft then first else first + row) ++ b.drop 36

/-- A record's bytes for a step with these members; none where it belongs to nothing in the step. -/
def StepRec.bytes (s : State) (ms : List Member) : StepRec → Option (List Byte)
  | .att _ _ e row draft body =>
    (ms.find? fun m => decide (m.ctx = e) && (if draft then decide (0 < m.drafts) else decide (row < m.rows))).map fun m =>
      attRecord s m row draft body
  | .seg _ _ r i => if rootRuns s r ∧ i < (s.root r).segs.length then some (segRecord s r i) else none
  | .xfer _ _ e body => (ms.find? fun m => decide (m.ctx = e)).map fun m =>
      let b := (body ++ List.replicate 64 0).take 64
      b.take 32 ++ leBytes 2 m.ctx ++ leBytes 2 (0x8000 + m.gen) ++ b.drop 36

/-- Write one record into a data partition of a core that the step uses. -/
def putStepRec (s : State) (p : StepPlan) (ms : List Member) (q : StepRec) : State :=
  let a := q.place
  match q.bytes s ms with
  | some bs =>
    if p.cores.contains (a.1 / 4) && corePresent s a.1 && decide (a.2.1 % 64 = 0) && !spmWriteDropped s a.1 a.2.1 a.2.2 .other then
      spmWrite s a.1 a.2.1 (bs.map fun b => (b, false)) .forester
    else s
  | none => s

/-- A record's place waits: the core's scratchpad holds its accesses (R89, R351, R393). -/
def stepHeld (s : State) (p : StepPlan) : Bool := p.recs.any fun q => let a := q.place; spmHeld s a.1 a.2.1 a.2.2

/-- The cores of a step: present ones of its Fields, each once (R175, R236). -/
def stepCores (s : State) (p : StepPlan) : List Nat :=
  (List.range 16).filter fun n => p.posts.contains n && p.cores.contains (n / 4) && corePresent s n

/-- A step that has been formed starts: its records are written, then each core's step semaphore is posted once (R175, R236); an active
head sends the other devices of a Stand job their part (R261). -/
def stepRun (s : State) (p : StepPlan) (subs : List SubBatch) : State :=
  let id := s.stepSeq
  let used := stepCores s p
  let s := { s with steps := s.steps ++ [{ id, field := p.field, cores := p.cores, used, job := p.job, subs }], stepSeq := id + 1 }
  let s := p.recs.foldl (fun s q => putStepRec s p (subs.flatMap (·.members)) q) s
  let s := used.foldl (fun s n => semPost s (256 * n) 1) s
  let s := match p.job with
    | some j => if activeHead s then p.devs.foldl (fun s d => headSend s d (.work j id) none) s else s
    | none => s
  subs.foldl (fun s b => stageNext s b.root) s

/-- STEP_START (R10, R307, R308, R313). -/
def stepStart (s : State) (p : StepPlan) : State :=
  if !fieldPresent s p.field ∨ fieldInReset s p.field ∨ (p.cores.any fun f => fieldInReset s f) ∨ stepHeld s p then s
  else
    let s := boundaryEnds s
    let s := (liveCtxs s).foldl (fun s e =>
      if (s.fw e).held.isSome && ctxOpen s e && !inStep s e && !listHeld s e then readyPages s e (nextNeed s e) else s) s
    let t := formSubs s p.caps ((liveCtxs s).filter (eligible s)) (List.range 64)
    if t.1.isEmpty then t.2 else stepRun t.2 p t.1

/-! ### The commit (R310–R313) -/

/-- Depth of each accepted draft (R310): a draft is accepted when it equals the token drawn at its parent. -/
def acceptDepths (drafts : List (Nat × Nat)) (draws : List Nat) : List (Option Nat) :=
  drafts.foldl (fun acc d =>
    let parent : Option (Nat × Nat) := if d.2 = 0xFFFF then some (0, draws.headD 0)
      else (acc[d.2]?.join).map fun k => (k, (draws[d.2 + 1]?).getD 0)
    acc ++ [match parent with
      | some (k, want) => if d.1 = want then some (k + 1) else none
      | none => none]) []

/-- The last draft of the accepted path: of the longest chains, the one whose last draft comes first. -/
def pathEnd (depths : List (Option Nat)) : Option Nat :=
  let best := (depths.map fun x => x.getD 0).foldl max 0
  if best = 0 then none else firstBelow depths.length fun i => decide ((depths[i]?).join = some best)

/-- Drafts from the last row to draft i. -/
def pathTo (drafts : List (Nat × Nat)) : Nat → Nat → List Nat
  | 0, _ => []
  | k + 1, i => match drafts[i]? with
    | none => []
    | some d => (if d.2 = 0xFFFF then [] else pathTo drafts k d.2) ++ [d.1]

/-- The tokens produced: the accepted path, then the token drawn at its end. -/
def produced (drafts : List (Nat × Nat)) (draws : List Nat) : List Nat :=
  match pathEnd (acceptDepths drafts draws) with
  | none => [draws.headD 0]
  | some i => pathTo drafts drafts.length i ++ [(draws[i + 1]?).getD 0]

/-- Tokens up to and with the first STOP token. -/
def upToStop (stop : Nat) : List Nat → List Nat
  | [] => []
  | t :: l => if t = stop ∧ stop ≠ 0xFFFFFFFF then [t] else t :: upToStop stop l

/-- DUE advances for each token written; one written after DUE is late (R312). -/
def dueTokens (s : State) (e now : Nat) : Nat → State
  | 0 => s
  | k + 1 =>
    let due := ctxDue s e
    if due = 0 then s
    else
      let s := if due < now then ctxSetBits s e 0 26 26 1 else s
      let due := (due + 100 * (ctxWord s e 8).toNat) % 2 ^ 64
      dueTokens (fwCtxSet s e [(9, BitVec.ofNat 32 due), (10, BitVec.ofNat 32 (due >>> 32))]) e now k

/-- Commit a member whose step ended OK (R281, R282, R310, R312, R313). -/
def commitOk (s : State) (m : Member) (h : HeldStep) (draws : List Nat) : State :=
  let e := m.ctx
  let last := decide (h.plan.length ≤ 1)
  let left := (ctxWord s e 12).toNat
  let toks := if last ∧ 0 < left then upToStop h.stop ((produced (h.drafts.take m.drafts) draws).take left) else []
  let stopped := decide (h.stop ≠ 0xFFFFFFFF) && toks.contains h.stop
  let w := toks.length
  match if 0 < w then omapCheck s h.outAddr (64 + 4 * h.outCap) true else none with
  | some f => endStep (omapFail s f) e 0x0B 0x12 false
  | none =>
    let c := (ctxCommitted s e + (if 0 < w then m.rows - 1 + w else m.rows)) % 2 ^ 24
    let s := fwCtxSet s e ([(0, setFlag (ctxWord s e 0) 25 (decide (0 < w))), (2, BitVec.ofNat 32 c), (3, BitVec.ofNat 32 c),
      (12, BitVec.ofNat 32 (left - w))] ++ (if 0 < w then [(13, BitVec.ofNat 32 (toks.getLast?.getD 0))] else []))
    let s := if 0 < w then
        let s := s.emit (.host (omapHost s (h.outAddr + 64 + 4 * h.written)) (toks.flatMap (leBytes 4)))
        s.emit (.host (omapHost s h.outAddr) (leBytes 4 (h.written + w)))
      else s
    let t := stamp s (ctxHome s e)
    let s := dueTokens t.2 e t.1 w
    let dl := (ctxWord s e 8).toNat
    let s := if h.spread ∧ h.plan.length = 2 ∧ dl ≠ 0 then
        let due := (t.1 + 100 * dl) % 2 ^ 64
        fwCtxSet s e [(9, BitVec.ofNat 32 due), (10, BitVec.ofNat 32 (due >>> 32))]
      else s
    let h := { h with plan := if last then [1] else h.plan.tail, drafts := if last then [] else h.drafts, inUsed := h.inUsed + m.share,
                      written := h.written + w, spread := h.spread && !last }
    let s := s.setFw e { s.fw e with held := some h }
    if stopped ∨ (last ∧ left ≤ w) then endStep s e 0 0 stopped
    else if flag (ctxWord s e 0) 26 ∧ retireLate s h.ring then endStep s e 0 0 false
    else s

/-- A correction in a sub-batch is told in the completion of each of its members' STEPs (R228, R291). -/
def foldCorrected (s : State) (b : SubBatch) (e : Nat) : State :=
  s.setFw e { s.fw e with held := (s.fw e).held.map fun h => { h with corrected := h.corrected || b.corrected } }

/-- A member's part of the step ends (R229, R310, R311). -/
def commitMember (s : State) (whole : Nat) (b : SubBatch) (m : Member) (o : MemberOut) : State :=
  let e := m.ctx
  let s := foldCorrected s b e
  let s := match (s.fw e).held with
    | none => s
    | some h =>
      let code := if ctxCancel s e then 1 else if m.code ≠ 0 then m.code else if whole ≠ 0 then whole
        else if b.code ≠ 0 then b.code else o.code
      if code ≠ 0 then endStep s e code 0 false else commitOk s m h o.draws
  unpinAll s m.pins

/-- A status that the whole step ends with: a Stand job abort, or a trap of a core that it used (R174, R359). -/
def stepCode (s : State) (t : StepRun) : Nat :=
  if t.job.any fun j => jobAborted s j then 7
  else if t.used.any fun n => decide ((s.core n).seq = .trapped) then 8
  else 0

/-- The kernel's outcome for a member, when it gives every token that the rules ask for. -/
def outFor (outs : List MemberOut) (m : Member) : Option MemberOut :=
  outs.find? fun o => decide (o.ctx = m.ctx) && (decide (o.code ≠ 0) || decide (m.drafts + 1 ≤ o.draws.length))

/-- STEP_COMMIT: a running step ends. -/
def stepCommit (s : State) (id : Nat) (outs : List MemberOut) : State :=
  match s.steps.find? fun t => decide (t.id = id) with
  | none => s
  | some t =>
    let whole := stepCode s t
    let all := t.subs.flatMap (·.members)
    if fieldInReset s t.field ∨ (whole = 0 ∧ all.any fun m => (outFor outs m).isNone) then s
    else
      let s := t.subs.foldl (fun s b => b.members.foldl (fun s m =>
        commitMember s whole b m ((outFor outs m).getD ⟨m.ctx, whole, []⟩)) s) s
      let s := { s with steps := s.steps.filter fun q => decide (q.id ≠ id) }
      all.foldl (fun s m => lateSettings s m.ctx) s

end Sys2Proof.Machine
end

