-- ==== Sys2Proof/Machine/Descriptors.lean ====
section
/-! DEFINITION. Reading and starting descriptors, fences, Function Level Reset (R274–R278, R286, R297). -/

namespace Sys2Proof.Machine

def descKind (d : Descr) : Nat := leField d.bytes 0 1
def descOp (d : Descr) : Nat := leField d.bytes 2 1

/-- A FENCE that keeps the rules of R277. -/
def isFence (d : Descr) : Bool :=
  decide (descKind d = 5) && decide (descOp d ≤ 1) && decide (leField d.bytes 1 1 ≤ 1) && decide (leField d.bytes 3 1 = 0)
    && decide (leField d.bytes 8 56 = 0)

/-- Start a descriptor that is no FENCE (R277, R278). -/
def runDesc (s : State) (d : Descr) : State :=
  if 1 < leField d.bytes 1 1 ∨ leField d.bytes 3 1 ≠ 0 then badDesc s d.id 0x10
  else match descKind d with
    | 0 => if descOp d = 0 ∧ leField d.bytes 8 56 = 0 then completeDesc s d.id 0 0 0 0 else badDesc s d.id 0x10
    | 1 => stepDesc s d
    | 2 => xferDesc s d
    | 3 => ctxDesc s d
    | 4 => modelDesc s d
    | _ => badDesc s d.id 0x10

/-- Descriptors of a ring that have been read and have not completed, in ring order. -/
def liveOn (s : State) (r : Nat) : List Descr := s.descs.filter fun d => decide (d.ring = r)

/-- Start descriptors of a ring in order, up to and with the first FENCE (R276, R286). -/
def startOn : List Descr → State → State
  | [], s => s
  | d :: rest, s =>
    let s := { s with descs := mapIf (fun x => decide (x.id = d.id)) (fun x => { x with started := true }) s.descs }
    if isFence d then s else startOn rest (runDesc s d)

/-- Start what a ring may start now: nothing while a FENCE of it has not completed. -/
def startRing (s : State) (r : Nat) : State :=
  let l := liveOn s r
  if l.any fun d => d.started && isFence d then s else startOn (l.filter fun d => !d.started) s

/-- The set of a FENCE DEVICE as it is read (R286): what has been read and not completed of every enabled ring, and the other
enabled rings' tails. Later descriptors of its own ring cannot start before it completes and are outside the set. -/
def fenceSet (s : State) (ring : Nat) : FenceSet :=
  { ids := (s.descs.filter fun d => ringEn s d.ring).map (·.id),
    marks := ((List.range 1024).filter fun r => decide (r ≠ ring) && ringEn s r).map fun r =>
      (r, (s.ringSt r).epoch, (s.ringSt r).read + ringPending s r) }

/-- Every descriptor of a set has completed, or is never read. -/
def fenceMet (s : State) (f : FenceSet) : Bool :=
  (f.ids.all fun i => (findDesc s i).isNone)
    && f.marks.all fun m =>
      (s.descs.all fun d => !(decide (d.ring = m.1) && decide (d.epoch = m.2.1) && decide (d.pos < m.2.2)))
        && (!ringEn s m.1 || decide ((s.ringSt m.1).epoch ≠ m.2.1) || decide (m.2.2 ≤ (s.ringSt m.1).read))

/-- FENCE_COMPLETE: the FENCE that ring r waits at completes when it may, and the ring runs on (R286). -/
def fenceComplete (s : State) (r : Nat) : State :=
  match (liveOn s r).find? fun d => d.started && isFence d && !d.ended with
  | none => s
  | some d =>
    if (liveOn s r).any fun x => decide (x.id < d.id) then s
    else if (match d.fence with | some f => fenceMet s f | none => true) then
      startRing (completeDesc s d.id 0 0 0 0) r
    else s

/-- Descriptors that a FENCE held back start once its record has been written (R286). -/
def ringsRun (s : State) : State :=
  ((s.descs.filter fun d => !d.started).map (·.ring)).eraseDups.foldl startRing s

/-- DESCRIPTOR_READ: the home Forester of ring r receives the descriptor at the ring's head (R274–R278). -/
def descRead (s : State) (r : Nat) (bytes : List Byte) (env : DescEnv) : State :=
  let cfg := ringCfg s r
  let home := bits cfg 29 28
  if !ringEn s r ∨ ringPending s r = 0 ∨ fieldInReset s home then s
  else
    let head := bits (s.reg (ringReg r Reg.HST_RINGr_HEAD)) 15 0
    match omapCheck s (ringBase s r + 64 * head) 64 false with
    | some w => ringDisable (hstFlag (omapFail s w) 2) r
    | none =>
      let x := s.ringSt r
      let stamps := ((x.stamps.find? fun p => decide (x.read < p.1)).map (·.2)).getD (List.replicate 5 0)
      let d : Descr := { id := s.descSeq, ring := r, epoch := x.epoch, pos := x.read, slot := head, eq := bits cfg 27 22, home,
                         bytes := (bytes ++ List.replicate 64 0).take 64, env, stamps, started := false, fence := none, ended := false,
                         discard := false }
      let d := if isFence d ∧ descOp d = 1 then { d with fence := some (fenceSet s r) } else d
      let s := (s.bump Reg.HST_DESC_CNT 1).setReg (ringReg r Reg.HST_RINGr_HEAD) (BitVec.ofNat 32 ((head + 1) % cfgSize cfg))
      let s := s.setRingSt r { x with read := x.read + 1, stamps := x.stamps.filter fun p => decide (x.read + 1 < p.1) }
      let s := { s with descs := s.descs ++ [d], descSeq := s.descSeq + 1 }
      if x.read < x.abortTo then
        if s.mirrored.contains (r, head) then dropDesc s d.id else refuseDesc s d.id 7 0
      else startRing s r

/-! ### Function Level Reset (R297) -/

/-- Does a transfer read or write through the outbound map? -/
def usesMap (s : State) (x : Xfer) : Bool :=
  let host (a : Nat) : Bool := match standTarget s a with | .here (.host _) => true | _ => false
  match x.kind with
  | .pieces l => l.any fun p => host p.src || host p.dst
  | .fetch _ | .kv | .kvWrite .. | .kvCompact .. => false
  | _ => host x.src || host x.dst

def hostTxn (s : State) (o : XferOwner) : Bool := s.txns.any fun t => decide (t.owner = o) && t.host.isSome && !t.aborted

/-- Every transfer through the map ends with DOMAIN_RESET. -/
def endMapXfers (s : State) : State :=
  let s := (List.range 16).foldl (fun s n => (s.skq n).foldl (fun s q =>
    if usesMap s q.xfer || hostTxn s (.skq n q.idx) then finishSkq s n q.idx 8 else s) s) s
  (List.range 4).foldl (fun s f =>
    let s := (List.range 16).foldl (fun s k => match (s.chan f k).cur with
      | some x => if usesMap s x || hostTxn s (.chan f k) then finishChan s f k 8 else s
      | none => s) s
    match (s.bkr f).cur with
    | some x => if usesMap s x || hostTxn s (.bucker f) then buckerEnd (uncount (dropRequests s (.bucker f)) x) f 8 (s.bkr f).done else s
    | none => s) s

/-- Registers that a Function Level Reset returns to their reset values (R297, R413): rings, queues, MSI-X, outbound map. -/
def flrReg (o : Nat) : Bool :=
  (decide (0x210000 ≤ o) && decide (o < 0x220800)) || (decide (0x270000 ≤ o) && decide (o < 0x271008))
    || (decide (0x280000 ≤ o) && decide (o < 0x290000))

/-- FUNCTION_LEVEL_RESET: rings, queues, outbound map and MSI-X; held STEPs are cancelled at the next boundary. -/
def functionLevelReset (s : State) : State :=
  let s := { s with descs := s.descs.map fun d => { d with discard := true } }
  let s := (List.range 64).foldl (fun s q => if eqEn s q then eqDisable s q else s) s
  let s := endMapXfers s
  let s := { s with regs := storeErase flrReg s.regs, eqs := Vector.replicate 64 {},
                    rings := s.rings.map fun x => (x.1, { epoch := x.2.epoch + 1 }) }
  let s := (liveCtxs s).foldl (fun s e => if (s.fw e).held.isSome then ctxSetBits s e 0 27 27 1 else s) s
  fwRun s

end Sys2Proof.Machine
end

