-- ==== Sys2Proof/Machine/Views.lean ====
section
/-! DEFINITION. What a register reads (R4, R9, R21, R356, R393): status registers are computed from the state they report; every
other register reads as stored. No view changes the state. -/

namespace Sys2Proof.Machine

/-- A word of fields, each a value and its lowest bit. -/
def packWord (l : List (Nat × Nat)) : Word := BitVec.ofNat 32 ((l.map fun p => p.1 <<< p.2).sum)

/-- Bit i for each i below n that satisfies p. -/
def bitsOf (n : Nat) (p : Nat → Bool) : Nat := ((List.range n).map fun i => (p i).toNat <<< i).sum

/-! ### Core registers -/

def seqCode : SeqState → Nat
  | .stopped => 0 | .running => 1 | .draining => 2 | .trapped => 3

/-- An ATTEND, EXPAND, KVWRITE or KVCOMPACT is running (R141). -/
def thrBusy (s : State) (n : Nat) : Bool :=
  (thr s n).running.isSome || (thr s n).expand.isSome || (s.skq n).any fun q => match q.xfer.kind with
    | .kv | .kvWrite .. | .kvCompact .. => true
    | _ => false

def laneBusy (h : HarrowState) (l : Nat) : Bool := (hlane h l).cur.isSome || !(hlane h l).queue.isEmpty

/-- COREn_STATUS (R176). The Vector Unit's work ends with the command that issues it, so its bit reads 0. -/
def coreStatus (s : State) (n : Nat) : Word :=
  let c := s.core n
  let hb := c.hrw.load.isSome || c.hrw.enc.isSome || (c.hrw.streams.any fun h => h.chan.isNone)
  packWord [((s.skq n).length, 16), ((!(List.range 4).all fun t => tineIdle s n t).toNat, 12), ((thrBusy s n).toNat, 14), (hb.toNat, 15),
    (c.loops.length, 8), (seqCode c.seq, 0)]

/-- Flags of a status register that are enabled. -/
def flagged (s : State) (status enable : Nat) : Bool := s.reg status &&& s.reg enable != 0

/-- COREn_EVENT_PEND (R173, R176): its sticky bits, and the live bits of the blocks. -/
def eventPend (s : State) (n : Nat) : Word :=
  let f (a b : Nat) : Nat := (flagged s (coreReg n a) (coreReg n b)).toNat
  s.reg (coreReg n Reg.COREn_EVENT_PEND) ||| packWord [
    (f Reg.TINEn_ERR_STATUS Reg.TINEn_ERR_EVENT_EN, 0),
    (max (f Reg.VUn_ERR_STATUS Reg.VUn_ERR_EVENT_EN) (f Reg.VUn_SHT_STATUS Reg.VUn_SHT_EVENT_EN), 1),
    (f Reg.SPMn_ERR_STATUS Reg.SPMn_ERR_EVENT_EN, 2),
    (f Reg.THRn_ERR_STATUS Reg.THRn_ERR_EVENT_EN, 3), (f Reg.HRWn_ERR_STATUS Reg.HRWn_ERR_EVENT_EN, 4)]

/-- A drain hold is in progress (R29, R34, R157): a group due now finds its bank occupied, a drain that is due faces a full Vector
Unit input queue, or the next bundle is held for a bank. -/
def drainHeld (s : State) (n : Nat) : Bool :=
  (s.core n).seq = .running && (decide (tineLate s n (s.core n).prog = some 1) || match fetchBundle s n with
    | (some w, s) => (match issueSlots s n (splitBundle w) with | .hold 1 _ => true | _ => false)
    | (none, _) => false)

/-- A bank is occupied from its tile's first accumulator write until its drain has read the last row (R29). -/
def bankBusy (s : State) (n i : Nat) (b : Bool) : Bool :=
  let t := getTine s n i
  ((t.accBusy || t.cubeMode) && t.bank == b) || t.drains.any fun d => d.bank == b && decide ((s.core n).prog ≤ d.start + 63)

/-- The gang shape of the work that a Tine has: its open tile, else its queue, else its drains (R24, R44). -/
def tineGang (t : TineState) : Option Nat :=
  match t.opened, t.queue, t.drains with
  | some i, _, _ => some i.gang
  | none, i :: _, _ => some i.gang
  | none, [], d :: _ => some d.gang
  | none, [], [] => none

/-- TINEn_STATUS (R44). -/
def tineStatus (s : State) (n : Nat) : Word :=
  let t (i : Nat) : TineState := getTine s n i
  let gang := ((List.range 4).findSome? fun i => tineGang (t i)).getD 0
  packWord [(gang, 18), (((List.range 4).any fun i => (t i).cubeMode).toNat, 17), ((drainHeld s n).toNat, 16),
    (bitsOf 8 fun i => bankBusy s n (i / 2) (i % 2 = 1), 8), (bitsOf 4 fun i => !(t i).drains.isEmpty, 4), (bitsOf 4 fun i => tileOpen s n i, 0)]

/-- THRn_STATUS (R141). -/
def thrStatus (s : State) (n : Nat) : Word :=
  packWord [((thr s n).queued.isSome.toNat, 17), ((thrBusy s n).toNat, 16), ((thr s n).streams.length, 8),
    (((thr s n).streams.map fun x => x.fetched - x.read - x.faults.countP fun b => decide (x.read ≤ b ∧ b < x.fetched)).sum % 256, 0)]

/-- HRWn_STATUS and HRWn_SLOTs (R112). -/
def hrwStatus (s : State) (n : Nat) : Word :=
  let h := hrw s n
  packWord [(h.load.isSome.toNat, 17), ((encJob h).isSome.toNat, 16), (bitsOf 8 (laneBusy h), 8),
    (bitsOf 4 fun i => h.streams.any fun x => decide (x.num = i) && x.chan.isNone, 0)]
def hrwSlot (s : State) (n i : Nat) : Word :=
  let x := hslot (hrw s n) i
  packWord [(x.valid.toNat, 31), (x.gen % 16, 8), (slotInUse (hrw s n) i % 128, 0)]

/-! ### Scratchpad repair (R91–R93) -/

/-- Spares switched in: the rows of each bank and the columns of each macro of one core, entries of the repair map that took a
spare, an entry skipped. -/
structure Spares where
  rows : List (Nat × Nat) := []
  cols : List (Nat × Nat) := []
  used : Nat := 0
  skipped : Bool := false
  deriving DecidableEq, Repr

/-- Apply one entry to core n: banks 0 to 31, macros 2 × bank + macro. An entry that names a row or column already replaced has
no effect, one out of range or without a spare left is skipped (R91, R92). -/
def spareEntry (n : Nat) (fuse : Bool) (x : Spares) (w : Word) : Spares :=
  let bank := bits w 25 21
  let idx := bits w 11 0
  if !flag w 31 ∨ bits w 29 26 ≠ n then x
  else
    let note (x : Spares) : Spares := if fuse then x else { x with used := x.used + 1 }
    let skip (x : Spares) : Spares := if fuse then x else { x with skipped := true }
    if flag w 30 then
      let m := 2 * bank + (flag w 20).toNat
      if 576 ≤ idx then skip x
      else if x.cols.contains (m, idx) then x
      else if 2 ≤ x.cols.countP (fun c => decide (c.1 = m)) then skip x
      else note { x with cols := x.cols ++ [(m, idx)] }
    else if 3072 ≤ idx then skip x
    else if x.rows.contains (bank, idx) then x
    else if 4 ≤ x.rows.countP (fun c => decide (c.1 = bank)) then skip x
    else note { x with rows := x.rows ++ [(bank, idx)] }

/-- The spares of core n: the fuse map, then the repair map in order. -/
def sparesOf (n : Nat) (map : List Word) : Spares :=
  map.foldl (spareEntry n false) (Config.fuseMap.foldl (spareEntry n true) {})

/-- Core n's REPAIR_OVF flag as a device reset leaves it: an entry was skipped (R91–R93). -/
def repairOvf (n : Nat) (map : List Word) : Word := if (sparesOf n map).skipped then bitMask 7 else 0

/-- SPMn_STATUS: entries of the map for this core that the last device reset did not apply. -/
def repairPending (s : State) (n : Nat) : Bool :=
  let mine (l : List Word) : List Word := l.filter fun w => flag w 31 && decide (bits w 29 26 = n)
  (mine s.repairMap).any fun w => !(mine s.repairOn).contains w
def spmStatus (s : State) (n : Nat) : Word := packWord [((repairPending s n).toNat, 8), ((s.core n).sweeping.toNat, 0)]
def spmRepair (s : State) (n : Nat) : Word :=
  let x := sparesOf n s.repairOn
  packWord [(min x.used 255, 16), (x.rows.length, 8), (x.cols.length, 0)]

/-- A register of core n. -/
def coreView (s : State) (n x : Nat) : Word :=
  if x = Reg.COREn_STATUS then coreStatus s n
  else if x = Reg.COREn_PC then
    (if (s.core n).seq = .trapped then s.reg (coreReg n x) else BitVec.ofNat 32 (32 * (s.core n).pc))
  else if x = Reg.COREn_EVENT_PEND then eventPend s n
  else if x = Reg.TINEn_STATUS then tineStatus s n
  else if x = Reg.THRn_STATUS then thrStatus s n
  else if x = Reg.HRWn_STATUS then hrwStatus s n
  else if Reg.HRWn_SLOTs ≤ x ∧ x < Reg.HRWn_SLOTs + 64 then hrwSlot s n ((x - Reg.HRWn_SLOTs) / 4)
  else if x = Reg.SPMn_STATUS then spmStatus s n
  else if x = Reg.SPMn_REPAIR_STATUS then spmRepair s n
  else s.reg (coreReg n x)

/-! ### Field registers -/

/-- A core interrupts its Forester (R173, R178). -/
def coreInterrupts (s : State) (n : Nat) : Bool := eventPend s n &&& s.reg (coreReg n Reg.COREn_EVENT_EN) != 0

def chanState (c : Chan) : Nat :=
  if c.halted then 3 else match c.cur with
    | none => 0
    | some x => if x.stalled then 2 else 1

/-- SKDn_CHk_STATUS (R205). -/
def chanStatus (s : State) (f k : Nat) : Word :=
  let c := s.chan f k
  packWord [(chanState c, 30), (min c.queue.length 8, 24), (c.code % 256, 0)]

/-- A pool's use and size (R205, R207). -/
def poolWord (s : State) (p size : Nat) : Word := packWord [(min (poolUsed s p) 2047, 16), (size, 0)]

def nmReady (s : State) (f : Nat) : Bool :=
  fieldPresent s f && !fieldResetting s f && domOn s (48 + f) && domOn s (56 + f / 2) && !s.power.off
def wsReady (s : State) (f : Nat) : Bool := fieldPresent s f && hasWeightStore s.part && domOn s (52 + f) && !fieldResetting s f && !s.power.off

/-- A register of Field f. -/
def fieldView (s : State) (f x : Nat) : Word :=
  if x = Reg.FLDn_CORE_EVENT then BitVec.ofNat 32 (bitsOf 4 fun k => corePresent s (4 * f + k) && coreInterrupts s (4 * f + k))
  else if x = Reg.SKDn_STATUS then
    packWord [(bitsOf 16 fun k => decide (chanState (s.chan f k) = 2), 16), (bitsOf 16 fun k => decide (chanState (s.chan f k) = 1), 0)]
  else if x = Reg.SKDn_TXN then poolWord s f 1536
  else if Reg.SKDn_CHk_STATUS ≤ x ∧ x < Reg.SKDn_CHk_STATUS + 64 then chanStatus s f ((x - Reg.SKDn_CHk_STATUS) / 4)
  else if x = Reg.BKRn_STATUS then
    packWord [((s.bkr f).cur.isSome.toNat, 31), (min (s.bkr f).queue.length 7, 24), ((s.bkr f).code % 256, 0)]
  else if x = Reg.NMn_STATUS then BitVec.ofNat 32 (nmReady s f).toNat
  else if x = Reg.NMn_PPR_STATUS then setFlag (s.reg (fieldReg f x)) 31 (s.field f).ppr.isSome
  else if x = Reg.WSn_STATUS then packWord [((wsProgramming s f).toNat, 1), ((wsReady s f).toNat, 0)]
  else if x = Reg.WSn_WEAR then wsWearWord s f
  else if x = Reg.WSn_FREE then wsFreeWord s f
  else s.reg (fieldReg f x)

/-! ### Global registers -/

/-- A register of a global region. -/
def globalView (s : State) (o : Nat) : Word :=
  if o = Reg.CTX_STATUS then BitVec.ofNat 32 (ctxUsed s)
  else if o = Reg.RES_STATUS then BitVec.ofNat 32 (resFree s)
  else if o = Reg.RES_TXN_HOST then poolWord s 4 1024
  else if o = Reg.RES_TXN_FAB then (if portCount s.part = 0 then 0 else poolWord s 5 1024)
  else if o = Reg.WIN_STATUS then BitVec.ofNat 32 ((List.range 1024).countP fun i => winOpen s i)
  else if o = Reg.WIN_SYNC then BitVec.ofNat 32 (s.heldReqs.any (·.marked)).toNat
  else if o = Reg.HST_OMAP_SYNC then BitVec.ofNat 32 (!s.omapMarks.isEmpty).toNat
  else if Reg.HDG_FLDf_NOTIFY ≤ o ∧ o < Reg.HDG_FLDf_NOTIFY + 16 ∧ o % 4 = 0 then (notifyRead s ((o - Reg.HDG_FLDf_NOTIFY) / 4)).1
  -- the tunnel carries the function while LINK says USB4 (R270, R299)
  else if o = Reg.USB_STATUS then setBits (s.reg o) 1 0 (if bits (s.reg Reg.HST_STATUS) 1 0 = 2 then 3 else 0)
  else if o = Reg.USB_SVC_STATUS then setFlag (s.reg o) 29 ((List.range 64).any fun r => (s.root r).op.any fun x => x.port.isSome)
  else if Reg.TAL_WF_WINDOWw ≤ o ∧ o < Reg.TAL_WF_WINDOWw + 4096 then BitVec.ofNat 32 (leField s.wfPage (o - Reg.TAL_WF_WINDOWw) 4)
  else if o = Reg.PWR_STATUS then setBits (s.reg o) 15 8 (((List.range 4).map fun i => bits (s.reg (Reg.PWR_TEMPs + 4 * i)) 7 0).foldl max 0)
  else s.reg o

/-! ### What a read returns -/

/-- A register of an absent Field, core, port or unit (R4). -/
def regAbsent (s : State) (o : Nat) : Bool :=
  match regionOf o with
  | (.core n, x) => !corePresent s n || (!hasThresher s.part && decide (Reg.THRn_CAP ≤ x) && decide (x < Reg.HRWn_CAP))
  | (.field f, x) => !fieldPresent s f || (!hasWeightStore s.part && decide (Reg.WSn_CAP ≤ x) && decide (x ≤ Reg.WSn_PROG_CNT))
  | (.global, x) =>
    (decide (Reg.HDG_SEMi ≤ x) && decide (x < Reg.HDG_SEMi + 0x4000) && !corePresent s ((x - Reg.HDG_SEMi) / 1024))
      || (decide (Reg.HDG_COREj_JOB ≤ x) && decide (x < Reg.HDG_COREj_JOB + 64) && !corePresent s ((x - Reg.HDG_COREj_JOB) / 4))
      || (decide (Reg.HDG_FLDf_NOTIFY ≤ x) && decide (x < Reg.HDG_FLDf_NOTIFY + 16) && !fieldPresent s ((x - Reg.HDG_FLDf_NOTIFY) / 4))
      || (decide (Reg.FAB_CAP ≤ x) && decide (x < Reg.FAB_Pp_CTRL) && decide (portCount s.part = 0))
      || (decide (Reg.FAB_Pp_CTRL ≤ x) && decide (x < 0xA00000) && decide (portCount s.part ≤ (x - Reg.FAB_Pp_CTRL) / 0x100))
      || (decide (Reg.PWR_DOMk_CTRL ≤ x) && decide (x < Reg.PWR_DOMk_CTRL + 192) && !corePresent s ((x - Reg.PWR_DOMk_CTRL) / 12))
      || (decide (domReg 48 ≤ x) && decide (x < domReg 56) && (!fieldPresent s ((x - domReg 48) / 4 % 4)
          || (decide (domReg 52 ≤ x) && !hasWeightStore s.part)))
      || (decide (x = domReg 57) && !fieldPresent s 2)
      || (decide (domReg 58 ≤ x) && decide (x < domReg 61) && decide (portCount s.part ≤ 2 * ((x - domReg 58) / 4)))
      || (decide (Reg.PWR_COREn_OP ≤ x) && decide (x < Reg.PWR_COREn_OP + 64) && !corePresent s ((x - Reg.PWR_COREn_OP) / 4))
      || (decide (Reg.RES_P0_CMD ≤ x + 32) && decide (x + 32 < Reg.RES_P0_CMD + 0x100) && !fieldPresent s ((x + 32 - Reg.RES_P0_CMD) / 0x40))
      || (decide (Reg.CTX_P0_CMD ≤ x + 64) && decide (x + 64 < Reg.CTX_P0_CMD + 0x200) && !fieldPresent s ((x + 64 - Reg.CTX_P0_CMD) / 0x80))
      || (decide (Reg.HST_TSs_LO ≤ x) && decide (x < Reg.HST_TSs_LO + 32) && !fieldPresent s ((x - Reg.HST_TSs_LO) / 8))
      || (decide (x = Reg.USB_STATUS) && !hasUsb4 s.part) || (decide (x = Reg.USB_TUNNEL_ERR_CNT) && !hasUsb4 s.part)
  | (.hole, _) => true

/-- The power domain that a register's block lies in (R391); none for the always-on domain. -/
def regDomain (o : Nat) : Option Nat :=
  match regionOf o with
  | (.core n, x) =>
    if Reg.TINEn_CAP ≤ x ∧ x < Reg.VUn_CAP then some (3 * n)
    else if Reg.VUn_CAP ≤ x ∧ x < Reg.HRWn_CAP then some (3 * n + 1)
    else some (3 * n + 2)
  | (.field f, x) => if Reg.WSn_CAP ≤ x then some (52 + f) else some (48 + f)
  | (.global, x) => if Reg.FAB_Pp_CTRL ≤ x ∧ x < Reg.FAB_Pp_CTRL + 0x600 then some (58 + (x - Reg.FAB_Pp_CTRL) / 0x200) else none
  | (.hole, _) => none

/-- A register lies in a domain that is not ON (R393). -/
def regOff (s : State) (o : Nat) : Bool := match regDomain o with | some k => !domOn s k | none => false

/-- Registers that read during a device reset (R356). -/
def readsInReset (o : Nat) : Bool := o == Reg.SRV_CAP0 || o == Reg.SRV_CAP1 || o == Reg.SRV_RESET_STATUS

/-- The value of a register as its block holds it, whatever a bus read would return. -/
def regValue (s : State) (o : Nat) : Word :=
  if (regRow o).isNone then 0
  else match regionOf o with
    | (.core n, x) => coreView s n x
    | (.field f, x) => fieldView s f x
    | (.global, x) => globalView s x
    | (.hole, _) => 0

/-- Registers that a write acts on and that read 0: access type WO (R9). -/
def regWo (o : Nat) : Bool :=
  match regionOf o with
  | (.core _, x) => [Reg.COREn_CTRL, Reg.SPMn_SWEEP, Reg.VUn_SHT_CTRL, Reg.HRWn_TBL_CTRL].contains x
  | (.field _, x) => [Reg.FLDn_CTRL, Reg.FLDn_CORE_RESET, Reg.FLDn_FENCE, Reg.SKDn_ABORT, Reg.BKRn_POST_LO, Reg.BKRn_POST_HI,
      Reg.NMn_PPR_CTRL].contains x || (decide (Reg.SKDn_CHk_POST_LO ≤ x) && decide (x < Reg.SKDn_CHk_POST_LO + 128))
  | (.global, x) => [Reg.SRV_RESET_CTRL, Reg.SRV_ATTEST_CTRL, Reg.SRV_FW_CTRL, Reg.PWR_MODE, Reg.HST_CORR_LO, Reg.HST_CORR_HI,
      Reg.TAL_MAINT_CTRL, Reg.CTX_QUAR_CLEAR, Reg.RES_QUAR_CLEAR, Reg.HDG_ABORT, Reg.HDG_ABORT_CLEAR, Reg.HDG_POST, Reg.HDG_TAKE,
      Reg.HDG_BAR_ARRIVE].contains x
      || (decide (Reg.CTX_P0_CMD ≤ x) && decide (x ≤ Reg.CTX_P5_CMD) && decide ((x - Reg.CTX_P0_CMD) % 0x80 = 0))
      || (decide (Reg.RES_P0_CMD ≤ x) && decide (x ≤ Reg.RES_P5_CMD) && decide ((x - Reg.RES_P0_CMD) % 0x40 = 0))
      || (decide (Reg.FAB_Pp_CTRL ≤ x) && decide (x < Reg.FAB_Pp_CTRL + 0x600) && decide ((x - Reg.FAB_Pp_CTRL) % 0x100 = 0))
  | (.hole, _) => false

/-- What a whole read of a register returns. -/
def regView (s : State) (o : Nat) : Word :=
  if (deviceInReset s && !readsInReset o) || s.power.off then 0
  else if regAbsent s o || regOff s o || regWo o then 0
  else regValue s o

end Sys2Proof.Machine
end

