-- ==== Sys2Proof/Machine/Integrity.lean ====
section
/-! DEFINITION. Data integrity (R174, R289, R322–R329, R337–R339): the patrol scrub, post-package repair, injectors, quarantine,
device error records. -/

namespace Sys2Proof.Machine

/-- A register after a write: the bits that its row stores take the written ones (R9). -/
def storeBits (s : State) (o : Nat) (v : Word) : State :=
  match regRow o with
  | some r => s.setReg o ((s.reg o &&& ~~~(BitVec.ofNat 32 r.rw)) ||| (v &&& BitVec.ofNat 32 r.rw))
  | none => s

/-! ### Patrol scrub (R322, R323) -/

/-- Near memory of Field f can be read by its controller. -/
def nmRuns (s : State) (f : Nat) : Bool :=
  fieldPresent s f && !fieldResetting s f && !deviceInReset s && domOn s (48 + f) && domOn s (56 + f / 2) && !s.power.off

/-- The scrub reads the granule at offset x. -/
def scrubGran (s : State) (f x : Nat) : State :=
  let a := nmAddr f x
  match readGran (s.gran a) with
  | .clean _ => s
  | .corrected d => ((recordCe s f x true).bump (fieldReg f Reg.NMn_SCRUB_CE_CNT) 1).setGran a ⟨d, 0, 0⟩
  | .poison => s.bump (fieldReg f Reg.NMn_POISON_READ_CNT) 1
  | .uncorrectable => recordUe s f x true

/-- SCRUB_TICK: the scrub of Field f reads its next unit; while a repair holds a channel of the unit, the scrub waits (R325). -/
def scrubTick (s : State) (f : Nat) : State :=
  let o := fieldReg f Reg.NMn_SCRUB_STATUS
  let u := bits (s.reg o) 21 0
  if !nmRuns s f || !flag (s.reg (fieldReg f Reg.NMn_SCRUB_CTRL)) 31 || nmChannelHeld s f (4096 * u) 4096 then s
  else
    let s := (List.range 64).foldl (fun s i => scrubGran s f (4096 * u + 64 * i)) s
    if (u + 1) * 4096 < nmDataEnd s.part then s.setReg o (setBits (s.reg o) 21 0 (u + 1))
    else
      let w := s.reg o
      (s.setReg o (setBits (setBits w 21 0 0) 31 24 (bits w 31 24 + 1))).raise (fieldReg f Reg.NMn_ERR_STATUS) (bitMask 6)

/-! ### Post-package repair (R325, R326) -/

/-- The result field of NMn_PPR_STATUS. -/
def pprResult (s : State) (f k : Nat) : State :=
  s.setReg (fieldReg f Reg.NMn_PPR_STATUS) (setBits (s.reg (fieldReg f Reg.NMn_PPR_STATUS)) 30 28 k)

/-- The Tally record of a repair (R366). -/
def pprRecord (s : State) (f row : Nat) : State :=
  tallyAppend s 0x0021 (srcField f) (dataWords [f, (s.reg (fieldReg f Reg.NMn_PPR_STATUS)).toNat, row])

/-- PPR_REQUEST: a write to NMn_PPR_CTRL. `spare`: the bank that it names has a spare row left. -/
def pprRequest (s : State) (f : Nat) (v : Word) (spare : Bool) : State :=
  let e := fieldReg f Reg.NMn_ERR_STATUS
  if !nmRuns s f then s
  else if (s.field f).ppr.isSome ∨ !flag v 31 then s.raise e (bitMask 9)
  else if !spare then pprRecord ((pprResult s f 2).raise e (bitMask 8)) f (v &&& 0x3F03FFFF).toNat
  else pprResult (s.modField f fun x => { x with ppr := some (bits v 29 28, bits v 27 24, bits v 17 0) }) f 0

/-- A granule of the repaired row as it is written back. -/
def pprGran (g : NmGran) : NmGran :=
  match readGran g with
  | .clean d => ⟨d, 0, 0⟩
  | .corrected d => ⟨d, 0, 0⟩
  | _ => markGran g.data true

/-- The stored granules of the row under repair, as device-physical addresses. -/
def pprRow (s : State) (f : Nat) : List Nat :=
  (s.nm.map fun e => 64 * e.1).filter fun a => match placeOf a with
    | .nm g x => decide (g = f) && nmRowHeld s f x
    | _ => false

/-- PPR_DONE: the repair ends, and the accesses that it held go on. `failed`: the row did not pass the controller's read-back
check. -/
def pprDone (s : State) (f : Nat) (failed : Bool) : State :=
  match (s.field f).ppr with
  | none => s
  | some (c, b, r) =>
    let o := fieldReg f Reg.NMn_PPR_STATUS
    let s := (pprRow s f).foldl (fun s a => s.setGran a (pprGran (s.gran a))) s
    let s := s.modField f fun x => { x with ppr := none }
    let s := s.setReg o (setBits (s.reg o) 7 0 (bits (s.reg o) 7 0 - 1))
    let s := pprResult s f (if failed then 3 else 1)
    let s := if failed then s.raise (fieldReg f Reg.NMn_ERR_STATUS) (bitMask 8)
      else (s.raise (fieldReg f Reg.NMn_ERR_STATUS) (bitMask 7)).bump (fieldReg f Reg.NMn_PPR_CNT) 1
    fwRun (releaseHeld (pprRecord s f (c <<< 28 + b <<< 24 + r)))

/-! ### Injectors (R337–R339, R342–R344) -/

/-- The control register of an injector. -/
def injCtrl : InjUnit → Nat
  | .spm n => coreReg n Reg.SPMn_INJ_CTRL
  | .nm f => fieldReg f Reg.NMn_INJ_CTRL
  | .ctx => Reg.CTX_INJ_CTRL
  | .res => Reg.RES_INJ_CTRL

/-- The memory of an injector is present. -/
def injPresent (s : State) : InjUnit → Bool
  | .spm n => corePresent s n
  | .nm f => fieldPresent s f
  | _ => true

/-- INJECTOR_ARM: a write to an injector's control register. -/
def injectorArm (s : State) (u : InjUnit) (v : Word) : State := if injPresent s u then storeBits s (injCtrl u) v else s

/-! ### Quarantine (R329) -/

/-- Put a status on a context's part of the running step that holds it. -/
def memberFail (s : State) (e code : Nat) : State :=
  let mark (m : Member) : Member := if m.ctx = e ∧ m.code = 0 then { m with code } else m
  { s with steps := s.steps.map fun t => { t with subs := t.subs.map fun b => { b with members := b.members.map mark } } }

/-- The objects whose OWNER_CTX names an index. -/
def ownedAny (s : State) (ctx : Nat) : List Nat :=
  (s.res.filter fun x => decide (x.1 % 8 = 0)).filterMap fun x =>
    let e := x.1 / 8
    if resLive s e && decide (resOwner s e = ctx) && decide (ctx ≠ 0xFFFF) && !quarantined s .res e then some e else none

/-- The words of an entry all decode. -/
def wordsGood (s : State) (t : TabId) (e : Nat) (ws : List Nat) : Bool := ws.all fun w => (tabDecode (tabWordAt s t e w)).isSome

/-- The XFER descriptors on objects that p selects complete POISONED: those that wait, and those whose transfers are stopped. -/
def poisonXfers (s : State) (p : Nat → Bool) : State :=
  let mine (q : Purpose) : Bool := match q with
    | .xferDesc _ e _ => p e
    | _ => false
  let waits := s.xferWaits.filter fun w => p w.entry && !w.free
  let s := { s with xferWaits := s.xferWaits.filter fun w => !(p w.entry && !w.free) }
  let s := waits.foldl (fun s w => completeDesc s w.desc 2 0 0 0) s
  let late := s.chanWaits.filter fun w => mine w.p
  let s := { s with chanWaits := s.chanWaits.filter fun w => !mine w.p, fwDone := s.fwDone ++ late.map fun w => (w.p, 2, 0) }
  let s := (List.range 4).foldl (fun s f => (List.range 16).foldl (fun s k =>
    let queued := (s.chan f k).queue.filterMap fun q => match q with | .fw _ q => if mine q then some (q, 2, 0) else none | _ => none
    let s := s.setChan f k { s.chan f k with queue := (s.chan f k).queue.filter fun q => match q with | .fw _ q => !mine q | _ => true }
    let s := { s with fwDone := s.fwDone ++ queued }
    match (s.chan f k).purpose with
    | some q => if mine q then finishChan s f k 2 else s
    | none => s) s) s
  let ended := s.fwDone.filter fun x => mine x.1
  ended.foldl fwEvent { s with fwDone := s.fwDone.filter fun x => !mine x.1 }

/-- Release an object of a lost context: no pin on it stands in the way any longer (R329). -/
def freeOwned (s : State) (e r : Nat) : State :=
  let s := (List.range (resPins (resWord s r 0))).foldl (fun s _ => unpinEntry s r (resGen (resWord s r 0))) s
  releaseOwned s e r

/-- Everything that a lost context holds is given back, but for what only its uncorrectable words named (DESIGN CHOICE, log entry
135). -/
def loseCtx (s : State) (e gen : Nat) : State :=
  let owned := ownedAny s e
  let s := poisonXfers s fun q => owned.contains q
  let s := owned.foldl (fun s r => freeOwned s e r) s
  let used := decide (ctxStateOf s e ≠ 0)
  let s := if wordsGood s .ctx e [0] then returnSpare s e else s
  let x := s.fw e
  let s := if used && wordsGood s .ctx e [0, 5, 6] then
      fwGive (takeBack s (ctxList s e)) (ctxHome s e) ((ctxListCap s e + x.listWant) / 512)
    else s
  let r := ctxRoot s e
  let known := wordsGood s .ctx e [1]
  let s := s.setFw e { genCopy := gen }
  let s := if used && known then rootUnpin s r else s
  let s := x.trims.foldl (fun s id => completeDesc s id 0 0 0 0) s
  match x.teardown with
  | some id => completeDesc s id 0 0 0 0
  | none => s

/-- Idaskub's handling of a quarantined context: its STEP completes POISONED, its objects are released, its entry is cleared. -/
def quarCtx (s : State) (e : Nat) : State :=
  if inStep s e then memberFail s e 2
  else
    let g := match tabDecode (tabWordAt s .ctx e 0) with
      | some (w, _) => (ctxGen w + 1) % 4096
      | none => ((s.fw e).genCopy + 1) % 4096
    let s := loseCtx (endStep s e 2 0 false) e g
    quarClear s .ctx (BitVec.ofNat 32 (g <<< 16 + e))

/-- TEARDOWN by firmware's own decision (R315). -/
def fwTeardown (s : State) (e : Nat) : State :=
  let w0 := ctxWord s e 0
  let g := (ctxGen w0 + 1) % 4096
  let s := fwCtxSet s e [(0, setFlag (setBits (setBits w0 31 29 3) 11 0 g) 27 true)]
  closeWindows (s.setFw e { s.fw e with timeouts := 0, genCopy := g }) []

/-- The root segments whose copy an entry holds: root, segment, whether it is a staged copy. -/
def entrySegs (s : State) (e : Nat) : List (Nat × Nat × Bool) :=
  (List.range 64).flatMap fun r => (s.root r).segs.zipIdx.filterMap fun g =>
    if g.1.staged = some e then some (r, g.2, true) else if g.1.res = some e then some (r, g.2, false) else none

/-- Reads of a staged object go back to its source; a swapped-in root has lost its only copy (R225, R229, R329). -/
def quarSeg (s : State) (g : Nat × Nat × Bool) : State :=
  if g.2.2 then
    let s := dropFwXfers s fun p => match p with
      | .peerSeg r i | .stageSeg r i => decide (r = g.1) && decide (i = g.2.1)
      | _ => false
    copyLost s g.1 g.2.1
  else degradeRoot (modSeg s g.1 g.2.1 fun x => { x with res := none, bad := true }) g.1

/-- An entry's words still say where the object lies and how large it is. -/
def homeKnown (s : State) (e : Nat) : Bool := resLive s e && wordsGood s .res e [0, 2, 3, 6]

/-- The home of a lost object is given back, and the place it was moving to, where its words still name them (log entry 135). -/
def loseObject (s : State) (e : Nat) : State :=
  let known := homeKnown s e
  let dst := storeGet 0 s.resDest e
  let s := dropFwXfers { s with hostObjs := s.hostObjs.filter (· ≠ e) } fun p => decide (p = .move e)
  let s := match findMove s e with
    | some m =>
      let s := takeBack (dropMove s e) m.dst
      if known then fwGive s (tierCounter (dst / 4) (dst % 4)) (codedUnits (resSize s e) (destCoded s e (dst / 4))) else s
    | none => s
  if known then
    fwGive (fwGive (takeBack s (resHome s e)) (tierCounter (resTier s e) (resField s e)) (codedUnits (resSize s e) (resCoded s e))) 5 1
  else s

/-- The context that owns an object, as the entry or firmware's own list of the context's objects names it; 0xFFFF where neither
does, or where the context is gone. -/
def lostOwner (s : State) (e : Nat) : Nat :=
  if wordsGood s .res e [1] then
    let c := resOwner s e
    let g := ctxGen (ctxWord s c 0)
    if g = resOwnerGen s e ∨ (ctxStateOf s c = 3 ∧ g = (resOwnerGen s e + 1) % 4096) then c else 0xFFFF
  else ((liveCtxs s).find? fun c => (s.fw c).objs.any fun o => decide (o.1 = e)).getD 0xFFFF

/-- Take a lost object off its context's list: what it had reserved goes with it, or stays with what the context has reserved and not
used. -/
def forgetObj (s : State) (c e : Nat) : State :=
  let x := s.fw c
  let gone := x.objs.filter fun o => decide (o.1 = e)
  let n := if homeKnown s e then (gone.map fun o => o.2.2).sum else 0
  let k := if homeKnown s e then gone.length else 0
  s.setFw c { x with objs := x.objs.filter fun o => decide (o.1 ≠ e), pages := x.pages - n, ents := x.ents - k }

/-- Idaskub's handling of a quarantined Residency entry. -/
def quarRes (s : State) (e : Nat) (v : Word) : State :=
  let owner := lostOwner s e
  let segs := entrySegs s e
  let s := if !segs.isEmpty then segs.foldl quarSeg s
    else if owner = 0xFFFF then poisonXfers s fun q => decide (q = e)
    else
      let mine (t : State) (q : Nat) : Bool := decide (q = e) || (resLive t q && decide (resOwner t q = owner))
      let s := poisonXfers s (mine s)
      let s := if inStep s owner then memberFail s owner 2 else endStep s owner 2 0 false
      let s := forgetObj s owner e
      if ctxOpen s owner then fwTeardown s owner else s
  quarClear (loseObject s e) .res v

/-- QUARANTINE_CLEAR: a write to CTX_QUAR_CLEAR or RES_QUAR_CLEAR, or Idaskub's whole handling of the entry that the write
names. -/
def quarantineClear (s : State) (res fw : Bool) (v : Word) : State :=
  if deviceInReset s then s
  else
    let t : TabId := if res then .res else .ctx
    let e := if res then bits v 14 0 else bits v 15 0
    if !fw then quarClear s t v
    else if !quarantined s t e then s
    else ringsRun (fwRun (if res then quarRes s e v else quarCtx s e))

/-! ### Device error records (R173, R174, R289, R333) -/

/-- A block as a DEVICE_ERROR record names it: its code, its status and enable registers, its information register, and the
clock that stamps the record. Codes above 14 are status registers that R289 gives no block code. -/
structure ErrBlock where
  status : Nat
  enable : Nat
  info : Option Nat
  src : Nat
  deriving DecidableEq, Repr

/-- The block with a code, of core or Field `u`. -/
def errBlock (b u : Nat) : Option ErrBlock :=
  let c (x : Nat) : Nat := coreReg u x
  let f (x : Nat) : Nat := fieldReg u x
  match b with
  | 0 => some ⟨c Reg.TINEn_ERR_STATUS, c Reg.TINEn_ERR_EVENT_EN, none, u / 4⟩
  | 1 => some ⟨c Reg.VUn_ERR_STATUS, c Reg.VUn_ERR_EVENT_EN, none, u / 4⟩
  | 2 => some ⟨c Reg.SPMn_ERR_STATUS, c Reg.SPMn_ERR_EVENT_EN, some (c Reg.SPMn_UE_ADDR), u / 4⟩
  | 3 => some ⟨c Reg.THRn_ERR_STATUS, c Reg.THRn_ERR_EVENT_EN, some (c Reg.THRn_FAULT_INFO), u / 4⟩
  | 4 => some ⟨c Reg.HRWn_ERR_STATUS, c Reg.HRWn_ERR_EVENT_EN, some (c Reg.HRWn_ERR_INFO), u / 4⟩
  | 5 => some ⟨c Reg.COREn_EVENT_PEND, c Reg.COREn_EVENT_EN, some (c Reg.COREn_TRAP), u / 4⟩
  | 6 => some ⟨f Reg.SKDn_ERR_STATUS, f Reg.SKDn_ERR_EVENT_EN, some (f Reg.SKDn_STALL_INFO), u⟩
  | 7 => some ⟨f Reg.NMn_ERR_STATUS, f Reg.NMn_ERR_EVENT_EN, some (f Reg.NMn_UE_ADDR), u⟩
  | 8 => some ⟨f Reg.WSn_ERR_STATUS, f Reg.WSn_ERR_EVENT_EN, some (f Reg.WSn_ERR_ADDR), u⟩
  | 9 => some ⟨Reg.HDG_ERR_STATUS, Reg.HDG_ERR_EVENT_EN, some Reg.HDG_OVF_SEM, 4⟩
  | 10 => some ⟨Reg.FAB_ERR_STATUS, Reg.FAB_ERR_EVENT_EN, some Reg.FAB_STATUS, 4⟩
  | 11 => some ⟨Reg.WIN_ERR_STATUS, Reg.WIN_ERR_EVENT_EN, some Reg.WIN_LAST_REFUSE, 4⟩
  | 12 => some ⟨Reg.RES_ERR_STATUS, Reg.RES_ERR_EVENT_EN, none, 4⟩
  | 13 => some ⟨Reg.HST_ERR_STATUS, Reg.HST_ERR_EVENT_EN, some Reg.HST_OMAP_FAULT, 4⟩
  | 14 => some ⟨f Reg.BKRn_ERR_STATUS, f Reg.BKRn_ERR_EVENT_EN, none, u⟩
  | 15 => some ⟨Reg.CTX_ERR_STATUS, Reg.CTX_ERR_EVENT_EN, none, 4⟩
  | 16 => some ⟨Reg.CTX_ECC_STATUS, Reg.CTX_ECC_EVENT_EN, some Reg.CTX_ERR_ENTRY, 4⟩
  | 17 => some ⟨Reg.RES_ECC_STATUS, Reg.RES_ECC_EVENT_EN, some Reg.RES_ERR_ENTRY, 4⟩
  | 18 => some ⟨Reg.TAL_ERR_STATUS, Reg.TAL_ERR_EVENT_EN, none, 4⟩
  | 19 => some ⟨Reg.PWR_ERR_STATUS, Reg.PWR_ERR_EVENT_EN, none, 4⟩
  | 20 => some ⟨c Reg.VUn_SHT_STATUS, c Reg.VUn_SHT_EVENT_EN, none, u / 4⟩
  | _ => none

/-- The code that W2 holds: 1 for both status registers of a Vector Unit, 12 for both of the Residency Table; a free value where
R289 gives none. -/
def errCode (s : State) (b : Nat) : Nat × State :=
  if b = 20 then (1, s) else if b = 17 then (12, s) else if b < 15 then (b, s) else (Config.fresh s.freeCtr % 16, s.tickFree)

/-- Is the core or Field that a block belongs to present? -/
def errUnitOk (s : State) (b u : Nat) : Bool :=
  if b ≤ 5 ∨ b = 20 then corePresent s u else if (6 ≤ b ∧ b ≤ 8) ∨ b = 14 then fieldPresent s u else decide (u = 0)

/-- DEVICE_ERROR_REPORT: firmware handles the event of a block. -/
def deviceErrorReport (s : State) (b u : Nat) : State :=
  match errBlock b u with
  | none => s
  | some x =>
    let w := if b = 5 then eventPend s u else s.reg x.status
    let on := w &&& s.reg x.enable
    if on = 0 ∨ !errUnitOk s b u ∨ deviceInReset s ∨ (x.src < 4 ∧ fieldInReset s x.src) then s
    else
      let halted := if b = 6 ∧ flag on 1 then firstBelow 16 fun k => (s.chan u k).halted else none
      let info := match halted with
        | some k => (chanStatus s u k).toNat
        | none => match x.info with | some o => (s.reg o).toNat | none => 0
      let s := s.lower x.status (if b = 5 then on &&& 0xFFFFFFE0 else on)
      let s := if b = 7 ∧ flag on 1 then
          tallyAppend s 0x0020 (srcField u) (dataWords [u, (s.reg (fieldReg u Reg.NMn_UE_ADDR)).toNat, (s.reg (fieldReg u Reg.NMn_UE_ROW)).toNat])
        else s
      let c := errCode s b
      let s := errRecord c.2 { ty := 2, src := x.src, w1 := w.toNat, w2 := c.1 <<< 12 + u, w3 := info }
      match halted with
      | some k => skidderAbort s u (BitVec.ofNat 32 (k <<< 24))
      | none => s

end Sys2Proof.Machine
end

