-- ==== Sys2Proof/Machine/Windfall.lean ====
section
/-! DEFINITION. Windfall capture (R360–R363): what each region holds, read without side effects, the slot and its header. -/

namespace Sys2Proof.Machine

/-! ### Registers in ascending order -/

def mergeAsc : Nat → List Nat → List Nat → List Nat
  | 0, a, b => a ++ b
  | _, [], b => b
  | _, a, [] => a
  | k + 1, x :: a, y :: b => if x ≤ y then x :: mergeAsc k a (y :: b) else y :: mergeAsc k (x :: a) b

/-- Offsets of the rows of a region, ascending. -/
def rowOffs (base : Nat) (rows : List RegRow) : List Nat :=
  rows.foldl (fun acc r =>
    let l := (List.range r.count).map fun i => base + r.off + r.stride * i
    mergeAsc (acc.length + l.length) acc l) []

/-- Populated registers of Field f's region, its cores included (R20). -/
def fieldOffs (s : State) (f : Nat) : List Nat :=
  (rowOffs (fieldBase f) fieldRows ++ (List.range 4).flatMap fun k => rowOffs (coreBase (4 * f + k)) coreRows).filter fun o => !regAbsent s o

/-- Every populated BAR0 register. -/
def allOffs (s : State) : List Nat :=
  (rowOffs 0 globalRows).filter (fun o => !regAbsent s o) ++ (List.range (fieldCount s.part)).flatMap fun f => fieldOffs s f

/-- The words of registers up to the first that lies in a domain that is not ON, and whether all answered. -/
def regWords (s : State) (l : List Nat) : List Byte × Bool :=
  let got := l.takeWhile fun o => !regOff s o
  (got.flatMap fun o => leBytes 4 (regValue s o).toNat, decide (got.length = l.length))

/-! ### Scratchpads as raw tiles -/

/-- A word as the observation bus delivers it: its bytes and whether it is poisoned. -/
def peekWord (s : State) (n wi : Nat) : List Byte × Bool :=
  let c := s.core n
  if !storeGet false c.written (wi / 8) then (List.replicate 8 0, false)
  else match readWord ((tileMode s n (wi / 8192)).getD false) (storeGet {} c.spm wi) with
    | .clean d => (leBytes 8 d.toNat, false)
    | .corrected d _ => (leBytes 8 d.toNat, false)
    | _ => (List.replicate 8 0, true)

/-- Granules of a core's sample: every 64th, then the first 4 KiB of each enabled partition. -/
def sampleGrans (s : State) (n : Nat) : List Nat :=
  (List.range 1536).map (64 * ·) ++ (List.range 8).flatMap fun k =>
    let w := partWord s n k
    if flag w 31 then (List.range 64).map (1024 * bits w 14 8 + ·) else []

/-- Bits packed eight to a byte. -/
def packBools (l : List Bool) : List Byte :=
  (List.range (ceilDiv l.length 8)).map fun i =>
    BitVec.ofNat 8 ((List.range 8).foldl (fun a j => if (l[8 * i + j]?).getD false then a + 2 ^ j else a) 0)

def sampleData (s : State) (n : Nat) : List Byte :=
  let g := (sampleGrans s n).map fun g => (List.range 8).map fun w => peekWord s n (8 * g + w)
  g.flatMap (fun ws => ws.flatMap (·.1)) ++ packBools (g.map fun ws => ws.any (·.2))

/-! ### Regions -/

/-- Kind and instance of the regions of a capture, in order (R361). -/
def wfRegions (s : State) (c : Capture) : List (Nat × Nat) :=
  if c.device then [(1, 0), (2, 0)] ++ (List.range (coreCount s.part)).map (fun n => (3, n)) ++ [(4, 0), (5, 0)]
  else [(1, c.field), (2, c.field)] ++ ((List.range 4).filter fun k => corePresent s (4 * c.field + k)).map (fun k => (3, 4 * c.field + k))
    ++ [(4, c.field), (5, c.field)]

/-- Entries of an excerpt. -/
def ctxExcerpt (s : State) (c : Capture) : List Nat :=
  ((liveCtxs s).filter fun e => c.device || decide (ctxHome s e = c.field)).take 4096

def liveRes (s : State) : List Nat := ((s.res.filter fun x => decide (x.1 % 8 = 0)).map (·.1 / 8)).filter fun e => resLive s e

def resExcerpt (s : State) (c : Capture) : List Nat :=
  let moving (e : Nat) : Bool := decide (resState (resWord s e 0) ≠ 0)
  (if c.device then (liveRes s).filter moving ++ (liveRes s).filter fun e => !moving e
   else (liveRes s).filter fun e => decide (resField s e = c.field) || moving e).take 4096

/-- The sample of core n's scratchpad meets a partition that is being swept, so its reads wait (R75, R89). -/
def sampleSwept (s : State) (n : Nat) : Bool := (sampleGrans s n).any fun g => spmSwept s n (64 * g) 64

/-- Data of a region, and whether every access of it answers. What a queue region looks like is a free value. -/
def wfData (s : State) (c : Capture) (r : Nat × Nat) : (List Byte × Bool) × State :=
  match r.1 with
  | 1 => (regWords s (if c.device then allOffs s else fieldOffs s c.field), s)
  | 2 => if !c.device && !domOn s (48 + c.field) then (([], false), s)
      else ((leBytes (Config.fresh s.freeCtr % 65536) (Config.fresh (s.freeCtr + 1)), true), s.tickFree.tickFree)
  | 3 => if domOn s (3 * r.2 + 2) && !sampleSwept s r.2 then ((sampleData s r.2, true), s) else (([], false), s)
  | 4 => (((ctxExcerpt s c).flatMap (ctxImage s), true), s)
  | _ => (((resExcerpt s c).flatMap fun e => (List.range 8).flatMap fun w => leBytes 4 (resWord s e w).toNat, true), s)

/-- A region with its header (R363). -/
def wfRegion (r : Nat × Nat) (status : Nat) (data : List Byte) : List Byte :=
  leBytes 2 r.1 ++ leBytes 1 r.2 ++ leBytes 1 status ++ leBytes 4 data.length ++ leBytes 4 (crc32 data) ++ leBytes 4 0 ++ data

/-- A capture's number among the domains: its Field, or 4. -/
def capDomain (c : Capture) : Nat := if c.device then 4 else c.field

/-- Regions are captured from the next one on, up to one that does not answer: one of `stuck`, or one that reaches into a domain that
is not ON. `first`: the region in progress has timed out, and `got` bytes of it were read. -/
def wfRun (stuck : List (Nat × Nat)) : Nat → State → Option Nat → State
  | 0, s, _ => s
  | k + 1, s, got =>
    match s.capture with
    | none => s
    | some c =>
      match (wfRegions s c)[c.next]? with
      | none => s
      | some r =>
        let d := wfData s c r
        match got with
        | some g => wfRun stuck k { d.2 with capture := some { c with next := c.next + 1, done := c.done ++ wfRegion r 1 (d.1.1.take g) } } none
        | none =>
          if stuck.contains (capDomain c, c.next) || !d.1.2 then s
          else wfRun stuck k { d.2 with capture := some { c with next := c.next + 1, done := c.done ++ wfRegion r 0 d.1.1 } } none

/-- Bytes of a Windfall slot. -/
def wfSlotBytes : Nat := 0x400000

/-- Every region of the capture has been recorded. -/
def wfAtEnd (s : State) : Bool := match s.capture with | some c => decide ((wfRegions s c).length ≤ c.next) | none => false

/-- Record the regions that are left as CUT. -/
def wfCut (s : State) : State :=
  match s.capture with
  | none => s
  | some c =>
    let l := wfRegions s c
    { s with capture := some { c with next := l.length, done := c.done ++ (l.drop c.next).flatMap fun r => wfRegion r 2 [] } }

/-- The capture ends: the WINDFALL record, then the slot header (R363): the record's SEQ and the state. -/
def wfFinish (s : State) (status : Nat) : Nat × State :=
  match s.capture with
  | none => (0, s)
  | some c =>
    let n := (wfRegions s c).length
    let full := decide (wfSlotBytes < 64 + c.done.length)
    let status := if full then 1 else status
    let body := c.done.take (wfSlotBytes - 64)
    let bytes := 64 + body.length
    let gen := if c.device then devGen s else fldGen s c.field
    let t := stamp s 4
    let tsEnd := t.1
    let s := tallyWrite t.2 0x0050 (if c.device then srcDevice else srcField c.field) 0 (dataWords [c.slot, status, bytes])
    let seq := (s.reg Reg.TAL_SEQ).toNat
    let head := leBytes 4 0x4C414657 ++ leBytes 4 seq
      ++ leBytes 1 (if c.device then 0x20 else 0x10 + c.field) ++ leBytes 1 c.cause ++ leBytes 1 gen ++ leBytes 1 status
      ++ leBytes 8 c.tsStart ++ leBytes 8 tsEnd ++ leBytes 4 bytes ++ leBytes 2 n ++ List.replicate 26 0
    let s := { s with windfall := s.windfall.setIfInBounds c.slot (head ++ leBytes 4 (crc32 head) ++ body), capture := none }
    let w := s.reg Reg.TAL_WF_STATUS
    let s := s.setReg Reg.TAL_WF_STATUS (setBits (setFlag w (30 + c.slot) true) 0 0 c.slot)
    (seq, if status = 1 then s.raise Reg.TAL_ERR_STATUS (bitMask 1) else s)

/-- A capture begins in the older slot. -/
def wfStart (s : State) (device : Bool) (f cause : Nat) : State :=
  let w := s.reg Reg.TAL_WF_STATUS
  let slot := if bits w 31 30 = 0 then 0 else 1 - bits w 0 0
  let c : Capture := { device, field := f, cause, slot, tsStart := 0, next := 0, done := [] }
  let t := stamp s 4
  { t.2 with capture := some { c with tsStart := t.1 } }

/-- WINDFALL_PAGE_SELECT: the page that TAL_WF_SEL names is latched (R369). -/
def wfSelect (s : State) (v : Word) : State :=
  let bs := (s.windfall[bits v 16 16]?).getD []
  { s.setReg Reg.TAL_WF_SEL (v &&& 0x000103FF) with wfPage := (slice bs (4096 * bits v 9 0) 4096 ++ List.replicate 4096 0).take 4096 }

end Sys2Proof.Machine
end

