-- ==== Sys2Proof/Machine/Resets.lean ====
section
/-! DEFINITION. Core, Field and device reset (R345–R358), the fence (R353), firmware traps (R346), Stand abort recovery (R359). -/

namespace Sys2Proof.Machine

/-! ### Core reset (R348, R354) -/

/-- Registers of a core: its region and its semaphores. -/
def coreOwnReg (n o : Nat) : Bool :=
  (decide (coreBase n ≤ o) && decide (o < coreBase n + 0x20000))
    || (decide (semReg (256 * n) ≤ o) && decide (o < semReg (256 * n) + 1024))

/-- The island of a core is cleared: Sequencer, address registers, Tines, Thresher, Harrow, Scale History Table, partitions,
scratchpad, semaphores, counters and flags. -/
def clearCore (s : State) (n : Nat) : State :=
  { s.setCore n {} with regs := storeErase (coreOwnReg n) s.regs }

/-- Members of the steps that use a core get a status. -/
def coreStepsFail (s : State) (n code : Nat) : State :=
  let mark (m : Member) : Member := if m.code = 0 then { m with code } else m
  { s with steps := s.steps.map fun t =>
      if t.used.contains n then { t with subs := t.subs.map fun b => { b with members := b.members.map mark } } else t }

/-- Apply core reset to core n. -/
def resetCore (s : State) (n : Nat) : State :=
  let s := (s.skq n).foldl (fun s q => finishSkq s n q.idx 8) s
  coreStepsFail (clearCore s n) n 8

/-- A core is reset while its Field runs: what waited for a sweep of its scratchpad goes on (R89). -/
def resetCoreAlone (s : State) (n : Nat) : State := releaseHeld (pumpScratch (resetCore s n) n)

/-- Field f is quiesced for its capture (R347). -/
def fieldQuiesced (s : State) (f : Nat) : Bool := flag (s.reg (fieldReg f Reg.FLDn_STATUS)) 29

/-- CORE_RESET: a write to FLDn_CORE_RESET. -/
def coreReset (s : State) (f : Nat) (v : Word) (host : Bool) : State :=
  if host || !fieldPresent s f || fieldQuiesced s f || deviceInReset s then s
  else (List.range 4).foldl (fun s k => if flag v k && corePresent s (4 * f + k) then resetCoreAlone s (4 * f + k) else s) s

/-! ### Pieces of a Field reset (R355, R357) -/

/-- A transfer that a reset ends: it is no longer counted, and firmware learns of one of its own. -/
def endQuiet (s : State) (x : Xfer) (p : Option Purpose) : State :=
  let s := uncount s x
  match p with
  | some p => { s with fwDone := s.fwDone ++ [(p, 8, x.moved)] }
  | none => s

/-- Transfers of the Field's cores, channels and Bucker end DOMAIN_RESET, and their queues are cleared. -/
def clearMovers (s : State) (f : Nat) : State :=
  let s := (List.range 4).foldl (fun s k =>
    let n := 4 * f + k
    ((s.skq n).foldl (fun s q => endQuiet s q.xfer none) s).setSkq n []) s
  let s := (List.range 16).foldl (fun s k =>
    let c := s.chan f k
    let s := match c.cur with | some x => dropChanCoding (endQuiet s x c.purpose) k x | none => s
    let s := c.queue.foldl (fun s i => match i with | .fw x p => endQuiet s { x with counted := false } (some p) | .record _ => s) s
    s.setChan f k {}) s
  let s := match (s.bkr f).cur with | some x => endQuiet s x none | none => s
  let s := s.setBkr f {}
  let late := s.chanWaits.filter fun w => decide (w.field = f)
  { s with chanWaits := s.chanWaits.filter (fun w => decide (w.field ≠ f)), fwDone := s.fwDone ++ late.map fun w => (w.p, 8, 0),
           waiters := s.waiters.filter fun w => decide (w.2 = .surveyor) || decide (ownerField w.2 ≠ f) }

/-- Registers of a Field that its reset clears: all of its region but its generation, its reset cause and the spare rows left. -/
def fieldClears (f o : Nat) : Bool :=
  decide (fieldBase f ≤ o) && decide (o < fieldBase f + 0x80000)
    && !(o == fieldReg f Reg.FLDn_GEN || o == fieldReg f Reg.FLDn_RESET_CAUSE || o == fieldReg f Reg.NMn_PPR_STATUS)

/-- A step used a core or a memory of the Field. -/
def stepUses (s : State) (f : Nat) (t : StepRun) : Bool :=
  decide (t.field = f) || t.cores.contains f || t.subs.any fun b =>
    ((List.range (s.root b.root).segs.length).any fun i => decide ((infoAt s b.root i).field = f))
      || b.members.any fun m => m.pins.any fun p => decide (resTier s p.1 = 0) && decide (resField s p.1 = f)

/-- A running step commits nothing for any member, and each member's STEP completes with a status, and with what its sub-batch had
corrected (R228, R311, R357). -/
def dropStep (s : State) (t : StepRun) (code : Nat) : State :=
  let ms := t.subs.flatMap (·.members)
  let s := t.subs.foldl (fun s b => b.members.foldl (fun s m => foldCorrected s b m.ctx) s) s
  let s := ms.foldl (fun s m => unpinAll (endStep s m.ctx code 0 false) m.pins) s
  let s := { s with steps := s.steps.filter fun q => decide (q.id ≠ t.id) }
  ms.foldl (fun s m => lateSettings s m.ctx) s

/-- A descriptor ends with a status wherever its work is held: a STEP in its context, an XFER that waits, a TRIM or TEARDOWN, a MODEL
operation, which goes on without it. -/
def dropDescWork (s : State) (d : Descr) (code : Nat) : State :=
  let s := (liveCtxs s).foldl (fun s e =>
    let s := if (s.fw e).held.any (fun h => h.desc = some d.id) then
        (if inStep s e then memberFail s e code else endStep s e code 0 false) else s
    let x := s.fw e
    s.setFw e { x with trims := x.trims.filter (· ≠ d.id), teardown := x.teardown.filter (· ≠ d.id) }) s
  let s := { s with xferWaits := s.xferWaits.filter fun w => decide (w.desc ≠ d.id) }
  let s := (List.range 64).foldl (fun s r => match (s.root r).op with
    | some o => if o.desc = some d.id then s.modRoot r fun x => { x with op := some { o with desc := none } } else s
    | none => s) s
  refuseDesc s d.id code 0

/-- Windows into the Field's scratchpads. -/
def fieldWindows (s : State) (f : Nat) : List Nat :=
  (List.range 1024).filter fun i => winOpen s i && match placeOf (winBase s i) with
    | .spm n _ => decide (n / 4 = f)
    | _ => false

/-- Residency entries whose move ran on the Field: from its near memory or to it, or by its Skidder. -/
def fieldMoves (s : State) (f : Nat) : List Nat :=
  (liveRes s).filter fun e =>
    let st := resState (resWord s e 0)
    (decide (st = 1) || decide (st = 2)) && ((decide (resTier s e = 0) && decide (resField s e = f)) || decide (storeGet 0 s.resDest e = f)
      || (match findMove s e with | some m => decide (m.field = f) | none => false))

/-- Stand jobs that the Field's cores, or the steps that used it, belong to. -/
def fieldJobs (s : State) (f : Nat) (l : List StepRun) : List Nat :=
  let cores := (List.range 4).filterMap fun k =>
    let w := s.reg (Reg.HDG_COREj_JOB + 4 * (4 * f + k))
    if flag w 4 then some (bits w 3 0) else none
  (List.range 16).filter fun j => cores.contains j || l.any fun t => decide (t.job = some j)

def jobReg (f o : Nat) : Bool := decide (Reg.HDG_COREj_JOB + 16 * f ≤ o) && decide (o < Reg.HDG_COREj_JOB + 16 * f + 16)

/-- FLDn_STATUS: IN_RESET, READY, QUIESCED. -/
def setFldStatus (s : State) (f : Nat) (v : Word) : State := s.setReg (fieldReg f Reg.FLDn_STATUS) v

/-- The reset of a Field is asserted: generation, clearing, ends of work, the RESET record, the NOTICE (R349, R355, R357, R358). -/
def assertField (s : State) (f cause wf : Nat) : State :=
  let gen := (fldGen s f + 1) % 256
  let s := (s.setReg (fieldReg f Reg.FLDn_GEN) (BitVec.ofNat 32 gen)).setReg (fieldReg f Reg.FLDn_RESET_CAUSE) (BitVec.ofNat 32 cause)
  let s := setFldStatus s f 0x80000000
  let used := s.steps.filter (stepUses s f)
  let jobs := fieldJobs s f used
  let s := clearMovers s f
  let s := { s with power := { s.power with fifo := s.power.fifo.filter fun x => decide (x.sem / 1024 ≠ f) } }
  let s := (List.range 4).foldl (fun s k => clearCore s (4 * f + k)) s
  let s := { s with regs := storeErase (fun o => fieldClears f o || jobReg f o) s.regs, notify := s.notify.setIfInBounds f [],
                    nmWb := s.nmWb.filter fun g => match placeOf (64 * g) with | .nm h _ => decide (h ≠ f) | _ => true }
  let s := setFldStatus s f 0x80000000
  let s := s.setReg (fieldReg f Reg.NMn_PPR_STATUS) (s.reg (fieldReg f Reg.NMn_PPR_STATUS) &&& 0xFF)
  let s := s.modField f fun x => { x with ceCount := 0, rdPart := 0, progPart := 0, ppr := none, fence := none }
  let s := s.setClock f ⟨0, false⟩
  let s := used.foldl (fun s t => dropStep s t 8) s
  let mine := s.descs.filter fun d => decide (d.home = f) && !d.ended
  let s := mine.foldl (fun s d => dropDescWork s d 8) s
  let s := (fieldMoves s f).foldl (fun s e => stopMove s e) s
  let ws := fieldWindows s f
  let s := if ws.isEmpty then s else closeWindows s ws
  let s := jobs.foldl (fun s j => hdgAbort s j) s
  let s := tallyWrite s 0x0002 (srcField f) 0 (resetData 1 f cause gen false wf)
  let seq := (s.reg Reg.TAL_SEQ).toNat
  ringsRun (fwRun (notice s 0x05 (1 <<< 8 + f) (cause <<< 8 + gen) seq))

/-! ### Device reset (R348, R356) -/

/-- What is known of the state of a root in the catalogue after a device reset (R223): the state to restore; none when freed. -/
def restoredState (x : Root) : Option Nat :=
  if x.near then none
  else match x.st with
    | 3 => some 3
    | 4 => some 4
    | 7 => match x.op with
      | some o => if o.before = 3 ∨ o.before = 4 then some o.before else none
      | none => some 3
    | _ => none

/-- A root as the boot restores it from the catalogue's record of it. -/
def restoreRoot (x : Root) : Root :=
  match restoredState x with
  | none => {}
  | some st => { x with st, pins := 0, op := none }

/-- Registers on the Tally die or in fuses, which no reset clears. -/
def keptReg (o : Nat) : Bool :=
  [Reg.TAL_STATUS, Reg.TAL_SEQ, Reg.TAL_WF_STATUS, Reg.SRV_SVN, Reg.SRV_KEY_STATUS, Reg.SRV_RESET_STATUS].contains o
    || o == Reg.USB_STATUS || (decide (Reg.SRV_KEYk_Ww ≤ o) && decide (o < Reg.SRV_KEYk_Ww + 512))
    || (List.range 4).any fun f => o == fieldReg f Reg.FLDn_GEN || o == fieldReg f Reg.FLDn_RESET_CAUSE || o == fieldReg f Reg.NMn_PPR_STATUS

/-- Entries of a table after a device reset: FREE with GEN + 1, a quarantined one with GEN 0. `gen` finds the generation of a word 0,
`put` a word 0 of a FREE entry. -/
def freshTable (m : Store TabWord) (quar : List Nat) (words entries wrap : Nat) (gen : Word → Nat) (put : Nat → Word) : Store TabWord :=
  ((List.range entries).map fun e =>
    (words * e, ({ data := put (if quar.contains e then 0 else (gen (storeGet {} m (words * e)).data + 1) % wrap) } : TabWord))).filter
      fun x => decide (x.2.data ≠ 0)

/-- HST_STATUS after the strap HOSTSEL (R270, R299, R408): LINK is always 1 on the FN-0410 and the FN-0102. -/
def linkStatus (p : Part) (sel : Nat) : Word :=
  if p = .fn0102 then 0x411 else if p = .fn0410 then 0x541
  else match sel % 4 with
    | 1 => 2
    | 2 => 0
    | _ => 0x541

/-- State that a device reset sets from the straps, the Tally die and its random source. -/
def seedRegs (s : State) : State :=
  let s := if portCount s.part = 0 then s else s.setReg Reg.FAB_CFG (BitVec.ofNat 32 (s.straps % 16))
  let s := if hasUsb4 s.part ∧ (s.hostSel % 4 = 1 ∨ s.hostSel % 4 = 2) then
      (s.setReg Reg.HST_STATUS (linkStatus s.part s.hostSel)).setReg (domReg 61) 0
    else s
  freshNonce s
where
  /-- TAL_MAINT_NONCE takes a new random value (R370). -/
  freshNonce (s : State) : State :=
    (List.range 4).foldl (fun s w => (s.setReg (Reg.TAL_MAINT_NONCEw + 4 * w) (BitVec.ofNat 32 (Config.fresh s.freeCtr))).tickFree) s

/-- The reset of the device is asserted: everything outside the always-on state of R348 is cleared, the generations rise. -/
def assertDevice (s : State) (cause wf : Nat) (power : Bool) : State :=
  let gens := (List.range (fieldCount s.part)).map fun f => (f, (fldGen s f + 1) % 256)
  let dev := (devGen s + 1) % 256
  let jobs := (List.range 16).filter fun j => (List.range 4).any fun f => (fieldJobs s f s.steps).contains j
  let s := if power then s else jobs.foldl (fun s j => hdgAbort s j) s
  let s := { s with
    regs := storeErase (fun o => !keptReg o) s.regs,
    cores := Vector.replicate 16 {},
    fields := s.fields.map fun (x : FieldState) => { pages := x.pages, wear := x.wear, retired := x.retired, wsPaused := x.wsPaused },
    nm := [], nmWb := [], chans := Vector.replicate 4 (Vector.replicate 16 {}), skqs := Vector.replicate 16 [],
    txns := if power then [] else s.txns,
    waiters := [], omapMarks := [], bkrs := Vector.replicate 4 {}, notify := Vector.replicate 4 [], arrivals := [],
    ports := Vector.replicate 6 {}, heldReqs := [], boots := s.boots + 1,
    ctx := if power then [] else freshTable s.ctx s.ctxQuar 16 65536 4096 ctxGen (BitVec.ofNat 32),
    res := if power then [] else freshTable s.res s.resQuar 8 32768 256 resGen fun g => BitVec.ofNat 32 (g <<< 12),
    roots := Vector.ofFn fun r => restoreRoot (storeGet {} (catPick s).roots r.val), resDest := [], moves := [], headWrites := [], given := [],
    clocks := Vector.replicate 5 ⟨0, false⟩ }
  let s := { s with
    rings := s.rings.map (fun (x : Nat × RingState) => (x.1, { epoch := x.2.epoch + 1 })), eqs := Vector.replicate 64 {}, errLost := 0, errHeld := [],
    descs := [], corr := none, mirrored := [], takeoverRings := [], ctxFw := [], hostObjs := [], xferWaits := [], chanWaits := [],
    fwDone := [], steps := [], capture := none, captureWaits := [], wfPage := [], wfSeq := wf, repairOn := s.repairMap,
    power := { crit := s.power.crit, throttled := s.power.throttled }, ctxQuar := [], resQuar := [] }
  let s := gens.foldl (fun s g => s.setReg (fieldReg g.1 Reg.FLDn_GEN) (BitVec.ofNat 32 g.2)) s
  let s := (List.range 4).foldl (fun s f =>
    let o := fieldReg f Reg.NMn_PPR_STATUS
    let s := s.setReg o (s.reg o &&& 0xFF)
    if power then s.setReg (fieldReg f Reg.FLDn_RESET_CAUSE) 0 else s) s
  -- the spares are switched in, and entries that found none are told (R91, R92)
  let s := (List.range (coreCount s.part)).foldl (fun s n => s.raise (coreReg n Reg.SPMn_ERR_STATUS) (repairOvf n s.repairOn)) s
  let s := if power then s.setReg Reg.USB_STATUS 0 else s
  seedRegs (s.setReg Reg.SRV_RESET_STATUS (BitVec.ofNat 32 (dev <<< 16 + cause)))

/-! ### Captures and what follows them (R347, R360) -/

/-- Running Sequencers of a Field trap HALTED; a core whose clock is stopped is captured as it stands. -/
def quiesceCores (s : State) (f : Nat) : State :=
  if s.power.crit then s
  else (List.range 4).foldl (fun s k => if (s.core (4 * f + k)).seq = .running then seqHalt s (4 * f + k) false else s) s

/-- A capture has ended with a status: the reset it was taken for follows, then the next Field's capture. -/
def finishCapture (stuck : List (Nat × Nat)) : Nat → State → Nat → State
  | 0, s, _ => s
  | k + 1, s, status =>
    match s.capture with
    | none => s
    | some c =>
      let r := wfFinish s status
      if c.device then assertDevice r.2 c.cause r.1 false
      else
        let s := assertField r.2 c.field c.cause r.1
        match s.captureWaits with
        | [] => s
        | (f, cause) :: rest =>
          let s := wfRun stuck 64 (wfStart { s with captureWaits := rest } false f cause) none
          if wfAtEnd s then finishCapture stuck k s 0 else s

/-- A capture runs on: when its last region is recorded, it ends. -/
def afterCapture (stuck : List (Nat × Nat)) (s : State) : State := if wfAtEnd s then finishCapture stuck 8 s 0 else s

/-- A Field's number and cause among those that wait, in ascending Field order. -/
def insertWait (f cause : Nat) : List (Nat × Nat) → List (Nat × Nat)
  | [] => [(f, cause)]
  | x :: l => if f < x.1 then (f, cause) :: x :: l else x :: insertWait f cause l

/-- The generation of the reset in progress. -/
def pendingGen (s : State) (f : Nat) : Nat :=
  if (fieldInReset s f && flag (s.reg (fieldReg f Reg.FLDn_STATUS)) 29) || (deviceInReset s && s.capture.isSome) then (fldGen s f + 1) % 256
  else fldGen s f

/-- A trigger of a Field reset (R346, R347). -/
def triggerField (s : State) (f cause : Nat) (stuck : List (Nat × Nat)) : State :=
  if !fieldPresent s f || s.power.off then s
  else if deviceInReset s || fieldInReset s f then tallyWrite s 0x0002 (srcField f) 0 (resetData 1 f cause (pendingGen s f) true 0)
  else
    let s := quiesceCores (setFldStatus s f 0xA0000000) f
    if s.capture.isSome then { s with captureWaits := insertWait f cause s.captureWaits }
    else afterCapture stuck (wfRun stuck 64 (wfStart s false f cause) none)

/-- A device reset begins: READY falls, a Field's capture is closed, the device capture begins. -/
def startDevice (s : State) (cause : Nat) (stuck : List (Nat × Nat)) : State :=
  let s := s.setReg Reg.SRV_RESET_STATUS (setFlag (s.reg Reg.SRV_RESET_STATUS) 31 false)
  let s := if s.capture.isSome then (wfFinish (wfCut s) 1).2 else s
  let s := { s with captureWaits := [] }
  let s := (List.range (fieldCount s.part)).foldl (fun s f => quiesceCores s f) s
  afterCapture stuck (wfRun stuck 64 (wfStart s true 0 cause) none)

/-- A trigger of a device reset (R346, R347). -/
def triggerDevice (s : State) (cause : Nat) (stuck : List (Nat × Nat)) : State :=
  if s.power.off then s
  else if deviceInReset s then
    let gen := if s.capture.isSome then (devGen s + 1) % 256 else devGen s
    tallyWrite s 0x0002 srcDevice 0 (resetData 2 0 cause gen true 0)
  else startDevice s cause stuck

/-- OBSERVATION_TIMEOUT: the region in progress did not answer after `got` bytes (R362, R393). -/
def observationTimeout (s : State) (got : Nat) (stuck : List (Nat × Nat)) : State :=
  match s.capture with
  | none => s
  | some c =>
    let off := match (wfRegions s c)[c.next]? with | some r => !(wfData s c r).1.2 && !(decide (r.1 = 3) && domOn s (3 * r.2 + 2)) | none => false
    let s := if off then offAccess s else s
    afterCapture stuck (wfRun stuck 64 s (some got))

/-- WINDFALL_TIME_LIMIT: the regions in progress and to come are CUT (R362). -/
def windfallTimeLimit (s : State) (stuck : List (Nat × Nat)) : State :=
  match s.capture with
  | none => s
  | some _ => finishCapture stuck 8 (wfCut s) 1

/-! ### Ready again (R312, R351, R355) -/

/-- The restarted Forester sets DUE of the held STEPs of its contexts (R312). -/
def restartDue (s : State) (f : Nat) : State :=
  let t := stamp s f
  (liveCtxs t.2).foldl (fun s e =>
    let dl := (ctxWord s e 8).toNat
    if ctxHome s e = f ∧ (s.fw e).held.isSome ∧ dl ≠ 0 ∧ ctxDue s e ≠ 0 then
      let due := (t.1 + 100 * dl) % 2 ^ 64
      fwCtxSet s e [(9, BitVec.ofNat 32 due), (10, BitVec.ofNat 32 (due >>> 32))]
    else s) t.2

/-- A Field becomes ready: held requests are released. Its timestamp counter runs, as its Forester has been started (R294). -/
def makeReady (s : State) (f : Nat) : State :=
  let s := s.setClock f { s.clock f with run := true }
  let s := restartDue (setFldStatus s f 0x40000000) f
  let s := releaseHeld s
  ringsRun (fwRun ((List.range 4).foldl (fun s k => pumpScratch s (4 * f + k)) s))

/-- Is the reset of a Field past its capture? -/
def fieldAsserted (s : State) (f : Nat) : Bool :=
  fieldPresent s f && fieldResetting s f && !deviceInReset s && !s.power.off

/-- FIELD_READY. -/
def fieldReady (s : State) (f : Nat) : State := if fieldAsserted s f && domOn s (48 + f) then makeReady s f else s

/-- FIELD_READY_TIMEOUT: not ready within 25 ms (R355). -/
def fieldReadyTimeout (s : State) (f : Nat) (stuck : List (Nat × Nat)) : State :=
  if fieldAsserted s f then triggerDevice s 9 stuck else s

/-- A Forester or the Surveyor traps or its watchdog expires: the FIRMWARE_TRAP record, then the reset of its domain (R332, R346, R366).
A Surveyor's record is written by what runs after it. In a reset that covers it, the trigger is absorbed (R347). -/
def foresterTrap (s : State) (f cause addr : Nat) (wdog : Bool) (stuck : List (Nat × Nat)) : State :=
  if !fieldPresent s f || s.power.off then s
  else triggerField (tallyAppend s 0x0004 (srcField f) (dataWords [0, cause, addr])) f (if wdog then 4 else 3) stuck

def surveyorTrap (s : State) (cause addr : Nat) (wdog : Bool) (stuck : List (Nat × Nat)) : State :=
  if s.power.off then s
  else triggerDevice (tallyAppend s 0x0004 srcDevice (dataWords [1, cause, addr])) (if wdog then 7 else 6) stuck

/-- A write to SRV_RESET_CTRL (R372). -/
def resetCtrl (s : State) (v : Word) (stuck : List (Nat × Nat)) : State :=
  if deviceInReset s || s.power.off || decide (bits v 31 24 ≠ 0xA5) then s
  else match bits v 9 8 with
    | 1 => (List.range 4).foldl (fun s f => if flag v f then triggerField s f 2 stuck else s) s
    | 2 => triggerDevice s 2 stuck
    | _ => s

/-! ### Fence (R353) and drain timeout (R315) -/

/-- An operation of a context whose generation is stale. -/
def staleOp (s : State) (ctx : Nat) (x : Xfer) : Bool :=
  x.check && decide (x.ctx = ctx) && decide (x.gen ≠ ctxGen (ctxWord s ctx 0))

/-- FIELD_FENCE: a write to FLDn_FENCE. -/
def fieldFence (s : State) (f : Nat) (v : Word) (host : Bool) : State :=
  let o := fieldReg f Reg.FLDn_STATUS
  if host || !fieldPresent s f || fieldInReset s f || deviceInReset s || !flag v 31 then s
  else if (s.field f).fence.isSome then s.raise o (bitMask 27)
  else
    let ctx := bits v 15 0
    let s := (List.range 4).foldl (fun s k =>
      let n := 4 * f + k
      (s.skq n).foldl (fun s q => if staleOp s ctx q.xfer then finishSkq s n q.idx 1 else s) s) s
    let s := (List.range 16).foldl (fun s k => match (s.chan f k).cur with
      | some x => if staleOp s ctx x then finishChan s f k 1 else s
      | none => s) s
    let s := match (s.bkr f).cur with
      | some x => if staleOp s ctx x then buckerEnd (uncount (dropRequests s (.bucker f)) x) f 1 (s.bkr f).done else s
      | none => s
    let s := (s.modField f fun x => { x with fence := some ctx }).raise o (bitMask 28)
    fwRun (s.bump (fieldReg f Reg.FLDn_FENCE_CNT) 1)

/-- FIELD_FENCE_DONE: every aborted operation has completed. -/
def fieldFenceDone (s : State) (f : Nat) : State :=
  if (s.field f).fence.isSome then (s.modField f fun x => { x with fence := none }).lower (fieldReg f Reg.FLDn_STATUS) (bitMask 28) else s

/-- DRAIN_TIMEOUT: CTX_DRAIN_TIMEOUT has elapsed for a context that is torn down (R315). -/
def drainTimeout (s : State) (e : Nat) (stuck : List (Nat × Nat)) : State :=
  if deviceInReset s ∨ quarantined s .ctx e ∨ ctxStateOf s e ≠ 3 ∨ !drainBusy s e then s
  else
    let x := s.fw e
    let s := s.setFw e { x with timeouts := x.timeouts + 1 }
    if x.timeouts = 0 then
      let s := (s.raise Reg.CTX_ERR_STATUS (bitMask 0)).bump Reg.CTX_DRAIN_TIMEOUT_CNT 1
      fieldFence s (ctxHome s e) (BitVec.ofNat 32 (1 <<< 31 + e)) false
    else if bits (ctxWord s e 1) 15 0 ≠ 0 then triggerField s (ctxHome s e) 5 stuck
    else s

/-! ### Stand abort recovery (R359) -/

/-- The last steps of a recovery, once WIN_SYNC reads 0: the job's barrier groups and semaphores, and the report. -/
def standRecovered (s : State) (j by_ : Nat) (groups sems : List Nat) : State :=
  let s := groups.foldl (fun s g => if g < 128 then barCfgWrite s g 0 else s) s
  let s := sems.foldl (fun s i => if semPresent s i then setSemVal s i 0 else s) s
  let head := s.reg Reg.FAB_HEAD
  if activeHead s then notice s 0x04 j by_ 0 else if flag head 31 then headSend s (bits head 3 0) (.report j) none else s

/-- STAND_ABORT_RECOVERY: firmware recovers from the abort of job j. `windows`, `groups`, `sems`: the windows, barrier groups and
semaphores of the job; `moves`: the Residency entries of its steps that are being moved; `by_`: the device that started it. While requests through the windows
are still to finish, the recovery stops there, and a later command of this row goes on (log entry 145). -/
def standRecovery (s : State) (j by_ : Nat) (windows groups sems moves : List Nat) : State :=
  let cores := (List.range (coreCount s.part)).filter fun n =>
    let w := s.reg (Reg.HDG_COREj_JOB + 4 * n)
    flag w 4 && decide (bits w 3 0 = j)
  if deviceInReset s ∨ !jobAborted s j ∨ 16 ≤ j ∨
      (cores.any fun n => !(decide ((s.core n).seq = .trapped) || decide ((s.core n).seq = .stopped)) || !(s.skq n).isEmpty) then s
  else
    let s := cores.foldl (fun s n => resetCoreAlone s n) s
    let s := (s.steps.filter fun t => decide (t.job = some j)).foldl (fun s t => dropStep s t 7) s
    let s := moves.foldl (fun s e => if resLive s e && (decide (resState (resWord s e 0) = 1) || decide (resState (resWord s e 0) = 2)) then
      stopMove s e else s) s
    let s := if windows.any fun i => decide (i < 1024) && winOpen s i then closeWindows s windows else s
    ringsRun (fwRun (if s.heldReqs.any (·.marked) then s else standRecovered s j by_ groups sems))

end Sys2Proof.Machine
end

