-- ==== Sys2Proof/Machine/Trust.lean ====
section
/-! DEFINITION. Start-up and trust (R370, R375–R390): maintenance commands, firmware packages and banks, the end of a device reset,
fuses, attestation, the service port. -/

namespace Sys2Proof.Machine

/-! ### Maintenance commands (R370) -/

def nonceBytes (s : State) : List Byte := regBytes s Reg.TAL_MAINT_NONCEw 4

def maintOp (b : List Byte) : Nat := leField b 4 2

/-- Result code of a maintenance block: the first check that fails. -/
def maintCheck (s : State) (b : List Byte) (port : Bool) : Nat :=
  let op := maintOp b
  let n := leField b 6 2
  if b.length ≠ 512 ∨ leField b 0 4 ≠ 0x544E4D4B ∨ op = 0 ∨ 3 < op ∨ (op = 1 ∧ (n = 0 ∨ 96 < n)) ∨ leField b 28 36 ≠ 0
      ∨ leNat ((slice b 64 384).drop (if op = 1 then 4 * n else 0)) ≠ 0 then 1
  else if !signatureOk s (leField b 24 4) 2 (b.take 448) (slice b 448 64) then 2
  else if slice b 8 16 ≠ nonceBytes s then 3
  else if op = 3 ∧ !port then 4
  else if op = 1 ∧ 256 < s.repairMap.length + n then 5
  else 0

/-- What an accepted block does. -/
def maintApply (s : State) (b : List Byte) : State :=
  let note (s : State) : State := tallyWrite s 0x0030 srcDevice 0 (dataWords [maintOp b, s.repairMap.length])
  match maintOp b with
  | 1 => note { s with repairMap := s.repairMap ++ leWords (slice b 64 (4 * leField b 6 2)) }
  | 2 => note { s with repairMap := [] }
  | _ =>
    let last := (s.reg Reg.TAL_SEQ).toNat
    let s := { s.setReg Reg.TAL_STATUS 0 with tally := [] }
    tallyWrite s 0x0031 srcDevice 0 (dataWords [last])

/-- Check and apply a block: its result code and the state. The nonce is new after every command. -/
def maintRun (s : State) (b : List Byte) (port : Bool) : Nat × State :=
  let c := maintCheck s b port
  let s := if c = 0 then maintApply s b else s.raise Reg.TAL_ERR_STATUS (bitMask 3)
  (c, seedRegs.freshNonce s)

/-- A write of GO to TAL_MAINT_CTRL. -/
def maintHost (s : State) : State :=
  let r := maintRun s (regBytes s Reg.TAL_MAINT_BUFw 128) false
  r.2.setReg Reg.TAL_MAINT_RESULT (BitVec.ofNat 32 (1 <<< 31 + r.1))

/-! ### Firmware packages (R376, R377) -/

def pkgTarget (p : List Byte) : Nat := leField p 6 1
def pkgVersion (p : List Byte) : Nat := leField p 8 4
def pkgSvn (p : List Byte) : Nat := leField p 12 1
def pkgRevoke (p : List Byte) : Nat := leField p 13 1

/-- The fused counter of a target. -/
def fusedSvn (s : State) (target : Nat) : Nat :=
  if target = 0 then bits (s.reg Reg.SRV_SVN) 5 0 else bits (s.reg Reg.SRV_SVN) 13 8

/-- The detail code of the first check that a package fails. -/
def pkgCheck (s : State) (p : List Byte) : Option Nat :=
  let n := leField p 16 4
  if p.length < 256 ∨ leField p 0 4 ≠ 0x46574B49 ∨ leField p 4 2 ≠ 1 ∨ 1 < pkgTarget p ∨ 1 < leField p 7 1 ∨ leField p 14 2 ≠ 0
      ∨ leField p 128 128 ≠ 0 ∨ n = 0 ∨ 2096896 < n ∨ p.length ≠ 256 + n then some 0x21
  else if !signatureOk s (leField p 28 4) 0 (p.take 64) (slice p 64 64) then some 0x22
  else if sha256 (p.drop 256) ≠ slice p 32 32 then some 0x23
  else if pkgSvn p < fusedSvn s (pkgTarget p) then some 0x24
  else if natBit (pkgRevoke p) (leField p 28 4) then some 0x25
  else none

/-- A package of a bank; the packages loaded at manufacture pass. -/
def storedCheck (s : State) (p : Option (List Byte)) (target : Nat) : Option Nat :=
  match p with
  | none => none
  | some b => if b.isEmpty ∨ pkgTarget b ≠ target then some 0x21 else pkgCheck s b

def State.bank (s : State) (b : Nat) : Bank := s.banks[b]?.getD ⟨none, none⟩

def srvCheck (s : State) (b : Nat) : Option Nat := storedCheck s (s.bank b).srv 0
def frsCheck (s : State) (b : Nat) : Option Nat := storedCheck s (s.bank b).frs 1
def bankCheck (s : State) (b : Nat) : Option Nat := (srvCheck s b).orElse fun _ => frsCheck s b

/-! ### Loading (R385) -/

/-- The bank that was booted. -/
def bootedBank (s : State) : Nat := bits (s.reg Reg.SRV_BOOT_STATUS) 28 28

def setPending (s : State) : State :=
  s.setReg Reg.SRV_BOOT_STATUS (setFlag (s.reg Reg.SRV_BOOT_STATUS) 29 (decide (s.bankPtr ≠ bootedBank s)))

/-- Load a package: status, detail, state. The booted bank is never written. -/
def fwLoad (s : State) (p : List Byte) (busy : Bool) : (Nat × Nat) × State :=
  let b := 1 - s.bankPtr
  if busy ∨ b = bootedBank s then ((9, 0), s)
  else match pkgCheck s p with
    | some d => ((0x0B, d), s)
    | none =>
      let k := s.bank b
      ((0, 0), { s with banks := s.banks.setIfInBounds b (if pkgTarget p = 0 then { k with srv := some p } else { k with frs := some p }) })

/-- Activate: the bank pointer names the other bank when both of its packages pass. -/
def fwActivate (s : State) (busy : Bool) : (Nat × Nat) × State :=
  let b := 1 - s.bankPtr
  if busy then ((9, 0), s)
  else match bankCheck s b with
    | some d => ((0x0B, d), s)
    | none => ((0, 0), setPending { s with bankPtr := b })

/-- SRV_FW_RESULT. -/
def fwResult (r : (Nat × Nat) × State) : State :=
  r.2.setReg Reg.SRV_FW_RESULT (BitVec.ofNat 32 (1 <<< 31 + r.1.2 <<< 8 + r.1.1))

/-- LOAD: a write of LOAD to SRV_FW_CTRL. The package is read through the outbound map; `poisoned`: the host answered with an error. -/
def hostLoad (s : State) (p : List Byte) (poisoned busy : Bool) : State :=
  let a := bits (s.reg Reg.SRV_FW_ADDR_HI) 15 0 <<< 32 + bits (s.reg Reg.SRV_FW_ADDR_LO) 31 6 * 64
  let n := (s.reg Reg.SRV_FW_LEN).toNat
  if busy then fwResult ((9, 0), s)
  else match omapCheck s a n false with
    | some w => fwResult ((0x0B, 0x12), omapFail s w)
    | none => if poisoned then fwResult ((2, 0), s) else fwResult (fwLoad s ((p ++ List.replicate n 0).take n) false)

/-- ACTIVATE: a write of ACTIVATE to SRV_FW_CTRL. -/
def hostActivate (s : State) (busy : Bool) : State := fwResult (fwActivate s busy)

/-- A write to SRV_FW_CTRL with both bits, or with neither. -/
def fwCtrlOther (s : State) (v : Word) : State := if bits v 1 0 = 3 then fwResult ((0x0B, 0), s) else s

/-! ### The end of a device reset (R223, R317, R356, R378, R379, R382) -/

/-- Recovery mode: only the always-on domain, the host PHY and the service port run. -/
def enterRecovery (s : State) (detail : Nat) : State :=
  let s := s.setReg Reg.SRV_BOOT_STATUS (BitVec.ofNat 32 (1 <<< 30 + s.bankPtr <<< 28 + detail))
  (List.range 64).foldl (fun s k => if k < 61 then s.setReg (domReg k) 0 else s) { s with toRecovery := false, bootFail := none }

def inRecovery (s : State) : Bool := flag (s.reg Reg.SRV_BOOT_STATUS) 30

/-- Each installed root's signature and manifest digest are checked again. -/
def checkRoots (s : State) : State :=
  (List.range 64).foldl (fun s r =>
    let x := s.root r
    if x.st = 3 ∧ !(signatureOk s (imgKey x.header) 1 (x.header.take 64) (slice x.header 64 64)
        && decide (sha256 x.manifest = imgDigest x.header)) then s.modRoot r fun x => { x with st := 4 }
    else s) s

/-- The budget counters are filled. -/
def fillBudgets (s : State) : State :=
  let s := (List.range (fieldCount s.part)).foldl (fun s f => fwGive s f (nmDataEnd s.part / 4096 * 15 / 16)) s
  fwGive s 5 32768

/-- A version register: of the package that runs, or of the one loaded at manufacture. -/
def setVersion (s : State) (i : Nat) (p : Option (List Byte)) : State :=
  match p with
  | some p => s.setReg (Reg.SRV_FW_VERSIONi + 4 * i) (BitVec.ofNat 32 (pkgVersion p))
  | none => s

/-- The device reaches READY from bank b; `fail`: the detail of a failure on the way. -/
def reachReady (s : State) (b : Nat) (fail : Option Nat) : State :=
  let cause := bits (s.reg Reg.SRV_RESET_STATUS) 7 0
  -- the control cores have been started, so the timestamp counters run (R294, R356)
  let s := { s with runSrv := (s.bank b).srv, runFrs := (s.bank b).frs, bootFail := none, clocks := s.clocks.map fun (c : Clock) => { c with run := true } }
  let s := setVersion (setVersion s 0 s.runSrv) 1 s.runFrs
  let s := s.setReg Reg.SRV_BOOT_STATUS (BitVec.ofNat 32 (fail.isSome.toNat <<< 31 + (decide (s.bankPtr ≠ b)).toNat <<< 29 + b <<< 28 + fail.getD 0))
  let s := tallyWrite s 0x0002 srcDevice 0 (resetData 2 0 cause (devGen s) false s.wfSeq)
  let seq := (s.reg Reg.TAL_SEQ).toNat
  let ver (s : State) (i : Nat) : Nat := (s.reg (Reg.SRV_FW_VERSIONi + 4 * i)).toNat
  let s := tallyWrite s 0x0001 srcDevice 0 (dataWords [cause, ver s 0, ver s 1, fail.getD 0])
  let s := fillBudgets (checkRoots s)
  let s := s.setReg Reg.SRV_RESET_STATUS (setFlag (s.reg Reg.SRV_RESET_STATUS) 31 true)
  noticeHeld { s with wfSeq := 0 } 0x05 0x200 (cause <<< 8 + devGen s) seq

/-- DEVICE_READY: the sequence of R356 ends. `stuck` is for the capture before a second reset, when a Forester package fails. -/
def deviceReady (s : State) (stuck : List (Nat × Nat)) : State :=
  if !deviceInReset s || s.capture.isSome || s.power.off || s.power.standby || s.power.tripped || inRecovery s then s
  else if s.toRecovery then enterRecovery s 0
  else
    let p := s.bankPtr
    let b := if (srvCheck s p).isNone then p else 1 - p
    match srvCheck s b with
    | some d => enterRecovery s d
    | none =>
      match frsCheck s b with
      | none => reachReady s b (if b = p then s.bootFail else srvCheck s p)
      | some d =>
        if (bankCheck s (1 - b)).isNone then startDevice { s with bankPtr := 1 - b, bootFail := some d } 6 stuck
        else enterRecovery s d

/-! ### Fuses (R380) -/

/-- The next fuse that a running package blows; none when it has blown all. -/
def nextFuse (s : State) (p : List Byte) : Option State :=
  if !natBit (leField p 7 1) 0 then none
  else if fusedSvn s (pkgTarget p) < min (pkgSvn p) 63 then
    let w := s.reg Reg.SRV_SVN
    some (s.setReg Reg.SRV_SVN (if pkgTarget p = 0 then setBits w 5 0 (fusedSvn s 0 + 1) else setBits w 13 8 (fusedSvn s 1 + 1)))
  else
    let w := s.reg Reg.SRV_KEY_STATUS
    (firstBelow 8 fun k => natBit (pkgRevoke p) k && !flag w (24 + k)).map fun k => s.setReg Reg.SRV_KEY_STATUS (setFlag w (24 + k) true)

/-- FUSE_ADVANCE: at most `n` fuses are blown, one at a time; a power loss may come before the last. -/
def fuseAdvance : Nat → State → State
  | 0, s => s
  | n + 1, s =>
    let try_ (p : Option (List Byte)) : Option State := p.bind (nextFuse s)
    match (try_ s.runSrv).orElse fun _ => try_ s.runFrs with
    | some t => fuseAdvance n t
    | none => s

/-! ### Attestation (R384) -/

/-- The digest of a running package; free for one loaded at manufacture, whose bytes the model does not hold. -/
def pkgDigest (s : State) (p : Option (List Byte)) : List Byte × State :=
  match p with
  | some p => (sha256 p, s)
  | none => (leBytes 32 (Config.fresh s.freeCtr), s.tickFree)

/-- The report for a nonce, and the state after its free values. -/
def attestReport (s : State) (nonce : List Byte) : List Byte × State :=
  let cap := (s.reg Reg.SRV_CAP1).toNat
  let boot := (s.reg Reg.SRV_BOOT_STATUS).toNat
  let roots := (List.range 64).filter fun r => decide ((s.root r).st ≠ 0)
  let d0 := pkgDigest s s.runSrv
  let d1 := pkgDigest d0.2 s.runFrs
  let t := stamp d1.2 4
  let body : List Byte := leBytes 4 0x54414B4E ++ leBytes 2 1 ++ leBytes 1 (natBits cap 7 0) ++ leBytes 1 (natBits cap 15 8)
    ++ regBytes s Reg.SRV_UIDw 4 ++ (nonce ++ List.replicate 32 0).take 32 ++ leBytes 1 (fusedSvn s 0) ++ leBytes 1 (fusedSvn s 1)
    ++ leBytes 1 (natBits boot 28 28 + 2 * natBits boot 31 31) ++ leBytes 1 roots.length ++ leBytes 4 s.boots ++ d0.1 ++ d1.1
    ++ regBytes s Reg.SRV_FW_VERSIONi 2 ++ leBytes 8 t.1 ++ leBytes 48 0
    ++ roots.flatMap fun r =>
      let x := s.root r
      leBytes 1 r ++ leBytes 1 (x.st <<< 5 + x.near.toNat <<< 3) ++ leBytes 2 (manModel x.manifest) ++ leBytes 2 (manVersion x.manifest)
        ++ leBytes 2 0 ++ ((imgDigest x.header) ++ List.replicate 32 0).take 32
  (body ++ leBytes 64 (Config.fresh t.2.freeCtr), t.2.tickFree)

/-- ATTEST_GO. -/
def attestGo (s : State) (busy : Bool) : State :=
  let o := Reg.SRV_ATTEST_STATUS
  if busy then s.raise o (bitMask 30)
  else
    let r := attestReport s (regBytes s Reg.SRV_ATTEST_NONCEw 8)
    let s := (leWords r.1).zipIdx.foldl (fun s p => s.setReg (Reg.SRV_ATTEST_BUFw + 4 * p.2) p.1) r.2
    s.setReg o (BitVec.ofNat 32 (1 <<< 31 + r.1.length))

/-! ### The service port (R386–R388) -/

/-- The port answers a command now: enabled, powered, no command in progress, and the Surveyor, or the ROM in recovery mode, runs. -/
def svcOpen (s : State) : Bool :=
  flag (s.reg Reg.USB_SVC_CTRL) 0 && domOn s 62 && !s.power.off && !s.power.tripped && (!deviceInReset s || inRecovery s)
    && !((List.range 64).any fun r => (s.root r).op.any fun x => x.port.isSome)

/-- A command has arrived, so the port is attached (R299; log entry 136). -/
def svcTake (s : State) (op : Nat) : State :=
  (s.setReg Reg.USB_SVC_STATUS (BitVec.ofNat 32 (3 <<< 30 + op % 256))).raise Reg.USB_STATUS (bitMask 2)

/-- Its response. -/
def svcAnswer (s : State) (code detail tag : Nat) (payload : List Byte) : State :=
  (s.emit (.service (answerOp.svcResponse code detail tag 0 payload))).bump Reg.USB_SVC_CMD_CNT 1

/-- A command that recovery mode does not accept. -/
def svcNormal (s : State) (tag : Nat) (f : State → State) : State :=
  if inRecovery s then svcAnswer s 0x0C 0x20 tag [] else f s

/-- The IDENTIFY payload. -/
def identifyBytes (s : State) : List Byte :=
  regBytes s Reg.SRV_CAP0 2 ++ regBytes s Reg.SRV_BOOT_STATUS 2 ++ regBytes s Reg.SRV_FW_VERSIONi 2 ++ regBytes s Reg.SRV_UIDw 4
    ++ nonceBytes s ++ List.replicate 8 0

def svcIdentify (s : State) (tag : Nat) : State := svcAnswer (svcTake s 0x01) 0 0 tag (identifyBytes s)

/-- A Tally slot as the port returns it, and the flag of a damaged record. -/
def talSlot (s : State) (i : Nat) : List Byte × Bool :=
  match storeGet none s.tally (i % 32768) with
  | none => (List.replicate 128 0, false)
  | some r => let bs := leBytes 128 r.toNat; (bs, decide (crc32 (bs.take 124) ≠ leField bs 124 4))

def svcTally (s : State) (tag first count : Nat) : State :=
  let s := svcTake s 0x02
  if count = 0 ∨ 256 < count then svcAnswer s 0x0B 0x14 tag []
  else
    let l := (List.range count).map fun i => talSlot s (first + i)
    let s := if l.any (·.2) then s.raise Reg.TAL_ERR_STATUS (bitMask 0) else s
    svcAnswer s 0 0 tag (l.flatMap (·.1))

def svcWindfall (s : State) (tag arg : Nat) : State :=
  let bs := (s.windfall[natBits arg 16 16]?).getD []
  svcAnswer (svcTake s 0x03) 0 0 tag ((slice bs (4096 * natBits arg 9 0) 4096 ++ List.replicate 4096 0).take 4096)

def svcAttest (s : State) (tag : Nat) (nonce : List Byte) (busy : Bool) : State :=
  svcNormal (svcTake s 0x04) tag fun s =>
    if busy then svcAnswer s 9 0 tag []
    else
      let r := attestReport s nonce
      svcAnswer r.2 0 0 tag r.1

def svcCert (s : State) (tag : Nat) : State :=
  let n := bits (s.reg Reg.SRV_CERT_LEN) 11 0
  svcAnswer (svcTake s 0x05) 0 0 tag ((regBytes s Reg.SRV_CERTw 512).take n)

def svcLoad (s : State) (tag : Nat) (p : List Byte) (busy : Bool) : State :=
  let r := fwLoad (svcTake s 0x10) p busy
  svcAnswer r.2 r.1.1 r.1.2 tag []

def svcActivate (s : State) (tag : Nat) (busy : Bool) : State :=
  let r := fwActivate (svcTake s 0x11) busy
  svcAnswer r.2 r.1.1 r.1.2 tag []

/-- IMAGE_INSTALL and IMAGE_REPAIR: the answer comes at the end of the operation. -/
def svcImage (s : State) (tag op : Nat) (q : LoadReq) : State :=
  svcNormal (svcTake s op) tag fun s => fwRun (loadRequest s { q with desc := none, port := some tag, addr := 0 })

/-- What IMAGE_INSTALL and IMAGE_REPAIR ask for: ARG names the root, and for an install its two flags (R285, R388). -/
def installReq (arg len : Nat) (env : DescEnv) : LoadReq :=
  { kind := .install, root := arg % 256, makeCurrent := natBit arg 8, streamOnly := natBit arg 9, desc := none, port := none, addr := 0,
    bytes := len, env }
def repairReq (arg len : Nat) (env : DescEnv) : LoadReq :=
  { kind := .repair, root := arg % 256, makeCurrent := false, streamOnly := false, desc := none, port := none, addr := 0, bytes := len, env }

def svcMaint (s : State) (tag : Nat) (b : List Byte) : State :=
  let r := maintRun (svcTake s 0x30) b true
  svcAnswer r.2 (if r.1 = 0 then 0 else 0x0B) r.1 tag []

/-- RESET: the response, then the reset; accepted during a device reset too, and absorbed there. -/
def svcReset (s : State) (tag : Nat) (recovery : Bool) (stuck : List (Nat × Nat)) : State :=
  if !flag (s.reg Reg.USB_SVC_CTRL) 0 || !domOn s 62 || s.power.off || s.power.tripped then s
  else
    let s := svcAnswer (svcTake s 0x40) 0 0 tag []
    let again := inRecovery s
    let s := if recovery then { s with toRecovery := true } else s
    if again then startDevice (s.setReg Reg.SRV_BOOT_STATUS 0) 8 stuck else triggerDevice s 8 stuck

def svcReserved (s : State) (tag op : Nat) : State := svcAnswer (svcTake s op) 0x0B 0x10 tag []

/-- A maintenance command by the path it takes; the payload of the port answers with the code as detail. -/
def maintCommand (s : State) (op : Nat) (m : MaintSrc) : State :=
  match m with
  | .host => if deviceInReset s ∨ s.power.off ∨ maintOp (regBytes s Reg.TAL_MAINT_BUFw 128) ≠ op then s else maintHost s
  | .port tag b => if !svcOpen s ∨ maintOp b ≠ op then s else svcMaint s tag b

end Sys2Proof.Machine
end

