-- ==== Sys2Proof/Machine/Power.lean ====
section
/-! DEFINITION. Power, clocks and temperature (R391–R406, R411): domains, operating points, the power setting, idle and standby, thermal
limits, loss of power. -/

namespace Sys2Proof.Machine

/-- Flags of PWR_ERR_STATUS: 0 CFG_REJECT, 1 THERM_THROTTLE, 2 THERM_CRIT, 3 OVER_SETTING, 5 HOST_WR_DROP, 6 SUPPLY_LOW. -/
def pwrFlag (s : State) (i : Nat) : State := s.raise Reg.PWR_ERR_STATUS (bitMask i)

/-- The device runs none of its work: in reset, without power, tripped or in standby. -/
def isDown (s : State) : Bool := deviceInReset s || s.power.off || s.power.tripped || s.power.standby

/-! ### Operating points (R395, R396) -/

def opReg (n : Nat) : Nat := Reg.PWR_COREn_OP + 4 * n
def opNow (s : State) (n : Nat) : Nat := bits (s.reg (opReg n)) 10 8
def opMax (p : Part) : Nat := if p = .fn0102 then 2 else 4

/-- The requested point takes effect. -/
def opApply (s : State) (n : Nat) : State :=
  let w := s.reg (opReg n)
  let p := min (bits w 2 0) (opMax s.part)
  let s := if p = bits w 10 8 then s else s.bump Reg.PWR_OP_CHANGE_CNT 1
  s.setReg (opReg n) (setFlag (setBits w 10 8 p) 31 false)

/-- A request by the Surveyor: at once when the Sequencer is STOPPED or nothing is to be waited for. -/
def opRequest (s : State) (n p : Nat) : State :=
  let s := s.setReg (opReg n) (setFlag (setBits (s.reg (opReg n)) 2 0 p) 31 true)
  if (s.core n).seq = .stopped ∨ bits (s.reg Reg.PWR_OP_DEFER) 23 0 = 0 then opApply s n else s

/-- CORE_OP_WRITE. -/
def coreOpWrite (s : State) (n : Nat) (v : Word) (host : Bool) : State :=
  if !corePresent s n then s else if host then pwrFlag s 5 else opRequest s n (bits v 2 0)

def opPending (s : State) (n : Nat) : Bool := corePresent s n && flag (s.reg (opReg n)) 31

/-- The Sequencer holds on a WAIT of local semaphore 0. -/
def holdsOnStep (s : State) (n : Nat) : Bool :=
  decide ((s.core n).seq = .running) && match (fetchBundle s n).1 with
    | some w => decide (natBits (splitBundle w).hdg 15 8 = 0) && waitUnmet s n (splitBundle w).hdg
    | none => false

/-- CORE_OP_APPLY. -/
def coreOpApply (s : State) (n : Nat) : State :=
  if opPending s n && (decide ((s.core n).seq = .stopped) || holdsOnStep s n) then opApply s n else s

/-- OP_DEFER_EXPIRY: the next bundle boundary. -/
def opDeferExpiry (s : State) (n : Nat) : State := if opPending s n then opApply s n else s

/-- Cores whose base domain is ON. -/
def activeCores (s : State) : List Nat := (List.range (coreCount s.part)).filter fun n => domOn s (3 * n + 2)

/-- Lower, or raise, every active core by one point. -/
def lowerAll (s : State) : State := (activeCores s).foldl (fun s n => if opNow s n = 0 then s else opRequest s n (opNow s n - 1)) s
def raiseAll (s : State) : State :=
  (activeCores s).foldl (fun s n => if opNow s n < opMax s.part then opRequest s n (opNow s n + 1) else s) s

/-- Power of one core at full Tine activity, in mW (R395). -/
def corePower (p : Nat) : Nat := match p with | 0 => 360 | 1 => 640 | 2 => 1040 | 3 => 1600 | _ => 2440

/-- The power setting in mW. -/
def settingMw (s : State) : Nat := 50 * bits (s.reg Reg.PWR_SETTING) 11 0

/-- The starting point (R398): the highest point that fits beside the non-core power. -/
def startPoint (s : State) (nonCore : Nat) : State :=
  let l := activeCores s
  let fit := (List.range (opMax s.part + 1)).filter fun p => decide (corePower p * l.length + nonCore ≤ settingMw s)
  let p := fit.foldl max 0
  l.foldl (fun s n => if opNow s n = p then s else opRequest s n p) s

/-! ### Domains (R391–R394, R403) -/

def setDomState (s : State) (k v : Nat) : State := s.setReg (domReg k) (setBits (s.reg (domReg k)) 9 8 v)

/-- A unit that the part lacks has no domain (R4, R411). -/
def domPresent (s : State) (k : Nat) : Bool := decide (k < 64) && !regAbsent s (domReg k)

/-- The Skidder or the Bucker of a Field holds a transfer. -/
def moversBusy (s : State) (f : Nat) : Bool :=
  (s.bkr f).cur.isSome || !(s.bkr f).queue.isEmpty || (List.range 16).any (fun k => (s.chan f k).cur.isSome || !(s.chan f k).queue.isEmpty)
    || (List.range 4).any fun k => !(s.skq (4 * f + k)).isEmpty

/-- The state that a domain is in or is switching to. -/
def domFrom (s : State) (k : Nat) : Nat := if domState s k = 3 then bits (s.reg (domReg k)) 1 0 else domState s k

/-- A request takes the domain out of ON. -/
def domLeaves (s : State) (k : Nat) (v : Word) : Bool := decide (domFrom s k = 2) && decide (bits v 1 0 ≠ 2)

/-- Domains that a kernel of root r on core n uses: its core's, its Field's and their near memory, and the memories that hold the root's
segments (R394). -/
def kernelDoms (s : State) (n r : Nat) : List Nat :=
  let near (f : Nat) : List Nat := [48 + f, 56 + f / 2]
  [3 * n, 3 * n + 1, 3 * n + 2] ++ near (n / 4) ++ (List.range (s.root r).segs.length).flatMap fun i => match placeOf (segBase s r i) with
    | .ws f _ => [52 + f]
    | .nm f _ => near f
    | _ => []

/-- While a context is ACTIVE, the Surveyor keeps ON what a loaded kernel of a bound root uses (R394). -/
def domNeeded (s : State) (k : Nat) : Bool :=
  ((liveCtxs s).any fun e => decide (ctxStateOf s e = 1)) && (List.range (coreCount s.part)).any fun n => match (s.core n).kernel with
    | some r => ((liveCtxs s).any fun e => decide (ctxRoot s e = r)) && (kernelDoms s n r).contains k
    | none => false

/-- Why a request is refused (R392, R403); the reserved target is refused too (log entry 143). -/
def domRefused (s : State) (k : Nat) (v : Word) : Bool :=
  let t := bits v 1 0
  let leave := domLeaves s k v
  decide (k = 63) || decide (t = 3) || (decide (t = 1) && !(decide (k < 48) && decide (k % 3 = 2)))
    || (leave && decide (k < 48) && decide (k % 3 < 2) && decide ((s.core (k / 3)).seq ≠ .stopped))
    || (leave && decide (k < 48) && decide (k % 3 = 2) && (domOn s (k - 1) || domOn s (k - 2)))
    || (leave && decide (48 ≤ k) && decide (k < 52) && (((List.range 4).any fun i => domOn s (3 * (4 * (k - 48) + i) + 2)) || moversBusy s (k - 48)))
    || (leave && decide (56 ≤ k) && decide (k < 58) && (domOn s (48 + 2 * (k - 56)) || domOn s (49 + 2 * (k - 56))))
    || (flag v 4 && decide (48 ≤ k) && decide (k < 52)
      && (List.range 4).any fun i => domOn s (3 * (4 * (k - 48) + i) + 2) && decide (0 < opNow s (4 * (k - 48) + i)))

/-- Registers and state of the Tines, or of the Thresher and the Vector Unit, lose their contents. -/
def clearUnit (s : State) (k : Nat) : State :=
  let n := k / 3
  let lo := if k % 3 = 0 then Reg.TINEn_CAP else Reg.VUn_CAP
  let hi := if k % 3 = 0 then Reg.VUn_CAP else Reg.HRWn_CAP
  let s := { s with regs := storeErase (fun o => decide (coreReg n lo ≤ o) && decide (o < coreReg n hi)) s.regs }
  s.modCore n fun c => if k % 3 = 0 then { c with tines := Vector.replicate 4 {} }
    else { c with thr := {}, sht := [], vuq := [], sregs := Vector.replicate 32 (0, false) }

/-- The partition registers of a core, with their offsets. -/
def partWords (s : State) (n : Nat) : List (Nat × Word) :=
  (List.range 8).map fun k => (coreReg n (Reg.SPMn_PARTk + 4 * k), s.reg (coreReg n (Reg.SPMn_PARTk + 4 * k)))

/-- RETAIN keeps scratchpad data, written bits, partitions and Harrow table slots; everything else is as after core reset. -/
def retainCore (s : State) (n : Nat) : State :=
  let c := s.core n
  let s := (partWords s n).foldl (fun s q => s.setReg q.1 q.2) (resetCore s n)
  s.setCore n { spm := c.spm, written := c.written, hrw := { slots := c.hrw.slots } }

/-- A Field's infrastructure restarts from the 0.05 ms row of R355. -/
def restartField (s : State) (f : Nat) : State :=
  let s := clearMovers s f
  let s := { s with regs := storeErase (fieldClears f) s.regs, notify := s.notify.setIfInBounds f [] }
  let s := s.setClock f ⟨0, false⟩
  setFldStatus (s.modField f fun x => { x with ceCount := 0, rdPart := 0, progPart := 0, ppr := none, fence := none }) f 0x80000000

/-- What leaving a state and entering another does to the contents of a domain. -/
def domEffect (s : State) (k t : Nat) : State :=
  let now := domFrom s k
  if k < 48 then
    if k % 3 = 2 then (if now = 2 ∧ t = 1 then retainCore s (k / 3) else if now = 0 then resetCore s (k / 3) else s)
    else if t = 0 then clearUnit s k else s
  else if k < 52 then (if t = 2 ∧ now ≠ 2 then fwRun (restartField s (k - 48)) else s)
  else s

/-- DOMAIN_SWITCH: a write to PWR_DOMk_CTRL. The Surveyor does not switch off what it keeps ON (R394; log entry 144). -/
def domainSwitch (s : State) (k : Nat) (v : Word) (host : Bool) : State :=
  if !domPresent s k then s
  else if host then pwrFlag s 5
  else if domLeaves s k v && domNeeded s k then s
  else if domRefused s k v then pwrFlag s 0
  else
    let t := bits v 1 0
    let same := decide (domFrom s k = t)
    let s := if same then s else setDomState (domEffect s k t) k 3
    let w := setBits (s.reg (domReg k)) 1 0 t
    s.setReg (domReg k) (if 48 ≤ k ∧ k < 52 then setFlag w 4 (flag v 4) else w)

/-- DOMAIN_SWITCH_DONE: the domain reaches the requested state; what waited for it goes on. `nonCore`: the non-core power in mW when a core
is powered (R398). -/
def domainSwitchDone (s : State) (k nonCore : Nat) : State :=
  if !domPresent s k ∨ domState s k ≠ 3 then s
  else
    let t := bits (s.reg (domReg k)) 1 0
    let s := setDomState s k t
    if k < 48 ∧ k % 3 = 2 ∧ t = 2 then ringsRun (fwRun (pumpScratch (releaseHeld (fifoRun (startPoint s nonCore))) (k / 3)))
    else if 48 ≤ k ∧ k < 52 ∧ t = 2 then makeReady s (k - 48)
    else if 58 ≤ k ∧ k < 61 then
      let ports := [2 * (k - 58), 2 * (k - 58) + 1]
      if t = 0 then fwRun (ports.foldl (fun s p => if p < portCount s.part ∧ portState s p ≠ 0 then portDown s p else s) s)
      else ports.foldl portTraining s
    else if 48 ≤ k ∧ t = 2 then ringsRun (fwRun (releaseHeld s))
    else s

/-! ### Power setting and measurement (R397, R398) -/

/-- POWER_SETTING_WRITE. -/
def powerSetting (s : State) (v : Word) (nonCore : Nat) : State :=
  let r := s.reg Reg.PWR_RANGE
  let x := bits v 11 0
  let y := max (bits r 15 0) (min (bits r 31 16) x)
  let s := if x = y then s else pwrFlag s 0
  startPoint (s.setReg Reg.PWR_SETTING (BitVec.ofNat 32 y)) nonCore

/-- The Surveyor's decision at a 10 ms average, in units of 0.05 W (R398). -/
def powerDecide (s : State) (avg : Nat) : State :=
  let a := 50 * avg
  let err := avg + 100
  let set := settingMw s
  let s := s.setReg Reg.PWR_STATUS (setBits (s.reg Reg.PWR_STATUS) 31 20 avg)
  let s := if set + err < a then pwrFlag s 3 else s
  let l := activeCores s
  if set < a + err then
    if l.all fun n => decide (opNow s n = 0) then { s with power := { s.power with stepDelay := s.power.stepDelay + 1 } } else lowerAll s
  else
    let add := (l.map fun n => if opNow s n < opMax s.part then corePower (opNow s n + 1) - corePower (opNow s n) else 0).sum
    if s.power.throttled ∨ set ≤ a + add then s
    else if 0 < s.power.stepDelay then { s with power := { s.power with stepDelay := 0 } }
    else raiseAll s

/-- POWER_SAMPLE: one sample of package power, in units of 0.05 W; every hundredth makes an average. -/
def powerSample (s : State) (x : Nat) : State :=
  let l := x :: s.power.samples
  if l.length < 100 then { s with power := { s.power with samples := l } }
  else powerDecide { s with power := { s.power with samples := [] } } (l.sum / l.length)

/-! ### Idle and standby (R399, R400) -/

/-- A context ACTIVE or DRAINING, or a MODEL operation in progress. -/
def workInProgress (s : State) : Bool :=
  (liveCtxs s).any (fun e => decide (ctxStateOf s e = 1) || decide (ctxStateOf s e = 3)) || (List.range 64).any fun r => (s.root r).op.isSome

/-- Switch domains OFF without a request: state and target; the ports of a fabric domain go DOWN. -/
def domsOff (s : State) (l : List Nat) : State :=
  let s := (List.range (portCount s.part)).foldl (fun s p => if l.contains (58 + p / 2) ∧ portState s p ≠ 0 then portDown s p else s) s
  l.foldl (fun s k =>
    if domPresent s k then
      let s := if k < 48 ∧ k % 3 < 2 then clearUnit s k else s
      s.setReg (domReg k) (setBits (setBits (s.reg (domReg k)) 1 0 0) 9 8 0)
    else s) s

/-- IDLE: a write of MODE = IDLE to PWR_MODE. -/
def idleEnter (s : State) : State :=
  if workInProgress s then pwrFlag s 0
  else fwRun ((domsOff s (List.range 61)).setReg Reg.PWR_STATUS (setBits (s.reg Reg.PWR_STATUS) 1 0 1))

/-- IDLE_WAKE: a doorbell or a BAR0 access; `doms`: the domains that the work needs. -/
def idleWake (s : State) (doms : List Nat) : State :=
  if bits (s.reg Reg.PWR_STATUS) 1 0 = 1 then
    doms.foldl (fun s k => domainSwitch s k 2 false) (s.setReg Reg.PWR_STATUS (setBits (s.reg Reg.PWR_STATUS) 1 0 0))
  else s

/-- STANDBY: a write of MODE = STANDBY with KEY to PWR_MODE. -/
def standbyEnter (s : State) : State :=
  if workInProgress s || (List.range 64).any fun r => (s.root r).near && decide ((s.root r).st ≠ 0) then pwrFlag s 0
  else
    let s := fwRun (domsOff s (List.range 63))
    { s with nm := [], nmWb := [], power := { s.power with standby := true } }

/-- A write to PWR_MODE. -/
def modeWrite (s : State) (v : Word) : State :=
  match bits v 1 0 with
  | 0 => idleWake s []
  | 1 => idleEnter s
  | 2 => if bits v 31 24 = 0xA5 then standbyEnter s else s
  | _ => s

/-- STANDBY_EXIT: PERST#, STBY_N or VBUS_DET. -/
def standbyExit (s : State) (stuck : List (Nat × Nat)) : State :=
  if s.power.standby && !s.power.off && !deviceInReset s then startDevice s 0x0B stuck else s

/-! ### Temperature (R401) -/

/-- Is sensor i fitted: that of a Field's corner of the die, or of a Field's weight-store stack (R4)? -/
def sensorPresent (s : State) (i : Nat) : Bool := fieldPresent s (i % 4) && (decide (i < 4) || hasWeightStore s.part)

/-- The sensors' readings. -/
def setTemps (s : State) (l : List Nat) : State :=
  (l.take 8).zipIdx.foldl (fun s t => if !sensorPresent s t.2 then s else s.setReg (Reg.PWR_TEMPs + 4 * t.2) (BitVec.ofNat 32 (t.1 % 256))) s

def tempAt (s : State) (i : Nat) : Nat := bits (s.reg (Reg.PWR_TEMPs + 4 * i)) 7 0

/-- Tj: the highest of the four die sensors. -/
def junction (s : State) : Nat := ((List.range 4).map (tempAt s)).foldl max 0

/-- THROTTLE_C: values outside 85 to 100 act as the nearest limit. -/
def throttleC (s : State) : Nat := max 85 (min 100 (bits (s.reg Reg.PWR_THROTTLE_C) 7 0))

/-- A stack's programming is paused for its temperature. -/
def stackThrottled (s : State) : Bool := (List.range 4).any fun f => (s.field f).wsPaused

/-- THERMAL_THROTTLE_TICK: one millisecond. -/
def throttleTick (s : State) (temps : List Nat) : State :=
  let s := setTemps s temps
  if throttleC s ≤ junction s then
    let s := lowerAll (pwrFlag s 1)
    { s.bump Reg.PWR_THROTTLE_CNT 1 with power := { s.power with throttled := true } }
  else if s.power.crit || stackThrottled s then s.bump Reg.PWR_THROTTLE_CNT 1
  else s

/-- THROTTLE_RAISE: ten milliseconds. -/
def throttleRaise (s : State) (temps : List Nat) : State :=
  let s := setTemps s temps
  if s.power.throttled ∧ junction s + 5 < throttleC s then
    let s := raiseAll s
    let top := (activeCores s).all fun n => decide (bits (s.reg (opReg n)) 2 0 = opMax s.part)
    { s with power := { s.power with throttled := !top } }
  else s

/-- THERMAL_CRIT. -/
def thermalCrit (s : State) (temps : List Nat) : State :=
  let s := setTemps s temps
  if 105 ≤ junction s then pwrFlag { s with power := { s.power with crit := true } } 2 else s

/-- THERMAL_CRIT_END: clocks restart, and what waited in the FIFOs is applied in order. -/
def thermalCritEnd (s : State) (temps : List Nat) : State :=
  let s := setTemps s temps
  if s.power.crit ∧ junction s < 100 then
    fifoRun { s with power := { s.power with crit := false } }
  else s

/-- THERMAL_TRIP: every domain but the always-on one is switched off, and the RESET record is written. -/
def thermalTrip (s : State) (temps : List Nat) : State :=
  let s := setTemps s temps
  let hot := decide (115 ≤ junction s) || (List.range 4).any fun i => decide (100 ≤ tempAt s (4 + i))
  if !hot || s.power.tripped || s.power.off then s
  else
    let s := domsOff (s.emit .thermTrip) (List.range 63)
    let s := tallyWrite s 0x0002 srcDevice 0 (resetData 2 0 0x0C ((devGen s + 1) % 256) false 0)
    { s with power := { s.power with tripped := true } }

/-- THERMAL_TRIP_RECOVERY. -/
def tripRecovery (s : State) (temps : List Nat) (stuck : List (Nat × Nat)) : State :=
  let s := setTemps s temps
  if s.power.tripped && !s.power.off && decide (junction s < 95) then
    startDevice { s with capture := none, captureWaits := [], power := { s.power with tripped := false } } 0x0C stuck
  else s

/-- STACK_PROGRAMMING_PAUSE and STACK_PROGRAMMING_RESUME. -/
def stackPause (s : State) (f temp : Nat) : State :=
  if f < 4 ∧ sensorPresent s (4 + f) ∧ 85 ≤ temp then pwrFlag (wsPause (s.setReg (Reg.PWR_TEMPs + 16 + 4 * f) (BitVec.ofNat 32 (temp % 256))) f true) 1 else s
def stackResume (s : State) (f temp : Nat) : State :=
  if f < 4 ∧ sensorPresent s (4 + f) ∧ temp < 80 then wsPause (s.setReg (Reg.PWR_TEMPs + 16 + 4 * f) (BitVec.ofNat 32 temp)) f false else s

/-! ### What other pins show (R408) -/

/-- ALERT_N is asserted. -/
def alertAsserted (s : State) : Bool := s.reg Reg.PWR_ERR_STATUS &&& s.reg Reg.PWR_ERR_EVENT_EN ≠ 0

/-- The SMBus target reads PWR_STATUS and PWR_TEMPs whatever the power state; none elsewhere. -/
def smbusRead (s : State) (o : Nat) : Option Word :=
  if o = Reg.PWR_STATUS ∨ (Reg.PWR_TEMPs ≤ o ∧ o < Reg.PWR_TEMPs + 32 ∧ o % 4 = 0) then some (regValue s o) else none

/-! ### Loss of power (R405, R406) -/

/-- The POWER_LOSS record, and SUPPLY_LOW. -/
def recordLoss (s : State) (src mask : Nat) : State :=
  let s := tallyWrite s 0x0060 srcDevice 1 (leBytes 1 src ++ leBytes 1 (mask % 8 ||| 1 <<< src))
  pwrFlag { s with power := { s.power with lost := true } } 6

/-- POWER_LOSS: source `src` has detected it first, and the sources of `mask` are asserted. -/
def powerLoss (s : State) (src mask : Nat) : State :=
  if s.power.off || s.power.lost || decide (2 < src) then s else recordLoss s src mask

/-- PWRGOOD_DEASSERT. Where no loss has been recorded, which source the record names is a free value. -/
def pwrgoodDeassert (s : State) : State :=
  if s.power.off then s
  else
    let s := if s.power.lost then s else
      recordLoss s.tickFree.tickFree (Config.fresh s.freeCtr % 3) (Config.fresh (s.freeCtr + 1))
    { s with power := { s.power with off := true } }

/-- POWER_ON: PWRGOOD is asserted with these straps. Memory contents, tables and rings are lost. -/
def powerOn (s : State) (devid hostSel : Nat) : State :=
  if !s.power.off then s
  else
    let s := { s with straps := devid % 16, hostSel := hostSel % 4, power := {}, omapMarks := [] }
    assertDevice s 1 0 true

end Sys2Proof.Machine
end

