-- ==== Sys2Proof/Machine/RegAccess.lean ====
section
/-! DEFINITION. Writes to registers and whole reads of them (R9, R45, R393, R412): a write whose register acts is handed to its
operation, every other one stores, sets or clears fields as the access type states. -/

namespace Sys2Proof.Machine

/-- A write of a register without an action of its own. -/
def plainWrite (s : State) (o : Nat) (v : Word) : State :=
  match regRow o with
  | some r => (storeBits s o v).lower o (v &&& BitVec.ofNat 32 r.w1c)
  | none => s

/-- A write to a register of core n. -/
def writeCoreReg (s : State) (n x : Nat) (v : Word) : State :=
  let o := coreReg n x
  let stopped := decide ((s.core n).seq = .stopped)
  if x = Reg.COREn_CTRL then coreCtrl s n v
  else if x = Reg.COREn_ENTRY then (if stopped then plainWrite s o v else coreReject s n)
  else if Reg.COREn_ARr ≤ x ∧ x < Reg.COREn_ARr + 128 then
    (if !stopped then coreReject s n else if x = Reg.COREn_ARr then s else plainWrite s o v)
  else if x = Reg.SPMn_SWEEP then sweepStart s n v
  else if Reg.SPMn_PARTk ≤ x ∧ x < Reg.SPMn_PARTk + 32 then partitionWrite s n ((x - Reg.SPMn_PARTk) / 4) v
  else if x = Reg.VUn_SHT_CTRL then (if flag v 0 then shtLatch s n else if flag v 1 then shtCommit s n else s)
  else if x = Reg.HRWn_LANE_CTRL then chanLanes s n v
  else if x = Reg.HRWn_TBL_CTRL then
    (if flag v 8 then tblLoad s n (bits v 3 0) (bits v 7 4) (bits (s.reg (coreReg n Reg.HRWn_TBL_ADDR)) 22 0) true
     else if flag v 9 then tblInvalidate s n (bits v 3 0) else s)
  else plainWrite s o v

/-- A write to a register of Field f. -/
def writeFieldReg (s : State) (f x : Nat) (v : Word) (host : Bool) : State :=
  let o := fieldReg f x
  if x = Reg.FLDn_CTRL then (if host || !flag v 0 then s else triggerField s f 0x0A [])
  else if x = Reg.FLDn_STATUS then s.lower o (v &&& bitMask 27)
  else if x = Reg.FLDn_CORE_RESET then coreReset s f v host
  else if x = Reg.FLDn_FENCE then fieldFence s f v host
  else if x = Reg.SKDn_ABORT then skidderAbort s f v
  else if Reg.SKDn_CHk_POST_LO ≤ x ∧ x < Reg.SKDn_CHk_POST_LO + 128 then
    (if x % 8 = 0 then s.setReg o v else chanPost s f ((x - Reg.SKDn_CHk_POST_LO) / 8) v)
  else if x = Reg.BKRn_POST_LO then s.setReg o v
  else if x = Reg.BKRn_POST_HI then buckerPost s f v
  else if x = Reg.NMn_CE_THRESH then (plainWrite s o v).modField f fun y => { y with ceCount := 0 }
  else if x = Reg.NMn_PPR_CTRL then pprRequest s f v (decide (0 < bits (s.reg (fieldReg f Reg.NMn_PPR_STATUS)) 7 0))
  else plainWrite s o v

/-- A write of HST_CORR_HI, HST_ERR_EQ, a ring, a queue, the MSI-X table or the outbound map, which the host alone writes (R184). -/
def writeHostReg (s : State) (o : Nat) (v : Word) (host : Bool) : State :=
  if o = Reg.HST_CORR_HI then correlationArm s v
  else if o = Reg.HST_CORR_LO then s.setReg o v
  else if o = Reg.HST_ERR_EQ then releaseErrHeld (plainWrite s o v)
  else if 0x210000 ≤ o ∧ o < 0x218000 then
    let r := (o - 0x210000) / 32
    match o % 32 with
    | 0 => baseWrite s o (ringEn s r) false v
    | 4 => baseWrite s o (ringEn s r) true v
    | 8 => ringCfgWrite s r v
    | _ => s
  else if 0x220000 ≤ o ∧ o < 0x220800 then
    let q := (o - 0x220000) / 32
    match o % 32 with
    | 0 => baseWrite s o (eqEn s q) false v
    | 4 => baseWrite s o (eqEn s q) true v
    | 8 => eqCfgWrite s q v
    | _ => s
  else if Reg.MSIX_TABLE ≤ o ∧ o < Reg.MSIX_TABLE + 1024 ∧ o % 16 = 12 then
    -- unmasking a vector sends what is pending (R293)
    let k := (o - Reg.MSIX_TABLE) / 16
    let s := plainWrite s o v
    let b := Reg.MSIX_PBA + 4 * (k / 32)
    if !flag (s.reg o) 0 && flag (s.reg b) (k % 32) then (s.lower b (bitMask (k % 32))).emit (.msix k) else s
  else if Reg.HST_OMAPi_W0 ≤ o ∧ o < Reg.HST_OMAPi_W0 + 0x10000 ∧ !host then s
  else if o = Reg.HST_OMAP_SYNC then omapSync s v
  else plainWrite s o v

/-- A command register or an argument register of a table port. -/
def writePortReg (s : State) (o : Nat) (v : Word) (host : Bool) : State :=
  if 0x500100 ≤ o ∧ o < 0x500400 then
    let p := (o - 0x500100) / 0x80
    if host && decide (p < 5) then s.raise Reg.CTX_ERR_STATUS (bitMask 2)
    else if o % 0x80 = 0x40 then ctxPort s p (bits v 31 28) (bits v 27 16) (bits v 15 0) ⟨host, false, none⟩
    else plainWrite s o v
  else
    let p := (o - 0x600100) / 0x40
    if host && decide (p < 5) then s.raise Reg.RES_ERR_STATUS (bitMask 1)
    else if o % 0x40 = 0x20 then resPort s p (parseResCmd v) ⟨host, false, none⟩
    else plainWrite s o v

/-- A write to a Hedgerow register. -/
def writeHdgReg (s : State) (o : Nat) (v : Word) : State :=
  if o = Reg.HDG_ABORT then hdgAbort s (bits v 3 0)
  else if o = Reg.HDG_ABORT_CLEAR then hdgAbortClear s v
  else if o = Reg.HDG_POST then hdgPost s v
  else if o = Reg.HDG_TAKE then hdgTake s v
  else if o = Reg.HDG_BAR_ARRIVE then hdgBarArrive s v
  else if 0x801000 ≤ o ∧ o < 0x801400 ∧ o % 8 = 0 then barCfgWrite s ((o - 0x801000) / 8) v
  else if 0x804000 ≤ o ∧ o < 0x808000 then hdgSemWrite s ((o - 0x804000) / 4) v
  else plainWrite s o v

/-- A write to a register of a global region. -/
def writeGlobalReg (s : State) (o : Nat) (v : Word) (host : Bool) : State :=
  if o = Reg.SRV_RESET_CTRL then resetCtrl s v []
  else if o = Reg.SRV_ATTEST_CTRL then (if flag v 0 then attestGo s false else s)
  else if o = Reg.SRV_FW_CTRL then
    (if bits v 1 0 = 1 then hostLoad s [] false false else if bits v 1 0 = 2 then hostActivate s false else fwCtrlOther s v)
  else if o = Reg.PWR_SETTING then powerSetting s v (settingMw s)
  else if o = Reg.PWR_MODE then modeWrite s v
  else if Reg.PWR_DOMk_CTRL ≤ o ∧ o < Reg.PWR_DOMk_CTRL + 256 then domainSwitch s ((o - Reg.PWR_DOMk_CTRL) / 4) v host
  else if Reg.PWR_COREn_OP ≤ o ∧ o < Reg.PWR_COREn_OP + 64 then coreOpWrite s ((o - Reg.PWR_COREn_OP) / 4) v host
  else if 0x200000 ≤ o ∧ o < 0x300000 then writeHostReg s o v host
  else if o = Reg.TAL_RD_SEL then tallyLatch s (bits v 14 0)
  else if o = Reg.TAL_WF_SEL then wfSelect s v
  else if o = Reg.TAL_MAINT_CTRL then (if flag v 0 then maintHost s else s)
  else if o = Reg.CTX_QUAR_CLEAR then quarClear s .ctx v
  else if o = Reg.RES_QUAR_CLEAR then quarClear s .res v
  else if Reg.RES_SPILL_BASE_LO ≤ o ∧ o ≤ Reg.RES_SPILL_SIZE then spillWrite s ((o - Reg.RES_SPILL_BASE_LO) / 4) v
  else if (0x500100 ≤ o ∧ o < 0x500400) ∨ (0x600100 ≤ o ∧ o < 0x600280) then writePortReg s o v host
  else if o = Reg.WIN_SYNC then winSync s v
  else if 0x710000 ≤ o ∧ o < 0x714000 then windowEntryWrite s ((o - 0x710000) / 16) (o % 16 / 4) v host
  else if 0x800000 ≤ o ∧ o < 0x900000 then writeHdgReg s o v
  else if o = Reg.FAB_CFG then fabCfgWrite s v
  else if Reg.FAB_ROUTEd ≤ o ∧ o < Reg.FAB_ROUTEd + 64 then fabRouteWrite s ((o - Reg.FAB_ROUTEd) / 4) v
  else if 0x901000 ≤ o ∧ o < 0x901600 ∧ o % 256 = 0 then retrainWrite s ((o - 0x901000) / 256) v
  else plainWrite s o v

/-- A write of one register as it reaches its block. -/
def writeReg (s : State) (o : Nat) (v : Word) (host : Bool) : State :=
  if isDown s || regAbsent s o || (regRow o).isNone then s
  else if regOff s o then offAccess s
  else match regionOf o with
    | (.core n, x) => writeCoreReg s n x v
    | (.field f, x) => writeFieldReg s f x v host
    | (.global, x) => writeGlobalReg s x v host
    | (.hole, _) => s

/-- REGISTER_WRITE: `bytes` bytes of `v` at offset o (R9). A narrow or misaligned write is dropped and counted; a 64-bit write reaches two
registers, the lower first. -/
def registerWrite (s : State) (o bytes : Nat) (v : DWord) (host : Bool) : State :=
  if isDown s then s
  else if bytes = 4 ∧ o % 4 = 0 then writeReg s o (BitVec.ofNat 32 v.toNat) host
  else if bytes = 8 ∧ o % 8 = 0 then
    writeReg (writeReg s o (BitVec.ofNat 32 v.toNat) host) (o + 4) (BitVec.ofNat 32 (v.toNat >>> 32)) host
  else narrowWrite s

/-- Registers whose write may end transfers or descriptors of firmware's, so that firmware acts on it: CORE_RESET, FENCE and SKDn_ABORT of a Field,
HST_ERR_EQ and the queues' CFG, PWR_DOMk_CTRL, FAB_CFG and the ports' CTRL. -/
def fwActs (o : Nat) : Bool :=
  o = Reg.HST_ERR_EQ || o = Reg.FAB_CFG || decide (0x220000 ≤ o) && decide (o < 0x220800) && decide (o % 32 = 8)
    || decide (Reg.PWR_DOMk_CTRL ≤ o) && decide (o < Reg.PWR_DOMk_CTRL + 256)
    || decide (0x901000 ≤ o) && decide (o < 0x901600) && decide (o % 256 = 0)
    || match regionOf o with
      | (.field _, x) => x = Reg.FLDn_CORE_RESET || x = Reg.FLDn_FENCE || x = Reg.SKDn_ABORT
      | _ => false

/-- A write reaches a register of `fwActs`: one that is absent, and one that a narrow write names, changes nothing (R4, R9). -/
def writeActs (s : State) (o bytes : Nat) : Bool :=
  let acts (o : Nat) : Bool := fwActs o && !regAbsent s o
  (bytes = 4 && o % 4 = 0 && acts o) || (bytes = 8 && o % 8 = 0 && (acts o || acts (o + 4)))

/-! ### Reads (R9, R45, R235, R294) -/

/-- What a whole read of a register does beside returning its value. -/
def readAction (s : State) (o : Nat) : State :=
  if isDown s || regAbsent s o then s
  else if regOff s o then offAccess s
  else if Reg.HDG_FLDf_NOTIFY ≤ o ∧ o < Reg.HDG_FLDf_NOTIFY + 16 then (notifyRead s ((o - Reg.HDG_FLDf_NOTIFY) / 4)).2
  else if Reg.HST_TSs_LO ≤ o ∧ o < Reg.HST_TSs_LO + 40 ∧ o % 8 = 0 then timestampLatch s ((o - Reg.HST_TSs_LO) / 8)
  else match regRow o with
    | some r => if r.rc then s.setReg o 0 else s
    | none => s

/-- A whole read of one register: its value and the state. The latched counter word is the value itself (R294). -/
def readReg (s : State) (o : Nat) : Word × State :=
  let t := readAction s o
  if !isDown s && !regAbsent s o && decide (Reg.HST_TSs_LO ≤ o) && decide (o < Reg.HST_TSs_LO + 40) && decide (o % 8 = 0) then (t.resp, t)
  else (regView s o, t)

/-- What a read that performs no read action finds in a register: a timestamp register the counter's low word now, latching nothing. -/
def peekReg (s : State) (o : Nat) : Word × State :=
  if !isDown s && !regAbsent s o && decide (Reg.HST_TSs_LO ≤ o) && decide (o < Reg.HST_TSs_LO + 40) && decide (o % 8 = 0) then
    let t := stamp s ((o - Reg.HST_TSs_LO) / 8)
    (BitVec.ofNat 32 t.1, t.2)
  else (regView s o, s)

/-- A read narrower than 32 bits: the addressed bytes, of two registers where it reaches into the next (R9). -/
def narrowRead (s : State) (o bytes : Nat) : Word × State :=
  let a := peekReg s (o / 4 * 4)
  let b := if 4 < o % 4 + bytes then peekReg a.2 (o / 4 * 4 + 4) else (0, a.2)
  (BitVec.ofNat 32 ((a.1.toNat + b.1.toNat * 2 ^ 32) / 2 ^ (8 * (o % 4)) % 2 ^ (8 * bytes)), b.2)

/-- RC_REGISTER_READ: a read of `bytes` bytes at offset o; the answer stands in `resp` and `respHi`. -/
def registerRead (s : State) (o bytes : Nat) : State :=
  if bytes = 4 ∧ o % 4 = 0 then
    let r := readReg s o
    { r.2 with resp := r.1, respHi := 0 }
  else if bytes = 8 ∧ o % 8 = 0 then
    let a := readReg s o
    let b := readReg a.2 (o + 4)
    { b.2 with resp := a.1, respHi := b.1 }
  else if bytes < 4 then
    let r := narrowRead s o bytes
    { r.2 with resp := r.1, respHi := 0 }
  else { s with resp := 0, respHi := 0 }

/-- A Residency command through a port (R194): the state after it and after what firmware does then. -/
def resCommand (s : State) (p : Nat) (c : ResCmd) (acc : PortAccess) : State :=
  if isDown s ∨ 6 ≤ p ∨ (p < 4 ∧ !fieldPresent s p) then s else ringsRun (fwRun (resIssue s p c acc))

end Sys2Proof.Machine
end

