-- ==== Sys2Proof/Machine/Guards.lean ====
section
/-! DEFINITION. When a command reaches its block: not while the device is in reset, without power, tripped or in standby
(R372, R400, R401), not at a block that this part lacks (R4), whose Field is in reset (R371) or whose power domain is not ON
(R393). A command that reaches nothing leaves the state as it is; an event whose block cannot raise it does not happen. -/

namespace Sys2Proof.Machine

/-- The answer of a command of this block: always a next state. -/
abbrev Answer := Host.Outcome State Fault Refusal

/-- What firmware does once a command's own effect is done: it reports ports that went DOWN, takes the ends of its transfers and of
its writes to other devices, and starts descriptors that a FENCE held back (R199, R251, R260, R286, R289). -/
def settle (old s : State) : State := if isDown s then s else ringsRun (fwRun (linkNotices old s))

/-- A command of the device as a whole. -/
def up (s : State) (f : State → State) : Answer := .next (if isDown s then s else f s)

/-- A command of the device as a whole that firmware acts on. -/
def upFw (s : State) (f : State → State) : Answer := .next (if isDown s then s else settle s (f s))

/-- Core n is present and its Field is not in reset. -/
def coreReachable (s : State) (n : Nat) : Bool := !isDown s && corePresent s n && !fieldInReset s (n / 4)

/-- A register command of core n: refused and counted while the core's base domain is not ON. A Field's reset does not stop it: the
restarted Forester sets its cores up before READY (R355). -/
def atCore (s : State) (n : Nat) (f : State → State) : Answer :=
  .next (if isDown s || !corePresent s n then s else if domOn s (3 * n + 2) then f s else offAccess s)

/-- The clock of core n runs. -/
def coreClocked (s : State) (n : Nat) : Bool :=
  coreReachable s n && domOn s (3 * n + 2) && !s.power.crit && !s.power.lost

/-- An event of core n's engines. -/
def onCore (s : State) (n : Nat) (f : State → State) : Answer := .next (if coreClocked s n then f s else s)

/-- Field f is present and not in reset. -/
def fieldReachable (s : State) (f : Nat) : Bool := !isDown s && fieldPresent s f && !fieldInReset s f

/-- A register command of Field f: refused and counted while the Field's domain is not ON. A Field's reset does not stop it (R355). -/
def atField (s : State) (f : Nat) (g : State → State) : Answer :=
  .next (if isDown s || !fieldPresent s f then s else if domOn s (48 + f) then g s else offAccess s)

/-- An event of Field f's engines, and what firmware does then. -/
def onField (s : State) (f : Nat) (g : State → State) : Answer :=
  .next (if fieldReachable s f && domOn s (48 + f) then settle s (g s) else s)

/-- Port p is fitted and its pair of ports has power. -/
def portOn (s : State) (p : Nat) : Bool := decide (p < portCount s.part) && domOn s (58 + p / 2)

/-- An event or a command of fabric port p, and what firmware does then. -/
def atPort (s : State) (p : Nat) (g : State → State) : Answer := .next (if isDown s || !portOn s p then s else settle s (g s))

/-- The device has power, and is past the capture of a device reset if one is in progress. -/
def powered (s : State) : Bool := !s.power.off && !s.power.tripped && !s.power.standby && !(deviceInReset s && s.capture.isSome)

/-- An event of the training of port p, which runs in a device reset too (R250, R356). -/
def trainPort (s : State) (p : Nat) (g : State → State) : Answer := .next (if powered s && portOn s p then settle s (g s) else s)

/-- The answer to an outstanding request: it is taken while its domain quiesces for a capture, and dropped as stale after a reset
(R347, R350). -/
def replied (s : State) (f : State → State) : Answer :=
  .next (if s.power.off || s.power.tripped || s.power.standby then s else settle s (f s))

/-- A table port that exists: an absent Forester has none (R4, R194, R316). -/
def portUsable (s : State) (p : Nat) : Bool := decide (p < 6) && (decide (4 ≤ p) || fieldPresent s p)

/-- Operations of CTX_Pp_CMD that the manual reserves: 4–15, and TAKE or GIVE of counters 6 and 7 (R317). -/
def ctxReserved (s : State) (p op : Nat) : Bool :=
  (decide (4 ≤ op) && decide (op < 16)) || ((op == 2 || op == 3) && decide (6 ≤ bits (s.reg (ctxArg p 0)) 26 24))

/-- Opcodes of the service port that R388 defines. -/
def svcKnown (op : Nat) : Bool := [0x01, 0x02, 0x03, 0x04, 0x05, 0x10, 0x11, 0x20, 0x21, 0x30, 0x40].contains op

end Sys2Proof.Machine
end

