-- ==== Sys2Proof/Machine/Kernels.lean ====
section
/-! DEFINITION. How a Forester sets a core up for a kernel and starts it (R61, R64, R86, R100, R175, R216). -/

namespace Sys2Proof.Machine

/-- Bytes of a segment as firmware copies them to a core (R175). -/
def kernelBytes (s : State) (n r : Nat) (c : KernelCopy) : List PByte × State :=
  match placeOf (segBase s r c.seg + c.first) with
  | .ws f x => wsReadNow s f x c.len (n / 4)
  | .nm f x => nmRead s f x c.len (n / 4)
  | _ => (List.replicate c.len (0, true), s)

/-- Copy kernel bundles or constants: an uncoded segment of KIND 1 or 2 (R215; log entry 134). -/
def kernelCopy (s : State) (n r : Nat) (c : KernelCopy) : State :=
  let g := infoAt s r c.seg
  if (s.root r).segs.length ≤ c.seg ∨ g.kind = 0 ∨ g.coded ∨ g.raw < c.first + c.len then s
  else
    let b := kernelBytes s n r c
    spmWrite b.2 n c.off b.1 .forester

/-- Commit a seed-table entry with COUNT 0 (R61, R64, R216). -/
def kernelSeed (s : State) (n : Nat) (e : SeedInfo) : State :=
  let s := s.setReg (coreReg n Reg.VUn_SHT_INDEX) (BitVec.ofNat 32 e.entry)
  shtCommit ((List.range 16).foldl (fun s w => s.setReg (coreReg n (Reg.VUn_SHT_DATAw + 4 * w)) (match w with
    | 11 => e.seed
    | 12 => BitVec.ofNat 32 e.fmt
    | 13 => BitVec.ofNat 32 (e.thresh <<< 16)
    | 14 => BitVec.ofNat 32 e.tag
    | _ => 0)) s) n

/-- Set core n up for a kernel, in the order of R175. -/
def kernelLoad (s : State) (n : Nat) (p : KernelPlan) : State :=
  let m := (s.root p.root).manifest
  let s := sweepDone (p.parts.zipIdx.foldl (fun s q => partitionWrite s n q.2 q.1) s) n
  let s := p.copies.foldl (fun s c => kernelCopy s n p.root c) s
  let s := ((manSeedList m).filter fun e => decide (e.core = n)).foldl (fun s e => kernelSeed s n e) s
  let s := p.tables.foldl (fun s i => match (manTableList m)[i]? with
    | some t => (ensureTable s n p.area t).getD s
    | none => s) s
  let s := p.regs.foldl (fun s q => if 0 < q.1 ∧ q.1 < 32 then s.setReg (coreReg n (Reg.COREn_ARr + 4 * q.1)) q.2 else s) s
  let s := s.setReg (coreReg n Reg.COREn_ENTRY) (p.entry &&& 0x7FFFE0)
  let s := (s.setReg (coreReg n Reg.COREn_WAIT_LIMIT) (p.waitLimit &&& 0xFFFFFF)).setReg (coreReg n Reg.COREn_WDOG_LIMIT) (p.wdogLimit &&& 0xFFFFFF)
  s.modCore n fun c => { c with kernel := some p.root }

/-- A memory that a load reads or writes holds its accesses (R89, R325, R351, R393). -/
def kernelHeld (s : State) (n : Nat) (p : KernelPlan) : Bool :=
  spmHeld s n 0 spmSize || p.copies.any fun c => match placeOf (segBase s p.root c.seg + c.first) with
    | .nm f x => nmHeld s f x c.len
    | .ws f _ => !domOn s (52 + f) || fieldResetting s f
    | _ => false

/-- START (R142, R175, R176, R392): the Forester loads a kernel into a stopped core first, where it has one to load. -/
def coreStart (s : State) (n : Nat) (load : Option KernelPlan) : State :=
  match load with
  | none => seqStart s n
  | some p =>
    if (s.core n).seq ≠ .stopped then seqStart s n
    else if kernelHeld s n p then s
    else seqStart (kernelLoad s n p) n

end Sys2Proof.Machine
end

