-- ==== Sys2Proof/Machine/CoreCommands.lean ====
section
/-! DEFINITION. Commands of a core: the Sequencer, the Tines, the Thresher, KV writes, the Harrow, the table memory of the Vector Unit, the scratchpad: one meaning per row of the opcode table. -/

namespace Sys2Proof.Machine

/-- BUNDLE_ISSUE (R146, R162–R167): core n issues its next bundle. `stalls`: the causes, by rank, of each stall cycle before
it; `also`: a second core event of the same cycle is trapped with it (R169). -/
def execBundleIssue (n : Nat) (stalls : List (List Nat)) (also : Bool) (s : State) : Host.Outcome State Fault Refusal :=
  onCore s n fun s => bundleIssue s n stalls also

/-- HDG_TIMEOUT (R163, R170). -/
def execHdgTimeout (n : Nat) (also : Bool) (s : State) : Host.Outcome State Fault Refusal :=
  onCore s n fun s => hdgTimeout s n also

/-- WATCHDOG (R170). -/
def execWatchdog (n : Nat) (also : Bool) (s : State) : Host.Outcome State Fault Refusal :=
  onCore s n fun s => watchdog s n also

/-- SEQUENCER_STOPPED (R142, R172). -/
def execSequencerStopped (n : Nat) (s : State) : Host.Outcome State Fault Refusal :=
  onCore s n fun s => sequencerStopped s n

/-- START (R142, R176, R392). `load`: the kernel that the Forester loads before it (R61, R100, R175). -/
def execStart (q : StartReq) (s : State) : Host.Outcome State Fault Refusal :=
  atCore s q.core fun s => coreStart s q.core q.load

/-- RESUME (R142, R170, R176). -/
def execResume (n : Nat) (s : State) : Host.Outcome State Fault Refusal :=
  atCore s n fun s => seqResume s n

/-- HALT (R170, R176). -/
def execHalt (n : Nat) (also : Bool) (s : State) : Host.Outcome State Fault Refusal :=
  atCore s n fun s => seqHalt s n also

/-- TINE_RESCALE (R25–R27, R32, R53–R55): the rescale stage of Tine t, or of its gang, closes one group. -/
def execTineRescale (n t : Nat) (s : State) : Host.Outcome State Fault Refusal :=
  onCore s n fun s => scheduled s n fun s => tineRescale s n t

/-- TINE_DRAIN (R28–R30, R35–R38). -/
def execTineDrain (n t : Nat) (s : State) : Host.Outcome State Fault Refusal :=
  onCore s n fun s => scheduled s n fun s => tineDrain s n t

/-- ATTEND_BLOCK (R119–R126). `wait`: cycles that it waited for its buffer (R127). -/
def execAttendBlock (n wait : Nat) (s : State) : Host.Outcome State Fault Refusal :=
  onCore s n fun s => scheduled s n fun s => attendBlock s n wait

/-- KV_FETCH_BLOCK (R126, R127): the stream of the record at `a`. -/
def execKvFetchBlock (n a : Nat) (s : State) : Host.Outcome State Fault Refusal :=
  onCore s n fun s => settle s (kvFetchBlock s n a)

/-- KVWRITE_DONE (R128–R132, R158): entry e of the core's Skidder queue. -/
def execKvwriteDone (n e : Nat) (s : State) : Host.Outcome State Fault Refusal :=
  onCore s n fun s => settle s (scheduled s n fun s => kvDone s n e)

/-- LANE_BLOCK_START (R101–R103). -/
def execLaneBlockStart (n l : Nat) (s : State) : Host.Outcome State Fault Refusal :=
  onCore s n fun s => scheduled s n fun s => laneStart s n l

/-- LANE_BLOCK_DONE (R101, R104, R105); a block that waited for room in the lane's queue is fetched. -/
def execLaneBlockDone (n l : Nat) (s : State) : Host.Outcome State Fault Refusal :=
  onCore s n fun s => pumpCore (laneDone s n l) n

/-- TABLE_LOAD_DONE (R100). -/
def execTableLoadDone (n : Nat) (s : State) : Host.Outcome State Fault Refusal :=
  onCore s n fun s => scheduled s n fun s => tblLoadDone s n

/-- TABLE_LOAD (R100, R112): a write of LOAD to HRWn_TBL_CTRL. -/
def execTableLoad (n slot gen : Nat) (s : State) : Host.Outcome State Fault Refusal :=
  atCore s n fun s => tblLoad s n (slot % 16) (gen % 16) (bits (s.reg (coreReg n Reg.HRWn_TBL_ADDR)) 22 0) true

/-- INVALIDATE (R100, R112). -/
def execInvalidate (n slot : Nat) (s : State) : Host.Outcome State Fault Refusal :=
  atCore s n fun s => tblInvalidate s n (slot % 16)

/-- CHAN_LANES_WRITE (R108, R112). -/
def execChanLanesWrite (n : Nat) (v : Word) (s : State) : Host.Outcome State Fault Refusal :=
  atCore s n fun s => chanLanes s n v

/-- ENCODE_BLOCK_DONE (R109–R111). -/
def execEncodeBlockDone (n : Nat) (s : State) : Host.Outcome State Fault Refusal :=
  onCore s n fun s => scheduled s n fun s => encodeBlockDone s n

/-- EXPAND_DONE (R135, R158). -/
def execExpandDone (n : Nat) (s : State) : Host.Outcome State Fault Refusal :=
  onCore s n fun s => scheduled s n fun s => expandDone s n

/-- LATCH (R64). -/
def execLatch (n : Nat) (s : State) : Host.Outcome State Fault Refusal :=
  atCore s n fun s => shtLatch s n

/-- COMMIT (R60, R64). -/
def execCommit (n : Nat) (s : State) : Host.Outcome State Fault Refusal :=
  atCore s n fun s => shtCommit s n

/-- SWEEP (R88, R89). -/
def execSweep (n : Nat) (v : Word) (s : State) : Host.Outcome State Fault Refusal :=
  atCore s n fun s => sweepStart s n v

/-- SWEEP_DONE (R88, R89): what waited for the sweep is served. -/
def execSweepDone (n : Nat) (s : State) : Host.Outcome State Fault Refusal :=
  onCore s n fun s => settle s (releaseHeld (pumpScratch (sweepDone s n) n))

/-- PARTITION_WRITE (R78, R79). -/
def execPartitionWrite (n k : Nat) (v : Word) (s : State) : Host.Outcome State Fault Refusal :=
  atCore s n fun s => partitionWrite s n k v

/-- SPM_CE_WRITE_BACK (R81): word w of the scratchpad. -/
def execSpmCeWriteBack (n w : Nat) (s : State) : Host.Outcome State Fault Refusal :=
  onCore s n fun s => spmWriteBack s n w

/-- FORCED_GRANT (R77, R166): the access goes ahead of the island, which it stalls. -/
def execForcedGrant (n cycles : Nat) (bubble : Bool) (s : State) : Host.Outcome State Fault Refusal :=
  onCore s n fun s => countStall s n (if bubble then 14 else 10) cycles

end Sys2Proof.Machine
end

