-- ==== Sys2Proof/Machine/FabricCommands.lean ====
section
/-! DEFINITION. Commands of the Hedgerow, the fabric ports, windows and the Bucker: one meaning per row of the opcode table. -/

namespace Sys2Proof.Machine

/-- SEM_POST_ARRIVE (R232, R243): a post issued under generation gen of Field f. -/
def execSemPostArrive (f gen i cnt : Nat) (s : State) : Host.Outcome State Fault Refusal :=
  up s fun s => semPostArrive s f gen i cnt

/-- HDG_POST (R234, R245, R246). -/
def execHdgPost (v : Word) (s : State) : Host.Outcome State Fault Refusal :=
  up s fun s => hdgPost s v

/-- HDG_TAKE (R235, R245, R246). -/
def execHdgTake (v : Word) (s : State) : Host.Outcome State Fault Refusal :=
  up s fun s => hdgTake s v

/-- HDG_SEM_WRITE (R233, R246). -/
def execHdgSemWrite (i : Nat) (v : Word) (s : State) : Host.Outcome State Fault Refusal :=
  up s fun s => if semPresent s i then hdgSemWrite s i v else s

/-- NOTIFY_READ (R235). -/
def execNotifyRead (f : Nat) (s : State) : Host.Outcome State Fault Refusal :=
  up s fun s => if fieldPresent s f then { (notifyRead s f).2 with resp := (notifyRead s f).1, respHi := 0 } else s

/-- BARRIER_ARRIVAL (R237, R243). -/
def execBarrierArrival (f gen g sem cnt : Nat) (s : State) : Host.Outcome State Fault Refusal :=
  up s fun s => barrierArrival s f gen g sem cnt

/-- HDG_BAR_ARRIVE (R237, R246). -/
def execHdgBarArrive (v : Word) (s : State) : Host.Outcome State Fault Refusal :=
  up s fun s => hdgBarArrive s v

/-- BARRIER_CFG_WRITE (R238, R246). -/
def execBarrierCfgWrite (g : Nat) (v : Word) (s : State) : Host.Outcome State Fault Refusal :=
  up s fun s => if g < 128 then barCfgWrite s g v else s

/-- HDG_ABORT (R244, R245). -/
def execHdgAbort (v : Word) (s : State) : Host.Outcome State Fault Refusal :=
  up s fun s => hdgAbort s (bits v 3 0)

/-- ABORT_TOKEN_RECEIVE (R243, R244): job j, sequence q, of device d under its generation. -/
def execAbortTokenReceive (p j q : Nat) (d : Issuer) (s : State) : Host.Outcome State Fault Refusal :=
  atPort s p fun s => abortToken s p (j % 16) (q % 16) (d.dev % 16) (d.gen % 256)

/-- HDG_ABORT_CLEAR (R245). -/
def execHdgAbortClear (v : Word) (s : State) : Host.Outcome State Fault Refusal :=
  up s fun s => hdgAbortClear s v

/-- HEDGEROW_FRAME_RECEIVE (R242, R243, R352). -/
def execHedgerowFrameReceive (p : Nat) (crcOk : Bool) (d gen dst : Nat) (m : HdgMsg) (s : State) : Host.Outcome State Fault
    Refusal :=
  atPort s p fun s => frameReceive s p crcOk d gen dst m

/-- GEN_ANNOUNCE_RECEIVE (R352). -/
def execGenAnnounceReceive (p d v : Nat) (s : State) : Host.Outcome State Fault Refusal :=
  trainPort s p fun s => genAnnounce s p (d % 16) (v % 256)

/-- PORT_TRAINING (R250). -/
def execPortTraining (p : Nat) (s : State) : Host.Outcome State Fault Refusal :=
  trainPort s p fun s => portTraining s p

/-- PORT_TRAINING_DONE (R249–R252, R352). -/
def execPortTrainingDone (p failed : Nat) (hdgLane : Bool) (e : TrainEnd) (s : State) : Host.Outcome State Fault Refusal :=
  trainPort s p fun s => portTrainingDone s p failed hdgLane e.partner e.dropped

/-- FLIT_RECEIVE (R248): a flit with its data and its CRC. -/
def execFlitReceive (p seq : Nat) (f : Flit) (s : State) : Host.Outcome State Fault Refusal :=
  atPort s p fun s => flitReceive s p seq f.data f.crc

/-- ACK_TIMEOUT (R248, R249). -/
def execAckTimeout (p : Nat) (s : State) : Host.Outcome State Fault Refusal :=
  atPort s p fun s => ackTimeout s p

/-- ACKNOWLEDGEMENT_RECEIVE (R248). -/
def execAcknowledgementReceive (p seq : Nat) (neg : Bool) (s : State) : Host.Outcome State Fault Refusal :=
  atPort s p fun s => ackReceive s p seq neg

/-- RETRAIN (R249). -/
def execRetrain (p : Nat) (v : Word) (s : State) : Host.Outcome State Fault Refusal :=
  atPort s p fun s => retrainWrite s p v

/-- FAB_CFG_WRITE (R250, R252). -/
def execFabCfgWrite (v : Word) (s : State) : Host.Outcome State Fault Refusal :=
  upFw s fun s => fabCfgWrite s v

/-- FAB_ROUTE_WRITE (R252). -/
def execFabRouteWrite (d : Nat) (v : Word) (s : State) : Host.Outcome State Fault Refusal :=
  up s fun s => if d < 16 then fabRouteWrite s d v else s

/-- FABRIC_PACKET_RECEIVE (R251, R253, R256, R352). -/
def execFabricPacketReceive (p : Nat) (k : FabPacket) (s : State) : Host.Outcome State Fault Refusal :=
  atPort s p fun s => packetReceive s p k

/-- WINDOW_ENTRY_WRITE (R255). -/
def execWindowEntryWrite (i w : Nat) (v : Word) (host : Bool) (s : State) : Host.Outcome State Fault Refusal :=
  up s fun s => windowEntryWrite s i w v host

/-- WIN_SYNC (R258). -/
def execWinSync (v : Word) (s : State) : Host.Outcome State Fault Refusal :=
  up s fun s => winSync s v

/-- HEARTBEAT (R260). -/
def execHeartbeat (s : State) : Host.Outcome State Fault Refusal :=
  upFw s fun s => heartbeat s

/-- HEAD_TAKEOVER (R261). -/
def execHeadTakeover (members : List Nat) (mirror : List Mirror) (done : List (Nat × Nat)) (s : State) : Host.Outcome State
    Fault Refusal :=
  upFw s fun s => headTakeover s members mirror done

/-- HEAD_CLAIM (R261). -/
def execHeadClaim (d epoch : Nat) (windows : List Nat) (s : State) : Host.Outcome State Fault Refusal :=
  upFw s fun s => headClaim s d epoch windows

/-- BUCKER_POST (R264, R268). -/
def execBuckerPost (f : Nat) (hi : Word) (s : State) : Host.Outcome State Fault Refusal :=
  atField s f fun s => buckerPost s f hi

/-- BUCKER_JOB_START (R263–R265). `host`, `hostTab`: what host memory holds, each byte with its poison, where the record or its table
lies there. -/
def execBuckerJobStart (f : Nat) (host hostTab : List (Byte × Bool)) (s : State) : Host.Outcome State Fault Refusal :=
  onField s f fun s => buckerStart s f host hostTab

/-- BUCKER_JOB_DONE (R265, R266). -/
def execBuckerJobDone (f : Nat) (s : State) : Host.Outcome State Fault Refusal :=
  onField s f fun s => buckerDone s f

end Sys2Proof.Machine
end

