-- ==== Sys2Proof/Machine/HostCommands.lean ====
section
/-! DEFINITION. Commands of rings, queues, steps and the Context Table: one meaning per row of the opcode table. -/

namespace Sys2Proof.Machine

/-- RING_TAIL_DOORBELL (R273, R275, R312). -/
def execRingTailDoorbell (r off : Nat) (v : Word) (s : State) : Host.Outcome State Fault Refusal :=
  upFw s fun s => ringTail s r off v

/-- EQ_HEAD_DOORBELL (R273, R287, R292, R293). -/
def execEqHeadDoorbell (q off : Nat) (v : Word) (s : State) : Host.Outcome State Fault Refusal :=
  upFw s fun s => eqHead s q off v

/-- NARROW_WRITE_DROP (R9, R273). -/
def execNarrowWriteDrop (s : State) : Host.Outcome State Fault Refusal :=
  up s fun s => narrowWrite s

/-- DESCRIPTOR_READ (R274–R278): the home Forester of ring r reads the descriptor at its head; `bytes` are its 64 bytes. -/
def execDescriptorRead (r : Nat) (bytes : List Byte) (env : DescEnv) (s : State) : Host.Outcome State Fault Refusal :=
  upFw s fun s => descRead s r bytes env

/-- FENCE_COMPLETE (R286). -/
def execFenceComplete (r : Nat) (s : State) : Host.Outcome State Fault Refusal :=
  upFw s fun s => fenceComplete s r

/-- HOLDOFF_EXPIRY (R293). -/
def execHoldoffExpiry (q : Nat) (s : State) : Host.Outcome State Fault Refusal :=
  up s fun s => holdoffExpiry s q

/-- RING_CFG_WRITE (R274). -/
def execRingCfgWrite (r : Nat) (v : Word) (s : State) : Host.Outcome State Fault Refusal :=
  up s fun s => ringCfgWrite s r v

/-- EQ_CFG_WRITE (R287). -/
def execEqCfgWrite (q : Nat) (v : Word) (s : State) : Host.Outcome State Fault Refusal :=
  upFw s fun s => eqCfgWrite s q v

/-- CORRELATION_ARM (R295). -/
def execCorrelationArm (v : Word) (s : State) : Host.Outcome State Fault Refusal :=
  up s fun s => correlationArm s v

/-- TIMESTAMP_LATCH (R294). -/
def execTimestampLatch (k : Nat) (s : State) : Host.Outcome State Fault Refusal :=
  up s fun s => timestampLatch s k

/-- FUNCTION_LEVEL_RESET (R297). -/
def execFunctionLevelReset (s : State) : Host.Outcome State Fault Refusal :=
  upFw s fun s => functionLevelReset s

/-- STEP_START (R307, R308, R313). -/
def execStepStart (plan : StepPlan) (s : State) : Host.Outcome State Fault Refusal :=
  upFw s fun s => stepStart s plan

/-- STEP_COMMIT (R281, R310–R313). -/
def execStepCommit (id : Nat) (outs : List MemberOut) (s : State) : Host.Outcome State Fault Refusal :=
  upFw s fun s => stepCommit s id outs

/-- CTX_PORT_READ (R317). -/
def execCtxPortRead (p e : Nat) (acc : PortAccess) (s : State) : Host.Outcome State Fault Refusal :=
  up s fun s => if portUsable s p then ctxPort s p 0 0 (e % 65536) acc else s

/-- CTX_PORT_WRITE (R317). -/
def execCtxPortWrite (p gen e : Nat) (acc : PortAccess) (s : State) : Host.Outcome State Fault Refusal :=
  up s fun s => if portUsable s p then ctxPort s p 1 (gen % 4096) (e % 65536) acc else s

/-- TAKE (R317): counter and amount stand in the port's first argument word. -/
def execTake (p : Nat) (acc : PortAccess) (s : State) : Host.Outcome State Fault Refusal :=
  up s fun s => if portUsable s p then ctxPort s p 2 0 0 acc else s

/-- GIVE (R317). -/
def execGive (p : Nat) (acc : PortAccess) (s : State) : Host.Outcome State Fault Refusal :=
  up s fun s => if portUsable s p then ctxPort s p 3 0 0 acc else s

/-- CTX_RESERVED_OP (R317). -/
def execCtxReservedOp (p op gen e : Nat) (acc : PortAccess) (s : State) : Host.Outcome State Fault Refusal :=
  up s fun s => if portUsable s p ∧ ctxReserved s p op then ctxPort s p op (gen % 4096) (e % 65536) acc else s

/-- DRAIN_TIMEOUT (R315). -/
def execDrainTimeout (e : Nat) (stuck : List (Nat × Nat)) (s : State) : Host.Outcome State Fault Refusal :=
  upFw s fun s => drainTimeout s e stuck

/-- TEARDOWN_DRAINED (R315). -/
def execTeardownDrained (e : Nat) (s : State) : Host.Outcome State Fault Refusal :=
  upFw s fun s => teardownDrained s e

/-- TRIM_APPLY (R283, R302). -/
def execTrimApply (e : Nat) (s : State) : Host.Outcome State Fault Refusal :=
  upFw s fun s => trimApply s e

end Sys2Proof.Machine
end

