-- ==== Sys2Proof/Machine/PowerCommands.lean ====
section
/-! DEFINITION. Commands of power, clocks and temperature, and plain register accesses: one meaning per row of the opcode table. -/

namespace Sys2Proof.Machine

/-- POWER_LOSS (R366, R368, R406). -/
def execPowerLoss (src mask : Nat) (s : State) : Host.Outcome State Fault Refusal :=
  .next (powerLoss s src mask)

/-- PWRGOOD_DEASSERT (R405, R406). -/
def execPwrgoodDeassert (s : State) : Host.Outcome State Fault Refusal :=
  .next (pwrgoodDeassert s)

/-- POWER_ON (R348, R378, R405, R408). -/
def execPowerOn (devid hostSel : Nat) (s : State) : Host.Outcome State Fault Refusal :=
  .next (powerOn s devid hostSel)

/-- DOMAIN_SWITCH (R392, R393, R403). -/
def execDomainSwitch (k : Nat) (v : Word) (host : Bool) (s : State) : Host.Outcome State Fault Refusal :=
  upFw s fun s => domainSwitch s k v host

/-- DOMAIN_SWITCH_DONE (R392, R393, R398). -/
def execDomainSwitchDone (k nonCore : Nat) (s : State) : Host.Outcome State Fault Refusal :=
  upFw s fun s => domainSwitchDone s k nonCore

/-- CORE_OP_WRITE (R392, R395, R396). -/
def execCoreOpWrite (n : Nat) (v : Word) (host : Bool) (s : State) : Host.Outcome State Fault Refusal :=
  up s fun s => coreOpWrite s n v host

/-- CORE_OP_APPLY (R236, R396). -/
def execCoreOpApply (n : Nat) (s : State) : Host.Outcome State Fault Refusal :=
  up s fun s => coreOpApply s n

/-- OP_DEFER_EXPIRY (R396). -/
def execOpDeferExpiry (n : Nat) (s : State) : Host.Outcome State Fault Refusal :=
  up s fun s => opDeferExpiry s n

/-- POWER_SETTING_WRITE (R397, R398). `nonCore`: the non-core power in mW. -/
def execPowerSettingWrite (v : Word) (nonCore : Nat) (s : State) : Host.Outcome State Fault Refusal :=
  up s fun s => powerSetting s v nonCore

/-- POWER_SAMPLE (R397, R398). -/
def execPowerSample (x : Nat) (s : State) : Host.Outcome State Fault Refusal :=
  up s fun s => powerSample s x

/-- IDLE (R399). -/
def execIdle (s : State) : Host.Outcome State Fault Refusal :=
  upFw s fun s => idleEnter s

/-- IDLE_WAKE (R394, R399). -/
def execIdleWake (doms : List Nat) (s : State) : Host.Outcome State Fault Refusal :=
  up s fun s => idleWake s doms

/-- STANDBY (R400). -/
def execStandby (v : Word) (s : State) : Host.Outcome State Fault Refusal :=
  up s fun s => if bits v 31 24 = 0xA5 ∧ bits v 1 0 = 2 then standbyEnter s else s

/-- STANDBY_EXIT (R400). -/
def execStandbyExit (stuck : List (Nat × Nat)) (s : State) : Host.Outcome State Fault Refusal :=
  .next (standbyExit s stuck)

/-- THERMAL_THROTTLE_TICK (R401). -/
def execThermalThrottleTick (temps : List Nat) (s : State) : Host.Outcome State Fault Refusal :=
  up s fun s => throttleTick s temps

/-- THERMAL_CRIT (R401). -/
def execThermalCrit (temps : List Nat) (s : State) : Host.Outcome State Fault Refusal :=
  up s fun s => thermalCrit s temps

/-- THERMAL_CRIT_END (R401). -/
def execThermalCritEnd (temps : List Nat) (s : State) : Host.Outcome State Fault Refusal :=
  up s fun s => thermalCritEnd s temps

/-- THERMAL_TRIP (R401). -/
def execThermalTrip (temps : List Nat) (s : State) : Host.Outcome State Fault Refusal :=
  .next (thermalTrip s temps)

/-- THERMAL_TRIP_RECOVERY (R401). -/
def execThermalTripRecovery (temps : List Nat) (stuck : List (Nat × Nat)) (s : State) : Host.Outcome State Fault Refusal :=
  .next (tripRecovery s temps stuck)

/-- THROTTLE_RAISE (R401). -/
def execThrottleRaise (temps : List Nat) (s : State) : Host.Outcome State Fault Refusal :=
  up s fun s => throttleRaise s temps

/-- STACK_PROGRAMMING_PAUSE (R401). -/
def execStackProgrammingPause (f temp : Nat) (s : State) : Host.Outcome State Fault Refusal :=
  up s fun s => stackPause s f temp

/-- STACK_PROGRAMMING_RESUME (R401). -/
def execStackProgrammingResume (f temp : Nat) (s : State) : Host.Outcome State Fault Refusal :=
  up s fun s => stackResume s f temp

/-- RC_REGISTER_READ (R9, R45): a read of `bytes` bytes at BAR0 offset o; a whole, aligned one performs the read action. -/
def execRcRegisterRead (o bytes : Nat) (s : State) : Host.Outcome State Fault Refusal :=
  .next (registerRead s o bytes)

/-- REGISTER_WRITE (R9, R412). -/
def execRegisterWrite (o bytes : Nat) (v : DWord) (host : Bool) (s : State) : Host.Outcome State Fault Refusal :=
  .next (if writeActs s o bytes then settle s (registerWrite s o bytes v host) else registerWrite s o bytes v host)

end Sys2Proof.Machine
end

