-- ==== Sys2Proof/Machine/ResetCommands.lean ====
section
/-! DEFINITION. Commands of the integrity blocks, resets, the Windfall and Tally reads: one meaning per row of the opcode table. -/

namespace Sys2Proof.Machine

/-- SCRUB_TICK (R322). -/
def execScrubTick (f : Nat) (s : State) : Host.Outcome State Fault Refusal :=
  upFw s fun s => scrubTick s f

/-- PPR_REQUEST (R325, R326). `spare`: the bank named has a spare row left. -/
def execPprRequest (f : Nat) (v : Word) (spare : Bool) (s : State) : Host.Outcome State Fault Refusal :=
  up s fun s => pprRequest s f v spare

/-- PPR_DONE (R325, R326). -/
def execPprDone (f : Nat) (failed : Bool) (s : State) : Host.Outcome State Fault Refusal :=
  upFw s fun s => pprDone s f failed

/-- INJECTOR_ARM (R337–R339). -/
def execInjectorArm (unit : InjUnit) (v : Word) (s : State) : Host.Outcome State Fault Refusal :=
  up s fun s => injectorArm s unit v

/-- QUARANTINE_CLEAR (R329). `fw`: with Idaskub's handling of the entry. -/
def execQuarantineClear (res fw : Bool) (v : Word) (s : State) : Host.Outcome State Fault Refusal :=
  up s fun s => quarantineClear s res fw v

/-- DEVICE_ERROR_REPORT (R174, R289, R333). -/
def execDeviceErrorReport (block u : Nat) (s : State) : Host.Outcome State Fault Refusal :=
  upFw s fun s => deviceErrorReport s block u

/-- CORE_RESET (R348, R354, R371). -/
def execCoreReset (f : Nat) (v : Word) (host : Bool) (s : State) : Host.Outcome State Fault Refusal :=
  upFw s fun s => coreReset s f v host

/-- FIELD_RESET (R346, R347, R355–R358). `stuck`: regions that will not answer the capture. -/
def execFieldReset (f cause : Nat) (stuck : List (Nat × Nat)) (s : State) : Host.Outcome State Fault Refusal :=
  .next (triggerField s f (cause % 256) stuck)

/-- FIELD_READY (R351, R355). -/
def execFieldReady (f : Nat) (s : State) : Host.Outcome State Fault Refusal :=
  .next (fieldReady s f)

/-- FIELD_READY_TIMEOUT (R346, R355). -/
def execFieldReadyTimeout (f : Nat) (stuck : List (Nat × Nat)) (s : State) : Host.Outcome State Fault Refusal :=
  .next (fieldReadyTimeout s f stuck)

/-- FORESTER_TRAP (R332, R346). -/
def execForesterTrap (f cause addr : Nat) (stuck : List (Nat × Nat)) (s : State) : Host.Outcome State Fault Refusal :=
  .next (foresterTrap s f cause addr false stuck)

/-- FORESTER_WATCHDOG (R346). -/
def execForesterWatchdog (f addr : Nat) (stuck : List (Nat × Nat)) (s : State) : Host.Outcome State Fault Refusal :=
  .next (foresterTrap s f 0 addr true stuck)

/-- SURVEYOR_TRAP (R332, R346). -/
def execSurveyorTrap (cause addr : Nat) (stuck : List (Nat × Nat)) (s : State) : Host.Outcome State Fault Refusal :=
  .next (surveyorTrap s cause addr false stuck)

/-- SURVEYOR_WATCHDOG (R346). -/
def execSurveyorWatchdog (addr : Nat) (stuck : List (Nat × Nat)) (s : State) : Host.Outcome State Fault Refusal :=
  .next (surveyorTrap s 0 addr true stuck)

/-- HOST_FIELD_RESET (R346, R372). -/
def execHostFieldReset (v : Word) (stuck : List (Nat × Nat)) (s : State) : Host.Outcome State Fault Refusal :=
  .next (if bits v 9 8 = 1 then resetCtrl s v stuck else s)

/-- HOST_DEVICE_RESET (R346, R372). -/
def execHostDeviceReset (v : Word) (stuck : List (Nat × Nat)) (s : State) : Host.Outcome State Fault Refusal :=
  .next (if bits v 9 8 = 2 then resetCtrl s v stuck else s)

/-- DEVICE_RESET (R346–R350, R356–R358). -/
def execDeviceReset (cause : Nat) (stuck : List (Nat × Nat)) (s : State) : Host.Outcome State Fault Refusal :=
  .next (triggerDevice s (cause % 256) stuck)

/-- DEVICE_READY (R356, R378, R379, R382). -/
def execDeviceReady (stuck : List (Nat × Nat)) (s : State) : Host.Outcome State Fault Refusal :=
  .next (deviceReady s stuck)

/-- WINDFALL_TIME_LIMIT (R362). -/
def execWindfallTimeLimit (stuck : List (Nat × Nat)) (s : State) : Host.Outcome State Fault Refusal :=
  .next (windfallTimeLimit s stuck)

/-- OBSERVATION_TIMEOUT (R362, R393). -/
def execObservationTimeout (got : Nat) (stuck : List (Nat × Nat)) (s : State) : Host.Outcome State Fault Refusal :=
  .next (observationTimeout s got stuck)

/-- FIELD_FENCE (R353, R371). -/
def execFieldFence (f : Nat) (v : Word) (host : Bool) (s : State) : Host.Outcome State Fault Refusal :=
  upFw s fun s => fieldFence s f v host

/-- FIELD_FENCE_DONE (R353). -/
def execFieldFenceDone (f : Nat) (s : State) : Host.Outcome State Fault Refusal :=
  up s fun s => fieldFenceDone s f

/-- STAND_ABORT_RECOVERY (R359). -/
def execStandAbortRecovery (j started : Nat) (windows groups sems moves : List Nat) (s : State) : Host.Outcome State Fault
    Refusal :=
  upFw s fun s => standRecovery s j started windows groups sems moves

/-- TALLY_READ_SELECT (R369). -/
def execTallyReadSelect (v : Word) (s : State) : Host.Outcome State Fault Refusal :=
  up s fun s => tallyLatch s (bits v 14 0)

/-- WINDFALL_PAGE_SELECT (R369). -/
def execWindfallPageSelect (v : Word) (s : State) : Host.Outcome State Fault Refusal :=
  up s fun s => wfSelect s v

end Sys2Proof.Machine
end

