-- ==== Sys2Proof/Machine/TransferCommands.lean ====
section
/-! DEFINITION. Commands of the Skidder, near memory, the weight store, the outbound map, the Residency Table and model images: one meaning per row of the opcode table. -/

namespace Sys2Proof.Machine

/-- SKIDDER_TRANSFER_COMPLETE (R161, R314). -/
def execSkidderTransferComplete (n e : Nat) (s : State) : Host.Outcome State Fault Refusal :=
  onField s (n / 4) fun s => skqComplete s n e

/-- CHANNEL_POST (R199): a write of SKDn_CHk_POST_HI. -/
def execChannelPost (f k : Nat) (hi : Word) (s : State) : Host.Outcome State Fault Refusal :=
  atField s f fun s => if k < 16 then chanPost s f k hi else s

/-- CHANNEL_RECORD_START (R199, R314). `host`: the bytes that host memory holds, each with its poison, when the record lies there. -/
def execChannelRecordStart (f k : Nat) (host : List (Byte × Bool)) (s : State) : Host.Outcome State Fault Refusal :=
  onField s f fun s => chanStart s f k host

/-- CHANNEL_TRANSFER_COMPLETE (R199, R333). -/
def execChannelTransferComplete (f k : Nat) (s : State) : Host.Outcome State Fault Refusal :=
  onField s f fun s => chanComplete s f k

/-- TRANSFER_STALL (R200, R284). -/
def execTransferStall (f : Nat) (coreQ : Bool) (core num : Nat) (s : State) : Host.Outcome State Fault Refusal :=
  onField s f fun s => xferStall s f coreQ core num

/-- TRANSFER_RESUME (R200). -/
def execTransferResume (f : Nat) (coreQ : Bool) (core num : Nat) (s : State) : Host.Outcome State Fault Refusal :=
  onField s f fun s => transferResume s f coreQ core num

/-- SKIDDER_ABORT (R201, R334). -/
def execSkidderAbort (f : Nat) (v : Word) (s : State) : Host.Outcome State Fault Refusal :=
  atField s f fun s => settle s (skidderAbort s f v)

/-- MEMORY_REPLY (R203, R314, R331, R350): a transaction is answered. `data`: what a remote or host read brings. -/
def execMemoryReply (id : Nat) (status : ReplyStatus) (data : List (Byte × Bool)) (s : State) : Host.Outcome State Fault
    Refusal :=
  replied s fun s => memoryReply s id status data

/-- BUDGET_GRANT (R204): the next waiter of a pool; `cycles` that it waited. -/
def execBudgetGrant (p cycles : Nat) (s : State) : Host.Outcome State Fault Refusal :=
  upFw s fun s => budgetGrant s p cycles

/-- NM_ACCESS (R181, R182, R320, R321, R336): a requester of Field rf reads or writes at offset x of Field f's near memory;
held, it waits. -/
def execNmAccess (f x : Nat) (write : Bool) (data : List (Byte × Bool)) (len rf : Nat) (s : State) : Host.Outcome State
    Fault Refusal :=
  upFw s fun s => if nmHeld s f x (if write then data.length else len) then s
    else if write then nmWrite s f x data rf else (nmRead s f x len rf).2

/-- NM_CE_WRITE_BACK (R320): granule g. -/
def execNmCeWriteBack (g : Nat) (s : State) : Host.Outcome State Fault Refusal :=
  up s fun s => nmWriteBack s g

/-- WS_PAGE_READ (R211, R228, R229). `errs`: bit errors of each die's page, none where it cannot be read; `peer`: a Stand
peer that holds the segment. -/
def execWsPageRead (f page : Nat) (errs : List (Option Nat)) (peer : Option Nat) (s : State) : Host.Outcome State Fault
    Refusal :=
  replied s fun s => if fieldResetting s f || !domOn s (52 + f) then s else wsPageRead s f page errs peer

/-- OMAP_SYNC (R186). -/
def execOmapSync (v : Word) (s : State) : Host.Outcome State Fault Refusal :=
  up s fun s => omapSync s v

/-- SPILL_POOL_WRITE (R187, R317): register w of the three. -/
def execSpillPoolWrite (w : Nat) (v : Word) (s : State) : Host.Outcome State Fault Refusal :=
  up s fun s => spillWrite s w v

/-- RES_READ (R194, R195). -/
def execResRead (p e : Nat) (acc : PortAccess) (s : State) : Host.Outcome State Fault Refusal :=
  .next (resCommand s p ⟨0, false, 0, e % 32768⟩ acc)

/-- RES_ALLOC (R195). -/
def execResAlloc (p e : Nat) (acc : PortAccess) (s : State) : Host.Outcome State Fault Refusal :=
  .next (resCommand s p ⟨1, false, 0, e % 32768⟩ acc)

/-- RES_PIN (R191, R195). -/
def execResPin (p gen e : Nat) (acc : PortAccess) (s : State) : Host.Outcome State Fault Refusal :=
  .next (resCommand s p ⟨2, false, gen % 256, e % 32768⟩ acc)

/-- RES_UNPIN (R195). -/
def execResUnpin (p gen e : Nat) (acc : PortAccess) (s : State) : Host.Outcome State Fault Refusal :=
  .next (resCommand s p ⟨3, false, gen % 256, e % 32768⟩ acc)

/-- RES_MOVE (R195–R197, R302). -/
def execResMove (p gen : Nat) (down : Bool) (e : Nat) (acc : PortAccess) (s : State) : Host.Outcome State Fault Refusal :=
  .next (resCommand s p ⟨4, down, gen % 256, e % 32768⟩ acc)

/-- RES_MOVE_DONE (R195, R197). -/
def execResMoveDone (p gen e : Nat) (acc : PortAccess) (s : State) : Host.Outcome State Fault Refusal :=
  .next (resCommand s p ⟨5, false, gen % 256, e % 32768⟩ acc)

/-- RES_MOVE_CANCEL (R195, R197). -/
def execResMoveCancel (p gen e : Nat) (acc : PortAccess) (s : State) : Host.Outcome State Fault Refusal :=
  .next (resCommand s p ⟨6, false, gen % 256, e % 32768⟩ acc)

/-- RES_RETIRE (R195). -/
def execResRetire (p gen e : Nat) (acc : PortAccess) (s : State) : Host.Outcome State Fault Refusal :=
  .next (resCommand s p ⟨7, false, gen % 256, e % 32768⟩ acc)

/-- RES_RELEASE (R195). -/
def execResRelease (p gen e : Nat) (acc : PortAccess) (s : State) : Host.Outcome State Fault Refusal :=
  .next (resCommand s p ⟨8, false, gen % 256, e % 32768⟩ acc)

/-- RES_FORGET (R195). -/
def execResForget (p gen e : Nat) (acc : PortAccess) (s : State) : Host.Outcome State Fault Refusal :=
  .next (resCommand s p ⟨9, false, gen % 256, e % 32768⟩ acc)

/-- RES_RESERVED_OP (R207). -/
def execResReservedOp (p op e : Nat) (acc : PortAccess) (s : State) : Host.Outcome State Fault Refusal :=
  .next (if 10 ≤ op ∧ op < 16 then resCommand s p ⟨op, false, 0, e % 32768⟩ acc else s)

/-- SEGMENT_PROGRAM (R212, R218, R224, R230): the installation engine takes the next segment of root r. -/
def execSegmentProgram (r : Nat) (bs : List Byte) (bad : Bool) (fails : List (List Nat)) (s : State) : Host.Outcome State
    Fault Refusal :=
  upFw s fun s => segmentProgram s r bs bad fails

/-- REPAIR_SWITCHOVER (R230). -/
def execRepairSwitchover (r : Nat) (s : State) : Host.Outcome State Fault Refusal :=
  upFw s fun s => repairSwitchover s r

/-- EXPERT_REQUEST (R227). -/
def execExpertRequest (n r layer list count area : Nat) (sem : Word) (s : State) : Host.Outcome State Fault Refusal :=
  onField s (n / 4) fun s => expertRequest s n r layer list count area sem

end Sys2Proof.Machine
end

