-- ==== Sys2Proof/Machine/TrustCommands.lean ====
section
/-! DEFINITION. Commands of maintenance, firmware, attestation and the service port: one meaning per row of the opcode table. -/

namespace Sys2Proof.Machine

/-- REPAIR_ADD (R91, R370). -/
def execRepairAdd (m : MaintSrc) (s : State) : Host.Outcome State Fault Refusal :=
  .next (maintCommand s 1 m)

/-- REPAIR_CLEAR (R370). -/
def execRepairClear (m : MaintSrc) (s : State) : Host.Outcome State Fault Refusal :=
  .next (maintCommand s 2 m)

/-- TALLY_ERASE (R370). -/
def execTallyErase (m : MaintSrc) (s : State) : Host.Outcome State Fault Refusal :=
  .next (maintCommand s 3 m)

/-- FUSE_ADVANCE (R380): at most this many fuses before a loss of power. -/
def execFuseAdvance (fuses : Nat) (s : State) : Host.Outcome State Fault Refusal :=
  up s fun s => fuseAdvance fuses s

/-- ATTEST_GO (R384). `busy`: a report is in progress. -/
def execAttestGo (busy : Bool) (s : State) : Host.Outcome State Fault Refusal :=
  up s fun s => attestGo s busy

/-- LOAD (R377, R385). `bytes`: the package as host memory holds it. -/
def execLoad (bytes : List Byte) (poisoned busy : Bool) (s : State) : Host.Outcome State Fault Refusal :=
  up s fun s => hostLoad s bytes poisoned busy

/-- ACTIVATE (R385). -/
def execActivate (busy : Bool) (s : State) : Host.Outcome State Fault Refusal :=
  up s fun s => hostActivate s busy

/-- IDENTIFY (R388). -/
def execIdentify (tag : Nat) (s : State) : Host.Outcome State Fault Refusal :=
  .next (if svcOpen s then svcIdentify s tag else s)

/-- TALLY_READ (R369, R388). -/
def execTallyRead (tag first count : Nat) (s : State) : Host.Outcome State Fault Refusal :=
  .next (if svcOpen s then svcTally s tag first count else s)

/-- WINDFALL_READ (R388). -/
def execWindfallRead (tag arg : Nat) (s : State) : Host.Outcome State Fault Refusal :=
  .next (if svcOpen s then svcWindfall s tag arg else s)

/-- ATTEST (R384, R388). -/
def execAttest (tag : Nat) (nonce : List Byte) (busy : Bool) (s : State) : Host.Outcome State Fault Refusal :=
  .next (if svcOpen s then svcAttest s tag nonce busy else s)

/-- CERT_READ (R383, R388). -/
def execCertRead (tag : Nat) (s : State) : Host.Outcome State Fault Refusal :=
  .next (if svcOpen s then svcCert s tag else s)

/-- FW_LOAD (R377, R385, R388). -/
def execFwLoad (tag : Nat) (bytes : List Byte) (busy : Bool) (s : State) : Host.Outcome State Fault Refusal :=
  .next (if svcOpen s then svcLoad s tag bytes busy else s)

/-- FW_ACTIVATE (R385, R388). -/
def execFwActivate (tag : Nat) (busy : Bool) (s : State) : Host.Outcome State Fault Refusal :=
  .next (if svcOpen s then svcActivate s tag busy else s)

/-- IMAGE_INSTALL (R224, R285, R388). -/
def execImageInstall (tag arg len : Nat) (env : DescEnv) (s : State) : Host.Outcome State Fault Refusal :=
  .next (if svcOpen s then svcImage s tag 0x20 (installReq arg len env) else s)

/-- IMAGE_REPAIR (R230, R388). -/
def execImageRepair (tag arg len : Nat) (env : DescEnv) (s : State) : Host.Outcome State Fault Refusal :=
  .next (if svcOpen s then svcImage s tag 0x21 (repairReq arg len env) else s)

/-- MAINT (R370, R388). -/
def execMaint (tag : Nat) (block : List Byte) (s : State) : Host.Outcome State Fault Refusal :=
  .next (if svcOpen s then svcMaint s tag block else s)

/-- RESET (R346, R379, R388). -/
def execReset (tag : Nat) (recovery : Bool) (stuck : List (Nat × Nat)) (s : State) : Host.Outcome State Fault Refusal :=
  .next (svcReset s tag recovery stuck)

/-- SERVICE_PORT_ENABLE (R386, R390). -/
def execServicePortEnable (v : Word) (s : State) : Host.Outcome State Fault Refusal :=
  up s fun s => storeBits s Reg.USB_SVC_CTRL v

/-- SERVICE_RESERVED_OPCODE (R387). -/
def execServiceReservedOpcode (tag op magic : Nat) (s : State) : Host.Outcome State Fault Refusal :=
  .next (if svcOpen s then if magic ≠ 0x4356534B ∨ !svcKnown (op % 256) then svcReserved s tag op else s else s)

end Sys2Proof.Machine
end

