-- ==== Sys2Proof/Machine/Dispatch.lean ====
section
/-! DEFINITION. The meaning of every command: one arm per constructor, each one direct call of its meaning. -/

namespace Sys2Proof.Machine

def exec (i : Instr) (s : State) : Host.Outcome State Fault Refusal :=
  match i with
  | .bundleIssue n stalls also => Sys2Proof.Machine.execBundleIssue n stalls also s
  | .hdgTimeout n also => Sys2Proof.Machine.execHdgTimeout n also s
  | .watchdog n also => Sys2Proof.Machine.execWatchdog n also s
  | .sequencerStopped n => Sys2Proof.Machine.execSequencerStopped n s
  | .start q => Sys2Proof.Machine.execStart q s
  | .resume n => Sys2Proof.Machine.execResume n s
  | .halt n also => Sys2Proof.Machine.execHalt n also s
  | .tineRescale n t => Sys2Proof.Machine.execTineRescale n t s
  | .tineDrain n t => Sys2Proof.Machine.execTineDrain n t s
  | .attendBlock n wait => Sys2Proof.Machine.execAttendBlock n wait s
  | .kvFetchBlock n a => Sys2Proof.Machine.execKvFetchBlock n a s
  | .kvwriteDone n e => Sys2Proof.Machine.execKvwriteDone n e s
  | .laneBlockStart n l => Sys2Proof.Machine.execLaneBlockStart n l s
  | .laneBlockDone n l => Sys2Proof.Machine.execLaneBlockDone n l s
  | .tableLoadDone n => Sys2Proof.Machine.execTableLoadDone n s
  | .tableLoad n slot gen => Sys2Proof.Machine.execTableLoad n slot gen s
  | .invalidate n slot => Sys2Proof.Machine.execInvalidate n slot s
  | .chanLanesWrite n v => Sys2Proof.Machine.execChanLanesWrite n v s
  | .encodeBlockDone n => Sys2Proof.Machine.execEncodeBlockDone n s
  | .expandDone n => Sys2Proof.Machine.execExpandDone n s
  | .latch n => Sys2Proof.Machine.execLatch n s
  | .commit n => Sys2Proof.Machine.execCommit n s
  | .sweep n v => Sys2Proof.Machine.execSweep n v s
  | .sweepDone n => Sys2Proof.Machine.execSweepDone n s
  | .partitionWrite n k v => Sys2Proof.Machine.execPartitionWrite n k v s
  | .spmCeWriteBack n w => Sys2Proof.Machine.execSpmCeWriteBack n w s
  | .forcedGrant n cycles bubble => Sys2Proof.Machine.execForcedGrant n cycles bubble s
  | .skidderTransferComplete n e => Sys2Proof.Machine.execSkidderTransferComplete n e s
  | .channelPost f k hi => Sys2Proof.Machine.execChannelPost f k hi s
  | .channelRecordStart f k host => Sys2Proof.Machine.execChannelRecordStart f k host s
  | .channelTransferComplete f k => Sys2Proof.Machine.execChannelTransferComplete f k s
  | .transferStall f coreQ core num => Sys2Proof.Machine.execTransferStall f coreQ core num s
  | .transferResume f coreQ core num => Sys2Proof.Machine.execTransferResume f coreQ core num s
  | .skidderAbort f v => Sys2Proof.Machine.execSkidderAbort f v s
  | .memoryReply id status data => Sys2Proof.Machine.execMemoryReply id status data s
  | .budgetGrant p cycles => Sys2Proof.Machine.execBudgetGrant p cycles s
  | .nmAccess f x write data len rf => Sys2Proof.Machine.execNmAccess f x write data len rf s
  | .nmCeWriteBack g => Sys2Proof.Machine.execNmCeWriteBack g s
  | .wsPageRead f page errs peer => Sys2Proof.Machine.execWsPageRead f page errs peer s
  | .omapSync v => Sys2Proof.Machine.execOmapSync v s
  | .spillPoolWrite w v => Sys2Proof.Machine.execSpillPoolWrite w v s
  | .resRead p e acc => Sys2Proof.Machine.execResRead p e acc s
  | .resAlloc p e acc => Sys2Proof.Machine.execResAlloc p e acc s
  | .resPin p gen e acc => Sys2Proof.Machine.execResPin p gen e acc s
  | .resUnpin p gen e acc => Sys2Proof.Machine.execResUnpin p gen e acc s
  | .resMove p gen down e acc => Sys2Proof.Machine.execResMove p gen down e acc s
  | .resMoveDone p gen e acc => Sys2Proof.Machine.execResMoveDone p gen e acc s
  | .resMoveCancel p gen e acc => Sys2Proof.Machine.execResMoveCancel p gen e acc s
  | .resRetire p gen e acc => Sys2Proof.Machine.execResRetire p gen e acc s
  | .resRelease p gen e acc => Sys2Proof.Machine.execResRelease p gen e acc s
  | .resForget p gen e acc => Sys2Proof.Machine.execResForget p gen e acc s
  | .resReservedOp p op e acc => Sys2Proof.Machine.execResReservedOp p op e acc s
  | .segmentProgram r bs bad fails => Sys2Proof.Machine.execSegmentProgram r bs bad fails s
  | .repairSwitchover r => Sys2Proof.Machine.execRepairSwitchover r s
  | .expertRequest n r layer list count area sem => Sys2Proof.Machine.execExpertRequest n r layer list count area sem s
  | .semPostArrive f gen index cnt => Sys2Proof.Machine.execSemPostArrive f gen index cnt s
  | .hdgPost v => Sys2Proof.Machine.execHdgPost v s
  | .hdgTake v => Sys2Proof.Machine.execHdgTake v s
  | .hdgSemWrite index v => Sys2Proof.Machine.execHdgSemWrite index v s
  | .notifyRead f => Sys2Proof.Machine.execNotifyRead f s
  | .barrierArrival f gen g sem cnt => Sys2Proof.Machine.execBarrierArrival f gen g sem cnt s
  | .hdgBarArrive v => Sys2Proof.Machine.execHdgBarArrive v s
  | .barrierCfgWrite g v => Sys2Proof.Machine.execBarrierCfgWrite g v s
  | .hdgAbort v => Sys2Proof.Machine.execHdgAbort v s
  | .abortTokenReceive p j q d => Sys2Proof.Machine.execAbortTokenReceive p j q d s
  | .hdgAbortClear v => Sys2Proof.Machine.execHdgAbortClear v s
  | .hedgerowFrameReceive p crcOk d gen dst m => Sys2Proof.Machine.execHedgerowFrameReceive p crcOk d gen dst m s
  | .genAnnounceReceive p d v => Sys2Proof.Machine.execGenAnnounceReceive p d v s
  | .portTraining p => Sys2Proof.Machine.execPortTraining p s
  | .portTrainingDone p failed hdgLane e => Sys2Proof.Machine.execPortTrainingDone p failed hdgLane e s
  | .flitReceive p seq f => Sys2Proof.Machine.execFlitReceive p seq f s
  | .ackTimeout p => Sys2Proof.Machine.execAckTimeout p s
  | .acknowledgementReceive p seq neg => Sys2Proof.Machine.execAcknowledgementReceive p seq neg s
  | .retrain p v => Sys2Proof.Machine.execRetrain p v s
  | .fabCfgWrite v => Sys2Proof.Machine.execFabCfgWrite v s
  | .fabRouteWrite d v => Sys2Proof.Machine.execFabRouteWrite d v s
  | .fabricPacketReceive p k => Sys2Proof.Machine.execFabricPacketReceive p k s
  | .windowEntryWrite index w v host => Sys2Proof.Machine.execWindowEntryWrite index w v host s
  | .winSync v => Sys2Proof.Machine.execWinSync v s
  | .heartbeat => Sys2Proof.Machine.execHeartbeat s
  | .headTakeover members mirror done => Sys2Proof.Machine.execHeadTakeover members mirror done s
  | .headClaim d epoch windows => Sys2Proof.Machine.execHeadClaim d epoch windows s
  | .buckerPost f hi => Sys2Proof.Machine.execBuckerPost f hi s
  | .buckerJobStart f host hostTab => Sys2Proof.Machine.execBuckerJobStart f host hostTab s
  | .buckerJobDone f => Sys2Proof.Machine.execBuckerJobDone f s
  | .ringTailDoorbell r off v => Sys2Proof.Machine.execRingTailDoorbell r off v s
  | .eqHeadDoorbell q off v => Sys2Proof.Machine.execEqHeadDoorbell q off v s
  | .narrowWriteDrop => Sys2Proof.Machine.execNarrowWriteDrop s
  | .descriptorRead r bytes env => Sys2Proof.Machine.execDescriptorRead r bytes env s
  | .fenceComplete r => Sys2Proof.Machine.execFenceComplete r s
  | .holdoffExpiry q => Sys2Proof.Machine.execHoldoffExpiry q s
  | .ringCfgWrite r v => Sys2Proof.Machine.execRingCfgWrite r v s
  | .eqCfgWrite q v => Sys2Proof.Machine.execEqCfgWrite q v s
  | .correlationArm v => Sys2Proof.Machine.execCorrelationArm v s
  | .timestampLatch k => Sys2Proof.Machine.execTimestampLatch k s
  | .functionLevelReset => Sys2Proof.Machine.execFunctionLevelReset s
  | .stepStart plan => Sys2Proof.Machine.execStepStart plan s
  | .stepCommit id outs => Sys2Proof.Machine.execStepCommit id outs s
  | .ctxPortRead p e acc => Sys2Proof.Machine.execCtxPortRead p e acc s
  | .ctxPortWrite p gen e acc => Sys2Proof.Machine.execCtxPortWrite p gen e acc s
  | .take p acc => Sys2Proof.Machine.execTake p acc s
  | .give p acc => Sys2Proof.Machine.execGive p acc s
  | .ctxReservedOp p op gen e acc => Sys2Proof.Machine.execCtxReservedOp p op gen e acc s
  | .drainTimeout e stuck => Sys2Proof.Machine.execDrainTimeout e stuck s
  | .teardownDrained e => Sys2Proof.Machine.execTeardownDrained e s
  | .trimApply e => Sys2Proof.Machine.execTrimApply e s
  | .scrubTick f => Sys2Proof.Machine.execScrubTick f s
  | .pprRequest f v spare => Sys2Proof.Machine.execPprRequest f v spare s
  | .pprDone f failed => Sys2Proof.Machine.execPprDone f failed s
  | .injectorArm unit v => Sys2Proof.Machine.execInjectorArm unit v s
  | .quarantineClear res fw v => Sys2Proof.Machine.execQuarantineClear res fw v s
  | .deviceErrorReport block u => Sys2Proof.Machine.execDeviceErrorReport block u s
  | .coreReset f v host => Sys2Proof.Machine.execCoreReset f v host s
  | .fieldReset f cause stuck => Sys2Proof.Machine.execFieldReset f cause stuck s
  | .fieldReady f => Sys2Proof.Machine.execFieldReady f s
  | .fieldReadyTimeout f stuck => Sys2Proof.Machine.execFieldReadyTimeout f stuck s
  | .foresterTrap f cause addr stuck => Sys2Proof.Machine.execForesterTrap f cause addr stuck s
  | .foresterWatchdog f addr stuck => Sys2Proof.Machine.execForesterWatchdog f addr stuck s
  | .surveyorTrap cause addr stuck => Sys2Proof.Machine.execSurveyorTrap cause addr stuck s
  | .surveyorWatchdog addr stuck => Sys2Proof.Machine.execSurveyorWatchdog addr stuck s
  | .hostFieldReset v stuck => Sys2Proof.Machine.execHostFieldReset v stuck s
  | .hostDeviceReset v stuck => Sys2Proof.Machine.execHostDeviceReset v stuck s
  | .deviceReset cause stuck => Sys2Proof.Machine.execDeviceReset cause stuck s
  | .deviceReady stuck => Sys2Proof.Machine.execDeviceReady stuck s
  | .windfallTimeLimit stuck => Sys2Proof.Machine.execWindfallTimeLimit stuck s
  | .observationTimeout got stuck => Sys2Proof.Machine.execObservationTimeout got stuck s
  | .fieldFence f v host => Sys2Proof.Machine.execFieldFence f v host s
  | .fieldFenceDone f => Sys2Proof.Machine.execFieldFenceDone f s
  | .standAbortRecovery j started windows groups sems moves => Sys2Proof.Machine.execStandAbortRecovery j started windows groups sems moves s
  | .tallyReadSelect v => Sys2Proof.Machine.execTallyReadSelect v s
  | .windfallPageSelect v => Sys2Proof.Machine.execWindfallPageSelect v s
  | .repairAdd m => Sys2Proof.Machine.execRepairAdd m s
  | .repairClear m => Sys2Proof.Machine.execRepairClear m s
  | .tallyErase m => Sys2Proof.Machine.execTallyErase m s
  | .fuseAdvance fuses => Sys2Proof.Machine.execFuseAdvance fuses s
  | .attestGo busy => Sys2Proof.Machine.execAttestGo busy s
  | .load bytes poisoned busy => Sys2Proof.Machine.execLoad bytes poisoned busy s
  | .activate busy => Sys2Proof.Machine.execActivate busy s
  | .identify tag => Sys2Proof.Machine.execIdentify tag s
  | .tallyRead tag first count => Sys2Proof.Machine.execTallyRead tag first count s
  | .windfallRead tag arg => Sys2Proof.Machine.execWindfallRead tag arg s
  | .attest tag nonce busy => Sys2Proof.Machine.execAttest tag nonce busy s
  | .certRead tag => Sys2Proof.Machine.execCertRead tag s
  | .fwLoad tag bytes busy => Sys2Proof.Machine.execFwLoad tag bytes busy s
  | .fwActivate tag busy => Sys2Proof.Machine.execFwActivate tag busy s
  | .imageInstall tag arg len env => Sys2Proof.Machine.execImageInstall tag arg len env s
  | .imageRepair tag arg len env => Sys2Proof.Machine.execImageRepair tag arg len env s
  | .maint tag block => Sys2Proof.Machine.execMaint tag block s
  | .reset tag recovery stuck => Sys2Proof.Machine.execReset tag recovery stuck s
  | .servicePortEnable v => Sys2Proof.Machine.execServicePortEnable v s
  | .serviceReservedOpcode tag op magic => Sys2Proof.Machine.execServiceReservedOpcode tag op magic s
  | .powerLoss src mask => Sys2Proof.Machine.execPowerLoss src mask s
  | .pwrgoodDeassert => Sys2Proof.Machine.execPwrgoodDeassert s
  | .powerOn devid hostSel => Sys2Proof.Machine.execPowerOn devid hostSel s
  | .domainSwitch k v host => Sys2Proof.Machine.execDomainSwitch k v host s
  | .domainSwitchDone k nonCore => Sys2Proof.Machine.execDomainSwitchDone k nonCore s
  | .coreOpWrite n v host => Sys2Proof.Machine.execCoreOpWrite n v host s
  | .coreOpApply n => Sys2Proof.Machine.execCoreOpApply n s
  | .opDeferExpiry n => Sys2Proof.Machine.execOpDeferExpiry n s
  | .powerSettingWrite v nonCore => Sys2Proof.Machine.execPowerSettingWrite v nonCore s
  | .powerSample x => Sys2Proof.Machine.execPowerSample x s
  | .idle => Sys2Proof.Machine.execIdle s
  | .idleWake doms => Sys2Proof.Machine.execIdleWake doms s
  | .standby v => Sys2Proof.Machine.execStandby v s
  | .standbyExit stuck => Sys2Proof.Machine.execStandbyExit stuck s
  | .thermalThrottleTick temps => Sys2Proof.Machine.execThermalThrottleTick temps s
  | .thermalCrit temps => Sys2Proof.Machine.execThermalCrit temps s
  | .thermalCritEnd temps => Sys2Proof.Machine.execThermalCritEnd temps s
  | .thermalTrip temps => Sys2Proof.Machine.execThermalTrip temps s
  | .thermalTripRecovery temps stuck => Sys2Proof.Machine.execThermalTripRecovery temps stuck s
  | .throttleRaise temps => Sys2Proof.Machine.execThrottleRaise temps s
  | .stackProgrammingPause f temp => Sys2Proof.Machine.execStackProgrammingPause f temp s
  | .stackProgrammingResume f temp => Sys2Proof.Machine.execStackProgrammingResume f temp s
  | .rcRegisterRead o bytes => Sys2Proof.Machine.execRcRegisterRead o bytes s
  | .registerWrite o bytes v host => Sys2Proof.Machine.execRegisterWrite o bytes v host s

end Sys2Proof.Machine
end

