-- ==== Sys2Proof/Safety.lean ====
section
/-! DEFINITION. What a sound state is: every sparse memory is in its one canonical form, so that equal contents are equal data, and
what a command may do to the queue and the part it runs on. -/

namespace Sys2Proof.Machine

/-- The canonical form of near memory: keys strictly rising, no granule listed that reads as an unlisted one (zero, without error). -/
def Memory.wf (m : Store NmGran) : Bool := storeWf (fun _ => {}) m

/-- The sparse memories of a core: scratchpad words, written bits, the Scale History Table. -/
structure CoreState.Canonical (c : CoreState) : Prop where
  spm : storeWf (fun _ => ({} : SpmWord)) c.spm = true
  written : storeWf (fun _ => false) c.written = true
  sht : storeWf (fun _ => (0 : Word)) c.sht = true

/-- The sparse memories of a Field: weight-store pages and program counts. -/
structure FieldState.Canonical (x : FieldState) : Prop where
  pages : storeWf (fun _ => (0 : BitVec 16384)) x.pages = true
  wear : storeWf (fun _ => 0) x.wear = true

/-- Every sparse memory of the machine is in its canonical form. -/
structure State.Canonical (s : State) : Prop where
  regs : storeWf (regReset s.part) s.regs = true
  nm : Memory.wf s.nm = true
  ctx : storeWf (fun _ => ({} : TabWord)) s.ctx = true
  res : storeWf (fun _ => ({} : TabWord)) s.res = true
  cores : ∀ n, (s.core n).Canonical
  fields : ∀ f, (s.field f).Canonical
  tally : storeWf (fun _ => (none : Option (BitVec 1024))) s.tally = true
  talSupp : storeWf (fun _ => 0) s.talSupp = true
  rings : storeWf (fun _ => ({} : RingState)) s.rings = true
  ctxFw : storeWf (fun _ => ({} : CtxFw)) s.ctxFw = true
  resDest : storeWf (fun _ => 0) s.resDest = true

/-- What every command leaves as it is: the part, the queue of the commands that wait, and the canonical form of every sparse
memory. -/
structure Keeps (s t : State) : Prop where
  part : t.part = s.part
  pending : t.pending = s.pending
  canonical : s.Canonical → t.Canonical

/-- Every register but those listed holds what it held. -/
def RegsKept (s t : State) (os : List Nat) : Prop := ∀ o, o ∉ os → t.reg o = s.reg o

/-- Nothing but registers differs. -/
def OnlyRegs (s t : State) : Prop := t = { s with regs := t.regs }

/-- Nothing but registers and core n differs. -/
def OnlyCore (s t : State) (n : Nat) : Prop :=
  t = { s with regs := t.regs, cores := t.cores } ∧ ∀ m, m ≠ n → t.core m = s.core m

/-- The registers that an appended or a suppressed Tally record changes (R364, R367). -/
def tallyRegs : List Nat := [Reg.TAL_SEQ, Reg.TAL_STATUS, Reg.TAL_REC_CNT, Reg.TAL_SUPPRESS_CNT, Reg.TAL_ERR_STATUS]

/-- Nothing but registers, core n and the Tally ring, with the clock and the free-value counter that give a record its timestamp, differs. -/
def OnlyCoreTally (s t : State) (n : Nat) : Prop :=
  t = { s with regs := t.regs, cores := t.cores, tally := t.tally, talSupp := t.talSupp, talSeen := t.talSeen, clocks := t.clocks, freeCtr := t.freeCtr }
    ∧ ∀ m, m ≠ n → t.core m = s.core m

/-- Register commands of core n reach it: the device runs, the core is present, and its base domain is ON. -/
def coreOpen (s : State) (n : Nat) : Bool := !isDown s && corePresent s n && domOn s (3 * n + 2)

/-- Register commands of Field f reach it: the device runs, the Field is present, and its domain is ON. -/
def fieldOpen (s : State) (f : Nat) : Bool := !isDown s && fieldPresent s f && domOn s (48 + f)

/-- A post to device semaphore i acts on it at once: its core is present, its Field not in reset, its island clock runs, and its core
belongs to no aborted job (R232, R243, R245). -/
structure SemOpen (s : State) (i : Nat) : Prop where
  present : semPresent s i = true
  ready : fieldInReset s (i / 1024) = false
  clock : clockStopped s (i / 256) = false
  live : coreAborted s (i / 256) = false

/-- No partition of core n is being swept, so that no access of its engines is put off (R89). -/
def Unswept (s : State) (n : Nat) : Prop := (s.core n).sweeping = 0 ∧ (s.core n).sweepHit = false

/-- A core that has just trapped: an ENCODE at the program counter no longer waits. -/
def trappedCore (c : CoreState) : CoreState := { c with seq := .trapped, hrw := { c.hrw with encWait := .no } }

/-- The state after the stall cycles of a BUNDLE_ISSUE, each counted under its highest-ranked cause (R166). -/
def afterStalls (s : State) (n : Nat) (stalls : List (List Nat)) : State :=
  stalls.foldl (fun s c => match c with
    | [] => s
    | r :: rs => countStall s n (rs.foldl min r) 1) s

/-- Nothing of firmware's own waits: no ended transfer to be seen to, no transfer for a channel, no object to come home, no write to
another device, no descriptor behind a FENCE, and reads of no segment go to a copy of it. -/
structure Quiet (s : State) : Prop where
  fwDone : s.fwDone = []
  chanWaits : s.chanWaits = []
  xferWaits : s.xferWaits = []
  headWrites : s.headWrites = []
  descs : ∀ d ∈ s.descs, d.started = true
  copies : ∀ r, r < 64 → ∀ g ∈ (s.root r).segs, g.redirect = false

/-- The data of word w of a table entry. -/
def tabData (s : State) (t : TabId) (e w : Nat) : Word := (tabWordAt s t e w).data

/-- A table entry without stored errors, not under quarantine. -/
def SoundEntry (s : State) (t : TabId) (e : Nat) : Prop :=
  quarantined s t e = false ∧ ∀ w, w < t.words → (tabWordAt s t e w).flip = 0

/-- Firmware's own command at one of its ports (R4, R194, R317), the port's previous command executed. -/
def FirmwarePort (s : State) (p : Nat) (acc : PortAccess) : Prop :=
  isDown s = false ∧ p < 5 ∧ (p = 4 ∨ fieldPresent s p = true) ∧ acc.host = false ∧ acc.early = false

end Sys2Proof.Machine
end

