-- ==== Sys2Proof/Certificates/Slice0/Obligations.lean ====
section
/-! DEFINITION. The statements about the model, for the provers. -/

open Sys2Proof Sys2Proof.Machine

/-- With a command in front of the queue, step is exec of that command on the state whose queue is the rest; with an empty queue
the block idles (the model's own choice, log entry 1). (00_scope.md, 95_what_each_step_holds.md) -/
def Obligations.StepRunsFrontCommand : Prop :=
  (∀ (c : Instr) (rest : List Instr) (s : State),
    s.pending = c :: rest → step s = exec c { s with pending := rest })
  ∧ ∀ s : State, s.pending = [] → step s = .next s

/-- For every command and every state, exec answers a next state (no command of this block stops), and that state has the queue
and the part number of the state before: a command never adds, drops or reorders waiting commands. (00_scope.md,
01_one_step_through_the_device.md) -/
def Obligations.CommandsKeepQueueAndPart : Prop :=
  ∀ (c : Instr) (s : State),
    ∃ t, exec c s = .next t ∧ t.pending = s.pending ∧ t.part = s.part

/-- From every state whose registers, near memory, tables, scratchpads, weight-store pages, Tally ring and ring records are in
canonical form (keys strictly rising, no entry equal to what an unlisted key reads as), a step, whatever command is in front,
answers a state where all of them are in canonical form again. (04_scratchpad.md, 08_memory_tiers_and_residency.md,
13_serving.md, 18_register_summary.md) -/
def Obligations.StepKeepsStoresCanonical : Prop :=
  ∀ s t : State, s.Canonical → step s = .next t → t.Canonical

/-- The state after reset has every sparse memory in canonical form, no command waiting, near memory with nothing listed and every
table entry FREE. The device and its Fields are out of reset (the model's reset state stands at READY: log entry 40 names the
values of the first power-on). Every Sequencer is STOPPED, every scratchpad zero and unwritten with partition 0 over all 96
tiles, every semaphore 0, no ring and no event queue enabled. Core power domains are OFF, domains 48 to 63 ON; the power
setting, throttle limit and deferral limit hold the reset values of their tables, and every core the operating point 0.
(04_scratchpad.md, 10_hedgerow.md, 12_host_interface.md, 13_serving.md, 15_reset_and_recovery.md, 17_power_clocks_package.md) -/
def Obligations.ResetState : Prop :=
  let s := State.reset
  s.Canonical ∧ s.pending = [] ∧ s.nm = [] ∧ s.ctx = [] ∧ s.res = []
    ∧ deviceInReset s = false ∧ (∀ f, f < 4 → fieldPresent s f = true ∧ fieldInReset s f = false)
    ∧ (∀ n, n < 16 → corePresent s n = true ∧ (s.core n).seq = .stopped ∧ (s.core n).spm = [] ∧ (s.core n).written = []
        ∧ (s.core n).sht = [] ∧ s.reg (coreReg n Reg.SPMn_PARTk) = 0x80000060 ∧ opNow s n = 0)
    ∧ (∀ i, i < 4096 → semVal s i = 0)
    ∧ (∀ r, ringEn s r = false) ∧ (∀ q, eqEn s q = false)
    ∧ (∀ k, k < 48 → domState s k = 0) ∧ (∀ k, 48 ≤ k → k < 64 → s.reg (domReg k) = 0x202)
    ∧ s.reg Reg.PWR_SETTING = 0x12C ∧ s.reg Reg.PWR_THROTTLE_C = 95 ∧ bits (s.reg Reg.PWR_OP_DEFER) 23 0 = 0x2DC7

/-- With register commands reaching core n. START of a STOPPED core whose engine domains are ON makes it RUNNING at the bundle of
COREn_ENTRY with no open loop and program cycle 0, and changes nothing else but the cycle marks of its engines; where the
Forester loads a kernel first, and no memory holds its accesses, START acts on the core as loaded. RESUME of a core TRAPPED by
cause 4 or 5 makes it RUNNING at the same bundle and clears COREn_TRAP, and changes nothing else. HALT of a RUNNING core makes
it TRAPPED with cause 5 in COREn_TRAP, its bundle offset in COREn_PC and event bit TRAP set; but for these and the Tally
record no register changes. (07_core_programming.md, 17_power_clocks_package.md) -/
def Obligations.SequencerControlAccepted : Prop :=
  ∀ (s : State) (n : Nat), s.Canonical → coreOpen s n = true →
    ((s.core n).seq = .stopped → domOn s (3 * n) = true → domOn s (3 * n + 1) = true →
      ∃ t, exec (.start ⟨n, none⟩) s = .next t
        ∧ t.core n = { s.core n with
            seq := .running, pc := bits (s.reg (coreReg n Reg.COREn_ENTRY)) 22 5, loops := [], prog := 0, ticked := 0, fetched := none,
            tines := (s.core n).tines.map fun x => { x with slotFree := 0, portFree := 0 } }
        ∧ (∀ m, m ≠ n → t.core m = s.core m) ∧ t = { s with cores := t.cores })
    ∧ (∀ p : KernelPlan, (s.core n).seq = .stopped → kernelHeld s n p = false →
        exec (.start ⟨n, some p⟩) s = .next (seqStart (kernelLoad s n p) n))
    ∧ ((s.core n).seq = .trapped →
        bits (s.reg (coreReg n Reg.COREn_TRAP)) 29 27 = 4 ∨ bits (s.reg (coreReg n Reg.COREn_TRAP)) 29 27 = 5 →
      ∃ t, exec (.resume n) s = .next t ∧ t.core n = { s.core n with seq := .running }
        ∧ t.reg (coreReg n Reg.COREn_TRAP) = 0
        ∧ RegsKept s t [coreReg n Reg.COREn_TRAP] ∧ OnlyCore s t n)
    ∧ ∀ also : Bool, (s.core n).seq = .running →
      ∃ t, exec (.halt n also) s = .next t ∧ t.core n = trappedCore (s.core n)
        ∧ bits (t.reg (coreReg n Reg.COREn_TRAP)) 31 24 = 0x80 + 0x40 * also.toNat + 8 * 5
        ∧ t.reg (coreReg n Reg.COREn_PC) = BitVec.ofNat 32 (32 * (s.core n).pc)
        ∧ t.reg (coreReg n Reg.COREn_EVENT_PEND) = s.reg (coreReg n Reg.COREn_EVENT_PEND) ||| bitMask 5
        ∧ RegsKept s t (coreReg n Reg.COREn_TRAP :: coreReg n Reg.COREn_PC :: coreReg n Reg.COREn_EVENT_PEND :: tallyRegs)
        ∧ OnlyCoreTally s t n

/-- With register commands reaching core n: START of a core that is not STOPPED (with a kernel to load or without) or whose engine
domains are not both ON, RESUME of a core that is not TRAPPED by cause 4 or 5, and HALT of a core that is not RUNNING set
event bit CFG_REJECT of the core and change nothing else. (07_core_programming.md) -/
def Obligations.SequencerControlRefused : Prop :=
  ∀ (s : State) (n : Nat) (also : Bool), coreOpen s n = true →
    let refused := s.setReg (coreReg n Reg.COREn_EVENT_PEND) (s.reg (coreReg n Reg.COREn_EVENT_PEND) ||| 0x100)
    (∀ load : Option KernelPlan, (s.core n).seq ≠ .stopped → exec (.start ⟨n, load⟩) s = .next refused)
    ∧ (domOn s (3 * n) = false ∨ domOn s (3 * n + 1) = false → exec (.start ⟨n, none⟩) s = .next refused)
    ∧ ((s.core n).seq ≠ .trapped
        ∨ bits (s.reg (coreReg n Reg.COREn_TRAP)) 29 27 ≠ 4 ∧ bits (s.reg (coreReg n Reg.COREn_TRAP)) 29 27 ≠ 5 →
      exec (.resume n) s = .next refused)
    ∧ ((s.core n).seq ≠ .running → exec (.halt n also) s = .next refused)

/-- With the clock of core n running: WATCHDOG on a RUNNING or DRAINING core with a limit set traps it with cause 3; HDG_TIMEOUT
on a RUNNING core with a wait limit set whose bundle waits on a semaphore that is too low traps it with cause 4 and leaves the
semaphore; SEQUENCER_STOPPED on a DRAINING core whose engines are all done makes it STOPPED and sets event bit DONE, and
nothing else changes. (07_core_programming.md) -/
def Obligations.SequencerLimitsAndStop : Prop :=
  ∀ (s : State) (n : Nat), s.Canonical → coreClocked s n = true →
    (∀ also : Bool, (s.core n).seq = .running ∨ (s.core n).seq = .draining →
        bits (s.reg (coreReg n Reg.COREn_WDOG_LIMIT)) 23 0 ≠ 0 →
      ∃ t, exec (.watchdog n also) s = .next t ∧ t.core n = trappedCore (s.core n)
        ∧ bits (t.reg (coreReg n Reg.COREn_TRAP)) 31 24 = 0x80 + 0x40 * also.toNat + 8 * 3
        ∧ t.reg (coreReg n Reg.COREn_PC) = BitVec.ofNat 32 (32 * (s.core n).pc) ∧ OnlyCoreTally s t n)
    ∧ (∀ (also : Bool) (w : Nat), (s.core n).seq = .running →
        bits (s.reg (coreReg n Reg.COREn_WAIT_LIMIT)) 23 0 ≠ 0 →
        (fetchBundle s n).1 = some w → waitUnmet s n (splitBundle w).hdg = true →
      ∃ t, exec (.hdgTimeout n also) s = .next t ∧ t.core n = trappedCore (s.core n)
        ∧ bits (t.reg (coreReg n Reg.COREn_TRAP)) 31 24 = 0x80 + 0x40 * also.toNat + 8 * 4
        ∧ (∀ i, i < 4096 → semVal t i = semVal s i) ∧ OnlyCoreTally s t n)
    ∧ ((s.core n).seq = .draining → drained s n = true →
      ∃ t, exec (.sequencerStopped n) s = .next t ∧ t.core n = { s.core n with seq := .stopped }
        ∧ t.reg (coreReg n Reg.COREn_EVENT_PEND) = s.reg (coreReg n Reg.COREn_EVENT_PEND) ||| 0x40
        ∧ RegsKept s t [coreReg n Reg.COREn_EVENT_PEND] ∧ OnlyCore s t n)

/-- A RUNNING core whose clock runs, with no sweep in progress and no scheduled engine work, whose next bundle holds only NOP
slots and a WAIT field w, with no loop body ending there, issues it: the program counter moves to the next bundle, the program
cycle count rises by 1 + w, the bundle counter by 1 (stopping at its limit), and the address registers, scalar registers,
scratchpad contents, Tines, near memory, other cores and everything put out stay as they were. Stall cycles that pass first do
not change this. (07_core_programming.md) -/
def Obligations.IdleBundleAdvancesProgramCounter : Prop :=
  ∀ (s : State) (n w : Nat) (stalls : List (List Nat)) (also : Bool), s.Canonical →
    coreClocked s n = true → (s.core n).seq = .running → (s.core n).loops = [] → w < 65536 →
    Unswept s n → enginesIdle s n = true → (fetchBundle (afterStalls s n stalls) n).1 = some w →
    ∃ t, exec (.bundleIssue n stalls also) s = .next t
      ∧ (t.core n).seq = .running ∧ (t.core n).pc = ((s.core n).pc + 1) % 262144
      ∧ (t.core n).prog = (s.core n).prog + 1 + w
      ∧ t.reg (coreReg n Reg.COREn_BUNDLE_CNT) = satAdd32 (s.reg (coreReg n Reg.COREn_BUNDLE_CNT)) 1
      ∧ t.reg (coreReg n Reg.COREn_PROG_CYCLE_CNT) = satAdd32 (s.reg (coreReg n Reg.COREn_PROG_CYCLE_CNT)) (1 + w)
      ∧ (∀ r, r < 32 → readAR t n r = readAR s n r) ∧ (t.core n).sregs = (s.core n).sregs
      ∧ (t.core n).spm = (s.core n).spm ∧ (t.core n).tines = (s.core n).tines
      ∧ (∀ m, m ≠ n → t.core m = s.core m) ∧ t.nm = s.nm ∧ t.out = s.out

/-- For a RUNNING core whose clock runs, with no sweep in progress and no scheduled engine work, a program counter outside every
instruction partition traps it with cause 1, and a fetched bundle of NOP slots whose reserved byte is not 0 traps it with
cause 2 at slot 0; in both cases COREn_PC holds the offset of that bundle, the program counter stays, event bit TRAP is set,
and no address register, no semaphore and no near memory changes. (07_core_programming.md, 04_scratchpad.md) -/
def Obligations.IllegalOrUnfetchedBundleTraps : Prop :=
  ∀ (s : State) (n : Nat) (also : Bool), s.Canonical → coreClocked s n = true → (s.core n).seq = .running →
    Unswept s n → enginesIdle s n = true →
    let trapped (t : State) (cause : Nat) : Prop :=
      (t.core n).seq = .trapped ∧ (t.core n).pc = (s.core n).pc
      ∧ bits (t.reg (coreReg n Reg.COREn_TRAP)) 31 24 = 0x80 + 0x40 * also.toNat + 8 * cause
      ∧ t.reg (coreReg n Reg.COREn_PC) = BitVec.ofNat 32 (32 * (s.core n).pc)
      ∧ flag (t.reg (coreReg n Reg.COREn_EVENT_PEND)) 5 = true
      ∧ (∀ r, r < 32 → readAR t n r = readAR s n r) ∧ (∀ i, i < 4096 → semVal t i = semVal s i) ∧ t.nm = s.nm
    (inInstrPart s n (32 * (s.core n).pc) = false →
      ∃ t, exec (.bundleIssue n [] also) s = .next t ∧ trapped t 1)
    ∧ (∀ w r, (fetchBundle s n).1 = some w → w = 65536 * r → 0 < r → r < 256 →
      ∃ t, exec (.bundleIssue n [] also) s = .next t ∧ trapped t 2)

/-- A RUNNING core whose clock runs, with no sweep in progress and no scheduled engine work, and whose bundle waits on a semaphore
below the count named stays at that bundle: beyond what fetching the bundle itself records, one cycle is counted as a
semaphore hold, as a stall and as an island cycle, each stopping at its limit; no other register changes, the program counter,
program cycle, Tines, scalar registers, queues and scratchpad stay, and no state of another core or of memory changes.
(07_core_programming.md, 10_hedgerow.md) -/
def Obligations.UnmetWaitHoldsBundle : Prop :=
  ∀ (s : State) (n w : Nat) (also : Bool), s.Canonical → coreClocked s n = true → (s.core n).seq = .running →
    Unswept s n → enginesIdle s n = true →
    (fetchBundle s n).1 = some w → waitUnmet s n (splitBundle w).hdg = true →
    let u := (fetchBundle s n).2
    ∃ t, exec (.bundleIssue n [] also) s = .next t
      ∧ t.reg (coreReg n Reg.COREn_SEM_HOLD_CNT) = satAdd32 (s.reg (coreReg n Reg.COREn_SEM_HOLD_CNT)) 1
      ∧ t.reg (coreReg n Reg.COREn_STALL_CNT) = satAdd32 (u.reg (coreReg n Reg.COREn_STALL_CNT)) 1
      ∧ t.reg (coreReg n Reg.COREn_ISLAND_CYCLE_CNT) = satAdd32 (u.reg (coreReg n Reg.COREn_ISLAND_CYCLE_CNT)) 1
      ∧ RegsKept u t [coreReg n Reg.COREn_SEM_HOLD_CNT, coreReg n Reg.COREn_STALL_CNT, coreReg n Reg.COREn_ISLAND_CYCLE_CNT]
      ∧ (t.core n).seq = .running ∧ (t.core n).pc = (s.core n).pc ∧ (t.core n).prog = (s.core n).prog
      ∧ (t.core n).tines = (s.core n).tines ∧ (t.core n).sregs = (s.core n).sregs ∧ (t.core n).vuq = (s.core n).vuq
      ∧ (t.core n).spm = (s.core n).spm ∧ OnlyCore s t n

/-- With core n's clock running and no sweep in progress, on a Tine whose running instruction takes both operands from the
scratchpad and stands in front of every Tine that it drives: while more groups follow, the instruction stays in front of each
of them with its group number one higher and no bank is handed over; at the last group of a tile's last instruction, on each
of them, the finished bank, with the tile's number and record, joins the banks to drain, the instruction leaves the queue and
the other bank takes over. A first group that meets two occupied banks on one of them only counts one drain-hold cycle. No
other core and no near memory changes. (02_tines.md, 03_quantisation_and_scales.md) -/
def Obligations.TineRescaleAdvancesGroup : Prop :=
  ∀ (s : State) (n t : Nat) (i : MmaInstr) (a w : Operand), s.Canonical → Unswept s n →
    coreClocked s n = true → t < 4 → frontInstr s n t = some i → i.act = .spm a → i.wgt = .spm w →
    let full := i.init = true ∧ i.group = 0 ∧ ∃ v, v ∈ gangTines i.gang t ∧ 2 ≤ (getTine s n v).drains.length
    let more := (i.group + 1) * groupLen i.rcd.gsize < i.k
    (full → exec (.tineRescale n t) s = .next (countStall s n 1 1))
    ∧ (¬ full → more →
      ∃ u, exec (.tineRescale n t) s = .next u
        ∧ (∀ v, v ∈ gangTines i.gang t →
            (getTine u n v).queue = { i with group := i.group + 1 } :: (getTine s n v).queue.drop 1
            ∧ (getTine u n v).drains = (getTine s n v).drains ∧ (getTine u n v).bank = (getTine s n v).bank)
        ∧ (∀ m, m ≠ n → u.core m = s.core m) ∧ u.nm = s.nm)
    ∧ (¬ full → ¬ more → i.last = true →
      ∃ u, exec (.tineRescale n t) s = .next u
        ∧ (∀ v, v ∈ gangTines i.gang t →
            (getTine u n v).queue = (getTine s n v).queue.drop 1 ∧ (getTine u n v).bank = !(getTine s n v).bank
            ∧ ∃ d, (getTine u n v).drains = (getTine s n v).drains ++ [d]
              ∧ d.bank = (getTine s n v).bank ∧ d.tileId = i.tileId ∧ d.rcd = i.rcd ∧ d.row = 0)
        ∧ (∀ m, m ≠ n → u.core m = s.core m) ∧ u.nm = s.nm)

/-- With core n's clock running and no sweep in progress, a Tine whose oldest finished bank need not wait for another Tine of its
gang or for vectors of a DIAG, and whose rows left find room where they go, drains it: the bank leaves the Tine, the tile
counter rises by 1 and its instruction queue stays. A bank whose rows are all masked leaves the Vector Unit input queue and
the scratchpad contents as they were. Where the rows do not all fit the Vector Unit input queue, it drains those that fit,
keeps the bank in front, and counts one drain-hold cycle. (02_tines.md, 07_core_programming.md) -/
def Obligations.TineDrainFreesBank : Prop :=
  ∀ (s : State) (n t : Nat) (d : BankDrain) (rest : List BankDrain), s.Canonical → Unswept s n →
    coreClocked s n = true → t < 4 → (getTine s n t).drains = d :: rest → gangWaits s n t d = false →
    (getTine s n t).diagRows = [] → d.row < 64 →
    let room := d.rcd.dvu = false
      ∨ (s.core n).vuq.length + (List.range 64).countP (fun i => decide (d.row ≤ i) && !d.mask.getLsbD i) ≤ 128
    (¬ room →
      ∃ u e, exec (.tineDrain n t) s = .next u
        ∧ (getTine u n t).drains = e :: rest ∧ e.tileId = d.tileId ∧ d.row ≤ e.row ∧ e.row < 64
        ∧ (u.core n).vuq.length = max (s.core n).vuq.length 128
        ∧ u.reg (coreReg n Reg.TINEn_DRAIN_HOLD_CNT)
            = (if countsCycles s n then satAdd32 (s.reg (coreReg n Reg.TINEn_DRAIN_HOLD_CNT)) 1
               else s.reg (coreReg n Reg.TINEn_DRAIN_HOLD_CNT))
        ∧ (∀ m, m ≠ n → u.core m = s.core m) ∧ u.nm = s.nm)
    ∧ (room →
      ∃ u, exec (.tineDrain n t) s = .next u
        ∧ (getTine u n t).drains = rest ∧ (getTine u n t).queue = (getTine s n t).queue
        ∧ u.reg (coreReg n Reg.TINEn_TILE_CNT) = satAdd32 (s.reg (coreReg n Reg.TINEn_TILE_CNT)) 1
        ∧ (∀ m, m ≠ n → u.core m = s.core m) ∧ u.nm = s.nm
        ∧ (d.mask = BitVec.allOnes 64 → (u.core n).vuq = (s.core n).vuq ∧ (u.core n).spm = (s.core n).spm))

/-- With core n's clock running and no sweep in progress: ATTEND_BLOCK on a running ATTEND whose next block is staged (or was
staged by firmware) and is not its last makes it run on with the block number one higher and counts one block; if the block is
not staged it only counts the wait as KV-wait stalls. KV_FETCH_BLOCK on an open fetch stream with a block to fetch and a
buffer free, whose Skidder entry lives, while no memory is held, the budget has room and nothing of firmware's own or no
earlier KV write waits, fetches it: that stream stands one block further, faulted or not. EXPAND_DONE with every block
expanded ends the EXPAND, closes its fetch stream and posts its semaphore once. (06_thresher.md, 07_core_programming.md) -/
def Obligations.AttentionBlockAndFetchBlock : Prop :=
  ∀ (s : State) (n : Nat), s.Canonical → Unswept s n → coreClocked s n = true →
    (∀ (wait : Nat) (a : AttRun), (thr s n).running = some a → 0 < a.block → a.block + 1 < a.rcd.blocks →
      let staged := a.stream = none ∨ ∃ id x, a.stream = some id ∧ findFetch s n id = some x ∧ a.block < x.fetched
      (staged → ∃ t b, exec (.attendBlock n wait) s = .next t ∧ (thr t n).running = some b
        ∧ b.block = a.block + 1 ∧ b.rcd = a.rcd ∧ b.stream = a.stream ∧ (thr t n).queued = (thr s n).queued
        ∧ t.reg (coreReg n Reg.THRn_BLOCK_CNT) = satAdd32 (s.reg (coreReg n Reg.THRn_BLOCK_CNT)) 1
        ∧ (∀ m, m ≠ n → t.core m = s.core m) ∧ t.nm = s.nm)
      ∧ (¬ staged → exec (.attendBlock n wait) s = .next (countStall s n 5 wait)))
    ∧ (∀ (a : Nat) (x : FetchStream),
        (thr s n).streams.find? (fun x => decide (x.recAddr = a) && decide (x.fetched < x.rcd.blocks)) = some x →
        x.fetched < x.read + x.rcd.bufs → fetchAlive s n x.id = true → kvParked s n = false →
        mayIssue s (.skq n 0) (n / 4) true = true → (∀ y len, kvHeld s y len = false) → Quiet s →
      ∃ t y, exec (.kvFetchBlock n a) s = .next t ∧ y ∈ (thr t n).streams
        ∧ y.id = x.id ∧ y.recAddr = a ∧ y.fetched = x.fetched + 1 ∧ y.read = x.read
        ∧ (thr t n).running = (thr s n).running ∧ (∀ m, m ≠ n → t.core m = s.core m))
    ∧ (∀ (e : Expand), (thr s n).expand = some e → e.rcd.blocks ≤ e.block →
        (∀ x, findFetch s n e.stream = some x → x.fetched ≤ e.block) →
      ∃ t, exec (.expandDone n) s = .next t ∧ (thr t n).expand = none
        ∧ (thr t n).streams = (thr s n).streams.filter (fun x => decide (x.id ≠ e.stream))
        ∧ (∀ k, e.sem = some k → SemOpen s (256 * n + k) →
            semVal t (256 * n + k) = min (semVal s (256 * n + k) + 1) 0xFFFF))

/-- With core n's clock running and no sweep in progress: LANE_BLOCK_START on an idle lane, when the block at the front of its
queue has arrived whole, belongs to an open stream, and its table slot is not being loaded, takes it off the queue; on a
RUNNING core, and for a channel transfer's stream, the lane then holds it, and no other lane changes (outside RUNNING rows are
written at once, and a stream may close with them). LANE_BLOCK_DONE on a lane that holds a block of no stream, of a channel
transfer's stream, or one whose last row is at most eight rows ahead of the rows written or consumed, while no Skidder entry
and no channel of the core's Field moves blocks, leaves the lane idle with the same queue, counts one decoded block, one raw
block if it was raw, and its payload in units of 64 bytes; a stream with more blocks to come has one more delivered. A lane
further ahead keeps its block, and nothing changes. (05_harrow.md) -/
def Obligations.LaneTakesAndEndsBlock : Prop :=
  ∀ (s : State) (n l : Nat), s.Canonical → Unswept s n → coreClocked s n = true → l < 8 →
    (∀ (b : HBlock) (rest : List HBlock) (st : HStream),
        (hlane (hrw s n) l).cur = none → (hlane (hrw s n) l).queue = b :: rest → ownerStream (hrw s n) b.owner = some st →
        b.ready = true → (anyPoison b.hdr = true ∨ ∀ x, (hrw s n).load = some x → x.slot ≠ (parseHdr b.hdr).slot) →
      ∃ t, exec (.laneBlockStart n l) s = .next t ∧ (hlane (hrw t n) l).queue = rest
        ∧ (∀ k, k ≠ l → (hlane (hrw t n) k).queue = (hlane (hrw s n) k).queue)
        ∧ ((s.core n).seq = .running ∨ st.chan ≠ none →
            (∃ bytes, hlane (hrw t n) l = { queue := rest, cur := some (b, bytes) })
            ∧ (∀ k, k ≠ l → hlane (hrw t n) k = hlane (hrw s n) k)
            ∧ (hrw t n).streams.map (fun x => (x.num, x.chan, x.done)) = (hrw s n).streams.map (fun x => (x.num, x.chan, x.done)))
        ∧ (∀ m, m ≠ n → t.core m = s.core m))
    ∧ (∀ (b : HBlock) (bytes : List PByte), (hlane (hrw s n) l).cur = some (b, bytes) →
        s.skq n = [] → (∀ k, k < 16 → (s.chan (n / 4) k).cur = none) →
      let near (st : HStream) : Prop := (st.chan ≠ none ∧ ∃ off, st.dest = .spm off)
        ∨ (b.blk - st.firstBlk) / st.k * 128 + bytes.length / 32 ≤ st.row + 8
      ((∃ st, ownerStream (hrw s n) b.owner = some st ∧ ¬ near st) → exec (.laneBlockDone n l) s = .next s)
      ∧ ((∀ st, ownerStream (hrw s n) b.owner = some st → near st) → ∃ t, exec (.laneBlockDone n l) s = .next t
        ∧ hlane (hrw t n) l = { queue := (hlane (hrw s n) l).queue, cur := none }
        ∧ (∀ k, k ≠ l → hlane (hrw t n) k = hlane (hrw s n) k)
        ∧ t.reg (coreReg n Reg.HRWn_DEC_BLK_CNT) = satAdd32 (s.reg (coreReg n Reg.HRWn_DEC_BLK_CNT)) 1
        ∧ t.reg (coreReg n Reg.HRWn_DEC_RAW_BLK_CNT)
            = satAdd32 (s.reg (coreReg n Reg.HRWn_DEC_RAW_BLK_CNT)) (parseHdr b.hdr).raw.toNat
        ∧ t.reg (coreReg n Reg.HRWn_DEC_PAYLOAD_CNT)
            = satAdd32 (s.reg (coreReg n Reg.HRWn_DEC_PAYLOAD_CNT)) (ceilDiv (parseHdr b.hdr).len 64)
        ∧ (∀ st, ownerStream (hrw s n) b.owner = some st → st.done + 1 < blockCount st.n st.k →
            ∃ x, x ∈ (hrw t n).streams ∧ x.num = st.num ∧ x.chan = st.chan ∧ x.done = st.done + 1)))

/-- With core n's clock running and no sweep in progress, and once the source that is due has been read: ENCODE_BLOCK_DONE of an
ENCODE whose next block has been read, while no finished block waits for the Skidder queue, counts one encoded block; before
the last block the ENCODE runs on with one more block done, and after the last block the encoder is free. Where a channel's
job holds the encoder and its transfer runs and holds no data of an earlier block, it counts one encoded block, and the job
stands one block further or leaves. Streams, lanes and tables stay as they were, whatever becomes of the block's bytes.
(05_harrow.md) -/
def Obligations.EncoderEndsBlock : Prop :=
  ∀ (s : State) (n : Nat) (e : HEnc), s.Canonical → Unswept s n → coreClocked s n = true →
    let u := if (s.core n).seq = .running then s else encRead s n none
    let counted (t : State) : Prop :=
      t.reg (coreReg n Reg.HRWn_ENC_BLK_CNT) = satAdd32 (s.reg (coreReg n Reg.HRWn_ENC_BLK_CNT)) 1
      ∧ (hrw t n).streams = (hrw s n).streams ∧ (hrw t n).lanes = (hrw s n).lanes ∧ (hrw t n).slots = (hrw s n).slots
    (∀ bs, (hrw u n).enc = some e → e.chan = none → encBlockRaw e = some bs → (hrw u n).encOut = [] →
      ∃ t, exec (.encodeBlockDone n) s = .next t ∧ (hrw t n).enc = encNext e ∧ counted t)
    ∧ (∀ (k : Nat) (x : Xfer) (rest : List HEnc),
        (hrw s n).enc = none → (hrw s n).encWait ≠ .ready → (hrw s n).chanEncs = e :: rest → e.chan = some k →
        getXfer s (.chan (n / 4) k) = some x → x.held = [] → x.stop = false →
      ∃ t, exec (.encodeBlockDone n) s = .next t ∧ (hrw t n).chanEncs = (encNext e).toList ++ rest ∧ (hrw t n).enc = none ∧ counted t)
    ∧ encNext e = (if blockCount e.n e.k ≤ e.done + 1 then none
        else some { e with done := e.done + 1, raw := if (e.done + 1) % e.k = 0 then e.raw.drop (4096 * e.k) else e.raw })

/-- With register commands reaching core n. TABLE_LOAD and INVALIDATE of a slot that blocks use, or while a load runs, change no
slot, set TBL_REJECT and answer TABLE_BUSY (0x0A) in HRWn_TBL_RESULT; otherwise TABLE_LOAD starts the load of that slot and
generation from HRWn_TBL_ADDR with BUSY in HRWn_TBL_RESULT, and INVALIDATE makes the slot invalid with result 0.
CHAN_LANES_WRITE stores the mask of a STOPPED core and is refused with bit 5 of HRWn_ERR_STATUS while the Sequencer runs
(transfers of the core's queue and of the Field's channels, where there are any, then go on with the lanes they find). With
the core's clock running and no sweep in progress, TABLE_LOAD_DONE ends the load: a good image makes the slot valid with the
load's generation and that table; a poisoned image (0x02) or a malformed one (0x0B) leaves it invalid and sets bit 4 of
HRWn_ERR_STATUS; other slots stay. (05_harrow.md) -/
def Obligations.TableSlotLoadAndInvalidate : Prop :=
  ∀ (s : State) (n : Nat), s.Canonical → coreOpen s n = true →
    (∀ slot gen : Nat, (hrw s n).load ≠ none ∨ 0 < slotInUse (hrw s n) (slot % 16) →
      let refused := hrwFlag s n (bitMask 3)
      exec (.tableLoad n slot gen) s = .next (refused.setReg (coreReg n Reg.HRWn_TBL_RESULT) (tblResult (slot % 16) 0x0A))
      ∧ exec (.invalidate n slot) s = .next (refused.setReg (coreReg n Reg.HRWn_TBL_RESULT) (tblResult (slot % 16) 0x0A)))
    ∧ (∀ slot gen : Nat, (hrw s n).load = none → slotInUse (hrw s n) (slot % 16) = 0 →
      (∃ t, exec (.tableLoad n slot gen) s = .next t
        ∧ hrw t n = { hrw s n with
            load := some ⟨slot % 16, gen % 16, bits (s.reg (coreReg n Reg.HRWn_TBL_ADDR)) 22 0, true⟩ }
        ∧ t.reg (coreReg n Reg.HRWn_TBL_RESULT) = BitVec.ofNat 32 (0x40000000 + 256 * (slot % 16))
        ∧ RegsKept s t [coreReg n Reg.HRWn_TBL_RESULT] ∧ OnlyCore s t n)
      ∧ ∃ t, exec (.invalidate n slot) s = .next t
        ∧ (hslot (hrw t n) (slot % 16)).valid = false
        ∧ (∀ k, k ≠ slot % 16 → hslot (hrw t n) k = hslot (hrw s n) k)
        ∧ t.reg (coreReg n Reg.HRWn_TBL_RESULT) = BitVec.ofNat 32 (0x80000000 + 256 * (slot % 16))
        ∧ RegsKept s t [coreReg n Reg.HRWn_TBL_RESULT] ∧ OnlyCore s t n)
    ∧ (∀ v : Word,
        let written := if (s.core n).seq = .stopped then s.setReg (coreReg n Reg.HRWn_LANE_CTRL) (v &&& 0xFF) else hrwFlag s n (bitMask 5)
        exec (.chanLanesWrite n v) s = .next (pumpCore written n)
        ∧ (s.skq n = [] → (∀ k, k < 16 → (s.chan (n / 4) k).cur = none) → pumpCore written n = written))
    ∧ ∀ l : HLoad, coreClocked s n = true → Unswept s n → (hrw s n).load = some l → l.slot < 16 →
      let image := (spmRead s n l.addr 320).bytes
      ∃ t, exec (.tableLoadDone n) s = .next t ∧ (hrw t n).load = none
        ∧ (∀ k, k ≠ l.slot → hslot (hrw t n) k = hslot (hrw s n) k)
        ∧ (∀ tb, anyPoison image = false → parseTable (plain image) = some tb → hslot (hrw t n) l.slot = ⟨true, l.gen, tb⟩
            ∧ (l.forester = true → t.reg (coreReg n Reg.HRWn_TBL_RESULT) = tblResult l.slot 0))
        ∧ (anyPoison image = true ∨ parseTable (plain image) = none → (hslot (hrw t n) l.slot).valid = false
            ∧ flag (t.reg (coreReg n Reg.HRWn_ERR_STATUS)) 4 = true
            ∧ (l.forester = true → t.reg (coreReg n Reg.HRWn_TBL_RESULT)
                = tblResult l.slot (if anyPoison image then 0x02 else 0x0B)))

/-- With register commands reaching core n: LATCH copies the sixteen words of the indexed entry into the data registers and
changes nothing else. COMMIT while the Sequencer runs, or with a reserved format, a count above 16 or a seed that is not
positive, finite and normal, sets WR_REJECT and changes nothing else. An accepted COMMIT stores words 0 to 8, 11 and 13 as
written, the defined bits of words 12 and 14, word 15 as 0, leaves every other entry and every register as it was, and with no
history in the entry makes word 9, the current scale, the seed. (03_quantisation_and_scales.md) -/
def Obligations.ScaleHistoryLatchAndCommit : Prop :=
  ∀ (s : State) (n : Nat), s.Canonical → coreOpen s n = true →
    let e := bits (s.reg (coreReg n Reg.VUn_SHT_INDEX)) 7 0
    let d (w : Nat) : Word := s.reg (coreReg n (Reg.VUn_SHT_DATAw + 4 * w))
    let bad := (s.core n).seq ≠ .stopped ∨ 5 < bits (d 12) 8 6 ∨ 16 < bits (d 12) 20 16 ∨ seedLegal (d 11) = false
    (∃ t, exec (.latch n) s = .next t
      ∧ (∀ w, w < 16 → t.reg (coreReg n (Reg.VUn_SHT_DATAw + 4 * w)) = shtWord s n e w)
      ∧ RegsKept s t ((List.range 16).map fun w => coreReg n (Reg.VUn_SHT_DATAw + 4 * w)) ∧ OnlyRegs s t)
    ∧ (bad → exec (.commit n) s = .next (s.raise (coreReg n Reg.VUn_SHT_STATUS) (bitMask 2)))
    ∧ (¬ bad → ∃ t, exec (.commit n) s = .next t
      ∧ (∀ w, w < 9 ∨ w = 11 ∨ w = 13 → shtWord t n e w = d w)
      ∧ shtWord t n e 12 = d 12 &&& 0x001FF1FF ∧ shtWord t n e 14 = d 14 &&& 0xFFFF ∧ shtWord t n e 15 = 0
      ∧ (bits (d 12) 8 6 ≠ 5 → bits (d 12) 20 16 = 0 → shtWord t n e 9 = d 11)
      ∧ (∀ f w, f ≠ e → w < 16 → shtWord t n f w = shtWord s n f w)
      ∧ t.regs = s.regs ∧ OnlyCore s t n)

/-- With register commands reaching core n: SWEEP makes every word of every tile of the enabled partitions it names, unless
already being swept, read as an unwritten word, marks those partitions as being swept, and leaves every other word; an
accepted PARTITION_WRITE that changes no tile's check mode stores the defined bits of the register and changes nothing else.
With the core's clock running: SWEEP_DONE, while nothing waits for the scratchpad, ends the sweep and sets SWEEP_DONE;
SPM_CE_WRITE_BACK of a word that awaits its write-back stores the word as it is corrected, without error, and leaves every
other word; FORCED_GRANT in RUNNING or DRAINING counts its cycles once as arbitration holds (or arbitration bubbles), stalls
and island cycles. (04_scratchpad.md, 07_core_programming.md) -/
def Obligations.ScratchpadSweepAndPartition : Prop :=
  ∀ (s : State) (n : Nat), s.Canonical → coreOpen s n = true →
    (∀ v : Word,
      let swept (k : Nat) : Prop := k < 8 ∧ flag v k = true ∧ flag (partWord s n k) 31 = true ∧ flag (s.core n).sweeping k = false
      let inPart (k tile : Nat) : Prop := bits (partWord s n k) 14 8 ≤ tile
        ∧ tile < bits (partWord s n k) 14 8 + bits (partWord s n k) 6 0
      ∃ t, exec (.sweep n v) s = .next t
        ∧ (∀ wi, (∃ k, swept k ∧ inPart k (wi / 8192)) → storeGet {} (t.core n).spm wi = {})
        ∧ (∀ wi, (¬ ∃ k, swept k ∧ inPart k (wi / 8192)) → storeGet {} (t.core n).spm wi = storeGet {} (s.core n).spm wi)
        ∧ (∀ k, k < 8 → (flag (t.core n).sweeping k = true ↔ swept k ∨ flag (s.core n).sweeping k = true))
        ∧ t.regs = s.regs ∧ OnlyCore s t n)
    ∧ (∀ (k : Nat) (v : Word), k < 8 → partRefused s n k v = false →
        (∀ i, i < 96 → tileMode s n i = tileMode (s.setReg (coreReg n (Reg.SPMn_PARTk + 4 * k)) (v &&& 0xE0007F7F)) n i) →
      exec (.partitionWrite n k v) s = .next (s.setReg (coreReg n (Reg.SPMn_PARTk + 4 * k)) (v &&& 0xE0007F7F)))
    ∧ (coreClocked s n = true → (s.core n).sweeping ≠ 0 → Quiet s → s.heldReqs = [] → (∀ w, w ∈ s.waiters → w.1 ≠ 16 + n) →
      ∃ t, exec (.sweepDone n) s = .next t ∧ t.core n = { s.core n with sweeping := 0 }
        ∧ t.reg (coreReg n Reg.SPMn_ERR_STATUS) = s.reg (coreReg n Reg.SPMn_ERR_STATUS) ||| 0x40
        ∧ RegsKept s t [coreReg n Reg.SPMn_ERR_STATUS] ∧ OnlyCore s t n)
    ∧ (∀ w : Nat, coreClocked s n = true → w ∈ (s.core n).ceWb →
      ∃ t, exec (.spmCeWriteBack n w) s = .next t
        ∧ (∀ d b, readWord false (storeGet {} (s.core n).spm w) = .corrected d b → storeGet {} (t.core n).spm w = ⟨d, 0⟩)
        ∧ (popCount (storeGet {} (s.core n).spm w).flip = 1 →
            storeGet {} (t.core n).spm w = { storeGet {} (s.core n).spm w with flip := 0 })
        ∧ (∀ x, x ≠ w → storeGet {} (t.core n).spm x = storeGet {} (s.core n).spm x)
        ∧ w ∉ (t.core n).ceWb ∧ t.regs = s.regs ∧ OnlyCore s t n)
    ∧ (∀ (cycles : Nat) (bubble : Bool), coreClocked s n = true → 0 < cycles →
        (s.core n).seq = .running ∨ (s.core n).seq = .draining →
      let hold := coreReg n (if bubble then Reg.TINEn_BUBBLE_ARB_CNT else Reg.SPMn_ARB_HOLD_CNT)
      ∃ t, exec (.forcedGrant n cycles bubble) s = .next t
        ∧ t.reg hold = satAdd32 (s.reg hold) cycles
        ∧ t.reg (coreReg n Reg.COREn_STALL_CNT) = satAdd32 (s.reg (coreReg n Reg.COREn_STALL_CNT)) cycles
        ∧ t.reg (coreReg n Reg.COREn_ISLAND_CYCLE_CNT) = satAdd32 (s.reg (coreReg n Reg.COREn_ISLAND_CYCLE_CNT)) cycles
        ∧ t.reg (coreReg n Reg.COREn_BUBBLE_CNT)
            = (if bubble then satAdd32 (s.reg (coreReg n Reg.COREn_BUBBLE_CNT)) cycles else s.reg (coreReg n Reg.COREn_BUBBLE_CNT))
        ∧ RegsKept s t [hold, coreReg n Reg.COREn_STALL_CNT, coreReg n Reg.COREn_ISLAND_CYCLE_CNT, coreReg n Reg.COREn_BUBBLE_CNT]
        ∧ OnlyRegs s t)

/-- A write to SPMn_PARTk that reaches its core is refused when the Sequencer runs, when the new partition is enabled and overlaps
another enabled one, when FIRST + COUNT exceeds 96, when EN is set with COUNT 0, and when INSTR is set with MODE = BYTE:
CFG_REJECT is set, and the register and everything else stay unchanged. (A range that is written disabled covers nothing and
overlaps nothing: log entry 55.) (R79) -/
def Obligations.PartitionWriteRefused : Prop :=
  ∀ (s : State) (n k : Nat) (v : Word), coreOpen s n = true → k < 8 →
    ((s.core n).seq ≠ .stopped
      ∨ (flag v 31 = true ∧ ∃ j, j < 8 ∧ j ≠ k ∧ flag (partWord s n j) 31 = true
          ∧ bits v 14 8 < bits (partWord s n j) 14 8 + bits (partWord s n j) 6 0
          ∧ bits (partWord s n j) 14 8 < bits v 14 8 + bits v 6 0)
      ∨ 96 < bits v 14 8 + bits v 6 0
      ∨ (flag v 31 = true ∧ bits v 6 0 = 0)
      ∨ (flag v 30 = true ∧ flag v 29 = true)) →
    exec (.partitionWrite n k v) s
      = .next (s.setReg (coreReg n Reg.SPMn_ERR_STATUS) (s.reg (coreReg n Reg.SPMn_ERR_STATUS) ||| 0x20))

/-- While nothing of firmware's own waits and no partition of the core is being swept: KVWRITE_DONE on an entry held by a finished
KVWRITE, and SKIDDER_TRANSFER_COMPLETE on an entry whose transfer is complete, remove that entry from the core's Skidder
queue, keep every other entry, count one transfer in the Field's SKDn_XFER_CNT, record a status that is not 0 with its entry
in COREn_SKQ_STATUS and event bit SKQ_ERR, and post the semaphore that the transfer names once, up to 0xFFFF, where a post
acts on it at once. (06_thresher.md, 07_core_programming.md, 13_serving.md) -/
def Obligations.KvWriteAndSkidderEntryEnd : Prop :=
  ∀ (s : State) (n e : Nat) (q : SkqEntry), s.Canonical → coreClocked s n = true → Unswept s n → Quiet s →
    (s.skq n).find? (fun x => decide (x.idx = e)) = some q →
    let ended (t : State) : Prop :=
      t.skq n = (s.skq n).filter (fun x => decide (x.idx ≠ e))
      ∧ t.reg (fieldReg (n / 4) Reg.SKDn_XFER_CNT) = satAdd32 (s.reg (fieldReg (n / 4) Reg.SKDn_XFER_CNT)) 1
      ∧ (q.xfer.code ≠ 0 → t.reg (coreReg n Reg.COREn_SKQ_STATUS) = BitVec.ofNat 32 (0x80000000 + 256 * e + q.xfer.code)
          ∧ flag (t.reg (coreReg n Reg.COREn_EVENT_PEND)) 7 = true)
      ∧ (∀ i, q.xfer.sem = some i → SemOpen s i →
          semVal t i = min (semVal s i + 1) 0xFFFF)
    (q.xfer.kind = .kv → ∃ t, exec (.kvwriteDone n e) s = .next t ∧ ended t)
    ∧ (domOn s (48 + n / 4) = true → xferComplete s (.skq n e) q.xfer = true →
        ∃ t, exec (.skidderTransferComplete n e) s = .next t ∧ ended t)

/-- On a channel of a reachable Field whose domain is ON, while nothing of firmware's own waits: CHANNEL_POST appends the record's
address to a queue of fewer than 8 and otherwise only sets bit 2 of SKDn_ERR_STATUS. CHANNEL_RECORD_START on an idle channel
takes the first posted record: a record that can be read without poison becomes the running transfer with its source,
destination and length; while the read waits, the channel stays as it is; a record that cannot be read ends with code 0x0B, a
poisoned one with 0x02, both setting bit 3 of SKDn_ERR_STATUS. CHANNEL_TRANSFER_COMPLETE on a complete transfer of a record
frees the channel, stores its code, counts one transfer and posts its semaphore once, where a post acts on it at once.
(08_memory_tiers_and_residency.md, 14_data_integrity.md) -/
def Obligations.ChannelRecordLifecycle : Prop :=
  ∀ (s : State) (f k : Nat), s.Canonical → fieldReachable s f = true → domOn s (48 + f) = true → k < 16 → Quiet s →
    (∀ hi : Word, (s.chan f k).queue.length < 8 →
      let a := (s.reg (fieldReg f (Reg.SKDn_CHk_POST_LO + 8 * k))).toNat / 64 * 64 + bits hi 15 0 * 2 ^ 32
      exec (.channelPost f k hi) s = .next (s.setChan f k { s.chan f k with queue := (s.chan f k).queue ++ [.record a] }))
    ∧ (∀ hi : Word, 8 ≤ (s.chan f k).queue.length →
      exec (.channelPost f k hi) s = .next (s.raise (fieldReg f Reg.SKDn_ERR_STATUS) (bitMask 2)))
    ∧ (∀ (a : Nat) (rest : List ChanItem) (host : List (Byte × Bool)),
        (s.chan f k).cur = none → (s.chan f k).halted = false → (s.chan f k).queue = .record a :: rest →
      let failed (code : Nat) : Prop := ∃ t, exec (.channelRecordStart f k host) s = .next t
        ∧ (t.chan f k).cur = none ∧ (t.chan f k).queue = rest ∧ (t.chan f k).code = code
        ∧ flag (t.reg (fieldReg f Reg.SKDn_ERR_STATUS)) 3 = true
      (∀ v, readRecord s f a 64 host = .wait v → ∃ t, exec (.channelRecordStart f k host) s = .next t ∧ t.chan f k = s.chan f k)
      ∧ (∀ v, readRecord s f a 64 host = .none v → failed 0x0B)
      ∧ (∀ b v, readRecord s f a 64 host = .got b v → anyPoison b = true → failed 0x02)
      ∧ ∀ b v, readRecord s f a 64 host = .got b v → anyPoison b = false →
          let x := parseChanRec (plain b)
          ∃ t y, exec (.channelRecordStart f k host) s = .next t ∧ (t.chan f k).queue = rest ∧ (t.chan f k).cur = some y
            ∧ y.src = x.src ∧ y.dst = x.dst ∧ y.len = x.len)
    ∧ ∀ x : Xfer, (s.chan f k).cur = some x → (s.chan f k).purpose = none → xferComplete s (.chan f k) x = true →
      ∃ t, exec (.channelTransferComplete f k) s = .next t
        ∧ (t.chan f k).cur = none ∧ (t.chan f k).code = x.code ∧ (t.chan f k).queue = (s.chan f k).queue
        ∧ t.reg (fieldReg f Reg.SKDn_XFER_CNT) = satAdd32 (s.reg (fieldReg f Reg.SKDn_XFER_CNT)) 1
        ∧ (∀ i, x.sem = some i → SemOpen s i →
            semVal t i = min (semVal s i + 1) 0xFFFF)

/-- For a HALTED channel of a reachable Field whose domain is ON, while nothing of firmware's own waits: CHANNEL_RECORD_START
changes nothing; a post with room in the queue is appended; a write to SKDn_ABORT that names the channel ends the halt and
changes nothing else, and a channel with a record that can be read without poison then starts it. (R334) -/
def Obligations.HaltedChannelHoldsItsRecords : Prop :=
  ∀ (s : State) (f k : Nat) (host : List (Byte × Bool)) (v hi : Word),
    fieldReachable s f = true → domOn s (48 + f) = true → k < 16 → Quiet s → (s.chan f k).halted = true →
    flag v 30 = false → bits v 27 24 = k →
    let resumed := s.setChan f k { s.chan f k with halted := false }
    exec (.channelRecordStart f k host) s = .next s
    ∧ ((s.chan f k).queue.length < 8 →
        ∃ t a, exec (.channelPost f k hi) s = .next t ∧ (t.chan f k).queue = (s.chan f k).queue ++ [.record a]
          ∧ (t.chan f k).halted = true)
    ∧ exec (.skidderAbort f v) s = .next resumed
    ∧ ∀ a rest b u, (s.chan f k).cur = none → (s.chan f k).queue = .record a :: rest →
        readRecord resumed f a 64 host = .got b u → anyPoison b = false →
        let x := parseChanRec (plain b)
        ∃ t y, exec (.channelRecordStart f k host) resumed = .next t
          ∧ (t.chan f k).queue = rest ∧ (t.chan f k).cur = some y ∧ y.src = x.src ∧ y.dst = x.dst ∧ y.len = x.len

/-- On a channel k of a reachable Field whose domain is ON, with a running transfer of a posted record, while nothing of
firmware's own waits: TRANSFER_STALL with a limit set, of a transfer that does not wait for the transaction budget, marks the
transfer stalled, sets bit 0 of SKDn_ERR_STATUS, names the channel in SKDn_STALL_INFO and counts one stall; TRANSFER_RESUME
clears the mark and changes nothing else; a write to SKDn_ABORT naming a channel that is not halted ends the transfer with
code 0x01, and counts one abort and one transfer. (08_memory_tiers_and_residency.md, 14_data_integrity.md) -/
def Obligations.TransferStallResumeAbort : Prop :=
  ∀ (s : State) (f k : Nat) (x : Xfer), s.Canonical → fieldReachable s f = true → domOn s (48 + f) = true → k < 16 → Quiet s →
    (s.chan f k).cur = some x → (s.chan f k).purpose = none →
    (x.stalled = false → budgetWait s (.chan f k) = false → bits (s.reg (fieldReg f Reg.SKDn_WDOG)) 23 0 ≠ 0 →
      ∃ t, exec (.transferStall f false 0 k) s = .next t
        ∧ (t.chan f k).cur = some { x with stalled := true }
        ∧ flag (t.reg (fieldReg f Reg.SKDn_ERR_STATUS)) 0 = true
        ∧ t.reg (fieldReg f Reg.SKDn_STALL_INFO) = BitVec.ofNat 32 (0x80000000 + 0x1000000 * k)
        ∧ t.reg (fieldReg f Reg.SKDn_STALL_CNT) = satAdd32 (s.reg (fieldReg f Reg.SKDn_STALL_CNT)) 1
        ∧ RegsKept s t [fieldReg f Reg.SKDn_ERR_STATUS, fieldReg f Reg.SKDn_STALL_INFO, fieldReg f Reg.SKDn_STALL_CNT])
    ∧ exec (.transferResume f false 0 k) s = .next (s.setChan f k { s.chan f k with cur := some { x with stalled := false } })
    ∧ ∀ v : Word, flag v 30 = false → bits v 27 24 = k → (s.chan f k).halted = false →
      ∃ t, exec (.skidderAbort f v) s = .next t
        ∧ (t.chan f k).cur = none ∧ (t.chan f k).code = 0x01 ∧ (t.chan f k).queue = (s.chan f k).queue
        ∧ t.reg (fieldReg f Reg.SKDn_ABORT_CNT) = satAdd32 (s.reg (fieldReg f Reg.SKDn_ABORT_CNT)) 1
        ∧ t.reg (fieldReg f Reg.SKDn_XFER_CNT) = satAdd32 (s.reg (fieldReg f Reg.SKDn_XFER_CNT)) 1

/-- With the device up and nothing of firmware's own waiting. A reply to a transaction of an older generation is dropped, and
counted in FLDn_STALE_REPLY_CNT unless the Surveyor issued it; one of an aborted transfer is counted in SKDn_LATE_REPLY_CNT;
all of these only free the transaction. The reply to the last write of an uncoded, unchecked channel transfer into near memory
of this device that is not held frees the transaction, writes its bytes there and nowhere else, and adds their number to the
bytes moved. BUDGET_GRANT for a Field pool counts the wait; without room in the pool it does nothing else; with room, an
uncoded channel transfer that waits to read local near memory issues one read of its next piece, of at most 512 bytes, and,
while another requester waits for the pool, goes to the end of the line. (08_memory_tiers_and_residency.md, 13_serving.md,
15_reset_and_recovery.md) -/
def Obligations.RepliesAndBudgetGrants : Prop :=
  ∀ (s : State), s.Canonical → isDown s = false → Quiet s →
    (∀ (id : Nat) (status : ReplyStatus) (data : List (Byte × Bool)) (x : Txn),
        s.txns.find? (fun t => decide (t.id = id)) = some x →
      let freed := { s with txns := s.txns.filter (fun u => decide (u.id ≠ id)), omapMarks := s.omapMarks.filter (· ≠ id) }
      let f := ownerField x.owner
      (x.gen ≠ ownerGen s x.owner → x.owner ≠ .surveyor →
        exec (.memoryReply id status data) s = .next (freed.bump (fieldReg f Reg.FLDn_STALE_REPLY_CNT) 1))
      ∧ (x.gen ≠ ownerGen s x.owner → x.owner = .surveyor → exec (.memoryReply id status data) s = .next freed)
      ∧ (x.gen = ownerGen s x.owner → x.owner ≠ .surveyor → x.aborted = true →
        exec (.memoryReply id status data) s = .next (freed.bump (fieldReg f Reg.SKDn_LATE_REPLY_CNT) 1))
      ∧ ∀ (g y k : Nat) (z : Xfer), x.gen = ownerGen s x.owner → x.aborted = false → replyHeld s x = false → x.write = true →
          status = .ok → standTarget s x.addr = .here (.nm g y) → x.owner = .chan f k → (s.chan f k).cur = some z →
          z.kind = .copy → z.check = false → z.held = [] → z.len ≤ z.next → k < 16 → f < 4 →
          ∃ t, exec (.memoryReply id status data) s = .next t
            ∧ t.txns = freed.txns ∧ t.nm = (nmWrite s g y x.data f).nm
            ∧ (t.chan f k).cur = some { z with moved := z.moved + x.len })
    ∧ ∀ (p cycles : Nat) (w : Nat × XferOwner), p < 4 → s.waiters.find? (fun w => decide (w.1 = p) && decide (p < 6)) = some w →
      let counted := s.bump (fieldReg p Reg.SKDn_BUDGET_WAIT_CNT) cycles
      (poolSize s p ≤ poolUsed s p + 32 → exec (.budgetGrant p cycles) s = .next counted)
      ∧ ∀ (k g y : Nat) (z : Xfer) (v : Nat × XferOwner), poolUsed s p + 32 < poolSize s p → w.2 = .chan p k → k < 16 →
          (s.chan p k).cur = some z → z.kind = .copy → z.stop = false → z.held = [] → z.next < z.len →
          standTarget s (z.src + z.next) = .here (.nm g y) → placeOn s (.nm g y) = true → fieldInReset s p = false →
          v ∈ s.waiters.erase w → v.1 = p → w ∉ s.waiters.erase w →
          ∃ t, exec (.budgetGrant p cycles) s = .next t
            ∧ (∃ x, t.txns = s.txns ++ [x] ∧ x.id = s.txnSeq ∧ x.pool = p ∧ x.owner = .chan p k ∧ x.write = false
                ∧ x.addr = z.src + z.next ∧ x.len = copyPiece z)
            ∧ (t.chan p k).cur = some { z with next := z.next + copyPiece z }
            ∧ t.waiters = s.waiters.erase w ++ [w]
            ∧ t.reg (fieldReg p Reg.SKDn_BUDGET_WAIT_CNT) = satAdd32 (s.reg (fieldReg p Reg.SKDn_BUDGET_WAIT_CNT)) cycles

/-- With the device up, nothing of firmware's own waiting and the access not held: a write of a whole, unpoisoned granule of
populated near memory, with the Field's injector not armed, reads back as written, and every other granule holds what it held;
a poisoned write reads back poisoned; a read leaves every granule as it was; an access to an unpopulated offset changes no
granule, counts one drop and sets bit 3 of NMn_ERR_STATUS. NM_CE_WRITE_BACK of a granule awaiting it stores the data that its
correction delivers, without error, and keeps every other granule; a granule that no longer reads as corrected stays; no
register changes. (08_memory_tiers_and_residency.md, 14_data_integrity.md) -/
def Obligations.NearMemoryReadAfterWrite : Prop :=
  ∀ (s : State), s.Canonical → isDown s = false → Quiet s →
    (∀ (f x rf : Nat) (data : List (Byte × Bool)), nmHeld s f x 64 = false →
      (nmPopulated s f x = true → x % 64 = 0 → data.length = 64 → flag (s.reg (fieldReg f Reg.NMn_INJ_CTRL)) 31 = false →
        ∃ t, exec (.nmAccess f x true data 0 rf) s = .next t
          ∧ (anyPoison data = false → (nmRead t f x 64 rf).1 = data)
          ∧ (anyPoison data = true → anyPoison (nmRead t f x 64 rf).1 = true)
          ∧ (∀ a, a / 64 ≠ nmAddr f x / 64 → t.gran a = s.gran a))
      ∧ (∀ len, nmHeld s f x len = false → ∃ t, exec (.nmAccess f x false data len rf) s = .next t ∧ t.nm = s.nm)
      ∧ (nmPopulated s f x = false → data.length = 64 → x % 64 = 0 → fieldPresent s f = true →
        exec (.nmAccess f x true data 0 rf) s
          = .next ((s.bump (fieldReg f Reg.NMn_DROP_CNT) 1).raise (fieldReg f Reg.NMn_ERR_STATUS) (bitMask 3))))
    ∧ ∀ g : Nat, g ∈ s.nmWb →
      ∃ t, exec (.nmCeWriteBack g) s = .next t
        ∧ (∀ d, readGran (s.gran (64 * g)) = .corrected d → t.gran (64 * g) = markGran d false)
        ∧ ((∀ d, readGran (s.gran (64 * g)) ≠ .corrected d) → t.gran (64 * g) = s.gran (64 * g))
        ∧ (∀ a, a / 64 ≠ g → t.gran a = s.gran a) ∧ g ∉ t.nmWb ∧ t.regs = s.regs

/-- With the device up, nothing of firmware's own waiting, a weight store fitted, its domain ON, the Field not resetting, and a
transaction that still needs the page: when every error count is within 24 bits the transactions that need the page have it,
counted in WSn_BCH_CE_CNT if its own die had errors; when only the page's own die fails the page is rebuilt: bit 0 of
WSn_ERR_STATUS, the page in WSn_ERR_ADDR, one in WSn_REBUILD_CNT; when two dies fail the page fails: bit 1, the page marked
failed in WSn_ERR_ADDR, one in WSn_UE_CNT; then each segment that holds the page fails. (09_weight_store_and_models.md,
14_data_integrity.md) -/
def Obligations.WeightPageOutcomes : Prop :=
  ∀ (s : State) (f page : Nat) (errs : List (Option Nat)) (peer : Option Nat) (u : Txn) (x : Nat),
    s.Canonical → Quiet s → isDown s = false → fieldPresent s f = true → hasWeightStore s.part = true → fieldResetting s f = false →
    domOn s (52 + f) = true → u ∈ s.txns → wsTxnOff s f u = some x → x / 2048 ≤ page → page ≤ (x + u.len - 1) / 2048 →
    (u.got.any fun g => decide (g.1 = page)) = false →
    let own := (errs[page % 8]?).getD (some 0)
    let within (e : Option Nat) : Prop := ∃ n, e = some n ∧ n ≤ 24
    (within own → ∃ t v, exec (.wsPageRead f page errs peer) s = .next t
      ∧ v ∈ t.txns ∧ v.id = u.id ∧ v.got = u.got ++ [(page, false)]
      ∧ t.reg (fieldReg f Reg.WSn_BCH_CE_CNT) = satAdd32 (s.reg (fieldReg f Reg.WSn_BCH_CE_CNT)) (if own = some 0 then 0 else 1)
      ∧ t.roots = s.roots)
    ∧ (¬ within own → (∀ k, k < 9 → k ≠ page % 8 → within ((errs[k]?).getD (some 0))) →
      ∃ t, exec (.wsPageRead f page errs peer) s = .next t
        ∧ flag (t.reg (fieldReg f Reg.WSn_ERR_STATUS)) 0 = true
        ∧ t.reg (fieldReg f Reg.WSn_ERR_ADDR) = BitVec.ofNat 32 (0x80000000 + page % 2 ^ 25)
        ∧ t.reg (fieldReg f Reg.WSn_REBUILD_CNT) = satAdd32 (s.reg (fieldReg f Reg.WSn_REBUILD_CNT)) 1)
    ∧ (¬ within own → (∃ k, k < 9 ∧ k ≠ page % 8 ∧ ¬ within ((errs[k]?).getD (some 0))) →
      ∃ t, exec (.wsPageRead f page errs peer) s
          = .next (settle s ((segsAt s f (page * 2048)).foldl (fun v p => segFailed v p.1 p.2 peer) t))
        ∧ t.roots = s.roots ∧ flag (t.reg (fieldReg f Reg.WSn_ERR_STATUS)) 1 = true
        ∧ t.reg (fieldReg f Reg.WSn_ERR_ADDR) = BitVec.ofNat 32 (0xC0000000 + page % 2 ^ 25)
        ∧ t.reg (fieldReg f Reg.WSn_UE_CNT) = satAdd32 (s.reg (fieldReg f Reg.WSn_UE_CNT)) 1)

/-- With the device up: OMAP_SYNC with bit 0 set marks exactly the transactions in flight that carry a host address, and changes
nothing else; without the bit it changes nothing. A spill-pool write while an object or a reservation uses the pool sets bit 0
of RES_ERR_STATUS and changes nothing else; while the pool is unused, the base words keep their defined bits, and a new size
sets budget counter 4 to 256 units a MiB, up to 0xFFFFFF, counted as two commands. (08_memory_tiers_and_residency.md,
13_serving.md) -/
def Obligations.OutboundSyncAndSpillPool : Prop :=
  ∀ (s : State) (v : Word), s.Canonical → isDown s = false →
    (flag v 0 = true → exec (.omapSync v) s = .next { s with omapMarks := (s.txns.filter fun t => t.host.isSome).map (·.id) })
    ∧ (flag v 0 = false → exec (.omapSync v) s = .next s)
    ∧ (∀ w, spillIdle s = false → exec (.spillPoolWrite w v) s = .next (s.raise Reg.RES_ERR_STATUS (bitMask 0)))
    ∧ (spillIdle s = true →
      exec (.spillPoolWrite 0 v) s = .next (s.setReg Reg.RES_SPILL_BASE_LO (v &&& 0xFFFFF000))
      ∧ exec (.spillPoolWrite 1 v) s = .next (s.setReg Reg.RES_SPILL_BASE_HI (v &&& 0xFFFF))
      ∧ ∃ t, exec (.spillPoolWrite 2 v) s = .next t
        ∧ t.reg Reg.RES_SPILL_SIZE = v ∧ budget t 4 = min (256 * v.toNat) 0xFFFFFF
        ∧ t.reg Reg.CTX_CMD_CNT = satAdd32 (s.reg Reg.CTX_CMD_CNT) 2
        ∧ (∀ c, c < 6 → c ≠ 4 → budget t c = budget s c) ∧ OnlyRegs s t)

/-- For a command of firmware's at its own port on an entry without stored errors and not under quarantine, while nothing of
firmware's own waits. READ copies the eight words into the port's argument registers, answers OK with the entry's GEN, and
changes no entry. With the entry's GEN given and the entry valid: PIN of a HOME entry makes it PINNED with one pin; PIN of a
PINNED entry with fewer than 255 pins adds one, and with 255 answers BUSY and changes nothing; UNPIN of a PINNED entry takes
one pin, and the last one makes it HOME. Every other word of every entry stays. (08_memory_tiers_and_residency.md) -/
def Obligations.ResidencyReadPinUnpin : Prop :=
  ∀ (s : State) (p e : Nat) (acc : PortAccess), s.Canonical → FirmwarePort s p acc → Quiet s → e < 32768 → SoundEntry s .res e →
    let w0 := tabData s .res e 0
    let others (t : State) : Prop := ∀ d w, d < 32768 → w < 8 → (d ≠ e ∨ w ≠ 0) → tabData t .res d w = tabData s .res d w
    let answer (t : State) (code : Nat) : Prop := t.reg (resResult p) = BitVec.ofNat 32 (0x80000000 + 256 * resGen w0 + code)
    (∃ t, exec (.resRead p e acc) s = .next t ∧ (∀ w, w < 8 → t.reg (resArg p w) = tabData s .res e w)
      ∧ answer t 0 ∧ t.res = s.res)
    ∧ (resValid w0 = true → resState w0 = 0 →
      ∃ t, exec (.resPin p (resGen w0) e acc) s = .next t
        ∧ tabData t .res e 0 = setBits (setBits w0 7 0 1) 30 28 3 ∧ answer t 0 ∧ others t)
    ∧ (resValid w0 = true → resState w0 = 3 → resPins w0 < 255 →
      ∃ t, exec (.resPin p (resGen w0) e acc) s = .next t
        ∧ tabData t .res e 0 = setBits w0 7 0 (resPins w0 + 1) ∧ answer t 0 ∧ others t)
    ∧ (resValid w0 = true → resState w0 = 3 → resPins w0 = 255 →
      ∃ t, exec (.resPin p (resGen w0) e acc) s = .next t ∧ t.res = s.res ∧ answer t 0x09)
    ∧ (resValid w0 = true → resState w0 = 3 → 1 < resPins w0 →
      ∃ t, exec (.resUnpin p (resGen w0) e acc) s = .next t
        ∧ tabData t .res e 0 = setBits w0 7 0 (resPins w0 - 1) ∧ answer t 0 ∧ others t)
    ∧ (resValid w0 = true → resState w0 = 3 → resPins w0 ≤ 1 →
      ∃ t, exec (.resUnpin p (resGen w0) e acc) s = .next t
        ∧ tabData t .res e 0 = setBits (setBits w0 7 0 0) 30 28 0 ∧ answer t 0 ∧ others t)

/-- For a command of firmware's at its own port on an entry without stored errors and not under quarantine, while nothing of
firmware's own waits. ALLOC of a FREE entry makes it valid in HOME with no pins, keeps its GEN, and takes words 1, 2, 3, 6 and
7 from the argument registers with undefined bits 0 and the destination words 0; ALLOC of a valid entry answers BUSY and
changes nothing. With the GEN given: RETIRE of a HOME entry of a kind other than STAGED makes it RETIRING; RELEASE of a
RETIRING entry and FORGET of a HOME entry of kind STAGED make it FREE with its GEN one higher. Entries other than this one
stay. (08_memory_tiers_and_residency.md) -/
def Obligations.ResidencyAllocRetireRelease : Prop :=
  ∀ (s : State) (p e : Nat) (acc : PortAccess), s.Canonical → FirmwarePort s p acc → Quiet s → e < 32768 → SoundEntry s .res e →
    let w0 := tabData s .res e 0
    let others (t : State) : Prop := ∀ d w, d < 32768 → w < 8 → d ≠ e → tabData t .res d w = tabData s .res d w
    let freed := setFlag (setBits w0 19 12 (resGen w0 + 1)) 31 false
    (resValid w0 = false →
      ∃ t, exec (.resAlloc p e acc) s = .next t
        ∧ resValid (tabData t .res e 0) = true ∧ resState (tabData t .res e 0) = 0 ∧ resPins (tabData t .res e 0) = 0
        ∧ resGen (tabData t .res e 0) = resGen w0 ∧ resKind (tabData t .res e 0) = resKind (s.reg (resArg p 0))
        ∧ (∀ w, w = 1 ∨ w = 2 ∨ w = 3 ∨ w = 6 ∨ w = 7 → tabData t .res e w = s.reg (resArg p w) &&& resMask w)
        ∧ tabData t .res e 4 = 0 ∧ tabData t .res e 5 = 0 ∧ others t)
    ∧ (resValid w0 = true →
      ∃ t, exec (.resAlloc p e acc) s = .next t ∧ t.res = s.res
        ∧ t.reg (resResult p) = BitVec.ofNat 32 (0x80000000 + 256 * resGen w0 + 0x09))
    ∧ (resValid w0 = true → resState w0 = 0 → resKind w0 ≠ 3 →
      ∃ t, exec (.resRetire p (resGen w0) e acc) s = .next t ∧ tabData t .res e 0 = setBits w0 30 28 4 ∧ others t)
    ∧ (resValid w0 = true → resState w0 = 4 →
      ∃ t, exec (.resRelease p (resGen w0) e acc) s = .next t ∧ tabData t .res e 0 = freed ∧ others t)
    ∧ (resValid w0 = true → resState w0 = 0 → resKind w0 = 3 →
      ∃ t, exec (.resForget p (resGen w0) e acc) s = .next t ∧ tabData t .res e 0 = freed ∧ others t)

/-- For a command of firmware's at its own port on a valid, sound entry that no context owns, with its GEN given and nothing of
firmware's own waiting. MOVE of a HOME entry (not a STAGED one moving down) that the allocation flags and the place allow,
within the same coding and with the units free in the destination's counter, makes it MOVING_DOWN or MOVING_UP with the
destination in words 4 and 5, takes the units, and puts the transfer behind the channel that firmware picks; a MOVE that is
not allowed changes nothing. Of a move that firmware has started: MOVE_DONE after a transfer that went well, and MOVE_CANCEL
after one that failed, end it; before the outcome, and for the other outcome, they change nothing. MOVE_DONE makes a moving
entry HOME at the destination, with the tier and Field recorded at the MOVE and its GEN one higher; MOVE_CANCEL makes it HOME
where it was with its GEN unchanged; both zero the destination words, and so they do for an entry whose move firmware did not
start. Other entries stay. (08_memory_tiers_and_residency.md, 13_serving.md) -/
def Obligations.ResidencyMoves : Prop :=
  ∀ (s : State) (p e : Nat) (acc : PortAccess), s.Canonical → FirmwarePort s p acc → Quiet s → e < 32768 → SoundEntry s .res e →
    let w0 := tabData s .res e 0
    let dst := storeGet 0 s.resDest e
    let others (t : State) : Prop := ∀ d w, d < 32768 → w < 8 → d ≠ e → tabData t .res d w = tabData s .res d w
    let done (t : State) : Prop :=
      resState (tabData t .res e 0) = 0 ∧ resGen (tabData t .res e 0) = (resGen w0 + 1) % 256
      ∧ bits (tabData t .res e 0) 21 20 = dst / 4 % 4 ∧ bits (tabData t .res e 0) 23 22 = dst % 4
      ∧ tabData t .res e 2 = tabData s .res e 4 ∧ tabData t .res e 3 = tabData s .res e 5
      ∧ tabData t .res e 4 = 0 ∧ tabData t .res e 5 = 0 ∧ others t
    let stays (t : State) : Prop :=
      tabData t .res e 0 = setBits w0 30 28 0
      ∧ (∀ w, w = 1 ∨ w = 2 ∨ w = 3 ∨ w = 6 ∨ w = 7 → tabData t .res e w = tabData s .res e w)
      ∧ tabData t .res e 4 = 0 ∧ tabData t .res e 5 = 0 ∧ others t
    resValid w0 = true → bits (tabData s .res e 1) 31 16 = 0xFFFF → kvObject s e = none →
    (∀ down : Bool, resState w0 = 0 → (resKind w0 ≠ 3 ∨ down = false) →
      let dest := moveDest s p
      let ok := moveAllowed s ⟨4, down, resGen w0, e⟩ dest
      let units := codedUnits (resSize s e) (resCoded s e)
      let f := if down then resField s e else dest.2.1
      (ok = false → exec (.resMove p (resGen w0) down e acc) s = .next s)
      ∧ (ok = true → destCoded s e dest.1 = resCoded s e → units ≤ budget s (tierCounter dest.1 dest.2.1) →
        ∃ t, exec (.resMove p (resGen w0) down e acc) s = .next t
          ∧ tabData t .res e 0 = setBits w0 30 28 (if down then 2 else 1)
          ∧ tabData t .res e 4 = s.reg (resArg p 4) ∧ tabData t .res e 5 = s.reg (resArg p 5) &&& 0xFFFF
          ∧ storeGet 0 t.resDest e = 4 * dest.1 + dest.2.1 ∧ others t
          ∧ budget t (tierCounter dest.1 dest.2.1) = budget s (tierCounter dest.1 dest.2.1) - units
          ∧ ∀ k, pickChan s f = some k → ∃ x, (t.chan f k).queue = (s.chan f k).queue ++ [.fw x (.move e)]
              ∧ x.src = resHome s e ∧ x.dst = dest.2.2 ∧ x.len = 4096 * units))
    ∧ (resState w0 = 1 ∨ resState w0 = 2 →
      (findMove s e = none →
        (∃ t, exec (.resMoveDone p (resGen w0) e acc) s = .next t ∧ done t)
        ∧ ∃ t, exec (.resMoveCancel p (resGen w0) e acc) s = .next t ∧ stays t)
      ∧ ∀ m, findMove s e = some m →
        (m.outcome ≠ some 0 → exec (.resMoveDone p (resGen w0) e acc) s = .next s)
        ∧ (m.outcome = none ∨ m.outcome = some 0 → exec (.resMoveCancel p (resGen w0) e acc) s = .next s)
        ∧ (m.outcome = some 0 → ∃ t, exec (.resMoveDone p (resGen w0) e acc) s = .next t ∧ done t ∧ findMove t e = none)
        ∧ ∀ c, m.outcome = some (c + 1) → ∃ t, exec (.resMoveCancel p (resGen w0) e acc) s = .next t ∧ stays t ∧ findMove t e = none)

/-- With the device up and nothing of firmware's own waiting, at a port that exists. A Residency command other than READ and ALLOC
whose generation is not the entry's, on a sound entry, answers BUSY with STALE and changes no entry. A reserved operation (10
to 15) answers BAD_DESCRIPTOR (0x0B); so does a reserved Context operation at a port of firmware's. A command that comes
through the host at ports 0 to 4, or before the port's previous command has executed, only sets its flag in the table's error
status. (08_memory_tiers_and_residency.md, 13_serving.md) -/
def Obligations.StaleReservedAndForeignPortCommands : Prop :=
  ∀ (s : State) (p e : Nat) (acc : PortAccess), s.Canonical → isDown s = false → Quiet s → e < 32768 → portUsable s p = true →
    (p < 5 → acc.host = false → acc.early = false → SoundEntry s .res e →
      let w0 := tabData s .res e 0
      let stale (c : Instr) : Prop := ∃ t, exec c s = .next t ∧ t.res = s.res ∧ t.resDest = s.resDest ∧ t.given = s.given
        ∧ t.reg (resResult p) = BitVec.ofNat 32 (0xC0000000 + 256 * resGen w0 + 0x09)
      (∀ (gen : Nat) (down : Bool), gen < 256 → gen ≠ resGen w0 →
        stale (.resPin p gen e acc) ∧ stale (.resUnpin p gen e acc) ∧ stale (.resMove p gen down e acc)
        ∧ stale (.resMoveDone p gen e acc) ∧ stale (.resMoveCancel p gen e acc) ∧ stale (.resRetire p gen e acc)
        ∧ stale (.resRelease p gen e acc) ∧ stale (.resForget p gen e acc))
      ∧ (∀ op, 10 ≤ op → op < 16 → ∃ t, exec (.resReservedOp p op e acc) s = .next t ∧ t.res = s.res
          ∧ t.reg (resResult p) = BitVec.ofNat 32 (0x80000000 + 256 * resGen w0 + 0x0B))
      ∧ (∀ op gen x, 4 ≤ op → op < 16 → ∃ t, exec (.ctxReservedOp p op gen x acc) s = .next t ∧ t.ctx = s.ctx
          ∧ t.reg (ctxResult p) = 0x8000000B))
    ∧ (∀ op gen x, p < 5 → acc.host = true → 4 ≤ op → op < 16 →
        exec (.ctxReservedOp p op gen x acc) s = .next (s.raise Reg.CTX_ERR_STATUS (bitMask 2))
        ∧ exec (.resRead p e acc) s = .next (s.raise Reg.RES_ERR_STATUS (bitMask 1)))
    ∧ (∀ op gen x, p < 6 → (p < 5 → acc.host = false) → acc.early = true → 4 ≤ op → op < 16 →
        exec (.ctxReservedOp p op gen x acc) s = .next (s.raise Reg.CTX_ERR_STATUS (bitMask 1))
        ∧ exec (.resRead p e acc) s = .next (s.raise Reg.RES_ERR_STATUS (bitMask 0)))

/-- With the device up and nothing of firmware's own waiting. SEGMENT_PROGRAM on an installation of a descriptor with segments to
go, its Field's stack ON and not paused: when the segment's bytes can be read, pass their header and digest checks, and a run
of extents takes them, the operation goes on with the next segment. REPAIR_SWITCHOVER on a repair with nothing left to
program, no running step of the root and no page newly weak or bad ends the operation, makes the root READY, and every
repaired segment reads from its new extents, neither weak nor bad. EXPERT_REQUEST with an empty list posts the semaphore it
names once and changes nothing else. (09_weight_store_and_models.md) -/
def Obligations.InstallationRepairAndExperts : Prop :=
  ∀ (s : State) (r : Nat), s.Canonical → isDown s = false → Quiet s → r < 64 →
    (∀ (o : RootOp) (i j : Nat) (rest : List Nat) (bs : List Byte) (fails : List (List Nat)),
        (s.root r).op = some o → o.kind = .install → o.port = none → o.todo = i :: j :: rest →
        (s.field (infoAt s r i).field).wsPaused = false → domOn s (52 + (infoAt s r i).field) = true →
        (∀ q, q ∈ segRanges (infoAt s r i) bs → omapCheck s (o.addr + (infoAt s r i).offset + q.1) q.2 false = none) →
        hdrsOk (infoAt s r i) bs = true →
        sha256 (bs.take ((segRanges (infoAt s r i) bs).map (·.2)).sum) = (infoAt s r i).digest →
        (programTries (fails.length + 1) s r i bs fails).1 = true →
      ∃ t u, exec (.segmentProgram r bs false fails) s = .next t ∧ (t.root r).op = some u ∧ u.todo = j :: rest
        ∧ u.kind = .install ∧ t.fields = (programTries (fails.length + 1) s r i bs fails).2.fields)
    ∧ (∀ o : RootOp, (s.root r).op = some o → o.kind = .repair → o.todo = [] → o.before ≠ 5 →
        (s.steps.any fun t => t.subs.any fun b => decide (b.root = r)) = false → repairList s r = [] →
      ∃ t, exec (.repairSwitchover r) s = .next t ∧ (t.root r).op = none ∧ (t.root r).st = 3
        ∧ ∀ i e k, i < (s.root r).segs.length → (segAt s r i).fresh = some (e, k) →
            (segAt t r i).ext = e ∧ (segAt t r i).exts = k ∧ (segAt t r i).bad = false ∧ (segAt t r i).weak = false
            ∧ (segAt t r i).fresh = none)
    ∧ (∀ (n layer list area : Nat) (sem : Word), corePresent s n = true → fieldInReset s (n / 4) = false →
        domOn s (48 + n / 4) = true → (s.root r).st ≠ 0 → spmHeld s n list 0 = false →
      exec (.expertRequest n r layer list 0 area sem) s = .next (postName s sem 1))

/-- With the device up, and semaphore i present on a core of no aborted job, whose Field is not in reset and whose island clock
runs. A post under the current generation of its Field adds its count up to 0xFFFF (past it, bit 3 of HDG_ERR_STATUS and
HDG_OVF_SEM report it), leaves every other semaphore, and counts one post; a post of an older generation is only counted in
HDG_STALE_CNT. HDG_POST of a well-formed local name adds its count; a name with a reserved bit set only sets bit 2. HDG_TAKE
of no more than the semaphore holds subtracts it; a larger take only sets bit 2. HDG_SEM_WRITE stores value and NOTIFY bit
alone. NOTIFY_READ answers the oldest waiting semaphore and removes it, or answers 0 and changes no queue. While the island
clock is stopped instead, posts, takes and writes wait in the FIFO behind what waits there, and change nothing else.
(10_hedgerow.md, 15_reset_and_recovery.md) -/
def Obligations.SemaphorePostsAndTakes : Prop :=
  ∀ (s : State) (i : Nat), s.Canonical → isDown s = false →
    (semPresent s i = true → fieldInReset s (i / 1024) = false → coreAborted s (i / 256) = false → clockStopped s (i / 256) = true →
      let waits (x : FifoOp) : State := { s with power := { s.power with fifo := s.power.fifo ++ [x] } }
      (∀ f cnt, exec (.semPostArrive f (fldGen s f) i cnt) s = .next (waits (.post i cnt)))
      ∧ (∀ v : Word, bits v 31 28 = 0 → bits v 27 16 = i → exec (.hdgTake v) s = .next (waits (.take i (bits v 15 0))))
      ∧ ∀ v : Word, exec (.hdgSemWrite i v) s = .next (waits (.write i v)))
    ∧ (SemOpen s i →
    let posted (t : State) (cnt : Nat) : Prop :=
      semVal t i = min (semVal s i + cnt) 0xFFFF ∧ (∀ j, j < 4096 → j ≠ i → semVal t j = semVal s j)
      ∧ t.reg Reg.HDG_POST_CNT = satAdd32 (s.reg Reg.HDG_POST_CNT) 1
      ∧ (0xFFFF < semVal s i + cnt → flag (t.reg Reg.HDG_ERR_STATUS) 3 = true
          ∧ t.reg Reg.HDG_OVF_SEM = BitVec.ofNat 32 (0x80000000 + i))
    (∀ f cnt, ∃ t, exec (.semPostArrive f (fldGen s f) i cnt) s = .next t ∧ posted t cnt)
    ∧ (∀ f gen cnt, gen ≠ fldGen s f → exec (.semPostArrive f gen i cnt) s = .next (s.bump Reg.HDG_STALE_CNT 1))
    ∧ (∀ v : Word, bits v 30 28 = 0 → bits v 15 12 = 0 → nameRemote s v = false → bits v 11 0 = i →
      ∃ t, exec (.hdgPost v) s = .next t ∧ posted t (bits v 27 20 + 1))
    ∧ (∀ v : Word, bits v 30 28 ≠ 0 ∨ bits v 15 12 ≠ 0 → exec (.hdgPost v) s = .next (s.raise Reg.HDG_ERR_STATUS (bitMask 2)))
    ∧ (∀ v : Word, bits v 31 28 = 0 → bits v 27 16 = i → bits v 15 0 ≤ semVal s i →
      ∃ t, exec (.hdgTake v) s = .next t ∧ semVal t i = semVal s i - bits v 15 0
        ∧ RegsKept s t [semReg i] ∧ OnlyRegs s t)
    ∧ (∀ v : Word, bits v 31 28 = 0 → bits v 27 16 = i → semVal s i < bits v 15 0 →
      exec (.hdgTake v) s = .next (s.raise Reg.HDG_ERR_STATUS (bitMask 2)))
    ∧ (∀ v : Word, exec (.hdgSemWrite i v) s = .next (s.setReg (semReg i) (v &&& 0x8000FFFF)))
    ∧ ∀ f : Nat, fieldPresent s f = true →
      (∀ j rest, s.notify[f]? = some (j :: rest) → ∃ t, exec (.notifyRead f) s = .next t
        ∧ t.resp = BitVec.ofNat 32 (0x80000000 + j) ∧ t.notify[f]? = some rest
        ∧ (∀ g, g ≠ f → t.notify[g]? = s.notify[g]?) ∧ t.regs = s.regs)
      ∧ (s.notify[f]? = some [] → exec (.notifyRead f) s = .next { s with resp := 0, respHi := 0 }))

/-- With the device up and group g below 128. A local arrival under the current generation at an enabled group of no aborted job
that is not its last leaves the arrival waiting and the count one higher; the last one clears the count, raises the group's
epoch by 1 modulo 256 and leaves no arrival of the group waiting. HDG_BAR_ARRIVE of a well-formed word naming a present
semaphore does the same with count 1. A configuration write stores its defined bits while no arrival waits, and otherwise only
sets bit 2 of HDG_ERR_STATUS. (10_hedgerow.md) -/
def Obligations.BarrierGroupsCountArrivals : Prop :=
  ∀ (s : State) (g sem cnt : Nat), s.Canonical → isDown s = false → g < 128 →
    let n := bits (barStatus s g) 8 0
    let arrived (t : State) (c : Nat) : Prop :=
      (n < bits (barCfg s g) 7 0 → bits (barStatus t g) 8 0 = n + 1 ∧ bits (barStatus t g) 31 24 = bits (barStatus s g) 31 24
        ∧ t.arrivals = s.arrivals ++ [(g, ⟨devNum s, sem, c⟩)])
      ∧ (n = bits (barCfg s g) 7 0 → bits (barStatus t g) 8 0 = 0
        ∧ bits (barStatus t g) 31 24 = (bits (barStatus s g) 31 24 + 1) % 256
        ∧ t.arrivals = s.arrivals.filter fun x => decide (x.1 ≠ g))
    (flag (barCfg s g) 31 = true → groupAborted s g = false →
      (∀ f, ∃ t, exec (.barrierArrival f (fldGen s f) g sem cnt) s = .next t ∧ arrived t cnt)
      ∧ ∀ v : Word, bits v 31 23 = 0 → bits v 22 16 = g → bits v 15 12 = 0 → bits v 11 0 = sem → semPresent s sem = true →
        ∃ t, exec (.hdgBarArrive v) s = .next t ∧ arrived t 1)
    ∧ (∀ v : Word, n = 0 → exec (.barrierCfgWrite g v) s = .next (s.setReg (Reg.HDG_BARg_CFG + 8 * g) (v &&& 0xCF0000FF)))
    ∧ ∀ v : Word, n ≠ 0 → exec (.barrierCfgWrite g v) s = .next (s.raise Reg.HDG_ERR_STATUS (bitMask 2))

/-- With the device up and nothing of firmware's own waiting. HDG_ABORT of job j raises the job's sequence number by 1 modulo 16,
marks the job aborted, sets bits 0 and 1 of HDG_ERR_STATUS, traps every RUNNING core of the job with cause 5, and gives every
Field's Forester one more event. A token with a new sequence number on a powered port stores that number and does the same but
for bit 1; a token with the number already recorded is only counted. HDG_ABORT_CLEAR ends the abort of exactly the jobs its
mask names. (10_hedgerow.md) -/
def Obligations.JobAbortSpreadsAndClears : Prop :=
  ∀ (s : State), s.Canonical → isDown s = false → Quiet s →
    let aborted (t : State) (j : Nat) : Prop := jobAborted t j = true ∧ flag (t.reg Reg.HDG_ERR_STATUS) 0 = true
      ∧ (∀ n, n < coreCount s.part → flag (s.reg (Reg.HDG_COREj_JOB + 4 * n)) 4 = true →
          bits (s.reg (Reg.HDG_COREj_JOB + 4 * n)) 3 0 = j → (s.core n).seq = .running → (t.core n).seq = .trapped)
      ∧ ∀ f, fieldPresent s f = true → (t.field f).abortEvents = (s.field f).abortEvents + 1
    (∀ v : Word, let j := bits v 3 0
      ∃ t, exec (.hdgAbort v) s = .next t ∧ abortSeq t j = (abortSeq s j + 1) % 16 ∧ aborted t j
        ∧ flag (t.reg Reg.HDG_ERR_STATUS) 1 = true ∧ t.nm = s.nm)
    ∧ (∀ p j q d gen, portOn s p = true → j < 16 → q < 16 →
        (abortSeq s j = q → exec (.abortTokenReceive p j q ⟨d, gen⟩) s = .next (s.bump Reg.HDG_ABORT_DUP_CNT 1))
        ∧ (abortSeq s j ≠ q → ∃ t, exec (.abortTokenReceive p j q ⟨d, gen⟩) s = .next t ∧ abortSeq t j = q ∧ aborted t j ∧ t.nm = s.nm))
    ∧ ∀ v : Word, ∃ t, exec (.hdgAbortClear v) s = .next t
        ∧ (∀ j, j < 16 → jobAborted t j = (jobAborted s j && !flag v j))
        ∧ RegsKept s t [Reg.HDG_STATUS] ∧ OnlyRegs s t

/-- On a powered port of a device that is up, while nothing of firmware's own waits. A frame that fails its CRC changes nothing. A
good frame with a post for this device, on an UP port, under the generation recorded for its sender, to a semaphore that a
post acts on at once, adds its count up to 0xFFFF; a post, or an abort token, of another generation is only counted in
HDG_STALE_CNT. An announcement of a new generation is recorded for that device alone; one already recorded changes nothing.
(10_hedgerow.md, 15_reset_and_recovery.md) -/
def Obligations.FramesAndGenerationAnnouncements : Prop :=
  ∀ (s : State) (p : Nat), s.Canonical → isDown s = false → portOn s p = true → Quiet s →
    (∀ d gen dst m, exec (.hedgerowFrameReceive p false d gen dst m) s = .next s)
    ∧ (∀ d i cnt, portState s p = 2 → SemOpen s i →
      ∃ t, exec (.hedgerowFrameReceive p true d (peerGen s d) (devNum s) (.post i cnt)) s = .next t
        ∧ semVal t i = min (semVal s i + cnt) 0xFFFF ∧ ∀ j, j < 4096 → j ≠ i → semVal t j = semVal s j)
    ∧ (∀ d gen i cnt, portState s p = 2 → gen ≠ peerGen s d →
      exec (.hedgerowFrameReceive p true d gen (devNum s) (.post i cnt)) s = .next (s.bump Reg.HDG_STALE_CNT 1))
    ∧ (∀ d gen dst j q o, portState s p = 2 → gen ≠ peerGen s (o % 16) →
      exec (.hedgerowFrameReceive p true d gen dst (.token j q o)) s = .next (s.bump Reg.HDG_STALE_CNT 1))
    ∧ ∀ d v, d < 16 → v < 256 →
      (peerGen s d = v → exec (.genAnnounceReceive p d v) s = .next s)
      ∧ (peerGen s d ≠ v → ∃ t, exec (.genAnnounceReceive p d v) s = .next t ∧ peerGen t d = v
          ∧ (∀ c, c < 16 → c ≠ d → peerGen t c = peerGen s c)
          ∧ (∀ q, q < portCount s.part → q ≠ p → portState s q = 2 → OutMsg.hdg q ⟨16, d, v, .announce d v⟩ ∈ t.out))

/-- On a powered port of a device that is up, while nothing of firmware's own waits. PORT_TRAINING of a port that is not training,
and a RETRAIN write at any time, make it TRAINING and leave the state of every other port; a retrain is counted and sets bit 1
of FAB_ERR_STATUS. When training ends with the partner of this Stand and another device, at most two data lanes failed and the
Hedgerow lane up, the port is UP, its partner is in FAB_Pp_PARTNER and the partner's generation is recorded; a partner of
another Stand, or with this device's number, isolates it and sets bit 3. Training that fails makes a first training, or the
third retrain in a row, DOWN and sets bit 2; an earlier retrain goes on and is counted. (11_stand_fabric_and_resharding.md) -/
def Obligations.PortTrainingOutcomes : Prop :=
  ∀ (s : State) (p : Nat), s.Canonical → isDown s = false → portOn s p = true → Quiet s →
    let others (t : State) : Prop := ∀ q, q < 6 → q ≠ p → portState t q = portState s q
    (portState s p ≠ 1 →
      ∃ t, exec (.portTraining p) s = .next t ∧ portState t p = 1 ∧ (t.port p).retraining = false ∧ others t)
    ∧ (∀ v : Word, flag v 0 = true → ∃ t, exec (.retrain p v) s = .next t ∧ portState t p = 1 ∧ (t.port p).retraining = true
        ∧ t.reg (portReg p Reg.FAB_Pp_RETRAIN_CNT) = satAdd32 (s.reg (portReg p Reg.FAB_Pp_RETRAIN_CNT)) 1
        ∧ flag (t.reg Reg.FAB_ERR_STATUS) 1 = true ∧ others t)
    ∧ (portState s p = 1 → ∀ (failed : Nat) (q : Partner) (dropped : List Nat), failed ≤ 2 →
        let own := q.stand % 65536 = bits (s.reg Reg.FAB_CFG) 19 4 ∧ q.dev % 16 ≠ devNum s
        ∃ t, exec (.portTrainingDone p failed true ⟨some q, dropped⟩) s = .next t ∧ others t
          ∧ bits (t.reg (portReg p Reg.FAB_Pp_PARTNER)) 31 31 = 1
          ∧ bits (t.reg (portReg p Reg.FAB_Pp_PARTNER)) 30 30 = (decide (0 < failed)).toNat
          ∧ bits (t.reg (portReg p Reg.FAB_Pp_PARTNER)) 23 20 = q.dev % 16
          ∧ bits (t.reg (portReg p Reg.FAB_Pp_PARTNER)) 19 4 = q.stand % 65536
          ∧ (own → portState t p = 2 ∧ peerGen t (q.dev % 16) = q.gen % 256)
          ∧ (¬ own → portState t p = 3 ∧ flag (t.reg Reg.FAB_ERR_STATUS) 3 = true))
    ∧ (portState s p = 1 → ∀ (failed : Nat) (lane : Bool) (q : Option Partner) (dropped : List Nat), 2 < failed ∨ lane = false ∨ q = none →
        ((s.port p).retraining = false ∨ 2 ≤ (s.port p).retrains →
          ∃ t, exec (.portTrainingDone p failed lane ⟨q, dropped⟩) s = .next t ∧ portState t p = 0 ∧ flag (t.reg Reg.FAB_ERR_STATUS) 2 = true
            ∧ others t)
        ∧ ((s.port p).retraining = true → (s.port p).retrains < 2 →
          ∃ t, exec (.portTrainingDone p failed lane ⟨q, dropped⟩) s = .next t ∧ portState t p = 1
            ∧ (t.port p).retrains = (s.port p).retrains + 1
            ∧ t.reg (portReg p Reg.FAB_Pp_RETRAIN_CNT) = satAdd32 (s.reg (portReg p Reg.FAB_Pp_RETRAIN_CNT)) 1))

/-- On a powered port that is UP, while nothing of firmware's own waits; a flit is good when the CRC-32 of its sequence number and
data (the model's own coverage, log entry 125) is the one it carries. A good flit with the sequence number expected is
accepted: the number expected moves on by 1 modulo 4096 and discarding ends. A good flit with another number changes nothing,
a failed one is only counted. A failed flit with the number expected is counted, answered by a negative acknowledgement of
that number, and starts discarding; the sixteenth failure of one flit in a row starts a retrain instead of going on. An
acknowledgement of an unacknowledged flit removes it and all older ones, and packets that waited for room go out; a negative
one removes only the older ones, replays from it, is counted and sets bit 0 of FAB_ERR_STATUS. A timeout with flits
unacknowledged starts a retrain; with none it changes nothing. (11_stand_fabric_and_resharding.md) -/
def Obligations.FlitSequenceAndReplay : Prop :=
  ∀ (s : State) (p : Nat), s.Canonical → isDown s = false → portOn s p = true → Quiet s → portState s p = 2 →
    let x := s.port p
    let crcErr := portReg p Reg.FAB_Pp_CRC_ERR_CNT
    (∀ (seq : Nat) (data : List Byte), seq % 4096 = x.rxSeq → exec (.flitReceive p seq ⟨data, flitCrc seq data⟩) s
        = .next (s.setPort p { x with rxSeq := (x.rxSeq + 1) % 4096, discarding := false, fails := 0 }))
    ∧ (∀ (seq : Nat) (data : List Byte), seq % 4096 ≠ x.rxSeq → exec (.flitReceive p seq ⟨data, flitCrc seq data⟩) s = .next s)
    ∧ (∀ (seq : Nat) (data : List Byte) (crc : Word), seq % 4096 ≠ x.rxSeq → crc ≠ flitCrc seq data →
        exec (.flitReceive p seq ⟨data, crc⟩) s = .next (s.bump crcErr 1))
    ∧ (∀ (seq : Nat) (data : List Byte) (crc : Word), seq % 4096 = x.rxSeq → crc ≠ flitCrc seq data →
        ∃ t, exec (.flitReceive p seq ⟨data, crc⟩) s = .next t
        ∧ t.out = .nak p x.rxSeq :: s.out ∧ (t.port p).rxSeq = x.rxSeq ∧ (t.port p).discarding = true
        ∧ t.reg crcErr = satAdd32 (s.reg crcErr) 1
        ∧ (x.fails + 1 < 16 → portState t p = 2 ∧ (t.port p).fails = x.fails + 1)
        ∧ (16 ≤ x.fails + 1 → portState t p = 1 ∧ (t.port p).retraining = true))
    ∧ (∀ old q new, x.unacked = old ++ q :: new → q ∉ old → q < 4096 →
        exec (.acknowledgementReceive p q false) s
          = .next (sendWaiting x.waitPk.length (s.setPort p { x with unacked := new }) p)
        ∧ ∃ t sent, exec (.acknowledgementReceive p q true) s = .next t ∧ (t.port p).unacked = q :: new ++ sent
          ∧ (x.waitPk = [] → sent = [])
          ∧ OutMsg.replay p q ∈ t.out ∧ flag (t.reg Reg.FAB_ERR_STATUS) 0 = true
          ∧ t.reg (portReg p Reg.FAB_Pp_REPLAY_CNT) = satAdd32 (s.reg (portReg p Reg.FAB_Pp_REPLAY_CNT)) 1)
    ∧ (x.unacked ≠ [] → ∃ t, exec (.ackTimeout p) s = .next t ∧ portState t p = 1 ∧ (t.port p).retraining = true
        ∧ t.reg (portReg p Reg.FAB_Pp_RETRAIN_CNT) = satAdd32 (s.reg (portReg p Reg.FAB_Pp_RETRAIN_CNT)) 1)
    ∧ (x.unacked = [] → exec (.ackTimeout p) s = .next s)

/-- With the device up, a fabric fitted and nothing of firmware's own waiting. A FAB_CFG write that changes Stand or device number
while the fabric is enabled only sets bit 6 of FAB_ERR_STATUS; one that enables the fabric stores the defined bits and sets
every port training; one that disables it stores them and takes every port DOWN. A route that names port 6 or 7 only sets bit
6; another is stored with its defined bits. A window word written by the host only sets bit 2 of WIN_ERR_STATUS; words 1 to 3
of a closed entry are stored with their defined bits, and of an open one only set bit 1; opening an empty window only sets bit
1, and closing one is stored. WIN_SYNC marks every held request. (11_stand_fabric_and_resharding.md) -/
def Obligations.FabricConfigurationWrites : Prop :=
  ∀ (s : State) (v : Word), s.Canonical → isDown s = false → Quiet s → 0 < portCount s.part →
    let old := s.reg Reg.FAB_CFG
    (flag old 31 = true → bits v 19 0 ≠ bits old 19 0 → exec (.fabCfgWrite v) s = .next (s.raise Reg.FAB_ERR_STATUS (bitMask 6)))
    ∧ (flag old 31 = false → flag v 31 = true → ∃ t, exec (.fabCfgWrite v) s = .next t ∧ t.reg Reg.FAB_CFG = v &&& 0x800FFFFF
        ∧ ∀ p, p < portCount s.part → portState t p = 1)
    ∧ (flag old 31 = true → flag v 31 = false → bits v 19 0 = bits old 19 0 →
        ∃ t, exec (.fabCfgWrite v) s = .next t ∧ t.reg Reg.FAB_CFG = v &&& 0x800FFFFF
          ∧ ∀ p, p < portCount s.part → portState t p = 0)
    ∧ (∀ d, d < 16 →
        (6 ≤ bits v 2 0 ∨ 6 ≤ bits v 6 4 → exec (.fabRouteWrite d v) s = .next (s.raise Reg.FAB_ERR_STATUS (bitMask 6)))
        ∧ (bits v 2 0 < 6 → bits v 6 4 < 6 → exec (.fabRouteWrite d v) s = .next (s.setReg (Reg.FAB_ROUTEd + 4 * d) (v &&& 0x800000F7))))
    ∧ (∀ i w, i < 1024 → w < 4 →
        let rejected := s.raise Reg.WIN_ERR_STATUS (bitMask 1)
        exec (.windowEntryWrite i w v true) s = .next (s.raise Reg.WIN_ERR_STATUS (bitMask 2))
        ∧ (0 < w → winOpen s i = true → exec (.windowEntryWrite i w v false) s = .next rejected)
        ∧ (0 < w → winOpen s i = false → exec (.windowEntryWrite i w v false) s
            = .next (s.setReg (Reg.WIN_ENTRYi_W0 + 16 * i + 4 * w)
                (v &&& (if w = 1 then 0xFFFFFFC0 else if w = 2 then 0xFFFF else 0xFFFFFFF))))
        ∧ (flag v 31 = true → winSize s i = 0 → exec (.windowEntryWrite i 0 v false) s = .next rejected)
        ∧ (flag v 31 = false → exec (.windowEntryWrite i 0 v false) s = .next (s.setReg (Reg.WIN_ENTRYi_W0 + 16 * i) v)))
    ∧ (flag v 0 = true → exec (.winSync v) s
        = .next { s with heldReqs := s.heldReqs.map fun h => { h with marked := true } })

/-- On a powered port that is UP, while nothing of firmware's own waits, every packet counts its data in FAB_Pp_RX_CNT. A packet
under another generation than the one recorded for its source is only counted in FAB_STALE_DROP_CNT. For another device, one
with fewer than 4 hops leaves on the UP port of its route with one hop more where nothing waits there and the replay buffer
has room; one with 4 or more is dropped, counted in FAB_HOP_DROP_CNT, and sets bit 5 of FAB_ERR_STATUS. A write for this
device that the Window Table refuses is counted, reported with its reason and source in WIN_LAST_REFUSE, and changes no near
memory; one that it accepts into near memory is counted, and writes exactly its bytes, or waits with the other held requests
while that memory holds its accesses. (11_stand_fabric_and_resharding.md, 15_reset_and_recovery.md) -/
def Obligations.FabricPacketHandling : Prop :=
  ∀ (s : State) (p : Nat) (k : FabPacket), s.Canonical → isDown s = false → portOn s p = true → Quiet s → portState s p = 2 →
    let u := s.bump (portReg p Reg.FAB_Pp_RX_CNT) (bodyUnits k.body)
    (k.gen ≠ peerGen s k.src → exec (.fabricPacketReceive p k) s = .next (u.bump Reg.FAB_STALE_DROP_CNT 1))
    ∧ (k.gen = peerGen s k.src → k.dst ≠ devNum s →
        (∀ q, k.hops < 4 → routePort s k.dst = some q → portState s q = 2 → (s.port q).waitPk = [] →
            replayRoom (s.port q) k = true →
          ∃ t, exec (.fabricPacketReceive p k) s = .next t ∧ t.out = .packet q { k with hops := k.hops + 1 } :: s.out ∧ t.nm = s.nm)
        ∧ (4 ≤ k.hops → ∃ t, exec (.fabricPacketReceive p k) s = .next t
          ∧ t.reg Reg.FAB_HOP_DROP_CNT = satAdd32 (s.reg Reg.FAB_HOP_DROP_CNT) 1
          ∧ flag (t.reg Reg.FAB_ERR_STATUS) 5 = true ∧ t.nm = s.nm))
    ∧ (∀ tag a d c g, k.gen = peerGen s k.src → k.dst = devNum s → k.body = .write tag a d c g →
        (∀ w reason, winCheck u k.src a d.length true c g = (w, some reason) →
          ∃ t, exec (.fabricPacketReceive p k) s = .next t ∧ t.nm = s.nm
            ∧ t.reg Reg.WIN_REFUSE_CNT = satAdd32 (s.reg Reg.WIN_REFUSE_CNT) 1
            ∧ bits (t.reg Reg.WIN_LAST_REFUSE) 30 28 = reason % 8 ∧ bits (t.reg Reg.WIN_LAST_REFUSE) 19 16 = k.src % 16)
        ∧ ∀ w f x, winCheck u k.src a d.length true c g = (w, none) → placeOf a = .nm f x →
          ∃ t, exec (.fabricPacketReceive p k) s = .next t
            ∧ t.reg Reg.WIN_ACCEPT_CNT = satAdd32 (s.reg Reg.WIN_ACCEPT_CNT) 1
            ∧ (nmHeld s f x d.length = false → t.nm = (nmWrite s f x (unitPoison d) f).nm ∧ t.heldReqs = s.heldReqs)
            ∧ (nmHeld s f x d.length = true → t.nm = s.nm ∧ t.heldReqs = s.heldReqs ++ [⟨k, f, false⟩]))

/-- With the device up and nothing of firmware's own waiting. HEARTBEAT of the active head, with a live port to its twin and room
in the budget, issues one 64-byte write to the twin; any other device does nothing. HEAD_TAKEOVER on an enabled standby makes
it active with its epoch one higher modulo 256 and has a claim with that epoch on its way to every member that a port reaches;
every ring then waits for the host's doorbell. A claim with an epoch ahead in modulo-256 serial order is stored in FAB_HEAD
with the new head's number; any other claim changes nothing. (11_stand_fabric_and_resharding.md) -/
def Obligations.TwinHeads : Prop :=
  ∀ (s : State), s.Canonical → isDown s = false → Quiet s →
    (∀ p, activeHead s = true → twinDev s ≠ devNum s → livePort s (twinDev s) = some p → mayIssue s .surveyor 5 true = true →
      ∃ t x, exec .heartbeat s = .next t ∧ t.txns = s.txns ++ [x] ∧ x.owner = .surveyor ∧ x.write = true ∧ x.len = 64
        ∧ x.addr / 2 ^ 48 = twinDev s ∧ x.port = some p ∧ t.nm = s.nm)
    ∧ (activeHead s = false → exec .heartbeat s = .next s)
    ∧ (∀ members mirror done, fabEn s = true → bits (s.reg Reg.FAB_TWIN) 31 30 = 2 →
        let epoch := (bits (s.reg Reg.FAB_TWIN) 19 12 + 1) % 256
        ∃ t, exec (.headTakeover members mirror done) s = .next t
          ∧ bits (t.reg Reg.FAB_TWIN) 31 30 = 1 ∧ bits (t.reg Reg.FAB_TWIN) 19 12 = epoch ∧ twinDev t = twinDev s
          ∧ (∀ d, d ∈ members → d < 16 → d ≠ devNum s → livePort s d ≠ none →
              ∃ w, w ∈ t.headWrites ∧ w.dev = d ∧ w.msg = .claim epoch)
          ∧ t.mirrored = done ∧ t.takeoverRings = List.range 1024)
    ∧ ∀ d epoch windows, d < 16 → epoch < 256 →
        let ahead := (epoch + 256 - bits (s.reg Reg.FAB_HEAD) 19 12) % 256
        (0 < ahead → ahead < 128 → ∃ t, exec (.headClaim d epoch windows) s = .next t
          ∧ t.reg Reg.FAB_HEAD = BitVec.ofNat 32 (0x80000000 + 4096 * epoch + d)
          ∧ (∀ i w, i ∉ windows → i < 1024 → w < 4 → winWord t i w = winWord s i w))
        ∧ (ahead = 0 ∨ 128 ≤ ahead → exec (.headClaim d epoch windows) s = .next s)

/-- On a reachable Field whose domain is ON, while nothing of firmware's own waits. BUCKER_POST appends the record's address to a
queue of fewer than 4, and otherwise only sets bit 1 of BKRn_ERR_STATUS. BUCKER_JOB_START on an idle Bucker takes the oldest
record: while the read waits, the job stays; one that cannot be read ends the job with code 0x0B, a poisoned one with 0x02; a
legal record with a readable table and local sources becomes the running job with its context, generation and done semaphore.
BUCKER_JOB_DONE on a complete job frees the Bucker, stores its code and counts the job. (11_stand_fabric_and_resharding.md) -/
def Obligations.BuckerJobs : Prop :=
  ∀ (s : State) (f : Nat), s.Canonical → fieldReachable s f = true → domOn s (48 + f) = true → Quiet s →
    (∀ hi : Word, let a := (s.reg (fieldReg f Reg.BKRn_POST_LO)).toNat / 64 * 64 + bits hi 15 0 * 2 ^ 32
      ((s.bkr f).queue.length < 4 →
        exec (.buckerPost f hi) s = .next (s.setBkr f { s.bkr f with queue := (s.bkr f).queue ++ [a] }))
      ∧ (4 ≤ (s.bkr f).queue.length → exec (.buckerPost f hi) s = .next (s.raise (fieldReg f Reg.BKRn_ERR_STATUS) (bitMask 1))))
    ∧ (∀ (a : Nat) (rest : List Nat) (host tab : List (Byte × Bool)), (s.bkr f).cur = none → (s.bkr f).queue = a :: rest →
        let failed (code : Nat) : Prop := ∃ t, exec (.buckerJobStart f host tab) s = .next t
          ∧ (t.bkr f).cur = none ∧ (t.bkr f).queue = rest ∧ (t.bkr f).code = code
          ∧ t.reg (fieldReg f Reg.BKRn_JOB_CNT) = satAdd32 (s.reg (fieldReg f Reg.BKRn_JOB_CNT)) 1
        (∀ v, readRecord s f a 64 host = .wait v → ∃ t, exec (.buckerJobStart f host tab) s = .next t ∧ t.bkr f = s.bkr f)
        ∧ (∀ v, readRecord s f a 64 host = .none v → failed 0x0B)
        ∧ (∀ b v, readRecord s f a 64 host = .got b v → anyPoison b = true → failed 0x02)
        ∧ ∀ b v tb w, readRecord s f a 64 host = .got b v → anyPoison b = false →
            let r := parseBkrRec (plain b)
            bkrLegal r = true → readRecord v f r.table (32 * r.parts) tab = .got tb w → anyPoison tb = false →
            (∀ i, i < r.count → localBlock w (leField (plain tb) (32 * (r.first + i)) 8 % 2 ^ 52) = true) →
            ∃ t y, exec (.buckerJobStart f host tab) s = .next t ∧ (t.bkr f).queue = rest ∧ (t.bkr f).cur = some y
              ∧ (t.bkr f).done = r.done ∧ y.ctx = r.ctx ∧ y.gen = r.gen ∧ y.check = r.check)
    ∧ ∀ x : Xfer, (s.bkr f).cur = some x → xferComplete s (.bucker f) x = true →
      ∃ t, exec (.buckerJobDone f) s = .next t
        ∧ (t.bkr f).cur = none ∧ (t.bkr f).code = x.code ∧ (t.bkr f).queue = (s.bkr f).queue
        ∧ t.reg (fieldReg f Reg.BKRn_JOB_CNT) = satAdd32 (s.reg (fieldReg f Reg.BKRn_JOB_CNT)) 1

/-- With the device up and nothing of firmware's own waiting, for a ring page r below 1,024: a write at offset 0 of a value below
the size of an enabled ring stores the tail and counts one accepted doorbell; it changes no other register on a device that is
no active head, and an active head with a live port to its twin and room in the budget issues one write to the twin; a write
at another offset, with an upper bit set, past the ring's size, or to a ring that is not enabled, counts one dropped doorbell,
sets bit 1 of HST_ERR_STATUS and changes nothing else. A narrow write is counted in HST_NARROW_WR_CNT, sets bit 0 and changes
nothing else. (12_host_interface.md) -/
def Obligations.RingTailDoorbellAcceptance : Prop :=
  ∀ (s : State) (r off : Nat) (v : Word), s.Canonical → isDown s = false → Quiet s → r < 1024 →
    let good := off = 0 ∧ bits v 31 16 = 0 ∧ ringEn s r = true ∧ bits v 15 0 < cfgSize (ringCfg s r)
    (good → ∃ t, exec (.ringTailDoorbell r off v) s = .next t
      ∧ t.reg (ringReg r Reg.HST_RINGr_TAIL) = v ∧ t.reg Reg.HST_DB_CNT = satAdd32 (s.reg Reg.HST_DB_CNT) 1
      ∧ (activeHead s = false → t.out = s.out ∧ RegsKept s t [ringReg r Reg.HST_RINGr_TAIL, Reg.HST_DB_CNT])
      ∧ (∀ p, activeHead s = true → twinDev s ≠ devNum s → livePort s (twinDev s) = some p → mayIssue s .surveyor 5 true = true →
          ∃ x, t.txns = s.txns ++ [x] ∧ x.owner = .surveyor ∧ x.write = true ∧ x.addr / 2 ^ 48 = twinDev s))
    ∧ (¬ good → exec (.ringTailDoorbell r off v) s
        = .next ((s.bump Reg.HST_DB_DROP_CNT 1).raise Reg.HST_ERR_STATUS (bitMask 1)))
    ∧ exec .narrowWriteDrop s = .next ((s.bump Reg.HST_NARROW_WR_CNT 1).raise Reg.HST_ERR_STATUS (bitMask 0))

/-- With the device up and nothing of firmware's own waiting. A head doorbell of an enabled queue with no record waiting, at
offset 0x800, naming a position that the device has written up to, moves the head; without ARM it changes no other register
but the doorbell count; one past what is written is dropped and counted. HOLDOFF_EXPIRY on an armed queue with a record
written since raises its vector, pending if masked and sent otherwise, and disarms it. Enabling a ring whose Field is present
and whose queue is enabled stores the configuration with head and tail 0 and begins a new enabling; naming an absent Field or
a disabled queue, or enabling an enabled ring again, only sets bit 2 of HST_ERR_STATUS. Enabling a queue sets its head to 0
and its write index to 0 with phase 1, and keeps the count of records lost that is still owed; a queue that an enabled ring
uses cannot be disabled. (12_host_interface.md) -/
def Obligations.EventQueueDoorbellAndSetup : Prop :=
  ∀ (s : State), s.Canonical → isDown s = false → Quiet s →
    (∀ (q : Nat) (v : Word), q < 64 → eqEn s q = true → (s.eqSt q).waiting = [] → bits v 31 17 = 0 →
      let size := cfgSize (eqCfg s q)
      let head := bits (s.reg (eqReg q Reg.HST_EQq_HEAD)) 15 0
      let widx := bits (s.reg (eqReg q Reg.HST_EQq_WIDX)) 15 0
      let ahead (x : Nat) : Nat := (x + size - head) % size
      (flag v 16 = false → bits v 15 0 < size → ahead (bits v 15 0) ≤ ahead widx →
        ∃ t, exec (.eqHeadDoorbell q 0x800 v) s = .next t
          ∧ bits (t.reg (eqReg q Reg.HST_EQq_HEAD)) 15 0 = bits v 15 0
          ∧ bits (t.reg (eqReg q Reg.HST_EQq_HEAD)) 31 16 = bits (s.reg (eqReg q Reg.HST_EQq_HEAD)) 31 16
          ∧ t.reg Reg.HST_DB_CNT = satAdd32 (s.reg Reg.HST_DB_CNT) 1
          ∧ RegsKept s t [eqReg q Reg.HST_EQq_HEAD, Reg.HST_DB_CNT] ∧ OnlyRegs s t)
      ∧ (size ≤ bits v 15 0 ∨ ahead widx < ahead (bits v 15 0) →
        exec (.eqHeadDoorbell q 0x800 v) s = .next ((s.bump Reg.HST_DB_DROP_CNT 1).raise Reg.HST_ERR_STATUS (bitMask 1))))
    ∧ (∀ q : Nat, eqEn s q = true → eqArmed s q = true → 0 < (s.eqSt q).since →
      let k := bits (eqCfg s q) 29 24
      ∃ t, exec (.holdoffExpiry q) s = .next t ∧ eqArmed t q = false ∧ (t.eqSt q).since = 0
        ∧ (flag (s.reg (Reg.MSIX_TABLE + 16 * k + 12)) 0 = false → t.out = .msix k :: s.out)
        ∧ (flag (s.reg (Reg.MSIX_TABLE + 16 * k + 12)) 0 = true → t.out = s.out
            ∧ flag (t.reg (Reg.MSIX_PBA + 4 * (k / 32))) (k % 32) = true))
    ∧ (∀ (r : Nat) (v : Word), r < 1024 → flag v 31 = true →
      (ringEn s r = false → fieldPresent s (bits v 29 28) = true → eqEn s (bits v 27 22) = true →
        ∃ t, exec (.ringCfgWrite r v) s = .next t ∧ ringEn t r = true ∧ ringCfg t r = v &&& 0xFFC0000F
          ∧ t.reg (ringReg r Reg.HST_RINGr_HEAD) = 0 ∧ t.reg (ringReg r Reg.HST_RINGr_TAIL) = 0
          ∧ t.ringSt r = { epoch := (s.ringSt r).epoch + 1 })
      ∧ (ringEn s r = true ∨ fieldPresent s (bits v 29 28) = false ∨ eqEn s (bits v 27 22) = false →
        exec (.ringCfgWrite r v) s = .next (s.raise Reg.HST_ERR_STATUS (bitMask 2))))
    ∧ ∀ (q : Nat) (v : Word), q < 64 →
      (eqEn s q = false → flag v 31 = true → s.errHeld = [] → s.errLost = 0 →
        ∃ t, exec (.eqCfgWrite q v) s = .next t ∧ eqEn t q = true ∧ t.reg (eqReg q Reg.HST_EQq_HEAD) = 0
          ∧ t.reg (eqReg q Reg.HST_EQq_WIDX) = 0x10000 ∧ t.eqSt q = { lost := (s.eqSt q).lost })
      ∧ (eqEn s q = true → flag v 31 = false → (∃ r, r < 1024 ∧ ringEn s r = true ∧ bits (ringCfg s r) 27 22 = q) →
        exec (.eqCfgWrite q v) s = .next (s.raise Reg.HST_ERR_STATUS (bitMask 2)))

/-- With the device up, nothing of firmware's own waiting, and a ring that is enabled with a descriptor pending, no descriptor of
its own in work and no takeover behind it, its home Field not in reset. A NOP that asks for no record when it ends well:
reading it moves the head on, counts one descriptor and leaves none in work. A NOP that asks for a record, on a device that is
no active head, when its queue has room, maps, and owes nothing: one 32-byte record goes to the queue's next slot, with type
COMPLETION, code 0, the tag, and the ring and slot. A started RING fence with no earlier descriptor of its ring in work ends
at FENCE_COMPLETE. (12_host_interface.md) -/
def Obligations.DescriptorReadAndFence : Prop :=
  ∀ (s : State) (r : Nat) (bytes : List Byte) (env : DescEnv), s.Canonical → isDown s = false → Quiet s →
    let head := bits (s.reg (ringReg r Reg.HST_RINGr_HEAD)) 15 0
    (ringEn s r = true → 0 < ringPending s r → fieldInReset s (bits (ringCfg s r) 29 28) = false →
      liveOn s r = [] → (s.ringSt r).abortTo ≤ (s.ringSt r).read → bytes.length = 64 →
      (∀ x, x ∈ s.descs → x.id < s.descSeq) →
      omapCheck s (ringBase s r + 64 * head) 64 false = none →
      leField bytes 0 1 = 0 → leField bytes 2 2 = 0 → leField bytes 8 56 = 0 →
      (leField bytes 1 1 = 1 → ∃ t, exec (.descriptorRead r bytes env) s = .next t ∧ t.descs = s.descs
        ∧ t.reg (ringReg r Reg.HST_RINGr_HEAD) = BitVec.ofNat 32 ((head + 1) % cfgSize (ringCfg s r))
        ∧ t.reg Reg.HST_DESC_CNT = satAdd32 (s.reg Reg.HST_DESC_CNT) 1 ∧ t.out = s.out
        ∧ RegsKept s t [ringReg r Reg.HST_RINGr_HEAD, Reg.HST_DESC_CNT])
      ∧ (let q := bits (ringCfg s r) 27 22
         let w := s.reg (eqReg q Reg.HST_EQq_WIDX)
         let a := eqBase s q + 32 * bits w 15 0
         leField bytes 1 1 = 0 → activeHead s = false → eqEn s q = true → (s.eqSt q).waiting = [] → (s.eqSt q).lost = 0 → flag w 17 = false →
         (bits w 15 0 + 1) % cfgSize (eqCfg s q) ≠ bits (s.reg (eqReg q Reg.HST_EQq_HEAD)) 15 0 →
         omapCheck s a 32 true = none →
         ∃ t bs, exec (.descriptorRead r bytes env) s = .next t ∧ OutMsg.host (omapHost s a) bs ∈ t.out ∧ bs.length = 32
           ∧ leField bs 0 1 = 1 ∧ leField bs 1 1 = 0 ∧ leField bs 4 4 = leField bytes 4 4
           ∧ leField bs 8 4 = 65536 * head + r ∧ leField bs 12 4 = 0
           ∧ t.reg (ringReg r Reg.HST_RINGr_HEAD) = BitVec.ofNat 32 ((head + 1) % cfgSize (ringCfg s r))
           ∧ t.descs = s.descs ∧ t.reg Reg.HST_EVENT_CNT = satAdd32 (s.reg Reg.HST_EVENT_CNT) 1))
    ∧ ∀ d : Descr, liveOn s r = [d] → (∀ x, x ∈ s.descs → x.id = d.id → x = d) → d.started = true → isFence d = true →
        d.ended = false → d.fence = none →
        ∃ t, exec (.fenceComplete r) s = .next t ∧ ∀ x, x ∈ t.descs → x.id = d.id → x.ended = true

/-- With the device up. CORRELATION_ARM stores the host's 64-bit value with the five counters captured, and sets bit 4 of
HST_ERR_STATUS if one was armed already. TIMESTAMP_LATCH of counter k answers the lower half of the counter and latches its
upper half, so that the two halves belong to one reading; a counter of an absent Field answers 0 and changes nothing. After a
FUNCTION_LEVEL_RESET with nothing of firmware's own waiting, no ring and no event queue is enabled, and every descriptor still
in work is one from before whose record is written nowhere. (12_host_interface.md) -/
def Obligations.CorrelationTimestampsAndFunctionReset : Prop :=
  ∀ (s : State), s.Canonical → isDown s = false →
    (∀ v : Word, ∃ t c, exec (.correlationArm v) s = .next t ∧ t.corr = some c
      ∧ c.value = (s.reg Reg.HST_CORR_LO).toNat + v.toNat * 2 ^ 32 ∧ c.stamps.length = 5 ∧ t.reg Reg.HST_CORR_HI = v
      ∧ (s.corr ≠ none → flag (t.reg Reg.HST_ERR_STATUS) 4 = true)
      ∧ (s.corr = none → RegsKept s t [Reg.HST_CORR_HI]))
    ∧ (∀ k, k < 5 → (k < 4 → fieldPresent s k = true) →
      ∃ t, exec (.timestampLatch k) s = .next t
        ∧ t.resp.toNat + 2 ^ 32 * (t.reg (Reg.HST_TSs_HI + 8 * k)).toNat = (stamp s k).1
        ∧ ((s.clock k).run = true → t.clock k = ⟨(stamp s k).1, true⟩)
        ∧ RegsKept s t [Reg.HST_TSs_HI + 8 * k])
    ∧ (∀ k, k < 4 → fieldPresent s k = false → exec (.timestampLatch k) s = .next { s with resp := 0, respHi := 0 })
    ∧ (Quiet s → ∃ t, exec .functionLevelReset s = .next t
      ∧ (∀ r, ringEn t r = false) ∧ (∀ q, eqEn t q = false)
      ∧ ∀ d, d ∈ t.descs → d.discard = true ∧ ∃ c, c ∈ s.descs ∧ c.id = d.id)

/-- For firmware's command at its own port on a sound entry. READ copies the sixteen words into the port's argument registers,
answers OK with the entry's GEN and changes no entry. WRITE under the entry's GEN writes the defined bits of every word but
OUTSTANDING, which keeps its value, answers OK with the new GEN, and changes no other entry. WRITE under another GEN answers
BUSY with STALE, and a WRITE that would free an entry with operations outstanding answers BUSY; both change no entry.
(13_serving.md) -/
def Obligations.ContextPortReadAndWrite : Prop :=
  ∀ (s : State) (p e : Nat) (acc : PortAccess), s.Canonical → FirmwarePort s p acc → e < 65536 → SoundEntry s .ctx e →
    let w (i : Nat) : Word := tabData s .ctx e i
    let arg (i : Nat) : Word := s.reg (ctxArg p i)
    let frees := ctxState (arg 0) = 0 ∧ bits (w 1) 15 0 ≠ 0
    (∃ t, exec (.ctxPortRead p e acc) s = .next t ∧ (∀ i, i < 16 → t.reg (ctxArg p i) = w i)
      ∧ t.reg (ctxResult p) = BitVec.ofNat 32 (0x80000000 + 4096 * ctxGen (w 0)) ∧ t.ctx = s.ctx)
    ∧ (¬ frees → ∃ t, exec (.ctxPortWrite p (ctxGen (w 0)) e acc) s = .next t
      ∧ (∀ i, i < 16 → i ≠ 1 → tabData t .ctx e i = arg i &&& ctxMask i)
      ∧ bits (tabData t .ctx e 1) 15 0 = bits (w 1) 15 0 ∧ bits (tabData t .ctx e 1) 31 26 = bits (arg 1) 31 26
      ∧ t.reg (ctxResult p) = BitVec.ofNat 32 (0x80000000 + 4096 * ctxGen (arg 0))
      ∧ (∀ d i, d ≠ e → d < 65536 → i < 16 → tabData t .ctx d i = tabData s .ctx d i))
    ∧ (frees → ∃ t, exec (.ctxPortWrite p (ctxGen (w 0)) e acc) s = .next t ∧ t.ctx = s.ctx
      ∧ t.reg (ctxResult p) = BitVec.ofNat 32 (0x80000000 + 4096 * ctxGen (w 0) + 0x09))
    ∧ ∀ gen, gen < 4096 → gen ≠ ctxGen (w 0) → ∃ t, exec (.ctxPortWrite p gen e acc) s = .next t ∧ t.ctx = s.ctx
      ∧ t.reg (ctxResult p) = BitVec.ofNat 32 (0xC0000000 + 4096 * ctxGen (w 0) + 0x09)

/-- For firmware's command at its own port, on counter c of 0 to 5 with amount a in the first argument word. TAKE of no more than
the counter holds subtracts the amount and answers OK; a larger TAKE answers NO_RESOURCE (0x03), counts one refusal and keeps
every counter. GIVE that stays within 0xFFFFFF adds the amount and answers OK; one beyond answers BAD_DESCRIPTOR (0x0B) and
keeps every counter. No other counter, no table entry and nothing but registers changes. (13_serving.md) -/
def Obligations.BudgetTakeAndGive : Prop :=
  ∀ (s : State) (p : Nat) (acc : PortAccess), s.Canonical → FirmwarePort s p acc →
    let c := bits (s.reg (ctxArg p 0)) 26 24
    let a := bits (s.reg (ctxArg p 0)) 23 0
    c < 6 →
    let answered (t : State) (code : Nat) : Prop := t.reg (ctxResult p) = BitVec.ofNat 32 (0x80000000 + code)
      ∧ (∀ d, d < 6 → d ≠ c → budget t d = budget s d) ∧ OnlyRegs s t
    (a ≤ budget s c → ∃ t, exec (.take p acc) s = .next t ∧ budget t c = budget s c - a ∧ answered t 0)
    ∧ (budget s c < a → ∃ t, exec (.take p acc) s = .next t ∧ budget t c = budget s c ∧ answered t 0x03
        ∧ t.reg Reg.CTX_TAKE_REFUSE_CNT = satAdd32 (s.reg Reg.CTX_TAKE_REFUSE_CNT) 1)
    ∧ (budget s c + a ≤ 0xFFFFFF → ∃ t, exec (.give p acc) s = .next t ∧ budget t c = budget s c + a ∧ answered t 0)
    ∧ (0xFFFFFF < budget s c + a → ∃ t, exec (.give p acc) s = .next t ∧ budget t c = budget s c ∧ answered t 0x0B)

/-- With the device up and nothing of firmware's own waiting. STEP_START, on a present Field not in reset with its cores' Fields
not in reset and no record's place held, when contexts may join after the boundary's work, adds one running step with those
sub-batches, a fresh number and its plan's Field, cores and job. STEP_COMMIT of a running step whose Field is not in reset and
whose kernels answered for every member removes that step. With e sound and the table's injector not armed: TRIM_APPLY on an
open context in no step, with a TRIM waiting and its page list not held, leaves none waiting and sets ALLOCATED to 64
positions a page still held; TEARDOWN_DRAINED on a DRAINING context with nothing outstanding and no objects makes the entry
FREE with its GEN and every other field 0; the first DRAIN_TIMEOUT of a DRAINING context with work outstanding sets bit 0 of
CTX_ERR_STATUS and counts one timeout. (13_serving.md) -/
def Obligations.StepsAndTeardown : Prop :=
  ∀ (s : State), s.Canonical → isDown s = false → Quiet s →
    (∀ plan : StepPlan, fieldPresent s plan.field = true → fieldInReset s plan.field = false →
        (plan.cores.any fun f => fieldInReset s f) = false → stepHeld s plan = false →
      let b := boundaryEnds s
      let u := (liveCtxs b).foldl (fun s e =>
        if (s.fw e).held.isSome && ctxOpen s e && !inStep s e && !listHeld s e then readyPages s e (nextNeed s e) else s) b
      let f := formSubs u plan.caps ((liveCtxs u).filter (eligible u)) (List.range 64)
      (f.1 ≠ [] → ∃ t x, exec (.stepStart plan) s = .next t ∧ t.steps = f.2.steps ++ [x] ∧ x.id = f.2.stepSeq
        ∧ x.field = plan.field ∧ x.cores = plan.cores ∧ x.job = plan.job ∧ x.subs = f.1 ∧ t.stepSeq = f.2.stepSeq + 1)
      ∧ (∀ x, x ∈ f.1 → x.root < 64 ∧ x.members ≠ []
          ∧ x.members.length ≤ ((plan.caps.find? fun c => decide (c.1 = x.root)).map (·.2)).getD 0))
    ∧ (∀ (id : Nat) (outs : List MemberOut) (x : StepRun), s.steps.find? (fun t => decide (t.id = id)) = some x →
        fieldInReset s x.field = false → (x.subs.flatMap (·.members)).all (fun m => (outFor outs m).isSome) = true →
      ∃ t, exec (.stepCommit id outs) s = .next t ∧ (∀ y, y ∈ t.steps → y.id ≠ id))
    ∧ (∀ e, e < 65536 → SoundEntry s .ctx e → flag (s.reg Reg.CTX_INJ_CTRL) 31 = false →
        ((s.fw e).trims ≠ [] → inStep s e = false → ctxOpen s e = true → listHeld s e = false →
          ∃ t, exec (.trimApply e) s = .next t ∧ (t.fw e).trims = []
            ∧ bits (tabData t .ctx e 4) 23 0 = 64 * pagesHeld (t.fw e) % 2 ^ 24)
        ∧ (ctxState (tabData s .ctx e 0) = 3 → drainBusy s e = false → (∀ g, ownedBy s e g = []) →
          ∃ t, exec (.teardownDrained e) s = .next t
            ∧ tabData t .ctx e 0 = BitVec.ofNat 32 (ctxGen (tabData s .ctx e 0))
            ∧ (∀ w, 0 < w → w < 16 → tabData t .ctx e w = 0)
            ∧ (t.fw e).genCopy = ctxGen (tabData s .ctx e 0) ∧ (t.fw e).held = none)
        ∧ ∀ stuck, ctxState (tabData s .ctx e 0) = 3 → drainBusy s e = true → (s.fw e).timeouts = 0 →
          ∃ t, exec (.drainTimeout e stuck) s = .next t ∧ flag (t.reg Reg.CTX_ERR_STATUS) 0 = true
            ∧ t.reg Reg.CTX_DRAIN_TIMEOUT_CNT = satAdd32 (s.reg Reg.CTX_DRAIN_TIMEOUT_CNT) 1 ∧ (t.fw e).timeouts = 1)

/-- On a Field whose near memory runs, with the device up and nothing of firmware's own waiting, in every state whose memories are
in canonical form. SCRUB_TICK with the scrubber enabled, no repair holding a channel of the unit, moves its pointer to the
next 4 KiB, or, past the last one, to 0 with one more pass and bit 6 of NMn_ERR_STATUS. PPR_REQUEST while a repair runs, or
without GO, only sets bit 9; with a spare row it makes the row named the one under repair with result 0; without one it sets
bit 8 and starts nothing. PPR_DONE ends the repair: result 1, bit 7 and one more repair, or result 3 and bit 8 on failure;
either way one spare fewer. INJECTOR_ARM of a present memory stores the writable bits of its control register and changes
nothing else. (14_data_integrity.md) -/
def Obligations.ScrubRepairAndInjection : Prop :=
  ∀ (s : State) (f : Nat), s.Canonical → nmRuns s f = true → isDown s = false → Quiet s →
    let st := fieldReg f Reg.NMn_SCRUB_STATUS
    let u := bits (s.reg st) 21 0
    let ppr := fieldReg f Reg.NMn_PPR_STATUS
    let err := fieldReg f Reg.NMn_ERR_STATUS
    (flag (s.reg (fieldReg f Reg.NMn_SCRUB_CTRL)) 31 = true → nmChannelHeld s f (4096 * u) 4096 = false →
      ∃ t, exec (.scrubTick f) s = .next t
        ∧ ((u + 1) * 4096 < nmDataEnd s.part → bits (t.reg st) 21 0 = u + 1 ∧ bits (t.reg st) 31 24 = bits (s.reg st) 31 24)
        ∧ (nmDataEnd s.part ≤ (u + 1) * 4096 → bits (t.reg st) 21 0 = 0
            ∧ bits (t.reg st) 31 24 = (bits (s.reg st) 31 24 + 1) % 256 ∧ flag (t.reg err) 6 = true))
    ∧ (∀ (v : Word) (spare : Bool), (s.field f).ppr ≠ none ∨ flag v 31 = false →
        exec (.pprRequest f v spare) s = .next (s.raise err (bitMask 9)))
    ∧ (∀ v : Word, (s.field f).ppr = none → flag v 31 = true →
        (∃ t, exec (.pprRequest f v true) s = .next t
          ∧ (t.field f).ppr = some (bits v 29 28, bits v 27 24, bits v 17 0) ∧ bits (t.reg ppr) 30 28 = 0
          ∧ RegsKept s t [ppr] ∧ t.nm = s.nm)
        ∧ ∃ t, exec (.pprRequest f v false) s = .next t ∧ (t.field f).ppr = none ∧ bits (t.reg ppr) 30 28 = 2
          ∧ flag (t.reg err) 8 = true ∧ t.nm = s.nm)
    ∧ (∀ (failed : Bool) (row : Nat × Nat × Nat), (s.field f).ppr = some row →
        ∃ t, exec (.pprDone f failed) s = .next t ∧ (t.field f).ppr = none
          ∧ bits (t.reg ppr) 30 28 = (if failed then 3 else 1) ∧ bits (t.reg ppr) 7 0 = bits (s.reg ppr) 7 0 - 1
          ∧ flag (t.reg err) (if failed then 8 else 7) = true
          ∧ t.reg (fieldReg f Reg.NMn_PPR_CNT) = satAdd32 (s.reg (fieldReg f Reg.NMn_PPR_CNT)) (!failed).toNat)
    ∧ ∀ (m : InjUnit) (v : Word) (row : RegRow), injPresent s m = true → regRow (injCtrl m) = some row →
        exec (.injectorArm m v) s = .next (s.setReg (injCtrl m)
          ((s.reg (injCtrl m) &&& ~~~(BitVec.ofNat 32 row.rw)) ||| (v &&& BitVec.ofNat 32 row.rw)))

/-- With the device up and the memories in canonical form: a write to CTX_QUAR_CLEAR or RES_QUAR_CLEAR (with its reserved bits 0)
that names a quarantined entry makes every word of it 0 but for GEN, which takes the written value, so that the entry is FREE,
ends its quarantine and keeps every other entry and every other quarantine; a write that names an entry not under quarantine
changes nothing. (R329) -/
def Obligations.QuarantineClearFreesEntry : Prop :=
  ∀ (s : State) (v : Word), s.Canonical → isDown s = false →
    (bits v 15 0 ∈ s.ctxQuar → ∃ t, exec (.quarantineClear false false v) s = .next t
      ∧ tabData t .ctx (bits v 15 0) 0 = BitVec.ofNat 32 (bits v 27 16) ∧ ctxState (tabData t .ctx (bits v 15 0) 0) = 0
      ∧ (∀ w, 0 < w → w < 16 → tabData t .ctx (bits v 15 0) w = 0)
      ∧ (∀ e w, e ≠ bits v 15 0 → w < 16 → tabData t .ctx e w = tabData s .ctx e w)
      ∧ (∀ e, e ∈ t.ctxQuar ↔ e ∈ s.ctxQuar ∧ e ≠ bits v 15 0))
    ∧ (bits v 15 0 ∉ s.ctxQuar → exec (.quarantineClear false false v) s = .next s)
    ∧ (bits v 14 0 ∈ s.resQuar → bits v 27 24 = 0 → ∃ t, exec (.quarantineClear true false v) s = .next t
      ∧ tabData t .res (bits v 14 0) 0 = BitVec.ofNat 32 (4096 * bits v 23 16) ∧ resValid (tabData t .res (bits v 14 0) 0) = false
      ∧ (∀ w, 0 < w → w < 8 → tabData t .res (bits v 14 0) w = 0)
      ∧ (∀ e w, e ≠ bits v 14 0 → w < 8 → tabData t .res e w = tabData s .res e w)
      ∧ (∀ e, e ∈ t.resQuar ↔ e ∈ s.resQuar ∧ e ≠ bits v 14 0))
    ∧ (bits v 14 0 ∉ s.resQuar → exec (.quarantineClear true false v) s = .next s)

/-- With the device up, nothing of firmware's own waiting and the memories in canonical form. DEVICE_ERROR_REPORT of a weight
store with enabled flags set clears those flags; with no error queue it counts one lost record. CORE_RESET by firmware on a
present Field not quiesced for a capture returns every core it names to its power-on state, where no transfer waits for its
scratchpad, and by the host it changes nothing. FIELD_FENCE by firmware marks the context it names, sets bit 28 of FLDn_STATUS
and counts one fence; while a fence runs it only sets bit 27 alone; FIELD_FENCE_DONE ends it and clears bit 28.
STAND_ABORT_RECOVERY of an aborted job whose cores are TRAPPED or STOPPED with empty Skidder queues resets each of them, and
with no request through a window still to finish it zeroes the semaphores named. (07_core_programming.md, 10_hedgerow.md,
12_host_interface.md, 15_reset_and_recovery.md) -/
def Obligations.ErrorReportsFencesAndCoreResets : Prop :=
  ∀ (s : State) (f : Nat), s.Canonical → isDown s = false → Quiet s → fieldPresent s f = true →
    (fieldInReset s f = false →
      let st := fieldReg f Reg.WSn_ERR_STATUS
      let on := s.reg st &&& s.reg (fieldReg f Reg.WSn_ERR_EVENT_EN)
      on ≠ 0 → ∃ t, exec (.deviceErrorReport 8 f) s = .next t ∧ t.reg st = s.reg st &&& ~~~on
        ∧ (errEq s = none → t.reg Reg.HST_EVENT_LOST_CNT = satAdd32 (s.reg Reg.HST_EVENT_LOST_CNT) 1
            ∧ t.errLost = s.errLost + 1))
    ∧ (fieldQuiesced s f = false → ∀ v : Word,
      exec (.coreReset f v true) s = .next s
      ∧ ((∀ w ∈ s.waiters, w.1 < 16) → s.heldReqs = [] → ∃ t, exec (.coreReset f v false) s = .next t
        ∧ ∀ k, k < 4 → flag v k = true → corePresent s (4 * f + k) = true → t.core (4 * f + k) = {}))
    ∧ (fieldInReset s f = false → ∀ v : Word, flag v 31 = true →
      ((s.field f).fence = none → ∃ t, exec (.fieldFence f v false) s = .next t
        ∧ (t.field f).fence = some (bits v 15 0) ∧ flag (t.reg (fieldReg f Reg.FLDn_STATUS)) 28 = true
        ∧ t.reg (fieldReg f Reg.FLDn_FENCE_CNT) = satAdd32 (s.reg (fieldReg f Reg.FLDn_FENCE_CNT)) 1)
      ∧ ((s.field f).fence ≠ none →
        exec (.fieldFence f v false) s = .next (s.raise (fieldReg f Reg.FLDn_STATUS) (bitMask 27))))
    ∧ ((s.field f).fence ≠ none → ∃ t, exec (.fieldFenceDone f) s = .next t ∧ (t.field f).fence = none
        ∧ t.reg (fieldReg f Reg.FLDn_STATUS) = s.reg (fieldReg f Reg.FLDn_STATUS) &&& ~~~bitMask 28
        ∧ RegsKept s t [fieldReg f Reg.FLDn_STATUS])
    ∧ ∀ (j started : Nat) (windows groups sems moves : List Nat), j < 16 → jobAborted s j = true →
      let inJob (n : Nat) : Prop := n < coreCount s.part ∧ flag (s.reg (Reg.HDG_COREj_JOB + 4 * n)) 4 = true
        ∧ bits (s.reg (Reg.HDG_COREj_JOB + 4 * n)) 3 0 = j
      (∀ n, inJob n → ((s.core n).seq = .trapped ∨ (s.core n).seq = .stopped) ∧ s.skq n = []) →
      ∃ t, exec (.standAbortRecovery j started windows groups sems moves) s = .next t
        ∧ (∀ n, inJob n → (t.core n).seq = .stopped)
        ∧ (s.heldReqs = [] → ∀ i, i ∈ sems → semPresent s i = true → semVal t i = 0)

/-- On a present Field that is not in reset, on a powered device not in reset with no capture in progress, every domain of the
Field and its cores ON, no scratchpad being swept, every region answering and the memories in canonical form: a Field reset of
a cause, the host's own (cause 2), a Forester trap (3) and a Forester watchdog (4) each put the Field in reset with its
generation one higher modulo 256 and that cause, and return its cores to their power-on state. While another capture is in
progress the reset waits for its own with the Field already in reset. A trigger on a Field already in reset changes neither
generation nor cause. FIELD_READY of a Field whose reset is asserted and whose domain is ON takes it out of reset;
FIELD_READY_TIMEOUT resets the device. (15_reset_and_recovery.md) -/
def Obligations.FieldResetAndReady : Prop :=
  ∀ (s : State) (f : Nat), s.Canonical → fieldPresent s f = true → s.power.off = false → deviceInReset s = false →
    let whole := s.capture = none ∧ s.captureWaits = [] ∧ domOn s (48 + f) = true ∧ (domPresent s (52 + f) = true → domOn s (52 + f) = true)
      ∧ (∀ k, k < 12 → domPresent s (12 * f + k) = true → domOn s (12 * f + k) = true)
      ∧ ∀ k, k < 4 → (s.core (4 * f + k)).sweeping = 0
    let landed (t : State) (cause : Nat) : Prop := fieldInReset t f = true ∧ fldGen t f = (fldGen s f + 1) % 256
      ∧ t.reg (fieldReg f Reg.FLDn_RESET_CAUSE) = BitVec.ofNat 32 cause
      ∧ (∀ k, k < 4 → t.core (4 * f + k) = {}) ∧ t.capture = none
    (fieldInReset s f = false → whole →
      (∀ cause, cause < 256 → ∃ t, exec (.fieldReset f cause []) s = .next t ∧ landed t cause)
      ∧ (∀ v : Word, bits v 31 24 = 0xA5 → bits v 9 8 = 1 → bits v 3 0 = 2 ^ f →
          ∃ t, exec (.hostFieldReset v []) s = .next t ∧ landed t 2)
      ∧ (∀ cause addr, ∃ t, exec (.foresterTrap f cause addr []) s = .next t ∧ landed t 3)
      ∧ (∀ addr, ∃ t, exec (.foresterWatchdog f addr []) s = .next t ∧ landed t 4))
    ∧ (fieldInReset s f = false → ∀ (c : Capture) (cause : Nat) (stuck : List (Nat × Nat)), s.capture = some c → cause < 256 →
        ∃ t, exec (.fieldReset f cause stuck) s = .next t ∧ fieldInReset t f = true ∧ fldGen t f = fldGen s f
          ∧ t.capture = some c ∧ (f, cause) ∈ t.captureWaits)
    ∧ (fieldInReset s f = true → ∀ cause stuck, ∃ t, exec (.fieldReset f cause stuck) s = .next t
        ∧ fieldInReset t f = true ∧ fldGen t f = fldGen s f
        ∧ t.reg (fieldReg f Reg.FLDn_RESET_CAUSE) = s.reg (fieldReg f Reg.FLDn_RESET_CAUSE) ∧ t.cores = s.cores)
    ∧ (fieldAsserted s f = true → domOn s (48 + f) = true → Quiet s →
        ∃ t, exec (.fieldReady f) s = .next t ∧ fieldInReset t f = false ∧ fldGen t f = fldGen s f)
    ∧ (fieldAsserted s f = true → ∀ stuck, ∃ t, exec (.fieldReadyTimeout f stuck) s = .next t ∧ deviceInReset t = true)

/-- On a powered device that is not in reset, with no capture in progress, every domain ON, no scratchpad being swept, every
region answering and the memories in canonical form: a device reset of a cause, the host's (2), a Surveyor trap (6) and
watchdog (7), and the service port's RESET (8), which answers first, each put the device in reset with the device generation
and every present Field's generation one higher modulo 256 and that cause, cores at power-on state, near memory cleared, and
no descriptor, step or ring position left. A trigger during a device reset changes neither generation nor cause. DEVICE_READY
with both packages of the selected bank good, outside recovery and with no capture, takes the device out of reset, running
those packages, its generation unchanged. (15_reset_and_recovery.md, 16_start_up_and_trust.md) -/
def Obligations.DeviceResetAndReady : Prop :=
  ∀ (s : State), s.Canonical → s.power.off = false →
    let whole := s.capture = none ∧ s.captureWaits = [] ∧ (∀ k, k < 63 → domPresent s k = true → domOn s k = true)
      ∧ ∀ n, (s.core n).sweeping = 0
    let landed (t : State) (cause : Nat) : Prop := deviceInReset t = true ∧ devGen t = (devGen s + 1) % 256
      ∧ bits (t.reg Reg.SRV_RESET_STATUS) 7 0 = cause ∧ (∀ f, f < fieldCount s.part → fldGen t f = (fldGen s f + 1) % 256)
      ∧ (∀ n, t.core n = {}) ∧ t.nm = [] ∧ t.descs = [] ∧ t.steps = [] ∧ t.capture = none
    (deviceInReset s = false → whole →
      (∀ cause, cause < 256 → ∃ t, exec (.deviceReset cause []) s = .next t ∧ landed t cause)
      ∧ (∀ v : Word, bits v 31 24 = 0xA5 → bits v 9 8 = 2 → ∃ t, exec (.hostDeviceReset v []) s = .next t ∧ landed t 2)
      ∧ (∀ cause addr, ∃ t, exec (.surveyorTrap cause addr []) s = .next t ∧ landed t 6)
      ∧ (∀ addr, ∃ t, exec (.surveyorWatchdog addr []) s = .next t ∧ landed t 7)
      ∧ (flag (s.reg Reg.USB_SVC_CTRL) 0 = true → domOn s 62 = true → s.power.tripped = false → inRecovery s = false →
          ∀ tag recovery, ∃ t, exec (.reset tag recovery []) s = .next t ∧ landed t 8
            ∧ .service (answerOp.svcResponse 0 0 tag 0 []) ∈ t.out ∧ t.toRecovery = (recovery || s.toRecovery)))
    ∧ (deviceInReset s = true → ∀ cause stuck, ∃ t, exec (.deviceReset cause stuck) s = .next t
        ∧ t.reg Reg.SRV_RESET_STATUS = s.reg Reg.SRV_RESET_STATUS ∧ t.nm = s.nm ∧ t.cores = s.cores)
    ∧ (deviceInReset s = true → s.capture = none → s.power.standby = false → s.power.tripped = false → inRecovery s = false →
        s.toRecovery = false → srvCheck s s.bankPtr = none → frsCheck s s.bankPtr = none →
        ∀ stuck, ∃ t, exec (.deviceReady stuck) s = .next t ∧ deviceInReset t = false ∧ devGen t = devGen s
          ∧ t.runSrv = (s.bank s.bankPtr).srv ∧ t.runFrs = (s.bank s.bankPtr).frs ∧ t.bankPtr = s.bankPtr)

/-- With the memories in canonical form and, for the two reads, the device up: TALLY_READ_SELECT latches the 32 words of the
record in the slot, good or failed by its CRC, or zeros and EMPTY for an empty slot, and keeps the ring; WINDFALL_PAGE_SELECT
latches the 4 KiB page named, zero past the capture's end. OBSERVATION_TIMEOUT on a capture whose next region will not answer
either records the region in progress as PARTIAL with at most the bytes read, and goes on to that next region.
WINDFALL_TIME_LIMIT on a Field's capture that no other waits behind ends it: the slot is valid and the newest, bit 1 of
TAL_ERR_STATUS is set, and the Field's reset is asserted. (15_reset_and_recovery.md) -/
def Obligations.WindfallAndTallyReading : Prop :=
  ∀ (s : State), s.Canonical →
    (isDown s = false → ∀ v : Word, let slot := bits v 14 0
      (storeGet none s.tally slot = none → ∃ t, exec (.tallyReadSelect v) s = .next t
        ∧ (∀ w, w < 32 → t.reg (Reg.TAL_RD_DATAw + 4 * w) = 0) ∧ t.reg Reg.TAL_RD_STATUS = bitMask 29 ∧ t.tally = s.tally)
      ∧ (∀ x, storeGet none s.tally slot = some x → ∃ t, exec (.tallyReadSelect v) s = .next t
        ∧ (∀ w, w < 32 → (t.reg (Reg.TAL_RD_DATAw + 4 * w)).toNat = x.toNat / 2 ^ (32 * w) % 2 ^ 32)
        ∧ t.reg Reg.TAL_RD_STATUS
            = bitMask (if crc32 ((leBytes 128 x.toNat).take 124) = x.toNat / 2 ^ 992 then 31 else 30)
        ∧ t.tally = s.tally))
    ∧ (isDown s = false → ∀ v : Word, ∃ t, exec (.windfallPageSelect v) s = .next t ∧ t.wfPage.length = 4096
        ∧ (∀ i, i < 4096 → t.wfPage[i]? = some ((((s.windfall[bits v 16 16]?).getD [])[4096 * bits v 9 0 + i]?).getD 0))
        ∧ t.windfall = s.windfall)
    ∧ (∀ (c : Capture) (got : Nat) (stuck : List (Nat × Nat)) (r q : Nat × Nat), s.capture = some c →
        (wfRegions s c)[c.next]? = some r → (wfRegions s c)[c.next + 1]? = some q →
        (capDomain c, c.next + 1) ∈ stuck →
        ∃ t d, exec (.observationTimeout got stuck) s = .next t ∧ d.length ≤ got
          ∧ t.capture = some { c with next := c.next + 1, done := c.done ++ wfRegion r 1 d })
    ∧ ∀ (c : Capture) (stuck : List (Nat × Nat)), s.capture = some c → c.device = false → s.captureWaits = [] →
        fieldPresent s c.field = true → c.slot < 2 →
        ∃ t, exec (.windfallTimeLimit stuck) s = .next t ∧ t.capture = none
          ∧ flag (t.reg Reg.TAL_WF_STATUS) (30 + c.slot) = true ∧ bits (t.reg Reg.TAL_WF_STATUS) 0 0 = c.slot
          ∧ flag (t.reg Reg.TAL_ERR_STATUS) 1 = true ∧ fieldInReset t c.field = true
          ∧ fldGen t c.field = (fldGen s c.field + 1) % 256

/-- On a device that is up, its memories in canonical form. A maintenance command from the buffer registers that passes its checks
appends its entries to the repair map (REPAIR_ADD), empties it (REPAIR_CLEAR), and answers 0x80000000 in TAL_MAINT_RESULT; a
block that fails answers its code, sets bit 3 of TAL_ERR_STATUS and changes neither map nor ring. Through the open service
port, MAINT does the same for each operation, and TALLY_ERASE leaves the one record it writes itself; each path's own row does
it too. FW_LOAD and LOAD put a package that passes its checks, and whose target bank was not booted, in the bank that the
pointer does not name, and answer OK; a package that fails answers 0x0B with its detail and changes no bank. FW_ACTIVATE and
ACTIVATE move the bank pointer to the other bank when both of its packages pass, with ACTIVE_PENDING set exactly when the
pointer and the booted bank differ. FUSE_ADVANCE of a running package with ADVANCE raises its target's counter by one fuse up
to SVN, and never past 63; without running packages of its own it changes nothing. (15_reset_and_recovery.md,
16_start_up_and_trust.md) -/
def Obligations.MaintenanceAndFirmwareLoads : Prop :=
  ∀ (s : State), s.Canonical → isDown s = false → inRecovery s = false → svcOpen s = true →
    let done (t : State) (b : List Byte) : Prop :=
      (maintOp b = 1 → t.repairMap = s.repairMap ++ leWords (slice b 64 (4 * leField b 6 2)))
      ∧ (maintOp b = 2 → t.repairMap = []) ∧ (maintOp b = 3 → t.repairMap = s.repairMap ∧ t.tally.length = 1)
    let refused (t : State) : Prop :=
      t.repairMap = s.repairMap ∧ t.tally = s.tally ∧ flag (t.reg Reg.TAL_ERR_STATUS) 3 = true
    let answered (t : State) (code detail tag : Nat) : Prop :=
      t.out = .service (answerOp.svcResponse code detail tag 0 []) :: s.out
    let host := regBytes s Reg.TAL_MAINT_BUFw 128
    let byHost (t : State) : Prop :=
      t.reg Reg.TAL_MAINT_RESULT = BitVec.ofNat 32 (0x80000000 + maintCheck s host false)
      ∧ if maintCheck s host false = 0 then done t host else refused t
    let byPort (t : State) (tag : Nat) (b : List Byte) : Prop :=
      answered t (if maintCheck s b true = 0 then 0 else 0x0B) (maintCheck s b true) tag
      ∧ if maintCheck s b true = 0 then done t b else refused t
    let other := 1 - s.bankPtr
    let loaded (t : State) (p : List Byte) : Prop := t.bankPtr = s.bankPtr ∧ t.bank s.bankPtr = s.bank s.bankPtr
      ∧ t.bank other = if pkgCheck s p ≠ none then s.bank other
          else if pkgTarget p = 0 then { s.bank other with srv := some p } else { s.bank other with frs := some p }
    let moved (t : State) : Prop := t.banks = s.banks
      ∧ (bankCheck s other = none → t.bankPtr = other ∧ bootedBank t = bootedBank s
          ∧ flag (t.reg Reg.SRV_BOOT_STATUS) 29 = decide (other ≠ bootedBank s))
      ∧ (bankCheck s other ≠ none → t.bankPtr = s.bankPtr ∧ t.reg Reg.SRV_BOOT_STATUS = s.reg Reg.SRV_BOOT_STATUS)
    (maintOp host = 1 → ∃ t, exec (.repairAdd .host) s = .next t ∧ byHost t)
    ∧ (maintOp host = 2 → ∃ t, exec (.repairClear .host) s = .next t ∧ byHost t)
    ∧ (maintOp host = 3 → ∃ t, exec (.tallyErase .host) s = .next t ∧ byHost t ∧ maintCheck s host false ≠ 0)
    ∧ (∀ tag b, (∃ t, exec (.maint tag b) s = .next t ∧ byPort t tag b)
        ∧ (maintOp b = 1 → ∃ t, exec (.repairAdd (.port tag b)) s = .next t ∧ byPort t tag b)
        ∧ (maintOp b = 2 → ∃ t, exec (.repairClear (.port tag b)) s = .next t ∧ byPort t tag b)
        ∧ (maintOp b = 3 → ∃ t, exec (.tallyErase (.port tag b)) s = .next t ∧ byPort t tag b))
    ∧ (s.bankPtr < 2 → s.banks.toList.length = 2 → other ≠ bootedBank s → ∀ tag p,
        (∃ t, exec (.fwLoad tag p false) s = .next t ∧ loaded t p
          ∧ answered t (if pkgCheck s p = none then 0 else 0x0B) ((pkgCheck s p).getD 0) tag)
        ∧ ((s.reg Reg.SRV_FW_LEN).toNat = p.length →
            omapCheck s (bits (s.reg Reg.SRV_FW_ADDR_HI) 15 0 <<< 32 + bits (s.reg Reg.SRV_FW_ADDR_LO) 31 6 * 64) p.length false = none →
            ∃ t, exec (.load p false false) s = .next t ∧ loaded t p
              ∧ t.reg Reg.SRV_FW_RESULT = BitVec.ofNat 32
                  (0x80000000 + ((pkgCheck s p).getD 0) * 256 + if pkgCheck s p = none then 0 else 0x0B)))
    ∧ (s.bankPtr < 2 → ∀ tag,
        (∃ t, exec (.fwActivate tag false) s = .next t ∧ moved t
          ∧ answered t (if bankCheck s other = none then 0 else 0x0B) ((bankCheck s other).getD 0) tag)
        ∧ ∃ t, exec (.activate false) s = .next t ∧ moved t
          ∧ t.reg Reg.SRV_FW_RESULT = BitVec.ofNat 32
              (0x80000000 + ((bankCheck s other).getD 0) * 256 + if bankCheck s other = none then 0 else 0x0B))
    ∧ (∀ p, s.runSrv = some p → pkgTarget p = 0 → natBit (leField p 7 1) 0 = true → fusedSvn s 0 < min (pkgSvn p) 63 →
        ∃ t, exec (.fuseAdvance 1) s = .next t ∧ fusedSvn t 0 = fusedSvn s 0 + 1 ∧ fusedSvn t 1 = fusedSvn s 1
          ∧ RegsKept s t [Reg.SRV_SVN] ∧ OnlyRegs s t)
    ∧ (s.runSrv = none → s.runFrs = none → ∀ n, exec (.fuseAdvance n) s = .next s)

/-- With the device up and not in recovery mode, its memories in canonical form, and the service port open. Each command shows its
operation in USB_SVC_STATUS and answers one response with its tag: IDENTIFY the identity bytes; TALLY_READ of 1 to 256 records
those records, of any other count 0x0B with detail 0x14; WINDFALL_READ the 4 KiB page named, zero past the capture's end;
CERT_READ the certificate; ATTEST a report that carries the magic and the nonce given, or BUSY; a reserved operation, or a
wrong magic, 0x0B with detail 0x10. ATTEST_GO puts a report with the nonce of the registers in the buffer and sets bit 31, or,
while a report is made, only bit 30. SERVICE_PORT_ENABLE stores the enable alone. IMAGE_INSTALL on an EMPTY root whose image
passes its checks and finds its space makes the root INSTALLING with every segment to program; IMAGE_REPAIR of a root of the
image with nothing to rewrite makes it REPAIRING with nothing to program; the port is then busy until they end.
(15_reset_and_recovery.md, 16_start_up_and_trust.md, 09_weight_store_and_models.md) -/
def Obligations.ServicePortCommands : Prop :=
  ∀ (s : State), s.Canonical → isDown s = false → inRecovery s = false → svcOpen s = true →
    let taken (t : State) (op : Nat) : Prop := t.reg Reg.USB_SVC_STATUS = BitVec.ofNat 32 (0xC0000000 + op)
    let answered (t : State) (op code detail tag : Nat) (payload : List Byte) : Prop := taken t op
      ∧ t.out = .service (answerOp.svcResponse code detail tag 0 payload) :: s.out
      ∧ t.reg Reg.USB_SVC_CMD_CNT = satAdd32 (s.reg Reg.USB_SVC_CMD_CNT) 1
    (∀ tag, (∃ t, exec (.identify tag) s = .next t ∧ answered t 0x01 0 0 tag (identifyBytes s)
          ∧ RegsKept s t [Reg.USB_SVC_STATUS, Reg.USB_SVC_CMD_CNT, Reg.USB_STATUS])
      ∧ ∃ t, exec (.certRead tag) s = .next t
          ∧ answered t 0x05 0 0 tag ((regBytes s Reg.SRV_CERTw 512).take (bits (s.reg Reg.SRV_CERT_LEN) 11 0)))
    ∧ (∀ tag first count,
        (count = 0 ∨ 256 < count → ∃ t, exec (.tallyRead tag first count) s = .next t ∧ answered t 0x02 0x0B 0x14 tag [])
        ∧ (0 < count → count ≤ 256 → ∃ t, exec (.tallyRead tag first count) s = .next t
          ∧ answered t 0x02 0 0 tag ((List.range count).flatMap fun i => (talSlot s (first + i)).1) ∧ t.tally = s.tally))
    ∧ (∀ tag arg, ∃ t page, exec (.windfallRead tag arg) s = .next t ∧ answered t 0x03 0 0 tag page ∧ page.length = 4096
        ∧ ∀ i, i < 4096 → page[i]? = some ((((s.windfall[natBits arg 16 16]?).getD [])[4096 * natBits arg 9 0 + i]?).getD 0))
    ∧ (∀ tag nonce, nonce.length = 32 →
        (∃ t report, exec (.attest tag nonce false) s = .next t ∧ answered t 0x04 0 0 tag report
          ∧ leField report 0 4 = 0x54414B4E ∧ slice report 24 32 = nonce)
        ∧ ∃ t, exec (.attest tag nonce true) s = .next t ∧ answered t 0x04 9 0 tag [])
    ∧ ((∃ t report, exec (.attestGo false) s = .next t
          ∧ t.reg Reg.SRV_ATTEST_STATUS = BitVec.ofNat 32 (0x80000000 + report.length)
          ∧ leField report 0 4 = 0x54414B4E ∧ slice report 24 32 = regBytes s Reg.SRV_ATTEST_NONCEw 8
          ∧ ∀ w, 4 * w < report.length → (t.reg (Reg.SRV_ATTEST_BUFw + 4 * w)).toNat = leField report (4 * w) 4)
        ∧ exec (.attestGo true) s = .next (s.raise Reg.SRV_ATTEST_STATUS (bitMask 30)))
    ∧ (∀ v : Word, ∃ t, exec (.servicePortEnable v) s = .next t
        ∧ t.reg Reg.USB_SVC_CTRL = (s.reg Reg.USB_SVC_CTRL &&& ~~~bitMask 0) ||| (v &&& bitMask 0)
        ∧ RegsKept s t [Reg.USB_SVC_CTRL] ∧ OnlyRegs s t)
    ∧ (∀ tag op magic, op < 256 → (magic ≠ 0x4356534B ∨ svcKnown op = false) →
        ∃ t, exec (.serviceReservedOpcode tag op magic) s = .next t ∧ answered t op 0x0B 0x10 tag []
          ∧ RegsKept s t [Reg.USB_SVC_STATUS, Reg.USB_SVC_CMD_CNT, Reg.USB_STATUS])
    ∧ (Quiet s → hasWeightStore s.part = true → ∀ (tag arg len : Nat) (env : DescEnv), arg % 256 < 64 →
        let r := arg % 256
        let n := manSegments env.manifest
        let begun (o : RootOp) (u : Nat) : State := setRootState ((svcTake s (0x20 + u)).modRoot r fun (x : Root) => { x with op := some o }) r
          (if u = 0 then 1 else 7)
        imageChecks s env.data env.manifest len env.poisoned = none → (s.root r).op = none →
        (∀ u : State, (s.root r).st = 0 →
          (∀ p, p < 64 → p ≠ r → (s.root p).st ≠ 0 → (s.root p).manifest ≠ [] →
            manModel (s.root p).manifest = manModel env.manifest → manVersion (s.root p).manifest ≠ manVersion env.manifest) →
          let o : RootOp :=
            { kind := .install, desc := none, port := some tag, makeCurrent := natBit arg 8, before := 0, addr := 0, bytes := len, todo := [] }
          placeRuns ((begun o 0).modRoot r fun (x : Root) => { x with
              header := env.data.take 256, manifest := env.manifest, segs := List.replicate n {}, streamOnly := natBit arg 9, op := some { o with todo := List.range n } }) r false (List.range n)
            = some u →
          ∃ t, exec (.imageInstall tag arg len env) s = .next t ∧ taken t 0x20 ∧ (t.root r).st = 1
            ∧ (t.root r).op = some { o with todo := List.range n } ∧ (t.root r).manifest = env.manifest ∧ svcOpen t = false)
        ∧ ((s.root r).st = 3 ∨ (s.root r).st = 4 → (s.root r).near = false →
          imgDigest env.data = imgDigest (s.root r).header → repairList s r = [] →
          ∃ t o, exec (.imageRepair tag arg len env) s = .next t ∧ taken t 0x21 ∧ (t.root r).st = 7 ∧ (t.root r).op = some o
            ∧ o.kind = .repair ∧ o.todo = [] ∧ o.port = some tag ∧ (t.root r).segs = (s.root r).segs ∧ svcOpen t = false))

/-- In every state whose memories are in canonical form. POWER_LOSS of a powered device writes one POWER_LOSS record whose first
data byte is the source, stops every core island clock and sets bit 6 of PWR_ERR_STATUS; PWRGOOD_DEASSERT takes power away;
POWER_ON of a device without power starts a device reset of cause 1 with cores, near memory and tables lost. With the device
up and no work of firmware's own or of its movers: a host's switch of a present domain sets only bit 5, a refused one only bit
0, one of an absent domain nothing, nor one that would take out of ON a domain that a loaded kernel of a bound root uses while
a context is ACTIVE; an accepted one stores the state asked for and shows the domain switching until DOMAIN_SWITCH_DONE shows
it in that state; RETAIN of a core's base domain that is ON keeps its scratchpad, partitions and table slots and returns its
Sequencer to STOPPED, and powering it from OFF resets the core. IDLE without a live context or a root operation switches
domains 0 to 60 OFF, and IDLE_WAKE ends it and asks for the domains named; with work in progress IDLE and STANDBY set only bit
0. STANDBY with its key switches every domain but 63 OFF and clears near memory, and STANDBY_EXIT starts a device reset. (That
a switch shows the switching state until DOMAIN_SWITCH_DONE is the model's choice, log entry 80, and so is what becomes of the
reserved target and of a request for a domain in use, log entries 143 and 144.) (17_power_clocks_package.md,
15_reset_and_recovery.md) -/
def Obligations.SupplyDomainsIdleAndStandby : Prop :=
  ∀ (s : State), s.Canonical →
    (s.power.off = false → s.power.lost = false → ∀ src mask, src < 3 →
      ∃ t x, exec (.powerLoss src mask) s = .next t ∧ t.power.lost = true
        ∧ storeGet none t.tally (bits (s.reg Reg.TAL_STATUS) 14 0) = some x
        ∧ leField (leBytes 128 x.toNat) 4 2 = 0x0060 ∧ leField (leBytes 128 x.toNat) 24 1 = src
        ∧ flag (t.reg Reg.PWR_ERR_STATUS) 6 = true ∧ t.cores = s.cores ∧ t.nm = s.nm)
    ∧ (s.power.off = false → ∃ t, exec .pwrgoodDeassert s = .next t ∧ t.power.off = true)
    ∧ (s.power.off = true → ∀ devid hostSel, ∃ t, exec (.powerOn devid hostSel) s = .next t ∧ t.power.off = false
        ∧ deviceInReset t = true ∧ bits (t.reg Reg.SRV_RESET_STATUS) 7 0 = 1 ∧ t.straps = devid % 16 ∧ t.boots = s.boots + 1
        ∧ (∀ n, t.core n = {}) ∧ t.nm = [] ∧ t.ctx = [] ∧ t.res = [])
    ∧ (isDown s = false → Quiet s → s.steps = [] → s.waiters = [] → s.heldReqs = [] →
        (∀ f, f < 4 → moversBusy s f = false) → (∀ p, p < 6 → portState s p = 0) →
      (∀ (k : Nat) (v : Word), let w := bits v 1 0
        (domPresent s k = true → exec (.domainSwitch k v true) s = .next (s.raise Reg.PWR_ERR_STATUS (bitMask 5)))
        ∧ (domPresent s k = false → ∀ host, exec (.domainSwitch k v host) s = .next s)
        ∧ (domPresent s k = true → domLeaves s k v = true → domNeeded s k = true → exec (.domainSwitch k v false) s = .next s)
        ∧ (domPresent s k = true → (domLeaves s k v = true → domNeeded s k = false) → domRefused s k v = true →
            exec (.domainSwitch k v false) s = .next (s.raise Reg.PWR_ERR_STATUS (bitMask 0)))
        ∧ (domPresent s k = true → (domLeaves s k v = true → domNeeded s k = false) → domRefused s k v = false → domState s k ≠ w →
            ∃ t, exec (.domainSwitch k v false) s = .next t ∧ domState t k = 3 ∧ bits (t.reg (domReg k)) 1 0 = w
              ∧ (∀ j, j < 64 → j ≠ k → t.reg (domReg j) = s.reg (domReg j))
              ∧ (k < 48 → k % 3 = 2 → domState s k = 2 → w = 1 → (t.core (k / 3)).spm = (s.core (k / 3)).spm
                  ∧ (t.core (k / 3)).written = (s.core (k / 3)).written ∧ (t.core (k / 3)).seq = .stopped
                  ∧ (t.core (k / 3)).hrw.slots = (s.core (k / 3)).hrw.slots
                  ∧ ∀ j, j < 8 → t.reg (coreReg (k / 3) (Reg.SPMn_PARTk + 4 * j)) = s.reg (coreReg (k / 3) (Reg.SPMn_PARTk + 4 * j)))
              ∧ (k < 48 → k % 3 = 2 → domState s k = 0 → t.core (k / 3) = {}))
        ∧ (domPresent s k = true → domState s k = 3 → bits (s.reg (domReg k)) 1 0 ≠ 3 → ∀ nonCore,
            ∃ t, exec (.domainSwitchDone k nonCore) s = .next t ∧ domState t k = bits (s.reg (domReg k)) 1 0
              ∧ ∀ j, j < 64 → j ≠ k → t.reg (domReg j) = s.reg (domReg j)))
      ∧ (workInProgress s = true → exec .idle s = .next (s.raise Reg.PWR_ERR_STATUS (bitMask 0))
          ∧ exec (.standby 0xA5000002) s = .next (s.raise Reg.PWR_ERR_STATUS (bitMask 0)))
      ∧ (workInProgress s = false → ∃ t, exec .idle s = .next t ∧ bits (t.reg Reg.PWR_STATUS) 1 0 = 1
          ∧ (∀ k, k < 61 → domPresent s k = true → domState t k = 0)
          ∧ (∀ k, 61 ≤ k → k < 64 → t.reg (domReg k) = s.reg (domReg k)))
      ∧ (bits (s.reg Reg.PWR_STATUS) 1 0 = 1 →
          (∃ t, exec (.idleWake []) s = .next t ∧ bits (t.reg Reg.PWR_STATUS) 1 0 = 0 ∧ RegsKept s t [Reg.PWR_STATUS] ∧ OnlyRegs s t)
          ∧ ∀ k, 52 ≤ k → k < 61 → domPresent s k = true → domState s k = 0 →
              ∃ t, exec (.idleWake [k]) s = .next t ∧ bits (t.reg Reg.PWR_STATUS) 1 0 = 0 ∧ domState t k = 3
                ∧ bits (t.reg (domReg k)) 1 0 = 2)
      ∧ (workInProgress s = false → (∀ r, r < 64 → (s.root r).near = false) → ∀ v : Word, bits v 31 24 = 0xA5 → bits v 1 0 = 2 →
          ∃ t, exec (.standby v) s = .next t ∧ t.power.standby = true ∧ t.nm = []
            ∧ (∀ k, k < 63 → domPresent s k = true → domState t k = 0)
            ∧ t.reg (domReg 63) = s.reg (domReg 63)))
    ∧ (s.power.standby = true → s.power.off = false → deviceInReset s = false → s.capture = none → ∀ stuck,
        ∃ t, exec (.standbyExit stuck) s = .next t ∧ flag (t.reg Reg.SRV_RESET_STATUS) 31 = false)

/-- With the device up and its memories in canonical form. A host's CORE_OP_WRITE for a present core sets only bit 5, and one for
an absent core does nothing; the Surveyor's for a present core stores the point asked for, at most the part's highest, at once
when the core's Sequencer is STOPPED and otherwise as pending; CORE_OP_APPLY of a STOPPED core and OP_DEFER_EXPIRY put a
pending point in force. POWER_SETTING_WRITE stores the value, or the nearest limit and bit 0. A POWER_SAMPLE that does not
complete a 10 ms average is only kept; the hundredth puts the average in PWR_STATUS. Each thermal command stores the
temperatures given (a sensor that the part lacks reads 0). At or above THROTTLE_C a THERMAL_THROTTLE_TICK sets bit 1, counts
and marks the device throttled; more than 5 °C below it a THROTTLE_RAISE asks each active core for one point more;
THERMAL_CRIT at 105 °C stops the core clocks and sets bit 2, and THERMAL_CRIT_END below 100 °C starts them; THERMAL_TRIP at
115 °C, or with a stack at 100 °C, asserts THERMTRIP_N and switches every domain but 63 OFF, and THERMAL_TRIP_RECOVERY below
95 °C starts a device reset. A stack at 85 °C pauses programming and sets bit 1; below 80 °C programming resumes.
(17_power_clocks_package.md) -/
def Obligations.OperatingPointsAndTemperature : Prop :=
  ∀ (s : State), s.Canonical → isDown s = false →
    (∀ (n : Nat) (v : Word), (corePresent s n = true → exec (.coreOpWrite n v true) s = .next (s.raise Reg.PWR_ERR_STATUS (bitMask 5)))
      ∧ (corePresent s n = false → ∀ host, exec (.coreOpWrite n v host) s = .next s)
      ∧ (corePresent s n = true → ∃ t, exec (.coreOpWrite n v false) s = .next t
        ∧ bits (t.reg (opReg n)) 2 0 = bits v 2 0
        ∧ ((s.core n).seq = .stopped → opNow t n = min (bits v 2 0) (opMax s.part) ∧ flag (t.reg (opReg n)) 31 = false)
        ∧ ((s.core n).seq ≠ .stopped → bits (s.reg Reg.PWR_OP_DEFER) 23 0 ≠ 0 →
            opNow t n = opNow s n ∧ flag (t.reg (opReg n)) 31 = true)
        ∧ RegsKept s t [opReg n, Reg.PWR_OP_CHANGE_CNT] ∧ OnlyRegs s t))
    ∧ (∀ n, opPending s n = true →
        let applied (t : State) : Prop := opNow t n = min (bits (s.reg (opReg n)) 2 0) (opMax s.part) ∧ opPending t n = false
          ∧ RegsKept s t [opReg n, Reg.PWR_OP_CHANGE_CNT] ∧ OnlyRegs s t
        (∃ t, exec (.opDeferExpiry n) s = .next t ∧ applied t)
        ∧ ((s.core n).seq = .stopped ∨ holdsOnStep s n = true → ∃ t, exec (.coreOpApply n) s = .next t ∧ applied t))
    ∧ (∀ (v : Word) (nonCore : Nat), let r := s.reg Reg.PWR_RANGE
        bits r 15 0 ≤ bits r 31 16 → bits r 31 16 < 4096 →
        ∃ t, exec (.powerSettingWrite v nonCore) s = .next t
          ∧ bits (t.reg Reg.PWR_SETTING) 11 0 = max (bits r 15 0) (min (bits r 31 16) (bits v 11 0))
          ∧ (bits v 11 0 < bits r 15 0 ∨ bits r 31 16 < bits v 11 0 → flag (t.reg Reg.PWR_ERR_STATUS) 0 = true))
    ∧ (∀ x, (s.power.samples.length < 99 → exec (.powerSample x) s
          = .next { s with power := { s.power with samples := x :: s.power.samples } })
        ∧ (s.power.samples.length = 99 → x + s.power.samples.sum < 409600 → ∃ t, exec (.powerSample x) s = .next t
          ∧ t.power.samples = [] ∧ bits (t.reg Reg.PWR_STATUS) 31 20 = (x + s.power.samples.sum) / 100))
    ∧ (∀ temps : List Nat, temps.length = 8 → (∀ x, x ∈ temps → x < 256) →
        (∀ i, i < 8 → sensorPresent s i = false → temps[i]?.getD 0 = 0 ∧ s.reg (Reg.PWR_TEMPs + 4 * i) = 0) →
        let tj := (temps.take 4).foldl max 0
        let stack := (temps.drop 4).foldl max 0
        let limit := max 85 (min 100 (bits (s.reg Reg.PWR_THROTTLE_C) 7 0))
        let read (t : State) : Prop := ∀ i, i < 8 → (t.reg (Reg.PWR_TEMPs + 4 * i)).toNat = temps[i]?.getD 0
        (limit ≤ tj → ∃ t, exec (.thermalThrottleTick temps) s = .next t ∧ read t ∧ flag (t.reg Reg.PWR_ERR_STATUS) 1 = true
          ∧ t.reg Reg.PWR_THROTTLE_CNT = satAdd32 (s.reg Reg.PWR_THROTTLE_CNT) 1 ∧ t.power.throttled = true
          ∧ ∀ n, n < coreCount s.part → domOn s (3 * n + 2) = true → 0 < opNow s n → bits (t.reg (opReg n)) 2 0 = opNow s n - 1)
        ∧ (s.power.throttled = true → tj + 5 < limit → ∃ t, exec (.throttleRaise temps) s = .next t ∧ read t
          ∧ ∀ n, n < coreCount s.part → domOn s (3 * n + 2) = true → opNow s n < opMax s.part →
              bits (t.reg (opReg n)) 2 0 = opNow s n + 1)
        ∧ (105 ≤ tj → ∃ t, exec (.thermalCrit temps) s = .next t ∧ read t ∧ t.power.crit = true
          ∧ flag (t.reg Reg.PWR_ERR_STATUS) 2 = true ∧ t.cores = s.cores)
        ∧ (s.power.crit = true → s.power.fifo = [] → tj < 100 → ∃ t, exec (.thermalCritEnd temps) s = .next t ∧ read t
          ∧ t.power.crit = false ∧ t.cores = s.cores)
        ∧ (115 ≤ tj ∨ 100 ≤ stack → (∀ p, p < 6 → portState s p = 0) → ∃ t, exec (.thermalTrip temps) s = .next t
          ∧ t.power.tripped = true ∧ t.out = .thermTrip :: s.out
          ∧ (∀ k, k < 63 → domPresent s k = true → domState t k = 0) ∧ t.reg (domReg 63) = s.reg (domReg 63)))
    ∧ (∀ f temp, f < 4 → fieldPresent s f = true → hasWeightStore s.part = true →
        (85 ≤ temp → ∃ t, exec (.stackProgrammingPause f temp) s = .next t ∧ (t.field f).wsPaused = true
          ∧ flag (t.reg Reg.PWR_ERR_STATUS) 1 = true ∧ t.nm = s.nm)
        ∧ (temp < 80 → ∃ t, exec (.stackProgrammingResume f temp) s = .next t ∧ (t.field f).wsPaused = false ∧ t.nm = s.nm))
    ∧ ∀ (u : State) (temps : List Nat) (stuck : List (Nat × Nat)), u.Canonical → u.power.tripped = true → u.power.off = false →
        temps.length = 8 → (∀ x, x ∈ temps → x < 95) →
        (∀ i, i < 8 → sensorPresent u i = false → u.reg (Reg.PWR_TEMPs + 4 * i) = 0) →
        ∃ t, exec (.thermalTripRecovery temps stuck) u = .next t ∧ t.power.tripped = false
          ∧ flag (t.reg Reg.SRV_RESET_STATUS) 31 = false

/-- A whole or a narrow read at an offset of an absent Field, core, port or unit answers 0 and changes nothing but the answer, and
a whole write there changes nothing at all, so neither raises an error; a core, a Field, a port the part has not, the Thresher
and the weight store of a part without them are absent so. With the device up and its memories in canonical form, a whole
aligned read of a counter that a read clears answers its value and clears it alone; a narrow read changes nothing but the
answer, and of a timestamp register the counter; a whole write of an attestation nonce word stores it; a write of ones to
PWR_ERR_STATUS clears those flags; a 64-bit write reaches two registers; a narrow or misaligned write reaches none and is
counted. (R4) -/
def Obligations.AbsentRegistersReadZeroAndWritesReach : Prop :=
  ∀ (s : State),
    (∀ o, regAbsent s o = true →
      (o % 4 = 0 → exec (.rcRegisterRead o 4) s = .next { s with resp := 0, respHi := 0 }
        ∧ ∀ v host, exec (.registerWrite o 4 v host) s = .next s)
      ∧ ∀ b, o % 4 = 0 → b < 4 → exec (.rcRegisterRead o b) s = .next { s with resp := 0, respHi := 0 })
    ∧ (∀ o x n, regionOf o = (.core n, x) → corePresent s n = false → regAbsent s o = true)
    ∧ (∀ o x f, regionOf o = (.field f, x) → fieldPresent s f = false → regAbsent s o = true)
    ∧ (∀ p i, p < 6 → portCount s.part ≤ p → i < 64 → regAbsent s (Reg.FAB_Pp_CTRL + 256 * p + 4 * i) = true)
    ∧ (∀ o x n, regionOf o = (.core n, x) → hasThresher s.part = false → Reg.THRn_CAP ≤ x → x < Reg.HRWn_CAP → regAbsent s o = true)
    ∧ (∀ o x f, regionOf o = (.field f, x) → hasWeightStore s.part = false → Reg.WSn_CAP ≤ x → x ≤ Reg.WSn_PROG_CNT →
        regAbsent s o = true)
    ∧ (s.Canonical → isDown s = false →
      (∀ o r, regRow o = some r → r.rc = true → o % 4 = 0 → regAbsent s o = false → regOff s o = false →
        exec (.rcRegisterRead o 4) s = .next { s.setReg o 0 with resp := regView s o, respHi := 0 })
      ∧ (∀ o b, b < 4 → ∃ t, exec (.rcRegisterRead o b) s = .next t
          ∧ t = { s with resp := t.resp, respHi := 0, clocks := t.clocks, freeCtr := t.freeCtr }
          ∧ (o + 4 < Reg.HST_TSs_LO ∨ Reg.HST_TSs_LO + 40 ≤ o → t.clocks = s.clocks ∧ t.freeCtr = s.freeCtr))
      ∧ (∀ w v host, w < 8 → ∃ t, exec (.registerWrite (Reg.SRV_ATTEST_NONCEw + 4 * w) 4 v host) s = .next t
          ∧ t.reg (Reg.SRV_ATTEST_NONCEw + 4 * w) = BitVec.ofNat 32 v.toNat
          ∧ RegsKept s t [Reg.SRV_ATTEST_NONCEw + 4 * w] ∧ OnlyRegs s t)
      ∧ (∀ w v host, w < 4 → ∃ t, exec (.registerWrite (Reg.SRV_ATTEST_NONCEw + 8 * w) 8 v host) s = .next t
          ∧ t.reg (Reg.SRV_ATTEST_NONCEw + 8 * w) = BitVec.ofNat 32 v.toNat
          ∧ t.reg (Reg.SRV_ATTEST_NONCEw + 8 * w + 4) = BitVec.ofNat 32 (v.toNat / 2 ^ 32)
          ∧ RegsKept s t [Reg.SRV_ATTEST_NONCEw + 8 * w, Reg.SRV_ATTEST_NONCEw + 8 * w + 4] ∧ OnlyRegs s t)
      ∧ (∀ v host, ∃ t, exec (.registerWrite Reg.PWR_ERR_STATUS 4 v host) s = .next t
          ∧ t.reg Reg.PWR_ERR_STATUS = s.reg Reg.PWR_ERR_STATUS &&& ~~~(BitVec.ofNat 32 (v.toNat % 128))
          ∧ RegsKept s t [Reg.PWR_ERR_STATUS] ∧ OnlyRegs s t)
      ∧ ∀ o b v host, (b < 4 ∨ (b = 4 ∧ o % 4 ≠ 0) ∨ (b = 8 ∧ o % 8 ≠ 0)) → ∃ t, exec (.registerWrite o b v host) s = .next t
          ∧ t.reg Reg.HST_NARROW_WR_CNT = satAdd32 (s.reg Reg.HST_NARROW_WR_CNT) 1
          ∧ RegsKept s t [Reg.HST_NARROW_WR_CNT, Reg.HST_ERR_STATUS] ∧ OnlyRegs s t)
end

