-- ==== Sys2Proof/Laws/Guards.lean ====
section
/-! SUPPORT. What each guard answers: a command that reaches its block has its effect; one that reaches nothing leaves the state as
it is; a register command at a domain that is not ON is refused and counted. Where nothing of firmware's own waits, firmware does
nothing after a command. -/

namespace Sys2Proof.Machine

variable {s : State} {n : Nat} {f : State → State}

theorem up_runs (h : isDown s = false) : up s f = .next (f s) := by simp [up, h]
theorem up_ignored (h : isDown s = true) : up s f = .next s := by simp [up, h]

theorem upFw_runs (h : isDown s = false) : upFw s f = .next (settle s (f s)) := by simp [upFw, h]
theorem upFw_ignored (h : isDown s = true) : upFw s f = .next s := by simp [upFw, h]

theorem atCore_runs (up : isDown s = false) (here : corePresent s n = true) (on : domOn s (3 * n + 2) = true) :
    atCore s n f = .next (f s) := by simp [atCore, up, here, on]
theorem atCore_off (up : isDown s = false) (here : corePresent s n = true) (off : domOn s (3 * n + 2) = false) :
    atCore s n f = .next (offAccess s) := by simp [atCore, up, here, off]
theorem atCore_ignored (h : isDown s = true ∨ corePresent s n = false) : atCore s n f = .next s := by
  rcases h with h | h <;> simp [atCore, h]

theorem onCore_runs (h : coreClocked s n = true) : onCore s n f = .next (f s) := by simp [onCore, h]
theorem onCore_ignored (h : coreClocked s n = false) : onCore s n f = .next s := by simp [onCore, h]

theorem atField_runs (up : isDown s = false) (here : fieldPresent s n = true) (on : domOn s (48 + n) = true) :
    atField s n f = .next (f s) := by simp [atField, up, here, on]
theorem atField_off (up : isDown s = false) (here : fieldPresent s n = true) (off : domOn s (48 + n) = false) :
    atField s n f = .next (offAccess s) := by simp [atField, up, here, off]
theorem atField_ignored (h : isDown s = true ∨ fieldPresent s n = false) : atField s n f = .next s := by
  rcases h with h | h <;> simp [atField, h]

theorem onField_runs (h : fieldReachable s n = true) (on : domOn s (48 + n) = true) :
    onField s n f = .next (settle s (f s)) := by simp [onField, h, on]
theorem onField_ignored (h : (fieldReachable s n && domOn s (48 + n)) = false) : onField s n f = .next s := by simp only [onField, h]; rfl

theorem atPort_runs (up : isDown s = false) (h : portOn s n = true) : atPort s n f = .next (settle s (f s)) := by simp [atPort, up, h]
theorem atPort_ignored (h : isDown s = true ∨ portOn s n = false) : atPort s n f = .next s := by
  rcases h with h | h <;> simp [atPort, h]

theorem trainPort_runs (h : powered s = true) (on : portOn s n = true) : trainPort s n f = .next (settle s (f s)) := by
  simp [trainPort, h, on]

theorem replied_runs (h : isDown s = false) : replied s f = .next (settle s (f s)) := by
  simp only [isDown, Bool.or_eq_false_iff] at h
  simp [replied, h.1.1.2, h.1.2, h.2]

/-- A core whose clock runs is present, up and its base domain ON. -/
theorem coreClocked_iff : coreClocked s n = true ↔
    coreReachable s n = true ∧ domOn s (3 * n + 2) = true ∧ s.power.crit = false ∧ s.power.lost = false := by
  simp [coreClocked, and_assoc]

theorem coreReachable_iff : coreReachable s n = true ↔ isDown s = false ∧ corePresent s n = true ∧ fieldInReset s (n / 4) = false := by
  simp [coreReachable, and_assoc]

theorem fieldReachable_iff : fieldReachable s n = true ↔ isDown s = false ∧ fieldPresent s n = true ∧ fieldInReset s n = false := by
  simp [fieldReachable, and_assoc]

/-! ### Firmware at rest -/

theorem headRun_quiet (h : s.headWrites = []) : headRun s = s := by
  simp [headRun, headPump, headFlush, h]
  rw [← h]

/-- A fold whose steps change nothing changes nothing. -/
theorem foldl_same {α σ : Type} {g : σ → α → σ} {x : σ} : ∀ l : List α, (∀ a ∈ l, g x a = x) → l.foldl g x = x
  | [], _ => rfl
  | a :: l, h => by rw [List.foldl_cons, h a (.head _)]; exact foldl_same l fun b hb => h b (.tail _ hb)

theorem copyErrors_quiet (h : Quiet s) : copyErrors s = s := by
  refine foldl_same _ fun f _ => ?_
  dsimp only
  split
  · rfl
  · rw [List.flatMap_eq_nil_iff.mpr, List.foldl_nil]
    intro r hr
    refine List.filterMap_eq_nil_iff.mpr fun p hp => ?_
    have hq := h.copies r (List.mem_range.mp hr) p.1 (List.fst_mem_of_mem_zipIdx hp)
    cases p.1.staged <;> simp [hq]

theorem fwRun_quiet (h : Quiet s) : fwRun s = s := by
  have a : { s with fwDone := [], chanWaits := [], xferWaits := [] } = s := by rw [← h.fwDone, ← h.chanWaits, ← h.xferWaits]
  unfold fwRun
  simpa only [headRun_quiet h.headWrites, copyErrors_quiet h, h.fwDone, List.foldl_nil, h.chanWaits, h.xferWaits] using a

theorem ringsRun_quiet (h : Quiet s) : ringsRun s = s := by
  unfold ringsRun
  rw [List.filter_eq_nil_iff.mpr fun d hd => by simp [h.descs d hd]]
  rfl

/-- No port has gone DOWN: nothing to report. -/
theorem linkNotices_same {old : State} (h : ∀ p, portState s p = portState old p) : linkNotices old s = s :=
  foldl_same _ fun p _ => by simp [h p]

/-- Where nothing of firmware's own waits and every port keeps its state, firmware does nothing after a command. -/
theorem settle_quiet {old : State} (h : Quiet s) (hp : ∀ p, portState s p = portState old p) : settle old s = s := by
  simp [settle, linkNotices_same hp, fwRun_quiet h, ringsRun_quiet h]

end Sys2Proof.Machine
end

