-- ==== Sys2Proof/Laws/Store.lean ====
section
/-! SUPPORT. Sparse memories: read after write, and that every operation keeps the canonical form. -/

namespace Sys2Proof.Machine

variable {α : Type}

@[simp] theorem storeGet_nil (d : α) (k : Nat) : storeGet d [] k = d := rfl

theorem storeGet_cons (d : α) (k' : Nat) (v : α) (t : Store α) (k : Nat) :
    storeGet d ((k', v) :: t) k = if k' = k then v else storeGet d t k := rfl

/-- In a store whose keys all lie above `b`, a key not above `b` reads as unlisted. -/
theorem storeGet_below [DecidableEq α] {dflt : Nat → α} {m : Store α} {b k : Nat} (d : α)
    (h : storeWfFrom dflt (some b) m = true) (hk : k ≤ b) : storeGet d m k = d := by
  induction m generalizing b with
  | nil => rfl
  | cons e t ih =>
    obtain ⟨k', v⟩ := e
    simp only [storeWfFrom, Bool.and_eq_true, decide_eq_true_eq] at h
    rw [storeGet_cons, if_neg (by omega)]
    exact ih h.2 (by omega)

/-- A bound may be lowered. -/
theorem storeWfFrom_lower [DecidableEq α] {dflt : Nat → α} {m : Store α} {b : Option Nat} {k : Nat}
    (h : storeWfFrom dflt (some k) m = true) (hb : ∀ x, b = some x → x < k) : storeWfFrom dflt b m = true := by
  cases m with
  | nil => rfl
  | cons e t =>
    obtain ⟨k', v⟩ := e
    simp only [storeWfFrom, Bool.and_eq_true, decide_eq_true_eq] at h ⊢
    refine ⟨⟨?_, h.1.2⟩, h.2⟩
    cases b with
    | none => rfl
    | some x => exact decide_eq_true (Nat.lt_trans (hb x rfl) h.1.1)

/-- The bound of a canonical tail, as the definition writes it. -/
theorem aboveBound (b : Option Nat) (q : Nat) :
    (∀ x, b = some x → x < q) → (match b with | none => true | some b => decide (b < q)) = true := by
  intro hq
  cases b with
  | none => rfl
  | some x => exact decide_eq_true (hq x rfl)

/-- A write keeps the canonical form, above any bound that lies below its key. -/
theorem storeSet_wfFrom [DecidableEq α] {dflt : Nat → α} {m : Store α} {b : Option Nat} {k : Nat} {d v : α}
    (h : storeWfFrom dflt b m = true) (hb : ∀ x, b = some x → x < k) (hd : d = dflt k) :
    storeWfFrom dflt b (storeSet d m k v) = true := by
  subst hd
  induction m generalizing b with
  | nil =>
    unfold storeSet
    split
    · rfl
    · next hv =>
      simp only [storeWfFrom, Bool.and_eq_true, decide_eq_true_eq]
      exact ⟨⟨aboveBound b _ hb, hv⟩, trivial⟩
  | cons e t ih =>
    obtain ⟨k', v'⟩ := e
    simp only [storeWfFrom, Bool.and_eq_true, decide_eq_true_eq] at h
    unfold storeSet
    split
    · next hlt =>
      split
      · simp only [storeWfFrom, Bool.and_eq_true, decide_eq_true_eq]; exact h
      · next hv =>
        simp only [storeWfFrom, Bool.and_eq_true, decide_eq_true_eq]
        exact ⟨⟨aboveBound b _ hb, hv⟩, ⟨hlt, h.1.2⟩, h.2⟩
    · split
      · next heq =>
        subst heq
        split
        · exact storeWfFrom_lower h.2 hb
        · next hv =>
          simp only [storeWfFrom, Bool.and_eq_true, decide_eq_true_eq]
          exact ⟨⟨aboveBound b _ hb, hv⟩, h.2⟩
      · next hge hne =>
        simp only [storeWfFrom, Bool.and_eq_true, decide_eq_true_eq]
        exact ⟨h.1, ih h.2 fun x hx => by cases hx; omega⟩

/-- A write keeps the canonical form. -/
theorem storeSet_wf [DecidableEq α] {dflt : Nat → α} {m : Store α} {k : Nat} {d v : α} (hd : d = dflt k)
    (h : storeWf dflt m = true) : storeWf dflt (storeSet d m k v) = true :=
  storeSet_wfFrom h (fun _ hx => nomatch hx) hd

/-- Read after write, same key: the value written. -/
theorem storeGet_set_from [DecidableEq α] {dflt : Nat → α} {m : Store α} {b : Option Nat} {k : Nat} {v : α} (d : α)
    (h : storeWfFrom dflt b m = true) : storeGet d (storeSet d m k v) k = v := by
  induction m generalizing b with
  | nil =>
    unfold storeSet
    split
    · next hv => exact hv.symm
    · simp [storeGet_cons]
  | cons e t ih =>
    obtain ⟨k', v'⟩ := e
    simp only [storeWfFrom, Bool.and_eq_true, decide_eq_true_eq] at h
    unfold storeSet
    split
    · next hlt =>
      split
      · next hv =>
        rw [storeGet_cons, if_neg (by omega), storeGet_below d h.2 (by omega)]
        exact hv.symm
      · simp [storeGet_cons]
    · split
      · next heq =>
        subst heq
        split
        · next hv =>
          rw [storeGet_below d h.2 (by omega)]
          exact hv.symm
        · simp [storeGet_cons]
      · next hge hne =>
        rw [storeGet_cons, if_neg (fun e => hne e.symm)]
        exact ih h.2

theorem storeGet_set_same [DecidableEq α] {dflt : Nat → α} {m : Store α} {k : Nat} {v : α} (d : α)
    (h : storeWf dflt m = true) : storeGet d (storeSet d m k v) k = v := storeGet_set_from d h

/-- Read after write, another key: what it read before. -/
theorem storeGet_set_ne [DecidableEq α] (d : α) (m : Store α) {k j : Nat} (v : α) (hne : j ≠ k) :
    storeGet d (storeSet d m k v) j = storeGet d m j := by
  induction m with
  | nil =>
    unfold storeSet
    split
    · rfl
    · simp [storeGet_cons, Ne.symm hne]
  | cons e t ih =>
    obtain ⟨k', v'⟩ := e
    unfold storeSet
    split
    · split
      · rfl
      · simp [storeGet_cons, Ne.symm hne]
    · split
      · next heq =>
        subst heq
        split <;> simp [storeGet_cons, Ne.symm hne]
      · simp [storeGet_cons, ih]

/-- A write to another key, where the two keys read as different values when unlisted. -/
theorem storeGet_set_other [DecidableEq α] (d d' : α) (m : Store α) {k j : Nat} (v : α) (hne : j ≠ k) :
    storeGet d' (storeSet d m k v) j = storeGet d' m j := by
  induction m with
  | nil =>
    unfold storeSet
    split
    · rfl
    · simp [storeGet_cons, Ne.symm hne]
  | cons e t ih =>
    obtain ⟨k', v'⟩ := e
    unfold storeSet
    split
    · split
      · rfl
      · simp [storeGet_cons, Ne.symm hne]
    · split
      · next heq =>
        subst heq
        split <;> simp [storeGet_cons, Ne.symm hne]
      · simp [storeGet_cons, ih]

/-- Dropping entries keeps the canonical form. -/
theorem storeErase_wfFrom [DecidableEq α] {dflt : Nat → α} {m : Store α} {b : Option Nat} (p : Nat → Bool)
    (h : storeWfFrom dflt b m = true) : storeWfFrom dflt b (storeErase p m) = true := by
  induction m generalizing b with
  | nil => rfl
  | cons e t ih =>
    obtain ⟨k', v⟩ := e
    simp only [storeWfFrom, Bool.and_eq_true, decide_eq_true_eq] at h
    unfold storeErase
    rw [List.filter_cons]
    split
    · simp only [storeWfFrom, Bool.and_eq_true, decide_eq_true_eq]
      exact ⟨h.1, ih h.2⟩
    · refine storeWfFrom_lower (ih h.2) fun x hx => ?_
      subst hx
      exact of_decide_eq_true h.1.1

theorem storeErase_wf [DecidableEq α] {dflt : Nat → α} {m : Store α} (p : Nat → Bool) (h : storeWf dflt m = true) :
    storeWf dflt (storeErase p m) = true := storeErase_wfFrom p h

/-- Reading a key after a drop. -/
theorem storeGet_erase (d : α) (m : Store α) (p : Nat → Bool) (k : Nat) :
    storeGet d (storeErase p m) k = if p k then d else storeGet d m k := by
  induction m with
  | nil => simp [storeErase]
  | cons e t ih =>
    obtain ⟨k', v⟩ := e
    unfold storeErase at ih ⊢
    rw [List.filter_cons]
    by_cases hk : k' = k
    · subst hk
      cases hp : p k' <;> simp [hp, storeGet_cons, ih]
    · cases p k' <;> simp [storeGet_cons, hk, ih]

/-- Replacing each value by one that no unlisted key reads as keeps the canonical form. -/
theorem storeMap_wfFrom [DecidableEq α] {dflt : Nat → α} {m : Store α} {b : Option Nat} (g : Nat × α → Nat × α)
    (hk : ∀ e, (g e).1 = e.1) (hv : ∀ e, (g e).2 ≠ dflt e.1) (h : storeWfFrom dflt b m = true) :
    storeWfFrom dflt b (m.map g) = true := by
  induction m generalizing b with
  | nil => rfl
  | cons e t ih =>
    have h1 := hk e
    have h2 := hv e
    obtain ⟨k', v⟩ := e
    simp only [storeWfFrom, Bool.and_eq_true, decide_eq_true_eq] at h
    rw [List.map_cons]
    revert h1 h2
    cases g (k', v) with
    | mk a c =>
      intro h1 h2
      subst h1
      simp only [storeWfFrom, Bool.and_eq_true, decide_eq_true_eq]
      exact ⟨⟨h.1.1, h2⟩, ih h.2⟩

end Sys2Proof.Machine
end

