-- ==== Sys2Proof/Laws/Keeps.lean ====
section
/-! SUPPORT. `Keeps` as a relation that chains: reflexive, transitive, kept by folds, by every update of a field that no sparse memory
lies in, and by the operations that write a sparse memory. -/

namespace Sys2Proof.Machine

theorem Keeps.refl (s : State) : Keeps s s := ⟨rfl, rfl, fun h => h⟩

theorem Keeps.trans {s t u : State} (h : Keeps s t) (k : Keeps t u) : Keeps s u :=
  ⟨k.part.trans h.part, k.pending.trans h.pending, fun c => k.canonical (h.canonical c)⟩

variable {s₀ t : State}

/-- An update that leaves every sparse memory as it is. -/
theorem Keeps.same {u : State} (h : Keeps s₀ t) (part : u.part = t.part) (pending : u.pending = t.pending) (regs : u.regs = t.regs)
    (nm : u.nm = t.nm) (ctx : u.ctx = t.ctx) (res : u.res = t.res) (cores : u.cores = t.cores) (fields : u.fields = t.fields)
    (tally : u.tally = t.tally) (talSupp : u.talSupp = t.talSupp) (rings : u.rings = t.rings) (ctxFw : u.ctxFw = t.ctxFw)
    (resDest : u.resDest = t.resDest) : Keeps s₀ u where
  part := part.trans h.part
  pending := pending.trans h.pending
  canonical := fun c =>
    let d := h.canonical c
    { regs := by rw [regs, part]; exact d.regs
      nm := by rw [nm]; exact d.nm
      ctx := by rw [ctx]; exact d.ctx
      res := by rw [res]; exact d.res
      cores := by intro n; unfold State.core; rw [cores]; exact d.cores n
      fields := by intro n; unfold State.field; rw [fields]; exact d.fields n
      tally := by rw [tally]; exact d.tally
      talSupp := by rw [talSupp]; exact d.talSupp
      rings := by rw [rings]; exact d.rings
      ctxFw := by rw [ctxFw]; exact d.ctxFw
      resDest := by rw [resDest]; exact d.resDest }

/-- An update of fields that no sparse memory lies in. -/
theorem Keeps.update (h : Keeps s₀ t)
    (nmWb : List Nat) (chans : Vector (Vector Chan 16) 4) (skqs : Vector (List SkqEntry) 16) (txns : List Txn) (txnSeq : Nat)
    (waiters : List (Nat × XferOwner)) (omapMarks : List Nat) (bkrs : Vector Bkr 4) (notify : Vector (List Nat) 4)
    (arrivals : List (Nat × Arrival)) (straps : Nat) (hostSel : Nat) (ports : Vector Port 6) (heldReqs : List HeldReq)
    (out : List OutMsg) (talSeen : List Nat) (boots : Nat) (windfall : Vector (List Byte) 2) (roots : Vector Root 64)
    (given : List (Nat × Nat)) (eqs : Vector EqState 64) (errLost : Nat) (errHeld : List EvRec) (descs : List Descr)
    (descSeq : Nat) (corr : Option Corr) (mirrored : List (Nat × Nat)) (takeoverRings : List Nat) (hostObjs : List Nat)
    (xferWaits : List XferWait) (chanWaits : List ChanWait) (fwDone : List (Purpose × Nat × Nat)) (steps : List StepRun)
    (stepSeq : Nat) (capture : Option Capture) (captureWaits : List (Nat × Nat)) (wfPage : List Byte) (wfSeq : Nat)
    (banks : Vector Bank 2) (bankPtr : Nat) (runSrv : Option (List Byte)) (runFrs : Option (List Byte)) (toRecovery : Bool)
    (bootFail : Option Nat) (repairMap : List Word) (repairOn : List Word) (power : PowerState) (resp : Word) (respHi : Word)
    (ctxQuar : List Nat) (resQuar : List Nat) (freeCtr : Nat)
    (catalog : Vector CatCopy 2) (moves : List Move) (headWrites : List HeadWrite) (clocks : Vector Clock 5) :
    Keeps s₀ { t with
      nmWb, chans, skqs, txns, txnSeq, waiters, omapMarks, bkrs, notify, arrivals, straps, hostSel, ports, heldReqs,
      out, talSeen, boots, windfall, roots, given, eqs, errLost, errHeld, descs, descSeq, corr, mirrored, takeoverRings,
      hostObjs, xferWaits, chanWaits, fwDone, steps, stepSeq, capture, captureWaits, wfPage, wfSeq, banks, bankPtr,
      runSrv, runFrs, toRecovery, bootFail, repairMap, repairOn, power, resp, respHi, ctxQuar, resQuar, freeCtr,
      catalog, moves, headWrites, clocks } :=
  h.same rfl rfl rfl rfl rfl rfl rfl rfl rfl rfl rfl rfl rfl

theorem Keeps.ite {c : Prop} [Decidable c] {u : State} (h : Keeps s₀ t) (k : Keeps s₀ u) : Keeps s₀ (if c then t else u) := by
  split
  · exact h
  · exact k

theorem Keeps.foldl {α : Type} {g : State → α → State} {l : List α} (hg : ∀ t x, Keeps s₀ t → Keeps s₀ (g t x)) (h : Keeps s₀ t) :
    Keeps s₀ (l.foldl g t) := by
  induction l generalizing t with
  | nil => exact h
  | cons x l ih => exact ih (hg t x h)

/-- A fold over a pair whose second part is the state. -/
theorem Keeps.foldlSnd {α β : Type} {g : β × State → α → β × State} {l : List α} {p : β × State}
    (hg : ∀ p x, Keeps s₀ p.2 → Keeps s₀ (g p x).2) (h : Keeps s₀ p.2) : Keeps s₀ (l.foldl g p).2 := by
  induction l generalizing p with
  | nil => exact h
  | cons x l ih => exact ih (hg p x h)

/-- A fold over a triple whose last part is the state. -/
theorem Keeps.foldlThd {α β γ : Type} {g : β × γ × State → α → β × γ × State} {l : List α} {p : β × γ × State}
    (hg : ∀ p x, Keeps s₀ p.2.2 → Keeps s₀ (g p x).2.2) (h : Keeps s₀ p.2.2) : Keeps s₀ (l.foldl g p).2.2 := by
  induction l generalizing p with
  | nil => exact h
  | cons x l ih => exact ih (hg p x h)

/-- A fold over a pair whose first part is the state. -/
theorem Keeps.foldlFst {α β : Type} {g : State × β → α → State × β} {l : List α} {p : State × β}
    (hg : ∀ p x, Keeps s₀ p.1 → Keeps s₀ (g p x).1) (h : Keeps s₀ p.1) : Keeps s₀ (l.foldl g p).1 := by
  induction l generalizing p with
  | nil => exact h
  | cons x l ih => exact ih (hg p x h)

/-- A fold over scratchpad reads. -/
theorem Keeps.foldlRd {α : Type} {g : SpmRd → α → SpmRd} {l : List α} {p : SpmRd}
    (hg : ∀ p x, Keeps s₀ p.st → Keeps s₀ (g p x).st) (h : Keeps s₀ p.st) : Keeps s₀ (l.foldl g p).st := by
  induction l generalizing p with
  | nil => exact h
  | cons x l ih => exact ih (hg p x h)

/-! ### Registers -/

theorem State.setReg_keeps (h : Keeps s₀ t) (o : Nat) (v : Word) : Keeps s₀ (t.setReg o v) :=
  ⟨h.part, h.pending, fun c => { h.canonical c with regs := storeSet_wf rfl (h.canonical c).regs }⟩

theorem State.eraseRegs_keeps (h : Keeps s₀ t) (p : Nat → Bool) : Keeps s₀ { t with regs := storeErase p t.regs } :=
  ⟨h.part, h.pending, fun c => { h.canonical c with regs := storeErase_wf p (h.canonical c).regs }⟩

/-! ### Cores and Fields -/

theorem State.core_setCore (s : State) (n m : Nat) (c : CoreState) :
    (s.setCore n c).core m = if m = n ∧ n < 16 then c else s.core m := by
  simp only [State.core, State.setCore, Vector.getElem?_setIfInBounds]
  by_cases h : n = m
  · subst h
    by_cases hn : n < 16
    · simp [hn]
    · simp [hn]
  · simp [h, Ne.symm h]

theorem State.setCore_keeps (h : Keeps s₀ t) (n : Nat) {c : CoreState} (hc : t.Canonical → c.Canonical) : Keeps s₀ (t.setCore n c) :=
  ⟨h.part, h.pending, fun k =>
    let d := h.canonical k
    { d with
      cores := fun m => by
        rw [State.core_setCore]
        split
        · exact hc d
        · exact d.cores m }⟩

/-- A core whose memories are those that some core had. -/
theorem State.setCore_same (h : Keeps s₀ t) (n m : Nat) {c : CoreState} (spm : c.spm = (t.core m).spm)
    (written : c.written = (t.core m).written) (sht : c.sht = (t.core m).sht) : Keeps s₀ (t.setCore n c) :=
  State.setCore_keeps h n fun d =>
    ⟨by rw [spm]; exact (d.cores m).spm, by rw [written]; exact (d.cores m).written, by rw [sht]; exact (d.cores m).sht⟩

theorem State.modCore_keeps (h : Keeps s₀ t) (n : Nat) {f : CoreState → CoreState} (hf : ∀ c, c.Canonical → (f c).Canonical) :
    Keeps s₀ (t.modCore n f) := State.setCore_keeps h n fun d => hf _ (d.cores n)

theorem State.modCore_same (h : Keeps s₀ t) (n : Nat) {f : CoreState → CoreState} (spm : ∀ c, (f c).spm = c.spm)
    (written : ∀ c, (f c).written = c.written) (sht : ∀ c, (f c).sht = c.sht) : Keeps s₀ (t.modCore n f) :=
  State.setCore_same h n n (spm _) (written _) (sht _)

theorem State.field_setField (s : State) (n m : Nat) (x : FieldState) :
    (s.setField n x).field m = if m = n ∧ n < 4 then x else s.field m := by
  simp only [State.field, State.setField, Vector.getElem?_setIfInBounds]
  by_cases h : n = m
  · subst h
    by_cases hn : n < 4
    · simp [hn]
    · simp [hn]
  · simp [h, Ne.symm h]

theorem State.setField_keeps (h : Keeps s₀ t) (n : Nat) {x : FieldState} (hx : t.Canonical → x.Canonical) :
    Keeps s₀ (t.setField n x) :=
  ⟨h.part, h.pending, fun k =>
    let d := h.canonical k
    { d with
      fields := fun m => by
        rw [State.field_setField]
        split
        · exact hx d
        · exact d.fields m }⟩

theorem State.modField_keeps (h : Keeps s₀ t) (n : Nat) {f : FieldState → FieldState} (hf : ∀ c, c.Canonical → (f c).Canonical) :
    Keeps s₀ (t.modField n f) := State.setField_keeps h n fun d => hf _ (d.fields n)

theorem State.modField_same (h : Keeps s₀ t) (n : Nat) {f : FieldState → FieldState} (pages : ∀ c, (f c).pages = c.pages)
    (wear : ∀ c, (f c).wear = c.wear) : Keeps s₀ (t.modField n f) :=
  State.modField_keeps h n fun c d => ⟨by rw [pages]; exact d.pages, by rw [wear]; exact d.wear⟩

theorem State.setField_same (h : Keeps s₀ t) (n m : Nat) {x : FieldState} (pages : x.pages = (t.field m).pages)
    (wear : x.wear = (t.field m).wear) : Keeps s₀ (t.setField n x) :=
  State.setField_keeps h n fun d => ⟨by rw [pages]; exact (d.fields m).pages, by rw [wear]; exact (d.fields m).wear⟩

/-! ### The other sparse memories -/

theorem State.setGran_keeps (h : Keeps s₀ t) (a : Nat) (g : NmGran) : Keeps s₀ (t.setGran a g) :=
  ⟨h.part, h.pending, fun c => { h.canonical c with nm := storeSet_wf rfl (h.canonical c).nm }⟩

theorem State.clearNm_keeps (h : Keeps s₀ t) : Keeps s₀ { t with nm := [] } :=
  ⟨h.part, h.pending, fun c => { h.canonical c with nm := rfl }⟩

theorem setTabWord_keeps (h : Keeps s₀ t) (i : TabId) (e w : Nat) (x : TabWord) : Keeps s₀ (setTabWord t i e w x) := by
  cases i with
  | ctx => exact ⟨h.part, h.pending, fun c => { h.canonical c with ctx := storeSet_wf rfl (h.canonical c).ctx }⟩
  | res => exact ⟨h.part, h.pending, fun c => { h.canonical c with res := storeSet_wf rfl (h.canonical c).res }⟩

theorem State.setFw_keeps (h : Keeps s₀ t) (e : Nat) (x : CtxFw) : Keeps s₀ (t.setFw e x) :=
  ⟨h.part, h.pending, fun c => { h.canonical c with ctxFw := storeSet_wf rfl (h.canonical c).ctxFw }⟩

theorem State.setRingSt_keeps (h : Keeps s₀ t) (r : Nat) (x : RingState) : Keeps s₀ (t.setRingSt r x) :=
  ⟨h.part, h.pending, fun c => { h.canonical c with rings := storeSet_wf rfl (h.canonical c).rings }⟩

theorem State.tallyPut_keeps (h : Keeps s₀ t) (k p n : Nat) (v : Option (BitVec 1024)) (l : List Nat) :
    Keeps s₀ { t with tally := storeSet none t.tally k v, talSupp := storeSet 0 t.talSupp p n, talSeen := l } :=
  ⟨h.part, h.pending, fun c =>
    { h.canonical c with tally := storeSet_wf rfl (h.canonical c).tally, talSupp := storeSet_wf rfl (h.canonical c).talSupp }⟩

theorem State.clearTally_keeps (h : Keeps s₀ t) : Keeps s₀ { t with tally := [] } :=
  ⟨h.part, h.pending, fun c => { h.canonical c with tally := rfl }⟩

theorem State.setTalSupp_keeps (h : Keeps s₀ t) (k v : Nat) : Keeps s₀ { t with talSupp := storeSet 0 t.talSupp k v } :=
  ⟨h.part, h.pending, fun c => { h.canonical c with talSupp := storeSet_wf rfl (h.canonical c).talSupp }⟩

theorem State.setResDest_keeps (h : Keeps s₀ t) (k v : Nat) : Keeps s₀ { t with resDest := storeSet 0 t.resDest k v } :=
  ⟨h.part, h.pending, fun c => { h.canonical c with resDest := storeSet_wf rfl (h.canonical c).resDest }⟩

end Sys2Proof.Machine
end

