-- ==== Sys2Proof/Laws/KeepsOps.lean ====
section
/-! SUPPORT. What Machine/Ops.lean does keeps the part, the queue and the canonical form of every sparse memory. -/

namespace Sys2Proof.Machine

theorem State.bump_keeps {s₀ t : State} (h : Keeps s₀ t) (a1 a2) : Keeps s₀ (State.bump t a1 a2) := by
  unfold State.bump
  repeat' first
    | with_reducible assumption
    | with_reducible apply State.setReg_keeps

theorem State.raise_keeps {s₀ t : State} (h : Keeps s₀ t) (a1 a2) : Keeps s₀ (State.raise t a1 a2) := by
  unfold State.raise
  repeat' first
    | with_reducible assumption
    | with_reducible apply State.setReg_keeps

theorem State.lower_keeps {s₀ t : State} (h : Keeps s₀ t) (a1 a2) : Keeps s₀ (State.lower t a1 a2) := by
  unfold State.lower
  repeat' first
    | with_reducible assumption
    | with_reducible apply State.setReg_keeps

theorem offAccess_keeps {s₀ t : State} (h : Keeps s₀ t) : Keeps s₀ (offAccess t) := by
  unfold offAccess
  repeat' first
    | with_reducible assumption
    | with_reducible apply State.raise_keeps
    | with_reducible apply State.bump_keeps

theorem countStall_keeps {s₀ t : State} (h : Keeps s₀ t) (a1 a2 a3) : Keeps s₀ (countStall t a1 a2 a3) := by
  unfold countStall
  extract_lets l0 l1 l2
  have hl0 : Keeps s₀ l0 := by
    dsimp only [l0]
    repeat' first
      | with_reducible assumption
      | with_reducible apply State.bump_keeps
  clear_value l0
  have hl1 : Keeps s₀ l1 := by
    dsimp only [l1]
    repeat' first
      | with_reducible assumption
      | with_reducible apply State.bump_keeps
  clear_value l1
  have hl2 : Keeps s₀ l2 := by
    dsimp only [l2]
    repeat' first
      | with_reducible assumption
      | with_reducible apply State.bump_keeps
  clear_value l2
  repeat' first
    | with_reducible assumption
    | with_reducible apply State.bump_keeps
    | split

theorem countProg_keeps {s₀ t : State} (h : Keeps s₀ t) (a1 a2) : Keeps s₀ (countProg t a1 a2) := by
  unfold countProg
  extract_lets l0 l1
  have hl0 : Keeps s₀ l0 := by
    dsimp only [l0]
    repeat' first
      | with_reducible assumption
      | with_reducible apply State.bump_keeps
  clear_value l0
  have hl1 : Keeps s₀ l1 := by
    dsimp only [l1]
    repeat' first
      | with_reducible assumption
      | with_reducible apply State.bump_keeps
  clear_value l1
  repeat' first
    | with_reducible assumption
    | with_reducible refine State.modCore_same ?_ _ (fun _ => rfl) (fun _ => rfl) (fun _ => rfl)

theorem State.tickFree_keeps {s₀ t : State} (h : Keeps s₀ t) : Keeps s₀ (State.tickFree t) := by
  unfold State.tickFree
  repeat' first
    | with_reducible assumption
    | with_reducible apply Keeps.update

end Sys2Proof.Machine
end

