-- ==== Sys2Proof/Laws/KeepsScratchpad.lean ====
section
/-! SUPPORT. What Machine/Scratchpad.lean does keeps the part, the queue and the canonical form of every sparse memory. -/

namespace Sys2Proof.Machine

theorem spmOutOfPart_keeps {s₀ t : State} (h : Keeps s₀ t) (a1) : Keeps s₀ (spmOutOfPart t a1) := by
  unfold spmOutOfPart
  repeat' first
    | with_reducible assumption
    | with_reducible apply State.bump_keeps
    | with_reducible apply State.raise_keeps

theorem spmUe_keeps {s₀ t : State} (h : Keeps s₀ t) (a1 a2 a3) : Keeps s₀ (spmUe t a1 a2 a3) := by
  unfold spmUe
  extract_lets l0 l1
  have hl0 : Keeps s₀ l0 := by
    dsimp only [l0]
    repeat' first
      | with_reducible assumption
      | with_reducible apply State.bump_keeps
  clear_value l0
  have hl1 : Keeps s₀ l1 := by
    dsimp only [l1]
    repeat' first
      | with_reducible assumption
      | with_reducible apply State.setReg_keeps
  clear_value l1
  repeat' first
    | with_reducible assumption
    | with_reducible apply State.raise_keeps

theorem spmCe_keeps {s₀ t : State} (h : Keeps s₀ t) (a1 a2 a3 a4) : Keeps s₀ (spmCe t a1 a2 a3 a4) := by
  unfold spmCe
  extract_lets l0 l1
  have hl0 : Keeps s₀ l0 := by
    dsimp only [l0]
    repeat' first
      | with_reducible assumption
      | with_reducible apply State.bump_keeps
  clear_value l0
  have hl1 : Keeps s₀ l1 := by
    dsimp only [l1]
    repeat' first
      | with_reducible assumption
      | with_reducible apply State.setReg_keeps
  clear_value l1
  repeat' first
    | with_reducible assumption
    | with_reducible apply State.raise_keeps

theorem spmPoisonRead_keeps {s₀ t : State} (h : Keeps s₀ t) (a1) : Keeps s₀ (spmPoisonRead t a1) := by
  unfold spmPoisonRead
  repeat' first
    | with_reducible assumption
    | with_reducible apply State.raise_keeps

theorem sweepMeet_keeps {s₀ t : State} (h : Keeps s₀ t) (a1 a2) : Keeps s₀ (sweepMeet t a1 a2) := by
  unfold sweepMeet
  repeat' first
    | with_reducible assumption
    | with_reducible refine State.modCore_same ?_ _ (fun _ => rfl) (fun _ => rfl) (fun _ => rfl)
    | split

theorem scheduled_keeps {s₀ t : State} (h : Keeps s₀ t) (a1) {f : State → State} (hf : Keeps s₀ (f t)) : Keeps s₀ (scheduled t a1 f) := by
  unfold scheduled
  exact Keeps.ite (countStall_keeps h _ _ _) hf


theorem spmReadWord_keeps {s₀ t : State} (h : Keeps s₀ t) (a1 a2 a3) : Keeps s₀ (spmReadWord t a1 a2 a3).st := by
  unfold spmReadWord
  split
  · repeat' first
    | with_reducible assumption
    | with_reducible apply spmOutOfPart_keeps
    | dsimp only
    | split
  extract_lets u c
  have hu : Keeps s₀ u := sweepMeet_keeps h _ _
  clear_value c u
  split
  · exact hu
  generalize readWord _ _ = r
  cases r
  all_goals repeat' first
    | with_reducible assumption
    | with_reducible refine State.modCore_same ?_ _ (fun _ => rfl) (fun _ => rfl) (fun _ => rfl)
    | with_reducible apply spmCe_keeps
    | with_reducible apply spmPoisonRead_keeps
    | with_reducible apply spmUe_keeps

theorem spmReadWords_keeps {s₀ t : State} (h : Keeps s₀ t) (a0 a2 a3 a4) : Keeps s₀ (spmReadWords a0 t a2 a3 a4).st := by
  induction a0 generalizing t a2 a3 a4 with
  | zero => exact h
  | succ k ih =>
  unfold spmReadWords
  repeat' first
    | with_reducible apply ih
    | with_reducible assumption
    | with_reducible apply spmReadWord_keeps

theorem spmRead_keeps {s₀ t : State} (h : Keeps s₀ t) (a1 a2 a3) : Keeps s₀ (spmRead t a1 a2 a3).st := by
  unfold spmRead
  extract_lets l0
  have hl0 : Keeps s₀ l0.st := by
    dsimp only [l0]
    repeat' first
      | with_reducible assumption
      | with_reducible apply spmReadWords_keeps
  clear_value l0
  repeat' first
    | with_reducible assumption
    | split

theorem spmReadNeed_keeps {s₀ t : State} (h : Keeps s₀ t) (a0 a2 a3 a4 a5) : Keeps s₀ (spmReadNeed a0 t a2 a3 a4 a5).st := by
  induction a0 generalizing t a2 a3 a4 a5 with
  | zero => exact h
  | succ k ih =>
  unfold spmReadNeed
  repeat' first
    | with_reducible apply ih
    | with_reducible assumption
    | with_reducible apply spmReadWord_keeps
    | split

theorem spmReadGranules_keeps {s₀ t : State} (h : Keeps s₀ t) (a1 a2 a3) : Keeps s₀ (spmReadGranules t a1 a2 a3).st := by
  induction a3 generalizing t a1 a2 with
  | nil => exact h
  | cons x l ih =>
  unfold spmReadGranules
  repeat' first
    | with_reducible apply ih
    | with_reducible assumption
    | with_reducible apply spmReadNeed_keeps

theorem spmWriteWord_keeps {s₀ t : State} (h : Keeps s₀ t) (a1 a2 a3 a4 a5 a6) : Keeps s₀ (spmWriteWord t a1 a2 a3 a4 a5 a6) := by
  have hput (u : State) (hu : Keeps s₀ u) (w : SpmWord) : Keeps s₀ (u.modCore a1 fun c =>
      { c with spm := storeSet {} c.spm a3 w, ceWb := c.ceWb.filter (· ≠ a3) }) :=
    State.modCore_keeps hu _ fun c k => { k with spm := storeSet_wf rfl k.spm }
  unfold spmWriteWord
  extract_lets
  split
  · exact hput _ h _
  split
  · split <;> exact hput _ h _
  generalize readWord _ _ = r
  cases r
  all_goals repeat' first
    | with_reducible assumption
    | with_reducible apply State.bump_keeps
    | with_reducible apply spmCe_keeps
    | with_reducible apply spmPoisonRead_keeps
    | with_reducible apply spmUe_keeps
    | with_reducible apply hput
    | with_reducible apply Keeps.ite

theorem spmInject_keeps {s₀ t : State} (h : Keeps s₀ t) (a1 a2) : Keeps s₀ (spmInject t a1 a2) := by
  have hput (u : State) (hu : Keeps s₀ u) (wi : Nat) (m : BitVec 72) : Keeps s₀ (u.modCore a1 fun c =>
      let w := storeGet {} c.spm wi
      { c with spm := storeSet {} c.spm wi { w with flip := w.flip ^^^ m } }) :=
    State.modCore_keeps hu _ fun c k => { k with spm := storeSet_wf rfl k.spm }
  unfold spmInject
  repeat' first
    | extract_lets
    | with_reducible assumption
    | with_reducible apply State.setReg_keeps
    | with_reducible apply hput
    | split

theorem spmWriteWords_keeps {s₀ t : State} (h : Keeps s₀ t) (a0 a2 a3 a4 a5 a6) : Keeps s₀ (spmWriteWords a0 t a2 a3 a4 a5 a6) := by
  induction a0 generalizing t a2 a3 a4 a5 a6 with
  | zero => exact h
  | succ k ih =>
  unfold spmWriteWords
  repeat' first
    | with_reducible apply ih
    | extract_lets
    | with_reducible assumption
    | with_reducible apply spmWriteWord_keeps
    | split

theorem spmWriteGranule_keeps {s₀ t : State} (h : Keeps s₀ t) (a1 a2 a3 a4) : Keeps s₀ (spmWriteGranule t a1 a2 a3 a4) := by
  have hput (u : State) (hu : Keeps s₀ u) (g : Nat) : Keeps s₀ (u.modCore a1 fun c =>
      { c with written := storeSet false c.written g true,
               spm := storeErase (fun wi => decide (wi / 8 = g)) c.spm,
               ceWb := c.ceWb.filter (· / 8 ≠ g) }) :=
    State.modCore_keeps hu _ fun c k => { k with written := storeSet_wf rfl k.written, spm := storeErase_wf (fun wi => decide (wi / 8 = g)) k.spm }
  unfold spmWriteGranule
  repeat' first
    | with_reducible assumption
    | with_reducible apply spmOutOfPart_keeps
    | with_reducible apply sweepMeet_keeps
    | with_reducible apply State.bump_keeps
    | with_reducible apply State.raise_keeps
    | with_reducible apply spmInject_keeps
    | with_reducible apply spmWriteWords_keeps
    | with_reducible apply hput
    | dsimp only
    | split

theorem spmWriteLoop_keeps {s₀ t : State} (h : Keeps s₀ t) (a0 a2 a3 a4 a5) : Keeps s₀ (spmWriteLoop a0 t a2 a3 a4 a5) := by
  induction a0 generalizing t a2 a3 a4 a5 with
  | zero => exact h
  | succ k ih =>
  unfold spmWriteLoop
  repeat' first
    | with_reducible apply ih
    | extract_lets
    | with_reducible assumption
    | with_reducible apply spmWriteGranule_keeps
    | split

theorem spmWrite_keeps {s₀ t : State} (h : Keeps s₀ t) (a1 a2 a3 a4) : Keeps s₀ (spmWrite t a1 a2 a3 a4) := by
  unfold spmWrite
  repeat' first
    | with_reducible assumption
    | with_reducible apply spmWriteLoop_keeps

theorem spmWriteBack_keeps {s₀ t : State} (h : Keeps s₀ t) (a1 a2) : Keeps s₀ (spmWriteBack t a1 a2) := by
  unfold spmWriteBack
  split
  · refine State.modCore_keeps h _ fun c k => { k with spm := ?_ }
    dsimp only
    split
    · exact storeSet_wf rfl k.spm
    · exact k.spm
  · exact h

theorem spmClearTiles_keeps {s₀ t : State} (h : Keeps s₀ t) (a1 a2) : Keeps s₀ (spmClearTiles t a1 a2) := by
  exact State.modCore_keeps h _ fun c k => 
    { k with written := storeErase_wf (fun g => a2 (g / 1024)) k.written, spm := storeErase_wf (fun wi => a2 (wi / 8192)) k.spm }

end Sys2Proof.Machine
end

