-- ==== Sys2Proof/Laws/KeepsOperands.lean ====
section
/-! SUPPORT. What Machine/Operands.lean does keeps the part, the queue and the canonical form of every sparse memory. -/

namespace Sys2Proof.Machine

theorem writeAR_keeps {s₀ t : State} (h : Keeps s₀ t) (a1 a2 a3) : Keeps s₀ (writeAR t a1 a2 a3) := by
  unfold writeAR
  repeat' first
    | with_reducible assumption
    | with_reducible apply State.setReg_keeps
    | split

theorem readOperandNeed_keeps {s₀ t : State} (h : Keeps s₀ t) (a1 a2 a3 a4 a5) : Keeps s₀ (readOperandNeed t a1 a2 a3 a4 a5).st := by
  unfold readOperandNeed
  extract_lets l0
  repeat' first
    | with_reducible assumption
    | with_reducible apply spmReadNeed_keeps
    | with_reducible apply spmReadGranules_keeps
    | dsimp only
    | split

theorem readOperand_keeps {s₀ t : State} (h : Keeps s₀ t) (a1 a2 a3 a4) : Keeps s₀ (readOperand t a1 a2 a3 a4).st := by
  unfold readOperand
  repeat' first
    | with_reducible assumption
    | with_reducible apply readOperandNeed_keeps

theorem writeGranules_keeps {s₀ t : State} (h : Keeps s₀ t) (a1 a2 a3) : Keeps s₀ (writeGranules t a1 a2 a3) := by
  induction a3 generalizing t a1 a2 with
  | nil => exact h
  | cons x l ih =>
  unfold writeGranules
  repeat' first
    | with_reducible apply ih
    | with_reducible assumption
    | with_reducible apply spmWrite_keeps
    | split

theorem writeOperand_keeps {s₀ t : State} (h : Keeps s₀ t) (a1 a2 a3) : Keeps s₀ (writeOperand t a1 a2 a3) := by
  unfold writeOperand
  repeat' first
    | with_reducible assumption
    | with_reducible apply spmWrite_keeps
    | with_reducible apply writeGranules_keeps
    | split

end Sys2Proof.Machine
end

