-- ==== Sys2Proof/Laws/KeepsMemory.lean ====
section
/-! SUPPORT. What Machine/Memory.lean does keeps the part, the queue and the canonical form of every sparse memory. -/

namespace Sys2Proof.Machine

theorem spmReadAsync_keeps {s₀ t : State} (h : Keeps s₀ t) (a1 a2 a3) : Keeps s₀ (spmReadAsync t a1 a2 a3).2 := by
  unfold spmReadAsync
  extract_lets l0
  have hl0 : Keeps s₀ l0.st := by
    dsimp only [l0]
    repeat' first
      | with_reducible assumption
      | with_reducible apply spmRead_keeps
  clear_value l0
  repeat' first
    | with_reducible assumption
    | with_reducible apply countStall_keeps
theorem spmReadAsync_keeps_eq {s₀ t r : State} {x0} (h : Keeps s₀ t) {a1 a2 a3} (hr : spmReadAsync t a1 a2 a3 = (x0, r)) : Keeps s₀ r := by
  have := spmReadAsync_keeps h a1 a2 a3
  rw [hr] at this
  exact this

theorem nmDrop_keeps {s₀ t : State} (h : Keeps s₀ t) (a1 a2) : Keeps s₀ (nmDrop t a1 a2) := by
  unfold nmDrop
  extract_lets l0
  clear_value l0
  repeat' first
    | with_reducible assumption
    | with_reducible apply State.raise_keeps
    | with_reducible apply State.bump_keeps

theorem ceThreshold_keeps {s₀ t : State} (h : Keeps s₀ t) (a1) : Keeps s₀ (ceThreshold t a1) := by
  unfold ceThreshold
  extract_lets l0 l1
  clear_value l0
  clear_value l1
  repeat' first
    | with_reducible assumption
    | with_reducible apply State.raise_keeps
    | with_reducible refine State.modField_same ?_ _ (fun _ => rfl) (fun _ => rfl)
    | split

theorem recordCe_keeps {s₀ t : State} (h : Keeps s₀ t) (a1 a2 a3) : Keeps s₀ (recordCe t a1 a2 a3) := by
  unfold recordCe
  extract_lets l0 l1 l2
  have hl0 : Keeps s₀ l0 := by
    dsimp only [l0]
    repeat' first
      | with_reducible assumption
      | with_reducible apply State.bump_keeps
  clear_value l0
  have hl1 : Keeps s₀ l1 := by
    dsimp only [l1]
    repeat' first
      | with_reducible assumption
      | with_reducible apply State.setReg_keeps
  clear_value l1
  have hl2 : Keeps s₀ l2 := by
    dsimp only [l2]
    repeat' first
      | with_reducible assumption
      | with_reducible apply State.setReg_keeps
  clear_value l2
  repeat' first
    | with_reducible assumption
    | with_reducible apply ceThreshold_keeps
    | with_reducible apply State.raise_keeps

theorem recordUe_keeps {s₀ t : State} (h : Keeps s₀ t) (a1 a2 a3) : Keeps s₀ (recordUe t a1 a2 a3) := by
  unfold recordUe
  extract_lets l0 l1 l2
  have hl0 : Keeps s₀ l0 := by
    dsimp only [l0]
    repeat' first
      | with_reducible assumption
      | with_reducible apply State.bump_keeps
  clear_value l0
  have hl1 : Keeps s₀ l1 := by
    dsimp only [l1]
    repeat' first
      | with_reducible assumption
      | with_reducible apply State.setReg_keeps
  clear_value l1
  have hl2 : Keeps s₀ l2 := by
    dsimp only [l2]
    repeat' first
      | with_reducible assumption
      | with_reducible apply State.setReg_keeps
  clear_value l2
  repeat' first
    | with_reducible assumption
    | with_reducible apply State.raise_keeps

theorem nmReadGran_keeps {s₀ t : State} (h : Keeps s₀ t) (a1 a2 a3) : Keeps s₀ (nmReadGran t a1 a2 a3).2 := by
  unfold nmReadGran
  split
  · exact nmDrop_keeps h _ _
  extract_lets
  generalize readGran _ = r
  cases r
  all_goals repeat' first
    | with_reducible assumption
    | with_reducible apply State.bump_keeps
    | with_reducible apply recordCe_keeps
    | with_reducible apply State.raise_keeps
    | with_reducible apply recordUe_keeps
    | dsimp only
    | split
    | with_reducible apply Keeps.update
theorem nmReadGran_keeps_eq {s₀ t r : State} {x0} (h : Keeps s₀ t) {a1 a2 a3} (hr : nmReadGran t a1 a2 a3 = (x0, r)) : Keeps s₀ r := by
  have := nmReadGran_keeps h a1 a2 a3
  rw [hr] at this
  exact this

theorem nmInject_keeps {s₀ t : State} (h : Keeps s₀ t) (a1 a2) : Keeps s₀ (nmInject t a1 a2) := by
  unfold nmInject
  extract_lets l0 l1 l2 l3
  clear_value l0
  clear_value l1
  clear_value l2
  have hl3 : Keeps s₀ l3 := by
    dsimp only [l3]
    repeat' first
      | with_reducible assumption
      | with_reducible apply State.setGran_keeps
  clear_value l3
  repeat' first
    | with_reducible assumption
    | with_reducible apply State.setReg_keeps
    | split

theorem nmWriteGran_keeps {s₀ t : State} (h : Keeps s₀ t) (a1 a2 a3 a4) : Keeps s₀ (nmWriteGran t a1 a2 a3 a4) := by
  unfold nmWriteGran
  split
  · exact nmDrop_keeps h _ _
  extract_lets
  split
  · repeat' first
    | with_reducible assumption
    | with_reducible apply State.bump_keeps
    | with_reducible apply nmInject_keeps
    | with_reducible apply State.setGran_keeps
  generalize readGran _ = r
  cases r
  all_goals repeat' first
    | with_reducible assumption
    | with_reducible apply State.bump_keeps
    | with_reducible apply nmInject_keeps
    | with_reducible apply State.setGran_keeps
    | with_reducible apply recordCe_keeps
    | with_reducible apply State.raise_keeps
    | with_reducible apply recordUe_keeps

theorem nmReadLoop_keeps {s₀ t : State} (h : Keeps s₀ t) (a0 a2 a3 a4 a5) : Keeps s₀ (nmReadLoop a0 t a2 a3 a4 a5).2 := by
  induction a0 generalizing t a2 a3 a4 a5 with
  | zero => exact h
  | succ k ih =>
  unfold nmReadLoop
  repeat' first
    | with_reducible apply ih
    | with_reducible assumption
    | with_reducible apply nmReadGran_keeps
    | split
theorem nmReadLoop_keeps_eq {s₀ t r : State} {x0} (h : Keeps s₀ t) {a0 a2 a3 a4 a5} (hr : nmReadLoop a0 t a2 a3 a4 a5 = (x0, r)) : Keeps s₀ r := by
  have := nmReadLoop_keeps h a0 a2 a3 a4 a5
  rw [hr] at this
  exact this

theorem nmWriteLoop_keeps {s₀ t : State} (h : Keeps s₀ t) (a0 a2 a3 a4 a5) : Keeps s₀ (nmWriteLoop a0 t a2 a3 a4 a5) := by
  induction a0 generalizing t a2 a3 a4 a5 with
  | zero => exact h
  | succ k ih =>
  unfold nmWriteLoop
  repeat' first
    | with_reducible apply ih
    | extract_lets
    | with_reducible assumption
    | with_reducible apply nmWriteGran_keeps
    | split

theorem nmRead_keeps {s₀ t : State} (h : Keeps s₀ t) (a1 a2 a3 a4) : Keeps s₀ (nmRead t a1 a2 a3 a4).2 := by
  unfold nmRead
  repeat' first
    | with_reducible assumption
    | with_reducible apply nmReadLoop_keeps
theorem nmRead_keeps_eq {s₀ t r : State} {x0} (h : Keeps s₀ t) {a1 a2 a3 a4} (hr : nmRead t a1 a2 a3 a4 = (x0, r)) : Keeps s₀ r := by
  have := nmRead_keeps h a1 a2 a3 a4
  rw [hr] at this
  exact this

theorem nmWrite_keeps {s₀ t : State} (h : Keeps s₀ t) (a1 a2 a3 a4) : Keeps s₀ (nmWrite t a1 a2 a3 a4) := by
  unfold nmWrite
  repeat' first
    | with_reducible assumption
    | with_reducible apply nmWriteLoop_keeps

theorem nmWriteBack_keeps {s₀ t : State} (h : Keeps s₀ t) (a1) : Keeps s₀ (nmWriteBack t a1) := by
  unfold nmWriteBack
  repeat' first
    | with_reducible assumption
    | with_reducible apply State.setGran_keeps
    | split

theorem wsDrop_keeps {s₀ t : State} (h : Keeps s₀ t) (a1 a2) : Keeps s₀ (wsDrop t a1 a2) := by
  unfold wsDrop
  extract_lets l0
  clear_value l0
  repeat' first
    | with_reducible assumption
    | with_reducible apply State.raise_keeps
    | with_reducible apply State.bump_keeps
    | split

theorem countMib_keeps {s₀ t : State} (h : Keeps s₀ t) (a1 a2 a3 a4) : Keeps s₀ (countMib t a1 a2 a3 a4).2 := by
  unfold countMib
  repeat' first
    | with_reducible assumption
    | with_reducible apply State.bump_keeps
theorem countMib_keeps_eq {s₀ t r : State} {x0} (h : Keeps s₀ t) {a1 a2 a3 a4} (hr : countMib t a1 a2 a3 a4 = (x0, r)) : Keeps s₀ r := by
  have := countMib_keeps h a1 a2 a3 a4
  rw [hr] at this
  exact this

theorem wsReadNow_keeps {s₀ t : State} (h : Keeps s₀ t) (a1 a2 a3 a4) : Keeps s₀ (wsReadNow t a1 a2 a3 a4).2 := by
  unfold wsReadNow
  extract_lets l0
  have hl0 : Keeps s₀ l0.2 := by
    dsimp only [l0]
    repeat' first
      | with_reducible assumption
      | with_reducible apply countMib_keeps
  clear_value l0
  repeat' first
    | with_reducible assumption
    | with_reducible refine State.modField_same ?_ _ (fun _ => rfl) (fun _ => rfl)
    | with_reducible apply wsDrop_keeps
    | split
theorem wsReadNow_keeps_eq {s₀ t r : State} {x0} (h : Keeps s₀ t) {a1 a2 a3 a4} (hr : wsReadNow t a1 a2 a3 a4 = (x0, r)) : Keeps s₀ r := by
  have := wsReadNow_keeps h a1 a2 a3 a4
  rw [hr] at this
  exact this

end Sys2Proof.Machine
end

