-- ==== Sys2Proof/Laws/KeepsTally.lean ====
section
/-! SUPPORT. What Machine/Tally.lean does keeps the part, the queue and the canonical form of every sparse memory. -/

namespace Sys2Proof.Machine

theorem State.setClock_keeps {s₀ t : State} (h : Keeps s₀ t) (a1 a2) : Keeps s₀ (State.setClock t a1 a2) := by
  unfold State.setClock
  repeat' first
    | with_reducible assumption
    | with_reducible apply Keeps.update

theorem stamp_keeps {s₀ t : State} (h : Keeps s₀ t) (a1) : Keeps s₀ (stamp t a1).2 := by
  unfold stamp
  extract_lets l0 l1 l2 l3
  clear_value l0
  clear_value l1
  have hl2 : Keeps s₀ l2 := by
    dsimp only [l2]
    repeat' first
      | with_reducible assumption
      | with_reducible apply State.tickFree_keeps
  clear_value l2
  clear_value l3
  repeat' first
    | with_reducible assumption
    | with_reducible apply State.setClock_keeps
    | split
theorem stamp_keeps_eq {s₀ t r : State} {x0} (h : Keeps s₀ t) {a1} (hr : stamp t a1 = (x0, r)) : Keeps s₀ r := by
  have := stamp_keeps h a1
  rw [hr] at this
  exact this

theorem tallyWrite_keeps {s₀ t : State} (h : Keeps s₀ t) (a1 a2 a3 a4) : Keeps s₀ (tallyWrite t a1 a2 a3 a4) := by
  unfold tallyWrite
  extract_lets l0 l1 l2 l3 l4 l5 l6 l7 l8 l9 l10
  clear_value l0
  clear_value l1
  clear_value l2
  clear_value l3
  have hl4 : Keeps s₀ l4.2 := by
    dsimp only [l4]
    repeat' first
      | with_reducible assumption
      | with_reducible apply stamp_keeps
  clear_value l4
  clear_value l5
  have hl6 : Keeps s₀ l6 := by
    dsimp only [l6]
    repeat' first
      | with_reducible assumption
  clear_value l6
  have hl7 : Keeps s₀ l7 := by
    dsimp only [l7]
    repeat' first
      | with_reducible assumption
      | with_reducible apply State.tallyPut_keeps
  clear_value l7
  have hl8 : Keeps s₀ l8 := by
    dsimp only [l8]
    repeat' first
      | with_reducible assumption
      | with_reducible apply State.setReg_keeps
  clear_value l8
  clear_value l9
  have hl10 : Keeps s₀ l10 := by
    dsimp only [l10]
    repeat' first
      | with_reducible assumption
      | with_reducible apply State.setReg_keeps
  clear_value l10
  repeat' first
    | with_reducible assumption
    | with_reducible apply State.bump_keeps

theorem tallyAppend_keeps {s₀ t : State} (h : Keeps s₀ t) (a1 a2 a3) : Keeps s₀ (tallyAppend t a1 a2 a3) := by
  unfold tallyAppend
  extract_lets l0 l3 l1 l2
  clear_value l0
  clear_value l3
  have hl1 : Keeps s₀ l1 := by
    dsimp only [l1]
    repeat' first
      | with_reducible assumption
      | with_reducible apply State.tickFree_keeps
  clear_value l1
  have hl2 : Keeps s₀ l2 := by
    dsimp only [l2]
    repeat' first
      | with_reducible assumption
      | with_reducible apply State.setTalSupp_keeps
  clear_value l2
  repeat' first
    | with_reducible assumption
    | with_reducible apply State.raise_keeps
    | with_reducible apply State.bump_keeps
    | with_reducible apply tallyWrite_keeps
    | split

theorem tallyLatch_keeps {s₀ t : State} (h : Keeps s₀ t) (a1) : Keeps s₀ (tallyLatch t a1) := by
  unfold tallyLatch
  extract_lets l0 l1
  have hl1 : Keeps s₀ l1 := by
    dsimp only [l1]
    repeat' first
      | with_reducible assumption
      | with_reducible apply State.setReg_keeps
  clear_value l1
  repeat' first
    | with_reducible assumption
    | with_reducible apply State.setReg_keeps
    | with_reducible apply State.raise_keeps
    | with_reducible refine Keeps.foldl (fun _ _ _ => ?_) ?_
    | dsimp only
    | split

theorem trapCore_keeps {s₀ t : State} (h : Keeps s₀ t) (a1 a2 a3 a4) : Keeps s₀ (trapCore t a1 a2 a3 a4) := by
  unfold trapCore
  extract_lets l0 l1 l2 l3
  have hl0 : Keeps s₀ l0 := by
    dsimp only [l0]
    repeat' first
      | with_reducible assumption
      | with_reducible refine State.modCore_same ?_ _ (fun _ => rfl) (fun _ => rfl) (fun _ => rfl)
  clear_value l0
  have hl1 : Keeps s₀ l1 := by
    dsimp only [l1]
    repeat' first
      | with_reducible assumption
      | with_reducible apply State.setReg_keeps
  clear_value l1
  have hl2 : Keeps s₀ l2 := by
    dsimp only [l2]
    repeat' first
      | with_reducible assumption
      | with_reducible apply State.setReg_keeps
  clear_value l2
  have hl3 : Keeps s₀ l3 := by
    dsimp only [l3]
    repeat' first
      | with_reducible assumption
      | with_reducible apply State.raise_keeps
  clear_value l3
  repeat' first
    | with_reducible assumption
    | with_reducible apply tallyAppend_keeps

end Sys2Proof.Machine
end

