-- ==== Sys2Proof/Laws/KeepsHedgerow.lean ====
section
/-! SUPPORT. What Machine/Hedgerow.lean does keeps the part, the queue and the canonical form of every sparse memory. -/

namespace Sys2Proof.Machine

theorem setPortState_keeps {s₀ t : State} (h : Keeps s₀ t) (a1 a2) : Keeps s₀ (setPortState t a1 a2) := by
  unfold setPortState
  repeat' first
    | with_reducible assumption
    | with_reducible apply State.setReg_keeps

theorem State.setPort_keeps {s₀ t : State} (h : Keeps s₀ t) (a1 a2) : Keeps s₀ (State.setPort t a1 a2) := by
  unfold State.setPort
  repeat' first
    | with_reducible assumption
    | with_reducible apply Keeps.update

theorem State.emit_keeps {s₀ t : State} (h : Keeps s₀ t) (a1) : Keeps s₀ (State.emit t a1) := by
  unfold State.emit
  repeat' first
    | with_reducible assumption
    | with_reducible apply Keeps.update

theorem sendFrame_keeps {s₀ t : State} (h : Keeps s₀ t) (a1 a2) : Keeps s₀ (sendFrame t a1 a2) := by
  unfold sendFrame
  extract_lets l0
  clear_value l0
  repeat' first
    | with_reducible assumption
    | with_reducible apply State.bump_keeps
    | with_reducible apply State.emit_keeps
    | with_reducible apply State.setPort_keeps
    | split

theorem hdgForward_keeps {s₀ t : State} (h : Keeps s₀ t) (a1) : Keeps s₀ (hdgForward t a1) := by
  unfold hdgForward
  repeat' first
    | with_reducible assumption
    | with_reducible apply sendFrame_keeps
    | with_reducible apply State.bump_keeps
    | split

theorem hdgSend_keeps {s₀ t : State} (h : Keeps s₀ t) (a1 a2) : Keeps s₀ (hdgSend t a1 a2) := by
  unfold hdgSend
  repeat' first
    | with_reducible assumption
    | with_reducible apply hdgForward_keeps

theorem setSemVal_keeps {s₀ t : State} (h : Keeps s₀ t) (a1 a2) : Keeps s₀ (setSemVal t a1 a2) := by
  unfold setSemVal
  repeat' first
    | with_reducible assumption
    | with_reducible apply State.setReg_keeps

theorem notifySem_keeps {s₀ t : State} (h : Keeps s₀ t) (a1) : Keeps s₀ (notifySem t a1) := by
  unfold notifySem
  extract_lets l0 l1
  clear_value l0
  clear_value l1
  repeat' first
    | with_reducible assumption
    | with_reducible apply State.raise_keeps
    | split
    | with_reducible apply Keeps.update

theorem fifoAdd_keeps {s₀ t : State} (h : Keeps s₀ t) (a1) : Keeps s₀ (fifoAdd t a1) := by
  unfold fifoAdd
  extract_lets l0
  clear_value l0
  repeat' first
    | with_reducible assumption
    | with_reducible apply Keeps.update

theorem semApply_keeps {s₀ t : State} (h : Keeps s₀ t) (a1 a2) : Keeps s₀ (semApply t a1 a2) := by
  unfold semApply
  extract_lets l0 l1 l2 l3 l4
  have hl0 : Keeps s₀ l0 := by
    dsimp only [l0]
    repeat' first
      | with_reducible assumption
      | with_reducible apply State.bump_keeps
  clear_value l0
  clear_value l1
  have hl2 : Keeps s₀ l2 := by
    dsimp only [l2]
    repeat' first
      | with_reducible assumption
      | with_reducible apply notifySem_keeps
      | split
  clear_value l2
  have hl3 : Keeps s₀ l3 := by
    dsimp only [l3]
    repeat' first
      | with_reducible assumption
      | with_reducible apply setSemVal_keeps
  clear_value l3
  have hl4 : Keeps s₀ l4 := by
    dsimp only [l4]
    repeat' first
      | with_reducible assumption
      | with_reducible apply State.setReg_keeps
  clear_value l4
  repeat' first
    | with_reducible assumption
    | with_reducible apply State.bump_keeps
    | with_reducible apply setSemVal_keeps
    | with_reducible apply State.raise_keeps
    | split

theorem semPost_keeps {s₀ t : State} (h : Keeps s₀ t) (a1 a2) : Keeps s₀ (semPost t a1 a2) := by
  unfold semPost
  repeat' first
    | with_reducible assumption
    | with_reducible apply State.bump_keeps
    | with_reducible apply fifoAdd_keeps
    | with_reducible apply semApply_keeps
    | split

theorem postName_keeps {s₀ t : State} (h : Keeps s₀ t) (a1 a2) : Keeps s₀ (postName t a1 a2) := by
  unfold postName
  repeat' first
    | with_reducible assumption
    | with_reducible apply hdgSend_keeps
    | with_reducible apply semPost_keeps
    | split

theorem hdgPost_keeps {s₀ t : State} (h : Keeps s₀ t) (a1) : Keeps s₀ (hdgPost t a1) := by
  unfold hdgPost
  repeat' first
    | with_reducible assumption
    | with_reducible apply State.raise_keeps
    | with_reducible apply postName_keeps
    | split

theorem takeApply_keeps {s₀ t : State} (h : Keeps s₀ t) (a1 a2) : Keeps s₀ (takeApply t a1 a2) := by
  unfold takeApply
  repeat' first
    | with_reducible assumption
    | with_reducible apply State.bump_keeps
    | with_reducible apply State.raise_keeps
    | with_reducible apply setSemVal_keeps
    | split

theorem hdgTake_keeps {s₀ t : State} (h : Keeps s₀ t) (a1) : Keeps s₀ (hdgTake t a1) := by
  unfold hdgTake
  extract_lets l0
  clear_value l0
  repeat' first
    | with_reducible assumption
    | with_reducible apply State.raise_keeps
    | with_reducible apply fifoAdd_keeps
    | with_reducible apply takeApply_keeps
    | split

theorem hdgSemWrite_keeps {s₀ t : State} (h : Keeps s₀ t) (a1 a2) : Keeps s₀ (hdgSemWrite t a1 a2) := by
  unfold hdgSemWrite
  repeat' first
    | with_reducible assumption
    | with_reducible apply fifoAdd_keeps
    | with_reducible apply State.setReg_keeps
    | split

theorem fifoApply_keeps {s₀ t : State} (h : Keeps s₀ t) (a1) : Keeps s₀ (fifoApply t a1) := by
  unfold fifoApply
  repeat' first
    | with_reducible assumption
    | with_reducible apply semApply_keeps
    | with_reducible apply takeApply_keeps
    | with_reducible apply State.setReg_keeps
    | split

theorem fifoRun_keeps {s₀ t : State} (h : Keeps s₀ t) : Keeps s₀ (fifoRun t) := by
  unfold fifoRun
  extract_lets l0 l1
  clear_value l1
  repeat' first
    | with_reducible assumption
    | with_reducible apply fifoApply_keeps
    | with_reducible refine Keeps.foldl (fun _ _ _ => ?_) ?_
    | with_reducible apply Keeps.update

theorem notifyRead_keeps {s₀ t : State} (h : Keeps s₀ t) (a1) : Keeps s₀ (notifyRead t a1).2 := by
  unfold notifyRead
  repeat' first
    | with_reducible assumption
    | dsimp only
    | split
    | with_reducible apply Keeps.update
theorem notifyRead_keeps_eq {s₀ t r : State} {x0} (h : Keeps s₀ t) {a1} (hr : notifyRead t a1 = (x0, r)) : Keeps s₀ r := by
  have := notifyRead_keeps h a1
  rw [hr] at this
  exact this

theorem setBarStatus_keeps {s₀ t : State} (h : Keeps s₀ t) (a1 a2) : Keeps s₀ (setBarStatus t a1 a2) := by
  unfold setBarStatus
  repeat' first
    | with_reducible assumption
    | with_reducible apply State.setReg_keeps

theorem postArrival_keeps {s₀ t : State} (h : Keeps s₀ t) (a1) : Keeps s₀ (postArrival t a1) := by
  unfold postArrival
  repeat' first
    | with_reducible assumption
    | with_reducible apply semPost_keeps
    | with_reducible apply hdgSend_keeps
    | split

theorem barArrive_keeps {s₀ t : State} (h : Keeps s₀ t) (a1 a2) : Keeps s₀ (barArrive t a1 a2) := by
  unfold barArrive
  extract_lets l0 l1 l2 l3 l4 l5
  clear_value l0
  clear_value l1
  have hl2 : Keeps s₀ l2 := by
    dsimp only [l2]
    repeat' first
      | with_reducible assumption
      | with_reducible apply Keeps.update
  clear_value l2
  clear_value l3
  have hl4 : Keeps s₀ l4 := by
    dsimp only [l4]
    repeat' first
      | with_reducible assumption
      | with_reducible apply Keeps.update
  clear_value l4
  have hl5 : Keeps s₀ l5 := by
    dsimp only [l5]
    repeat' first
      | with_reducible assumption
      | with_reducible apply setBarStatus_keeps
  clear_value l5
  repeat' first
    | with_reducible assumption
    | with_reducible apply State.bump_keeps
    | with_reducible apply State.raise_keeps
    | with_reducible apply setBarStatus_keeps
    | with_reducible apply postArrival_keeps
    | with_reducible refine Keeps.foldl (fun _ _ _ => ?_) ?_
    | split

theorem arriveName_keeps {s₀ t : State} (h : Keeps s₀ t) (a1 a2 a3) : Keeps s₀ (arriveName t a1 a2 a3) := by
  unfold arriveName
  repeat' first
    | with_reducible assumption
    | with_reducible apply hdgSend_keeps
    | with_reducible apply barArrive_keeps
    | split

theorem hdgBarArrive_keeps {s₀ t : State} (h : Keeps s₀ t) (a1) : Keeps s₀ (hdgBarArrive t a1) := by
  unfold hdgBarArrive
  repeat' first
    | with_reducible assumption
    | with_reducible apply State.raise_keeps
    | with_reducible apply barArrive_keeps
    | split

theorem barCfgWrite_keeps {s₀ t : State} (h : Keeps s₀ t) (a1 a2) : Keeps s₀ (barCfgWrite t a1 a2) := by
  unfold barCfgWrite
  repeat' first
    | with_reducible assumption
    | with_reducible apply State.raise_keeps
    | with_reducible apply State.setReg_keeps
    | split

theorem setAbortSeq_keeps {s₀ t : State} (h : Keeps s₀ t) (a1 a2) : Keeps s₀ (setAbortSeq t a1 a2) := by
  unfold setAbortSeq
  extract_lets l0
  clear_value l0
  repeat' first
    | with_reducible assumption
    | with_reducible apply State.setReg_keeps

theorem applyAbort_keeps {s₀ t : State} (h : Keeps s₀ t) (a1) : Keeps s₀ (applyAbort t a1) := by
  unfold applyAbort
  extract_lets l0 l1 l2 l3
  have hl0 : Keeps s₀ l0 := by
    dsimp only [l0]
    repeat' first
      | with_reducible assumption
      | with_reducible apply State.raise_keeps
  clear_value l0
  have hl1 : Keeps s₀ l1 := by
    dsimp only [l1]
    repeat' first
      | with_reducible assumption
      | with_reducible apply State.raise_keeps
  clear_value l1
  have hl2 : Keeps s₀ l2 := by
    dsimp only [l2]
    repeat' first
      | with_reducible assumption
      | with_reducible refine State.modField_same ?_ _ (fun _ => rfl) (fun _ => rfl)
      | with_reducible refine Keeps.foldl (fun _ _ _ => ?_) ?_
  clear_value l2
  have hl3 : Keeps s₀ l3 := by
    dsimp only [l3]
    repeat' first
      | with_reducible assumption
      | with_reducible apply trapCore_keeps
      | with_reducible refine Keeps.foldl (fun _ _ _ => ?_) ?_
      | split
  clear_value l3
  repeat' first
    | with_reducible assumption
    | with_reducible apply setBarStatus_keeps
    | with_reducible refine Keeps.foldl (fun _ _ _ => ?_) ?_
    | split
    | with_reducible apply Keeps.update

theorem flood_keeps {s₀ t : State} (h : Keeps s₀ t) (a1 a2 a3 a4) : Keeps s₀ (flood t a1 a2 a3 a4) := by
  unfold flood
  repeat' first
    | with_reducible assumption
    | with_reducible apply sendFrame_keeps
    | with_reducible refine Keeps.foldl (fun _ _ _ => ?_) ?_
    | split

theorem hdgAbort_keeps {s₀ t : State} (h : Keeps s₀ t) (a1) : Keeps s₀ (hdgAbort t a1) := by
  unfold hdgAbort
  extract_lets l0 l1 l2 l3
  clear_value l0
  have hl1 : Keeps s₀ l1 := by
    dsimp only [l1]
    repeat' first
      | with_reducible assumption
      | with_reducible apply setAbortSeq_keeps
  clear_value l1
  have hl2 : Keeps s₀ l2 := by
    dsimp only [l2]
    repeat' first
      | with_reducible assumption
      | with_reducible apply applyAbort_keeps
  clear_value l2
  have hl3 : Keeps s₀ l3 := by
    dsimp only [l3]
    repeat' first
      | with_reducible assumption
      | with_reducible apply State.raise_keeps
  clear_value l3
  repeat' first
    | with_reducible assumption
    | with_reducible apply tallyAppend_keeps
    | with_reducible apply flood_keeps

theorem abortToken_keeps {s₀ t : State} (h : Keeps s₀ t) (a1 a2 a3 a4 a5) : Keeps s₀ (abortToken t a1 a2 a3 a4 a5) := by
  unfold abortToken
  extract_lets l0 l1
  have hl0 : Keeps s₀ l0 := by
    dsimp only [l0]
    repeat' first
      | with_reducible assumption
      | with_reducible apply setAbortSeq_keeps
  clear_value l0
  have hl1 : Keeps s₀ l1 := by
    dsimp only [l1]
    repeat' first
      | with_reducible assumption
      | with_reducible apply applyAbort_keeps
  clear_value l1
  repeat' first
    | with_reducible assumption
    | with_reducible apply State.bump_keeps
    | with_reducible apply tallyAppend_keeps
    | with_reducible apply flood_keeps
    | split

theorem hdgAbortClear_keeps {s₀ t : State} (h : Keeps s₀ t) (a1) : Keeps s₀ (hdgAbortClear t a1) := by
  unfold hdgAbortClear
  repeat' first
    | with_reducible assumption
    | with_reducible apply State.lower_keeps

theorem setPeerGen_keeps {s₀ t : State} (h : Keeps s₀ t) (a1 a2) : Keeps s₀ (setPeerGen t a1 a2) := by
  unfold setPeerGen
  extract_lets l0
  clear_value l0
  repeat' first
    | with_reducible assumption
    | with_reducible apply State.setReg_keeps

theorem genAnnounce_keeps {s₀ t : State} (h : Keeps s₀ t) (a1 a2 a3) : Keeps s₀ (genAnnounce t a1 a2 a3) := by
  unfold genAnnounce
  repeat' first
    | with_reducible assumption
    | with_reducible apply flood_keeps
    | with_reducible apply setPeerGen_keeps
    | split

theorem semPostArrive_keeps {s₀ t : State} (h : Keeps s₀ t) (a1 a2 a3 a4) : Keeps s₀ (semPostArrive t a1 a2 a3 a4) := by
  unfold semPostArrive
  repeat' first
    | with_reducible assumption
    | with_reducible apply State.bump_keeps
    | with_reducible apply semPost_keeps
    | split

theorem barrierArrival_keeps {s₀ t : State} (h : Keeps s₀ t) (a1 a2 a3 a4 a5) : Keeps s₀ (barrierArrival t a1 a2 a3 a4 a5) := by
  unfold barrierArrival
  repeat' first
    | with_reducible assumption
    | with_reducible apply State.bump_keeps
    | with_reducible apply barArrive_keeps
    | split

theorem frameReceive_keeps {s₀ t : State} (h : Keeps s₀ t) (a1 a2 a3 a4 a5 a6) : Keeps s₀ (frameReceive t a1 a2 a3 a4 a5 a6) := by
  unfold frameReceive
  repeat' first
    | with_reducible assumption
    | with_reducible apply State.bump_keeps
    | with_reducible apply abortToken_keeps
    | with_reducible apply genAnnounce_keeps
    | with_reducible apply hdgForward_keeps
    | with_reducible apply semPost_keeps
    | with_reducible apply barArrive_keeps
    | split

end Sys2Proof.Machine
end

