-- ==== Sys2Proof/Laws/KeepsLinks.lean ====
section
/-! SUPPORT. What Machine/Links.lean does keeps the part, the queue and the canonical form of every sparse memory. -/

namespace Sys2Proof.Machine

theorem fabFlag_keeps {s₀ t : State} (h : Keeps s₀ t) (a1) : Keeps s₀ (fabFlag t a1) := by
  unfold fabFlag
  repeat' first
    | with_reducible assumption
    | with_reducible apply State.raise_keeps

theorem putPacket_keeps {s₀ t : State} (h : Keeps s₀ t) (a1 a2) : Keeps s₀ (putPacket t a1 a2) := by
  unfold putPacket
  extract_lets l0
  have hl0 : Keeps s₀ l0 := by
    dsimp only [l0]
    repeat' first
      | with_reducible assumption
      | with_reducible apply State.setPort_keeps
  clear_value l0
  repeat' first
    | with_reducible assumption
    | with_reducible apply State.bump_keeps
    | with_reducible apply State.emit_keeps

theorem sendWaiting_keeps {s₀ t : State} (h : Keeps s₀ t) (a0 a2) : Keeps s₀ (sendWaiting a0 t a2) := by
  induction a0 generalizing t a2 with
  | zero => exact h
  | succ k ih =>
  unfold sendWaiting
  repeat' first
    | with_reducible apply ih
    | with_reducible assumption
    | with_reducible apply State.setPort_keeps
    | with_reducible apply putPacket_keeps
    | split

theorem sendPacket_keeps {s₀ t : State} (h : Keeps s₀ t) (a1 a2) : Keeps s₀ (sendPacket t a1 a2) := by
  unfold sendPacket
  extract_lets l0 l1
  clear_value l0
  have hl1 : Keeps s₀ l1 := by
    dsimp only [l1]
    repeat' first
      | with_reducible assumption
      | with_reducible apply State.setPort_keeps
  clear_value l1
  repeat' first
    | with_reducible assumption
    | with_reducible apply sendWaiting_keeps
    | split

theorem sendTo_keeps {s₀ t : State} (h : Keeps s₀ t) (a1 a2) : Keeps s₀ (sendTo t a1 a2) := by
  unfold sendTo
  repeat' first
    | with_reducible assumption
    | with_reducible apply sendPacket_keeps
    | split

theorem startRetrain_keeps {s₀ t : State} (h : Keeps s₀ t) (a1) : Keeps s₀ (startRetrain t a1) := by
  unfold startRetrain
  extract_lets l0 l1 l2
  have hl0 : Keeps s₀ l0 := by
    dsimp only [l0]
    repeat' first
      | with_reducible assumption
      | with_reducible apply setPortState_keeps
  clear_value l0
  clear_value l1
  have hl2 : Keeps s₀ l2 := by
    dsimp only [l2]
    repeat' first
      | with_reducible assumption
      | with_reducible apply State.setPort_keeps
  clear_value l2
  repeat' first
    | with_reducible assumption
    | with_reducible apply fabFlag_keeps
    | with_reducible apply State.bump_keeps

theorem flitReceive_keeps {s₀ t : State} (h : Keeps s₀ t) (a1 a2 a3 a4) : Keeps s₀ (flitReceive t a1 a2 a3 a4) := by
  unfold flitReceive
  extract_lets l0 l1 l2 l3 l4 l5
  clear_value l0
  clear_value l1
  have hl2 : Keeps s₀ l2 := by
    dsimp only [l2]
    repeat' first
      | with_reducible assumption
      | with_reducible apply State.bump_keeps
      | split
  clear_value l2
  have hl3 : Keeps s₀ l3 := by
    dsimp only [l3]
    repeat' first
      | with_reducible assumption
      | with_reducible apply State.setPort_keeps
  clear_value l3
  have hl4 : Keeps s₀ l4 := by
    dsimp only [l4]
    repeat' first
      | with_reducible assumption
      | with_reducible apply State.emit_keeps
  clear_value l4
  clear_value l5
  repeat' first
    | with_reducible assumption
    | with_reducible apply State.setPort_keeps
    | with_reducible apply startRetrain_keeps
    | split

theorem replayFrom_keeps {s₀ t : State} (h : Keeps s₀ t) (a1 a2) : Keeps s₀ (replayFrom t a1 a2) := by
  unfold replayFrom
  extract_lets l0 l1 l2
  clear_value l0
  have hl1 : Keeps s₀ l1 := by
    dsimp only [l1]
    repeat' first
      | with_reducible assumption
      | with_reducible apply State.setPort_keeps
  clear_value l1
  have hl2 : Keeps s₀ l2 := by
    dsimp only [l2]
    repeat' first
      | with_reducible assumption
      | with_reducible apply State.bump_keeps
      | with_reducible apply State.emit_keeps
  clear_value l2
  repeat' first
    | with_reducible assumption
    | with_reducible apply fabFlag_keeps
    | with_reducible apply sendWaiting_keeps

theorem ackReceive_keeps {s₀ t : State} (h : Keeps s₀ t) (a1 a2 a3) : Keeps s₀ (ackReceive t a1 a2 a3) := by
  unfold ackReceive
  extract_lets l0 l1
  clear_value l0
  have hl1 : Keeps s₀ l1 := by
    dsimp only [l1]
    repeat' first
      | with_reducible assumption
      | with_reducible apply State.setPort_keeps
  clear_value l1
  repeat' first
    | with_reducible assumption
    | with_reducible apply replayFrom_keeps
    | with_reducible apply sendWaiting_keeps
    | split

theorem ackTimeout_keeps {s₀ t : State} (h : Keeps s₀ t) (a1) : Keeps s₀ (ackTimeout t a1) := by
  unfold ackTimeout
  repeat' first
    | with_reducible assumption
    | with_reducible apply startRetrain_keeps
    | split

theorem retrainWrite_keeps {s₀ t : State} (h : Keeps s₀ t) (a1 a2) : Keeps s₀ (retrainWrite t a1 a2) := by
  unfold retrainWrite
  repeat' first
    | with_reducible assumption
    | with_reducible apply startRetrain_keeps
    | split

theorem portTraining_keeps {s₀ t : State} (h : Keeps s₀ t) (a1) : Keeps s₀ (portTraining t a1) := by
  unfold portTraining
  extract_lets l0 l1
  have hl0 : Keeps s₀ l0 := by
    dsimp only [l0]
    repeat' first
      | with_reducible assumption
      | with_reducible apply setPortState_keeps
  clear_value l0
  clear_value l1
  repeat' first
    | with_reducible assumption
    | with_reducible apply State.setPort_keeps
    | split

theorem releasePort_keeps {s₀ t : State} (h : Keeps s₀ t) (a1) : Keeps s₀ (releasePort t a1) := by
  unfold releasePort
  extract_lets l0 l1
  clear_value l0
  have hl1 : Keeps s₀ l1 := by
    dsimp only [l1]
    repeat' first
      | with_reducible assumption
      | with_reducible apply sendWaiting_keeps
      | with_reducible apply State.setPort_keeps
  clear_value l1
  repeat' first
    | with_reducible assumption
    | with_reducible apply State.bump_keeps
    | with_reducible apply State.emit_keeps
    | with_reducible refine Keeps.foldl (fun _ _ _ => ?_) ?_

end Sys2Proof.Machine
end

