-- ==== Sys2Proof/Laws/KeepsTables.lean ====
section
/-! SUPPORT. What Machine/Tables.lean does keeps the part, the queue and the canonical form of every sparse memory. -/

namespace Sys2Proof.Machine

theorem setQuar_keeps {s₀ t : State} (h : Keeps s₀ t) (a1 a2) : Keeps s₀ (setQuar t a1 a2) := by
  unfold setQuar
  repeat' first
    | with_reducible assumption
    | split
    | with_reducible apply Keeps.update

theorem tabRead_keeps {s₀ t : State} (h : Keeps s₀ t) (a1 a2 a3) : Keeps s₀ (tabRead t a1 a2 a3).2 := by
  induction a3 generalizing t a1 a2 with
  | nil => exact h
  | cons x l ih =>
  unfold tabRead
  repeat' first
    | with_reducible apply ih
    | with_reducible assumption
    | with_reducible apply State.setReg_keeps
    | with_reducible apply State.bump_keeps
    | with_reducible apply State.raise_keeps
    | with_reducible apply setTabWord_keeps
    | with_reducible apply setQuar_keeps
    | dsimp only
    | split
theorem tabRead_keeps_eq {s₀ t r : State} {x0} (h : Keeps s₀ t) {a1 a2 a3} (hr : tabRead t a1 a2 a3 = (x0, r)) : Keeps s₀ r := by
  have := tabRead_keeps h a1 a2 a3
  rw [hr] at this
  exact this

theorem tabReadAll_keeps {s₀ t : State} (h : Keeps s₀ t) (a1 a2) : Keeps s₀ (tabReadAll t a1 a2).2 := by
  unfold tabReadAll
  repeat' first
    | with_reducible assumption
    | with_reducible apply tabRead_keeps
theorem tabReadAll_keeps_eq {s₀ t r : State} {x0} (h : Keeps s₀ t) {a1 a2} (hr : tabReadAll t a1 a2 = (x0, r)) : Keeps s₀ r := by
  have := tabReadAll_keeps h a1 a2
  rw [hr] at this
  exact this

theorem tabInject_keeps {s₀ t : State} (h : Keeps s₀ t) (a1 a2 a3) : Keeps s₀ (tabInject t a1 a2 a3) := by
  unfold tabInject
  extract_lets l0 l1 l2
  clear_value l0
  clear_value l1
  clear_value l2
  repeat' first
    | with_reducible assumption
    | with_reducible apply State.setReg_keeps
    | with_reducible apply setTabWord_keeps
    | split

theorem tabWrite_keeps {s₀ t : State} (h : Keeps s₀ t) (a1 a2 a3) : Keeps s₀ (tabWrite t a1 a2 a3) := by
  induction a3 generalizing t a1 a2 with
  | nil => exact h
  | cons x l ih =>
  unfold tabWrite
  repeat' first
    | with_reducible apply ih
    | with_reducible assumption
    | with_reducible apply setTabWord_keeps
    | with_reducible apply tabInject_keeps
    | split

theorem quarClear_keeps {s₀ t : State} (h : Keeps s₀ t) (a1 a2) : Keeps s₀ (quarClear t a1 a2) := by
  unfold quarClear
  extract_lets l0 l1 l2
  clear_value l0
  clear_value l1
  have hl2 : Keeps s₀ l2 := by
    dsimp only [l2]
    repeat' first
      | with_reducible assumption
      | with_reducible apply setQuar_keeps
  clear_value l2
  repeat' first
    | with_reducible assumption
    | with_reducible apply tabWrite_keeps
    | split

theorem genCheck_keeps {s₀ t : State} (h : Keeps s₀ t) (a1 a2) : Keeps s₀ (genCheck t a1 a2).2 := by
  unfold genCheck
  extract_lets l0
  have hl0 : Keeps s₀ l0.2 := by
    dsimp only [l0]
    repeat' first
      | with_reducible assumption
      | with_reducible apply tabRead_keeps
  clear_value l0
  repeat' first
    | with_reducible assumption
    | split
theorem genCheck_keeps_eq {s₀ t r : State} {x0} (h : Keeps s₀ t) {a1 a2} (hr : genCheck t a1 a2 = (x0, r)) : Keeps s₀ r := by
  have := genCheck_keeps h a1 a2
  rw [hr] at this
  exact this

theorem outstanding_keeps {s₀ t : State} (h : Keeps s₀ t) (a1 a2) : Keeps s₀ (outstanding t a1 a2) := by
  unfold outstanding
  extract_lets l0
  have hl0 : Keeps s₀ l0.2 := by
    dsimp only [l0]
    repeat' first
      | with_reducible assumption
      | with_reducible apply tabRead_keeps
  clear_value l0
  repeat' first
    | with_reducible assumption
    | with_reducible apply tabWrite_keeps
    | split

theorem checkedStart_keeps {s₀ t : State} (h : Keeps s₀ t) (a1 a2) : Keeps s₀ (checkedStart t a1 a2).2 := by
  unfold checkedStart
  extract_lets l0
  have hl0 : Keeps s₀ l0.2 := by
    dsimp only [l0]
    repeat' first
      | with_reducible assumption
      | with_reducible apply genCheck_keeps
  clear_value l0
  repeat' first
    | with_reducible assumption
    | with_reducible apply outstanding_keeps
    | split
theorem checkedStart_keeps_eq {s₀ t r : State} {x0} (h : Keeps s₀ t) {a1 a2} (hr : checkedStart t a1 a2 = (x0, r)) : Keeps s₀ r := by
  have := checkedStart_keeps h a1 a2
  rw [hr] at this
  exact this

theorem checkedReq_keeps {s₀ t : State} (h : Keeps s₀ t) (a1 a2) : Keeps s₀ (checkedReq t a1 a2).2 := by
  unfold checkedReq
  extract_lets l0
  have hl0 : Keeps s₀ l0.2 := by
    dsimp only [l0]
    repeat' first
      | with_reducible assumption
      | with_reducible apply genCheck_keeps
  clear_value l0
  repeat' first
    | with_reducible assumption
    | with_reducible apply State.bump_keeps
    | split
theorem checkedReq_keeps_eq {s₀ t r : State} {x0} (h : Keeps s₀ t) {a1 a2} (hr : checkedReq t a1 a2 = (x0, r)) : Keeps s₀ r := by
  have := checkedReq_keeps h a1 a2
  rw [hr] at this
  exact this

end Sys2Proof.Machine
end

