-- ==== Sys2Proof/Laws/KeepsHarrow.lean ====
section
/-! SUPPORT. What Machine/Harrow.lean does keeps the part, the queue and the canonical form of every sparse memory. -/

namespace Sys2Proof.Machine

theorem modHrw_keeps {s₀ t : State} (h : Keeps s₀ t) (a1 a2) : Keeps s₀ (modHrw t a1 a2) := by
  unfold modHrw
  repeat' first
    | with_reducible assumption
    | with_reducible refine State.modCore_same ?_ _ (fun _ => rfl) (fun _ => rfl) (fun _ => rfl)

theorem hrwFlag_keeps {s₀ t : State} (h : Keeps s₀ t) (a1 a2) : Keeps s₀ (hrwFlag t a1 a2) := by
  unfold hrwFlag
  repeat' first
    | with_reducible assumption
    | with_reducible apply State.raise_keeps

theorem tblLoad_keeps {s₀ t : State} (h : Keeps s₀ t) (a1 a2 a3 a4 a5) : Keeps s₀ (tblLoad t a1 a2 a3 a4 a5) := by
  unfold tblLoad
  extract_lets l0 l1
  have hl1 : Keeps s₀ l1 := by
    dsimp only [l1]
    repeat' first
      | with_reducible assumption
      | with_reducible apply modHrw_keeps
  clear_value l1
  repeat' first
    | with_reducible assumption
    | with_reducible apply State.setReg_keeps
    | with_reducible apply hrwFlag_keeps
    | split
    | with_reducible apply Keeps.ite

theorem tblInvalidate_keeps {s₀ t : State} (h : Keeps s₀ t) (a1 a2) : Keeps s₀ (tblInvalidate t a1 a2) := by
  unfold tblInvalidate
  repeat' first
    | with_reducible assumption
    | with_reducible apply State.setReg_keeps
    | with_reducible apply hrwFlag_keeps
    | with_reducible apply modHrw_keeps
    | dsimp only
    | split

theorem tblLoadDone_keeps {s₀ t : State} (h : Keeps s₀ t) (a1) : Keeps s₀ (tblLoadDone t a1) := by
  unfold tblLoadDone
  repeat' first
    | with_reducible assumption
    | with_reducible apply spmRead_keeps
    | with_reducible apply countStall_keeps
    | with_reducible apply modHrw_keeps
    | with_reducible apply hrwFlag_keeps
    | with_reducible apply State.setReg_keeps
    | dsimp only
    | split

theorem setLane_keeps {s₀ t : State} (h : Keeps s₀ t) (a1 a2 a3) : Keeps s₀ (setLane t a1 a2 a3) := by
  unfold setLane
  repeat' first
    | with_reducible assumption
    | with_reducible apply modHrw_keeps

theorem hrwFail_keeps {s₀ t : State} (h : Keeps s₀ t) (a1 a2 a3 a4 a5) : Keeps s₀ (hrwFail t a1 a2 a3 a4 a5) := by
  unfold hrwFail
  extract_lets l0 l1 l2
  have hl0 : Keeps s₀ l0 := by
    dsimp only [l0]
    repeat' first
      | with_reducible assumption
      | with_reducible apply hrwFlag_keeps
  clear_value l0
  have hl1 : Keeps s₀ l1 := by
    dsimp only [l1]
    repeat' first
      | with_reducible assumption
      | with_reducible apply State.bump_keeps
  clear_value l1
  clear_value l2
  repeat' first
    | with_reducible assumption
    | with_reducible apply State.setReg_keeps

theorem modStream_keeps {s₀ t : State} (h : Keeps s₀ t) (a1 a2 a3) : Keeps s₀ (modStream t a1 a2 a3) := by
  unfold modStream
  repeat' first
    | with_reducible assumption
    | with_reducible apply modHrw_keeps

theorem laneFree_keeps {s₀ t : State} (h : Keeps s₀ t) (a1 a2) : Keeps s₀ (laneFree t a1 a2) := by
  unfold laneFree
  extract_lets l0 l1 l2
  clear_value l0
  have hl1 : Keeps s₀ l1 := by
    dsimp only [l1]
    repeat' first
      | with_reducible assumption
      | with_reducible apply setLane_keeps
  clear_value l1
  have hl2 : Keeps s₀ l2 := by
    dsimp only [l2]
    repeat' first
      | with_reducible assumption
      | with_reducible apply State.bump_keeps
  clear_value l2
  repeat' first
    | with_reducible assumption
    | with_reducible apply State.bump_keeps
    | dsimp only
    | split

theorem closeStream_keeps {s₀ t : State} (h : Keeps s₀ t) (a1 a2) : Keeps s₀ (closeStream t a1 a2) := by
  unfold closeStream
  extract_lets l0
  have hl0 : Keeps s₀ l0 := by
    dsimp only [l0]
    repeat' first
      | with_reducible assumption
      | with_reducible apply laneFree_keeps
      | with_reducible refine Keeps.foldl (fun _ _ _ => ?_) ?_
      | split
  clear_value l0
  repeat' first
    | with_reducible assumption
    | with_reducible apply modHrw_keeps

theorem pastRow_keeps {s₀ t : State} (h : Keeps s₀ t) (a1 a2 a3) : Keeps s₀ (pastRow t a1 a2 a3) := by
  unfold pastRow
  repeat' first
    | with_reducible assumption
    | with_reducible apply modStream_keeps

theorem rowsOut_keeps {s₀ t : State} (h : Keeps s₀ t) (a0 a2 a3 a4) : Keeps s₀ (rowsOut a0 t a2 a3 a4) := by
  induction a0 generalizing t a2 a3 a4 with
  | zero => exact h
  | succ k ih =>
  unfold rowsOut
  repeat' first
    | with_reducible apply ih
    | with_reducible assumption
    | with_reducible apply spmWrite_keeps
    | with_reducible apply closeStream_keeps
    | with_reducible apply pastRow_keeps
    | dsimp only
    | split

theorem writeRows_keeps {s₀ t : State} (h : Keeps s₀ t) (a1 a2) : Keeps s₀ (writeRows t a1 a2) := by
  unfold writeRows
  repeat' first
    | with_reducible assumption
    | with_reducible apply rowsOut_keeps
    | with_reducible refine Keeps.foldl (fun _ _ _ => ?_) ?_
    | split

theorem laneStart_keeps {s₀ t : State} (h : Keeps s₀ t) (a1 a2) : Keeps s₀ (laneStart t a1 a2) := by
  unfold laneStart
  extract_lets l0 l1
  clear_value l0
  clear_value l1
  repeat' first
    | with_reducible assumption
    | with_reducible apply setLane_keeps
    | with_reducible apply hrwFail_keeps
    | with_reducible apply modStream_keeps
    | with_reducible apply writeRows_keeps
    | dsimp only
    | split

theorem deliverRows_keeps {s₀ t : State} (h : Keeps s₀ t) (a1 a2 a3 a4 a5) : Keeps s₀ (deliverRows t a1 a2 a3 a4 a5) := by
  unfold deliverRows
  repeat' first
    | with_reducible assumption
    | with_reducible apply spmWrite_keeps
    | with_reducible refine Keeps.foldl (fun _ _ _ => ?_) ?_

theorem laneDone_keeps {s₀ t : State} (h : Keeps s₀ t) (a1 a2) : Keeps s₀ (laneDone t a1 a2) := by
  unfold laneDone
  extract_lets l0
  clear_value l0
  repeat' first
    | with_reducible assumption
    | with_reducible apply laneFree_keeps
    | with_reducible apply modStream_keeps
    | with_reducible apply deliverRows_keeps
    | with_reducible apply modHrw_keeps
    | dsimp only
    | split

theorem encFetch_keeps {s₀ t : State} (h : Keeps s₀ t) (a1 a2 a3 a4) : Keeps s₀ (encFetch t a1 a2 a3 a4).2 := by
  unfold encFetch
  extract_lets l0
  have hl0 : Keeps s₀ l0.st := by
    dsimp only [l0]
    repeat' first
      | with_reducible assumption
      | with_reducible apply spmRead_keeps
  clear_value l0
  repeat' first
    | with_reducible assumption
    | with_reducible apply countStall_keeps
theorem encFetch_keeps_eq {s₀ t r : State} {x0} (h : Keeps s₀ t) {a1 a2 a3 a4} (hr : encFetch t a1 a2 a3 a4 = (x0, r)) : Keeps s₀ r := by
  have := encFetch_keeps h a1 a2 a3 a4
  rw [hr] at this
  exact this

theorem encRead_keeps {s₀ t : State} (h : Keeps s₀ t) (a1 a2) : Keeps s₀ (encRead t a1 a2) := by
  unfold encRead
  repeat' first
    | with_reducible assumption
    | with_reducible apply encFetch_keeps
    | with_reducible apply modHrw_keeps
    | dsimp only
    | split

theorem encChanRaw_keeps {s₀ t : State} (h : Keeps s₀ t) (a1 a2) : Keeps s₀ (encChanRaw t a1 a2).2 := by
  unfold encChanRaw
  repeat' first
    | with_reducible assumption
    | with_reducible apply encFetch_keeps
    | with_reducible refine Keeps.foldlSnd (fun _ _ _ => ?_) ?_
theorem encChanRaw_keeps_eq {s₀ t r : State} {x0} (h : Keeps s₀ t) {a1 a2} (hr : encChanRaw t a1 a2 = (x0, r)) : Keeps s₀ r := by
  have := encChanRaw_keeps h a1 a2
  rw [hr] at this
  exact this

theorem encBuild_keeps {s₀ t : State} (h : Keeps s₀ t) (a1 a2 a3) : Keeps s₀ (encBuild t a1 a2 a3).2 := by
  unfold encBuild
  extract_lets l0 l1 l2
  clear_value l0
  have hl1 : Keeps s₀ l1 := by
    dsimp only [l1]
    repeat' first
      | with_reducible assumption
      | with_reducible apply hrwFlag_keeps
      | split
  clear_value l1
  have hl2 : Keeps s₀ l2 := by
    dsimp only [l2]
    repeat' first
      | with_reducible assumption
      | with_reducible apply State.bump_keeps
  clear_value l2
  repeat' first
    | with_reducible assumption
    | with_reducible apply State.bump_keeps
    | dsimp only
    | split
theorem encBuild_keeps_eq {s₀ t r : State} {x0} (h : Keeps s₀ t) {a1 a2 a3} (hr : encBuild t a1 a2 a3 = (x0, r)) : Keeps s₀ r := by
  have := encBuild_keeps h a1 a2 a3
  rw [hr] at this
  exact this

theorem encodeNext_keeps_eq {s₀ t r : State} {x c} (h : Keeps s₀ t) {a1} (hr : encodeNext t a1 = some (x, c, r)) : Keeps s₀ r := by
  unfold encodeNext at hr
  split at hr
  · cases hr
  · split at hr
    · cases hr
      exact modHrw_keeps (encBuild_keeps (encChanRaw_keeps h _ _) _ _ _) _ _
    · split at hr
      · cases hr
      · split at hr
        · cases hr
          exact modHrw_keeps (encBuild_keeps h _ _ _) _ _
        · cases hr


theorem decodeOpen_keeps {s₀ t : State} (h : Keeps s₀ t) (a1 a2 a3 a4 a5 a6) : Keeps s₀ (decodeOpen t a1 a2 a3 a4 a5 a6) := by
  unfold decodeOpen
  repeat' first
    | with_reducible assumption
    | with_reducible apply modHrw_keeps

theorem chanLanesWrite_keeps {s₀ t : State} (h : Keeps s₀ t) (a1 a2) : Keeps s₀ (chanLanesWrite t a1 a2) := by
  unfold chanLanesWrite
  repeat' first
    | with_reducible assumption
    | with_reducible apply hrwFlag_keeps
    | with_reducible apply State.setReg_keeps
    | split

end Sys2Proof.Machine
end

