-- ==== Sys2Proof/Laws/KeepsSkidder.lean ====
section
/-! SUPPORT. What Machine/Skidder.lean does keeps the part, the queue and the canonical form of every sparse memory. -/

namespace Sys2Proof.Machine

theorem omapFail_keeps {s₀ t : State} (h : Keeps s₀ t) (a1) : Keeps s₀ (omapFail t a1) := by
  unfold omapFail
  repeat' first
    | with_reducible assumption
    | with_reducible apply State.bump_keeps
    | with_reducible apply State.setReg_keeps

theorem State.setChan_keeps {s₀ t : State} (h : Keeps s₀ t) (a1 a2 a3) : Keeps s₀ (State.setChan t a1 a2 a3) := by
  unfold State.setChan
  repeat' first
    | with_reducible assumption
    | with_reducible apply Keeps.update

theorem State.setSkq_keeps {s₀ t : State} (h : Keeps s₀ t) (a1 a2) : Keeps s₀ (State.setSkq t a1 a2) := by
  unfold State.setSkq
  repeat' first
    | with_reducible assumption
    | with_reducible apply Keeps.update

theorem State.setBkr_keeps {s₀ t : State} (h : Keeps s₀ t) (a1 a2) : Keeps s₀ (State.setBkr t a1 a2) := by
  unfold State.setBkr
  repeat' first
    | with_reducible assumption
    | with_reducible apply Keeps.update

theorem setXfer_keeps {s₀ t : State} (h : Keeps s₀ t) (a1 a2) : Keeps s₀ (setXfer t a1 a2) := by
  unfold setXfer
  repeat' first
    | with_reducible assumption
    | with_reducible apply State.setChan_keeps
    | with_reducible apply State.setSkq_keeps
    | with_reducible apply State.setBkr_keeps
    | dsimp only
    | split

theorem modXfer_keeps {s₀ t : State} (h : Keeps s₀ t) (a1 a2) : Keeps s₀ (modXfer t a1 a2) := by
  unfold modXfer
  repeat' first
    | with_reducible assumption
    | with_reducible apply setXfer_keeps
    | split

theorem addWaiter_keeps {s₀ t : State} (h : Keeps s₀ t) (a1 a2) : Keeps s₀ (addWaiter t a1 a2) := by
  unfold addWaiter
  extract_lets l0
  have hl0 : Keeps s₀ l0 := by
    dsimp only [l0]
    repeat' first
      | with_reducible assumption
      | with_reducible apply Keeps.update
  clear_value l0
  repeat' first
    | with_reducible assumption
    | with_reducible apply offAccess_keeps
    | with_reducible apply countStall_keeps
    | split

theorem issueTxn_keeps {s₀ t : State} (h : Keeps s₀ t) (a1 a2 a3 a4 a5 a6 a7 a8 a9) : Keeps s₀ (issueTxn t a1 a2 a3 a4 a5 a6 a7 a8 a9) := by
  unfold issueTxn
  extract_lets l0 l1 l2 l3 l4 l5 l6
  clear_value l0
  clear_value l1
  clear_value l2
  have hl3 : Keeps s₀ l3 := by
    dsimp only [l3]
    repeat' first
      | with_reducible assumption
      | with_reducible apply offAccess_keeps
      | split
  clear_value l3
  clear_value l4
  clear_value l5
  have hl6 : Keeps s₀ l6 := by
    dsimp only [l6]
    repeat' first
      | with_reducible assumption
      | split
      | with_reducible apply Keeps.update
  clear_value l6
  repeat' first
    | with_reducible assumption
    | with_reducible apply sendTo_keeps
    | split

theorem countMoved_keeps {s₀ t : State} (h : Keeps s₀ t) (a1 a2) : Keeps s₀ (countMoved t a1 a2) := by
  unfold countMoved
  extract_lets l0
  have hl0 : Keeps s₀ l0 := by
    dsimp only [l0]
    repeat' first
      | with_reducible assumption
      | with_reducible apply modXfer_keeps
  clear_value l0
  repeat' first
    | with_reducible assumption
    | with_reducible apply State.bump_keeps
    | split

theorem xferGenOk_keeps {s₀ t : State} (h : Keeps s₀ t) (a1) : Keeps s₀ (xferGenOk t a1).2 := by
  unfold xferGenOk
  repeat' first
    | with_reducible assumption
    | with_reducible apply checkedReq_keeps
    | split
theorem xferGenOk_keeps_eq {s₀ t r : State} {x0} (h : Keeps s₀ t) {a1} (hr : xferGenOk t a1 = (x0, r)) : Keeps s₀ r := by
  have := xferGenOk_keeps h a1
  rw [hr] at this
  exact this

theorem sendBytes_keeps {s₀ t : State} (h : Keeps s₀ t) (a1 a2 a3 a4 a5) : ∀ r, sendBytes t a1 a2 a3 a4 a5 = some r → Keeps s₀ r := by
  unfold sendBytes
  extract_lets l0 l1 l2 l3 l4
  have hl1 : Keeps s₀ l1.2 := by
    dsimp only [l1]
    repeat' first
      | with_reducible assumption
      | with_reducible apply xferGenOk_keeps
  clear_value l1
  clear_value l2
  clear_value l3
  repeat' first
    | with_reducible assumption
    | (intro _ hr; with_reducible cases hr)
    | with_reducible apply modXfer_keeps
    | with_reducible apply countMoved_keeps
    | with_reducible apply spmWrite_keeps
    | with_reducible apply issueTxn_keeps
    | with_reducible apply wsDrop_keeps
    | with_reducible apply omapFail_keeps
    | with_reducible apply State.raise_keeps
    | with_reducible apply State.bump_keeps
    | split
    | with_reducible apply Keeps.ite
theorem sendBytes_keeps_eq {s₀ t r : State} (h : Keeps s₀ t) {a1 a2 a3 a4 a5} (hr : sendBytes t a1 a2 a3 a4 a5 = some r) : Keeps s₀ r :=
  sendBytes_keeps h a1 a2 a3 a4 a5 _ hr

/-- What the beginning of a read keeps. -/
def StartKeeps (s₀ : State) : ReadStart → Prop
  | .got _ t => Keeps s₀ t
  | .sent t => Keeps s₀ t
  | .full _ => True
  | .lost => True

theorem startRead_keeps {s₀ t : State} (h : Keeps s₀ t) (a1 a2 a3 a4 a5 a6) : StartKeeps s₀ (startRead t a1 a2 a3 a4 a5 a6) := by
  unfold startRead
  extract_lets stopped send
  have hstop (u : State) (hu : Keeps s₀ u) (c : Nat) : StartKeeps s₀ (stopped u c) := modXfer_keeps hu _ _
  have hsend (p : Nat) (host) : StartKeeps s₀ (send p host) := by
    dsimp only [send]
    split
    · exact issueTxn_keeps h _ _ _ _ _ _ _ _ _
    · trivial
  clear_value stopped send
  split
  · split
    · trivial
    · exact spmReadAsync_keeps h _ _ _
  · exact hsend _ _
  · exact hsend _ _
  · split
    · exact hstop _ (omapFail_keeps h _) _
    · exact hsend _ _
  · exact h
  · split
    · trivial
    · exact hsend _ _
  · exact hstop _ (State.raise_keeps (State.bump_keeps h _ _) _ _) _
  · exact hstop _ h _

theorem startRead_got {s₀ t r : State} {bs} (h : Keeps s₀ t) {a1 a2 a3 a4 a5 a6} (hr : startRead t a1 a2 a3 a4 a5 a6 = .got bs r) :
    Keeps s₀ r := by
  have := startRead_keeps h a1 a2 a3 a4 a5 a6
  rw [hr] at this
  exact this

theorem startRead_sent {s₀ t r : State} (h : Keeps s₀ t) {a1 a2 a3 a4 a5 a6} (hr : startRead t a1 a2 a3 a4 a5 a6 = .sent r) :
    Keeps s₀ r := by
  have := startRead_keeps h a1 a2 a3 a4 a5 a6
  rw [hr] at this
  exact this

theorem passOn_keeps {s₀ t : State} (h : Keeps s₀ t) (a1 a2 a3 a4 a5) : Keeps s₀ (passOn t a1 a2 a3 a4 a5) := by
  unfold passOn
  extract_lets l0 l1
  have hl0 : Keeps s₀ l0 := by
    dsimp only [l0]
    repeat' first
      | with_reducible assumption
      | with_reducible apply modXfer_keeps
      | split
  clear_value l0
  repeat' first
    | with_reducible assumption
    | with_reducible apply setXfer_keeps
    | with_reducible apply modXfer_keeps
    | with_reducible apply addWaiter_keeps
    | refine sendBytes_keeps_eq ?_ (by assumption)
    | split

theorem passOrdered_keeps {s₀ t : State} (h : Keeps s₀ t) (a0 a2 a3) : Keeps s₀ (passOrdered a0 t a2 a3) := by
  induction a0 generalizing t a2 a3 with
  | zero => exact h
  | succ k ih =>
  unfold passOrdered
  repeat' first
    | with_reducible apply ih
    | with_reducible assumption
    | with_reducible apply modXfer_keeps
    | with_reducible apply passOn_keeps
    | dsimp only
    | split

theorem passData_keeps {s₀ t : State} (h : Keeps s₀ t) (a1 a2 a3 a4 a5) : Keeps s₀ (passData t a1 a2 a3 a4 a5) := by
  unfold passData
  repeat' first
    | with_reducible assumption
    | with_reducible apply passOrdered_keeps
    | with_reducible apply setXfer_keeps
    | with_reducible apply passOn_keeps
    | split

theorem lostRead_keeps {s₀ t : State} (h : Keeps s₀ t) (a1 a2 a3 a4 a5) : Keeps s₀ (lostRead t a1 a2 a3 a4 a5) := by
  unfold lostRead
  extract_lets l0
  have hl0 : Keeps s₀ l0 := by
    dsimp only [l0]
    repeat' first
      | with_reducible assumption
      | with_reducible apply passOn_keeps
      | split
  clear_value l0
  repeat' first
    | with_reducible assumption
    | with_reducible apply modXfer_keeps

theorem openChanStream_keeps {s₀ t : State} (h : Keeps s₀ t) (a1 a2 a3) : Keeps s₀ (openChanStream t a1 a2 a3) := by
  unfold openChanStream
  extract_lets l0 l1 l2 l3
  clear_value l0
  clear_value l1
  clear_value l2
  clear_value l3
  repeat' first
    | with_reducible assumption
    | with_reducible apply modHrw_keeps
    | split

theorem blockEnter_keeps {s₀ t : State} (h : Keeps s₀ t) (a1 a2 a3 a4) : Keeps s₀ (blockEnter t a1 a2 a3 a4).1 := by
  unfold blockEnter
  repeat' first
    | with_reducible assumption
    | with_reducible apply setLane_keeps
    | dsimp only
    | split
theorem blockEnter_keeps_eq {s₀ t r : State} {x0} (h : Keeps s₀ t) {a1 a2 a3 a4} (hr : blockEnter t a1 a2 a3 a4 = (r, x0)) : Keeps s₀ r := by
  have := blockEnter_keeps h a1 a2 a3 a4
  rw [hr] at this
  exact this

theorem blockArrived_keeps {s₀ t : State} (h : Keeps s₀ t) (a1 a2 a3) : Keeps s₀ (blockArrived t a1 a2 a3) := by
  unfold blockArrived
  extract_lets l0 l1 l2 l3 l4 l5 l6
  clear_value l1
  clear_value l2
  have hl5 : Keeps s₀ l5 := by
    dsimp only [l5]
    repeat' first
      | with_reducible assumption
      | with_reducible apply passOn_keeps
  clear_value l5
  have hl6 : Keeps s₀ l6 := by
    dsimp only [l6]
    repeat' first
      | with_reducible assumption
      | with_reducible apply passOn_keeps
      | with_reducible refine Keeps.foldl (fun _ _ _ => ?_) ?_
  clear_value l6
  repeat' first
    | with_reducible assumption
    | with_reducible apply modXfer_keeps
    | with_reducible apply setLane_keeps
    | with_reducible apply countMoved_keeps
    | dsimp only
    | split

theorem blockStep_keeps {s₀ t : State} (h : Keeps s₀ t) (a1 a2 a3) : Keeps s₀ (blockStep t a1 a2 a3).1 := by
  unfold blockStep
  extract_lets b absorb
  have ha (u : State) (hu : Keeps s₀ u) (r : ReadStart) (hr : StartKeeps s₀ r) (len : Nat) (keep : List PByte → Xfer → Xfer) :
      Keeps s₀ (absorb u r len keep).1 := by
    dsimp only [absorb]
    cases r with
    | got bs s => exact modXfer_keeps hr _ _
    | sent s => exact hr
    | full p => exact addWaiter_keeps hu _ _
    | lost => exact modXfer_keeps hu _ _
  clear_value absorb
  split
  · exact h
  split
  · exact ha _ h _ (startRead_keeps h _ _ _ _ _ _) _ _
  extract_lets s1 x2 n s2 r
  have h1 : Keeps s₀ s1 := by
    dsimp only [s1]
    split
    · split
      · exact modXfer_keeps h _ _
      · exact h
    · exact h
  have h2 : Keeps s₀ s2 := by
    dsimp only [s2]
    split
    · split
      · exact openChanStream_keeps h1 _ _ _
      · exact h1
    · exact h1
  have h3 : Keeps s₀ r.1 := by
    dsimp only [r]
    split
    · exact blockEnter_keeps h2 _ _ _ _
    · exact h2
  clear_value r s2 n x2 s1
  split
  · exact h3
  split
  · exact ha _ h3 _ (startRead_keeps h3 _ _ _ _ _ _) _ _
  · exact blockArrived_keeps h3 _ _ _
theorem blockStep_keeps_eq {s₀ t r : State} {x0} (h : Keeps s₀ t) {a1 a2 a3} (hr : blockStep t a1 a2 a3 = (r, x0)) : Keeps s₀ r := by
  have := blockStep_keeps h a1 a2 a3
  rw [hr] at this
  exact this

theorem deliverBlock_keeps {s₀ t : State} (h : Keeps s₀ t) (a1 a2) : Keeps s₀ (deliverBlock t a1 a2) := by
  unfold deliverBlock
  extract_lets l0 l1
  have hl1 : Keeps s₀ l1 := by
    dsimp only [l1]
    repeat' first
      | with_reducible assumption
      | with_reducible apply modXfer_keeps
  clear_value l1
  repeat' first
    | with_reducible assumption
    | with_reducible apply passOn_keeps
    | with_reducible refine Keeps.foldl (fun _ _ _ => ?_) ?_
    | dsimp only
    | split

theorem encDeliver_keeps {s₀ t : State} (h : Keeps s₀ t) (a1) : Keeps s₀ (encDeliver t a1) := by
  unfold encDeliver
  repeat' first
    | with_reducible assumption
    | with_reducible apply deliverBlock_keeps
    | with_reducible apply modHrw_keeps
    | split

theorem moveOn_keeps {s₀ t : State} (h : Keeps s₀ t) (a1 a2) : Keeps s₀ (moveOn t a1 a2).1 := by
  unfold moveOn
  repeat' first
    | with_reducible assumption
    | with_reducible apply modXfer_keeps
    | with_reducible apply addWaiter_keeps
    | with_reducible apply passData_keeps
    | with_reducible apply lostRead_keeps
    | with_reducible apply blockStep_keeps
    | refine startRead_got ?_ (by assumption)
    | refine startRead_sent ?_ (by assumption)
    | refine sendBytes_keeps_eq ?_ (by assumption)
    | dsimp only
    | split
theorem moveOn_keeps_eq {s₀ t r : State} {x0} (h : Keeps s₀ t) {a1 a2} (hr : moveOn t a1 a2 = (r, x0)) : Keeps s₀ r := by
  have := moveOn_keeps h a1 a2
  rw [hr] at this
  exact this

theorem pump_keeps {s₀ t : State} (h : Keeps s₀ t) (a0 a2) : Keeps s₀ (pump a0 t a2) := by
  induction a0 generalizing t a2 with
  | zero => exact h
  | succ k ih =>
  unfold pump
  repeat' first
    | with_reducible apply ih
    | extract_lets
    | with_reducible assumption
    | with_reducible apply moveOn_keeps
    | split

theorem pumpAll_keeps {s₀ t : State} (h : Keeps s₀ t) (a1) : Keeps s₀ (pumpAll t a1) := by
  unfold pumpAll
  extract_lets l0
  have hl0 : Keeps s₀ l0 := by
    dsimp only [l0]
    repeat' first
      | with_reducible assumption
      | with_reducible apply pump_keeps
      | split
  clear_value l0
  repeat' first
    | with_reducible assumption
    | with_reducible apply encDeliver_keeps
    | split

theorem pumpScratch_keeps {s₀ t : State} (h : Keeps s₀ t) (a1) : Keeps s₀ (pumpScratch t a1) := by
  unfold pumpScratch
  extract_lets l0
  clear_value l0
  repeat' first
    | with_reducible assumption
    | with_reducible apply pumpAll_keeps
    | with_reducible refine Keeps.foldl (fun _ _ _ => ?_) ?_
    | with_reducible apply Keeps.update

theorem budgetGrant_keeps {s₀ t : State} (h : Keeps s₀ t) (a1 a2) : Keeps s₀ (budgetGrant t a1 a2) := by
  unfold budgetGrant
  extract_lets l0
  have hl0 : Keeps s₀ l0 := by
    dsimp only [l0]
    repeat' first
      | with_reducible assumption
      | with_reducible apply State.bump_keeps
      | split
  clear_value l0
  repeat' first
    | with_reducible assumption
    | with_reducible apply moveOn_keeps
    | with_reducible apply addWaiter_keeps
    | with_reducible apply pumpAll_keeps
    | dsimp only
    | split
    | with_reducible apply Keeps.update

theorem replyBytes_keeps {s₀ t : State} (h : Keeps s₀ t) (a1 a2 a3) : Keeps s₀ (replyBytes t a1 a2 a3).2 := by
  unfold replyBytes
  extract_lets l0 l1
  clear_value l0
  clear_value l1
  repeat' first
    | with_reducible assumption
    | with_reducible apply nmRead_keeps
    | with_reducible apply wsDrop_keeps
    | split
theorem replyBytes_keeps_eq {s₀ t r : State} {x0} (h : Keeps s₀ t) {a1 a2 a3} (hr : replyBytes t a1 a2 a3 = (x0, r)) : Keeps s₀ r := by
  have := replyBytes_keeps h a1 a2 a3
  rw [hr] at this
  exact this

theorem takeRead_keeps {s₀ t : State} (h : Keeps s₀ t) (a1 a2) : Keeps s₀ (takeRead t a1 a2) := by
  unfold takeRead
  repeat' first
    | with_reducible assumption
    | with_reducible apply modXfer_keeps
    | with_reducible apply passData_keeps
    | split

theorem failRead_keeps {s₀ t : State} (h : Keeps s₀ t) (a1 a2) : Keeps s₀ (failRead t a1 a2) := by
  unfold failRead
  repeat' first
    | with_reducible assumption
    | with_reducible apply modXfer_keeps
    | with_reducible apply takeRead_keeps
    | with_reducible apply lostRead_keeps
    | split

theorem takeWrite_keeps {s₀ t : State} (h : Keeps s₀ t) (a1) : Keeps s₀ (takeWrite t a1) := by
  unfold takeWrite
  extract_lets l0 l1
  have hl0 : Keeps s₀ l0.2 := by
    dsimp only [l0]
    repeat' first
      | with_reducible assumption
      | with_reducible apply xferGenOk_keeps
  clear_value l0
  have hl1 : Keeps s₀ l1 := by
    dsimp only [l1]
    repeat' first
      | with_reducible assumption
      | with_reducible apply countMoved_keeps
  clear_value l1
  repeat' first
    | with_reducible assumption
    | with_reducible apply countMoved_keeps
    | with_reducible apply nmWrite_keeps
    | with_reducible apply modXfer_keeps
    | with_reducible apply State.emit_keeps
    | with_reducible apply State.bump_keeps
    | dsimp only
    | split

theorem headAck_keeps {s₀ t : State} (h : Keeps s₀ t) (a1 a2) : Keeps s₀ (headAck t a1 a2) := by
  unfold headAck
  repeat' first
    | with_reducible assumption
    | with_reducible apply Keeps.update

theorem memoryReply_keeps {s₀ t : State} (h : Keeps s₀ t) (a1 a2 a3) : Keeps s₀ (memoryReply t a1 a2 a3) := by
  unfold memoryReply
  extract_lets l0 l1
  have hl1 : Keeps s₀ l1 := by
    dsimp only [l1]
    repeat' first
      | with_reducible assumption
      | with_reducible apply Keeps.update
  clear_value l1
  repeat' first
    | with_reducible assumption
    | with_reducible apply State.bump_keeps
    | with_reducible apply headAck_keeps
    | with_reducible apply modXfer_keeps
    | with_reducible apply failRead_keeps
    | with_reducible apply takeWrite_keeps
    | with_reducible apply replyBytes_keeps
    | with_reducible apply xferGenOk_keeps
    | with_reducible apply takeRead_keeps
    | with_reducible apply pumpAll_keeps
    | dsimp only
    | split
    | with_reducible apply Keeps.update

theorem rangeCode_keeps {s₀ t : State} (h : Keeps s₀ t) (a1 a2 a3) : ∀ r, rangeCode t a1 a2 a3 = some r → Keeps s₀ r.2 := by
  unfold rangeCode
  repeat' first
    | with_reducible assumption
    | (intro _ hr; with_reducible cases hr)
    | with_reducible apply State.raise_keeps
    | with_reducible apply State.bump_keeps
    | with_reducible apply omapFail_keeps
    | (intro r hr; obtain ⟨w, _, rfl⟩ := Option.map_eq_some_iff.mp hr; dsimp only)
    | split
theorem rangeCode_keeps_eq {s₀ t r : State} {x} (h : Keeps s₀ t) {a1 a2 a3} (hr : rangeCode t a1 a2 a3 = some (x, r)) : Keeps s₀ r :=
  rangeCode_keeps h a1 a2 a3 _ hr

theorem startXfer_keeps {s₀ t : State} (h : Keeps s₀ t) (a1) : Keeps s₀ (startXfer t a1).2 := by
  unfold startXfer
  split
  · exact h
  split
  · next heq =>
    obtain ⟨_, _, hr⟩ := List.exists_of_findSome?_eq_some heq
    exact rangeCode_keeps_eq h hr
  · repeat' first
    | extract_lets
    | with_reducible assumption
    | with_reducible apply checkedStart_keeps
    | split
theorem startXfer_keeps_eq {s₀ t r : State} {x0} (h : Keeps s₀ t) {a1} (hr : startXfer t a1 = (x0, r)) : Keeps s₀ r := by
  have := startXfer_keeps h a1
  rw [hr] at this
  exact this

theorem uncount_keeps {s₀ t : State} (h : Keeps s₀ t) (a1) : Keeps s₀ (uncount t a1) := by
  unfold uncount
  repeat' first
    | with_reducible assumption
    | with_reducible apply outstanding_keeps
    | split

theorem dropRequests_keeps {s₀ t : State} (h : Keeps s₀ t) (a1) : Keeps s₀ (dropRequests t a1) := by
  unfold dropRequests
  repeat' first
    | with_reducible assumption
    | with_reducible apply Keeps.update

theorem finishSkq_keeps {s₀ t : State} (h : Keeps s₀ t) (a1 a2 a3) : Keeps s₀ (finishSkq t a1 a2 a3) := by
  unfold finishSkq
  extract_lets l0 l1
  have hl0 : Keeps s₀ l0 := by
    dsimp only [l0]
    repeat' first
      | with_reducible assumption
      | with_reducible apply dropRequests_keeps
  clear_value l0
  have hl1 : Keeps s₀ l1 := by
    dsimp only [l1]
    repeat' first
      | with_reducible assumption
      | with_reducible apply State.setSkq_keeps
  clear_value l1
  repeat' first
    | with_reducible assumption
    | with_reducible apply uncount_keeps
    | with_reducible apply State.bump_keeps
    | with_reducible apply State.setReg_keeps
    | with_reducible apply State.raise_keeps
    | with_reducible apply semPost_keeps
    | dsimp only
    | split

theorem skqComplete_keeps {s₀ t : State} (h : Keeps s₀ t) (a1 a2) : Keeps s₀ (skqComplete t a1 a2) := by
  unfold skqComplete
  repeat' first
    | with_reducible assumption
    | with_reducible apply finishSkq_keeps
    | split

theorem dropChanCoding_keeps {s₀ t : State} (h : Keeps s₀ t) (a1 a2) : Keeps s₀ (dropChanCoding t a1 a2) := by
  unfold dropChanCoding
  extract_lets l0
  repeat' first
    | with_reducible assumption
    | with_reducible apply modHrw_keeps
    | ((with_reducible conv => arg 2; whnf); split)

theorem finishChan_keeps {s₀ t : State} (h : Keeps s₀ t) (a1 a2 a3) : Keeps s₀ (finishChan t a1 a2 a3) := by
  unfold finishChan
  extract_lets l0
  have hl0 : Keeps s₀ l0 := by
    dsimp only [l0]
    repeat' first
      | with_reducible assumption
      | with_reducible apply dropRequests_keeps
  clear_value l0
  repeat' first
    | with_reducible assumption
    | with_reducible apply dropChanCoding_keeps
    | with_reducible apply State.setChan_keeps
    | with_reducible apply uncount_keeps
    | with_reducible apply State.bump_keeps
    | with_reducible apply State.raise_keeps
    | with_reducible apply semPost_keeps
    | dsimp only
    | split
    | with_reducible apply Keeps.update

theorem chanComplete_keeps {s₀ t : State} (h : Keeps s₀ t) (a1 a2) : Keeps s₀ (chanComplete t a1 a2) := by
  unfold chanComplete
  repeat' first
    | with_reducible assumption
    | with_reducible apply finishChan_keeps
    | split

theorem chanPost_keeps {s₀ t : State} (h : Keeps s₀ t) (a1 a2 a3) : Keeps s₀ (chanPost t a1 a2 a3) := by
  unfold chanPost
  extract_lets l0 l1
  clear_value l0
  clear_value l1
  repeat' first
    | with_reducible assumption
    | with_reducible apply State.setChan_keeps
    | with_reducible apply State.raise_keeps
    | split

theorem fwWait_keeps {s₀ t : State} (h : Keeps s₀ t) (a1 a2 a3) : Keeps s₀ (fwWait t a1 a2 a3) := by
  unfold fwWait
  extract_lets l0
  have hl0 : Keeps s₀ l0 := by
    dsimp only [l0]
    repeat' first
      | with_reducible assumption
      | with_reducible apply Keeps.update
  clear_value l0
  repeat' first
    | with_reducible assumption
    | with_reducible apply offAccess_keeps
    | split

theorem fwServed_keeps {s₀ t : State} (h : Keeps s₀ t) (a1) : Keeps s₀ (fwServed t a1) := by
  unfold fwServed
  repeat' first
    | with_reducible assumption
    | with_reducible apply Keeps.update

theorem joinEncoder_keeps {s₀ t : State} (h : Keeps s₀ t) (a1 a2) : Keeps s₀ (joinEncoder t a1 a2) := by
  unfold joinEncoder
  repeat' first
    | with_reducible assumption
    | with_reducible apply modHrw_keeps
    | split

theorem chanRun_keeps {s₀ t : State} (h : Keeps s₀ t) (a1 a2 a3 a4) : Keeps s₀ (chanRun t a1 a2 a3 a4) := by
  unfold chanRun
  extract_lets l0 l1 l2
  have hl0 : Keeps s₀ l0.2 := by
    dsimp only [l0]
    repeat' first
      | with_reducible assumption
      | with_reducible apply startXfer_keeps
  clear_value l0
  clear_value l1
  have hl2 : Keeps s₀ l2 := by
    dsimp only [l2]
    repeat' first
      | with_reducible assumption
      | with_reducible apply State.setChan_keeps
  clear_value l2
  repeat' first
    | with_reducible assumption
    | with_reducible apply pumpAll_keeps
    | with_reducible apply joinEncoder_keeps

/-- What a read of firmware's own keeps. -/
def FwKeeps (s₀ : State) : FwRead → Prop
  | .wait t => Keeps s₀ t
  | .none t => Keeps s₀ t
  | .got _ t => Keeps s₀ t

theorem readRecord_keeps {s₀ t : State} (h : Keeps s₀ t) (a1 a2 a3 a4) : FwKeeps s₀ (readRecord t a1 a2 a3 a4) := by
  unfold readRecord
  split
  · split
    · exact h
    split
    · exact fwWait_keeps h _ _ _
    extract_lets r
    have hr : Keeps s₀ r.2 := nmRead_keeps h _ _ _ _
    clear_value r
    split <;> exact fwServed_keeps hr _
  · exact Keeps.ite h (wsDrop_keeps h _ _)
  · split
    · exact fwWait_keeps h _ _ _
    extract_lets r
    have hr : Keeps s₀ r.2 := spmReadAsync_keeps h _ _ _
    clear_value r
    split <;> exact fwServed_keeps hr _
  · split
    · exact h
    · split <;> exact h
  · exact h

theorem readRecord_wait {s₀ t r : State} (h : Keeps s₀ t) {a1 a2 a3 a4} (hr : readRecord t a1 a2 a3 a4 = .wait r) : Keeps s₀ r := by
  have := readRecord_keeps h a1 a2 a3 a4
  rw [hr] at this
  exact this
theorem readRecord_none {s₀ t r : State} (h : Keeps s₀ t) {a1 a2 a3 a4} (hr : readRecord t a1 a2 a3 a4 = .none r) : Keeps s₀ r := by
  have := readRecord_keeps h a1 a2 a3 a4
  rw [hr] at this
  exact this
theorem readRecord_got {s₀ t r : State} {b} (h : Keeps s₀ t) {a1 a2 a3 a4} (hr : readRecord t a1 a2 a3 a4 = .got b r) : Keeps s₀ r := by
  have := readRecord_keeps h a1 a2 a3 a4
  rw [hr] at this
  exact this

theorem chanStart_keeps {s₀ t : State} (h : Keeps s₀ t) (a1 a2 a3) : Keeps s₀ (chanStart t a1 a2 a3) := by
  unfold chanStart
  extract_lets c next bad
  have hn (u : State) (hu : Keeps s₀ u) (l) : Keeps s₀ (next u l) := State.setChan_keeps hu _ _ _
  have hb (u : State) (hu : Keeps s₀ u) (v) : Keeps s₀ (bad u v) := State.raise_keeps (State.setChan_keeps hu _ _ _) _ _
  clear_value c next bad
  split
  · exact h
  split
  · exact chanRun_keeps (hn _ h _) _ _ _ _
  · split
    · next hr => exact readRecord_wait h hr
    · next hr => exact hb _ (hn _ (readRecord_none h hr) _) _
    · next hr =>
      split
      · exact hb _ (hn _ (readRecord_got h hr) _) _
      · exact chanRun_keeps (hn _ (readRecord_got h hr) _) _ _ _ _
  · exact h

theorem skidderAbort_keeps {s₀ t : State} (h : Keeps s₀ t) (a1 a2) : Keeps s₀ (skidderAbort t a1 a2) := by
  unfold skidderAbort
  extract_lets l0 l1 l2
  clear_value l0
  clear_value l1
  clear_value l2
  repeat' first
    | with_reducible assumption
    | with_reducible apply State.bump_keeps
    | with_reducible apply finishSkq_keeps
    | with_reducible apply State.setChan_keeps
    | with_reducible apply finishChan_keeps
    | split

theorem transferStall_keeps {s₀ t : State} (h : Keeps s₀ t) (a1 a2 a3 a4) : Keeps s₀ (transferStall t a1 a2 a3 a4) := by
  unfold transferStall
  extract_lets l0
  clear_value l0
  repeat' first
    | with_reducible assumption
    | with_reducible apply setXfer_keeps
    | with_reducible apply State.raise_keeps
    | with_reducible apply State.setReg_keeps
    | with_reducible apply State.bump_keeps
    | dsimp only
    | split

theorem transferResume_keeps {s₀ t : State} (h : Keeps s₀ t) (a1 a2 a3 a4) : Keeps s₀ (transferResume t a1 a2 a3 a4) := by
  unfold transferResume
  repeat' first
    | with_reducible assumption
    | with_reducible apply modXfer_keeps

theorem encodeBlockDone_keeps {s₀ t : State} (h : Keeps s₀ t) (a1) : Keeps s₀ (encodeBlockDone t a1) := by
  unfold encodeBlockDone
  extract_lets l0 l1
  have hl0 : Keeps s₀ l0 := by
    dsimp only [l0]
    repeat' first
      | with_reducible assumption
      | with_reducible apply encRead_keeps
      | split
  clear_value l0
  clear_value l1
  repeat' first
    | with_reducible assumption
    | with_reducible apply deliverBlock_keeps
    | with_reducible apply encDeliver_keeps
    | with_reducible apply modHrw_keeps
    | refine encodeNext_keeps_eq ?_ (by assumption)
    | split

theorem omapSync_keeps {s₀ t : State} (h : Keeps s₀ t) (a1) : Keeps s₀ (omapSync t a1) := by
  unfold omapSync
  repeat' first
    | with_reducible assumption
    | split
    | with_reducible apply Keeps.update

theorem pumpCore_keeps {s₀ t : State} (h : Keeps s₀ t) (a1) : Keeps s₀ (pumpCore t a1) := by
  unfold pumpCore
  extract_lets l0
  have hl0 : Keeps s₀ l0 := by
    dsimp only [l0]
    repeat' first
      | with_reducible assumption
      | with_reducible apply pumpAll_keeps
      | with_reducible refine Keeps.foldl (fun _ _ _ => ?_) ?_
  clear_value l0
  repeat' first
    | with_reducible assumption
    | with_reducible apply pumpAll_keeps
    | with_reducible refine Keeps.foldl (fun _ _ _ => ?_) ?_

theorem chanLanes_keeps {s₀ t : State} (h : Keeps s₀ t) (a1 a2) : Keeps s₀ (chanLanes t a1 a2) := by
  unfold chanLanes
  repeat' first
    | with_reducible assumption
    | with_reducible apply pumpCore_keeps
    | with_reducible apply chanLanesWrite_keeps

theorem skqAdd_keeps {s₀ t : State} (h : Keeps s₀ t) (a1 a2) : Keeps s₀ (skqAdd t a1 a2) := by
  unfold skqAdd
  repeat' first
    | with_reducible assumption
    | with_reducible apply pumpAll_keeps
    | with_reducible apply State.setSkq_keeps
    | split

end Sys2Proof.Machine
end

