-- ==== Sys2Proof/Laws/KeepsVector.lean ====
section
/-! SUPPORT. What Machine/Vector.lean does keeps the part, the queue and the canonical form of every sparse memory. -/

namespace Sys2Proof.Machine

theorem setSht_keeps {s₀ t : State} (h : Keeps s₀ t) (a1 a2 a3 a4) : Keeps s₀ (setSht t a1 a2 a3 a4) := by
  exact State.modCore_keeps h _ fun c k => { k with sht := storeSet_wf rfl k.sht }

theorem shtScale_keeps {s₀ t : State} (h : Keeps s₀ t) (a1 a2) : Keeps s₀ (shtScale t a1 a2) := by
  unfold shtScale
  extract_lets l0 l1 l2 l3 l4 l5 l6 l7 l8 l9 l10
  clear_value l0
  clear_value l1
  clear_value l2
  clear_value l3
  clear_value l4
  clear_value l5
  clear_value l6
  clear_value l7
  clear_value l8
  clear_value l9
  clear_value l10
  repeat' first
    | with_reducible assumption
    | with_reducible apply setSht_keeps
    | split

theorem shtPush_keeps {s₀ t : State} (h : Keeps s₀ t) (a1 a2 a3) : Keeps s₀ (shtPush t a1 a2 a3) := by
  unfold shtPush
  extract_lets l0 l1 l2 l3 l4 l5 l6 l7 l8
  clear_value l0
  clear_value l1
  clear_value l2
  clear_value l3
  clear_value l4
  have hl5 : Keeps s₀ l5 := by
    dsimp only [l5]
    repeat' first
      | with_reducible assumption
      | with_reducible apply setSht_keeps
  clear_value l5
  have hl6 : Keeps s₀ l6 := by
    dsimp only [l6]
    repeat' first
      | with_reducible assumption
      | with_reducible apply setSht_keeps
  clear_value l6
  have hl7 : Keeps s₀ l7 := by
    dsimp only [l7]
    repeat' first
      | with_reducible assumption
      | with_reducible apply setSht_keeps
  clear_value l7
  have hl8 : Keeps s₀ l8 := by
    dsimp only [l8]
    repeat' first
      | with_reducible assumption
      | with_reducible apply setSht_keeps
  clear_value l8
  repeat' first
    | with_reducible assumption
    | with_reducible apply shtScale_keeps

theorem shtOverflow_keeps {s₀ t : State} (h : Keeps s₀ t) (a1 a2 a3) : Keeps s₀ (shtOverflow t a1 a2 a3) := by
  unfold shtOverflow
  extract_lets l0 l1 l2 l3 l4 l5 l6
  clear_value l0
  clear_value l1
  clear_value l2
  clear_value l3
  have hl4 : Keeps s₀ l4 := by
    dsimp only [l4]
    repeat' first
      | with_reducible assumption
      | with_reducible apply setSht_keeps
  clear_value l4
  have hl5 : Keeps s₀ l5 := by
    dsimp only [l5]
    repeat' first
      | with_reducible assumption
      | with_reducible apply State.bump_keeps
  clear_value l5
  clear_value l6
  repeat' first
    | with_reducible assumption
    | with_reducible apply State.raise_keeps
    | with_reducible apply State.setReg_keeps
    | split

theorem shtLatch_keeps {s₀ t : State} (h : Keeps s₀ t) (a1) : Keeps s₀ (shtLatch t a1) := by
  unfold shtLatch
  extract_lets l0
  clear_value l0
  repeat' first
    | with_reducible assumption
    | with_reducible apply State.setReg_keeps
    | with_reducible refine Keeps.foldl (fun _ _ _ => ?_) ?_

theorem shtCommit_keeps {s₀ t : State} (h : Keeps s₀ t) (a1) : Keeps s₀ (shtCommit t a1) := by
  unfold shtCommit
  extract_lets l0 l1 l2
  clear_value l0
  have hl2 : Keeps s₀ l2 := by
    dsimp only [l2]
    repeat' first
      | with_reducible assumption
      | with_reducible apply setSht_keeps
      | with_reducible refine Keeps.foldl (fun _ _ _ => ?_) ?_
  clear_value l2
  repeat' first
    | with_reducible assumption
    | with_reducible apply State.raise_keeps
    | with_reducible apply shtScale_keeps
    | split

theorem vuFlag_keeps {s₀ t : State} (h : Keeps s₀ t) (a1 a2) : Keeps s₀ (vuFlag t a1 a2) := by
  unfold vuFlag
  repeat' first
    | with_reducible assumption
    | with_reducible apply State.raise_keeps

theorem readVec_keeps {s₀ t : State} (h : Keeps s₀ t) (a1 a2 a3 a4) : Keeps s₀ (readVec t a1 a2 a3 a4).st := by
  unfold readVec
  extract_lets l0 l1
  clear_value l0
  have hl1 : Keeps s₀ l1 := by
    dsimp only [l1]
    repeat' first
      | with_reducible assumption
      | with_reducible refine State.modCore_same ?_ _ (fun _ => rfl) (fun _ => rfl) (fun _ => rfl)
  clear_value l1
  repeat' first
    | with_reducible assumption
    | with_reducible apply readOperand_keeps
    | dsimp only
    | split

theorem vuNote_keeps {s₀ t : State} (h : Keeps s₀ t) (a1 a2 a3) : Keeps s₀ (vuNote t a1 a2 a3) := by
  unfold vuNote
  extract_lets l0 l1 l2
  clear_value l0
  have hl1 : Keeps s₀ l1 := by
    dsimp only [l1]
    repeat' first
      | with_reducible assumption
      | with_reducible apply vuFlag_keeps
      | split
  clear_value l1
  have hl2 : Keeps s₀ l2 := by
    dsimp only [l2]
    repeat' first
      | with_reducible assumption
      | with_reducible apply vuFlag_keeps
      | split
  clear_value l2
  repeat' first
    | with_reducible assumption
    | with_reducible apply vuFlag_keeps
    | split

theorem writeVec_keeps {s₀ t : State} (h : Keeps s₀ t) (a1 a2 a3 a4) : Keeps s₀ (writeVec t a1 a2 a3 a4) := by
  unfold writeVec
  repeat' first
    | with_reducible assumption
    | with_reducible apply writeOperand_keeps
    | with_reducible apply vuNote_keeps

theorem setSreg_keeps {s₀ t : State} (h : Keeps s₀ t) (a1 a2 a3) : Keeps s₀ (setSreg t a1 a2 a3) := by
  unfold setSreg
  repeat' first
    | with_reducible assumption
    | with_reducible refine State.modCore_same ?_ _ (fun _ => rfl) (fun _ => rfl) (fun _ => rfl)

theorem vuElement_keeps {s₀ t : State} (h : Keeps s₀ t) (a1 a2 a3 a4 a5 a6) : Keeps s₀ (vuElement t a1 a2 a3 a4 a5 a6) := by
  unfold vuElement
  extract_lets l0 l1 l2 l3 l4 l5 l6
  clear_value l0
  have hl1 : Keeps s₀ l1.st := by
    dsimp only [l1]
    repeat' first
      | with_reducible assumption
      | with_reducible apply readVec_keeps
  clear_value l1
  clear_value l2
  clear_value l3
  have hl4 : Keeps s₀ l4.st := by
    dsimp only [l4]
    repeat' first
      | with_reducible assumption
      | with_reducible apply readVec_keeps
      | split
  clear_value l4
  have hl5 : Keeps s₀ l5.st := by
    dsimp only [l5]
    repeat' first
      | with_reducible assumption
      | with_reducible apply readVec_keeps
      | split
  clear_value l5
  clear_value l6
  repeat' first
    | with_reducible assumption
    | with_reducible apply writeVec_keeps
    | with_reducible apply countStall_keeps

theorem vuReduce_keeps {s₀ t : State} (h : Keeps s₀ t) (a1 a2 a3 a4) : Keeps s₀ (vuReduce t a1 a2 a3 a4) := by
  unfold vuReduce
  extract_lets l0 l1 l2 l3 l4 l5
  have hl0 : Keeps s₀ l0.st := by
    dsimp only [l0]
    repeat' first
      | with_reducible assumption
      | with_reducible apply readVec_keeps
  clear_value l0
  clear_value l1
  clear_value l2
  clear_value l3
  clear_value l4
  have hl5 : Keeps s₀ l5 := by
    dsimp only [l5]
    repeat' first
      | with_reducible assumption
      | with_reducible apply countStall_keeps
  clear_value l5
  repeat' first
    | with_reducible assumption
    | with_reducible apply setSreg_keeps
    | with_reducible apply vuNote_keeps

theorem vuCvt_keeps {s₀ t : State} (h : Keeps s₀ t) (a1 a2 a3 a4 a5 a6) : Keeps s₀ (vuCvt t a1 a2 a3 a4 a5 a6) := by
  unfold vuCvt
  extract_lets l0 l1 l2 l3
  have hl0 : Keeps s₀ l0.st := by
    dsimp only [l0]
    repeat' first
      | with_reducible assumption
      | with_reducible apply readVec_keeps
  clear_value l0
  clear_value l1
  have hl2 : Keeps s₀ l2 := by
    dsimp only [l2]
    repeat' first
      | with_reducible assumption
      | with_reducible apply countStall_keeps
  clear_value l2
  have hl3 : Keeps s₀ l3 := by
    dsimp only [l3]
    repeat' first
      | with_reducible assumption
      | with_reducible apply State.bump_keeps
  clear_value l3
  repeat' first
    | with_reducible assumption
    | with_reducible apply writeVec_keeps

theorem vuQuant_keeps {s₀ t : State} (h : Keeps s₀ t) (a1 a2 a3 a4 a5) : Keeps s₀ (vuQuant t a1 a2 a3 a4 a5) := by
  unfold vuQuant
  extract_lets l0 l1 l2 l3 l4 l5 l6 l7 l8 l9
  clear_value l0
  clear_value l1
  have hl2 : Keeps s₀ l2.st := by
    dsimp only [l2]
    repeat' first
      | with_reducible assumption
      | with_reducible apply readVec_keeps
  clear_value l2
  clear_value l3
  clear_value l4
  clear_value l5
  clear_value l6
  have hl7 : Keeps s₀ l7 := by
    dsimp only [l7]
    repeat' first
      | with_reducible assumption
      | with_reducible apply countStall_keeps
  clear_value l7
  have hl8 : Keeps s₀ l8 := by
    dsimp only [l8]
    repeat' first
      | with_reducible assumption
      | with_reducible apply setSht_keeps
  clear_value l8
  have hl9 : Keeps s₀ l9 := by
    dsimp only [l9]
    repeat' first
      | with_reducible assumption
      | with_reducible apply shtOverflow_keeps
  clear_value l9
  repeat' first
    | with_reducible assumption
    | with_reducible apply writeVec_keeps

theorem vuPush_keeps {s₀ t : State} (h : Keeps s₀ t) (a1 a2) : Keeps s₀ (vuPush t a1 a2) := by
  unfold vuPush
  extract_lets l0
  clear_value l0
  repeat' first
    | with_reducible assumption
    | with_reducible apply vuFlag_keeps
    | with_reducible apply shtPush_keeps
    | split

theorem vuMerge_keeps {s₀ t : State} (h : Keeps s₀ t) (a1 a2 a3 a4) : Keeps s₀ (vuMerge t a1 a2 a3 a4) := by
  unfold vuMerge
  extract_lets l0 l1 l2 l3 l4 l5 l6 l7 l8
  clear_value l0
  clear_value l1
  clear_value l2
  clear_value l3
  clear_value l4
  clear_value l5
  clear_value l6
  clear_value l7
  clear_value l8
  repeat' first
    | with_reducible assumption
    | with_reducible apply spmRead_keeps
    | with_reducible apply countStall_keeps
    | with_reducible apply vuFlag_keeps
    | with_reducible apply spmWrite_keeps
    | with_reducible refine Keeps.foldl (fun _ _ _ => ?_) ?_
    | with_reducible refine Keeps.foldlThd (fun _ _ _ => ?_) ?_
    | split

theorem vuSld_keeps {s₀ t : State} (h : Keeps s₀ t) (a1 a2 a3) : Keeps s₀ (vuSld t a1 a2 a3) := by
  unfold vuSld
  extract_lets l0 l1 l2
  have hl0 : Keeps s₀ l0.st := by
    dsimp only [l0]
    repeat' first
      | with_reducible assumption
      | with_reducible apply readOperand_keeps
  clear_value l0
  have hl1 : Keeps s₀ l1 := by
    dsimp only [l1]
    repeat' first
      | with_reducible assumption
      | with_reducible apply countStall_keeps
  clear_value l1
  have hl2 : Keeps s₀ l2 := by
    dsimp only [l2]
    repeat' first
      | with_reducible assumption
      | with_reducible apply vuFlag_keeps
      | split
  clear_value l2
  repeat' first
    | with_reducible assumption
    | with_reducible apply setSreg_keeps
    | with_reducible refine Keeps.foldl (fun _ _ _ => ?_) ?_

theorem vuSst_keeps {s₀ t : State} (h : Keeps s₀ t) (a1 a2 a3) : Keeps s₀ (vuSst t a1 a2 a3) := by
  unfold vuSst
  extract_lets l0 l1
  clear_value l0
  have hl1 : Keeps s₀ l1 := by
    dsimp only [l1]
    repeat' first
      | with_reducible assumption
      | with_reducible apply vuFlag_keeps
      | split
  clear_value l1
  repeat' first
    | with_reducible assumption
    | with_reducible apply writeOperand_keeps

theorem mapRead_keeps {s₀ t : State} (h : Keeps s₀ t) (a1 a2 a3) : Keeps s₀ (mapRead t a1 a2 a3).2 := by
  unfold mapRead
  repeat' first
    | with_reducible assumption
    | with_reducible apply nmRead_keeps
    | with_reducible apply wsReadNow_keeps
    | split
theorem mapRead_keeps_eq {s₀ t r : State} {x0} (h : Keeps s₀ t) {a1 a2 a3} (hr : mapRead t a1 a2 a3 = (x0, r)) : Keeps s₀ r := by
  have := mapRead_keeps h a1 a2 a3
  rw [hr] at this
  exact this

theorem readPage_keeps {s₀ t : State} (h : Keeps s₀ t) (a1 a2 a3 a4) : Keeps s₀ (readPage t a1 a2 a3 a4).2 := by
  unfold readPage
  extract_lets l0 l1
  have hl0 : Keeps s₀ l0.2 := by
    dsimp only [l0]
    repeat' first
      | with_reducible assumption
      | with_reducible apply mapRead_keeps
  clear_value l0
  clear_value l1
  repeat' first
    | with_reducible assumption
    | split
theorem readPage_keeps_eq {s₀ t r : State} {x0} (h : Keeps s₀ t) {a1 a2 a3 a4} (hr : readPage t a1 a2 a3 a4 = (x0, r)) : Keeps s₀ r := by
  have := readPage_keeps h a1 a2 a3 a4
  rw [hr] at this
  exact this

theorem vuPgchk_keeps {s₀ t : State} (h : Keeps s₀ t) (a1 a2 a3) : Keeps s₀ (vuPgchk t a1 a2 a3) := by
  unfold vuPgchk
  extract_lets l0 l1 l2 l3
  have hl0 : Keeps s₀ l0.st := by
    dsimp only [l0]
    repeat' first
      | with_reducible assumption
      | with_reducible apply spmRead_keeps
  clear_value l0
  have hl1 : Keeps s₀ l1 := by
    dsimp only [l1]
    repeat' first
      | with_reducible assumption
      | with_reducible apply countStall_keeps
  clear_value l1
  have hl2 : Keeps s₀ l2.2 := by
    dsimp only [l2]
    repeat' first
      | with_reducible assumption
      | with_reducible apply readPage_keeps
  clear_value l2
  have hl3 : Keeps s₀ l3 := by
    dsimp only [l3]
    repeat' first
      | with_reducible assumption
      | with_reducible apply vuFlag_keeps
  clear_value l3
  repeat' first
    | with_reducible assumption
    | with_reducible apply setSreg_keeps
    | with_reducible apply State.bump_keeps
    | split

theorem vuExec_keeps {s₀ t : State} (h : Keeps s₀ t) (a1 a2) : Keeps s₀ (vuExec t a1 a2) := by
  unfold vuExec
  extract_lets l0 l1
  clear_value l0
  have hl1 : Keeps s₀ l1 := by
    dsimp only [l1]
    repeat' first
      | with_reducible assumption
      | with_reducible apply State.bump_keeps
  clear_value l1
  repeat' first
    | with_reducible assumption
    | with_reducible apply vuElement_keeps
    | with_reducible apply readVec_keeps
    | with_reducible apply writeVec_keeps
    | with_reducible apply countStall_keeps
    | with_reducible apply vuReduce_keeps
    | with_reducible apply vuCvt_keeps
    | with_reducible apply vuQuant_keeps
    | with_reducible apply setSreg_keeps
    | with_reducible apply vuPush_keeps
    | with_reducible apply spmRead_keeps
    | with_reducible apply vuMerge_keeps
    | with_reducible apply vuSld_keeps
    | with_reducible apply vuSst_keeps
    | with_reducible apply vuPgchk_keeps
    | dsimp only
    | split

end Sys2Proof.Machine
end

