-- ==== Sys2Proof/Laws/KeepsThresher.lean ====
section
/-! SUPPORT. What Machine/Thresher.lean does keeps the part, the queue and the canonical form of every sparse memory. -/

namespace Sys2Proof.Machine

theorem readAttRec_keeps {s₀ t : State} (h : Keeps s₀ t) (a1 a2) : Keeps s₀ (readAttRec t a1 a2).2 := by
  unfold readAttRec
  extract_lets l0 l1 l2
  have hl0 : Keeps s₀ l0.st := by
    dsimp only [l0]
    repeat' first
      | with_reducible assumption
      | with_reducible apply spmRead_keeps
  clear_value l0
  have hl1 : Keeps s₀ l1 := by
    dsimp only [l1]
    repeat' first
      | with_reducible assumption
      | with_reducible apply countStall_keeps
  clear_value l1
  clear_value l2
  repeat' first
    | with_reducible assumption
theorem readAttRec_keeps_eq {s₀ t r : State} {x0} (h : Keeps s₀ t) {a1 a2} (hr : readAttRec t a1 a2 = (x0, r)) : Keeps s₀ r := by
  have := readAttRec_keeps h a1 a2
  rw [hr] at this
  exact this

theorem modThr_keeps {s₀ t : State} (h : Keeps s₀ t) (a1 a2) : Keeps s₀ (modThr t a1 a2) := by
  unfold modThr
  repeat' first
    | with_reducible assumption
    | with_reducible refine State.modCore_same ?_ _ (fun _ => rfl) (fun _ => rfl) (fun _ => rfl)

theorem thrFlag_keeps {s₀ t : State} (h : Keeps s₀ t) (a1 a2) : Keeps s₀ (thrFlag t a1 a2) := by
  unfold thrFlag
  repeat' first
    | with_reducible assumption
    | with_reducible apply State.raise_keeps

theorem thrFault_keeps {s₀ t : State} (h : Keeps s₀ t) (a1 a2 a3 a4) : Keeps s₀ (thrFault t a1 a2 a3 a4) := by
  unfold thrFault
  extract_lets l0
  have hl0 : Keeps s₀ l0 := by
    dsimp only [l0]
    repeat' first
      | with_reducible assumption
      | with_reducible apply State.setReg_keeps
  clear_value l0
  repeat' first
    | with_reducible assumption
    | with_reducible apply State.setReg_keeps

theorem pageFault_keeps {s₀ t : State} (h : Keeps s₀ t) (a1 a2 a3 a4) : Keeps s₀ (pageFault t a1 a2 a3 a4) := by
  unfold pageFault
  repeat' first
    | with_reducible assumption
    | with_reducible apply thrFault_keeps
    | with_reducible apply State.bump_keeps
    | with_reducible apply thrFlag_keeps

theorem kvWrite_keeps {s₀ t : State} (h : Keeps s₀ t) (a1 a2 a3) : Keeps s₀ (kvWrite t a1 a2 a3) := by
  unfold kvWrite
  repeat' first
    | with_reducible assumption
    | with_reducible apply nmWrite_keeps
    | with_reducible apply wsDrop_keeps
    | split

theorem openFetch_keeps {s₀ t : State} (h : Keeps s₀ t) (a1 a2 a3 a4) : Keeps s₀ (openFetch t a1 a2 a3 a4) := by
  unfold openFetch
  extract_lets l0 l1
  clear_value l0
  have hl1 : Keeps s₀ l1 := by
    dsimp only [l1]
    repeat' first
      | with_reducible assumption
      | with_reducible apply modThr_keeps
  clear_value l1
  repeat' first
    | with_reducible assumption
    | with_reducible apply skqAdd_keeps

theorem modFetch_keeps {s₀ t : State} (h : Keeps s₀ t) (a1 a2 a3) : Keeps s₀ (modFetch t a1 a2 a3) := by
  unfold modFetch
  repeat' first
    | with_reducible assumption
    | with_reducible apply modThr_keeps

theorem closeFetch_keeps {s₀ t : State} (h : Keeps s₀ t) (a1 a2) : Keeps s₀ (closeFetch t a1 a2) := by
  unfold closeFetch
  extract_lets l0
  have hl0 : Keeps s₀ l0 := by
    dsimp only [l0]
    repeat' first
      | with_reducible assumption
      | with_reducible apply modThr_keeps
  clear_value l0
  repeat' first
    | with_reducible assumption
    | with_reducible apply State.setSkq_keeps

theorem bindFetch_keeps {s₀ t : State} (h : Keeps s₀ t) (a1 a2 a3) : Keeps s₀ (bindFetch t a1 a2 a3).2 := by
  unfold bindFetch
  repeat' first
    | with_reducible assumption
    | with_reducible apply modFetch_keeps
    | with_reducible apply openFetch_keeps
    | split
theorem bindFetch_keeps_eq {s₀ t r : State} {x0} (h : Keeps s₀ t) {a1 a2 a3} (hr : bindFetch t a1 a2 a3 = (x0, r)) : Keeps s₀ r := by
  have := bindFetch_keeps h a1 a2 a3
  rw [hr] at this
  exact this

theorem kvFetchBlock_keeps {s₀ t : State} (h : Keeps s₀ t) (a1 a2) : Keeps s₀ (kvFetchBlock t a1 a2) := by
  unfold kvFetchBlock
  repeat' first
    | with_reducible assumption
    | with_reducible apply modFetch_keeps
    | with_reducible apply readPage_keeps
    | with_reducible apply pageFault_keeps
    | with_reducible apply mapRead_keeps
    | with_reducible apply spmWrite_keeps
    | with_reducible apply State.bump_keeps
    | dsimp only
    | split

theorem attStart_keeps {s₀ t : State} (h : Keeps s₀ t) (a1 a2) : Keeps s₀ (attStart t a1 a2).2 := by
  unfold attStart
  extract_lets l0 l1 l2 l3 l4
  clear_value l0
  clear_value l1
  have hl2 : Keeps s₀ l2.2 := by
    dsimp only [l2]
    repeat' first
      | with_reducible assumption
      | with_reducible apply spmRead_keeps
      | with_reducible apply countStall_keeps
      | with_reducible refine Keeps.foldlSnd (fun _ _ _ => ?_) ?_
  clear_value l2
  have hl3 : Keeps s₀ l3.st := by
    dsimp only [l3]
    repeat' first
      | with_reducible assumption
      | with_reducible apply spmRead_keeps
      | split
  clear_value l3
  have hl4 : Keeps s₀ l4 := by
    dsimp only [l4]
    repeat' first
      | with_reducible assumption
      | with_reducible apply countStall_keeps
  clear_value l4
  repeat' first
    | with_reducible assumption
theorem attStart_keeps_eq {s₀ t r : State} {x0} (h : Keeps s₀ t) {a1 a2} (hr : attStart t a1 a2 = (x0, r)) : Keeps s₀ r := by
  have := attStart_keeps h a1 a2
  rw [hr] at this
  exact this

theorem attBlockRows_keeps {s₀ t : State} (h : Keeps s₀ t) (a1 a2 a3) : Keeps s₀ (attBlockRows t a1 a2 a3).2 := by
  unfold attBlockRows
  extract_lets l0 l1 l2 l3 l4 l5 l6 l7 l8 l9
  clear_value l0
  clear_value l1
  clear_value l2
  have hl3 : Keeps s₀ l3.st := by
    dsimp only [l3]
    repeat' first
      | with_reducible assumption
      | with_reducible apply spmRead_keeps
      | split
  clear_value l3
  have hl4 : Keeps s₀ l4.st := by
    dsimp only [l4]
    repeat' first
      | with_reducible assumption
      | with_reducible apply spmRead_keeps
      | split
  clear_value l4
  have hl5 : Keeps s₀ l5 := by
    dsimp only [l5]
    repeat' first
      | with_reducible assumption
      | with_reducible apply countStall_keeps
  clear_value l5
  repeat' first
    | with_reducible assumption
theorem attBlockRows_keeps_eq {s₀ t r : State} {x0} (h : Keeps s₀ t) {a1 a2 a3} (hr : attBlockRows t a1 a2 a3 = (x0, r)) : Keeps s₀ r := by
  have := attBlockRows_keeps h a1 a2 a3
  rw [hr] at this
  exact this

theorem attFinish_keeps {s₀ t : State} (h : Keeps s₀ t) (a1 a2) : Keeps s₀ (attFinish t a1 a2) := by
  unfold attFinish
  extract_lets l0
  clear_value l0
  repeat' first
    | with_reducible assumption
    | with_reducible apply thrFlag_keeps
    | with_reducible apply State.bump_keeps
    | with_reducible apply spmWrite_keeps
    | with_reducible refine Keeps.foldl (fun _ _ _ => ?_) ?_
    | split

theorem attNext_keeps {s₀ t : State} (h : Keeps s₀ t) (a1 a2) : Keeps s₀ (attNext t a1 a2) := by
  unfold attNext
  extract_lets l0
  have hl0 : Keeps s₀ l0 := by
    dsimp only [l0]
    repeat' first
      | with_reducible assumption
      | with_reducible apply closeFetch_keeps
      | split
  clear_value l0
  repeat' first
    | with_reducible assumption
    | with_reducible apply modThr_keeps

theorem attendBlock_keeps {s₀ t : State} (h : Keeps s₀ t) (a1 a2) : Keeps s₀ (attendBlock t a1 a2) := by
  unfold attendBlock
  extract_lets l0
  have hl0 : Keeps s₀ l0 := by
    dsimp only [l0]
    repeat' first
      | with_reducible assumption
      | with_reducible apply countStall_keeps
  clear_value l0
  repeat' first
    | with_reducible assumption
    | with_reducible apply attStart_keeps
    | with_reducible apply attNext_keeps
    | with_reducible apply attFinish_keeps
    | with_reducible apply attBlockRows_keeps
    | with_reducible apply State.bump_keeps
    | with_reducible apply modThr_keeps
    | with_reducible apply modFetch_keeps
    | dsimp only
    | split

theorem kvDrop_keeps {s₀ t : State} (h : Keeps s₀ t) (a1 a2 a3 a4) : Keeps s₀ (kvDrop t a1 a2 a3 a4) := by
  unfold kvDrop
  repeat' first
    | with_reducible assumption
    | with_reducible apply thrFault_keeps
    | with_reducible apply State.bump_keeps
    | with_reducible apply thrFlag_keeps

theorem readPages_keeps {s₀ t : State} (h : Keeps s₀ t) (a1 a2 a3) : Keeps s₀ (readPages t a1 a2 a3).2 := by
  induction a3 generalizing t a1 a2 with
  | nil => exact h
  | cons x l ih =>
  unfold readPages
  repeat' first
    | with_reducible apply ih
    | extract_lets
    | with_reducible assumption
    | with_reducible apply readPage_keeps
    | split
theorem readPages_keeps_eq {s₀ t r : State} {x0} (h : Keeps s₀ t) {a1 a2 a3} (hr : readPages t a1 a2 a3 = (x0, r)) : Keeps s₀ r := by
  have := readPages_keeps h a1 a2 a3
  rw [hr] at this
  exact this

theorem kvEntry_keeps {s₀ t : State} (h : Keeps s₀ t) (a1 a2 a3) : Keeps s₀ (kvEntry t a1 a2 a3).2 := by
  unfold kvEntry
  extract_lets l0 l1
  have hl0 : Keeps s₀ l0.2 := by
    dsimp only [l0]
    repeat' first
      | with_reducible assumption
      | with_reducible apply checkedStart_keeps
  clear_value l0
  clear_value l1
  repeat' first
    | with_reducible assumption
    | with_reducible apply skqAdd_keeps
theorem kvEntry_keeps_eq {s₀ t r : State} {x0} (h : Keeps s₀ t) {a1 a2 a3} (hr : kvEntry t a1 a2 a3 = (x0, r)) : Keeps s₀ r := by
  have := kvEntry_keeps h a1 a2 a3
  rw [hr] at this
  exact this

theorem kvPages_error {s₀ t r : State} (h : Keeps s₀ t) {a1 a2 a3} (hr : kvPages t a1 a2 a3 = .error r) : Keeps s₀ r := by
  unfold kvPages at hr
  split at hr
  · cases hr; exact kvDrop_keeps h _ _ _ _
  · cases hr; exact kvDrop_keeps (pageFault_keeps h _ _ _ _) _ _ _ _
  · split at hr
    · cases hr
    · next q => cases hr; exact kvDrop_keeps (pageFault_keeps (readPages_keeps_eq h q) _ _ _ _) _ _ _ _

theorem kvPages_ok {s₀ t r : State} {l} (h : Keeps s₀ t) {a1 a2 a3} (hr : kvPages t a1 a2 a3 = .ok (l, r)) : Keeps s₀ r := by
  unfold kvPages at hr
  split at hr
  · cases hr
  · cases hr
  · split at hr
    · next q => cases hr; exact readPages_keeps_eq h q
    · cases hr

theorem kvWait_keeps {s₀ t : State} (h : Keeps s₀ t) (a1 a2 a3 a4) : Keeps s₀ (kvWait t a1 a2 a3 a4) := by
  unfold kvWait
  repeat' first
    | with_reducible assumption
    | with_reducible apply skqAdd_keeps

theorem kvIssued_keeps {s₀ t : State} (h : Keeps s₀ t) (a1) : Keeps s₀ (kvIssued t a1) := by
  unfold kvIssued
  repeat' first
    | with_reducible assumption
    | with_reducible apply modThr_keeps

theorem kvRow_keeps {s₀ t : State} (h : Keeps s₀ t) (a1 a2 a3) : Keeps s₀ (kvRow t a1 a2 a3) := by
  unfold kvRow
  extract_lets l0
  have hl0 : Keeps s₀ l0 := by
    dsimp only [l0]
    repeat' first
      | with_reducible assumption
      | with_reducible apply thrFlag_keeps
      | split
  clear_value l0
  repeat' first
    | with_reducible assumption
    | with_reducible apply kvWrite_keeps

theorem kvWriteRun_keeps {s₀ t : State} (h : Keeps s₀ t) (a1 a2 a3 a4 a5 a6) : Keeps s₀ (kvWriteRun t a1 a2 a3 a4 a5 a6) := by
  have hrow (u : State) (hu : Keeps s₀ u) (i off w base : Nat) (pages : List (Nat × DWord)) : Keeps s₀ (
      let x := spmRead u a1 (base + i * (ceilDiv (w * a2.es) 64 * 64)) (w * a2.es)
      kvRow (countStall x.st a1 11 (2 * x.ce)) a1 (pageOf pages ((a3 + i) / 64) + off + (a3 + i) % 64 * (w * a2.es)) x.bytes) :=
    kvRow_keeps (countStall_keeps (spmRead_keeps hu _ _ _) _ _ _) _ _ _
  unfold kvWriteRun
  split
  · next hr => exact kvPages_error h hr
  · next hr =>
    have he := kvEntry_keeps (kvPages_ok h hr) a1 a2 a6
    extract_lets
    split
    · exact he
    · exact Keeps.foldl (fun _ _ hu => hrow _ hu _ _ _ _ _) (Keeps.foldl (fun _ _ hu => hrow _ hu _ _ _ _ _) he)

theorem kvWriteOp_keeps {s₀ t : State} (h : Keeps s₀ t) (a1 a2 a3 a4 a5 a6) : Keeps s₀ (kvWriteOp t a1 a2 a3 a4 a5 a6) := by
  unfold kvWriteOp
  extract_lets l0
  have hl0 : Keeps s₀ l0 := by
    dsimp only [l0]
    repeat' first
      | with_reducible assumption
      | with_reducible apply kvIssued_keeps
  clear_value l0
  repeat' first
    | with_reducible assumption
    | with_reducible apply kvWait_keeps
    | with_reducible apply kvWriteRun_keeps
    | split

theorem kvCompactRun_keeps {s₀ t : State} (h : Keeps s₀ t) (a1 a2 a3 a4) : Keeps s₀ (kvCompactRun t a1 a2 a3 a4) := by
  unfold kvCompactRun
  extract_lets
  split
  · next hr => exact kvPages_error h hr
  · next hr =>
    have he := kvEntry_keeps (kvPages_ok h hr) a1 a2 a4
    extract_lets
    split
    · exact he
    · refine Keeps.foldl (fun _ _ hu => ?_) he
      split
      · exact hu
      · exact Keeps.foldl (fun _ _ hv => kvRow_keeps (mapRead_keeps hv _ _ _) _ _ _) hu

theorem kvCompactOp_keeps {s₀ t : State} (h : Keeps s₀ t) (a1 a2 a3 a4) : Keeps s₀ (kvCompactOp t a1 a2 a3 a4) := by
  unfold kvCompactOp
  extract_lets l0
  have hl0 : Keeps s₀ l0 := by
    dsimp only [l0]
    repeat' first
      | with_reducible assumption
      | with_reducible apply kvIssued_keeps
  clear_value l0
  repeat' first
    | with_reducible assumption
    | with_reducible apply kvWait_keeps
    | with_reducible apply kvCompactRun_keeps
    | split

theorem kvDone_keeps {s₀ t : State} (h : Keeps s₀ t) (a1 a2) : Keeps s₀ (kvDone t a1 a2) := by
  unfold kvDone
  extract_lets l0 l1 l2
  clear_value l0
  have hl1 : Keeps s₀ l1 := by
    dsimp only [l1]
    repeat' first
      | with_reducible assumption
      | with_reducible apply State.setSkq_keeps
  clear_value l1
  clear_value l2
  repeat' first
    | with_reducible assumption
    | with_reducible apply finishSkq_keeps
    | with_reducible apply kvWriteRun_keeps
    | with_reducible apply kvCompactRun_keeps
    | dsimp only
    | split

theorem expandBlock_keeps {s₀ t : State} (h : Keeps s₀ t) (a1 a2 a3) : Keeps s₀ (expandBlock t a1 a2 a3) := by
  unfold expandBlock
  extract_lets l0 l1 l2 l3 l4 l5 l6 l7 l8 l9 l10 l11 l12 l13 l14 l15 l16 l17 l18 l19
  clear_value l0
  clear_value l1
  clear_value l2
  clear_value l3
  have hl5 : Keeps s₀ l5.st := by
    dsimp only [l5]
    repeat' first
      | with_reducible assumption
      | with_reducible apply spmRead_keeps
      | split
  clear_value l5
  have hl6 : Keeps s₀ l6.st := by
    dsimp only [l6]
    repeat' first
      | with_reducible assumption
  clear_value l6
  have hl7 : Keeps s₀ l7.st := by
    dsimp only [l7]
    repeat' first
      | with_reducible assumption
      | with_reducible apply spmRead_keeps
      | split
  clear_value l7
  have hl8 : Keeps s₀ l8.st := by
    dsimp only [l8]
    repeat' first
      | with_reducible assumption
      | with_reducible apply spmRead_keeps
  clear_value l8
  have hl9 : Keeps s₀ l9.st := by
    dsimp only [l9]
    repeat' first
      | with_reducible assumption
      | with_reducible apply spmRead_keeps
  clear_value l9
  have hl10 : Keeps s₀ l10 := by
    dsimp only [l10]
    repeat' first
      | with_reducible assumption
      | with_reducible apply countStall_keeps
  clear_value l10
  clear_value l11
  clear_value l12
  clear_value l13
  have hl16 : Keeps s₀ l16 := by
    dsimp only [l16]
    repeat' first
      | with_reducible assumption
      | with_reducible apply thrFlag_keeps
      | split
  clear_value l16
  clear_value l19
  repeat' first
    | with_reducible assumption
    | with_reducible apply spmWrite_keeps
    | with_reducible refine Keeps.foldl (fun _ _ _ => ?_) ?_

theorem expandStaged_keeps {s₀ t : State} (h : Keeps s₀ t) (a0 a2) : Keeps s₀ (expandStaged a0 t a2) := by
  induction a0 generalizing t a2 with
  | zero => exact h
  | succ k ih =>
  unfold expandStaged
  repeat' first
    | with_reducible apply ih
    | with_reducible assumption
    | with_reducible apply modThr_keeps
    | with_reducible apply modFetch_keeps
    | with_reducible apply expandBlock_keeps
    | dsimp only
    | split

theorem expandDone_keeps {s₀ t : State} (h : Keeps s₀ t) (a1) : Keeps s₀ (expandDone t a1) := by
  unfold expandDone
  extract_lets l0 l1
  clear_value l0
  have hl1 : Keeps s₀ l1 := by
    dsimp only [l1]
    repeat' first
      | with_reducible assumption
      | with_reducible apply expandStaged_keeps
  clear_value l1
  repeat' first
    | with_reducible assumption
    | with_reducible apply modThr_keeps
    | with_reducible apply closeFetch_keeps
    | with_reducible apply semPost_keeps
    | dsimp only
    | split

theorem thrDecode_keeps {s₀ t : State} (h : Keeps s₀ t) (a1 a2) : Keeps s₀ (thrDecode t a1 a2).2 := by
  unfold thrDecode
  extract_lets l0 l1
  clear_value l0
  clear_value l1
  repeat' first
    | with_reducible assumption
    | with_reducible apply readAttRec_keeps
    | with_reducible apply spmRead_keeps
    | with_reducible apply countStall_keeps
    | dsimp only
    | split
theorem thrDecode_keeps_eq {s₀ t r : State} {x0} (h : Keeps s₀ t) {a1 a2} (hr : thrDecode t a1 a2 = (x0, r)) : Keeps s₀ r := by
  have := thrDecode_keeps h a1 a2
  rw [hr] at this
  exact this

theorem thrIssue_keeps {s₀ t : State} (h : Keeps s₀ t) (a1 a2) : Keeps s₀ (thrIssue t a1 a2) := by
  unfold thrIssue
  split
  · extract_lets b run
    have hb : Keeps s₀ b.2 := by
      dsimp only [b]
      split
      · exact h
      · exact bindFetch_keeps h _ _ _
    clear_value run b
    exact modThr_keeps hb _ _
  · exact openFetch_keeps h _ _ _ _
  · exact kvWriteOp_keeps h _ _ _ _ _ _
  · exact kvCompactOp_keeps h _ _ _ _
  · exact modThr_keeps (bindFetch_keeps h _ _ _) _ _

end Sys2Proof.Machine
end

