-- ==== Sys2Proof/Laws/KeepsTine.lean ====
section
/-! SUPPORT. What Machine/Tine.lean does keeps the part, the queue and the canonical form of every sparse memory. -/

namespace Sys2Proof.Machine

theorem tineFlag_keeps {s₀ t : State} (h : Keeps s₀ t) (a1 a2) : Keeps s₀ (tineFlag t a1 a2) := by
  unfold tineFlag
  repeat' first
    | with_reducible assumption
    | with_reducible apply State.raise_keeps

theorem setTine_keeps {s₀ t : State} (h : Keeps s₀ t) (a1 a2 a3) : Keeps s₀ (setTine t a1 a2 a3) := by
  unfold setTine
  repeat' first
    | with_reducible assumption
    | with_reducible refine State.modCore_same ?_ _ (fun _ => rfl) (fun _ => rfl) (fun _ => rfl)

theorem closeFeeds_keeps {s₀ t : State} (h : Keeps s₀ t) (a1) : Keeps s₀ (closeFeeds t a1) := by
  unfold closeFeeds
  extract_lets l0
  repeat' first
    | with_reducible assumption
    | with_reducible apply closeStream_keeps
    | with_reducible refine Keeps.foldl (fun _ _ _ => ?_) ?_
    | split

theorem rescaleTine_keeps {s₀ t : State} (h : Keeps s₀ t) (a0 a1 a2 a3 a4 a6) : Keeps s₀ (rescaleTine a0 a1 a2 a3 a4 t a6) := by
  unfold rescaleTine
  extract_lets l0 l1 l2 l3 l4 l5 l6 l7 l8 l9
  clear_value l0
  clear_value l1
  clear_value l2
  clear_value l3
  clear_value l4
  clear_value l5
  have hl6 : Keeps s₀ l6 := by
    dsimp only [l6]
    repeat' first
      | with_reducible assumption
      | with_reducible apply State.bump_keeps
  clear_value l6
  have hl7 : Keeps s₀ l7 := by
    dsimp only [l7]
    repeat' first
      | with_reducible assumption
      | with_reducible apply State.bump_keeps
  clear_value l7
  clear_value l8
  clear_value l9
  repeat' first
    | with_reducible assumption
    | with_reducible apply setTine_keeps

theorem fetchSlots_keeps {s₀ t : State} (h : Keeps s₀ t) {a1 a2 a3 a4 a5 a6 a7} {r : SpmRd}
    (hr : fetchSlots t a1 a2 a3 a4 a5 a6 a7 = some r) : Keeps s₀ r.st := by
  unfold fetchSlots at hr
  split at hr
  · cases hr; exact readOperandNeed_keeps h _ _ _ _ _
  · split at hr
    · cases hr
    · obtain ⟨_, _, rfl⟩ := Option.map_eq_some_iff.mp hr; exact h

theorem fetchGroup_keeps {s₀ t : State} (h : Keeps s₀ t) {a1 a2 a3 a4} {d : GroupData} (hr : fetchGroup t a1 a2 a3 a4 = some d) :
    Keeps s₀ d.st := by
  unfold fetchGroup at hr
  extract_lets aLen wLen aStep wStep parts rowOf at hr
  split at hr
  · cases hr
  next ra ha =>
  split at hr
  · cases hr
  next rw hw =>
  have h2 := fetchSlots_keeps (fetchSlots_keeps h ha) hw
  obtain rfl := Option.some.inj hr
  dsimp only
  split
  · exact h2
  · exact spmRead_keeps h2 _ _ _

theorem consumeRows_keeps {s₀ t : State} (h : Keeps s₀ t) (a1 a2 a3) : Keeps s₀ (consumeRows t a1 a2 a3) := by
  unfold consumeRows
  repeat' first
    | with_reducible assumption
    | with_reducible apply pastRow_keeps
    | split

theorem rescaleGroup_keeps {s₀ t : State} (h : Keeps s₀ t) (a1 a2 a3) : Keeps s₀ (rescaleGroup t a1 a2 a3) := by
  unfold rescaleGroup
  extract_lets p scalePtr last
  clear_value last p scalePtr
  split
  · exact countStall_keeps h _ _ _
  next d hd =>
  extract_lets v s1 s2 s3 s4 s5
  have h1 : Keeps s₀ s1 := countStall_keeps (fetchGroup_keeps h hd) _ _ _
  clear_value s1
  have h2 : Keeps s₀ s2 := by
    dsimp only [s2]
    split
    · exact State.bump_keeps h1 _ _
    · exact h1
  clear_value s2
  have h3 : Keeps s₀ s3 := by
    dsimp only [s3]
    exact Keeps.foldl (fun _ _ hu => rescaleTine_keeps hu _ _ _ _ _ _) h2
  clear_value s3
  have h4 : Keeps s₀ s4 := by
    dsimp only [s4]
    exact consumeRows_keeps h3 _ _ _
  clear_value s4
  have h5 : Keeps s₀ s5 := by
    dsimp only [s5]
    exact consumeRows_keeps h4 _ _ _
  clear_value s5
  exact Keeps.ite (closeFeeds_keeps h5 _) h5

theorem tineRescale_keeps {s₀ t : State} (h : Keeps s₀ t) (a1 a2) : Keeps s₀ (tineRescale t a1 a2) := by
  unfold tineRescale
  repeat' first
    | with_reducible assumption
    | with_reducible apply countStall_keeps
    | with_reducible apply rescaleGroup_keeps
    | split

theorem drainRow_keeps {s₀ t : State} (h : Keeps s₀ t) (a1 a2 a3 a4 a5) : Keeps s₀ (drainRow t a1 a2 a3 a4 a5) := by
  unfold drainRow
  extract_lets l0 l1 l2 l3 l4 l5
  clear_value l0
  clear_value l1
  clear_value l2
  clear_value l3
  have hl4 : Keeps s₀ l4 := by
    dsimp only [l4]
    repeat' first
      | with_reducible assumption
      | with_reducible apply tineFlag_keeps
      | split
  clear_value l4
  have hl5 : Keeps s₀ l5 := by
    dsimp only [l5]
    repeat' first
      | with_reducible assumption
      | with_reducible apply tineFlag_keeps
      | split
  clear_value l5
  repeat' first
    | with_reducible assumption
    | with_reducible refine State.modCore_same ?_ _ (fun _ => rfl) (fun _ => rfl) (fun _ => rfl)
    | with_reducible apply spmWrite_keeps
    | split

theorem drainScales_keeps {s₀ t : State} (h : Keeps s₀ t) (a1 a2 a3) : Keeps s₀ (drainScales t a1 a2 a3).2 := by
  unfold drainScales
  extract_lets l0
  have hl0 : Keeps s₀ l0.st := by
    dsimp only [l0]
    repeat' first
      | with_reducible assumption
      | with_reducible apply spmRead_keeps
  clear_value l0
  repeat' first
    | with_reducible assumption
    | with_reducible apply countStall_keeps
    | split
theorem drainScales_keeps_eq {s₀ t r : State} {x0} (h : Keeps s₀ t) {a1 a2 a3} (hr : drainScales t a1 a2 a3 = (x0, r)) : Keeps s₀ r := by
  have := drainScales_keeps h a1 a2 a3
  rw [hr] at this
  exact this

theorem drainNext_keeps {s₀ t : State} (h : Keeps s₀ t) (a1 a2) : ∀ r, drainNext t a1 a2 = some r → Keeps s₀ r := by
  unfold drainNext
  repeat' first
    | with_reducible assumption
    | (intro _ hr; with_reducible cases hr)
    | with_reducible apply drainScales_keeps
    | with_reducible apply drainRow_keeps
    | with_reducible apply setTine_keeps
    | with_reducible apply State.bump_keeps
    | dsimp only
    | split
theorem drainNext_keeps_eq {s₀ t r : State} (h : Keeps s₀ t) {a1 a2} (hr : drainNext t a1 a2 = some r) : Keeps s₀ r :=
  drainNext_keeps h a1 a2 _ hr

theorem drainRows_keeps {s₀ t : State} (h : Keeps s₀ t) (a0 a2 a3) : Keeps s₀ (drainRows a0 t a2 a3) := by
  induction a0 generalizing t a2 a3 with
  | zero => exact h
  | succ k ih =>
  unfold drainRows
  repeat' first
    | with_reducible apply ih
    | with_reducible assumption
    | refine drainNext_keeps_eq ?_ (by assumption)
    | split

theorem diagRowsOut_keeps {s₀ t : State} (h : Keeps s₀ t) (a1 a2) : Keeps s₀ (diagRowsOut t a1 a2) := by
  unfold diagRowsOut
  extract_lets l0 l1 l2 l3
  clear_value l0
  clear_value l1
  have hl2 : Keeps s₀ l2 := by
    dsimp only [l2]
    repeat' first
      | with_reducible assumption
      | with_reducible refine State.modCore_same ?_ _ (fun _ => rfl) (fun _ => rfl) (fun _ => rfl)
  clear_value l2
  clear_value l3
  repeat' first
    | with_reducible assumption
    | with_reducible apply setTine_keeps

theorem tineDrain_keeps {s₀ t : State} (h : Keeps s₀ t) (a1 a2) : Keeps s₀ (tineDrain t a1 a2) := by
  unfold tineDrain
  extract_lets l0 l1 l2
  have hl0 : Keeps s₀ l0 := by
    dsimp only [l0]
    repeat' first
      | with_reducible assumption
      | with_reducible apply diagRowsOut_keeps
  clear_value l0
  clear_value l1
  have hl2 : Keeps s₀ l2 := by
    dsimp only [l2]
    repeat' first
      | with_reducible assumption
      | with_reducible apply drainRows_keeps
  clear_value l2
  repeat' first
    | with_reducible assumption
    | with_reducible apply countStall_keeps
    | split

theorem portEarly_keeps {s₀ t : State} (h : Keeps s₀ t) (a1 a2 a3) : Keeps s₀ (portEarly t a1 a2 a3) := by
  unfold portEarly
  extract_lets l0
  clear_value l0
  repeat' first
    | with_reducible assumption
    | with_reducible apply setTine_keeps
    | split

theorem holdDrain_keeps {s₀ t : State} (h : Keeps s₀ t) (a0 a2 a3 a4) : Keeps s₀ (holdDrain a0 t a2 a3 a4) := by
  induction a0 generalizing t a2 a3 a4 with
  | zero => exact h
  | succ k ih =>
  unfold holdDrain
  repeat' first
    | with_reducible apply ih
    | with_reducible assumption
    | with_reducible apply countStall_keeps
    | with_reducible apply portEarly_keeps
    | refine drainNext_keeps_eq ?_ (by assumption)
    | split

theorem tineWork_keeps {s₀ t : State} (h : Keeps s₀ t) (a0 a2 a3) : Keeps s₀ (tineWork a0 t a2 a3) := by
  induction a0 generalizing t a2 a3 with
  | zero => exact h
  | succ k ih =>
  unfold tineWork
  repeat' first
    | with_reducible apply ih
    | with_reducible assumption
    | with_reducible apply rescaleGroup_keeps
    | with_reducible apply diagRowsOut_keeps
    | with_reducible apply holdDrain_keeps
    | with_reducible refine Keeps.foldl (fun _ _ _ => ?_) ?_
    | refine drainNext_keeps_eq ?_ (by assumption)
    | dsimp only
    | split

theorem diagVector_keeps {s₀ t : State} (h : Keeps s₀ t) (a1 a2 a3 a4 a5 a6) : Keeps s₀ (diagVector t a1 a2 a3 a4 a5 a6) := by
  unfold diagVector
  extract_lets l0 l1 l2 l3 l4 l5 l6 l7 l8 l9 l10 l11 l12 l13 l14
  clear_value l0
  clear_value l1
  clear_value l2
  clear_value l3
  have hl4 : Keeps s₀ l4.st := by
    dsimp only [l4]
    repeat' first
      | with_reducible assumption
      | with_reducible apply readOperand_keeps
  clear_value l4
  have hl5 : Keeps s₀ l5.st := by
    dsimp only [l5]
    repeat' first
      | with_reducible assumption
      | with_reducible apply readOperand_keeps
  clear_value l5
  have hl6 : Keeps s₀ l6.st := by
    dsimp only [l6]
    repeat' first
      | with_reducible assumption
      | with_reducible apply spmRead_keeps
      | split
  clear_value l6
  clear_value l7
  clear_value l8
  have hl9 : Keeps s₀ l9 := by
    dsimp only [l9]
    repeat' first
      | with_reducible assumption
      | with_reducible apply countStall_keeps
  clear_value l9
  have hl10 : Keeps s₀ l10 := by
    dsimp only [l10]
    repeat' first
      | with_reducible assumption
      | with_reducible apply tineFlag_keeps
      | split
  clear_value l10
  have hl11 : Keeps s₀ l11 := by
    dsimp only [l11]
    repeat' first
      | with_reducible assumption
      | with_reducible apply tineFlag_keeps
      | split
  clear_value l11
  have hl12 : Keeps s₀ l12 := by
    dsimp only [l12]
    repeat' first
      | with_reducible assumption
      | with_reducible apply tineFlag_keeps
      | split
  clear_value l12
  clear_value l13
  clear_value l14
  repeat' first
    | with_reducible assumption
    | with_reducible apply setTine_keeps
    | with_reducible apply spmWrite_keeps
    | split

theorem cubeStep_keeps {s₀ t : State} (h : Keeps s₀ t) (a1 a2) : Keeps s₀ (cubeStep t a1 a2) := by
  unfold cubeStep
  extract_lets l0 l1 l2 l3 l4 l5 l6 l7 l8 l9 l10 l11 l12 l13 l14 l15 l16 l17 l18
  clear_value l0
  clear_value l1
  clear_value l2
  clear_value l3
  clear_value l4
  have hl5 : Keeps s₀ l5.st := by
    dsimp only [l5]
    repeat' first
      | with_reducible assumption
      | with_reducible apply spmRead_keeps
  clear_value l5
  have hl6 : Keeps s₀ l6.st := by
    dsimp only [l6]
    repeat' first
      | with_reducible assumption
      | with_reducible apply spmRead_keeps
  clear_value l6
  have hl7 : Keeps s₀ l7 := by
    dsimp only [l7]
    repeat' first
      | with_reducible assumption
      | with_reducible apply countStall_keeps
  clear_value l7
  clear_value l8
  clear_value l9
  clear_value l14
  clear_value l16
  clear_value l17
  have hl18 : Keeps s₀ l18 := by
    dsimp only [l18]
    repeat' first
      | with_reducible assumption
      | with_reducible apply tineFlag_keeps
      | split
  clear_value l18
  repeat' first
    | with_reducible assumption
    | with_reducible apply setTine_keeps

theorem cubeStore_keeps {s₀ t : State} (h : Keeps s₀ t) (a1 a2 a3 a4) : Keeps s₀ (cubeStore t a1 a2 a3 a4) := by
  unfold cubeStore
  extract_lets l0 l1 l2
  clear_value l0
  clear_value l1
  clear_value l2
  repeat' first
    | with_reducible assumption
    | with_reducible apply setTine_keeps

end Sys2Proof.Machine
end

