-- ==== Sys2Proof/Laws/KeepsSlots.lean ====
section
/-! SUPPORT. What Machine/Slots.lean does keeps the part, the queue and the canonical form of every sparse memory. -/

namespace Sys2Proof.Machine

theorem readTileRec_keeps {s₀ t : State} (h : Keeps s₀ t) (a1 a2) : Keeps s₀ (readTileRec t a1 a2).2 := by
  unfold readTileRec
  repeat' first
    | with_reducible assumption
    | with_reducible apply spmRead_keeps
    | with_reducible apply countStall_keeps
    | dsimp only
    | split
theorem readTileRec_keeps_eq {s₀ t r : State} {x0} (h : Keeps s₀ t) {a1 a2} (hr : readTileRec t a1 a2 = (x0, r)) : Keeps s₀ r := by
  have := readTileRec_keeps h a1 a2
  rw [hr] at this
  exact this

theorem readMask_keeps {s₀ t : State} (h : Keeps s₀ t) (a1 a2) : Keeps s₀ (readMask t a1 a2).2.2 := by
  unfold readMask
  extract_lets l0 l1
  have hl0 : Keeps s₀ l0.st := by
    dsimp only [l0]
    repeat' first
      | with_reducible assumption
      | with_reducible apply spmRead_keeps
  clear_value l0
  clear_value l1
  repeat' first
    | with_reducible assumption
    | with_reducible apply countStall_keeps
    | split
theorem readMask_keeps_eq {s₀ t r : State} {x0 x1} (h : Keeps s₀ t) {a1 a2} (hr : readMask t a1 a2 = (x0, x1, r)) : Keeps s₀ r := by
  have := readMask_keeps h a1 a2
  rw [hr] at this
  exact this

theorem mmaDecode_keeps {s₀ t : State} (h : Keeps s₀ t) (a1 a2 a3) : Keeps s₀ (mmaDecode t a1 a2 a3).2 := by
  unfold mmaDecode
  extract_lets l0 l1 l2 l3 l4 l5
  clear_value l0
  clear_value l1
  clear_value l2
  clear_value l3
  clear_value l4
  have hl5 : Keeps s₀ l5.2.2 := by
    dsimp only [l5]
    repeat' first
      | with_reducible assumption
      | with_reducible apply readMask_keeps
  clear_value l5
  repeat' first
    | with_reducible assumption
    | dsimp only
    | split
theorem mmaDecode_keeps_eq {s₀ t r : State} {x0} (h : Keeps s₀ t) {a1 a2 a3} (hr : mmaDecode t a1 a2 a3 = (x0, r)) : Keeps s₀ r := by
  have := mmaDecode_keeps h a1 a2 a3
  rw [hr] at this
  exact this

theorem cubeDecode_keeps {s₀ t : State} (h : Keeps s₀ t) (a1 a2) : Keeps s₀ (cubeDecode t a1 a2).2 := by
  unfold cubeDecode
  repeat' first
    | with_reducible assumption
    | with_reducible apply spmRead_keeps
    | with_reducible apply countStall_keeps
    | dsimp only
    | split
theorem cubeDecode_keeps_eq {s₀ t r : State} {x0} (h : Keeps s₀ t) {a1 a2} (hr : cubeDecode t a1 a2 = (x0, r)) : Keeps s₀ r := by
  have := cubeDecode_keeps h a1 a2
  rw [hr] at this
  exact this

theorem tineDecode_keeps {s₀ t : State} (h : Keeps s₀ t) (a1 a2) : Keeps s₀ (tineDecode t a1 a2).2 := by
  unfold tineDecode
  extract_lets l0 l1 l2
  clear_value l0
  have hl2 : Keeps s₀ l2.2 := by
    dsimp only [l2]
    repeat' first
      | with_reducible assumption
      | with_reducible apply readTileRec_keeps
  clear_value l2
  repeat' first
    | with_reducible assumption
    | with_reducible apply cubeDecode_keeps
    | with_reducible apply mmaDecode_keeps
    | split
theorem tineDecode_keeps_eq {s₀ t r : State} {x0} (h : Keeps s₀ t) {a1 a2} (hr : tineDecode t a1 a2 = (x0, r)) : Keeps s₀ r := by
  have := tineDecode_keeps h a1 a2
  rw [hr] at this
  exact this

theorem claimRows_keeps {s₀ t : State} (h : Keeps s₀ t) (a1 a2 a3) : Keeps s₀ (claimRows t a1 a2 a3) := by
  unfold claimRows
  repeat' first
    | with_reducible assumption
    | with_reducible apply modHrw_keeps

theorem tineIssue_keeps {s₀ t : State} (h : Keeps s₀ t) (a1 a2) : Keeps s₀ (tineIssue t a1 a2) := by
  unfold tineIssue
  extract_lets l0
  have hl0 : Keeps s₀ l0 := by
    dsimp only [l0]
    repeat' first
      | with_reducible assumption
      | with_reducible refine State.modCore_same ?_ _ (fun _ => rfl) (fun _ => rfl) (fun _ => rfl)
  clear_value l0
  repeat' first
    | with_reducible assumption
    | with_reducible apply claimRows_keeps
    | with_reducible refine State.modCore_same ?_ _ (fun _ => rfl) (fun _ => rfl) (fun _ => rfl)
    | with_reducible apply setTine_keeps
    | with_reducible apply diagRowsOut_keeps
    | with_reducible apply diagVector_keeps
    | with_reducible apply cubeStep_keeps
    | with_reducible apply cubeStore_keeps
    | with_reducible refine Keeps.foldl (fun _ _ _ => ?_) ?_
    | dsimp only
    | split

theorem hrwIssue_keeps {s₀ t : State} (h : Keeps s₀ t) (a1 a2) : Keeps s₀ (hrwIssue t a1 a2) := by
  unfold hrwIssue
  repeat' first
    | with_reducible assumption
    | with_reducible apply decodeOpen_keeps
    | with_reducible apply modHrw_keeps
    | with_reducible apply tblLoad_keeps
    | split

theorem skidDecode_keeps {s₀ t : State} (h : Keeps s₀ t) (a1 a2) : Keeps s₀ (skidDecode t a1 a2).2 := by
  unfold skidDecode
  extract_lets l0 l1
  clear_value l0
  clear_value l1
  repeat' first
    | with_reducible assumption
    | with_reducible apply spmRead_keeps
    | with_reducible apply countStall_keeps
    | dsimp only
    | split
theorem skidDecode_keeps_eq {s₀ t r : State} {x0} (h : Keeps s₀ t) {a1 a2} (hr : skidDecode t a1 a2 = (x0, r)) : Keeps s₀ r := by
  have := skidDecode_keeps h a1 a2
  rw [hr] at this
  exact this

theorem skidIssue_keeps {s₀ t : State} (h : Keeps s₀ t) (a1 a2) : Keeps s₀ (skidIssue t a1 a2) := by
  unfold skidIssue
  extract_lets l0 l1
  have hl0 : Keeps s₀ l0 := by
    dsimp only [l0]
    repeat' first
      | with_reducible assumption
      | with_reducible apply modHrw_keeps
      | split
  clear_value l0
  have hl1 : Keeps s₀ l1.2 := by
    dsimp only [l1]
    repeat' first
      | with_reducible assumption
      | with_reducible apply startXfer_keeps
  clear_value l1
  repeat' first
    | with_reducible assumption
    | with_reducible apply skqAdd_keeps

theorem hdgIssue_keeps {s₀ t : State} (h : Keeps s₀ t) (a1 a2) : Keeps s₀ (hdgIssue t a1 a2) := by
  unfold hdgIssue
  extract_lets l0 l1 l2
  clear_value l0
  clear_value l1
  clear_value l2
  repeat' first
    | with_reducible assumption
    | with_reducible apply setSemVal_keeps
    | with_reducible apply semPost_keeps
    | with_reducible apply postName_keeps
    | with_reducible apply arriveName_keeps
    | split

end Sys2Proof.Machine
end

