-- ==== Sys2Proof/Laws/KeepsBundle.lean ====
section
/-! SUPPORT. What Machine/Bundle.lean does keeps the part, the queue and the canonical form of every sparse memory. -/

namespace Sys2Proof.Machine

theorem fetchBundle_keeps {s₀ t : State} (h : Keeps s₀ t) (a1) : Keeps s₀ (fetchBundle t a1).2 := by
  unfold fetchBundle
  extract_lets l0 l1 l2 l3 l4 l5
  clear_value l1
  have hl2 : Keeps s₀ l2.st := by
    dsimp only [l2]
    repeat' first
      | with_reducible assumption
      | with_reducible apply spmRead_keeps
  clear_value l2
  have hl3 : Keeps s₀ l3 := by
    dsimp only [l3]
    repeat' first
      | with_reducible assumption
      | with_reducible apply countStall_keeps
  clear_value l3
  clear_value l4
  clear_value l5
  repeat' first
    | with_reducible assumption
    | with_reducible refine State.modCore_same ?_ _ (fun _ => rfl) (fun _ => rfl) (fun _ => rfl)
    | split
theorem fetchBundle_keeps_eq {s₀ t r : State} {x0} (h : Keeps s₀ t) {a1} (hr : fetchBundle t a1 = (x0, r)) : Keeps s₀ r := by
  have := fetchBundle_keeps h a1
  rw [hr] at this
  exact this

theorem encBegins_keeps {s₀ t : State} (h : Keeps s₀ t) (a1 a2) : Keeps s₀ (encBegins t a1 a2) := by
  unfold encBegins
  repeat' first
    | with_reducible assumption
    | with_reducible apply modHrw_keeps
    | split

theorem takeRows_keeps {s₀ t : State} (h : Keeps s₀ t) (a1 a2) : Keeps s₀ (takeRows t a1 a2) := by
  unfold takeRows
  repeat' first
    | with_reducible assumption
    | with_reducible refine State.modCore_same ?_ _ (fun _ => rfl) (fun _ => rfl) (fun _ => rfl)

theorem giveRows_keeps {s₀ t : State} (h : Keeps s₀ t) (a1) : Keeps s₀ (giveRows t a1) := by
  unfold giveRows
  repeat' first
    | with_reducible assumption
    | with_reducible refine State.modCore_same ?_ _ (fun _ => rfl) (fun _ => rfl) (fun _ => rfl)

theorem updateARs_keeps {s₀ t : State} (h : Keeps s₀ t) (a1 a2 a3) : Keeps s₀ (updateARs t a1 a2 a3) := by
  unfold updateARs
  extract_lets l0
  have hl0 : Keeps s₀ l0 := by
    dsimp only [l0]
    repeat' first
      | with_reducible assumption
      | with_reducible apply writeAR_keeps
      | with_reducible refine Keeps.foldl (fun _ _ _ => ?_) ?_
  clear_value l0
  repeat' first
    | with_reducible assumption
    | with_reducible apply writeAR_keeps
    | split

theorem advancePc_canonical {c : CoreState} (k : c.Canonical) (v : Nat) : (advancePc c v).Canonical := by
  unfold advancePc
  split
  · exact ⟨k.spm, k.written, k.sht⟩
  · exact ⟨k.spm, k.written, k.sht⟩

/-- What the issue of a bundle's slots keeps. -/
def IssueKeeps (s₀ : State) : IssueResult → Prop
  | .hold _ t => Keeps s₀ t
  | .illegal _ => True
  | .issued t => Keeps s₀ t

theorem issueSlots_keeps {s₀ t : State} (h : Keeps s₀ t) (a1 a2) : IssueKeeps s₀ (issueSlots t a1 a2) := by
  unfold issueSlots
  extract_lets vu tt th hh s1 sk s2 encOk thrOp entries holds rowsShort s3
  clear_value vu tt th hh
  have h1 : Keeps s₀ s1 := by
    dsimp only [s1]
    split
    · exact hrwIssue_keeps h _ _
    · exact hrwIssue_keeps h _ _
    · exact h
  have hk : Keeps s₀ sk.2 := skidDecode_keeps h1 _ _
  clear_value sk
  have h2 : Keeps s₀ s2 := by
    dsimp only [s2]
    split
    · exact skidIssue_keeps hk _ _
    · exact hk
  have h3 : Keeps s₀ s3 := by
    dsimp only [s3]
    split
    · exact hrwIssue_keeps h2 _ _
    · exact h2
  clear_value s3 encOk thrOp entries holds rowsShort
  split
  · show Keeps s₀ (match hh with
      | some (some (.encode e)) => encBegins t a1 e
      | _ => t)
    split
    · exact encBegins_keeps h _ _
    · exact h
  split
  · exact takeRows_keeps h _ _
  split
  · trivial
  split
  · trivial
  split
  · trivial
  split
  · trivial
  split
  · trivial
  split
  · trivial
  split
  · trivial
  split
  · trivial
  extract_lets s4 s5 s6
  have h4 : Keeps s₀ s4 := by
    dsimp only [s4]
    split
    · exact tineIssue_keeps (tineDecode_keeps h3 _ _) _ _
    · exact h3
  have h5 : Keeps s₀ s5 := vuExec_keeps (giveRows_keeps h4 _) _ _
  have h6 : Keeps s₀ s6 := by
    dsimp only [s6]
    split
    · exact thrIssue_keeps (thrDecode_keeps h5 _ _) _ _
    · exact h5
  exact hdgIssue_keeps h6 _ _

theorem engineCycle_keeps {s₀ t : State} (h : Keeps s₀ t) (a1 a2) : Keeps s₀ (engineCycle t a1 a2) := by
  unfold engineCycle
  extract_lets l0 l1
  have hl0 : Keeps s₀ l0 := by
    dsimp only [l0]
    repeat' first
      | with_reducible assumption
      | with_reducible apply encRead_keeps
  clear_value l0
  have hl1 : Keeps s₀ l1 := by
    dsimp only [l1]
    repeat' first
      | with_reducible assumption
      | with_reducible apply tineWork_keeps
  clear_value l1
  repeat' first
    | with_reducible assumption
    | with_reducible apply writeRows_keeps

theorem engineRun_keeps {s₀ t : State} (h : Keeps s₀ t) (a0 a2) : Keeps s₀ (engineRun a0 t a2) := by
  induction a0 generalizing t a2 with
  | zero => exact h
  | succ k ih =>
  unfold engineRun
  repeat' first
    | with_reducible apply ih
    | extract_lets
    | with_reducible assumption
    | with_reducible refine State.modCore_same ?_ _ (fun _ => rfl) (fun _ => rfl) (fun _ => rfl)
    | with_reducible apply engineCycle_keeps
    | split

theorem engines_keeps {s₀ t : State} (h : Keeps s₀ t) (a1 a2) : Keeps s₀ (engines t a1 a2) := by
  unfold engines
  repeat' first
    | with_reducible assumption
    | with_reducible refine State.modCore_same ?_ _ (fun _ => rfl) (fun _ => rfl) (fun _ => rfl)
    | with_reducible apply engineRun_keeps
    | split

theorem issueBundle_keeps {s₀ t : State} (h : Keeps s₀ t) (a1 a2 a3) : Keeps s₀ (issueBundle t a1 a2 a3) := by
  unfold issueBundle
  extract_lets b stop
  clear_value stop
  have hi := issueSlots_keeps h a1 b
  split
  · exact countStall_keeps h _ _ _
  split
  next hr => rw [hr] at hi; exact countStall_keeps hi _ _ _
  · exact trapCore_keeps h _ _ _ _
  next u hr =>
  rw [hr] at hi
  have hi : Keeps s₀ u := hi
  split
  · exact trapCore_keeps h _ _ _ _
  extract_lets u1 u2 u3 u4
  have h1 : Keeps s₀ u1 := updateARs_keeps hi _ _ _
  have h2 : Keeps s₀ u2 := State.modCore_keeps h1 _ fun c k => advancePc_canonical k b.ctl
  clear_value u2 u1
  have h3 : Keeps s₀ u3 := State.bump_keeps (countProg_keeps h2 _ _) _ _
  clear_value u3
  have h4 : Keeps s₀ u4 := engines_keeps h3 _ _
  clear_value u4
  split
  · refine writeRows_keeps (encRead_keeps ?_ _ _) _ _
    exact State.modCore_same h4 _ (fun _ => rfl) (fun _ => rfl) (fun _ => rfl)
  · exact h4

theorem bundleIssue_keeps {s₀ t : State} (h : Keeps s₀ t) (a1 a2 a3) : Keeps s₀ (bundleIssue t a1 a2 a3) := by
  unfold bundleIssue
  extract_lets l0
  have hl0 : Keeps s₀ l0 := by
    dsimp only [l0]
    repeat' first
      | with_reducible assumption
      | with_reducible apply countStall_keeps
      | with_reducible refine Keeps.foldl (fun _ _ _ => ?_) ?_
      | split
  clear_value l0
  repeat' first
    | with_reducible assumption
    | with_reducible apply countStall_keeps
    | with_reducible apply scheduled_keeps
    | with_reducible apply engines_keeps
    | with_reducible apply fetchBundle_keeps
    | with_reducible apply trapCore_keeps
    | with_reducible apply issueBundle_keeps
    | dsimp only
    | split

theorem hdgTimeout_keeps {s₀ t : State} (h : Keeps s₀ t) (a1 a2) : Keeps s₀ (hdgTimeout t a1 a2) := by
  unfold hdgTimeout
  repeat' first
    | with_reducible assumption
    | with_reducible apply trapCore_keeps
    | split

theorem watchdog_keeps {s₀ t : State} (h : Keeps s₀ t) (a1 a2) : Keeps s₀ (watchdog t a1 a2) := by
  unfold watchdog
  extract_lets l0
  clear_value l0
  repeat' first
    | with_reducible assumption
    | with_reducible apply trapCore_keeps
    | split

theorem coreReject_keeps {s₀ t : State} (h : Keeps s₀ t) (a1) : Keeps s₀ (coreReject t a1) := by
  unfold coreReject
  repeat' first
    | with_reducible assumption
    | with_reducible apply State.raise_keeps

theorem seqStart_keeps {s₀ t : State} (h : Keeps s₀ t) (a1) : Keeps s₀ (seqStart t a1) := by
  unfold seqStart
  repeat' first
    | with_reducible assumption
    | with_reducible refine State.modCore_same ?_ _ (fun _ => rfl) (fun _ => rfl) (fun _ => rfl)
    | with_reducible apply coreReject_keeps
    | split

theorem seqResume_keeps {s₀ t : State} (h : Keeps s₀ t) (a1) : Keeps s₀ (seqResume t a1) := by
  unfold seqResume
  extract_lets l0
  clear_value l0
  repeat' first
    | with_reducible assumption
    | with_reducible apply State.setReg_keeps
    | with_reducible refine State.modCore_same ?_ _ (fun _ => rfl) (fun _ => rfl) (fun _ => rfl)
    | with_reducible apply coreReject_keeps
    | split

theorem seqHalt_keeps {s₀ t : State} (h : Keeps s₀ t) (a1 a2) : Keeps s₀ (seqHalt t a1 a2) := by
  unfold seqHalt
  repeat' first
    | with_reducible assumption
    | with_reducible apply trapCore_keeps
    | with_reducible apply coreReject_keeps
    | split

theorem coreCtrl_keeps {s₀ t : State} (h : Keeps s₀ t) (a1 a2) : Keeps s₀ (coreCtrl t a1 a2) := by
  unfold coreCtrl
  repeat' first
    | with_reducible assumption
    | with_reducible apply seqStart_keeps
    | with_reducible apply seqResume_keeps
    | with_reducible apply seqHalt_keeps
    | with_reducible apply coreReject_keeps
    | split

theorem sequencerStopped_keeps {s₀ t : State} (h : Keeps s₀ t) (a1) : Keeps s₀ (sequencerStopped t a1) := by
  unfold sequencerStopped
  repeat' first
    | with_reducible assumption
    | with_reducible apply State.raise_keeps
    | with_reducible refine State.modCore_same ?_ _ (fun _ => rfl) (fun _ => rfl) (fun _ => rfl)
    | split

end Sys2Proof.Machine
end

