-- ==== Sys2Proof/Laws/KeepsFabric.lean ====
section
/-! SUPPORT. What Machine/Fabric.lean does keeps the part, the queue and the canonical form of every sparse memory. -/

namespace Sys2Proof.Machine

theorem loseTxns_keeps {s₀ t : State} (h : Keeps s₀ t) (a1) : Keeps s₀ (loseTxns t a1) := by
  unfold loseTxns
  extract_lets l0 l1
  clear_value l0
  have hl1 : Keeps s₀ l1 := by
    dsimp only [l1]
    repeat' first
      | with_reducible assumption
      | with_reducible apply Keeps.update
  clear_value l1
  repeat' first
    | with_reducible assumption
    | with_reducible apply headAck_keeps
    | with_reducible apply modXfer_keeps
    | with_reducible apply failRead_keeps
    | with_reducible refine Keeps.foldl (fun _ _ _ => ?_) ?_
    | dsimp only
    | split

theorem portDown_keeps {s₀ t : State} (h : Keeps s₀ t) (a1) : Keeps s₀ (portDown t a1) := by
  unfold portDown
  extract_lets l0 l1 l2 l3
  clear_value l0
  clear_value l1
  have hl2 : Keeps s₀ l2 := by
    dsimp only [l2]
    repeat' first
      | with_reducible assumption
      | with_reducible apply State.setPort_keeps
      | with_reducible apply setPortState_keeps
  clear_value l2
  have hl3 : Keeps s₀ l3 := by
    dsimp only [l3]
    repeat' first
      | with_reducible assumption
      | with_reducible apply State.bump_keeps
  clear_value l3
  repeat' first
    | with_reducible assumption
    | with_reducible apply fabFlag_keeps
    | with_reducible apply loseTxns_keeps

theorem portTrainingDone_keeps {s₀ t : State} (h : Keeps s₀ t) (a1 a2 a3 a4 a5) : Keeps s₀ (portTrainingDone t a1 a2 a3 a4 a5) := by
  unfold portTrainingDone
  extract_lets l0 l1 l2
  clear_value l0
  clear_value l1
  have hl2 : Keeps s₀ l2 := by
    dsimp only [l2]
    repeat' first
      | with_reducible assumption
      | with_reducible apply State.setReg_keeps
  clear_value l2
  repeat' first
    | with_reducible assumption
    | with_reducible apply State.setReg_keeps
    | with_reducible apply State.setPort_keeps
    | with_reducible apply fabFlag_keeps
    | with_reducible apply setPortState_keeps
    | with_reducible apply setPeerGen_keeps
    | with_reducible apply loseTxns_keeps
    | with_reducible apply replayFrom_keeps
    | with_reducible apply flood_keeps
    | with_reducible apply releasePort_keeps
    | with_reducible apply State.bump_keeps
    | with_reducible apply portDown_keeps
    | dsimp only
    | split

theorem fabCfgWrite_keeps {s₀ t : State} (h : Keeps s₀ t) (a1) : Keeps s₀ (fabCfgWrite t a1) := by
  unfold fabCfgWrite
  extract_lets l0 l1
  clear_value l0
  have hl1 : Keeps s₀ l1 := by
    dsimp only [l1]
    repeat' first
      | with_reducible assumption
      | with_reducible apply State.setReg_keeps
  clear_value l1
  repeat' first
    | with_reducible assumption
    | with_reducible apply fabFlag_keeps
    | with_reducible apply portTraining_keeps
    | with_reducible apply portDown_keeps
    | with_reducible refine Keeps.foldl (fun _ _ _ => ?_) ?_
    | split

theorem fabRouteWrite_keeps {s₀ t : State} (h : Keeps s₀ t) (a1 a2) : Keeps s₀ (fabRouteWrite t a1 a2) := by
  unfold fabRouteWrite
  repeat' first
    | with_reducible assumption
    | with_reducible apply fabFlag_keeps
    | with_reducible apply State.setReg_keeps
    | split

theorem windowEntryWrite_keeps {s₀ t : State} (h : Keeps s₀ t) (a1 a2 a3 a4) : Keeps s₀ (windowEntryWrite t a1 a2 a3 a4) := by
  unfold windowEntryWrite
  extract_lets l0 l1
  clear_value l0
  have hl1 : Keeps s₀ l1 := by
    dsimp only [l1]
    repeat' first
      | with_reducible assumption
      | with_reducible apply State.raise_keeps
  clear_value l1
  repeat' first
    | with_reducible assumption
    | with_reducible apply State.raise_keeps
    | with_reducible apply State.setReg_keeps
    | split

theorem winSync_keeps {s₀ t : State} (h : Keeps s₀ t) (a1) : Keeps s₀ (winSync t a1) := by
  unfold winSync
  repeat' first
    | with_reducible assumption
    | split
    | with_reducible apply Keeps.update

theorem spmRefuse_keeps {s₀ t : State} (h : Keeps s₀ t) (a1 a2 a3 a4) : Keeps s₀ (spmRefuse t a1 a2 a3 a4) := by
  unfold spmRefuse
  repeat' first
    | with_reducible assumption
    | with_reducible apply spmOutOfPart_keeps
    | with_reducible apply State.bump_keeps
    | with_reducible apply State.raise_keeps
    | with_reducible refine Keeps.foldl (fun _ _ _ => ?_) ?_
    | split

theorem winRefuse_keeps {s₀ t : State} (h : Keeps s₀ t) (a1 a2 a3 a4 a5 a6) : Keeps s₀ (winRefuse t a1 a2 a3 a4 a5 a6) := by
  unfold winRefuse
  extract_lets l0 l1 l2
  have hl0 : Keeps s₀ l0 := by
    dsimp only [l0]
    repeat' first
      | with_reducible assumption
      | with_reducible apply State.bump_keeps
  clear_value l0
  have hl1 : Keeps s₀ l1 := by
    dsimp only [l1]
    repeat' first
      | with_reducible assumption
      | with_reducible apply State.raise_keeps
  clear_value l1
  have hl2 : Keeps s₀ l2 := by
    dsimp only [l2]
    repeat' first
      | with_reducible assumption
      | with_reducible apply State.setReg_keeps
  clear_value l2
  repeat' first
    | with_reducible assumption
    | with_reducible apply spmRefuse_keeps
    | split

theorem performRequest_keeps {s₀ t : State} (h : Keeps s₀ t) (a1) : Keeps s₀ (performRequest t a1) := by
  unfold performRequest
  repeat' first
    | with_reducible assumption
    | with_reducible apply spmWrite_keeps
    | with_reducible apply nmWrite_keeps
    | with_reducible apply sendTo_keeps
    | with_reducible apply spmReadAsync_keeps
    | with_reducible apply nmRead_keeps
    | dsimp only
    | split

theorem takeRequest_keeps {s₀ t : State} (h : Keeps s₀ t) (a1 a2 a3 a4 a5 a6 a7) : Keeps s₀ (takeRequest t a1 a2 a3 a4 a5 a6 a7) := by
  unfold takeRequest
  extract_lets l0 l1
  have hl0 : Keeps s₀ l0 := by
    dsimp only [l0]
    repeat' first
      | with_reducible assumption
      | with_reducible apply State.bump_keeps
  clear_value l0
  have hl1 : Keeps s₀ l1 := by
    dsimp only [l1]
    repeat' first
      | with_reducible assumption
      | with_reducible apply offAccess_keeps
      | split
  clear_value l1
  repeat' first
    | with_reducible assumption
    | with_reducible apply winRefuse_keeps
    | with_reducible apply sendTo_keeps
    | with_reducible apply performRequest_keeps
    | dsimp only
    | split
    | with_reducible apply Keeps.update

theorem packetReceive_keeps {s₀ t : State} (h : Keeps s₀ t) (a1 a2) : Keeps s₀ (packetReceive t a1 a2) := by
  unfold packetReceive
  extract_lets l0 l1
  have hl0 : Keeps s₀ l0 := by
    dsimp only [l0]
    repeat' first
      | with_reducible assumption
      | with_reducible apply State.bump_keeps
  clear_value l0
  repeat' first
    | with_reducible assumption
    | with_reducible apply State.bump_keeps
    | with_reducible apply sendTo_keeps
    | with_reducible apply fabFlag_keeps
    | with_reducible apply sendPacket_keeps
    | with_reducible apply takeRequest_keeps
    | with_reducible apply memoryReply_keeps
    | split
    | ((with_reducible conv => arg 2; whnf); split)

theorem releaseHeld_keeps {s₀ t : State} (h : Keeps s₀ t) : Keeps s₀ (releaseHeld t) := by
  unfold releaseHeld
  extract_lets l0 l1
  clear_value l1
  repeat' first
    | with_reducible assumption
    | with_reducible apply performRequest_keeps
    | with_reducible refine Keeps.foldl (fun _ _ _ => ?_) ?_
    | with_reducible apply Keeps.update

theorem headIssue_keeps {s₀ t : State} (h : Keeps s₀ t) (a1) : Keeps s₀ (headIssue t a1).2 := by
  unfold headIssue
  extract_lets l0
  clear_value l0
  repeat' first
    | with_reducible assumption
    | with_reducible apply issueTxn_keeps
    | split
theorem headIssue_keeps_eq {s₀ t r : State} {x0} (h : Keeps s₀ t) {a1} (hr : headIssue t a1 = (x0, r)) : Keeps s₀ r := by
  have := headIssue_keeps h a1
  rw [hr] at this
  exact this

theorem headPump_keeps {s₀ t : State} (h : Keeps s₀ t) : Keeps s₀ (headPump t) := by
  unfold headPump
  extract_lets l0 l1
  have hl0 : Keeps s₀ l0.2 := by
    dsimp only [l0]
    repeat' first
      | with_reducible assumption
      | with_reducible apply headIssue_keeps
      | with_reducible refine Keeps.foldlSnd (fun _ _ _ => ?_) ?_
  clear_value l0
  have hl1 : Keeps s₀ l1 := by
    dsimp only [l1]
    repeat' first
      | with_reducible assumption
  clear_value l1
  repeat' first
    | with_reducible assumption
    | with_reducible apply Keeps.update

theorem headSend_keeps {s₀ t : State} (h : Keeps s₀ t) (a1 a2 a3) : Keeps s₀ (headSend t a1 a2 a3) := by
  unfold headSend
  repeat' first
    | with_reducible assumption
    | with_reducible apply headPump_keeps
    | with_reducible apply Keeps.update

theorem heartbeat_keeps {s₀ t : State} (h : Keeps s₀ t) : Keeps s₀ (heartbeat t) := by
  unfold heartbeat
  repeat' first
    | with_reducible assumption
    | with_reducible apply headSend_keeps
    | split

theorem headClaim_keeps {s₀ t : State} (h : Keeps s₀ t) (a1 a2 a3) : Keeps s₀ (headClaim t a1 a2 a3) := by
  unfold headClaim
  extract_lets l0 l1 l2
  clear_value l0
  clear_value l1
  have hl2 : Keeps s₀ l2 := by
    dsimp only [l2]
    repeat' first
      | with_reducible assumption
      | with_reducible apply State.setReg_keeps
  clear_value l2
  repeat' first
    | with_reducible assumption
    | with_reducible apply windowEntryWrite_keeps
    | with_reducible refine Keeps.foldl (fun _ _ _ => ?_) ?_
    | split

theorem buckerPost_keeps {s₀ t : State} (h : Keeps s₀ t) (a1 a2) : Keeps s₀ (buckerPost t a1 a2) := by
  unfold buckerPost
  extract_lets l0 l1
  clear_value l0
  clear_value l1
  repeat' first
    | with_reducible assumption
    | with_reducible apply State.setBkr_keeps
    | with_reducible apply State.raise_keeps
    | split

theorem buckerEnd_keeps {s₀ t : State} (h : Keeps s₀ t) (a1 a2 a3) : Keeps s₀ (buckerEnd t a1 a2 a3) := by
  unfold buckerEnd
  extract_lets l0 l1 l2 l3
  clear_value l0
  have hl1 : Keeps s₀ l1 := by
    dsimp only [l1]
    repeat' first
      | with_reducible assumption
      | with_reducible apply State.setBkr_keeps
  clear_value l1
  have hl2 : Keeps s₀ l2 := by
    dsimp only [l2]
    repeat' first
      | with_reducible assumption
      | with_reducible apply State.bump_keeps
  clear_value l2
  have hl3 : Keeps s₀ l3 := by
    dsimp only [l3]
    repeat' first
      | with_reducible assumption
      | with_reducible apply State.raise_keeps
      | split
  clear_value l3
  repeat' first
    | with_reducible assumption
    | with_reducible apply semPost_keeps
    | split

theorem buckerRun_keeps {s₀ t : State} (h : Keeps s₀ t) (a1 a2 a3) : Keeps s₀ (buckerRun t a1 a2 a3) := by
  unfold buckerRun
  extract_lets l0 l1 l2 l3 l4 l5 l6 l7 l8 l9 l10
  clear_value l3
  clear_value l5
  clear_value l6
  clear_value l7
  have hl8 : Keeps s₀ l8.2 := by
    dsimp only [l8]
    repeat' first
      | with_reducible assumption
      | with_reducible apply startXfer_keeps
  clear_value l8
  clear_value l9
  have hl10 : Keeps s₀ l10 := by
    dsimp only [l10]
    repeat' first
      | with_reducible assumption
      | with_reducible apply State.setBkr_keeps
  clear_value l10
  repeat' first
    | with_reducible assumption
    | with_reducible apply buckerEnd_keeps
    | with_reducible apply pumpAll_keeps
    | split

theorem buckerStart_keeps {s₀ t : State} (h : Keeps s₀ t) (a1 a2 a3) : Keeps s₀ (buckerStart t a1 a2 a3) := by
  unfold buckerStart
  extract_lets b next
  have hn (u : State) (hu : Keeps s₀ u) (l) : Keeps s₀ (next u l) := State.setBkr_keeps hu _ _
  clear_value b next
  split
  · exact h
  split
  · split
    · next hr => exact readRecord_wait h hr
    · next hr => exact buckerEnd_keeps (hn _ (readRecord_none h hr) _) _ _ _
    · next hr =>
      have hu := readRecord_got h hr
      extract_lets r
      split
      · exact buckerEnd_keeps (hn _ hu _) _ _ _
      split
      · exact buckerEnd_keeps (hn _ hu _) _ _ _
      split
      · next hw => exact readRecord_wait hu hw
      · next hw => exact buckerEnd_keeps (hn _ (readRecord_none hu hw) _) _ _ _
      · next hw => exact buckerRun_keeps (hn _ (readRecord_got hu hw) _) _ _ _
  · exact h

theorem postArrivals_keeps {s₀ t : State} (h : Keeps s₀ t) (a1 a2) : Keeps s₀ (postArrivals t a1 a2) := by
  unfold postArrivals
  repeat' first
    | with_reducible assumption
    | with_reducible apply postName_keeps
    | with_reducible refine Keeps.foldl (fun _ _ _ => ?_) ?_

theorem buckerDone_keeps {s₀ t : State} (h : Keeps s₀ t) (a1) : Keeps s₀ (buckerDone t a1) := by
  unfold buckerDone
  extract_lets l0 l1
  clear_value l0
  have hl1 : Keeps s₀ l1 := by
    dsimp only [l1]
    repeat' first
      | with_reducible assumption
      | with_reducible apply dropRequests_keeps
  clear_value l1
  repeat' first
    | with_reducible assumption
    | with_reducible apply postArrivals_keeps
    | with_reducible apply buckerEnd_keeps
    | with_reducible apply uncount_keeps
    | with_reducible refine Keeps.foldl (fun _ _ _ => ?_) ?_
    | dsimp only
    | split

end Sys2Proof.Machine
end

