-- ==== Sys2Proof/Laws/KeepsHostIf.lean ====
section
/-! SUPPORT. What Machine/HostIf.lean does keeps the part, the queue and the canonical form of every sparse memory. -/

namespace Sys2Proof.Machine

theorem State.setEqSt_keeps {s₀ t : State} (h : Keeps s₀ t) (a1 a2) : Keeps s₀ (State.setEqSt t a1 a2) := by
  unfold State.setEqSt
  repeat' first
    | with_reducible assumption
    | with_reducible apply Keeps.update

theorem hstFlag_keeps {s₀ t : State} (h : Keeps s₀ t) (a1) : Keeps s₀ (hstFlag t a1) := by
  unfold hstFlag
  repeat' first
    | with_reducible assumption
    | with_reducible apply State.raise_keeps

theorem stampAll_keeps {s₀ t : State} (h : Keeps s₀ t) : Keeps s₀ (stampAll t).2 := by
  unfold stampAll
  repeat' first
    | with_reducible assumption
    | with_reducible apply stamp_keeps
    | with_reducible refine Keeps.foldlSnd (fun _ _ _ => ?_) ?_
theorem stampAll_keeps_eq {s₀ t r : State} {x0} (h : Keeps s₀ t) (hr : stampAll t = (x0, r)) : Keeps s₀ r := by
  have := stampAll_keeps h
  rw [hr] at this
  exact this

theorem timestampLatch_keeps {s₀ t : State} (h : Keeps s₀ t) (a1) : Keeps s₀ (timestampLatch t a1) := by
  unfold timestampLatch
  extract_lets l0 l1
  have hl0 : Keeps s₀ l0.2 := by
    dsimp only [l0]
    repeat' first
      | with_reducible assumption
      | with_reducible apply stamp_keeps
  clear_value l0
  have hl1 : Keeps s₀ l1 := by
    dsimp only [l1]
    repeat' first
      | with_reducible assumption
      | with_reducible apply State.setReg_keeps
  clear_value l1
  repeat' first
    | with_reducible assumption
    | split
    | with_reducible apply Keeps.update

theorem correlationArm_keeps {s₀ t : State} (h : Keeps s₀ t) (a1) : Keeps s₀ (correlationArm t a1) := by
  unfold correlationArm
  extract_lets l0 l1 l2
  have hl0 : Keeps s₀ l0 := by
    dsimp only [l0]
    repeat' first
      | with_reducible assumption
      | with_reducible apply hstFlag_keeps
      | split
  clear_value l0
  have hl1 : Keeps s₀ l1.2 := by
    dsimp only [l1]
    repeat' first
      | with_reducible assumption
      | with_reducible apply stampAll_keeps
  clear_value l1
  have hl2 : Keeps s₀ l2 := by
    dsimp only [l2]
    repeat' first
      | with_reducible assumption
      | with_reducible apply State.setReg_keeps
  clear_value l2
  repeat' first
    | with_reducible assumption
    | with_reducible apply Keeps.update

theorem raiseVector_keeps {s₀ t : State} (h : Keeps s₀ t) (a1) : Keeps s₀ (raiseVector t a1) := by
  unfold raiseVector
  repeat' first
    | with_reducible assumption
    | with_reducible apply State.raise_keeps
    | with_reducible apply State.emit_keeps
    | split

theorem setArmed_keeps {s₀ t : State} (h : Keeps s₀ t) (a1 a2) : Keeps s₀ (setArmed t a1 a2) := by
  unfold setArmed
  extract_lets l0
  clear_value l0
  repeat' first
    | with_reducible assumption
    | with_reducible apply State.setEqSt_keeps
    | with_reducible apply State.setReg_keeps

theorem eqRaise_keeps {s₀ t : State} (h : Keeps s₀ t) (a1) : Keeps s₀ (eqRaise t a1) := by
  unfold eqRaise
  repeat' first
    | with_reducible assumption
    | with_reducible apply setArmed_keeps
    | with_reducible apply raiseVector_keeps

theorem eqWritten_keeps {s₀ t : State} (h : Keeps s₀ t) (a1) : Keeps s₀ (eqWritten t a1) := by
  unfold eqWritten
  extract_lets l0 l1
  clear_value l0
  clear_value l1
  repeat' first
    | with_reducible assumption
    | with_reducible apply eqRaise_keeps
    | with_reducible apply State.setEqSt_keeps
    | split

theorem holdoffExpiry_keeps {s₀ t : State} (h : Keeps s₀ t) (a1) : Keeps s₀ (holdoffExpiry t a1) := by
  unfold holdoffExpiry
  repeat' first
    | with_reducible assumption
    | with_reducible apply eqRaise_keeps
    | split

theorem formRec_keeps {s₀ t : State} (h : Keeps s₀ t) (a1) : Keeps s₀ (formRec t a1).2 := by
  unfold formRec
  extract_lets l0
  have hl0 : Keeps s₀ l0.2 := by
    dsimp only [l0]
    repeat' first
      | with_reducible assumption
      | with_reducible apply stamp_keeps
  clear_value l0
  repeat' first
    | with_reducible assumption
theorem formRec_keeps_eq {s₀ t r : State} {x0} (h : Keeps s₀ t) {a1} (hr : formRec t a1 = (x0, r)) : Keeps s₀ r := by
  have := formRec_keeps h a1
  rw [hr] at this
  exact this

theorem dropDesc_keeps {s₀ t : State} (h : Keeps s₀ t) (a1) : Keeps s₀ (dropDesc t a1) := by
  unfold dropDesc
  repeat' first
    | with_reducible assumption
    | with_reducible apply Keeps.update

theorem dropDescOf_keeps {s₀ t : State} (h : Keeps s₀ t) (a1) : Keeps s₀ (dropDescOf t a1) := by
  unfold dropDescOf
  repeat' first
    | with_reducible assumption
    | with_reducible apply dropDesc_keeps
    | split

theorem placeRecord_keeps {s₀ t : State} (h : Keeps s₀ t) (a1) : Keeps s₀ (placeRecord t a1) := by
  unfold placeRecord
  repeat' first
    | with_reducible assumption
    | with_reducible apply dropDescOf_keeps
    | with_reducible apply eqWritten_keeps
    | with_reducible apply State.bump_keeps
    | with_reducible apply State.emit_keeps

theorem headFlush_keeps {s₀ t : State} (h : Keeps s₀ t) (a0) : Keeps s₀ (headFlush a0 t) := by
  induction a0 generalizing t with
  | zero => exact h
  | succ k ih =>
  unfold headFlush
  repeat' first
    | with_reducible apply ih
    | with_reducible assumption
    | with_reducible apply placeRecord_keeps
    | split
    | with_reducible apply Keeps.update

theorem sendPlaced_keeps {s₀ t : State} (h : Keeps s₀ t) (a1 a2) : Keeps s₀ (sendPlaced t a1 a2) := by
  unfold sendPlaced
  extract_lets l0
  have hl0 : Keeps s₀ l0 := by
    dsimp only [l0]
    repeat' first
      | with_reducible assumption
      | with_reducible apply headSend_keeps
  clear_value l0
  repeat' first
    | with_reducible assumption
    | with_reducible apply headFlush_keeps
    | with_reducible apply placeRecord_keeps
    | split
    | with_reducible apply Keeps.update

theorem loseRecord_keeps {s₀ t : State} (h : Keeps s₀ t) : Keeps s₀ (loseRecord t) := by
  unfold loseRecord
  repeat' first
    | with_reducible assumption
    | with_reducible apply hstFlag_keeps
    | with_reducible apply State.bump_keeps

/-- What the writing of a record keeps. -/
def PutKeeps (s₀ : State) : PutResult → Prop
  | .written t => Keeps s₀ t
  | .full => True
  | .faulted t => Keeps s₀ t

theorem putRecord_keeps {s₀ t : State} (h : Keeps s₀ t) (a1 a2) : PutKeeps s₀ (putRecord t a1 a2) := by
  unfold putRecord
  extract_lets size w i a bs w1 w2
  clear_value w2 w1 bs
  split
  · trivial
  split
  · exact State.setReg_keeps (hstFlag_keeps (omapFail_keeps h _) _) _ _
  · have hs := State.setReg_keeps h (eqReg a1 Reg.HST_EQq_WIDX) w2
    refine sendPlaced_keeps (t := { t.setReg (eqReg a1 Reg.HST_EQq_WIDX) w2 with corr := none }) ?_ _ _
    exact hs.same rfl rfl rfl rfl rfl rfl rfl rfl rfl rfl rfl rfl rfl

theorem putWithOverflow_keeps {s₀ t : State} (h : Keeps s₀ t) (a1 a2) : Keeps s₀ (putWithOverflow t a1 a2).1 := by
  unfold putWithOverflow
  extract_lets lost f first
  have hf : PutKeeps s₀ first := by
    dsimp only [first]
    split
    · exact h
    have h1 := putRecord_keeps (formRec_keeps h { ty := 5, src := a2.src, w3 := lost }) a1 f.1
    revert h1
    generalize putRecord _ a1 f.1 = p
    intro h1
    cases p with
    | written s => exact State.setEqSt_keeps h1 _ _
    | full => trivial
    | faulted s => exact h1
  clear_value first
  cases first with
  | full => exact h
  | faulted s => exact hf
  | written s =>
    have h1 := putRecord_keeps hf a1 a2
    revert h1
    dsimp only
    generalize putRecord s a1 a2 = p
    intro h1
    cases p with
    | written u => exact h1
    | full => exact hf
    | faulted u => exact h1
theorem putWithOverflow_keeps_eq {s₀ t r : State} {x0} (h : Keeps s₀ t) {a1 a2} (hr : putWithOverflow t a1 a2 = (r, x0)) : Keeps s₀ r := by
  have := putWithOverflow_keeps h a1 a2
  rw [hr] at this
  exact this

theorem sendRecord_keeps {s₀ t : State} (h : Keeps s₀ t) (a1 a2) : Keeps s₀ (sendRecord t a1 a2) := by
  unfold sendRecord
  extract_lets l0 l1 l2
  clear_value l0
  have hl1 : Keeps s₀ l1.1 := by
    dsimp only [l1]
    repeat' first
      | with_reducible assumption
      | with_reducible apply putWithOverflow_keeps
      | split
  clear_value l1
  clear_value l2
  repeat' first
    | with_reducible assumption
    | with_reducible apply dropDescOf_keeps
    | with_reducible apply loseRecord_keeps
    | with_reducible apply State.setEqSt_keeps
    | split

theorem flushEq_keeps {s₀ t : State} (h : Keeps s₀ t) (a0 a2) : Keeps s₀ (flushEq a0 t a2) := by
  induction a0 generalizing t a2 with
  | zero => exact h
  | succ k ih =>
  unfold flushEq
  repeat' first
    | with_reducible apply ih
    | with_reducible assumption
    | with_reducible apply State.setEqSt_keeps
    | with_reducible apply putWithOverflow_keeps
    | dsimp only
    | split

theorem releaseErrHeld_keeps {s₀ t : State} (h : Keeps s₀ t) : Keeps s₀ (releaseErrHeld t) := by
  unfold releaseErrHeld
  extract_lets l0
  clear_value l0
  repeat' first
    | with_reducible assumption
    | with_reducible apply sendRecord_keeps
    | with_reducible apply State.setEqSt_keeps
    | with_reducible refine Keeps.foldl (fun _ _ _ => ?_) ?_
    | dsimp only
    | split
    | with_reducible apply Keeps.update

theorem errRecord_keeps {s₀ t : State} (h : Keeps s₀ t) (a1) : Keeps s₀ (errRecord t a1) := by
  unfold errRecord
  extract_lets l0 l1
  have hl0 : Keeps s₀ l0.2 := by
    dsimp only [l0]
    repeat' first
      | with_reducible assumption
      | with_reducible apply formRec_keeps
  clear_value l0
  have hl1 : Keeps s₀ l1 := by
    dsimp only [l1]
    repeat' first
      | with_reducible assumption
  clear_value l1
  repeat' first
    | with_reducible assumption
    | with_reducible apply sendRecord_keeps
    | with_reducible apply releaseErrHeld_keeps
    | with_reducible apply loseRecord_keeps
    | split
    | with_reducible apply Keeps.update

theorem notice_keeps {s₀ t : State} (h : Keeps s₀ t) (a1 a2 a3 a4) : Keeps s₀ (notice t a1 a2 a3 a4) := by
  unfold notice
  repeat' first
    | with_reducible assumption
    | with_reducible apply errRecord_keeps

theorem linkNotices_keeps {s₀ t : State} (h : Keeps s₀ t) (old : State) : Keeps s₀ (linkNotices old t) := by
  unfold linkNotices
  exact Keeps.foldl (fun _ _ hu => Keeps.ite (notice_keeps hu _ _ _ _) hu) h


theorem roleLost_keeps {s₀ t : State} (h : Keeps s₀ t) : Keeps s₀ (roleLost t) := by
  unfold roleLost
  extract_lets l0
  clear_value l0
  repeat' first
    | with_reducible assumption
    | with_reducible apply errRecord_keeps
    | with_reducible apply State.setReg_keeps

theorem headRun_keeps {s₀ t : State} (h : Keeps s₀ t) : Keeps s₀ (headRun t) := by
  unfold headRun
  extract_lets l0 l1 l2
  clear_value l0
  have hl1 : Keeps s₀ l1 := by
    dsimp only [l1]
    repeat' first
      | with_reducible assumption
      | with_reducible apply Keeps.update
  clear_value l1
  have hl2 : Keeps s₀ l2 := by
    dsimp only [l2]
    repeat' first
      | with_reducible assumption
      | with_reducible apply headPump_keeps
      | with_reducible apply roleLost_keeps
      | split
  clear_value l2
  repeat' first
    | with_reducible assumption
    | with_reducible apply headFlush_keeps

theorem noticeHeld_keeps {s₀ t : State} (h : Keeps s₀ t) (a1 a2 a3 a4) : Keeps s₀ (noticeHeld t a1 a2 a3 a4) := by
  unfold noticeHeld
  extract_lets l0 l1
  have hl0 : Keeps s₀ l0.2 := by
    dsimp only [l0]
    repeat' first
      | with_reducible assumption
      | with_reducible apply formRec_keeps
  clear_value l0
  have hl1 : Keeps s₀ l1 := by
    dsimp only [l1]
    repeat' first
      | with_reducible assumption
  clear_value l1
  repeat' first
    | with_reducible assumption
    | with_reducible apply notice_keeps
    | split
    | with_reducible apply Keeps.update

theorem completeDesc_keeps {s₀ t : State} (h : Keeps s₀ t) (a1 a2 a3 a4 a5) : Keeps s₀ (completeDesc t a1 a2 a3 a4 a5) := by
  unfold completeDesc
  extract_lets l0
  have hl0 : Keeps s₀ l0 := by
    dsimp only [l0]
    repeat' first
      | with_reducible assumption
      | with_reducible apply Keeps.update
  clear_value l0
  repeat' first
    | with_reducible assumption
    | with_reducible apply dropDesc_keeps
    | with_reducible apply formRec_keeps
    | with_reducible apply sendRecord_keeps
    | dsimp only
    | split

theorem refuseDesc_keeps {s₀ t : State} (h : Keeps s₀ t) (a1 a2 a3) : Keeps s₀ (refuseDesc t a1 a2 a3) := by
  unfold refuseDesc
  repeat' first
    | with_reducible assumption
    | with_reducible apply completeDesc_keeps

theorem badDesc_keeps {s₀ t : State} (h : Keeps s₀ t) (a1 a2) : Keeps s₀ (badDesc t a1 a2) := by
  unfold badDesc
  repeat' first
    | with_reducible assumption
    | with_reducible apply refuseDesc_keeps

theorem ringDisable_keeps {s₀ t : State} (h : Keeps s₀ t) (a1) : Keeps s₀ (ringDisable t a1) := by
  unfold ringDisable
  repeat' first
    | with_reducible assumption
    | with_reducible apply State.setReg_keeps

theorem ringCfgWrite_keeps {s₀ t : State} (h : Keeps s₀ t) (a1 a2) : Keeps s₀ (ringCfgWrite t a1 a2) := by
  unfold ringCfgWrite
  extract_lets l0 l1 l2 l3
  clear_value l0
  have hl1 : Keeps s₀ l1 := by
    dsimp only [l1]
    repeat' first
      | with_reducible assumption
      | with_reducible apply hstFlag_keeps
  clear_value l1
  have hl2 : Keeps s₀ l2 := by
    dsimp only [l2]
    repeat' first
      | with_reducible assumption
      | with_reducible apply State.setReg_keeps
  clear_value l2
  have hl3 : Keeps s₀ l3 := by
    dsimp only [l3]
    repeat' first
      | with_reducible assumption
      | with_reducible apply State.setReg_keeps
  clear_value l3
  repeat' first
    | with_reducible assumption
    | with_reducible apply State.setReg_keeps
    | with_reducible apply State.setRingSt_keeps
    | split

theorem eqDisable_keeps {s₀ t : State} (h : Keeps s₀ t) (a1) : Keeps s₀ (eqDisable t a1) := by
  unfold eqDisable
  extract_lets l0 l1 l2 l3 l4
  clear_value l1
  have hl2 : Keeps s₀ l2 := by
    dsimp only [l2]
    repeat' first
      | with_reducible assumption
      | with_reducible apply Keeps.update
  clear_value l2
  have hl3 : Keeps s₀ l3 := by
    dsimp only [l3]
    repeat' first
      | with_reducible assumption
      | with_reducible apply State.setReg_keeps
  clear_value l3
  clear_value l4
  repeat' first
    | with_reducible assumption
    | with_reducible apply dropDescOf_keeps
    | with_reducible apply State.setEqSt_keeps
    | with_reducible refine Keeps.foldl (fun _ _ _ => ?_) ?_

theorem eqCfgWrite_keeps {s₀ t : State} (h : Keeps s₀ t) (a1 a2) : Keeps s₀ (eqCfgWrite t a1 a2) := by
  unfold eqCfgWrite
  extract_lets l0 l1 l2 l3
  clear_value l0
  have hl1 : Keeps s₀ l1 := by
    dsimp only [l1]
    repeat' first
      | with_reducible assumption
      | with_reducible apply hstFlag_keeps
  clear_value l1
  have hl2 : Keeps s₀ l2 := by
    dsimp only [l2]
    repeat' first
      | with_reducible assumption
      | with_reducible apply State.setReg_keeps
  clear_value l2
  have hl3 : Keeps s₀ l3 := by
    dsimp only [l3]
    repeat' first
      | with_reducible assumption
      | with_reducible apply State.setReg_keeps
  clear_value l3
  repeat' first
    | with_reducible assumption
    | with_reducible apply State.setReg_keeps
    | with_reducible apply eqDisable_keeps
    | with_reducible apply releaseErrHeld_keeps
    | with_reducible apply State.setEqSt_keeps
    | split

theorem baseWrite_keeps {s₀ t : State} (h : Keeps s₀ t) (a1 a2 a3 a4) : Keeps s₀ (baseWrite t a1 a2 a3 a4) := by
  unfold baseWrite
  repeat' first
    | with_reducible assumption
    | with_reducible apply hstFlag_keeps
    | with_reducible apply State.setReg_keeps
    | split

theorem dbDrop_keeps {s₀ t : State} (h : Keeps s₀ t) : Keeps s₀ (dbDrop t) := by
  unfold dbDrop
  repeat' first
    | with_reducible assumption
    | with_reducible apply hstFlag_keeps
    | with_reducible apply State.bump_keeps

theorem ringTail_keeps {s₀ t : State} (h : Keeps s₀ t) (a1 a2 a3) : Keeps s₀ (ringTail t a1 a2 a3) := by
  unfold ringTail
  extract_lets l0 l1 l2 l3 l4 l5
  have hl0 : Keeps s₀ l0 := by
    dsimp only [l0]
    repeat' first
      | with_reducible assumption
      | with_reducible apply State.bump_keeps
      | with_reducible apply State.setReg_keeps
  clear_value l0
  have hl1 : Keeps s₀ l1.2 := by
    dsimp only [l1]
    repeat' first
      | with_reducible assumption
      | with_reducible apply stampAll_keeps
  clear_value l1
  clear_value l2
  clear_value l3
  have hl4 : Keeps s₀ l4 := by
    dsimp only [l4]
    repeat' first
      | with_reducible assumption
      | with_reducible apply State.setRingSt_keeps
  clear_value l4
  have hl5 : Keeps s₀ l5 := by
    dsimp only [l5]
    repeat' first
      | with_reducible assumption
      | with_reducible apply Keeps.update
  clear_value l5
  repeat' first
    | with_reducible assumption
    | with_reducible apply dbDrop_keeps
    | with_reducible apply headSend_keeps
    | split

theorem eqHead_keeps {s₀ t : State} (h : Keeps s₀ t) (a1 a2 a3) : Keeps s₀ (eqHead t a1 a2 a3) := by
  unfold eqHead
  extract_lets l0 l1 l2 l3 l4 l5 l6
  clear_value l0
  clear_value l1
  clear_value l2
  clear_value l3
  have hl4 : Keeps s₀ l4 := by
    dsimp only [l4]
    repeat' first
      | with_reducible assumption
      | with_reducible apply State.bump_keeps
      | with_reducible apply State.setReg_keeps
  clear_value l4
  have hl5 : Keeps s₀ l5 := by
    dsimp only [l5]
    repeat' first
      | with_reducible assumption
      | with_reducible apply setArmed_keeps
  clear_value l5
  have hl6 : Keeps s₀ l6 := by
    dsimp only [l6]
    repeat' first
      | with_reducible assumption
      | with_reducible apply eqRaise_keeps
      | split
  clear_value l6
  repeat' first
    | with_reducible assumption
    | with_reducible apply dbDrop_keeps
    | with_reducible apply flushEq_keeps
    | split

theorem narrowWrite_keeps {s₀ t : State} (h : Keeps s₀ t) : Keeps s₀ (narrowWrite t) := by
  unfold narrowWrite
  repeat' first
    | with_reducible assumption
    | with_reducible apply hstFlag_keeps
    | with_reducible apply State.bump_keeps

theorem resumeQueue_keeps {s₀ t : State} (h : Keeps s₀ t) (a1) : Keeps s₀ (resumeQueue t a1) := by
  unfold resumeQueue
  extract_lets l0 l1 l2 l3 l4 l5 l6
  clear_value l0
  clear_value l1
  clear_value l2
  clear_value l3
  clear_value l4
  clear_value l5
  have hl6 : Keeps s₀ l6 := by
    dsimp only [l6]
    repeat' first
      | with_reducible assumption
      | with_reducible apply State.setReg_keeps
  clear_value l6
  repeat' first
    | with_reducible assumption
    | with_reducible apply State.setReg_keeps
    | with_reducible apply hstFlag_keeps
    | with_reducible apply omapFail_keeps
    | with_reducible apply State.emit_keeps
    | split

theorem headTakeover_keeps {s₀ t : State} (h : Keeps s₀ t) (a1 a2 a3) : Keeps s₀ (headTakeover t a1 a2 a3) := by
  unfold headTakeover
  extract_lets l0 l1 l2 l3 l4 l5 l6
  clear_value l0
  clear_value l1
  have hl2 : Keeps s₀ l2 := by
    dsimp only [l2]
    repeat' first
      | with_reducible assumption
      | with_reducible apply State.setReg_keeps
  clear_value l2
  have hl3 : Keeps s₀ l3 := by
    dsimp only [l3]
    repeat' first
      | with_reducible assumption
      | with_reducible apply headSend_keeps
      | with_reducible refine Keeps.foldl (fun _ _ _ => ?_) ?_
  clear_value l3
  have hl4 : Keeps s₀ l4 := by
    dsimp only [l4]
    repeat' first
      | with_reducible assumption
      | with_reducible apply errRecord_keeps
  clear_value l4
  have hl5 : Keeps s₀ l5 := by
    dsimp only [l5]
    repeat' first
      | with_reducible assumption
      | with_reducible apply resumeQueue_keeps
      | with_reducible refine Keeps.foldl (fun _ _ _ => ?_) ?_
  clear_value l5
  have hl6 : Keeps s₀ l6 := by
    dsimp only [l6]
    repeat' first
      | with_reducible assumption
      | with_reducible apply Keeps.update
  clear_value l6
  repeat' first
    | with_reducible assumption
    | with_reducible apply tallyAppend_keeps
    | split

end Sys2Proof.Machine
end

