-- ==== Sys2Proof/Laws/KeepsPorts.lean ====
section
/-! SUPPORT. What Machine/Ports.lean does keeps the part, the queue and the canonical form of every sparse memory. -/

namespace Sys2Proof.Machine

theorem resExec_keeps {s₀ t : State} (h : Keeps s₀ t) (a1 a2 a3) : Keeps s₀ (resExec t a1 a2 a3).2.2 := by
  unfold resExec
  extract_lets l0 l1 l2 l3 l4 l5 l6 l7 l8 l9 l10
  have hl0 : Keeps s₀ l0 := by
    dsimp only [l0]
    repeat' first
      | with_reducible assumption
      | with_reducible apply State.bump_keeps
  clear_value l0
  have hl1 : Keeps s₀ l1.2 := by
    dsimp only [l1]
    repeat' first
      | with_reducible assumption
      | with_reducible apply tabReadAll_keeps
  clear_value l1
  have hl2 : Keeps s₀ l2 := by
    dsimp only [l2]
    repeat' first
      | with_reducible assumption
  clear_value l2
  clear_value l4
  clear_value l5
  have hl6 : Keeps s₀ l6 := by
    dsimp only [l6]
    repeat' first
      | with_reducible assumption
      | with_reducible apply tabWrite_keeps
  clear_value l6
  have hl7 : Keeps s₀ l7 := by
    dsimp only [l7]
    repeat' first
      | with_reducible assumption
      | with_reducible apply State.setResDest_keeps
      | split
  clear_value l7
  have hl8 : Keeps s₀ l8 := by
    dsimp only [l8]
    repeat' first
      | with_reducible assumption
      | with_reducible apply State.bump_keeps
      | split
  clear_value l8
  have hl9 : Keeps s₀ l9 := by
    dsimp only [l9]
    repeat' first
      | with_reducible assumption
      | with_reducible apply State.bump_keeps
      | split
  clear_value l9
  clear_value l10
  repeat' first
    | with_reducible assumption
theorem resExec_keeps_eq {s₀ t r : State} {x0 x1} (h : Keeps s₀ t) {a1 a2 a3} (hr : resExec t a1 a2 a3 = (x0, x1, r)) : Keeps s₀ r := by
  have := resExec_keeps h a1 a2 a3
  rw [hr] at this
  exact this

theorem resPort_keeps {s₀ t : State} (h : Keeps s₀ t) (a1 a2 a3) : Keeps s₀ (resPort t a1 a2 a3) := by
  unfold resPort
  extract_lets l0 l1 l2 l3
  clear_value l1
  have hl2 : Keeps s₀ l2.2.2 := by
    dsimp only [l2]
    repeat' first
      | with_reducible assumption
      | with_reducible apply resExec_keeps
  clear_value l2
  have hl3 : Keeps s₀ l3 := by
    dsimp only [l3]
    repeat' first
      | with_reducible assumption
      | with_reducible apply State.setReg_keeps
      | with_reducible refine Keeps.foldl (fun _ _ _ => ?_) ?_
      | split
  clear_value l3
  repeat' first
    | with_reducible assumption
    | with_reducible apply State.raise_keeps
    | with_reducible apply State.setReg_keeps
    | split

theorem ctxRead_keeps {s₀ t : State} (h : Keeps s₀ t) (a1) : Keeps s₀ (ctxRead t a1).2 := by
  unfold ctxRead
  extract_lets l0
  have hl0 : Keeps s₀ l0.2 := by
    dsimp only [l0]
    repeat' first
      | with_reducible assumption
      | with_reducible apply tabReadAll_keeps
  clear_value l0
  repeat' first
    | with_reducible assumption
theorem ctxRead_keeps_eq {s₀ t r : State} {x0} (h : Keeps s₀ t) {a1} (hr : ctxRead t a1 = (x0, r)) : Keeps s₀ r := by
  have := ctxRead_keeps h a1
  rw [hr] at this
  exact this

theorem setBudget_keeps {s₀ t : State} (h : Keeps s₀ t) (a1 a2) : Keeps s₀ (setBudget t a1 a2) := by
  unfold setBudget
  repeat' first
    | with_reducible assumption
    | with_reducible apply State.setReg_keeps

theorem budgetTake_keeps {s₀ t : State} (h : Keeps s₀ t) (a1 a2) : Keeps s₀ (budgetTake t a1 a2).2 := by
  unfold budgetTake
  repeat' first
    | with_reducible assumption
    | with_reducible apply setBudget_keeps
    | with_reducible apply State.bump_keeps
    | split
theorem budgetTake_keeps_eq {s₀ t r : State} {x0} (h : Keeps s₀ t) {a1 a2} (hr : budgetTake t a1 a2 = (x0, r)) : Keeps s₀ r := by
  have := budgetTake_keeps h a1 a2
  rw [hr] at this
  exact this

theorem budgetGive_keeps {s₀ t : State} (h : Keeps s₀ t) (a1 a2) : Keeps s₀ (budgetGive t a1 a2).2 := by
  unfold budgetGive
  repeat' first
    | with_reducible assumption
    | with_reducible apply setBudget_keeps
    | split
theorem budgetGive_keeps_eq {s₀ t r : State} {x0} (h : Keeps s₀ t) {a1 a2} (hr : budgetGive t a1 a2 = (x0, r)) : Keeps s₀ r := by
  have := budgetGive_keeps h a1 a2
  rw [hr] at this
  exact this

theorem ctxPort_keeps {s₀ t : State} (h : Keeps s₀ t) (a1 a2 a3 a4 a5) : Keeps s₀ (ctxPort t a1 a2 a3 a4 a5) := by
  unfold ctxPort
  extract_lets l0 l1 l2 l3 l4 l5 l6
  have hl0 : Keeps s₀ l0 := by
    dsimp only [l0]
    repeat' first
      | with_reducible assumption
      | with_reducible apply State.bump_keeps
  clear_value l0
  have hl4 : Keeps s₀ l4 := by
    dsimp only [l4]
    repeat' first
      | with_reducible assumption
      | with_reducible apply State.setReg_keeps
      | with_reducible apply ctxRead_keeps
      | with_reducible refine Keeps.foldl (fun _ _ _ => ?_) ?_
  clear_value l4
  have hl5 : Keeps s₀ l5.2 := by
    dsimp only [l5]
    repeat' first
      | with_reducible assumption
      | with_reducible apply budgetTake_keeps
  clear_value l5
  have hl6 : Keeps s₀ l6.2 := by
    dsimp only [l6]
    repeat' first
      | with_reducible assumption
      | with_reducible apply budgetGive_keeps
  clear_value l6
  repeat' first
    | with_reducible assumption
    | with_reducible apply State.raise_keeps
    | with_reducible apply State.setReg_keeps
    | with_reducible apply ctxRead_keeps
    | with_reducible apply tabWrite_keeps
    | split

theorem fwCtx_keeps {s₀ t : State} (h : Keeps s₀ t) (a1 a2 a3) : Keeps s₀ (fwCtx t a1 a2 a3).2 := by
  unfold fwCtx
  extract_lets l0
  have hl0 : Keeps s₀ l0 := by
    dsimp only [l0]
    repeat' first
      | with_reducible assumption
      | with_reducible apply ctxPort_keeps
  clear_value l0
  repeat' first
    | with_reducible assumption
theorem fwCtx_keeps_eq {s₀ t r : State} {x0} (h : Keeps s₀ t) {a1 a2 a3} (hr : fwCtx t a1 a2 a3 = (x0, r)) : Keeps s₀ r := by
  have := fwCtx_keeps h a1 a2 a3
  rw [hr] at this
  exact this

theorem fwResArgs_keeps {s₀ t : State} (h : Keeps s₀ t) (a1 a2) : Keeps s₀ (fwResArgs t a1 a2).2 := by
  unfold fwResArgs
  extract_lets l0 l1
  have hl0 : Keeps s₀ l0 := by
    dsimp only [l0]
    repeat' first
      | with_reducible assumption
      | with_reducible apply State.setReg_keeps
      | with_reducible refine Keeps.foldl (fun _ _ _ => ?_) ?_
  clear_value l0
  have hl1 : Keeps s₀ l1 := by
    dsimp only [l1]
    repeat' first
      | with_reducible assumption
      | with_reducible apply resPort_keeps
  clear_value l1
  repeat' first
    | with_reducible assumption
theorem fwResArgs_keeps_eq {s₀ t r : State} {x0} (h : Keeps s₀ t) {a1 a2} (hr : fwResArgs t a1 a2 = (x0, r)) : Keeps s₀ r := by
  have := fwResArgs_keeps h a1 a2
  rw [hr] at this
  exact this

theorem fwRes_keeps {s₀ t : State} (h : Keeps s₀ t) (a1 a2 a3) : Keeps s₀ (fwRes t a1 a2 a3).2 := by
  unfold fwRes
  extract_lets l0
  have hl0 : Keeps s₀ l0 := by
    dsimp only [l0]
    repeat' first
      | with_reducible assumption
      | with_reducible apply resPort_keeps
  clear_value l0
  repeat' first
    | with_reducible assumption
theorem fwRes_keeps_eq {s₀ t r : State} {x0} (h : Keeps s₀ t) {a1 a2 a3} (hr : fwRes t a1 a2 a3 = (x0, r)) : Keeps s₀ r := by
  have := fwRes_keeps h a1 a2 a3
  rw [hr] at this
  exact this

theorem spillWrite_keeps {s₀ t : State} (h : Keeps s₀ t) (a1 a2) : Keeps s₀ (spillWrite t a1 a2) := by
  unfold spillWrite
  extract_lets l0
  repeat' first
    | with_reducible assumption
    | with_reducible apply State.raise_keeps
    | with_reducible apply State.setReg_keeps
    | with_reducible apply fwCtx_keeps
    | split

end Sys2Proof.Machine
end

