-- ==== Sys2Proof/Laws/KeepsAlloc.lean ====
section
/-! SUPPORT. What Machine/Alloc.lean does keeps the part, the queue and the canonical form of every sparse memory. -/

namespace Sys2Proof.Machine

theorem fwTake_keeps {s₀ t : State} (h : Keeps s₀ t) (a1 a2) : Keeps s₀ (fwTake t a1 a2).2 := by
  unfold fwTake
  extract_lets l0
  have hl0 : Keeps s₀ l0.2 := by
    dsimp only [l0]
    repeat' first
      | with_reducible assumption
      | with_reducible apply fwCtx_keeps
      | with_reducible apply State.setReg_keeps
  clear_value l0
  repeat' first
    | with_reducible assumption
    | split
theorem fwTake_keeps_eq {s₀ t r : State} {x0} (h : Keeps s₀ t) {a1 a2} (hr : fwTake t a1 a2 = (x0, r)) : Keeps s₀ r := by
  have := fwTake_keeps h a1 a2
  rw [hr] at this
  exact this

theorem fwGive_keeps {s₀ t : State} (h : Keeps s₀ t) (a1 a2) : Keeps s₀ (fwGive t a1 a2) := by
  unfold fwGive
  repeat' first
    | with_reducible assumption
    | with_reducible apply fwCtx_keeps
    | with_reducible apply State.setReg_keeps
    | split

theorem fwTakeAll_keeps {s₀ t : State} (h : Keeps s₀ t) (a1) : Keeps s₀ (fwTakeAll t a1).2 := by
  induction a1 generalizing t with
  | nil => exact h
  | cons x l ih =>
  unfold fwTakeAll
  repeat' first
    | with_reducible apply ih
    | extract_lets
    | with_reducible assumption
    | with_reducible apply fwTake_keeps
    | with_reducible apply fwGive_keeps
    | split
theorem fwTakeAll_keeps_eq {s₀ t r : State} {x0} (h : Keeps s₀ t) {a1} (hr : fwTakeAll t a1 = (x0, r)) : Keeps s₀ r := by
  have := fwTakeAll_keeps h a1
  rw [hr] at this
  exact this

theorem giveOut_keeps {s₀ t : State} (h : Keeps s₀ t) (a1 a2) : Keeps s₀ (giveOut t a1 a2) := by
  unfold giveOut
  repeat' first
    | with_reducible assumption
    | with_reducible apply Keeps.update

theorem takeBack_keeps {s₀ t : State} (h : Keeps s₀ t) (a1) : Keeps s₀ (takeBack t a1) := by
  unfold takeBack
  repeat' first
    | with_reducible assumption
    | with_reducible apply Keeps.update

theorem newObject_keeps {s₀ t : State} (h : Keeps s₀ t) (a1 a2) : ∀ r, newObject t a1 a2 = some r → Keeps s₀ r.2 := by
  unfold newObject
  intro r hr
  split at hr
  · cases hr
  · extract_lets arg q at hr
    have hq : Keeps s₀ q.2 := fwResArgs_keeps h _ _
    clear_value q
    split at hr
    · obtain rfl := Option.some.inj hr
      exact hq
    · cases hr
theorem newObject_keeps_eq {s₀ t r : State} {x} (h : Keeps s₀ t) {a1 a2} (hr : newObject t a1 a2 = some (x, r)) : Keeps s₀ r :=
  newObject_keeps h a1 a2 _ hr

theorem placeObject_keeps {s₀ t : State} (h : Keeps s₀ t) (a1 a2) : ∀ r, placeObject t a1 a2 = some r → Keeps s₀ r.2 := by
  unfold placeObject
  intro r hr
  dsimp only at hr
  split at hr
  · cases hr
  · exact newObject_keeps (giveOut_keeps h _ _) _ _ r hr
theorem placeObject_keeps_eq {s₀ t r : State} {x} (h : Keeps s₀ t) {a1 a2} (hr : placeObject t a1 a2 = some (x, r)) : Keeps s₀ r :=
  placeObject_keeps h a1 a2 _ hr

theorem pinEntry_keeps {s₀ t : State} (h : Keeps s₀ t) (a1) : ∀ r, pinEntry t a1 = some r → Keeps s₀ r.2 := by
  unfold pinEntry
  extract_lets l0 l1
  clear_value l0
  have hl1 : Keeps s₀ l1.2 := by
    dsimp only [l1]
    repeat' first
      | with_reducible assumption
      | with_reducible apply fwRes_keeps
  clear_value l1
  repeat' first
    | with_reducible assumption
    | (intro _ hr; with_reducible cases hr)
    | split
theorem pinEntry_keeps_eq {s₀ t r : State} {x} (h : Keeps s₀ t) {a1} (hr : pinEntry t a1 = some (x, r)) : Keeps s₀ r :=
  pinEntry_keeps h a1 _ hr

theorem unpinEntry_keeps {s₀ t : State} (h : Keeps s₀ t) (a1 a2) : Keeps s₀ (unpinEntry t a1 a2) := by
  unfold unpinEntry
  repeat' first
    | with_reducible assumption
    | with_reducible apply fwRes_keeps

theorem dropFwXfers_keeps {s₀ t : State} (h : Keeps s₀ t) (a1) : Keeps s₀ (dropFwXfers t a1) := by
  unfold dropFwXfers
  extract_lets l0
  have hl0 : Keeps s₀ l0 := by
    dsimp only [l0]
    repeat' first
      | extract_lets
      | with_reducible assumption
      | with_reducible apply Keeps.update
  clear_value l0
  repeat' first
    | extract_lets
    | with_reducible assumption
    | with_reducible apply State.setChan_keeps
    | with_reducible apply finishChan_keeps
    | with_reducible refine Keeps.foldl (fun _ _ _ => ?_) ?_
    | split

theorem cancelMove_keeps {s₀ t : State} (h : Keeps s₀ t) (a1) : Keeps s₀ (cancelMove t a1) := by
  unfold cancelMove
  extract_lets l0 l1 l2 l3 l4 l5 l6
  have hl0 : Keeps s₀ l0 := by
    dsimp only [l0]
    repeat' first
      | with_reducible assumption
      | with_reducible apply dropFwXfers_keeps
  clear_value l0
  clear_value l1
  clear_value l2
  clear_value l3
  have hl4 : Keeps s₀ l4.2 := by
    dsimp only [l4]
    repeat' first
      | with_reducible assumption
      | with_reducible apply fwRes_keeps
  clear_value l4
  have hl5 : Keeps s₀ l5 := by
    dsimp only [l5]
    repeat' first
      | with_reducible assumption
  clear_value l5
  have hl6 : Keeps s₀ l6 := by
    dsimp only [l6]
    repeat' first
      | with_reducible assumption
      | with_reducible apply takeBack_keeps
      | with_reducible apply Keeps.update
  clear_value l6
  repeat' first
    | with_reducible assumption
    | with_reducible apply fwGive_keeps
    | split

theorem releaseObject_keeps {s₀ t : State} (h : Keeps s₀ t) (a1) : ∀ r, releaseObject t a1 = some r → Keeps s₀ r := by
  unfold releaseObject
  extract_lets l0 l1 l2 l3 l4 l5 l6 l7 l8
  have hl0 : Keeps s₀ l0 := by
    dsimp only [l0]
    repeat' first
      | with_reducible assumption
      | with_reducible apply cancelMove_keeps
      | split
  clear_value l0
  clear_value l1
  clear_value l2
  clear_value l3
  clear_value l4
  have hl6 : Keeps s₀ l6.2 := by
    dsimp only [l6]
    repeat' first
      | with_reducible assumption
      | with_reducible apply fwRes_keeps
  clear_value l6
  have hl7 : Keeps s₀ l7.2 := by
    dsimp only [l7]
    repeat' first
      | with_reducible assumption
      | with_reducible apply fwRes_keeps
      | split
  clear_value l7
  have hl8 : Keeps s₀ l8.2 := by
    dsimp only [l8]
    repeat' first
      | with_reducible assumption
      | with_reducible apply fwRes_keeps
  clear_value l8
  repeat' first
    | with_reducible assumption
    | (intro _ hr; with_reducible cases hr)
    | with_reducible apply fwGive_keeps
    | with_reducible apply takeBack_keeps
    | split
theorem releaseObject_keeps_eq {s₀ t r : State} (h : Keeps s₀ t) {a1} (hr : releaseObject t a1 = some r) : Keeps s₀ r :=
  releaseObject_keeps h a1 _ hr

theorem fwCtxRead_keeps {s₀ t : State} (h : Keeps s₀ t) (a1) : Keeps s₀ (fwCtxRead t a1) := by
  unfold fwCtxRead
  repeat' first
    | with_reducible assumption
    | with_reducible apply fwCtx_keeps

theorem fwCtxSet_keeps {s₀ t : State} (h : Keeps s₀ t) (a1 a2) : Keeps s₀ (fwCtxSet t a1 a2) := by
  unfold fwCtxSet
  extract_lets l0 l1
  have hl0 : Keeps s₀ l0 := by
    dsimp only [l0]
    repeat' first
      | with_reducible assumption
      | with_reducible apply fwCtxRead_keeps
  clear_value l0
  clear_value l1
  repeat' first
    | with_reducible assumption
    | with_reducible apply fwCtx_keeps
    | with_reducible apply State.setReg_keeps
    | with_reducible refine Keeps.foldl (fun _ _ _ => ?_) ?_

theorem ctxSetBits_keeps {s₀ t : State} (h : Keeps s₀ t) (a1 a2 a3 a4 a5) : Keeps s₀ (ctxSetBits t a1 a2 a3 a4 a5) := by
  unfold ctxSetBits
  repeat' first
    | with_reducible assumption
    | with_reducible apply fwCtxSet_keeps

theorem putPage_keeps {s₀ t : State} (h : Keeps s₀ t) (a1 a2 a3) : Keeps s₀ (putPage t a1 a2 a3) := by
  unfold putPage
  extract_lets l0
  clear_value l0
  repeat' first
    | with_reducible assumption
    | with_reducible apply nmWrite_keeps
    | split

theorem putObjPages_keeps {s₀ t : State} (h : Keeps s₀ t) (a1 a2 a3 a4) : Keeps s₀ (putObjPages t a1 a2 a3 a4) := by
  unfold putObjPages
  extract_lets l0
  clear_value l0
  repeat' first
    | with_reducible assumption
    | with_reducible apply putPage_keeps
    | with_reducible refine Keeps.foldl (fun _ _ _ => ?_) ?_

theorem ctxFollow_keeps {s₀ t : State} (h : Keeps s₀ t) (a1) : Keeps s₀ (ctxFollow t a1) := by
  unfold ctxFollow
  extract_lets l0
  clear_value l0
  repeat' first
    | with_reducible assumption
    | with_reducible apply ctxSetBits_keeps
    | split

end Sys2Proof.Machine
end

