-- ==== Sys2Proof/Laws/KeepsWeightStore.lean ====
section
/-! SUPPORT. What Machine/WeightStore.lean does keeps the part, the queue and the canonical form of every sparse memory. -/

namespace Sys2Proof.Machine

theorem catWrite_keeps {s₀ t : State} (h : Keeps s₀ t) (a1 a2) : Keeps s₀ (catWrite t a1 a2) := by
  unfold catWrite
  extract_lets l0 l1
  clear_value l0
  clear_value l1
  repeat' first
    | with_reducible assumption
    | split
    | with_reducible apply Keeps.update

theorem State.setRoot_keeps {s₀ t : State} (h : Keeps s₀ t) (a1 a2) : Keeps s₀ (State.setRoot t a1 a2) := by
  unfold State.setRoot
  extract_lets l0
  have hl0 : Keeps s₀ l0 := by
    dsimp only [l0]
    repeat' first
      | with_reducible assumption
      | with_reducible apply catWrite_keeps
      | split
  clear_value l0
  repeat' first
    | with_reducible assumption
    | with_reducible apply Keeps.update

theorem State.modRoot_keeps {s₀ t : State} (h : Keeps s₀ t) (a1 a2) : Keeps s₀ (State.modRoot t a1 a2) := by
  unfold State.modRoot
  repeat' first
    | with_reducible assumption
    | with_reducible apply State.setRoot_keeps

theorem setRootState_keeps {s₀ t : State} (h : Keeps s₀ t) (a1 a2) : Keeps s₀ (setRootState t a1 a2) := by
  unfold setRootState
  repeat' first
    | with_reducible assumption
    | with_reducible apply notice_keeps
    | with_reducible apply State.modRoot_keeps
    | split

theorem modSeg_keeps {s₀ t : State} (h : Keeps s₀ t) (a1 a2 a3) : Keeps s₀ (modSeg t a1 a2 a3) := by
  unfold modSeg
  repeat' first
    | with_reducible assumption
    | with_reducible apply State.modRoot_keeps

theorem wearExtent_keeps {s₀ t : State} (h : Keeps s₀ t) (a1 a2) : Keeps s₀ (wearExtent t a1 a2) := by
  unfold wearExtent
  extract_lets w s1 s2
  have h1 : Keeps s₀ s1 := State.modField_keeps h _ fun _ k => { k with wear := storeSet_wf rfl k.wear }
  have h2 : Keeps s₀ s2 := State.modField_same h1 _ (fun _ => rfl) (fun _ => rfl)
  clear_value s2 s1
  split
  · exact tallyAppend_keeps (State.raise_keeps h2 _ _) _ _ _
  · exact h1

/-- The write of a byte range keeps the canonical form of a stack's pages. -/
theorem wsPut_wf (k : Nat) {m : Store (BitVec 16384)} (h : storeWf (fun _ => (0 : BitVec 16384)) m = true) (x : Nat) (bs : List Byte) :
    storeWf (fun _ => (0 : BitVec 16384)) (wsPut k m x bs) = true := by
  induction k generalizing m x bs with
  | zero => exact h
  | succ k ih =>
    unfold wsPut
    split
    · exact h
    · exact ih (storeSet_wf rfl h) _ _

theorem wsWrite_keeps {s₀ t : State} (h : Keeps s₀ t) (a1 a2 a3) : Keeps s₀ (wsWrite t a1 a2 a3) :=
  State.modField_keeps h _ fun _ k => { k with pages := wsPut_wf _ k.pages _ _ }


theorem programRun_keeps {s₀ t : State} (h : Keeps s₀ t) (a1 a2 a3 a4 a5) : Keeps s₀ (programRun t a1 a2 a3 a4 a5).2 := by
  unfold programRun
  extract_lets n s1 s2 c s3 bad s4
  have h1 : Keeps s₀ s1 := Keeps.foldl (fun _ _ k => wearExtent_keeps k _ _) h
  have h2 : Keeps s₀ s2 := Keeps.foldl (fun _ _ k => wsWrite_keeps k _ _ _) h1
  have h3 : Keeps s₀ s3 := State.modField_same (countMib_keeps h2 _ _ _ _) _ (fun _ => rfl) (fun _ => rfl)
  have h4 : Keeps s₀ s4 := State.modField_same h3 _ (fun _ => rfl) (fun _ => rfl)
  clear_value s4 s3 c s2 s1
  split
  · exact h3
  · exact State.raise_keeps h4 _ _
theorem programRun_keeps_eq {s₀ t r : State} {x0} (h : Keeps s₀ t) {a1 a2 a3 a4 a5} (hr : programRun t a1 a2 a3 a4 a5 = (x0, r)) : Keeps s₀ r := by
  have := programRun_keeps h a1 a2 a3 a4 a5
  rw [hr] at this
  exact this

theorem markSubs_keeps {s₀ t : State} (h : Keeps s₀ t) (a1 a2) : Keeps s₀ (markSubs t a1 a2) := by
  unfold markSubs
  repeat' first
    | with_reducible assumption
    | with_reducible apply Keeps.update

theorem degradeRoot_keeps {s₀ t : State} (h : Keeps s₀ t) (a1) : Keeps s₀ (degradeRoot t a1) := by
  unfold degradeRoot
  extract_lets l0
  clear_value l0
  repeat' first
    | with_reducible assumption
    | with_reducible apply setRootState_keeps
    | with_reducible apply State.modRoot_keeps
    | split

theorem postFw_keeps {s₀ t : State} (h : Keeps s₀ t) (a1 a2 a3) : Keeps s₀ (postFw t a1 a2 a3) := by
  unfold postFw
  repeat' first
    | with_reducible assumption
    | with_reducible apply State.setChan_keeps
    | dsimp only
    | split
    | with_reducible apply Keeps.update

theorem stageObject_keeps {s₀ t : State} (h : Keeps s₀ t) (a1 a2) : ∀ r, stageObject t a1 a2 = some r → Keeps s₀ r.2 := by
  unfold stageObject
  extract_lets l0 l1
  clear_value l0
  have hl1 : Keeps s₀ l1.2 := by
    dsimp only [l1]
    repeat' first
      | with_reducible assumption
      | with_reducible apply fwTakeAll_keeps
  clear_value l1
  repeat' first
    | with_reducible assumption
    | (intro _ hr; with_reducible cases hr)
    | refine placeObject_keeps_eq ?_ (by assumption)
    | refine pinEntry_keeps_eq ?_ (by assumption)
    | split
theorem stageObject_keeps_eq {s₀ t r : State} {x} (h : Keeps s₀ t) {a1 a2} (hr : stageObject t a1 a2 = some (x, r)) : Keeps s₀ r :=
  stageObject_keeps h a1 a2 _ hr

theorem dropStaged_keeps {s₀ t : State} (h : Keeps s₀ t) (a1) : Keeps s₀ (dropStaged t a1) := by
  unfold dropStaged
  extract_lets n s1
  have h1 : Keeps s₀ s1 := Keeps.foldl (fun _ _ k => unpinEntry_keeps k _ _) h
  clear_value s1
  cases hr : releaseObject s1 a1 with
  | none => exact h1
  | some u => exact releaseObject_keeps_eq h1 hr

theorem forgetRoom_keeps {s₀ t : State} (h : Keeps s₀ t) (a0 a2 a3) : Keeps s₀ (forgetRoom a0 t a2 a3) := by
  induction a0 generalizing t a2 a3 with
  | zero => exact h
  | succ k ih =>
  unfold forgetRoom
  repeat' first
    | with_reducible apply ih
    | with_reducible assumption
    | with_reducible apply modSeg_keeps
    | with_reducible apply dropStaged_keeps
    | split

theorem makeRoom_keeps {s₀ t : State} (h : Keeps s₀ t) (a1 a2 a3) : Keeps s₀ (makeRoom t a1 a2 a3) := by
  unfold makeRoom
  repeat' first
    | with_reducible assumption
    | with_reducible apply forgetRoom_keeps
    | split

theorem segFailed_keeps {s₀ t : State} (h : Keeps s₀ t) (a1 a2 a3) : Keeps s₀ (segFailed t a1 a2 a3) := by
  unfold segFailed
  extract_lets l0 l1 l2 l3 l4 l5
  have hl0 : Keeps s₀ l0 := by
    dsimp only [l0]
    repeat' first
      | with_reducible assumption
      | with_reducible apply markSubs_keeps
  clear_value l0
  clear_value l1
  have hl2 : Keeps s₀ l2 := by
    dsimp only [l2]
    repeat' first
      | with_reducible assumption
      | with_reducible apply modSeg_keeps
  clear_value l2
  have hl3 : Keeps s₀ l3 := by
    dsimp only [l3]
    repeat' first
      | with_reducible assumption
      | with_reducible apply dropStaged_keeps
      | split
  clear_value l3
  have hl4 : Keeps s₀ l4 := by
    dsimp only [l4]
    repeat' first
      | with_reducible assumption
      | with_reducible apply modSeg_keeps
  clear_value l4
  clear_value l5
  repeat' first
    | with_reducible assumption
    | with_reducible apply modSeg_keeps
    | with_reducible apply makeRoom_keeps
    | with_reducible apply degradeRoot_keeps
    | with_reducible apply postFw_keeps
    | refine pinEntry_keeps_eq ?_ (by assumption)
    | refine stageObject_keeps_eq ?_ (by assumption)
    | dsimp only
    | split

theorem copyLost_keeps {s₀ t : State} (h : Keeps s₀ t) (a1 a2) : Keeps s₀ (copyLost t a1 a2) := by
  unfold copyLost
  extract_lets l0 l1
  clear_value l0
  have hl1 : Keeps s₀ l1 := by
    dsimp only [l1]
    repeat' first
      | with_reducible assumption
      | with_reducible apply modSeg_keeps
  clear_value l1
  repeat' first
    | with_reducible assumption
    | with_reducible apply degradeRoot_keeps
    | split

theorem pageRecord_keeps {s₀ t : State} (h : Keeps s₀ t) (a1 a2 a3 a4) : Keeps s₀ (pageRecord t a1 a2 a3 a4) := by
  unfold pageRecord
  extract_lets l0 l1 l2
  have hl0 : Keeps s₀ l0 := by
    dsimp only [l0]
    repeat' first
      | with_reducible assumption
      | with_reducible apply State.setReg_keeps
  clear_value l0
  have hl1 : Keeps s₀ l1 := by
    dsimp only [l1]
    repeat' first
      | with_reducible assumption
      | with_reducible apply State.raise_keeps
  clear_value l1
  have hl2 : Keeps s₀ l2 := by
    dsimp only [l2]
    repeat' first
      | with_reducible assumption
      | with_reducible apply State.bump_keeps
  clear_value l2
  repeat' first
    | with_reducible assumption
    | with_reducible apply tallyAppend_keeps

theorem wsPageRead_keeps {s₀ t : State} (h : Keeps s₀ t) (a1 a2 a3 a4) : Keeps s₀ (wsPageRead t a1 a2 a3 a4) := by
  unfold wsPageRead
  extract_lets l0 l1 l2 l3 l4 l5 l6 l7 l8 l9 l10 l11 l12 l13 l14
  clear_value l1
  clear_value l2
  clear_value l3
  clear_value l4
  clear_value l5
  clear_value l6
  have hl7 : Keeps s₀ l7.2 := by
    dsimp only [l7]
    repeat' first
      | with_reducible assumption
      | with_reducible apply countMib_keeps
  clear_value l7
  have hl8 : Keeps s₀ l8 := by
    dsimp only [l8]
    repeat' first
      | with_reducible assumption
      | with_reducible refine State.modField_same ?_ _ (fun _ => rfl) (fun _ => rfl)
  clear_value l8
  have hl10 : Keeps s₀ l10 := by
    dsimp only [l10]
    repeat' first
      | with_reducible assumption
      | with_reducible apply Keeps.update
  clear_value l10
  clear_value l11
  clear_value l12
  have hl13 : Keeps s₀ l13 := by
    dsimp only [l13]
    repeat' first
      | with_reducible assumption
      | with_reducible apply pageRecord_keeps
  clear_value l13
  have hl14 : Keeps s₀ l14 := by
    dsimp only [l14]
    repeat' first
      | with_reducible assumption
      | with_reducible apply pageRecord_keeps
  clear_value l14
  repeat' first
    | with_reducible assumption
    | with_reducible apply State.bump_keeps
    | with_reducible apply markSubs_keeps
    | with_reducible apply modSeg_keeps
    | with_reducible apply segFailed_keeps
    | with_reducible refine Keeps.foldl (fun _ _ _ => ?_) ?_
    | split

theorem wsPause_keeps {s₀ t : State} (h : Keeps s₀ t) (a1 a2) : Keeps s₀ (wsPause t a1 a2) := by
  unfold wsPause
  repeat' first
    | with_reducible assumption
    | with_reducible refine State.modField_same ?_ _ (fun _ => rfl) (fun _ => rfl)
    | split

end Sys2Proof.Machine
end

