-- ==== Sys2Proof/Laws/KeepsRoots.lean ====
section
/-! SUPPORT. What Machine/Roots.lean does keeps the part, the queue and the canonical form of every sparse memory. -/

namespace Sys2Proof.Machine

theorem answerOp_keeps {s₀ t : State} (h : Keeps s₀ t) (a1 a2 a3) : Keeps s₀ (answerOp t a1 a2 a3) := by
  unfold answerOp
  extract_lets l0
  have hl0 : Keeps s₀ l0 := by
    dsimp only [l0]
    repeat' first
      | with_reducible assumption
      | with_reducible apply completeDesc_keeps
      | split
  clear_value l0
  repeat' first
    | with_reducible assumption
    | with_reducible apply State.bump_keeps
    | with_reducible apply State.emit_keeps
    | split

theorem dropRootXfers_keeps {s₀ t : State} (h : Keeps s₀ t) (a1) : Keeps s₀ (dropRootXfers t a1) := by
  unfold dropRootXfers
  repeat' first
    | with_reducible assumption
    | with_reducible apply dropFwXfers_keeps

theorem emptyRoot_keeps {s₀ t : State} (h : Keeps s₀ t) (a1) : Keeps s₀ (emptyRoot t a1) := by
  unfold emptyRoot
  extract_lets l0 l1 l2 l3
  have hl0 : Keeps s₀ l0 := by
    dsimp only [l0]
    repeat' first
      | with_reducible assumption
      | with_reducible apply dropRootXfers_keeps
  clear_value l0
  clear_value l1
  have hl2 : Keeps s₀ l2 := by
    dsimp only [l2]
    repeat' first
      | with_reducible assumption
      | with_reducible apply dropStaged_keeps
      | with_reducible refine Keeps.foldl (fun _ _ _ => ?_) ?_
      | split
  clear_value l2
  clear_value l3
  repeat' first
    | with_reducible assumption
    | with_reducible apply setRootState_keeps
    | with_reducible apply State.setRoot_keeps

theorem removeRoot_keeps {s₀ t : State} (h : Keeps s₀ t) (a1) : Keeps s₀ (removeRoot t a1) := by
  unfold removeRoot
  repeat' first
    | with_reducible assumption
    | with_reducible apply emptyRoot_keeps
    | with_reducible apply setRootState_keeps
    | with_reducible apply State.modRoot_keeps

theorem settleRoot_keeps {s₀ t : State} (h : Keeps s₀ t) (a1 a2) : Keeps s₀ (settleRoot t a1 a2) := by
  unfold settleRoot
  extract_lets l0
  have hl0 : Keeps s₀ l0 := by
    dsimp only [l0]
    repeat' first
      | with_reducible assumption
      | with_reducible apply setRootState_keeps
  clear_value l0
  repeat' first
    | with_reducible assumption
    | with_reducible apply removeRoot_keeps
    | split

theorem retireRoot_keeps {s₀ t : State} (h : Keeps s₀ t) (a1) : Keeps s₀ (retireRoot t a1) := by
  unfold retireRoot
  repeat' first
    | with_reducible assumption
    | with_reducible apply settleRoot_keeps
    | with_reducible apply State.modRoot_keeps

theorem rootPin_keeps {s₀ t : State} (h : Keeps s₀ t) (a1) : Keeps s₀ (rootPin t a1) := by
  unfold rootPin
  repeat' first
    | with_reducible assumption
    | with_reducible apply State.modRoot_keeps

theorem rootUnpin_keeps {s₀ t : State} (h : Keeps s₀ t) (a1) : Keeps s₀ (rootUnpin t a1) := by
  unfold rootUnpin
  extract_lets l0
  have hl0 : Keeps s₀ l0 := by
    dsimp only [l0]
    repeat' first
      | with_reducible assumption
      | with_reducible apply State.modRoot_keeps
  clear_value l0
  repeat' first
    | with_reducible assumption
    | with_reducible apply removeRoot_keeps
    | split

theorem failOp_keeps {s₀ t : State} (h : Keeps s₀ t) (a1 a2 a3) : Keeps s₀ (failOp t a1 a2 a3) := by
  unfold failOp
  extract_lets l0 l1
  have hl0 : Keeps s₀ l0 := by
    dsimp only [l0]
    repeat' first
      | with_reducible assumption
      | with_reducible apply State.modRoot_keeps
  clear_value l0
  have hl1 : Keeps s₀ l1 := by
    dsimp only [l1]
    repeat' first
      | with_reducible assumption
      | with_reducible apply settleRoot_keeps
      | with_reducible apply emptyRoot_keeps
      | split
  clear_value l1
  repeat' first
    | with_reducible assumption
    | with_reducible apply answerOp_keeps

theorem rootReady_keeps {s₀ t : State} (h : Keeps s₀ t) (a1 a2) : Keeps s₀ (rootReady t a1 a2) := by
  unfold rootReady
  extract_lets l0 l1
  clear_value l0
  have hl1 : Keeps s₀ l1 := by
    dsimp only [l1]
    repeat' first
      | with_reducible assumption
      | with_reducible apply State.modRoot_keeps
  clear_value l1
  repeat' first
    | with_reducible assumption
    | with_reducible apply answerOp_keeps
    | with_reducible apply setRootState_keeps

theorem placeRuns_keeps {s₀ t : State} (h : Keeps s₀ t) (a1 a2 a3) : ∀ r, placeRuns t a1 a2 a3 = some r → Keeps s₀ r := by
  induction a3 generalizing t with
  | nil => intro r hr; unfold placeRuns at hr; obtain rfl := Option.some.inj hr; exact h
  | cons i rest ih =>
    intro r hr
    unfold placeRuns at hr
    dsimp only at hr
    split at hr
    · cases hr
    · exact ih (modSeg_keeps h _ _ _) r hr
theorem placeRuns_keeps_eq {s₀ t r : State} (h : Keeps s₀ t) {a1 a2 a3} (hr : placeRuns t a1 a2 a3 = some r) : Keeps s₀ r :=
  placeRuns_keeps h a1 a2 a3 _ hr

theorem placeObjects_keeps {s₀ t : State} (h : Keeps s₀ t) (a1 a2 a3) : ∀ r, placeObjects t a1 a2 a3 = some r → Keeps s₀ r := by
  induction a3 generalizing t with
  | nil => intro r hr; unfold placeObjects at hr; obtain rfl := Option.some.inj hr; exact h
  | cons i rest ih =>
    intro r hr
    unfold placeObjects at hr
    dsimp only at hr
    split at hr
    · cases hr
    next e u hu => exact ih (modSeg_keeps (stageObject_keeps_eq (makeRoom_keeps h _ _ _) hu) _ _ _) r hr
theorem placeObjects_keeps_eq {s₀ t r : State} (h : Keeps s₀ t) {a1 a2 a3} (hr : placeObjects t a1 a2 a3 = some r) : Keeps s₀ r :=
  placeObjects_keeps h a1 a2 a3 _ hr

theorem swapPost_keeps {s₀ t : State} (h : Keeps s₀ t) (a1 a2 a3) : Keeps s₀ (swapPost t a1 a2 a3) := by
  unfold swapPost
  extract_lets l0
  clear_value l0
  repeat' first
    | with_reducible assumption
    | with_reducible apply postFw_keeps
    | split

theorem beginLoad_keeps {s₀ t : State} (h : Keeps s₀ t) (a1) : Keeps s₀ (beginLoad t a1) := by
  unfold beginLoad
  extract_lets l0 l1 l2 l3 l4 l5 l6 l7 l8 l9 l10
  clear_value l0
  clear_value l1
  have hl2 : Keeps s₀ l2 := by
    dsimp only [l2]
    repeat' first
      | with_reducible assumption
      | with_reducible apply State.modRoot_keeps
  clear_value l2
  have hl3 : Keeps s₀ l3 := by
    dsimp only [l3]
    repeat' first
      | with_reducible assumption
      | with_reducible apply setRootState_keeps
  clear_value l3
  clear_value l5
  clear_value l6
  clear_value l7
  clear_value l8
  clear_value l9
  have hl10 : Keeps s₀ l10 := by
    dsimp only [l10]
    repeat' first
      | with_reducible assumption
      | with_reducible apply State.modRoot_keeps
  clear_value l10
  repeat' first
    | with_reducible assumption
    | with_reducible apply State.modRoot_keeps
    | with_reducible apply failOp_keeps
    | with_reducible apply omapFail_keeps
    | with_reducible apply swapPost_keeps
    | with_reducible refine Keeps.foldl (fun _ _ _ => ?_) ?_
    | refine placeRuns_keeps_eq ?_ (by assumption)
    | refine placeObjects_keeps_eq ?_ (by assumption)
    | split

theorem loadRequest_keeps {s₀ t : State} (h : Keeps s₀ t) (a1) : Keeps s₀ (loadRequest t a1) := by
  unfold loadRequest
  extract_lets l0 l1
  clear_value l0
  clear_value l1
  repeat' first
    | with_reducible assumption
    | with_reducible apply answerOp_keeps
    | with_reducible apply beginLoad_keeps
    | split

theorem programTries_keeps {s₀ t : State} (h : Keeps s₀ t) (a0 a2 a3 a4 a5) : Keeps s₀ (programTries a0 t a2 a3 a4 a5).2 := by
  induction a0 generalizing t a2 a3 a4 a5 with
  | zero => exact h
  | succ k ih =>
  unfold programTries
  repeat' first
    | with_reducible apply ih
    | extract_lets
    | with_reducible assumption
    | with_reducible apply modSeg_keeps
    | with_reducible apply programRun_keeps
    | refine placeRuns_keeps_eq ?_ (by assumption)
    | split
theorem programTries_keeps_eq {s₀ t r : State} {x0} (h : Keeps s₀ t) {a0 a2 a3 a4 a5} (hr : programTries a0 t a2 a3 a4 a5 = (x0, r)) : Keeps s₀ r := by
  have := programTries_keeps h a0 a2 a3 a4 a5
  rw [hr] at this
  exact this

theorem segCheck_keeps {s₀ t : State} (h : Keeps s₀ t) (a1 a2 a3 a4) : ∀ r, segCheck t a1 a2 a3 a4 = some r → Keeps s₀ r.2 := by
  unfold segCheck
  extract_lets map ranges hdrs
  have hm (l) (r) (hr : map l = some r) : Keeps s₀ r.2 := by
    dsimp only [map] at hr
    split at hr
    · cases hr
    · obtain ⟨_, _, rfl⟩ := Option.map_eq_some_iff.mp hr
      exact omapFail_keeps h _
  clear_value map ranges hdrs
  intro r hr
  split at hr
  · next x hx => exact hm _ _ (hx.trans hr)
  split at hr
  · cases hr; exact h
  split at hr
  · cases hr; exact h
  split at hr
  · next x hx => exact hm _ _ (hx.trans hr)
  split at hr
  · cases hr; exact h
  split at hr
  · cases hr; exact h
  · cases hr
theorem segCheck_keeps_eq {s₀ t r : State} {x} (h : Keeps s₀ t) {a1 a2 a3 a4} (hr : segCheck t a1 a2 a3 a4 = some (x, r)) : Keeps s₀ r :=
  segCheck_keeps h a1 a2 a3 a4 _ hr

theorem segmentProgram_keeps {s₀ t : State} (h : Keeps s₀ t) (a1 a2 a3 a4) : Keeps s₀ (segmentProgram t a1 a2 a3 a4) := by
  unfold segmentProgram
  repeat' first
    | with_reducible assumption
    | with_reducible apply failOp_keeps
    | with_reducible apply programTries_keeps
    | with_reducible apply State.modRoot_keeps
    | with_reducible apply rootReady_keeps
    | refine segCheck_keeps_eq ?_ (by assumption)
    | dsimp only
    | split

theorem repairSwitchover_keeps {s₀ t : State} (h : Keeps s₀ t) (a1) : Keeps s₀ (repairSwitchover t a1) := by
  unfold repairSwitchover
  extract_lets l0 l1 l2
  clear_value l0
  have hl1 : Keeps s₀ l1 := by
    dsimp only [l1]
    repeat' first
      | with_reducible assumption
      | with_reducible apply dropStaged_keeps
      | with_reducible apply modSeg_keeps
      | with_reducible refine Keeps.foldl (fun _ _ _ => ?_) ?_
      | split
  clear_value l1
  have hl2 : Keeps s₀ l2 := by
    dsimp only [l2]
    repeat' first
      | with_reducible assumption
      | with_reducible apply State.modRoot_keeps
  clear_value l2
  repeat' first
    | with_reducible assumption
    | with_reducible apply failOp_keeps
    | with_reducible apply State.modRoot_keeps
    | with_reducible apply answerOp_keeps
    | with_reducible apply settleRoot_keeps
    | refine placeRuns_keeps_eq ?_ (by assumption)
    | split

theorem swapHdrDone_keeps {s₀ t : State} (h : Keeps s₀ t) (a1 a2 a3) : Keeps s₀ (swapHdrDone t a1 a2 a3) := by
  unfold swapHdrDone
  extract_lets l0 l1
  clear_value l0
  clear_value l1
  repeat' first
    | with_reducible assumption
    | with_reducible apply failOp_keeps
    | with_reducible apply postFw_keeps
    | split

theorem swapSegDone_keeps {s₀ t : State} (h : Keeps s₀ t) (a1 a2 a3) : Keeps s₀ (swapSegDone t a1 a2 a3) := by
  unfold swapSegDone
  repeat' first
    | with_reducible assumption
    | with_reducible apply failOp_keeps
    | with_reducible apply State.modRoot_keeps
    | with_reducible apply rootReady_keeps
    | dsimp only
    | split

theorem peerSegDone_keeps {s₀ t : State} (h : Keeps s₀ t) (a1 a2 a3) : Keeps s₀ (peerSegDone t a1 a2 a3) := by
  unfold peerSegDone
  repeat' first
    | with_reducible assumption
    | with_reducible apply modSeg_keeps
    | with_reducible apply degradeRoot_keeps
    | with_reducible apply dropStaged_keeps
    | split

theorem stageNext_keeps {s₀ t : State} (h : Keeps s₀ t) (a1) : Keeps s₀ (stageNext t a1) := by
  unfold stageNext
  extract_lets l0
  clear_value l0
  repeat' first
    | with_reducible assumption
    | with_reducible apply modSeg_keeps
    | with_reducible apply postFw_keeps
    | refine stageObject_keeps_eq ?_ (by assumption)
    | dsimp only
    | split

theorem stageSegDone_keeps {s₀ t : State} (h : Keeps s₀ t) (a1 a2 a3) : Keeps s₀ (stageSegDone t a1 a2 a3) := by
  unfold stageSegDone
  repeat' first
    | with_reducible assumption
    | with_reducible apply stageNext_keeps
    | with_reducible apply modSeg_keeps
    | with_reducible apply dropStaged_keeps
    | split

theorem copyErrors_keeps {s₀ t : State} (h : Keeps s₀ t) : Keeps s₀ (copyErrors t) := by
  unfold copyErrors
  repeat' first
    | extract_lets
    | with_reducible assumption
    | with_reducible apply copyLost_keeps
    | with_reducible apply dropStaged_keeps
    | with_reducible refine Keeps.foldl (fun _ _ _ => ?_) ?_
    | split

theorem rootSwitch_keeps {s₀ t : State} (h : Keeps s₀ t) (a1 a2 a3) : Keeps s₀ (rootSwitch t a1 a2 a3) := by
  unfold rootSwitch
  extract_lets l0 l1 l2
  clear_value l0
  clear_value l1
  have hl2 : Keeps s₀ l2 := by
    dsimp only [l2]
    repeat' first
      | with_reducible assumption
      | with_reducible apply State.modRoot_keeps
      | with_reducible apply retireRoot_keeps
      | with_reducible refine Keeps.foldl (fun _ _ _ => ?_) ?_
      | split
  clear_value l2
  repeat' first
    | with_reducible assumption
    | with_reducible apply completeDesc_keeps
    | with_reducible apply badDesc_keeps
    | with_reducible apply State.modRoot_keeps
    | split

theorem rootRemove_keeps {s₀ t : State} (h : Keeps s₀ t) (a1 a2) : Keeps s₀ (rootRemove t a1 a2) := by
  unfold rootRemove
  extract_lets l0
  clear_value l0
  repeat' first
    | with_reducible assumption
    | with_reducible apply completeDesc_keeps
    | with_reducible apply removeRoot_keeps
    | with_reducible apply retireRoot_keeps
    | with_reducible apply badDesc_keeps
    | split

theorem modelDesc_keeps {s₀ t : State} (h : Keeps s₀ t) (a1) : Keeps s₀ (modelDesc t a1) := by
  unfold modelDesc
  extract_lets l0 l1 l2 l3 l4 l5
  clear_value l0
  clear_value l1
  clear_value l2
  clear_value l3
  clear_value l4
  repeat' first
    | with_reducible assumption
    | with_reducible apply badDesc_keeps
    | with_reducible apply loadRequest_keeps
    | with_reducible apply rootSwitch_keeps
    | with_reducible apply rootRemove_keeps
    | with_reducible apply omapFail_keeps
    | with_reducible apply completeDesc_keeps
    | with_reducible apply State.emit_keeps
    | split

theorem expertRequest_keeps {s₀ t : State} (h : Keeps s₀ t) (a1 a2 a3 a4 a5 a6 a7) : Keeps s₀ (expertRequest t a1 a2 a3 a4 a5 a6 a7) := by
  unfold expertRequest
  extract_lets l0 l1 l2 l3
  clear_value l0
  have hl1 : Keeps s₀ l1.2 := by
    dsimp only [l1]
    repeat' first
      | with_reducible assumption
      | with_reducible apply spmReadAsync_keeps
  clear_value l1
  clear_value l2
  have hl3 : Keeps s₀ l3 := by
    dsimp only [l3]
    repeat' first
      | with_reducible assumption
      | with_reducible apply spmWrite_keeps
      | with_reducible refine Keeps.foldl (fun _ _ _ => ?_) ?_
  clear_value l3
  repeat' first
    | with_reducible assumption
    | with_reducible apply postName_keeps
    | split

end Sys2Proof.Machine
end

