-- ==== Sys2Proof/Laws/KeepsMoves.lean ====
section
/-! SUPPORT. What Machine/Moves.lean does keeps the part, the queue and the canonical form of every sparse memory. -/

namespace Sys2Proof.Machine

theorem resFollow_keeps {s₀ s t : State} (h : Keeps s₀ t) (c : ResCmd) : Keeps s₀ (resFollow s t c) := by
  unfold resFollow
  extract_lets e len u1 u2 u3 v owner
  have h1 : Keeps s₀ u1 := giveOut_keeps h _ _
  have h2 : Keeps s₀ u2 := takeBack_keeps h _
  have h3 : Keeps s₀ u3 := takeBack_keeps h _
  clear_value u1 u2 u3
  have hv : Keeps s₀ v := by
    dsimp only [v]
    generalize c.op = op
    split
    · exact giveOut_keeps h _ _
    · split
      · exact putObjPages_keeps h1 _ _ _ _
      · exact h1
    · split
      · exact Keeps.ite (putObjPages_keeps h2 _ _ _ _) h2
      · exact h2
    · split
      · exact Keeps.ite (putObjPages_keeps h3 _ _ _ _) h3
      · exact h3
    · exact takeBack_keeps h _
    · exact takeBack_keeps h _
    · exact h
  clear_value v owner
  refine Keeps.ite h (Keeps.ite (Keeps.ite hv (ctxFollow_keeps hv _)) hv)


theorem stopMove_keeps {s₀ t : State} (h : Keeps s₀ t) (a1) : Keeps s₀ (stopMove t a1) := by
  unfold stopMove
  repeat' first
    | with_reducible assumption
    | with_reducible apply resFollow_keeps
    | with_reducible apply cancelMove_keeps

theorem ensureTable_keeps {s₀ t : State} (h : Keeps s₀ t) (a1 a2 a3) : ∀ r, ensureTable t a1 a2 a3 = some r → Keeps s₀ r := by
  unfold ensureTable
  extract_lets l0 l1 l2
  have hl1 : Keeps s₀ l1 := by
    dsimp only [l1]
    repeat' first
      | with_reducible assumption
      | with_reducible apply spmWrite_keeps
  clear_value l1
  have hl2 : Keeps s₀ l2 := by
    dsimp only [l2]
    repeat' first
      | with_reducible assumption
      | with_reducible apply tblLoadDone_keeps
      | with_reducible apply tblLoad_keeps
  clear_value l2
  repeat' first
    | with_reducible assumption
    | (intro _ hr; with_reducible cases hr)
    | split
theorem ensureTable_keeps_eq {s₀ t r : State} (h : Keeps s₀ t) {a1 a2 a3} (hr : ensureTable t a1 a2 a3 = some r) : Keeps s₀ r :=
  ensureTable_keeps h a1 a2 a3 _ hr

theorem movePrep_keeps {s₀ t : State} (h : Keeps s₀ t) (a1 a2 a3 a4) : ∀ r, movePrep t a1 a2 a3 a4 = some r → Keeps s₀ r.2 := by
  unfold movePrep
  repeat' first
    | with_reducible assumption
    | (intro _ hr; with_reducible cases hr)
    | (intro r hr; obtain ⟨_, hw, rfl⟩ := Option.map_eq_some_iff.mp hr; exact ensureTable_keeps_eq h hw)
    | split
theorem movePrep_keeps_eq {s₀ t r : State} {x} (h : Keeps s₀ t) {a1 a2 a3 a4} (hr : movePrep t a1 a2 a3 a4 = some (x, r)) : Keeps s₀ r :=
  movePrep_keeps h a1 a2 a3 a4 _ hr

theorem moveNext_keeps {s₀ t : State} (h : Keeps s₀ t) (a1) : Keeps s₀ (moveNext t a1) := by
  unfold moveNext
  repeat' first
    | with_reducible assumption
    | with_reducible apply postFw_keeps

theorem setMove_keeps {s₀ t : State} (h : Keeps s₀ t) (a1) : Keeps s₀ (setMove t a1) := by
  unfold setMove
  repeat' first
    | with_reducible assumption
    | with_reducible apply Keeps.update

theorem dropMove_keeps {s₀ t : State} (h : Keeps s₀ t) (a1) : Keeps s₀ (dropMove t a1) := by
  unfold dropMove
  repeat' first
    | with_reducible assumption
    | with_reducible apply Keeps.update

theorem moveDone_keeps {s₀ t : State} (h : Keeps s₀ t) (a1 a2) : Keeps s₀ (moveDone t a1 a2) := by
  unfold moveDone
  repeat' first
    | with_reducible assumption
    | with_reducible apply setMove_keeps
    | with_reducible apply moveNext_keeps
    | dsimp only
    | split

theorem moveStart_keeps {s₀ t : State} (h : Keeps s₀ t) (a1 a2 a3) : Keeps s₀ (moveStart t a1 a2 a3) := by
  unfold moveStart
  extract_lets l0 l1 l2 l3
  clear_value l0
  clear_value l1
  clear_value l2
  clear_value l3
  repeat' first
    | with_reducible assumption
    | with_reducible apply fwTake_keeps
    | with_reducible apply makeRoom_keeps
    | with_reducible apply resPort_keeps
    | with_reducible apply fwGive_keeps
    | with_reducible apply resFollow_keeps
    | with_reducible apply moveNext_keeps
    | refine movePrep_keeps_eq ?_ (by assumption)
    | dsimp only
    | split
    | with_reducible apply Keeps.update

theorem moveEnd_keeps {s₀ t : State} (h : Keeps s₀ t) (a1 a2 a3 a4) : Keeps s₀ (moveEnd t a1 a2 a3 a4) := by
  unfold moveEnd
  extract_lets l0 l1 l2 l3 l4 l5
  clear_value l0
  clear_value l1
  clear_value l2
  clear_value l3
  have hl4 : Keeps s₀ l4 := by
    dsimp only [l4]
    repeat' first
      | with_reducible assumption
      | with_reducible apply State.setReg_keeps
      | split
  clear_value l4
  have hl5 : Keeps s₀ l5 := by
    dsimp only [l5]
    repeat' first
      | with_reducible assumption
      | with_reducible apply resPort_keeps
  clear_value l5
  repeat' first
    | with_reducible assumption
    | with_reducible apply fwGive_keeps
    | with_reducible apply dropMove_keeps
    | with_reducible apply resFollow_keeps
    | split

theorem resIssue_keeps {s₀ t : State} (h : Keeps s₀ t) (a1 a2 a3) : Keeps s₀ (resIssue t a1 a2 a3) := by
  unfold resIssue
  extract_lets l0 l1
  have hl0 : Keeps s₀ l0 := by
    dsimp only [l0]
    repeat' first
      | with_reducible assumption
      | with_reducible apply resPort_keeps
  clear_value l0
  have hl1 : Keeps s₀ l1 := by
    dsimp only [l1]
    repeat' first
      | with_reducible assumption
      | with_reducible apply resFollow_keeps
      | split
  clear_value l1
  repeat' first
    | with_reducible assumption
    | with_reducible apply moveStart_keeps
    | with_reducible apply moveEnd_keeps
    | split

end Sys2Proof.Machine
end

