-- ==== Sys2Proof/Laws/KeepsXfers.lean ====
section
/-! SUPPORT. What Machine/Xfers.lean does keeps the part, the queue and the canonical form of every sparse memory. -/

namespace Sys2Proof.Machine

theorem allocAt_keeps {s₀ t : State} (h : Keeps s₀ t) (a1 a2 a3) : ∀ r, allocAt t a1 a2 a3 = some r → Keeps s₀ r.2 := by
  induction a3 generalizing t with
  | nil => intro r hr; unfold allocAt at hr; cases hr
  | cons x rest ih =>
    intro r hr
    obtain ⟨tier, f⟩ := x
    rw [allocAt] at hr
    have ht := fwTake_keeps (makeRoom_keeps h tier f a1.size) (tierCounter tier f) a1.size
    generalize fwTake _ _ _ = q at hr ht
    split at hr
    · split at hr
      next p hp => obtain rfl := Option.some.inj hr; exact placeObject_keeps ht _ _ _ hp
      · exact ih (fwGive_keeps ht _ _) r hr
    · exact ih ht r hr
theorem allocAt_keeps_eq {s₀ t r : State} {x} (h : Keeps s₀ t) {a1 a2 a3} (hr : allocAt t a1 a2 a3 = some (x, r)) : Keeps s₀ r :=
  allocAt_keeps h a1 a2 a3 _ hr

theorem xferAlloc_keeps {s₀ t : State} (h : Keeps s₀ t) (a1) : Keeps s₀ (xferAlloc t a1) := by
  unfold xferAlloc
  extract_lets l0 l1 l2 l3 l4 l5
  clear_value l0
  clear_value l1
  clear_value l2
  clear_value l3
  clear_value l4
  have hl5 : Keeps s₀ l5.2 := by
    dsimp only [l5]
    repeat' first
      | with_reducible assumption
      | with_reducible apply fwTake_keeps
  clear_value l5
  repeat' first
    | with_reducible assumption
    | with_reducible apply badDesc_keeps
    | with_reducible apply completeDesc_keeps
    | with_reducible apply fwGive_keeps
    | refine allocAt_keeps_eq ?_ (by assumption)
    | split
    | with_reducible apply Keeps.update

theorem xferTry_keeps {s₀ t : State} (h : Keeps s₀ t) (a1 a2) : ∀ r, xferTry t a1 a2 = some r → Keeps s₀ r := by
  unfold xferTry
  extract_lets l0
  clear_value l0
  repeat' first
    | with_reducible assumption
    | (intro _ hr; with_reducible cases hr)
    | with_reducible apply badDesc_keeps
    | with_reducible apply postFw_keeps
    | refine pinEntry_keeps_eq ?_ (by assumption)
    | dsimp only
    | split
theorem xferTry_keeps_eq {s₀ t r : State} (h : Keeps s₀ t) {a1 a2} (hr : xferTry t a1 a2 = some r) : Keeps s₀ r :=
  xferTry_keeps h a1 a2 _ hr

theorem freeTry_keeps {s₀ t : State} (h : Keeps s₀ t) (a1 a2) : ∀ r, freeTry t a1 a2 = some r → Keeps s₀ r := by
  intro r hr
  obtain ⟨u, hu, rfl⟩ := Option.map_eq_some_iff.mp hr
  exact completeDesc_keeps (releaseObject_keeps_eq h hu) _ _ _ _ _
theorem freeTry_keeps_eq {s₀ t r : State} (h : Keeps s₀ t) {a1 a2} (hr : freeTry t a1 a2 = some r) : Keeps s₀ r :=
  freeTry_keeps h a1 a2 _ hr

theorem waitTry_keeps {s₀ t : State} (h : Keeps s₀ t) (a1) : ∀ r, waitTry t a1 = some r → Keeps s₀ r := by
  unfold waitTry
  repeat' first
    | with_reducible assumption
    | with_reducible refine freeTry_keeps ?_ _ _
    | with_reducible refine xferTry_keeps ?_ _ _
    | split
theorem waitTry_keeps_eq {s₀ t r : State} (h : Keeps s₀ t) {a1} (hr : waitTry t a1 = some r) : Keeps s₀ r :=
  waitTry_keeps h a1 _ hr

theorem waitXfer_keeps {s₀ t : State} (h : Keeps s₀ t) (a1) : Keeps s₀ (waitXfer t a1) := by
  unfold waitXfer
  repeat' first
    | with_reducible assumption
    | refine waitTry_keeps_eq ?_ (by assumption)
    | split
    | with_reducible apply Keeps.update

theorem xferDesc_keeps {s₀ t : State} (h : Keeps s₀ t) (a1) : Keeps s₀ (xferDesc t a1) := by
  unfold xferDesc
  extract_lets l0 l1 l2 l3 l4
  clear_value l0
  clear_value l1
  clear_value l2
  clear_value l3
  clear_value l4
  repeat' first
    | with_reducible assumption
    | with_reducible apply badDesc_keeps
    | with_reducible apply xferAlloc_keeps
    | with_reducible apply waitXfer_keeps
    | with_reducible apply omapFail_keeps
    | split
    | with_reducible apply Keeps.update

theorem xferDone_keeps {s₀ t : State} (h : Keeps s₀ t) (a1 a2 a3 a4 a5) : Keeps s₀ (xferDone t a1 a2 a3 a4 a5) := by
  unfold xferDone
  extract_lets l0
  have hl0 : Keeps s₀ l0 := by
    dsimp only [l0]
    repeat' first
      | with_reducible assumption
      | with_reducible apply unpinEntry_keeps
  clear_value l0
  repeat' first
    | with_reducible assumption
    | with_reducible apply completeDesc_keeps
    | split

theorem xferStall_keeps {s₀ t : State} (h : Keeps s₀ t) (a1 a2 a3 a4) : Keeps s₀ (xferStall t a1 a2 a3 a4) := by
  unfold xferStall
  extract_lets l0 l1 l2
  clear_value l0
  have hl1 : Keeps s₀ l1 := by
    dsimp only [l1]
    repeat' first
      | with_reducible assumption
      | with_reducible apply transferStall_keeps
  clear_value l1
  clear_value l2
  repeat' first
    | with_reducible assumption
    | with_reducible apply errRecord_keeps
    | split

theorem fwEvent_keeps {s₀ t : State} (h : Keeps s₀ t) (a1) : Keeps s₀ (fwEvent t a1) := by
  unfold fwEvent
  repeat' first
    | with_reducible assumption
    | with_reducible apply xferDone_keeps
    | with_reducible apply swapSegDone_keeps
    | with_reducible apply swapHdrDone_keeps
    | with_reducible apply peerSegDone_keeps
    | with_reducible apply stageSegDone_keeps
    | with_reducible apply moveDone_keeps
    | split

theorem fwRun_keeps {s₀ t : State} (h : Keeps s₀ t) : Keeps s₀ (fwRun t) := by
  unfold fwRun
  extract_lets l0 l1 l2 l3 l4 l5
  have hl0 : Keeps s₀ l0 := by
    dsimp only [l0]
    repeat' first
      | with_reducible assumption
      | with_reducible apply copyErrors_keeps
      | with_reducible apply headRun_keeps
  clear_value l0
  clear_value l1
  have hl2 : Keeps s₀ l2 := by
    dsimp only [l2]
    repeat' first
      | with_reducible assumption
      | with_reducible apply fwEvent_keeps
      | with_reducible refine Keeps.foldl (fun _ _ _ => ?_) ?_
      | with_reducible apply Keeps.update
  clear_value l2
  clear_value l3
  have hl4 : Keeps s₀ l4 := by
    dsimp only [l4]
    repeat' first
      | with_reducible assumption
      | with_reducible apply postFw_keeps
      | with_reducible refine Keeps.foldl (fun _ _ _ => ?_) ?_
      | with_reducible apply Keeps.update
  clear_value l4
  clear_value l5
  repeat' first
    | with_reducible assumption
    | with_reducible apply waitXfer_keeps
    | with_reducible refine Keeps.foldl (fun _ _ _ => ?_) ?_
    | with_reducible apply Keeps.update

end Sys2Proof.Machine
end

