-- ==== Sys2Proof/Laws/KeepsAdmission.lean ====
section
/-! SUPPORT. What Machine/Admission.lean does keeps the part, the queue and the canonical form of every sparse memory. -/

namespace Sys2Proof.Machine

theorem giveAll_keeps {s₀ t : State} (h : Keeps s₀ t) (a1) : Keeps s₀ (giveAll t a1) := by
  unfold giveAll
  repeat' first
    | with_reducible assumption
    | with_reducible apply fwGive_keeps
    | with_reducible refine Keeps.foldl (fun _ _ _ => ?_) ?_

theorem reserveAt_keeps {s₀ t : State} (h : Keeps s₀ t) (a1 a2 a3 a4 a5) : Keeps s₀ (reserveAt t a1 a2 a3 a4 a5).2 := by
  induction a5 generalizing t a1 a2 a3 a4 with
  | nil => exact h
  | cons x l ih =>
  unfold reserveAt
  repeat' first
    | with_reducible apply ih
    | extract_lets
    | with_reducible assumption
    | with_reducible apply fwTakeAll_keeps
    | with_reducible apply makeRoom_keeps
    | split
theorem reserveAt_keeps_eq {s₀ t r : State} {x0} (h : Keeps s₀ t) {a1 a2 a3 a4 a5} (hr : reserveAt t a1 a2 a3 a4 a5 = (x0, r)) : Keeps s₀ r := by
  have := reserveAt_keeps h a1 a2 a3 a4 a5
  rw [hr] at this
  exact this

theorem newList_keeps {s₀ t : State} (h : Keeps s₀ t) (a1 a2 a3) : ∀ r, newList t a1 a2 a3 = some r → Keeps s₀ r.2 := by
  unfold newList
  extract_lets l0
  clear_value l0
  repeat' first
    | with_reducible assumption
    | (intro _ hr; with_reducible cases hr)
    | with_reducible apply nmWrite_keeps
    | with_reducible apply giveOut_keeps
    | split
theorem newList_keeps_eq {s₀ t r : State} {x} (h : Keeps s₀ t) {a1 a2 a3} (hr : newList t a1 a2 a3 = some (x, r)) : Keeps s₀ r :=
  newList_keeps h a1 a2 a3 _ hr

theorem openEntry_keeps {s₀ t : State} (h : Keeps s₀ t) (a1 a2 a3 a4 a5 a6 a7) : Keeps s₀ (openEntry t a1 a2 a3 a4 a5 a6 a7) := by
  unfold openEntry
  extract_lets l0 l1
  clear_value l0
  clear_value l1
  repeat' first
    | with_reducible assumption
    | with_reducible apply fwCtxSet_keeps

theorem ctxOpenDesc_keeps {s₀ t : State} (h : Keeps s₀ t) (a1) : Keeps s₀ (ctxOpenDesc t a1) := by
  unfold ctxOpenDesc
  extract_lets l0 l1 l2 l3 l4 l5 l6 l7
  clear_value l0
  clear_value l1
  clear_value l2
  clear_value l4
  clear_value l5
  clear_value l6
  clear_value l7
  repeat' first
    | with_reducible assumption
    | with_reducible apply completeDesc_keeps
    | with_reducible apply badDesc_keeps
    | with_reducible apply reserveAt_keeps
    | with_reducible apply giveAll_keeps
    | with_reducible apply rootPin_keeps
    | with_reducible apply openEntry_keeps
    | with_reducible apply State.setFw_keeps
    | refine newList_keeps_eq ?_ (by assumption)
    | dsimp only
    | split

theorem growPages_keeps {s₀ t : State} (h : Keeps s₀ t) (a1 a2) : Keeps s₀ (growPages t a1 a2).2 := by
  unfold growPages
  extract_lets l0 l1 l2 l3 l4
  clear_value l0
  clear_value l1
  clear_value l2
  clear_value l3
  have hl4 : Keeps s₀ l4.2 := by
    dsimp only [l4]
    repeat' first
      | with_reducible assumption
      | with_reducible apply fwTakeAll_keeps
  clear_value l4
  repeat' first
    | with_reducible assumption
    | with_reducible apply State.setFw_keeps
    | split
theorem growPages_keeps_eq {s₀ t r : State} {x0} (h : Keeps s₀ t) {a1 a2} (hr : growPages t a1 a2 = (x0, r)) : Keeps s₀ r := by
  have := growPages_keeps h a1 a2
  rw [hr] at this
  exact this

theorem growAdmit_keeps {s₀ t : State} (h : Keeps s₀ t) (a1 a2) : Keeps s₀ (growAdmit t a1 a2).2 := by
  unfold growAdmit
  extract_lets l0 l1 l2 l3 l4 l5
  clear_value l0
  have hl1 : Keeps s₀ l1.2 := by
    dsimp only [l1]
    repeat' first
      | with_reducible assumption
      | with_reducible apply growPages_keeps
  clear_value l1
  have hl2 : Keeps s₀ l2 := by
    dsimp only [l2]
    repeat' first
      | with_reducible assumption
  clear_value l2
  clear_value l3
  clear_value l4
  clear_value l5
  repeat' first
    | with_reducible assumption
    | with_reducible apply ctxSetBits_keeps
    | with_reducible apply giveAll_keeps
    | with_reducible apply State.setFw_keeps
    | split
theorem growAdmit_keeps_eq {s₀ t r : State} {x0} (h : Keeps s₀ t) {a1 a2} (hr : growAdmit t a1 a2 = (x0, r)) : Keeps s₀ r := by
  have := growAdmit_keeps h a1 a2
  rw [hr] at this
  exact this

theorem swapList_keeps {s₀ t : State} (h : Keeps s₀ t) (a1) : Keeps s₀ (swapList t a1) := by
  unfold swapList
  extract_lets x cap
  clear_value x cap
  split
  · exact h
  split
  · exact h
  next a u hu =>
    extract_lets old u1 u2
    have h1 : Keeps s₀ u1 := fwCtxSet_keeps (newList_keeps_eq h hu) _ _
    have h2 : Keeps s₀ u2 := fwGive_keeps (takeBack_keeps h1 _) _ _
    clear_value u2 u1
    exact Keeps.foldl (fun _ _ k => putObjPages_keeps k _ _ _ _) (State.setFw_keeps h2 _ _)

theorem allocPages_keeps {s₀ t : State} (h : Keeps s₀ t) (a0 a2 a3) : Keeps s₀ (allocPages a0 t a2 a3) := by
  induction a0 generalizing t a2 a3 with
  | zero => exact h
  | succ k ih =>
    unfold allocPages
    extract_lets x held n tier p o
    have hp : Keeps s₀ p.2 := by
      dsimp only [p]
      split
      · exact h
      · exact fwTake_keeps h _ _
    clear_value o p tier n held x
    split
    · exact h
    split
    · exact hp
    split
    · split
      · exact h
      · exact fwGive_keeps hp _ _
    next r u hu =>
      exact ih (putObjPages_keeps (State.setFw_keeps (placeObject_keeps_eq hp hu) _ _) _ _ _ _) _ _

theorem readyPages_keeps {s₀ t : State} (h : Keeps s₀ t) (a1 a2) : Keeps s₀ (readyPages t a1 a2) := by
  unfold readyPages
  extract_lets l0 l1 l2 l3 l4 l5 l6
  have hl0 : Keeps s₀ l0 := by
    dsimp only [l0]
    repeat' first
      | with_reducible assumption
      | with_reducible apply swapList_keeps
  clear_value l0
  have hl1 : Keeps s₀ l1.2 := by
    dsimp only [l1]
    repeat' first
      | with_reducible assumption
      | with_reducible apply growPages_keeps
  clear_value l1
  have hl2 : Keeps s₀ l2 := by
    dsimp only [l2]
    repeat' first
      | with_reducible assumption
      | with_reducible apply ctxSetBits_keeps
      | split
  clear_value l2
  clear_value l3
  clear_value l4
  have hl5 : Keeps s₀ l5.2 := by
    dsimp only [l5]
    repeat' first
      | with_reducible assumption
      | with_reducible apply fwTake_keeps
  clear_value l5
  have hl6 : Keeps s₀ l6 := by
    dsimp only [l6]
    repeat' first
      | with_reducible assumption
      | with_reducible apply State.setFw_keeps
      | with_reducible apply fwGive_keeps
      | split
  clear_value l6
  repeat' first
    | with_reducible assumption
    | with_reducible apply ctxFollow_keeps
    | with_reducible apply allocPages_keeps

end Sys2Proof.Machine
end

