-- ==== Sys2Proof/Laws/KeepsServing.lean ====
section
/-! SUPPORT. What Machine/Serving.lean does keeps the part, the queue and the canonical form of every sparse memory. -/

namespace Sys2Proof.Machine

theorem endStep_keeps {s₀ t : State} (h : Keeps s₀ t) (a1 a2 a3 a4) : Keeps s₀ (endStep t a1 a2 a3 a4) := by
  unfold endStep
  extract_lets l0 l1 l2 l3
  clear_value l0
  clear_value l1
  have hl2 : Keeps s₀ l2 := by
    dsimp only [l2]
    repeat' first
      | with_reducible assumption
      | with_reducible apply fwCtxSet_keeps
  clear_value l2
  have hl3 : Keeps s₀ l3 := by
    dsimp only [l3]
    repeat' first
      | with_reducible assumption
      | with_reducible apply State.setFw_keeps
  clear_value l3
  repeat' first
    | with_reducible assumption
    | with_reducible apply completeDesc_keeps
    | dsimp only
    | split

theorem cancelStep_keeps {s₀ t : State} (h : Keeps s₀ t) (a1) : Keeps s₀ (cancelStep t a1) := by
  unfold cancelStep
  repeat' first
    | with_reducible assumption
    | with_reducible apply ctxSetBits_keeps
    | with_reducible apply endStep_keeps
    | split

theorem stepDesc_keeps {s₀ t : State} (h : Keeps s₀ t) (a1) : Keeps s₀ (stepDesc t a1) := by
  unfold stepDesc
  extract_lets b e tokens count drafts inAddr outAddr cap root input ds g u plan spread dl due u2
  have hg : Keeps s₀ u := growAdmit_keeps h _ _
  have h2 : Keeps s₀ u2 := fwCtxSet_keeps hg _ _
  clear_value u2 due dl spread plan u
  have hg1 : Keeps s₀ g.2 := growAdmit_keeps h _ _
  clear_value g ds input root cap outAddr inAddr drafts count tokens e b
  generalize Option.orElse _ _ = q
  repeat' first
    | with_reducible assumption
    | with_reducible apply badDesc_keeps
    | with_reducible apply refuseDesc_keeps
    | with_reducible apply completeDesc_keeps
    | with_reducible apply omapFail_keeps
    | with_reducible apply State.setFw_keeps
    | with_reducible apply Keeps.ite
    | split

theorem applySettings_keeps {s₀ t : State} (h : Keeps s₀ t) (a1 a2) : Keeps s₀ (applySettings t a1 a2) := by
  unfold applySettings
  extract_lets l0 l1
  clear_value l0
  have hl1 : Keeps s₀ l1 := by
    dsimp only [l1]
    repeat' first
      | with_reducible assumption
      | with_reducible apply State.setFw_keeps
  clear_value l1
  repeat' first
    | with_reducible assumption
    | with_reducible apply fwCtxSet_keeps

theorem lateSettings_keeps {s₀ t : State} (h : Keeps s₀ t) (a1) : Keeps s₀ (lateSettings t a1) := by
  unfold lateSettings
  repeat' first
    | with_reducible assumption
    | with_reducible apply applySettings_keeps
    | split

theorem closeWindows_keeps {s₀ t : State} (h : Keeps s₀ t) (a1) : Keeps s₀ (closeWindows t a1) := by
  unfold closeWindows
  extract_lets l0
  have hl0 : Keeps s₀ l0 := by
    dsimp only [l0]
    repeat' first
      | with_reducible assumption
      | with_reducible apply State.setReg_keeps
      | with_reducible refine Keeps.foldl (fun _ _ _ => ?_) ?_
      | split
  clear_value l0
  repeat' first
    | with_reducible assumption
    | with_reducible apply winSync_keeps

theorem ctxTeardown_keeps {s₀ t : State} (h : Keeps s₀ t) (a1 a2) : Keeps s₀ (ctxTeardown t a1 a2) := by
  unfold ctxTeardown
  extract_lets l0 l1 l2 l3 l4
  clear_value l0
  clear_value l1
  have hl2 : Keeps s₀ l2 := by
    dsimp only [l2]
    repeat' first
      | with_reducible assumption
      | with_reducible apply fwCtxSet_keeps
  clear_value l2
  clear_value l3
  have hl4 : Keeps s₀ l4 := by
    dsimp only [l4]
    repeat' first
      | with_reducible assumption
      | with_reducible apply State.setFw_keeps
  clear_value l4
  repeat' first
    | with_reducible assumption
    | with_reducible apply closeWindows_keeps
    | with_reducible apply cancelStep_keeps

theorem releaseOwned_keeps {s₀ t : State} (h : Keeps s₀ t) (a1 a2) : Keeps s₀ (releaseOwned t a1 a2) := by
  unfold releaseOwned
  repeat' first
    | with_reducible assumption
    | with_reducible apply State.setFw_keeps
    | refine releaseObject_keeps_eq ?_ (by assumption)
    | dsimp only
    | split
    | with_reducible apply Keeps.update

theorem returnSpare_keeps {s₀ t : State} (h : Keeps s₀ t) (a1) : Keeps s₀ (returnSpare t a1) := by
  unfold returnSpare
  extract_lets l0 l1 l2
  clear_value l0
  clear_value l1
  have hl2 : Keeps s₀ l2 := by
    dsimp only [l2]
    repeat' first
      | with_reducible assumption
      | with_reducible apply giveAll_keeps
  clear_value l2
  repeat' first
    | with_reducible assumption
    | with_reducible apply State.setFw_keeps

theorem teardownDrained_keeps {s₀ t : State} (h : Keeps s₀ t) (a1) : Keeps s₀ (teardownDrained t a1) := by
  unfold teardownDrained
  extract_lets l0 l1 l2 l3 l4 l5 l6 l7 l8 l9
  clear_value l0
  clear_value l1
  have hl2 : Keeps s₀ l2 := by
    dsimp only [l2]
    repeat' first
      | with_reducible assumption
      | with_reducible apply releaseOwned_keeps
      | with_reducible refine Keeps.foldl (fun _ _ _ => ?_) ?_
  clear_value l2
  have hl3 : Keeps s₀ l3 := by
    dsimp only [l3]
    repeat' first
      | with_reducible assumption
      | with_reducible apply returnSpare_keeps
  clear_value l3
  clear_value l4
  have hl5 : Keeps s₀ l5 := by
    dsimp only [l5]
    repeat' first
      | with_reducible assumption
      | with_reducible apply fwGive_keeps
      | with_reducible apply takeBack_keeps
  clear_value l5
  clear_value l6
  have hl7 : Keeps s₀ l7 := by
    dsimp only [l7]
    repeat' first
      | with_reducible assumption
      | with_reducible apply fwCtxSet_keeps
  clear_value l7
  have hl8 : Keeps s₀ l8 := by
    dsimp only [l8]
    repeat' first
      | with_reducible assumption
      | with_reducible apply rootUnpin_keeps
      | with_reducible apply State.setFw_keeps
  clear_value l8
  have hl9 : Keeps s₀ l9 := by
    dsimp only [l9]
    repeat' first
      | with_reducible assumption
      | with_reducible apply completeDesc_keeps
      | with_reducible refine Keeps.foldl (fun _ _ _ => ?_) ?_
  clear_value l9
  repeat' first
    | with_reducible assumption
    | with_reducible apply completeDesc_keeps
    | split

theorem trimApply_keeps {s₀ t : State} (h : Keeps s₀ t) (a1) : Keeps s₀ (trimApply t a1) := by
  unfold trimApply
  extract_lets l0 l1 l2 l3 l4 l5 l6
  clear_value l0
  clear_value l1
  have hl2 : Keeps s₀ l2 := by
    dsimp only [l2]
    repeat' first
      | with_reducible assumption
      | with_reducible apply releaseOwned_keeps
      | with_reducible apply putPage_keeps
      | with_reducible refine Keeps.foldl (fun _ _ _ => ?_) ?_
      | split
  clear_value l2
  have hl3 : Keeps s₀ l3 := by
    dsimp only [l3]
    repeat' first
      | with_reducible assumption
      | with_reducible apply returnSpare_keeps
  clear_value l3
  have hl4 : Keeps s₀ l4 := by
    dsimp only [l4]
    repeat' first
      | with_reducible assumption
      | with_reducible apply ctxSetBits_keeps
  clear_value l4
  clear_value l5
  have hl6 : Keeps s₀ l6 := by
    dsimp only [l6]
    repeat' first
      | with_reducible assumption
      | with_reducible apply State.setFw_keeps
  clear_value l6
  repeat' first
    | with_reducible assumption
    | with_reducible apply ctxFollow_keeps
    | with_reducible apply completeDesc_keeps
    | with_reducible refine Keeps.foldl (fun _ _ _ => ?_) ?_
    | split

theorem ctxDesc_keeps {s₀ t : State} (h : Keeps s₀ t) (a1) : Keeps s₀ (ctxDesc t a1) := by
  unfold ctxDesc
  extract_lets l0 l1 l2 l3 l4 l5
  clear_value l0
  clear_value l1
  clear_value l2
  clear_value l3
  clear_value l4
  have hl5 : Keeps s₀ l5 := by
    dsimp only [l5]
    repeat' first
      | with_reducible assumption
      | with_reducible apply State.setFw_keeps
      | with_reducible apply applySettings_keeps
      | split
  clear_value l5
  repeat' first
    | with_reducible assumption
    | with_reducible apply badDesc_keeps
    | with_reducible apply ctxOpenDesc_keeps
    | with_reducible apply completeDesc_keeps
    | with_reducible apply cancelStep_keeps
    | with_reducible apply ctxTeardown_keeps
    | with_reducible apply State.setFw_keeps
    | with_reducible apply omapFail_keeps
    | with_reducible apply State.emit_keeps
    | split

theorem boundaryEnds_keeps {s₀ t : State} (h : Keeps s₀ t) : Keeps s₀ (boundaryEnds t) := by
  unfold boundaryEnds
  extract_lets l0
  have hl0 : Keeps s₀ l0.2 := by
    dsimp only [l0]
    repeat' first
      | with_reducible assumption
      | with_reducible apply stampAll_keeps
  clear_value l0
  repeat' first
    | with_reducible assumption
    | with_reducible apply endStep_keeps
    | with_reducible apply ctxSetBits_keeps
    | with_reducible refine Keeps.foldl (fun _ _ _ => ?_) ?_
    | split

theorem pinAll_keeps {s₀ t : State} (h : Keeps s₀ t) (a1) : ∀ r, pinAll t a1 = some r → Keeps s₀ r.2 := by
  induction a1 generalizing t with
  | nil => intro r hr; unfold pinAll at hr; obtain rfl := Option.some.inj hr; exact h
  | cons x rest ih =>
    intro r hr
    unfold pinAll at hr
    split at hr
    · cases hr
    next g u hu =>
      split at hr
      next l v hv => obtain rfl := Option.some.inj hr; exact ih (pinEntry_keeps_eq h hu) (l, v) hv
      · cases hr
theorem pinAll_keeps_eq {s₀ t r : State} {x} (h : Keeps s₀ t) {a1} (hr : pinAll t a1 = some (x, r)) : Keeps s₀ r :=
  pinAll_keeps h a1 _ hr

theorem unpinAll_keeps {s₀ t : State} (h : Keeps s₀ t) (a1) : Keeps s₀ (unpinAll t a1) := by
  unfold unpinAll
  repeat' first
    | with_reducible assumption
    | with_reducible apply unpinEntry_keeps
    | with_reducible refine Keeps.foldl (fun _ _ _ => ?_) ?_

theorem joinStep_keeps {s₀ t : State} (h : Keeps s₀ t) (a1) : Keeps s₀ (joinStep t a1).2 := by
  unfold joinStep
  extract_lets l0
  clear_value l0
  repeat' first
    | with_reducible assumption
    | with_reducible apply endStep_keeps
    | with_reducible apply omapFail_keeps
    | with_reducible apply State.setFw_keeps
    | with_reducible apply fwCtxSet_keeps
    | refine pinAll_keeps_eq ?_ (by assumption)
    | dsimp only
    | split
theorem joinStep_keeps_eq {s₀ t r : State} {x0} (h : Keeps s₀ t) {a1} (hr : joinStep t a1 = (x0, r)) : Keeps s₀ r := by
  have := joinStep_keeps h a1
  rw [hr] at this
  exact this

theorem joinAll_keeps {s₀ t : State} (h : Keeps s₀ t) (a1) : Keeps s₀ (joinAll t a1).2 := by
  induction a1 generalizing t with
  | nil => exact h
  | cons x l ih =>
  unfold joinAll
  repeat' first
    | with_reducible apply ih
    | with_reducible assumption
    | with_reducible apply joinStep_keeps
theorem joinAll_keeps_eq {s₀ t r : State} {x0} (h : Keeps s₀ t) {a1} (hr : joinAll t a1 = (x0, r)) : Keeps s₀ r := by
  have := joinAll_keeps h a1
  rw [hr] at this
  exact this

theorem formSubs_keeps {s₀ t : State} (h : Keeps s₀ t) (a1 a2 a3) : Keeps s₀ (formSubs t a1 a2 a3).2 := by
  induction a3 generalizing t a1 a2 with
  | nil => exact h
  | cons x l ih =>
  unfold formSubs
  repeat' first
    | with_reducible apply ih
    | with_reducible assumption
    | with_reducible apply joinAll_keeps
theorem formSubs_keeps_eq {s₀ t r : State} {x0} (h : Keeps s₀ t) {a1 a2 a3} (hr : formSubs t a1 a2 a3 = (x0, r)) : Keeps s₀ r := by
  have := formSubs_keeps h a1 a2 a3
  rw [hr] at this
  exact this

theorem putStepRec_keeps {s₀ t : State} (h : Keeps s₀ t) (a1 a2 a3) : Keeps s₀ (putStepRec t a1 a2 a3) := by
  unfold putStepRec
  extract_lets l0
  clear_value l0
  repeat' first
    | with_reducible assumption
    | with_reducible apply spmWrite_keeps
    | split

theorem stepRun_keeps {s₀ t : State} (h : Keeps s₀ t) (a1 a2) : Keeps s₀ (stepRun t a1 a2) := by
  unfold stepRun
  extract_lets l0 l5 l1 l2 l3 l4
  clear_value l0
  clear_value l5
  have hl1 : Keeps s₀ l1 := by
    dsimp only [l1]
    repeat' first
      | with_reducible assumption
      | with_reducible apply Keeps.update
  clear_value l1
  have hl2 : Keeps s₀ l2 := by
    dsimp only [l2]
    repeat' first
      | with_reducible assumption
      | with_reducible apply putStepRec_keeps
      | with_reducible refine Keeps.foldl (fun _ _ _ => ?_) ?_
  clear_value l2
  have hl3 : Keeps s₀ l3 := by
    dsimp only [l3]
    repeat' first
      | with_reducible assumption
      | with_reducible apply semPost_keeps
      | with_reducible refine Keeps.foldl (fun _ _ _ => ?_) ?_
      | split
  clear_value l3
  have hl4 : Keeps s₀ l4 := by
    dsimp only [l4]
    repeat' first
      | with_reducible assumption
      | with_reducible apply headSend_keeps
      | with_reducible refine Keeps.foldl (fun _ _ _ => ?_) ?_
      | split
  clear_value l4
  repeat' first
    | with_reducible assumption
    | with_reducible apply stageNext_keeps
    | with_reducible refine Keeps.foldl (fun _ _ _ => ?_) ?_

theorem stepStart_keeps {s₀ t : State} (h : Keeps s₀ t) (a1) : Keeps s₀ (stepStart t a1) := by
  unfold stepStart
  extract_lets l0 l1 l2
  have hl0 : Keeps s₀ l0 := by
    dsimp only [l0]
    repeat' first
      | with_reducible assumption
      | with_reducible apply boundaryEnds_keeps
  clear_value l0
  have hl1 : Keeps s₀ l1 := by
    dsimp only [l1]
    repeat' first
      | with_reducible assumption
      | with_reducible apply readyPages_keeps
      | with_reducible refine Keeps.foldl (fun _ _ _ => ?_) ?_
      | split
  clear_value l1
  have hl2 : Keeps s₀ l2.2 := by
    dsimp only [l2]
    repeat' first
      | with_reducible assumption
      | with_reducible apply formSubs_keeps
  clear_value l2
  repeat' first
    | with_reducible assumption
    | with_reducible apply stepRun_keeps
    | split

theorem dueTokens_keeps {s₀ t : State} (h : Keeps s₀ t) (a1 a2 a3) : Keeps s₀ (dueTokens t a1 a2 a3) := by
  induction a3 generalizing t a1 a2 with
  | zero => exact h
  | succ k ih =>
  unfold dueTokens
  repeat' first
    | with_reducible apply ih
    | with_reducible assumption
    | with_reducible apply fwCtxSet_keeps
    | with_reducible apply ctxSetBits_keeps
    | split
    | with_reducible apply Keeps.ite

theorem commitOk_keeps {s₀ t : State} (h : Keeps s₀ t) (a1 a2 a3) : Keeps s₀ (commitOk t a1 a2 a3) := by
  unfold commitOk
  extract_lets l0 l1 l2 l3 l4 l5 l6 l7 l8 l9 l10 l11 l12 l13 l14 l15 l16 l17
  clear_value l0
  clear_value l1
  clear_value l2
  clear_value l3
  clear_value l4
  clear_value l5
  clear_value l6
  have hl7 : Keeps s₀ l7 := by
    dsimp only [l7]
    repeat' first
      | with_reducible assumption
      | with_reducible apply fwCtxSet_keeps
  clear_value l7
  have hl8 : Keeps s₀ l8 := by
    dsimp only [l8]
    repeat' first
      | with_reducible assumption
      | with_reducible apply State.emit_keeps
  clear_value l8
  have hl9 : Keeps s₀ l9 := by
    dsimp only [l9]
    repeat' first
      | with_reducible assumption
      | with_reducible apply State.emit_keeps
      | split
  clear_value l9
  have hl10 : Keeps s₀ l10.2 := by
    dsimp only [l10]
    repeat' first
      | with_reducible assumption
      | with_reducible apply stamp_keeps
  clear_value l10
  have hl11 : Keeps s₀ l11 := by
    dsimp only [l11]
    repeat' first
      | with_reducible assumption
      | with_reducible apply dueTokens_keeps
  clear_value l11
  clear_value l12
  clear_value l13
  have hl14 : Keeps s₀ l14 := by
    dsimp only [l14]
    repeat' first
      | with_reducible assumption
      | with_reducible apply fwCtxSet_keeps
      | split
  clear_value l14
  clear_value l15
  clear_value l16
  have hl17 : Keeps s₀ l17 := by
    dsimp only [l17]
    repeat' first
      | with_reducible assumption
      | with_reducible apply State.setFw_keeps
  clear_value l17
  repeat' first
    | with_reducible assumption
    | with_reducible apply endStep_keeps
    | with_reducible apply omapFail_keeps
    | split

theorem foldCorrected_keeps {s₀ t : State} (h : Keeps s₀ t) (a1 a2) : Keeps s₀ (foldCorrected t a1 a2) := by
  unfold foldCorrected
  extract_lets l0
  clear_value l0
  repeat' first
    | with_reducible assumption
    | with_reducible apply State.setFw_keeps

theorem commitMember_keeps {s₀ t : State} (h : Keeps s₀ t) (a1 a2 a3 a4) : Keeps s₀ (commitMember t a1 a2 a3 a4) := by
  unfold commitMember
  extract_lets l0 l1 l2 l3
  clear_value l0
  have hl1 : Keeps s₀ l1 := by
    dsimp only [l1]
    repeat' first
      | with_reducible assumption
      | with_reducible apply foldCorrected_keeps
  clear_value l1
  clear_value l2
  have hl3 : Keeps s₀ l3 := by
    dsimp only [l3]
    repeat' first
      | with_reducible assumption
      | with_reducible apply endStep_keeps
      | with_reducible apply commitOk_keeps
      | split
  clear_value l3
  repeat' first
    | with_reducible assumption
    | with_reducible apply unpinAll_keeps

theorem stepCommit_keeps {s₀ t : State} (h : Keeps s₀ t) (a1 a2) : Keeps s₀ (stepCommit t a1 a2) := by
  unfold stepCommit
  repeat' first
    | with_reducible assumption
    | with_reducible apply commitMember_keeps
    | with_reducible apply lateSettings_keeps
    | with_reducible refine Keeps.foldl (fun _ _ _ => ?_) ?_
    | dsimp only
    | split
    | with_reducible apply Keeps.update

end Sys2Proof.Machine
end

