-- ==== Sys2Proof/Laws/KeepsDescriptors.lean ====
section
/-! SUPPORT. What Machine/Descriptors.lean does keeps the part, the queue and the canonical form of every sparse memory. -/

namespace Sys2Proof.Machine

theorem runDesc_keeps {s₀ t : State} (h : Keeps s₀ t) (a1) : Keeps s₀ (runDesc t a1) := by
  unfold runDesc
  repeat' first
    | with_reducible assumption
    | with_reducible apply badDesc_keeps
    | with_reducible apply completeDesc_keeps
    | with_reducible apply stepDesc_keeps
    | with_reducible apply xferDesc_keeps
    | with_reducible apply ctxDesc_keeps
    | with_reducible apply modelDesc_keeps
    | with_reducible apply Keeps.ite
    | split

theorem startOn_keeps {s₀ t : State} (h : Keeps s₀ t) (a0) : Keeps s₀ (startOn a0 t) := by
  induction a0 generalizing t with
  | nil => exact h
  | cons x l ih =>
  unfold startOn
  repeat' first
    | with_reducible apply ih
    | with_reducible assumption
    | with_reducible apply runDesc_keeps
    | with_reducible apply Keeps.ite
    | with_reducible apply Keeps.update

theorem startRing_keeps {s₀ t : State} (h : Keeps s₀ t) (a1) : Keeps s₀ (startRing t a1) := by
  unfold startRing
  extract_lets l0
  clear_value l0
  repeat' first
    | with_reducible assumption
    | with_reducible apply startOn_keeps
    | with_reducible apply Keeps.ite

theorem fenceComplete_keeps {s₀ t : State} (h : Keeps s₀ t) (a1) : Keeps s₀ (fenceComplete t a1) := by
  unfold fenceComplete
  repeat' first
    | with_reducible assumption
    | with_reducible apply startRing_keeps
    | with_reducible apply completeDesc_keeps
    | with_reducible apply Keeps.ite
    | split

theorem ringsRun_keeps {s₀ t : State} (h : Keeps s₀ t) : Keeps s₀ (ringsRun t) := by
  unfold ringsRun
  repeat' first
    | with_reducible assumption
    | with_reducible apply startRing_keeps
    | with_reducible refine Keeps.foldl (fun _ _ _ => ?_) ?_

theorem descRead_keeps {s₀ t : State} (h : Keeps s₀ t) (a1 a2 a3) : Keeps s₀ (descRead t a1 a2 a3) := by
  unfold descRead
  extract_lets l0 l1 l2 l3 l4 l5 l6 l7 l8 l9
  clear_value l0
  clear_value l1
  clear_value l2
  clear_value l3
  clear_value l4
  clear_value l5
  clear_value l6
  have hl7 : Keeps s₀ l7 := by
    dsimp only [l7]
    repeat' first
      | with_reducible assumption
      | with_reducible apply State.setReg_keeps
      | with_reducible apply State.bump_keeps
  clear_value l7
  have hl8 : Keeps s₀ l8 := by
    dsimp only [l8]
    repeat' first
      | with_reducible assumption
      | with_reducible apply State.setRingSt_keeps
  clear_value l8
  have hl9 : Keeps s₀ l9 := by
    dsimp only [l9]
    repeat' first
      | with_reducible assumption
      | with_reducible apply Keeps.update
  clear_value l9
  repeat' first
    | with_reducible assumption
    | with_reducible apply ringDisable_keeps
    | with_reducible apply hstFlag_keeps
    | with_reducible apply omapFail_keeps
    | with_reducible apply dropDesc_keeps
    | with_reducible apply refuseDesc_keeps
    | with_reducible apply startRing_keeps
    | with_reducible apply Keeps.ite
    | split

theorem endMapXfers_keeps {s₀ t : State} (h : Keeps s₀ t) : Keeps s₀ (endMapXfers t) := by
  unfold endMapXfers
  extract_lets l0
  have hl0 : Keeps s₀ l0 := by
    dsimp only [l0]
    repeat' first
      | extract_lets
      | with_reducible assumption
      | with_reducible apply finishSkq_keeps
      | with_reducible refine Keeps.foldl (fun _ _ _ => ?_) ?_
      | with_reducible apply Keeps.ite
  clear_value l0
  repeat' first
    | extract_lets
    | with_reducible assumption
    | with_reducible apply finishChan_keeps
    | with_reducible apply buckerEnd_keeps
    | with_reducible apply uncount_keeps
    | with_reducible apply dropRequests_keeps
    | with_reducible refine Keeps.foldl (fun _ _ _ => ?_) ?_
    | with_reducible apply Keeps.ite
    | split

/-- An FLR clears registers and gives every ring a new epoch. -/
theorem flrState_keeps {s₀ t : State} (h : Keeps s₀ t) (p : Nat → Bool) (q : Vector EqState 64) : Keeps s₀ { t with
    regs := storeErase p t.regs, eqs := q, rings := t.rings.map fun (x : Nat × RingState) => (x.1, { epoch := x.2.epoch + 1 }) } :=
  ⟨h.part, h.pending, fun c => { h.canonical c with
    regs := storeErase_wf p (h.canonical c).regs
    rings := storeMap_wfFrom (fun (x : Nat × RingState) => (x.1, { epoch := x.2.epoch + 1 })) (fun _ => rfl)
      (fun _ he => absurd (congrArg RingState.epoch he) (Nat.succ_ne_zero _)) (h.canonical c).rings }⟩

theorem functionLevelReset_keeps {s₀ t : State} (h : Keeps s₀ t) : Keeps s₀ (functionLevelReset t) := by
  unfold functionLevelReset
  extract_lets l0 l1 l2 l3 l4
  have hl0 : Keeps s₀ l0 := by
    dsimp only [l0]
    repeat' first
      | with_reducible assumption
      | with_reducible apply Keeps.update
  clear_value l0
  have hl1 : Keeps s₀ l1 := by
    dsimp only [l1]
    repeat' first
      | with_reducible assumption
      | with_reducible apply eqDisable_keeps
      | with_reducible refine Keeps.foldl (fun _ _ _ => ?_) ?_
      | with_reducible apply Keeps.ite
  clear_value l1
  have hl2 : Keeps s₀ l2 := by
    dsimp only [l2]
    repeat' first
      | with_reducible assumption
      | with_reducible apply endMapXfers_keeps
  clear_value l2
  have hl3 : Keeps s₀ l3 := by
    dsimp only [l3]
    repeat' first
      | with_reducible assumption
      | with_reducible apply flrState_keeps
  clear_value l3
  have hl4 : Keeps s₀ l4 := by
    dsimp only [l4]
    repeat' first
      | with_reducible assumption
      | with_reducible apply ctxSetBits_keeps
      | with_reducible refine Keeps.foldl (fun _ _ _ => ?_) ?_
      | with_reducible apply Keeps.ite
  clear_value l4
  repeat' first
    | with_reducible assumption
    | with_reducible apply fwRun_keeps

end Sys2Proof.Machine
end

