-- ==== Sys2Proof/Laws/KeepsIntegrity.lean ====
section
/-! SUPPORT. What Machine/Integrity.lean does keeps the part, the queue and the canonical form of every sparse memory. -/

namespace Sys2Proof.Machine

theorem storeBits_keeps {s₀ t : State} (h : Keeps s₀ t) (a1 a2) : Keeps s₀ (storeBits t a1 a2) := by
  unfold storeBits
  repeat' first
    | with_reducible assumption
    | with_reducible apply State.setReg_keeps
    | split

theorem scrubGran_keeps {s₀ t : State} (h : Keeps s₀ t) (a1 a2) : Keeps s₀ (scrubGran t a1 a2) := by
  unfold scrubGran
  extract_lets l0
  clear_value l0
  repeat' first
    | with_reducible assumption
    | with_reducible apply State.setGran_keeps
    | with_reducible apply State.bump_keeps
    | with_reducible apply recordCe_keeps
    | with_reducible apply recordUe_keeps
    | split

theorem scrubTick_keeps {s₀ t : State} (h : Keeps s₀ t) (a1) : Keeps s₀ (scrubTick t a1) := by
  unfold scrubTick
  extract_lets l0 l1 l2 l3
  clear_value l0
  clear_value l1
  have hl2 : Keeps s₀ l2 := by
    dsimp only [l2]
    repeat' first
      | with_reducible assumption
      | with_reducible apply scrubGran_keeps
      | with_reducible refine Keeps.foldl (fun _ _ _ => ?_) ?_
  clear_value l2
  clear_value l3
  repeat' first
    | with_reducible assumption
    | with_reducible apply State.setReg_keeps
    | with_reducible apply State.raise_keeps
    | with_reducible apply Keeps.ite

theorem pprResult_keeps {s₀ t : State} (h : Keeps s₀ t) (a1 a2) : Keeps s₀ (pprResult t a1 a2) := by
  unfold pprResult
  repeat' first
    | with_reducible assumption
    | with_reducible apply State.setReg_keeps

theorem pprRecord_keeps {s₀ t : State} (h : Keeps s₀ t) (a1 a2) : Keeps s₀ (pprRecord t a1 a2) := by
  unfold pprRecord
  repeat' first
    | with_reducible assumption
    | with_reducible apply tallyAppend_keeps

theorem pprRequest_keeps {s₀ t : State} (h : Keeps s₀ t) (a1 a2 a3) : Keeps s₀ (pprRequest t a1 a2 a3) := by
  unfold pprRequest
  extract_lets l0
  clear_value l0
  repeat' first
    | with_reducible assumption
    | with_reducible apply State.raise_keeps
    | with_reducible apply pprRecord_keeps
    | with_reducible apply pprResult_keeps
    | with_reducible refine State.modField_same ?_ _ (fun _ => rfl) (fun _ => rfl)
    | with_reducible apply Keeps.ite

theorem pprDone_keeps {s₀ t : State} (h : Keeps s₀ t) (a1 a2) : Keeps s₀ (pprDone t a1 a2) := by
  unfold pprDone
  extract_lets l0 l1 l2 l3 l4 l5
  clear_value l0
  have hl1 : Keeps s₀ l1 := by
    dsimp only [l1]
    repeat' first
      | with_reducible assumption
      | with_reducible apply State.setGran_keeps
      | with_reducible refine Keeps.foldl (fun _ _ _ => ?_) ?_
  clear_value l1
  have hl2 : Keeps s₀ l2 := by
    dsimp only [l2]
    repeat' first
      | with_reducible assumption
      | with_reducible refine State.modField_same ?_ _ (fun _ => rfl) (fun _ => rfl)
  clear_value l2
  have hl3 : Keeps s₀ l3 := by
    dsimp only [l3]
    repeat' first
      | with_reducible assumption
      | with_reducible apply State.setReg_keeps
  clear_value l3
  have hl4 : Keeps s₀ l4 := by
    dsimp only [l4]
    repeat' first
      | with_reducible assumption
      | with_reducible apply pprResult_keeps
  clear_value l4
  have hl5 : Keeps s₀ l5 := by
    dsimp only [l5]
    repeat' first
      | with_reducible assumption
      | with_reducible apply State.raise_keeps
      | with_reducible apply State.bump_keeps
      | with_reducible apply Keeps.ite
  clear_value l5
  repeat' first
    | with_reducible assumption
    | with_reducible apply fwRun_keeps
    | with_reducible apply releaseHeld_keeps
    | with_reducible apply pprRecord_keeps
    | split

theorem injectorArm_keeps {s₀ t : State} (h : Keeps s₀ t) (a1 a2) : Keeps s₀ (injectorArm t a1 a2) := by
  unfold injectorArm
  repeat' first
    | with_reducible assumption
    | with_reducible apply storeBits_keeps
    | with_reducible apply Keeps.ite

theorem memberFail_keeps {s₀ t : State} (h : Keeps s₀ t) (a1 a2) : Keeps s₀ (memberFail t a1 a2) := by
  unfold memberFail
  extract_lets l0
  repeat' first
    | with_reducible assumption
    | with_reducible apply Keeps.update

theorem poisonXfers_keeps {s₀ t : State} (h : Keeps s₀ t) (a1) : Keeps s₀ (poisonXfers t a1) := by
  unfold poisonXfers
  extract_lets l0 l1 l2 l3 l4 l5 l6 l7
  clear_value l1
  have hl2 : Keeps s₀ l2 := by
    dsimp only [l2]
    repeat' first
      | with_reducible assumption
      | with_reducible apply Keeps.update
  clear_value l2
  have hl3 : Keeps s₀ l3 := by
    dsimp only [l3]
    repeat' first
      | with_reducible assumption
      | with_reducible apply completeDesc_keeps
      | with_reducible refine Keeps.foldl (fun _ _ _ => ?_) ?_
  clear_value l3
  clear_value l4
  have hl5 : Keeps s₀ l5 := by
    dsimp only [l5]
    repeat' first
      | with_reducible assumption
      | with_reducible apply Keeps.update
  clear_value l5
  have hl6 : Keeps s₀ l6 := by
    dsimp only [l6]
    repeat' first
      | with_reducible assumption
      | with_reducible apply State.setChan_keeps
      | with_reducible apply finishChan_keeps
      | with_reducible refine Keeps.foldl (fun _ _ _ => ?_) ?_
      | with_reducible apply Keeps.ite
      | split
      | with_reducible apply Keeps.update
  clear_value l6
  clear_value l7
  repeat' first
    | with_reducible assumption
    | with_reducible apply fwEvent_keeps
    | with_reducible refine Keeps.foldl (fun _ _ _ => ?_) ?_
    | with_reducible apply Keeps.update

theorem freeOwned_keeps {s₀ t : State} (h : Keeps s₀ t) (a1 a2) : Keeps s₀ (freeOwned t a1 a2) := by
  unfold freeOwned
  extract_lets l0
  have hl0 : Keeps s₀ l0 := by
    dsimp only [l0]
    repeat' first
      | with_reducible assumption
      | with_reducible apply unpinEntry_keeps
      | with_reducible refine Keeps.foldl (fun _ _ _ => ?_) ?_
  clear_value l0
  repeat' first
    | with_reducible assumption
    | with_reducible apply releaseOwned_keeps

theorem loseCtx_keeps {s₀ t : State} (h : Keeps s₀ t) (a1 a2) : Keeps s₀ (loseCtx t a1 a2) := by
  unfold loseCtx
  extract_lets l0 l1 l2 l3 l4 l5 l6 l7 l8 l9 l10 l11
  clear_value l0
  have hl1 : Keeps s₀ l1 := by
    dsimp only [l1]
    repeat' first
      | with_reducible assumption
      | with_reducible apply poisonXfers_keeps
  clear_value l1
  have hl2 : Keeps s₀ l2 := by
    dsimp only [l2]
    repeat' first
      | with_reducible assumption
      | with_reducible apply freeOwned_keeps
      | with_reducible refine Keeps.foldl (fun _ _ _ => ?_) ?_
  clear_value l2
  clear_value l3
  have hl4 : Keeps s₀ l4 := by
    dsimp only [l4]
    repeat' first
      | with_reducible assumption
      | with_reducible apply returnSpare_keeps
      | with_reducible apply Keeps.ite
  clear_value l4
  clear_value l5
  have hl6 : Keeps s₀ l6 := by
    dsimp only [l6]
    repeat' first
      | with_reducible assumption
      | with_reducible apply fwGive_keeps
      | with_reducible apply takeBack_keeps
      | with_reducible apply Keeps.ite
  clear_value l6
  clear_value l7
  clear_value l8
  have hl9 : Keeps s₀ l9 := by
    dsimp only [l9]
    repeat' first
      | with_reducible assumption
      | with_reducible apply State.setFw_keeps
  clear_value l9
  have hl10 : Keeps s₀ l10 := by
    dsimp only [l10]
    repeat' first
      | with_reducible assumption
      | with_reducible apply rootUnpin_keeps
      | with_reducible apply Keeps.ite
  clear_value l10
  have hl11 : Keeps s₀ l11 := by
    dsimp only [l11]
    repeat' first
      | with_reducible assumption
      | with_reducible apply completeDesc_keeps
      | with_reducible refine Keeps.foldl (fun _ _ _ => ?_) ?_
  clear_value l11
  repeat' first
    | with_reducible assumption
    | with_reducible apply completeDesc_keeps
    | split

theorem quarCtx_keeps {s₀ t : State} (h : Keeps s₀ t) (a1) : Keeps s₀ (quarCtx t a1) := by
  unfold quarCtx
  extract_lets l0 l1
  clear_value l0
  have hl1 : Keeps s₀ l1 := by
    dsimp only [l1]
    repeat' first
      | with_reducible assumption
      | with_reducible apply loseCtx_keeps
      | with_reducible apply endStep_keeps
  clear_value l1
  repeat' first
    | with_reducible assumption
    | with_reducible apply memberFail_keeps
    | with_reducible apply quarClear_keeps
    | with_reducible apply Keeps.ite

theorem fwTeardown_keeps {s₀ t : State} (h : Keeps s₀ t) (a1) : Keeps s₀ (fwTeardown t a1) := by
  unfold fwTeardown
  extract_lets l0 l1 l2 l3
  clear_value l0
  clear_value l1
  have hl2 : Keeps s₀ l2 := by
    dsimp only [l2]
    repeat' first
      | with_reducible assumption
      | with_reducible apply fwCtxSet_keeps
  clear_value l2
  clear_value l3
  repeat' first
    | with_reducible assumption
    | with_reducible apply closeWindows_keeps
    | with_reducible apply State.setFw_keeps

theorem quarSeg_keeps {s₀ t : State} (h : Keeps s₀ t) (a1) : Keeps s₀ (quarSeg t a1) := by
  unfold quarSeg
  extract_lets l0
  have hl0 : Keeps s₀ l0 := by
    dsimp only [l0]
    repeat' first
      | with_reducible assumption
      | with_reducible apply dropFwXfers_keeps
  clear_value l0
  repeat' first
    | with_reducible assumption
    | with_reducible apply copyLost_keeps
    | with_reducible apply degradeRoot_keeps
    | with_reducible apply modSeg_keeps
    | with_reducible apply Keeps.ite

theorem loseObject_keeps {s₀ t : State} (h : Keeps s₀ t) (a1) : Keeps s₀ (loseObject t a1) := by
  unfold loseObject
  extract_lets l0 l1 l2 l3
  clear_value l0
  clear_value l1
  have hl2 : Keeps s₀ l2 := by
    dsimp only [l2]
    repeat' first
      | with_reducible assumption
      | with_reducible apply dropFwXfers_keeps
      | with_reducible apply Keeps.update
  clear_value l2
  have hl3 : Keeps s₀ l3 := by
    dsimp only [l3]
    repeat' first
      | with_reducible assumption
      | with_reducible apply takeBack_keeps
      | with_reducible apply dropMove_keeps
      | with_reducible apply fwGive_keeps
      | with_reducible apply Keeps.ite
      | split
  clear_value l3
  repeat' first
    | with_reducible assumption
    | with_reducible apply takeBack_keeps
    | with_reducible apply fwGive_keeps
    | with_reducible apply Keeps.ite

theorem forgetObj_keeps {s₀ t : State} (h : Keeps s₀ t) (a1 a2) : Keeps s₀ (forgetObj t a1 a2) := by
  unfold forgetObj
  extract_lets l0 l1 l2 l3
  clear_value l0
  clear_value l1
  clear_value l2
  clear_value l3
  repeat' first
    | with_reducible assumption
    | with_reducible apply State.setFw_keeps

theorem quarRes_keeps {s₀ t : State} (h : Keeps s₀ t) (a1 a2) : Keeps s₀ (quarRes t a1 a2) := by
  unfold quarRes
  extract_lets l0 l1 l2 l3 l4 l5 l6
  clear_value l0
  clear_value l1
  have hl3 : Keeps s₀ l3 := by
    dsimp only [l3]
    repeat' first
      | with_reducible assumption
      | with_reducible apply poisonXfers_keeps
  clear_value l3
  have hl4 : Keeps s₀ l4 := by
    dsimp only [l4]
    repeat' first
      | with_reducible assumption
      | with_reducible apply memberFail_keeps
      | with_reducible apply endStep_keeps
      | with_reducible apply Keeps.ite
  clear_value l4
  have hl5 : Keeps s₀ l5 := by
    dsimp only [l5]
    repeat' first
      | with_reducible assumption
      | with_reducible apply forgetObj_keeps
  clear_value l5
  have hl6 : Keeps s₀ l6 := by
    dsimp only [l6]
    repeat' first
      | with_reducible assumption
      | with_reducible apply quarSeg_keeps
      | with_reducible apply poisonXfers_keeps
      | with_reducible apply fwTeardown_keeps
      | with_reducible refine Keeps.foldl (fun _ _ _ => ?_) ?_
      | with_reducible apply Keeps.ite
  clear_value l6
  repeat' first
    | with_reducible assumption
    | with_reducible apply quarClear_keeps
    | with_reducible apply loseObject_keeps

theorem quarantineClear_keeps {s₀ t : State} (h : Keeps s₀ t) (a1 a2 a3) : Keeps s₀ (quarantineClear t a1 a2 a3) := by
  unfold quarantineClear
  extract_lets l0 l1
  clear_value l0
  clear_value l1
  repeat' first
    | with_reducible assumption
    | with_reducible apply quarClear_keeps
    | with_reducible apply ringsRun_keeps
    | with_reducible apply fwRun_keeps
    | with_reducible apply quarRes_keeps
    | with_reducible apply quarCtx_keeps
    | with_reducible apply Keeps.ite

theorem errCode_keeps {s₀ t : State} (h : Keeps s₀ t) (a1) : Keeps s₀ (errCode t a1).2 := by
  unfold errCode
  repeat' first
    | with_reducible assumption
    | with_reducible apply State.tickFree_keeps
    | split
theorem errCode_keeps_eq {s₀ t r : State} {x0} (h : Keeps s₀ t) {a1} (hr : errCode t a1 = (x0, r)) : Keeps s₀ r := by
  have := errCode_keeps h a1
  rw [hr] at this
  exact this

theorem deviceErrorReport_keeps {s₀ t : State} (h : Keeps s₀ t) (a1 a2) : Keeps s₀ (deviceErrorReport t a1 a2) := by
  unfold deviceErrorReport
  repeat' first
    | with_reducible assumption
    | with_reducible apply State.lower_keeps
    | with_reducible apply tallyAppend_keeps
    | with_reducible apply errCode_keeps
    | with_reducible apply errRecord_keeps
    | with_reducible apply skidderAbort_keeps
    | dsimp only
    | with_reducible apply Keeps.ite
    | split

end Sys2Proof.Machine
end

