-- ==== Sys2Proof/Laws/KeepsWindfall.lean ====
section
/-! SUPPORT. What Machine/Windfall.lean does keeps the part, the queue and the canonical form of every sparse memory. -/

namespace Sys2Proof.Machine

theorem wfData_keeps {s₀ t : State} (h : Keeps s₀ t) (a1 a2) : Keeps s₀ (wfData t a1 a2).2 := by
  unfold wfData
  repeat' first
    | with_reducible assumption
    | with_reducible apply State.tickFree_keeps
    | split
theorem wfData_keeps_eq {s₀ t r : State} {x0} (h : Keeps s₀ t) {a1 a2} (hr : wfData t a1 a2 = (x0, r)) : Keeps s₀ r := by
  have := wfData_keeps h a1 a2
  rw [hr] at this
  exact this

theorem wfRun_keeps {s₀ t : State} (h : Keeps s₀ t) (a0 a1 a3) : Keeps s₀ (wfRun a0 a1 t a3) := by
  induction a1 generalizing t a0 a3 with
  | zero => exact h
  | succ k ih =>
  unfold wfRun
  repeat' first
    | with_reducible apply ih
    | with_reducible assumption
    | with_reducible apply wfData_keeps
    | dsimp only
    | with_reducible apply Keeps.ite
    | split
    | with_reducible apply Keeps.update

theorem wfCut_keeps {s₀ t : State} (h : Keeps s₀ t) : Keeps s₀ (wfCut t) := by
  unfold wfCut
  repeat' first
    | with_reducible assumption
    | dsimp only
    | split
    | with_reducible apply Keeps.update

theorem wfFinish_keeps {s₀ t : State} (h : Keeps s₀ t) (a1) : Keeps s₀ (wfFinish t a1).2 := by
  unfold wfFinish
  extract_lets l0 l1
  have hl0 : Keeps s₀ l0.2 := by
    dsimp only [l0]
    repeat' first
      | with_reducible assumption
      | with_reducible apply stamp_keeps
  clear_value l0
  clear_value l1
  repeat' first
    | with_reducible assumption
    | with_reducible apply tallyWrite_keeps
    | with_reducible apply State.setReg_keeps
    | with_reducible apply State.raise_keeps
    | dsimp only
    | with_reducible apply Keeps.ite
    | split
    | with_reducible apply Keeps.update
theorem wfFinish_keeps_eq {s₀ t r : State} {x0} (h : Keeps s₀ t) {a1} (hr : wfFinish t a1 = (x0, r)) : Keeps s₀ r := by
  have := wfFinish_keeps h a1
  rw [hr] at this
  exact this

theorem wfStart_keeps {s₀ t : State} (h : Keeps s₀ t) (a1 a2 a3) : Keeps s₀ (wfStart t a1 a2 a3) := by
  unfold wfStart
  extract_lets l0 l1 l2 l3 l4
  clear_value l0
  clear_value l1
  clear_value l2
  have hl3 : Keeps s₀ l3.2 := by
    dsimp only [l3]
    repeat' first
      | with_reducible assumption
      | with_reducible apply stamp_keeps
  clear_value l3
  have hl4 : Keeps s₀ l4 := by
    dsimp only [l4]
    repeat' first
      | with_reducible assumption
  clear_value l4
  repeat' first
    | with_reducible assumption
    | with_reducible apply Keeps.update

theorem wfSelect_keeps {s₀ t : State} (h : Keeps s₀ t) (a1) : Keeps s₀ (wfSelect t a1) := by
  unfold wfSelect
  extract_lets l0 l1
  clear_value l0
  have hl1 : Keeps s₀ l1 := by
    dsimp only [l1]
    repeat' first
      | with_reducible assumption
      | with_reducible apply State.setReg_keeps
  clear_value l1
  repeat' first
    | with_reducible assumption
    | with_reducible apply Keeps.update

end Sys2Proof.Machine
end

