-- ==== Sys2Proof/Laws/KeepsResets.lean ====
section
/-! SUPPORT. What Machine/Resets.lean does keeps the part, the queue and the canonical form of every sparse memory. -/

namespace Sys2Proof.Machine

theorem clearCore_keeps {s₀ t : State} (h : Keeps s₀ t) (a1) : Keeps s₀ (clearCore t a1) := by
  exact State.eraseRegs_keeps (State.setCore_keeps h a1 fun _ => ⟨rfl, rfl, rfl⟩) _

theorem coreStepsFail_keeps {s₀ t : State} (h : Keeps s₀ t) (a1 a2) : Keeps s₀ (coreStepsFail t a1 a2) := by
  unfold coreStepsFail
  extract_lets l0
  repeat' first
    | with_reducible assumption
    | with_reducible apply Keeps.update

theorem resetCore_keeps {s₀ t : State} (h : Keeps s₀ t) (a1) : Keeps s₀ (resetCore t a1) := by
  unfold resetCore
  extract_lets l0
  have hl0 : Keeps s₀ l0 := by
    dsimp only [l0]
    repeat' first
      | with_reducible assumption
      | with_reducible apply finishSkq_keeps
      | with_reducible refine Keeps.foldl (fun _ _ _ => ?_) ?_
  clear_value l0
  repeat' first
    | with_reducible assumption
    | with_reducible apply coreStepsFail_keeps
    | with_reducible apply clearCore_keeps

theorem resetCoreAlone_keeps {s₀ t : State} (h : Keeps s₀ t) (a1) : Keeps s₀ (resetCoreAlone t a1) := by
  unfold resetCoreAlone
  repeat' first
    | with_reducible assumption
    | with_reducible apply releaseHeld_keeps
    | with_reducible apply pumpScratch_keeps
    | with_reducible apply resetCore_keeps

theorem coreReset_keeps {s₀ t : State} (h : Keeps s₀ t) (a1 a2 a3) : Keeps s₀ (coreReset t a1 a2 a3) := by
  unfold coreReset
  repeat' first
    | with_reducible assumption
    | with_reducible apply resetCoreAlone_keeps
    | with_reducible refine Keeps.foldl (fun _ _ _ => ?_) ?_
    | with_reducible apply Keeps.ite

theorem endQuiet_keeps {s₀ t : State} (h : Keeps s₀ t) (a1 a2) : Keeps s₀ (endQuiet t a1 a2) := by
  unfold endQuiet
  extract_lets l0
  have hl0 : Keeps s₀ l0 := by
    dsimp only [l0]
    repeat' first
      | with_reducible assumption
      | with_reducible apply uncount_keeps
  clear_value l0
  repeat' first
    | with_reducible assumption
    | split
    | with_reducible apply Keeps.update

theorem clearMovers_keeps {s₀ t : State} (h : Keeps s₀ t) (a1) : Keeps s₀ (clearMovers t a1) := by
  unfold clearMovers
  extract_lets l0 l1 l2 l3 l4
  have hl0 : Keeps s₀ l0 := by
    dsimp only [l0]
    repeat' first
      | with_reducible assumption
      | with_reducible apply State.setSkq_keeps
      | with_reducible apply endQuiet_keeps
      | with_reducible refine Keeps.foldl (fun _ _ _ => ?_) ?_
  clear_value l0
  have hl1 : Keeps s₀ l1 := by
    dsimp only [l1]
    repeat' first
      | with_reducible assumption
      | with_reducible apply endQuiet_keeps
      | with_reducible apply dropChanCoding_keeps
      | with_reducible apply State.setChan_keeps
      | with_reducible refine Keeps.foldl (fun _ _ _ => ?_) ?_
      | split
  clear_value l1
  have hl2 : Keeps s₀ l2 := by
    dsimp only [l2]
    repeat' first
      | with_reducible assumption
      | with_reducible apply endQuiet_keeps
      | split
  clear_value l2
  have hl3 : Keeps s₀ l3 := by
    dsimp only [l3]
    repeat' first
      | with_reducible assumption
      | with_reducible apply State.setBkr_keeps
  clear_value l3
  clear_value l4
  repeat' first
    | with_reducible assumption
    | with_reducible apply Keeps.update

theorem dropStep_keeps {s₀ t : State} (h : Keeps s₀ t) (a1 a2) : Keeps s₀ (dropStep t a1 a2) := by
  unfold dropStep
  extract_lets l0 l1 l2 l3
  clear_value l0
  have hl1 : Keeps s₀ l1 := by
    dsimp only [l1]
    repeat' first
      | with_reducible assumption
      | with_reducible apply foldCorrected_keeps
      | with_reducible refine Keeps.foldl (fun _ _ _ => ?_) ?_
  clear_value l1
  have hl2 : Keeps s₀ l2 := by
    dsimp only [l2]
    repeat' first
      | with_reducible assumption
      | with_reducible apply unpinAll_keeps
      | with_reducible apply endStep_keeps
      | with_reducible refine Keeps.foldl (fun _ _ _ => ?_) ?_
  clear_value l2
  have hl3 : Keeps s₀ l3 := by
    dsimp only [l3]
    repeat' first
      | with_reducible assumption
      | with_reducible apply Keeps.update
  clear_value l3
  repeat' first
    | with_reducible assumption
    | with_reducible apply lateSettings_keeps
    | with_reducible refine Keeps.foldl (fun _ _ _ => ?_) ?_

theorem dropDescWork_keeps {s₀ t : State} (h : Keeps s₀ t) (a1 a2) : Keeps s₀ (dropDescWork t a1 a2) := by
  unfold dropDescWork
  extract_lets l0 l1 l2
  have hl0 : Keeps s₀ l0 := by
    dsimp only [l0]
    repeat' first
      | with_reducible assumption
      | with_reducible apply memberFail_keeps
      | with_reducible apply endStep_keeps
      | with_reducible apply State.setFw_keeps
      | with_reducible refine Keeps.foldl (fun _ _ _ => ?_) ?_
      | with_reducible apply Keeps.ite
  clear_value l0
  have hl1 : Keeps s₀ l1 := by
    dsimp only [l1]
    repeat' first
      | with_reducible assumption
      | with_reducible apply Keeps.update
  clear_value l1
  have hl2 : Keeps s₀ l2 := by
    dsimp only [l2]
    repeat' first
      | with_reducible assumption
      | with_reducible apply State.modRoot_keeps
      | with_reducible refine Keeps.foldl (fun _ _ _ => ?_) ?_
      | with_reducible apply Keeps.ite
      | split
  clear_value l2
  repeat' first
    | with_reducible assumption
    | with_reducible apply refuseDesc_keeps

theorem setFldStatus_keeps {s₀ t : State} (h : Keeps s₀ t) (a1 a2) : Keeps s₀ (setFldStatus t a1 a2) := by
  unfold setFldStatus
  repeat' first
    | with_reducible assumption
    | with_reducible apply State.setReg_keeps

theorem eraseField_keeps {s₀ t : State} (h : Keeps s₀ t) (p : Nat → Bool) (notify : Vector (List Nat) 4) (nmWb : List Nat) :
    Keeps s₀ { t with regs := storeErase p t.regs, notify, nmWb } :=
  ⟨h.part, h.pending, fun c => { h.canonical c with regs := storeErase_wf p (h.canonical c).regs }⟩

theorem assertField_keeps {s₀ t : State} (h : Keeps s₀ t) (a1 a2 a3) : Keeps s₀ (assertField t a1 a2 a3) := by
  unfold assertField
  extract_lets l0 l1 l2 l3 l4 l5 l6 l7 l8 l9 l10 l11 l12 l13 l14 l15 l16 l17 l18 l19 l20 l21 l22
  clear_value l0
  have hl1 : Keeps s₀ l1 := by
    dsimp only [l1]
    repeat' first
      | with_reducible assumption
      | with_reducible apply State.setReg_keeps
  clear_value l1
  have hl2 : Keeps s₀ l2 := by
    dsimp only [l2]
    repeat' first
      | with_reducible assumption
      | with_reducible apply setFldStatus_keeps
  clear_value l2
  clear_value l3
  clear_value l4
  have hl5 : Keeps s₀ l5 := by
    dsimp only [l5]
    repeat' first
      | with_reducible assumption
      | with_reducible apply clearMovers_keeps
  clear_value l5
  clear_value l6
  have hl7 : Keeps s₀ l7 := by
    dsimp only [l7]
    repeat' first
      | with_reducible assumption
      | with_reducible apply Keeps.update
  clear_value l7
  have hl8 : Keeps s₀ l8 := by
    dsimp only [l8]
    repeat' first
      | with_reducible assumption
      | with_reducible apply clearCore_keeps
      | with_reducible refine Keeps.foldl (fun _ _ _ => ?_) ?_
  clear_value l8
  have hl9 : Keeps s₀ l9 := by
    dsimp only [l9]
    repeat' first
      | with_reducible assumption
      | with_reducible apply eraseField_keeps
  clear_value l9
  have hl10 : Keeps s₀ l10 := by
    dsimp only [l10]
    repeat' first
      | with_reducible assumption
      | with_reducible apply setFldStatus_keeps
  clear_value l10
  have hl11 : Keeps s₀ l11 := by
    dsimp only [l11]
    repeat' first
      | with_reducible assumption
      | with_reducible apply State.setReg_keeps
  clear_value l11
  have hl12 : Keeps s₀ l12 := by
    dsimp only [l12]
    repeat' first
      | with_reducible assumption
      | with_reducible refine State.modField_same ?_ _ (fun _ => rfl) (fun _ => rfl)
  clear_value l12
  have hl13 : Keeps s₀ l13 := by
    dsimp only [l13]
    repeat' first
      | with_reducible assumption
      | with_reducible apply State.setClock_keeps
  clear_value l13
  have hl14 : Keeps s₀ l14 := by
    dsimp only [l14]
    repeat' first
      | with_reducible assumption
      | with_reducible apply dropStep_keeps
      | with_reducible refine Keeps.foldl (fun _ _ _ => ?_) ?_
  clear_value l14
  clear_value l15
  have hl16 : Keeps s₀ l16 := by
    dsimp only [l16]
    repeat' first
      | with_reducible assumption
      | with_reducible apply dropDescWork_keeps
      | with_reducible refine Keeps.foldl (fun _ _ _ => ?_) ?_
  clear_value l16
  have hl17 : Keeps s₀ l17 := by
    dsimp only [l17]
    repeat' first
      | with_reducible assumption
      | with_reducible apply stopMove_keeps
      | with_reducible refine Keeps.foldl (fun _ _ _ => ?_) ?_
  clear_value l17
  clear_value l18
  have hl19 : Keeps s₀ l19 := by
    dsimp only [l19]
    repeat' first
      | with_reducible assumption
      | with_reducible apply closeWindows_keeps
      | with_reducible apply Keeps.ite
  clear_value l19
  have hl20 : Keeps s₀ l20 := by
    dsimp only [l20]
    repeat' first
      | with_reducible assumption
      | with_reducible apply hdgAbort_keeps
      | with_reducible refine Keeps.foldl (fun _ _ _ => ?_) ?_
  clear_value l20
  have hl21 : Keeps s₀ l21 := by
    dsimp only [l21]
    repeat' first
      | with_reducible assumption
      | with_reducible apply tallyWrite_keeps
  clear_value l21
  clear_value l22
  repeat' first
    | with_reducible assumption
    | with_reducible apply ringsRun_keeps
    | with_reducible apply fwRun_keeps
    | with_reducible apply notice_keeps

theorem seedRegs_keeps {s₀ t : State} (h : Keeps s₀ t) : Keeps s₀ (seedRegs t) := by
  have hn {u : State} (hu : Keeps s₀ u) : Keeps s₀ (seedRegs.freshNonce u) :=
    Keeps.foldl (fun _ _ k => State.tickFree_keeps (State.setReg_keeps k _ _)) hu
  unfold seedRegs
  repeat' first
    | with_reducible assumption
    | with_reducible apply hn
    | with_reducible apply State.setReg_keeps
    | with_reducible apply Keeps.ite

/-- A table of fresh entries is in canonical form. -/
theorem freshEntries_wf (words : Nat) (hw : 0 < words) (g : Nat → Word) (n a : Nat) (b : Option Nat) (hb : ∀ q, b = some q → q < words * a) :
    storeWfFrom (fun _ => ({} : TabWord)) b (((List.range' a n).map fun e => (words * e, ({ data := g e } : TabWord))).filter
      fun x => decide (x.2.data ≠ 0)) = true := by
  induction n generalizing a b with
  | zero => rfl
  | succ n ih =>
    have hlt : words * a < words * (a + 1) := Nat.mul_lt_mul_of_pos_left (Nat.lt_succ_self a) hw
    rw [List.range'_succ, List.map_cons, List.filter_cons]
    split
    next hd =>
      simp only [storeWfFrom, Bool.and_eq_true, decide_eq_true_eq]
      refine ⟨⟨aboveBound b _ hb, fun he => ?_⟩, ih (a + 1) _ fun q hq => ?_⟩
      · have hz : g a = 0 := congrArg TabWord.data he
        simp [hz] at hd
      · obtain rfl := Option.some.inj hq
        exact hlt
    · exact ih (a + 1) b fun q hq => Nat.lt_trans (hb q hq) hlt

theorem freshTable_wf (m : Store TabWord) (quar : List Nat) (words entries wrap : Nat) (hw : 0 < words) (gen : Word → Nat) (put : Nat → Word) :
    storeWf (fun _ => ({} : TabWord)) (freshTable m quar words entries wrap gen put) = true := by
  unfold freshTable storeWf
  rw [List.range_eq_range']
  exact freshEntries_wf words hw _ entries 0 none nofun

theorem seedRegs.freshNonce_keeps {s₀ t : State} (h : Keeps s₀ t) : Keeps s₀ (seedRegs.freshNonce t) := by
  unfold seedRegs.freshNonce
  repeat' first
    | with_reducible assumption
    | with_reducible apply State.tickFree_keeps
    | with_reducible apply State.setReg_keeps
    | with_reducible refine Keeps.foldl (fun _ _ _ => ?_) ?_

theorem assertDevice_keeps {s₀ t : State} (h : Keeps s₀ t) (a1 a2 a3) : Keeps s₀ (assertDevice t a1 a2 a3) := by
  unfold assertDevice
  extract_lets gens dev jobs s1 s2 s3 s4 s5 s6 s7
  have h1 : Keeps s₀ s1 := by
    dsimp only [s1]
    split
    · exact h
    · exact Keeps.foldl (fun _ _ k => hdgAbort_keeps k _) h
  clear_value s1
  have h2 : Keeps s₀ s2 := ⟨h1.part, h1.pending, fun c =>
    let d := h1.canonical c
    { regs := storeErase_wf (fun o => !keptReg o) d.regs
      nm := rfl
      ctx := by
        show storeWf _ (if a3 = true then [] else _) = true
        split
        · rfl
        · exact freshTable_wf _ _ _ _ _ (by omega) _ _
      res := by
        show storeWf _ (if a3 = true then [] else _) = true
        split
        · rfl
        · exact freshTable_wf _ _ _ _ _ (by omega) _ _
      cores := fun n => by
        show ((Vector.replicate 16 ({} : CoreState))[n]?.getD {}).Canonical
        rw [Vector.getElem?_replicate]
        split <;> exact ⟨rfl, rfl, rfl⟩
      fields := fun n => by
        have hn := d.fields n
        unfold State.field at hn
        show ((s1.fields.map fun (x : FieldState) => ({ pages := x.pages, wear := x.wear, retired := x.retired, wsPaused := x.wsPaused } :
          FieldState))[n]?.getD {}).Canonical
        rw [Vector.getElem?_map]
        cases hx : s1.fields[n]? with
        | none => exact ⟨rfl, rfl⟩
        | some x =>
          rw [hx] at hn
          exact ⟨hn.pages, hn.wear⟩
      tally := d.tally
      talSupp := d.talSupp
      rings := d.rings
      ctxFw := d.ctxFw
      resDest := rfl }⟩
  clear_value s2
  have h3 : Keeps s₀ s3 := ⟨h2.part, h2.pending, fun c =>
    { h2.canonical c with
      rings := storeMap_wfFrom (fun (x : Nat × RingState) => (x.1, { epoch := x.2.epoch + 1 })) (fun _ => rfl)
        (fun e he => absurd (congrArg RingState.epoch he) (Nat.succ_ne_zero _)) (h2.canonical c).rings
      ctxFw := rfl }⟩
  clear_value s3
  have h4 : Keeps s₀ s4 := Keeps.foldl (fun _ _ k => State.setReg_keeps k _ _) h3
  clear_value s4
  have h5 : Keeps s₀ s5 := Keeps.foldl (fun _ _ k => by
    dsimp only
    split
    · exact State.setReg_keeps (State.setReg_keeps k _ _) _ _
    · exact State.setReg_keeps k _ _) h4
  clear_value s5
  have h6 : Keeps s₀ s6 := Keeps.foldl (fun _ _ k => State.raise_keeps k _ _) h5
  clear_value s6
  have h7 : Keeps s₀ s7 := Keeps.ite (State.setReg_keeps h6 _ _) h6
  clear_value s7
  exact seedRegs_keeps (State.setReg_keeps h7 _ _)

theorem quiesceCores_keeps {s₀ t : State} (h : Keeps s₀ t) (a1) : Keeps s₀ (quiesceCores t a1) := by
  unfold quiesceCores
  repeat' first
    | with_reducible assumption
    | with_reducible apply seqHalt_keeps
    | with_reducible refine Keeps.foldl (fun _ _ _ => ?_) ?_
    | with_reducible apply Keeps.ite

theorem finishCapture_keeps {s₀ t : State} (h : Keeps s₀ t) (a0 a1 a3) : Keeps s₀ (finishCapture a0 a1 t a3) := by
  induction a1 generalizing t a0 a3 with
  | zero => exact h
  | succ k ih =>
    unfold finishCapture
    split
    · exact h
    next c hc =>
    extract_lets r u
    have hr : Keeps s₀ r.2 := wfFinish_keeps h _
    have hu : Keeps s₀ u := assertField_keeps hr _ _ _
    clear_value u r
    split
    · exact assertDevice_keeps hr _ _ _
    split
    · exact hu
    extract_lets v
    have hv : Keeps s₀ v := by
      dsimp only [v]
      refine wfRun_keeps (wfStart_keeps ?_ _ _ _) _ _ _
      exact hu.same rfl rfl rfl rfl rfl rfl rfl rfl rfl rfl rfl rfl rfl
    clear_value v
    exact Keeps.ite (ih hv _ _) hv

theorem afterCapture_keeps {s₀ t : State} (h : Keeps s₀ t) (a0) : Keeps s₀ (afterCapture a0 t) := by
  unfold afterCapture
  repeat' first
    | with_reducible assumption
    | with_reducible apply finishCapture_keeps
    | with_reducible apply Keeps.ite

theorem triggerField_keeps {s₀ t : State} (h : Keeps s₀ t) (a1 a2 a3) : Keeps s₀ (triggerField t a1 a2 a3) := by
  unfold triggerField
  extract_lets l0
  have hl0 : Keeps s₀ l0 := by
    dsimp only [l0]
    repeat' first
      | with_reducible assumption
      | with_reducible apply quiesceCores_keeps
      | with_reducible apply setFldStatus_keeps
  clear_value l0
  repeat' first
    | with_reducible assumption
    | with_reducible apply tallyWrite_keeps
    | with_reducible apply afterCapture_keeps
    | with_reducible apply wfRun_keeps
    | with_reducible apply wfStart_keeps
    | with_reducible apply Keeps.ite
    | with_reducible apply Keeps.update

theorem startDevice_keeps {s₀ t : State} (h : Keeps s₀ t) (a1 a2) : Keeps s₀ (startDevice t a1 a2) := by
  unfold startDevice
  extract_lets l0 l1 l2 l3
  have hl0 : Keeps s₀ l0 := by
    dsimp only [l0]
    repeat' first
      | with_reducible assumption
      | with_reducible apply State.setReg_keeps
  clear_value l0
  have hl1 : Keeps s₀ l1 := by
    dsimp only [l1]
    repeat' first
      | with_reducible assumption
      | with_reducible apply wfFinish_keeps
      | with_reducible apply wfCut_keeps
      | with_reducible apply Keeps.ite
  clear_value l1
  have hl2 : Keeps s₀ l2 := by
    dsimp only [l2]
    repeat' first
      | with_reducible assumption
      | with_reducible apply Keeps.update
  clear_value l2
  have hl3 : Keeps s₀ l3 := by
    dsimp only [l3]
    repeat' first
      | with_reducible assumption
      | with_reducible apply quiesceCores_keeps
      | with_reducible refine Keeps.foldl (fun _ _ _ => ?_) ?_
  clear_value l3
  repeat' first
    | with_reducible assumption
    | with_reducible apply afterCapture_keeps
    | with_reducible apply wfRun_keeps
    | with_reducible apply wfStart_keeps

theorem triggerDevice_keeps {s₀ t : State} (h : Keeps s₀ t) (a1 a2) : Keeps s₀ (triggerDevice t a1 a2) := by
  unfold triggerDevice
  extract_lets l0
  clear_value l0
  repeat' first
    | with_reducible assumption
    | with_reducible apply tallyWrite_keeps
    | with_reducible apply startDevice_keeps
    | with_reducible apply Keeps.ite

theorem observationTimeout_keeps {s₀ t : State} (h : Keeps s₀ t) (a1 a2) : Keeps s₀ (observationTimeout t a1 a2) := by
  unfold observationTimeout
  repeat' first
    | with_reducible assumption
    | with_reducible apply offAccess_keeps
    | with_reducible apply afterCapture_keeps
    | with_reducible apply wfRun_keeps
    | dsimp only
    | with_reducible apply Keeps.ite
    | split

theorem windfallTimeLimit_keeps {s₀ t : State} (h : Keeps s₀ t) (a1) : Keeps s₀ (windfallTimeLimit t a1) := by
  unfold windfallTimeLimit
  repeat' first
    | with_reducible assumption
    | with_reducible apply finishCapture_keeps
    | with_reducible apply wfCut_keeps
    | split

theorem restartDue_keeps {s₀ t : State} (h : Keeps s₀ t) (a1) : Keeps s₀ (restartDue t a1) := by
  unfold restartDue
  extract_lets l0
  have hl0 : Keeps s₀ l0.2 := by
    dsimp only [l0]
    repeat' first
      | with_reducible assumption
      | with_reducible apply stamp_keeps
  clear_value l0
  repeat' first
    | with_reducible assumption
    | with_reducible apply fwCtxSet_keeps
    | with_reducible refine Keeps.foldl (fun _ _ _ => ?_) ?_
    | with_reducible apply Keeps.ite

theorem makeReady_keeps {s₀ t : State} (h : Keeps s₀ t) (a1) : Keeps s₀ (makeReady t a1) := by
  unfold makeReady
  extract_lets l0 l1 l2 l3
  clear_value l0
  have hl1 : Keeps s₀ l1 := by
    dsimp only [l1]
    repeat' first
      | with_reducible assumption
      | with_reducible apply State.setClock_keeps
  clear_value l1
  have hl2 : Keeps s₀ l2 := by
    dsimp only [l2]
    repeat' first
      | with_reducible assumption
      | with_reducible apply restartDue_keeps
      | with_reducible apply setFldStatus_keeps
  clear_value l2
  have hl3 : Keeps s₀ l3 := by
    dsimp only [l3]
    repeat' first
      | with_reducible assumption
      | with_reducible apply releaseHeld_keeps
  clear_value l3
  repeat' first
    | with_reducible assumption
    | with_reducible apply ringsRun_keeps
    | with_reducible apply fwRun_keeps
    | with_reducible apply pumpScratch_keeps
    | with_reducible refine Keeps.foldl (fun _ _ _ => ?_) ?_

theorem fieldReady_keeps {s₀ t : State} (h : Keeps s₀ t) (a1) : Keeps s₀ (fieldReady t a1) := by
  unfold fieldReady
  repeat' first
    | with_reducible assumption
    | with_reducible apply makeReady_keeps
    | with_reducible apply Keeps.ite

theorem fieldReadyTimeout_keeps {s₀ t : State} (h : Keeps s₀ t) (a1 a2) : Keeps s₀ (fieldReadyTimeout t a1 a2) := by
  unfold fieldReadyTimeout
  repeat' first
    | with_reducible assumption
    | with_reducible apply triggerDevice_keeps
    | with_reducible apply Keeps.ite

theorem foresterTrap_keeps {s₀ t : State} (h : Keeps s₀ t) (a1 a2 a3 a4 a5) : Keeps s₀ (foresterTrap t a1 a2 a3 a4 a5) := by
  unfold foresterTrap
  repeat' first
    | with_reducible assumption
    | with_reducible apply triggerField_keeps
    | with_reducible apply tallyAppend_keeps
    | with_reducible apply Keeps.ite

theorem surveyorTrap_keeps {s₀ t : State} (h : Keeps s₀ t) (a1 a2 a3 a4) : Keeps s₀ (surveyorTrap t a1 a2 a3 a4) := by
  unfold surveyorTrap
  repeat' first
    | with_reducible assumption
    | with_reducible apply triggerDevice_keeps
    | with_reducible apply tallyAppend_keeps
    | with_reducible apply Keeps.ite

theorem resetCtrl_keeps {s₀ t : State} (h : Keeps s₀ t) (a1 a2) : Keeps s₀ (resetCtrl t a1 a2) := by
  unfold resetCtrl
  repeat' first
    | with_reducible assumption
    | with_reducible apply triggerField_keeps
    | with_reducible apply triggerDevice_keeps
    | with_reducible refine Keeps.foldl (fun _ _ _ => ?_) ?_
    | with_reducible apply Keeps.ite
    | split

theorem fieldFence_keeps {s₀ t : State} (h : Keeps s₀ t) (a1 a2 a3) : Keeps s₀ (fieldFence t a1 a2 a3) := by
  unfold fieldFence
  extract_lets l0 l1 l2 l3 l4 l5
  clear_value l0
  clear_value l1
  have hl2 : Keeps s₀ l2 := by
    dsimp only [l2]
    repeat' first
      | with_reducible assumption
      | with_reducible apply finishSkq_keeps
      | with_reducible refine Keeps.foldl (fun _ _ _ => ?_) ?_
      | with_reducible apply Keeps.ite
  clear_value l2
  have hl3 : Keeps s₀ l3 := by
    dsimp only [l3]
    repeat' first
      | with_reducible assumption
      | with_reducible apply finishChan_keeps
      | with_reducible refine Keeps.foldl (fun _ _ _ => ?_) ?_
      | with_reducible apply Keeps.ite
      | split
  clear_value l3
  have hl4 : Keeps s₀ l4 := by
    dsimp only [l4]
    repeat' first
      | with_reducible assumption
      | with_reducible apply buckerEnd_keeps
      | with_reducible apply uncount_keeps
      | with_reducible apply dropRequests_keeps
      | with_reducible apply Keeps.ite
      | split
  clear_value l4
  have hl5 : Keeps s₀ l5 := by
    dsimp only [l5]
    repeat' first
      | with_reducible assumption
      | with_reducible apply State.raise_keeps
      | with_reducible refine State.modField_same ?_ _ (fun _ => rfl) (fun _ => rfl)
  clear_value l5
  repeat' first
    | with_reducible assumption
    | with_reducible apply State.raise_keeps
    | with_reducible apply fwRun_keeps
    | with_reducible apply State.bump_keeps
    | with_reducible apply Keeps.ite

theorem fieldFenceDone_keeps {s₀ t : State} (h : Keeps s₀ t) (a1) : Keeps s₀ (fieldFenceDone t a1) := by
  unfold fieldFenceDone
  repeat' first
    | with_reducible assumption
    | with_reducible apply State.lower_keeps
    | with_reducible refine State.modField_same ?_ _ (fun _ => rfl) (fun _ => rfl)
    | with_reducible apply Keeps.ite

theorem drainTimeout_keeps {s₀ t : State} (h : Keeps s₀ t) (a1 a2) : Keeps s₀ (drainTimeout t a1 a2) := by
  unfold drainTimeout
  extract_lets l0 l1 l2
  clear_value l0
  have hl1 : Keeps s₀ l1 := by
    dsimp only [l1]
    repeat' first
      | with_reducible assumption
      | with_reducible apply State.setFw_keeps
  clear_value l1
  have hl2 : Keeps s₀ l2 := by
    dsimp only [l2]
    repeat' first
      | with_reducible assumption
      | with_reducible apply State.bump_keeps
      | with_reducible apply State.raise_keeps
  clear_value l2
  repeat' first
    | with_reducible assumption
    | with_reducible apply fieldFence_keeps
    | with_reducible apply triggerField_keeps
    | with_reducible apply Keeps.ite

theorem standRecovered_keeps {s₀ t : State} (h : Keeps s₀ t) (a1 a2 a3 a4) : Keeps s₀ (standRecovered t a1 a2 a3 a4) := by
  unfold standRecovered
  extract_lets l0 l1 l2
  have hl0 : Keeps s₀ l0 := Keeps.foldl (fun _ _ hu => Keeps.ite (barCfgWrite_keeps hu _ _) hu) h
  clear_value l0
  have hl1 : Keeps s₀ l1 := Keeps.foldl (fun _ _ hu => Keeps.ite (setSemVal_keeps hu _ _) hu) hl0
  clear_value l1
  clear_value l2
  repeat' first
    | with_reducible assumption
    | with_reducible apply notice_keeps
    | with_reducible apply headSend_keeps
    | with_reducible apply Keeps.ite

theorem standRecovery_keeps {s₀ t : State} (h : Keeps s₀ t) (a1 a2 a3 a4 a5 a6) : Keeps s₀ (standRecovery t a1 a2 a3 a4 a5 a6) := by
  unfold standRecovery
  extract_lets l0 l1 l2 l3 l4
  clear_value l0
  have hl1 : Keeps s₀ l1 := by
    dsimp only [l1]
    repeat' first
      | with_reducible assumption
      | with_reducible apply resetCoreAlone_keeps
      | with_reducible refine Keeps.foldl (fun _ _ _ => ?_) ?_
  clear_value l1
  have hl2 : Keeps s₀ l2 := by
    dsimp only [l2]
    repeat' first
      | with_reducible assumption
      | with_reducible apply dropStep_keeps
      | with_reducible refine Keeps.foldl (fun _ _ _ => ?_) ?_
  clear_value l2
  have hl3 : Keeps s₀ l3 := by
    dsimp only [l3]
    repeat' first
      | with_reducible assumption
      | with_reducible apply stopMove_keeps
      | with_reducible refine Keeps.foldl (fun _ _ _ => ?_) ?_
      | with_reducible apply Keeps.ite
  clear_value l3
  have hl4 : Keeps s₀ l4 := by
    dsimp only [l4]
    repeat' first
      | with_reducible assumption
      | with_reducible apply closeWindows_keeps
      | with_reducible apply Keeps.ite
  clear_value l4
  repeat' first
    | with_reducible assumption
    | with_reducible apply standRecovered_keeps
    | with_reducible apply ringsRun_keeps
    | with_reducible apply fwRun_keeps
    | with_reducible apply Keeps.ite

end Sys2Proof.Machine
end

