-- ==== Sys2Proof/Laws/KeepsTrust.lean ====
section
/-! SUPPORT. What Machine/Trust.lean does keeps the part, the queue and the canonical form of every sparse memory. -/

namespace Sys2Proof.Machine

theorem maintApply_keeps {s₀ t : State} (h : Keeps s₀ t) (a1) : Keeps s₀ (maintApply t a1) := by
  unfold maintApply
  extract_lets l0 l1 l2 l3
  clear_value l1
  have hl2 : Keeps s₀ l2 := by
    dsimp only [l2]
    repeat' first
      | with_reducible assumption
      | with_reducible apply State.setReg_keeps
  clear_value l2
  have hl3 : Keeps s₀ l3 := by
    dsimp only [l3]
    repeat' first
      | with_reducible assumption
      | with_reducible apply State.clearTally_keeps
  clear_value l3
  repeat' first
    | with_reducible assumption
    | with_reducible apply tallyWrite_keeps
    | split
    | with_reducible apply Keeps.update

theorem maintRun_keeps {s₀ t : State} (h : Keeps s₀ t) (a1 a2) : Keeps s₀ (maintRun t a1 a2).2 := by
  unfold maintRun
  extract_lets l0 l1
  clear_value l0
  have hl1 : Keeps s₀ l1 := by
    dsimp only [l1]
    repeat' first
      | with_reducible assumption
      | with_reducible apply maintApply_keeps
      | with_reducible apply State.raise_keeps
      | with_reducible apply Keeps.ite
  clear_value l1
  repeat' first
    | with_reducible assumption
    | with_reducible apply seedRegs.freshNonce_keeps
theorem maintRun_keeps_eq {s₀ t r : State} {x0} (h : Keeps s₀ t) {a1 a2} (hr : maintRun t a1 a2 = (x0, r)) : Keeps s₀ r := by
  have := maintRun_keeps h a1 a2
  rw [hr] at this
  exact this

theorem maintHost_keeps {s₀ t : State} (h : Keeps s₀ t) : Keeps s₀ (maintHost t) := by
  unfold maintHost
  extract_lets l0
  have hl0 : Keeps s₀ l0.2 := by
    dsimp only [l0]
    repeat' first
      | with_reducible assumption
      | with_reducible apply maintRun_keeps
  clear_value l0
  repeat' first
    | with_reducible assumption
    | with_reducible apply State.setReg_keeps

theorem setPending_keeps {s₀ t : State} (h : Keeps s₀ t) : Keeps s₀ (setPending t) := by
  unfold setPending
  repeat' first
    | with_reducible assumption
    | with_reducible apply State.setReg_keeps

theorem fwLoad_keeps {s₀ t : State} (h : Keeps s₀ t) (a1 a2) : Keeps s₀ (fwLoad t a1 a2).2 := by
  unfold fwLoad
  extract_lets l0 l1
  clear_value l0
  clear_value l1
  repeat' first
    | with_reducible assumption
    | dsimp only
    | split
    | with_reducible apply Keeps.update
theorem fwLoad_keeps_eq {s₀ t r : State} {x0} (h : Keeps s₀ t) {a1 a2} (hr : fwLoad t a1 a2 = (x0, r)) : Keeps s₀ r := by
  have := fwLoad_keeps h a1 a2
  rw [hr] at this
  exact this

theorem fwActivate_keeps {s₀ t : State} (h : Keeps s₀ t) (a1) : Keeps s₀ (fwActivate t a1).2 := by
  unfold fwActivate
  extract_lets l0
  clear_value l0
  repeat' first
    | with_reducible assumption
    | with_reducible apply setPending_keeps
    | split
    | with_reducible apply Keeps.update
theorem fwActivate_keeps_eq {s₀ t r : State} {x0} (h : Keeps s₀ t) {a1} (hr : fwActivate t a1 = (x0, r)) : Keeps s₀ r := by
  have := fwActivate_keeps h a1
  rw [hr] at this
  exact this

theorem fwResult_keeps {s₀ : State} {r : (Nat × Nat) × State} (h : Keeps s₀ r.2) : Keeps s₀ (fwResult r) :=
  State.setReg_keeps h _ _

theorem hostLoad_keeps {s₀ t : State} (h : Keeps s₀ t) (a1 a2 a3) : Keeps s₀ (hostLoad t a1 a2 a3) := by
  unfold hostLoad
  extract_lets a n
  clear_value a
  refine Keeps.ite (fwResult_keeps h) ?_
  split
  · exact fwResult_keeps (omapFail_keeps h _)
  · exact Keeps.ite (fwResult_keeps h) (fwResult_keeps (fwLoad_keeps h _ _))

theorem hostActivate_keeps {s₀ t : State} (h : Keeps s₀ t) (a1) : Keeps s₀ (hostActivate t a1) := by
  unfold hostActivate
  repeat' first
    | with_reducible assumption
    | with_reducible apply fwActivate_keeps
    | with_reducible apply fwResult_keeps

theorem fwCtrlOther_keeps {s₀ t : State} (h : Keeps s₀ t) (a1) : Keeps s₀ (fwCtrlOther t a1) := by
  unfold fwCtrlOther
  repeat' first
    | with_reducible assumption
    | with_reducible apply fwResult_keeps
    | with_reducible apply Keeps.ite

theorem enterRecovery_keeps {s₀ t : State} (h : Keeps s₀ t) (a1) : Keeps s₀ (enterRecovery t a1) := by
  unfold enterRecovery
  extract_lets l0
  have hl0 : Keeps s₀ l0 := by
    dsimp only [l0]
    repeat' first
      | with_reducible assumption
      | with_reducible apply State.setReg_keeps
  clear_value l0
  repeat' first
    | with_reducible assumption
    | with_reducible apply State.setReg_keeps
    | with_reducible refine Keeps.foldl (fun _ _ _ => ?_) ?_
    | with_reducible apply Keeps.ite
    | with_reducible apply Keeps.update

theorem checkRoots_keeps {s₀ t : State} (h : Keeps s₀ t) : Keeps s₀ (checkRoots t) := by
  unfold checkRoots
  repeat' first
    | with_reducible assumption
    | with_reducible apply State.modRoot_keeps
    | with_reducible refine Keeps.foldl (fun _ _ _ => ?_) ?_
    | with_reducible apply Keeps.ite

theorem fillBudgets_keeps {s₀ t : State} (h : Keeps s₀ t) : Keeps s₀ (fillBudgets t) := by
  unfold fillBudgets
  extract_lets l0
  have hl0 : Keeps s₀ l0 := by
    dsimp only [l0]
    repeat' first
      | with_reducible assumption
      | with_reducible apply fwGive_keeps
      | with_reducible refine Keeps.foldl (fun _ _ _ => ?_) ?_
  clear_value l0
  repeat' first
    | with_reducible assumption
    | with_reducible apply fwGive_keeps

theorem setVersion_keeps {s₀ t : State} (h : Keeps s₀ t) (a1 a2) : Keeps s₀ (setVersion t a1 a2) := by
  unfold setVersion
  repeat' first
    | with_reducible assumption
    | with_reducible apply State.setReg_keeps
    | split

theorem reachReady_keeps {s₀ t : State} (h : Keeps s₀ t) (a1 a2) : Keeps s₀ (reachReady t a1 a2) := by
  unfold reachReady
  extract_lets l0 l1 l2 l3 l4 l5 l6 l7 l8 l9
  clear_value l0
  have hl1 : Keeps s₀ l1 := by
    dsimp only [l1]
    repeat' first
      | with_reducible assumption
      | with_reducible apply Keeps.update
  clear_value l1
  have hl2 : Keeps s₀ l2 := by
    dsimp only [l2]
    repeat' first
      | with_reducible assumption
      | with_reducible apply setVersion_keeps
  clear_value l2
  have hl3 : Keeps s₀ l3 := by
    dsimp only [l3]
    repeat' first
      | with_reducible assumption
      | with_reducible apply State.setReg_keeps
  clear_value l3
  have hl4 : Keeps s₀ l4 := by
    dsimp only [l4]
    repeat' first
      | with_reducible assumption
      | with_reducible apply tallyWrite_keeps
  clear_value l4
  clear_value l5
  have hl7 : Keeps s₀ l7 := by
    dsimp only [l7]
    repeat' first
      | with_reducible assumption
      | with_reducible apply tallyWrite_keeps
  clear_value l7
  have hl8 : Keeps s₀ l8 := by
    dsimp only [l8]
    repeat' first
      | with_reducible assumption
      | with_reducible apply fillBudgets_keeps
      | with_reducible apply checkRoots_keeps
  clear_value l8
  have hl9 : Keeps s₀ l9 := by
    dsimp only [l9]
    repeat' first
      | with_reducible assumption
      | with_reducible apply State.setReg_keeps
  clear_value l9
  repeat' first
    | with_reducible assumption
    | with_reducible apply noticeHeld_keeps
    | with_reducible apply Keeps.update

theorem deviceReady_keeps {s₀ t : State} (h : Keeps s₀ t) (a1) : Keeps s₀ (deviceReady t a1) := by
  unfold deviceReady
  extract_lets l0 l1
  clear_value l0
  clear_value l1
  repeat' first
    | with_reducible assumption
    | with_reducible apply enterRecovery_keeps
    | with_reducible apply reachReady_keeps
    | with_reducible apply startDevice_keeps
    | with_reducible apply Keeps.ite
    | split
    | with_reducible apply Keeps.update

theorem nextFuse_keeps {s₀ t : State} (h : Keeps s₀ t) (a1) : ∀ r, nextFuse t a1 = some r → Keeps s₀ r := by
  intro r hr
  unfold nextFuse at hr
  dsimp only at hr
  split at hr
  · cases hr
  · split at hr
    · obtain rfl := Option.some.inj hr
      exact State.setReg_keeps h _ _
    · obtain ⟨k, _, rfl⟩ := Option.map_eq_some_iff.mp hr
      exact State.setReg_keeps h _ _
theorem nextFuse_keeps_eq {s₀ t r : State} (h : Keeps s₀ t) {a1} (hr : nextFuse t a1 = some r) : Keeps s₀ r :=
  nextFuse_keeps h a1 _ hr

theorem fuseAdvance_keeps {s₀ t : State} (h : Keeps s₀ t) (a0) : Keeps s₀ (fuseAdvance a0 t) := by
  induction a0 generalizing t with
  | zero => exact h
  | succ n ih =>
    unfold fuseAdvance
    dsimp only
    have hb (p : Option (List Byte)) (u : State) (hu : p.bind (nextFuse t) = some u) : Keeps s₀ u := by
      cases p with
      | none => cases hu
      | some q => exact nextFuse_keeps h q u hu
    split
    next u hu =>
      refine ih ?_
      cases hr : t.runSrv.bind (nextFuse t) with
      | none => rw [hr] at hu; exact hb _ _ hu
      | some v =>
        rw [hr] at hu
        obtain rfl := Option.some.inj hu
        exact hb _ _ hr
    · exact h

theorem pkgDigest_keeps {s₀ t : State} (h : Keeps s₀ t) (a1) : Keeps s₀ (pkgDigest t a1).2 := by
  unfold pkgDigest
  repeat' first
    | with_reducible assumption
    | with_reducible apply State.tickFree_keeps
    | split
theorem pkgDigest_keeps_eq {s₀ t r : State} {x0} (h : Keeps s₀ t) {a1} (hr : pkgDigest t a1 = (x0, r)) : Keeps s₀ r := by
  have := pkgDigest_keeps h a1
  rw [hr] at this
  exact this

theorem attestReport_keeps {s₀ t : State} (h : Keeps s₀ t) (a1) : Keeps s₀ (attestReport t a1).2 := by
  unfold attestReport
  extract_lets l0 l1 l2 l3 l4 l5 l6
  clear_value l0
  clear_value l1
  clear_value l2
  have hl3 : Keeps s₀ l3.2 := by
    dsimp only [l3]
    repeat' first
      | with_reducible assumption
      | with_reducible apply pkgDigest_keeps
  clear_value l3
  have hl4 : Keeps s₀ l4.2 := by
    dsimp only [l4]
    repeat' first
      | with_reducible assumption
      | with_reducible apply pkgDigest_keeps
  clear_value l4
  have hl5 : Keeps s₀ l5.2 := by
    dsimp only [l5]
    repeat' first
      | with_reducible assumption
      | with_reducible apply stamp_keeps
  clear_value l5
  clear_value l6
  repeat' first
    | with_reducible assumption
    | with_reducible apply State.tickFree_keeps
theorem attestReport_keeps_eq {s₀ t r : State} {x0} (h : Keeps s₀ t) {a1} (hr : attestReport t a1 = (x0, r)) : Keeps s₀ r := by
  have := attestReport_keeps h a1
  rw [hr] at this
  exact this

theorem attestGo_keeps {s₀ t : State} (h : Keeps s₀ t) (a1) : Keeps s₀ (attestGo t a1) := by
  unfold attestGo
  extract_lets l0 l1 l2
  clear_value l0
  have hl1 : Keeps s₀ l1.2 := by
    dsimp only [l1]
    repeat' first
      | with_reducible assumption
      | with_reducible apply attestReport_keeps
  clear_value l1
  have hl2 : Keeps s₀ l2 := by
    dsimp only [l2]
    repeat' first
      | with_reducible assumption
      | with_reducible apply State.setReg_keeps
      | with_reducible refine Keeps.foldl (fun _ _ _ => ?_) ?_
  clear_value l2
  repeat' first
    | with_reducible assumption
    | with_reducible apply State.raise_keeps
    | with_reducible apply State.setReg_keeps
    | with_reducible apply Keeps.ite

theorem svcTake_keeps {s₀ t : State} (h : Keeps s₀ t) (a1) : Keeps s₀ (svcTake t a1) := by
  unfold svcTake
  repeat' first
    | with_reducible assumption
    | with_reducible apply State.raise_keeps
    | with_reducible apply State.setReg_keeps

theorem svcAnswer_keeps {s₀ t : State} (h : Keeps s₀ t) (a1 a2 a3 a4) : Keeps s₀ (svcAnswer t a1 a2 a3 a4) := by
  unfold svcAnswer
  repeat' first
    | with_reducible assumption
    | with_reducible apply State.bump_keeps
    | with_reducible apply State.emit_keeps

theorem svcNormal_keeps {s₀ t : State} (h : Keeps s₀ t) (a1) {f : State → State} (hf : Keeps s₀ (f t)) : Keeps s₀ (svcNormal t a1 f) := by
  unfold svcNormal
  exact Keeps.ite (svcAnswer_keeps h _ _ _ _) hf


theorem svcIdentify_keeps {s₀ t : State} (h : Keeps s₀ t) (a1) : Keeps s₀ (svcIdentify t a1) := by
  unfold svcIdentify
  repeat' first
    | with_reducible assumption
    | with_reducible apply svcAnswer_keeps
    | with_reducible apply svcTake_keeps

theorem svcTally_keeps {s₀ t : State} (h : Keeps s₀ t) (a1 a2 a3) : Keeps s₀ (svcTally t a1 a2 a3) := by
  unfold svcTally
  extract_lets l0 l1 l2
  have hl0 : Keeps s₀ l0 := by
    dsimp only [l0]
    repeat' first
      | with_reducible assumption
      | with_reducible apply svcTake_keeps
  clear_value l0
  clear_value l1
  have hl2 : Keeps s₀ l2 := by
    dsimp only [l2]
    repeat' first
      | with_reducible assumption
      | with_reducible apply State.raise_keeps
      | with_reducible apply Keeps.ite
  clear_value l2
  repeat' first
    | with_reducible assumption
    | with_reducible apply svcAnswer_keeps
    | with_reducible apply Keeps.ite

theorem svcWindfall_keeps {s₀ t : State} (h : Keeps s₀ t) (a1 a2) : Keeps s₀ (svcWindfall t a1 a2) := by
  unfold svcWindfall
  extract_lets l0
  clear_value l0
  repeat' first
    | with_reducible assumption
    | with_reducible apply svcAnswer_keeps
    | with_reducible apply svcTake_keeps

theorem svcAttest_keeps {s₀ t : State} (h : Keeps s₀ t) (a1 a2 a3) : Keeps s₀ (svcAttest t a1 a2 a3) := by
  unfold svcAttest
  repeat' first
    | with_reducible assumption
    | with_reducible apply svcNormal_keeps
    | with_reducible apply svcTake_keeps
    | with_reducible apply svcAnswer_keeps
    | with_reducible apply attestReport_keeps
    | with_reducible apply Keeps.ite

theorem svcCert_keeps {s₀ t : State} (h : Keeps s₀ t) (a1) : Keeps s₀ (svcCert t a1) := by
  unfold svcCert
  extract_lets l0
  clear_value l0
  repeat' first
    | with_reducible assumption
    | with_reducible apply svcAnswer_keeps
    | with_reducible apply svcTake_keeps

theorem svcLoad_keeps {s₀ t : State} (h : Keeps s₀ t) (a1 a2 a3) : Keeps s₀ (svcLoad t a1 a2 a3) := by
  unfold svcLoad
  extract_lets l0
  have hl0 : Keeps s₀ l0.2 := by
    dsimp only [l0]
    repeat' first
      | with_reducible assumption
      | with_reducible apply fwLoad_keeps
      | with_reducible apply svcTake_keeps
  clear_value l0
  repeat' first
    | with_reducible assumption
    | with_reducible apply svcAnswer_keeps

theorem svcActivate_keeps {s₀ t : State} (h : Keeps s₀ t) (a1 a2) : Keeps s₀ (svcActivate t a1 a2) := by
  unfold svcActivate
  extract_lets l0
  have hl0 : Keeps s₀ l0.2 := by
    dsimp only [l0]
    repeat' first
      | with_reducible assumption
      | with_reducible apply fwActivate_keeps
      | with_reducible apply svcTake_keeps
  clear_value l0
  repeat' first
    | with_reducible assumption
    | with_reducible apply svcAnswer_keeps

theorem svcImage_keeps {s₀ t : State} (h : Keeps s₀ t) (a1 a2 a3) : Keeps s₀ (svcImage t a1 a2 a3) := by
  unfold svcImage
  repeat' first
    | with_reducible assumption
    | with_reducible apply svcNormal_keeps
    | with_reducible apply svcTake_keeps
    | with_reducible apply fwRun_keeps
    | with_reducible apply loadRequest_keeps

theorem svcMaint_keeps {s₀ t : State} (h : Keeps s₀ t) (a1 a2) : Keeps s₀ (svcMaint t a1 a2) := by
  unfold svcMaint
  extract_lets l0
  have hl0 : Keeps s₀ l0.2 := by
    dsimp only [l0]
    repeat' first
      | with_reducible assumption
      | with_reducible apply maintRun_keeps
      | with_reducible apply svcTake_keeps
  clear_value l0
  repeat' first
    | with_reducible assumption
    | with_reducible apply svcAnswer_keeps

theorem svcReset_keeps {s₀ t : State} (h : Keeps s₀ t) (a1 a2 a3) : Keeps s₀ (svcReset t a1 a2 a3) := by
  unfold svcReset
  extract_lets l0 l1 l2
  have hl0 : Keeps s₀ l0 := by
    dsimp only [l0]
    repeat' first
      | with_reducible assumption
      | with_reducible apply svcAnswer_keeps
      | with_reducible apply svcTake_keeps
  clear_value l0
  clear_value l1
  have hl2 : Keeps s₀ l2 := by
    dsimp only [l2]
    repeat' first
      | with_reducible assumption
      | with_reducible apply Keeps.ite
      | with_reducible apply Keeps.update
  clear_value l2
  repeat' first
    | with_reducible assumption
    | with_reducible apply startDevice_keeps
    | with_reducible apply State.setReg_keeps
    | with_reducible apply triggerDevice_keeps
    | with_reducible apply Keeps.ite

theorem svcReserved_keeps {s₀ t : State} (h : Keeps s₀ t) (a1 a2) : Keeps s₀ (svcReserved t a1 a2) := by
  unfold svcReserved
  repeat' first
    | with_reducible assumption
    | with_reducible apply svcAnswer_keeps
    | with_reducible apply svcTake_keeps

theorem maintCommand_keeps {s₀ t : State} (h : Keeps s₀ t) (a1 a2) : Keeps s₀ (maintCommand t a1 a2) := by
  unfold maintCommand
  repeat' first
    | with_reducible assumption
    | with_reducible apply maintHost_keeps
    | with_reducible apply svcMaint_keeps
    | with_reducible apply Keeps.ite
    | split

end Sys2Proof.Machine
end

