-- ==== Sys2Proof/Laws/KeepsPower.lean ====
section
/-! SUPPORT. What Machine/Power.lean does keeps the part, the queue and the canonical form of every sparse memory. -/

namespace Sys2Proof.Machine

theorem pwrFlag_keeps {s₀ t : State} (h : Keeps s₀ t) (a1) : Keeps s₀ (pwrFlag t a1) := by
  unfold pwrFlag
  repeat' first
    | with_reducible assumption
    | with_reducible apply State.raise_keeps

theorem opApply_keeps {s₀ t : State} (h : Keeps s₀ t) (a1) : Keeps s₀ (opApply t a1) := by
  unfold opApply
  extract_lets l0 l1 l2
  clear_value l0
  clear_value l1
  have hl2 : Keeps s₀ l2 := by
    dsimp only [l2]
    repeat' first
      | with_reducible assumption
      | with_reducible apply State.bump_keeps
      | with_reducible apply Keeps.ite
  clear_value l2
  repeat' first
    | with_reducible assumption
    | with_reducible apply State.setReg_keeps

theorem opRequest_keeps {s₀ t : State} (h : Keeps s₀ t) (a1 a2) : Keeps s₀ (opRequest t a1 a2) := by
  unfold opRequest
  extract_lets l0
  have hl0 : Keeps s₀ l0 := by
    dsimp only [l0]
    repeat' first
      | with_reducible assumption
      | with_reducible apply State.setReg_keeps
  clear_value l0
  repeat' first
    | with_reducible assumption
    | with_reducible apply opApply_keeps
    | with_reducible apply Keeps.ite

theorem coreOpWrite_keeps {s₀ t : State} (h : Keeps s₀ t) (a1 a2 a3) : Keeps s₀ (coreOpWrite t a1 a2 a3) := by
  unfold coreOpWrite
  repeat' first
    | with_reducible assumption
    | with_reducible apply pwrFlag_keeps
    | with_reducible apply opRequest_keeps
    | with_reducible apply Keeps.ite

theorem coreOpApply_keeps {s₀ t : State} (h : Keeps s₀ t) (a1) : Keeps s₀ (coreOpApply t a1) := by
  unfold coreOpApply
  repeat' first
    | with_reducible assumption
    | with_reducible apply opApply_keeps
    | with_reducible apply Keeps.ite

theorem opDeferExpiry_keeps {s₀ t : State} (h : Keeps s₀ t) (a1) : Keeps s₀ (opDeferExpiry t a1) := by
  unfold opDeferExpiry
  repeat' first
    | with_reducible assumption
    | with_reducible apply opApply_keeps
    | with_reducible apply Keeps.ite

theorem lowerAll_keeps {s₀ t : State} (h : Keeps s₀ t) : Keeps s₀ (lowerAll t) := by
  unfold lowerAll
  repeat' first
    | with_reducible assumption
    | with_reducible apply opRequest_keeps
    | with_reducible refine Keeps.foldl (fun _ _ _ => ?_) ?_
    | with_reducible apply Keeps.ite

theorem raiseAll_keeps {s₀ t : State} (h : Keeps s₀ t) : Keeps s₀ (raiseAll t) := by
  unfold raiseAll
  repeat' first
    | with_reducible assumption
    | with_reducible apply opRequest_keeps
    | with_reducible refine Keeps.foldl (fun _ _ _ => ?_) ?_
    | with_reducible apply Keeps.ite

theorem startPoint_keeps {s₀ t : State} (h : Keeps s₀ t) (a1) : Keeps s₀ (startPoint t a1) := by
  unfold startPoint
  extract_lets l0 l1 l2
  clear_value l0
  clear_value l1
  clear_value l2
  repeat' first
    | with_reducible assumption
    | with_reducible apply opRequest_keeps
    | with_reducible refine Keeps.foldl (fun _ _ _ => ?_) ?_
    | with_reducible apply Keeps.ite

theorem setDomState_keeps {s₀ t : State} (h : Keeps s₀ t) (a1 a2) : Keeps s₀ (setDomState t a1 a2) := by
  unfold setDomState
  repeat' first
    | with_reducible assumption
    | with_reducible apply State.setReg_keeps

theorem clearUnit_keeps {s₀ t : State} (h : Keeps s₀ t) (a1) : Keeps s₀ (clearUnit t a1) := by
  unfold clearUnit
  extract_lets n lo hi s1
  have h1 : Keeps s₀ s1 := State.eraseRegs_keeps h _
  clear_value s1
  refine State.modCore_keeps h1 _ fun c k => ?_
  split
  · exact ⟨k.spm, k.written, k.sht⟩
  · exact ⟨k.spm, k.written, rfl⟩

/-- A core whose memories are in canonical form where those of the state that the relation starts from are. -/
theorem State.setCore_of {s₀ t : State} (h : Keeps s₀ t) (n : Nat) {c : CoreState} (hc : s₀.Canonical → c.Canonical) :
    Keeps s₀ (t.setCore n c) :=
  ⟨h.part, h.pending, fun k => (State.setCore_keeps h n fun _ => hc k).canonical k⟩

theorem retainCore_keeps {s₀ t : State} (h : Keeps s₀ t) (a1) : Keeps s₀ (retainCore t a1) :=
  State.setCore_of (Keeps.foldl (fun _ _ hu => State.setReg_keeps hu _ _) (resetCore_keeps h _)) _ fun k =>
    let d := (h.canonical k).cores a1
    ⟨d.spm, d.written, rfl⟩

theorem restartField_keeps {s₀ t : State} (h : Keeps s₀ t) (a1) : Keeps s₀ (restartField t a1) := by
  unfold restartField
  extract_lets s1 s2 s3
  have h2 : Keeps s₀ s2 := eraseField_keeps (clearMovers_keeps h _) (fieldClears a1) _ _
  clear_value s2
  have h3 : Keeps s₀ s3 := State.setClock_keeps h2 _ _
  clear_value s3
  refine setFldStatus_keeps ?_ _ _
  exact State.modField_same h3 _ (fun _ => rfl) (fun _ => rfl)

theorem domEffect_keeps {s₀ t : State} (h : Keeps s₀ t) (a1 a2) : Keeps s₀ (domEffect t a1 a2) := by
  unfold domEffect
  extract_lets l0
  clear_value l0
  repeat' first
    | with_reducible assumption
    | with_reducible apply retainCore_keeps
    | with_reducible apply resetCore_keeps
    | with_reducible apply clearUnit_keeps
    | with_reducible apply fwRun_keeps
    | with_reducible apply restartField_keeps
    | with_reducible apply Keeps.ite

theorem domainSwitch_keeps {s₀ t : State} (h : Keeps s₀ t) (a1 a2 a3) : Keeps s₀ (domainSwitch t a1 a2 a3) := by
  unfold domainSwitch
  extract_lets l0 l1 l2 l3
  clear_value l0
  clear_value l1
  have hl2 : Keeps s₀ l2 := by
    dsimp only [l2]
    repeat' first
      | with_reducible assumption
      | with_reducible apply setDomState_keeps
      | with_reducible apply domEffect_keeps
      | with_reducible apply Keeps.ite
  clear_value l2
  clear_value l3
  repeat' first
    | with_reducible assumption
    | with_reducible apply pwrFlag_keeps
    | with_reducible apply State.setReg_keeps
    | with_reducible apply Keeps.ite

theorem domainSwitchDone_keeps {s₀ t : State} (h : Keeps s₀ t) (a1 a2) : Keeps s₀ (domainSwitchDone t a1 a2) := by
  unfold domainSwitchDone
  extract_lets l0 l1 l2
  clear_value l0
  have hl1 : Keeps s₀ l1 := by
    dsimp only [l1]
    repeat' first
      | with_reducible assumption
      | with_reducible apply setDomState_keeps
  clear_value l1
  clear_value l2
  repeat' first
    | with_reducible assumption
    | with_reducible apply ringsRun_keeps
    | with_reducible apply fwRun_keeps
    | with_reducible apply pumpScratch_keeps
    | with_reducible apply releaseHeld_keeps
    | with_reducible apply fifoRun_keeps
    | with_reducible apply startPoint_keeps
    | with_reducible apply makeReady_keeps
    | with_reducible apply portDown_keeps
    | with_reducible apply portTraining_keeps
    | with_reducible refine Keeps.foldl (fun _ _ _ => ?_) ?_
    | with_reducible apply Keeps.ite

theorem powerSetting_keeps {s₀ t : State} (h : Keeps s₀ t) (a1 a2) : Keeps s₀ (powerSetting t a1 a2) := by
  unfold powerSetting
  extract_lets l0 l1 l2 l3
  clear_value l0
  clear_value l1
  clear_value l2
  have hl3 : Keeps s₀ l3 := by
    dsimp only [l3]
    repeat' first
      | with_reducible assumption
      | with_reducible apply pwrFlag_keeps
      | with_reducible apply Keeps.ite
  clear_value l3
  repeat' first
    | with_reducible assumption
    | with_reducible apply startPoint_keeps
    | with_reducible apply State.setReg_keeps

theorem powerDecide_keeps {s₀ t : State} (h : Keeps s₀ t) (a1) : Keeps s₀ (powerDecide t a1) := by
  unfold powerDecide
  extract_lets l0 l1 l2 l3 l4 l5 l6 l7
  clear_value l0
  clear_value l1
  clear_value l2
  have hl3 : Keeps s₀ l3 := by
    dsimp only [l3]
    repeat' first
      | with_reducible assumption
      | with_reducible apply State.setReg_keeps
  clear_value l3
  have hl4 : Keeps s₀ l4 := by
    dsimp only [l4]
    repeat' first
      | with_reducible assumption
      | with_reducible apply pwrFlag_keeps
      | with_reducible apply Keeps.ite
  clear_value l4
  clear_value l5
  clear_value l6
  clear_value l7
  repeat' first
    | with_reducible assumption
    | with_reducible apply lowerAll_keeps
    | with_reducible apply raiseAll_keeps
    | with_reducible apply Keeps.ite
    | with_reducible apply Keeps.update

theorem powerSample_keeps {s₀ t : State} (h : Keeps s₀ t) (a1) : Keeps s₀ (powerSample t a1) := by
  unfold powerSample
  extract_lets l0 l1
  clear_value l0
  clear_value l1
  repeat' first
    | with_reducible assumption
    | with_reducible apply powerDecide_keeps
    | with_reducible apply Keeps.ite
    | with_reducible apply Keeps.update

theorem domsOff_keeps {s₀ t : State} (h : Keeps s₀ t) (a1) : Keeps s₀ (domsOff t a1) := by
  unfold domsOff
  extract_lets l0
  have hl0 : Keeps s₀ l0 := by
    dsimp only [l0]
    repeat' first
      | with_reducible assumption
      | with_reducible apply portDown_keeps
      | with_reducible refine Keeps.foldl (fun _ _ _ => ?_) ?_
      | with_reducible apply Keeps.ite
  clear_value l0
  repeat' first
    | with_reducible assumption
    | with_reducible apply clearUnit_keeps
    | with_reducible apply State.setReg_keeps
    | with_reducible refine Keeps.foldl (fun _ _ _ => ?_) ?_
    | with_reducible apply Keeps.ite

theorem idleEnter_keeps {s₀ t : State} (h : Keeps s₀ t) : Keeps s₀ (idleEnter t) := by
  unfold idleEnter
  repeat' first
    | with_reducible assumption
    | with_reducible apply pwrFlag_keeps
    | with_reducible apply fwRun_keeps
    | with_reducible apply State.setReg_keeps
    | with_reducible apply domsOff_keeps
    | with_reducible apply Keeps.ite

theorem idleWake_keeps {s₀ t : State} (h : Keeps s₀ t) (a1) : Keeps s₀ (idleWake t a1) := by
  unfold idleWake
  repeat' first
    | with_reducible assumption
    | with_reducible apply domainSwitch_keeps
    | with_reducible apply State.setReg_keeps
    | with_reducible refine Keeps.foldl (fun _ _ _ => ?_) ?_
    | with_reducible apply Keeps.ite

theorem standbyEnter_keeps {s₀ t : State} (h : Keeps s₀ t) : Keeps s₀ (standbyEnter t) := by
  unfold standbyEnter
  extract_lets s1
  have h1 : Keeps s₀ s1 := fwRun_keeps (domsOff_keeps h _)
  clear_value s1
  refine Keeps.ite (pwrFlag_keeps h _) ?_
  exact (State.clearNm_keeps h1).same rfl rfl rfl rfl rfl rfl rfl rfl rfl rfl rfl rfl rfl

theorem modeWrite_keeps {s₀ t : State} (h : Keeps s₀ t) (a1) : Keeps s₀ (modeWrite t a1) := by
  unfold modeWrite
  repeat' first
    | with_reducible assumption
    | with_reducible apply idleWake_keeps
    | with_reducible apply idleEnter_keeps
    | with_reducible apply standbyEnter_keeps
    | with_reducible apply Keeps.ite
    | split

theorem standbyExit_keeps {s₀ t : State} (h : Keeps s₀ t) (a1) : Keeps s₀ (standbyExit t a1) := by
  unfold standbyExit
  repeat' first
    | with_reducible assumption
    | with_reducible apply startDevice_keeps
    | with_reducible apply Keeps.ite

theorem setTemps_keeps {s₀ t : State} (h : Keeps s₀ t) (a1) : Keeps s₀ (setTemps t a1) := by
  unfold setTemps
  repeat' first
    | with_reducible assumption
    | with_reducible apply State.setReg_keeps
    | with_reducible refine Keeps.foldl (fun _ _ _ => ?_) ?_
    | with_reducible apply Keeps.ite

theorem throttleTick_keeps {s₀ t : State} (h : Keeps s₀ t) (a1) : Keeps s₀ (throttleTick t a1) := by
  unfold throttleTick
  extract_lets l0 l1 l2 l3
  have hl0 : Keeps s₀ l0 := by
    dsimp only [l0]
    repeat' first
      | with_reducible assumption
      | with_reducible apply setTemps_keeps
  clear_value l0
  have hl1 : Keeps s₀ l1 := by
    dsimp only [l1]
    repeat' first
      | with_reducible assumption
      | with_reducible apply lowerAll_keeps
      | with_reducible apply pwrFlag_keeps
  clear_value l1
  have hl2 : Keeps s₀ l2 := by
    dsimp only [l2]
    repeat' first
      | with_reducible assumption
      | with_reducible apply State.bump_keeps
  clear_value l2
  clear_value l3
  repeat' first
    | with_reducible assumption
    | with_reducible apply State.bump_keeps
    | with_reducible apply Keeps.ite
    | with_reducible apply Keeps.update

theorem throttleRaise_keeps {s₀ t : State} (h : Keeps s₀ t) (a1) : Keeps s₀ (throttleRaise t a1) := by
  unfold throttleRaise
  extract_lets l0 l1 l2 l3
  have hl0 : Keeps s₀ l0 := by
    dsimp only [l0]
    repeat' first
      | with_reducible assumption
      | with_reducible apply setTemps_keeps
  clear_value l0
  have hl1 : Keeps s₀ l1 := by
    dsimp only [l1]
    repeat' first
      | with_reducible assumption
      | with_reducible apply raiseAll_keeps
  clear_value l1
  clear_value l2
  clear_value l3
  repeat' first
    | with_reducible assumption
    | with_reducible apply Keeps.ite
    | with_reducible apply Keeps.update

theorem thermalCrit_keeps {s₀ t : State} (h : Keeps s₀ t) (a1) : Keeps s₀ (thermalCrit t a1) := by
  unfold thermalCrit
  extract_lets l0 l1
  have hl0 : Keeps s₀ l0 := by
    dsimp only [l0]
    repeat' first
      | with_reducible assumption
      | with_reducible apply setTemps_keeps
  clear_value l0
  clear_value l1
  repeat' first
    | with_reducible assumption
    | with_reducible apply pwrFlag_keeps
    | with_reducible apply Keeps.ite
    | with_reducible apply Keeps.update

theorem thermalCritEnd_keeps {s₀ t : State} (h : Keeps s₀ t) (a1) : Keeps s₀ (thermalCritEnd t a1) := by
  unfold thermalCritEnd
  extract_lets l0 l1
  have hl0 : Keeps s₀ l0 := by
    dsimp only [l0]
    repeat' first
      | with_reducible assumption
      | with_reducible apply setTemps_keeps
  clear_value l0
  clear_value l1
  repeat' first
    | with_reducible assumption
    | with_reducible apply fifoRun_keeps
    | with_reducible apply Keeps.ite
    | with_reducible apply Keeps.update

theorem thermalTrip_keeps {s₀ t : State} (h : Keeps s₀ t) (a1) : Keeps s₀ (thermalTrip t a1) := by
  unfold thermalTrip
  extract_lets l0 l1 l2 l3 l4
  have hl0 : Keeps s₀ l0 := by
    dsimp only [l0]
    repeat' first
      | with_reducible assumption
      | with_reducible apply setTemps_keeps
  clear_value l0
  clear_value l1
  have hl2 : Keeps s₀ l2 := by
    dsimp only [l2]
    repeat' first
      | with_reducible assumption
      | with_reducible apply domsOff_keeps
      | with_reducible apply State.emit_keeps
  clear_value l2
  have hl3 : Keeps s₀ l3 := by
    dsimp only [l3]
    repeat' first
      | with_reducible assumption
      | with_reducible apply tallyWrite_keeps
  clear_value l3
  clear_value l4
  repeat' first
    | with_reducible assumption
    | with_reducible apply Keeps.ite
    | with_reducible apply Keeps.update

theorem tripRecovery_keeps {s₀ t : State} (h : Keeps s₀ t) (a1 a2) : Keeps s₀ (tripRecovery t a1 a2) := by
  unfold tripRecovery
  extract_lets l0 l1
  have hl0 : Keeps s₀ l0 := by
    dsimp only [l0]
    repeat' first
      | with_reducible assumption
      | with_reducible apply setTemps_keeps
  clear_value l0
  clear_value l1
  repeat' first
    | with_reducible assumption
    | with_reducible apply startDevice_keeps
    | with_reducible apply Keeps.ite
    | with_reducible apply Keeps.update

theorem stackPause_keeps {s₀ t : State} (h : Keeps s₀ t) (a1 a2) : Keeps s₀ (stackPause t a1 a2) := by
  unfold stackPause
  repeat' first
    | with_reducible assumption
    | with_reducible apply pwrFlag_keeps
    | with_reducible apply wsPause_keeps
    | with_reducible apply State.setReg_keeps
    | with_reducible apply Keeps.ite

theorem stackResume_keeps {s₀ t : State} (h : Keeps s₀ t) (a1 a2) : Keeps s₀ (stackResume t a1 a2) := by
  unfold stackResume
  repeat' first
    | with_reducible assumption
    | with_reducible apply wsPause_keeps
    | with_reducible apply State.setReg_keeps
    | with_reducible apply Keeps.ite

theorem recordLoss_keeps {s₀ t : State} (h : Keeps s₀ t) (a1 a2) : Keeps s₀ (recordLoss t a1 a2) := by
  unfold recordLoss
  extract_lets l0 l1
  have hl0 : Keeps s₀ l0 := by
    dsimp only [l0]
    repeat' first
      | with_reducible assumption
      | with_reducible apply tallyWrite_keeps
  clear_value l0
  clear_value l1
  repeat' first
    | with_reducible assumption
    | with_reducible apply pwrFlag_keeps
    | with_reducible apply Keeps.update

theorem powerLoss_keeps {s₀ t : State} (h : Keeps s₀ t) (a1 a2) : Keeps s₀ (powerLoss t a1 a2) := by
  unfold powerLoss
  repeat' first
    | with_reducible assumption
    | with_reducible apply recordLoss_keeps
    | with_reducible apply Keeps.ite

theorem pwrgoodDeassert_keeps {s₀ t : State} (h : Keeps s₀ t) : Keeps s₀ (pwrgoodDeassert t) := by
  unfold pwrgoodDeassert
  extract_lets l0 l1
  have hl0 : Keeps s₀ l0 := by
    dsimp only [l0]
    repeat' first
      | with_reducible assumption
      | with_reducible apply recordLoss_keeps
      | with_reducible apply State.tickFree_keeps
      | with_reducible apply Keeps.ite
  clear_value l0
  clear_value l1
  repeat' first
    | with_reducible assumption
    | with_reducible apply Keeps.ite
    | with_reducible apply Keeps.update

theorem powerOn_keeps {s₀ t : State} (h : Keeps s₀ t) (a1 a2) : Keeps s₀ (powerOn t a1 a2) := by
  unfold powerOn
  extract_lets l0
  have hl0 : Keeps s₀ l0 := by
    dsimp only [l0]
    repeat' first
      | with_reducible assumption
      | with_reducible apply Keeps.update
  clear_value l0
  repeat' first
    | with_reducible assumption
    | with_reducible apply assertDevice_keeps
    | with_reducible apply Keeps.ite

end Sys2Proof.Machine
end

