-- ==== Sys2Proof/Laws/KeepsPartitions.lean ====
section
/-! SUPPORT. What Machine/Partitions.lean does keeps the part, the queue and the canonical form of every sparse memory. -/

namespace Sys2Proof.Machine

theorem partitionWrite_keeps {s₀ t : State} (h : Keeps s₀ t) (a1 a2 a3) : Keeps s₀ (partitionWrite t a1 a2 a3) := by
  unfold partitionWrite
  extract_lets l0 l1
  have hl0 : Keeps s₀ l0 := by
    dsimp only [l0]
    repeat' first
      | with_reducible assumption
      | with_reducible apply State.setReg_keeps
  clear_value l0
  repeat' first
    | with_reducible assumption
    | with_reducible apply State.raise_keeps
    | with_reducible refine State.modCore_same ?_ _ (fun _ => rfl) (fun _ => rfl) (fun _ => rfl)
    | with_reducible apply spmClearTiles_keeps
    | with_reducible apply Keeps.ite

theorem sweepStart_keeps {s₀ t : State} (h : Keeps s₀ t) (a1 a2) : Keeps s₀ (sweepStart t a1 a2) := by
  unfold sweepStart
  extract_lets l0 l1
  clear_value l0
  repeat' first
    | with_reducible assumption
    | with_reducible refine State.modCore_same ?_ _ (fun _ => rfl) (fun _ => rfl) (fun _ => rfl)
    | with_reducible apply spmClearTiles_keeps
    | with_reducible apply Keeps.ite

theorem sweepDone_keeps {s₀ t : State} (h : Keeps s₀ t) (a1) : Keeps s₀ (sweepDone t a1) := by
  unfold sweepDone
  repeat' first
    | with_reducible assumption
    | with_reducible apply State.raise_keeps
    | with_reducible refine State.modCore_same ?_ _ (fun _ => rfl) (fun _ => rfl) (fun _ => rfl)
    | with_reducible apply Keeps.ite

end Sys2Proof.Machine
end

