-- ==== Sys2Proof/Laws/KeepsRegAccess.lean ====
section
/-! SUPPORT. What Machine/RegAccess.lean does keeps the part, the queue and the canonical form of every sparse memory. -/

namespace Sys2Proof.Machine

theorem plainWrite_keeps {s₀ t : State} (h : Keeps s₀ t) (a1 a2) : Keeps s₀ (plainWrite t a1 a2) := by
  unfold plainWrite
  repeat' first
    | with_reducible assumption
    | with_reducible apply State.lower_keeps
    | with_reducible apply storeBits_keeps
    | split

theorem writeCoreReg_keeps {s₀ t : State} (h : Keeps s₀ t) (a1 a2 a3) : Keeps s₀ (writeCoreReg t a1 a2 a3) := by
  unfold writeCoreReg
  extract_lets l0 l1
  clear_value l0
  clear_value l1
  repeat' first
    | with_reducible assumption
    | with_reducible apply coreCtrl_keeps
    | with_reducible apply plainWrite_keeps
    | with_reducible apply coreReject_keeps
    | with_reducible apply sweepStart_keeps
    | with_reducible apply partitionWrite_keeps
    | with_reducible apply shtLatch_keeps
    | with_reducible apply shtCommit_keeps
    | with_reducible apply chanLanes_keeps
    | with_reducible apply tblLoad_keeps
    | with_reducible apply tblInvalidate_keeps
    | with_reducible apply Keeps.ite

theorem writeFieldReg_keeps {s₀ t : State} (h : Keeps s₀ t) (a1 a2 a3 a4) : Keeps s₀ (writeFieldReg t a1 a2 a3 a4) := by
  unfold writeFieldReg
  extract_lets l0
  clear_value l0
  repeat' first
    | with_reducible assumption
    | with_reducible apply triggerField_keeps
    | with_reducible apply State.lower_keeps
    | with_reducible apply coreReset_keeps
    | with_reducible apply fieldFence_keeps
    | with_reducible apply skidderAbort_keeps
    | with_reducible apply State.setReg_keeps
    | with_reducible apply chanPost_keeps
    | with_reducible apply buckerPost_keeps
    | with_reducible refine State.modField_same ?_ _ (fun _ => rfl) (fun _ => rfl)
    | with_reducible apply plainWrite_keeps
    | with_reducible apply pprRequest_keeps
    | with_reducible apply Keeps.ite

theorem writeHostReg_keeps {s₀ t : State} (h : Keeps s₀ t) (a1 a2 a3) : Keeps s₀ (writeHostReg t a1 a2 a3) := by
  unfold writeHostReg
  extract_lets l0 l1 l2 l3 l4
  clear_value l0
  clear_value l1
  clear_value l2
  have hl3 : Keeps s₀ l3 := by
    dsimp only [l3]
    repeat' first
      | with_reducible assumption
      | with_reducible apply plainWrite_keeps
  clear_value l3
  clear_value l4
  repeat' first
    | with_reducible assumption
    | with_reducible apply correlationArm_keeps
    | with_reducible apply State.setReg_keeps
    | with_reducible apply releaseErrHeld_keeps
    | with_reducible apply plainWrite_keeps
    | with_reducible apply baseWrite_keeps
    | with_reducible apply ringCfgWrite_keeps
    | with_reducible apply eqCfgWrite_keeps
    | with_reducible apply State.emit_keeps
    | with_reducible apply State.lower_keeps
    | with_reducible apply omapSync_keeps
    | with_reducible apply Keeps.ite
    | split

theorem writePortReg_keeps {s₀ t : State} (h : Keeps s₀ t) (a1 a2 a3) : Keeps s₀ (writePortReg t a1 a2 a3) := by
  unfold writePortReg
  extract_lets l0 l1
  clear_value l0
  clear_value l1
  repeat' first
    | with_reducible assumption
    | with_reducible apply State.raise_keeps
    | with_reducible apply ctxPort_keeps
    | with_reducible apply plainWrite_keeps
    | with_reducible apply resPort_keeps
    | with_reducible apply Keeps.ite

theorem writeHdgReg_keeps {s₀ t : State} (h : Keeps s₀ t) (a1 a2) : Keeps s₀ (writeHdgReg t a1 a2) := by
  unfold writeHdgReg
  repeat' first
    | with_reducible assumption
    | with_reducible apply hdgAbort_keeps
    | with_reducible apply hdgAbortClear_keeps
    | with_reducible apply hdgPost_keeps
    | with_reducible apply hdgTake_keeps
    | with_reducible apply hdgBarArrive_keeps
    | with_reducible apply barCfgWrite_keeps
    | with_reducible apply hdgSemWrite_keeps
    | with_reducible apply plainWrite_keeps
    | with_reducible apply Keeps.ite

theorem writeGlobalReg_keeps {s₀ t : State} (h : Keeps s₀ t) (a1 a2 a3) : Keeps s₀ (writeGlobalReg t a1 a2 a3) := by
  unfold writeGlobalReg
  repeat' first
    | with_reducible assumption
    | with_reducible apply resetCtrl_keeps
    | with_reducible apply attestGo_keeps
    | with_reducible apply hostLoad_keeps
    | with_reducible apply hostActivate_keeps
    | with_reducible apply fwCtrlOther_keeps
    | with_reducible apply powerSetting_keeps
    | with_reducible apply modeWrite_keeps
    | with_reducible apply domainSwitch_keeps
    | with_reducible apply coreOpWrite_keeps
    | with_reducible apply writeHostReg_keeps
    | with_reducible apply tallyLatch_keeps
    | with_reducible apply wfSelect_keeps
    | with_reducible apply maintHost_keeps
    | with_reducible apply quarClear_keeps
    | with_reducible apply spillWrite_keeps
    | with_reducible apply writePortReg_keeps
    | with_reducible apply winSync_keeps
    | with_reducible apply windowEntryWrite_keeps
    | with_reducible apply writeHdgReg_keeps
    | with_reducible apply fabCfgWrite_keeps
    | with_reducible apply fabRouteWrite_keeps
    | with_reducible apply retrainWrite_keeps
    | with_reducible apply plainWrite_keeps
    | with_reducible apply Keeps.ite

theorem writeReg_keeps {s₀ t : State} (h : Keeps s₀ t) (a1 a2 a3) : Keeps s₀ (writeReg t a1 a2 a3) := by
  unfold writeReg
  repeat' first
    | with_reducible assumption
    | with_reducible apply offAccess_keeps
    | with_reducible apply writeCoreReg_keeps
    | with_reducible apply writeFieldReg_keeps
    | with_reducible apply writeGlobalReg_keeps
    | with_reducible apply Keeps.ite
    | split

theorem registerWrite_keeps {s₀ t : State} (h : Keeps s₀ t) (a1 a2 a3 a4) : Keeps s₀ (registerWrite t a1 a2 a3 a4) := by
  unfold registerWrite
  repeat' first
    | with_reducible assumption
    | with_reducible apply writeReg_keeps
    | with_reducible apply narrowWrite_keeps
    | with_reducible apply Keeps.ite

theorem readAction_keeps {s₀ t : State} (h : Keeps s₀ t) (a1) : Keeps s₀ (readAction t a1) := by
  unfold readAction
  repeat' first
    | with_reducible assumption
    | with_reducible apply offAccess_keeps
    | with_reducible apply notifyRead_keeps
    | with_reducible apply timestampLatch_keeps
    | with_reducible apply State.setReg_keeps
    | with_reducible apply Keeps.ite
    | split

theorem readReg_keeps {s₀ t : State} (h : Keeps s₀ t) (a1) : Keeps s₀ (readReg t a1).2 := by
  unfold readReg
  extract_lets l0
  have hl0 : Keeps s₀ l0 := by
    dsimp only [l0]
    repeat' first
      | with_reducible assumption
      | with_reducible apply readAction_keeps
  clear_value l0
  repeat' first
    | with_reducible assumption
    | split
theorem readReg_keeps_eq {s₀ t r : State} {x0} (h : Keeps s₀ t) {a1} (hr : readReg t a1 = (x0, r)) : Keeps s₀ r := by
  have := readReg_keeps h a1
  rw [hr] at this
  exact this

/-- A timestamp as a register's word. -/
theorem stampWord_keeps {s₀ t : State} (h : Keeps s₀ t) (k : Nat) :
    Keeps s₀ ((let t := stamp t k; (BitVec.ofNat 32 t.1, t.2)) : Word × State).2 := stamp_keeps h k

theorem peekReg_keeps {s₀ t : State} (h : Keeps s₀ t) (a1) : Keeps s₀ (peekReg t a1).2 := by
  unfold peekReg
  split
  · exact stampWord_keeps h _
  · exact h
theorem peekReg_keeps_eq {s₀ t r : State} {x0} (h : Keeps s₀ t) {a1} (hr : peekReg t a1 = (x0, r)) : Keeps s₀ r := by
  have := peekReg_keeps h a1
  rw [hr] at this
  exact this

theorem narrowRead_keeps {s₀ t : State} (h : Keeps s₀ t) (a1 a2) : Keeps s₀ (narrowRead t a1 a2).2 := by
  unfold narrowRead
  extract_lets a b
  have ha : Keeps s₀ a.2 := peekReg_keeps h _
  clear_value a
  show Keeps s₀ b.2
  dsimp only [b]
  split
  · exact peekReg_keeps ha _
  · exact ha
theorem narrowRead_keeps_eq {s₀ t r : State} {x0} (h : Keeps s₀ t) {a1 a2} (hr : narrowRead t a1 a2 = (x0, r)) : Keeps s₀ r := by
  have := narrowRead_keeps h a1 a2
  rw [hr] at this
  exact this

theorem registerRead_keeps {s₀ t : State} (h : Keeps s₀ t) (a1 a2) : Keeps s₀ (registerRead t a1 a2) := by
  unfold registerRead
  extract_lets l0 l1 l2 l3 l4 l5
  have hl0 : Keeps s₀ l0.2 := by
    dsimp only [l0]
    repeat' first
      | with_reducible assumption
      | with_reducible apply readReg_keeps
  clear_value l0
  have hl1 : Keeps s₀ l1 := by
    dsimp only [l1]
    repeat' first
      | with_reducible assumption
  clear_value l1
  have hl2 : Keeps s₀ l2.2 := by
    dsimp only [l2]
    repeat' first
      | with_reducible assumption
      | with_reducible apply readReg_keeps
  clear_value l2
  have hl3 : Keeps s₀ l3 := by
    dsimp only [l3]
    repeat' first
      | with_reducible assumption
  clear_value l3
  have hl4 : Keeps s₀ l4.2 := by
    dsimp only [l4]
    repeat' first
      | with_reducible assumption
      | with_reducible apply narrowRead_keeps
  clear_value l4
  have hl5 : Keeps s₀ l5 := by
    dsimp only [l5]
    repeat' first
      | with_reducible assumption
  clear_value l5
  repeat' first
    | with_reducible assumption
    | with_reducible apply Keeps.ite
    | with_reducible apply Keeps.update

theorem resCommand_keeps {s₀ t : State} (h : Keeps s₀ t) (a1 a2 a3) : Keeps s₀ (resCommand t a1 a2 a3) := by
  unfold resCommand
  repeat' first
    | with_reducible assumption
    | with_reducible apply ringsRun_keeps
    | with_reducible apply fwRun_keeps
    | with_reducible apply resIssue_keeps
    | with_reducible apply Keeps.ite

end Sys2Proof.Machine
end

