-- ==== Sys2Proof/Laws/KeepsGuards.lean ====
section
/-! SUPPORT. What Machine/Guards.lean does keeps the part, the queue and the canonical form of every sparse memory. -/

namespace Sys2Proof.Machine

theorem settle_keeps {s₀ t : State} (h : Keeps s₀ t) (old : State) : Keeps s₀ (settle old t) :=
  Keeps.ite h (ringsRun_keeps (fwRun_keeps (linkNotices_keeps h old)))


end Sys2Proof.Machine
end

