-- ==== Sys2Proof/Laws/KeepsKernels.lean ====
section
/-! SUPPORT. What Machine/Kernels.lean does keeps the part, the queue and the canonical form of every sparse memory. -/

namespace Sys2Proof.Machine

theorem kernelBytes_keeps {s₀ t : State} (h : Keeps s₀ t) (a1 a2 a3) : Keeps s₀ (kernelBytes t a1 a2 a3).2 := by
  unfold kernelBytes
  repeat' first
    | with_reducible assumption
    | with_reducible apply wsReadNow_keeps
    | with_reducible apply nmRead_keeps
    | split
theorem kernelBytes_keeps_eq {s₀ t r : State} {x0} (h : Keeps s₀ t) {a1 a2 a3} (hr : kernelBytes t a1 a2 a3 = (x0, r)) : Keeps s₀ r := by
  have := kernelBytes_keeps h a1 a2 a3
  rw [hr] at this
  exact this

theorem kernelCopy_keeps {s₀ t : State} (h : Keeps s₀ t) (a1 a2 a3) : Keeps s₀ (kernelCopy t a1 a2 a3) := by
  unfold kernelCopy
  extract_lets l0 l1
  clear_value l0
  have hl1 : Keeps s₀ l1.2 := by
    dsimp only [l1]
    repeat' first
      | with_reducible assumption
      | with_reducible apply kernelBytes_keeps
  clear_value l1
  repeat' first
    | with_reducible assumption
    | with_reducible apply spmWrite_keeps
    | with_reducible apply Keeps.ite

theorem kernelSeed_keeps {s₀ t : State} (h : Keeps s₀ t) (a1 a2) : Keeps s₀ (kernelSeed t a1 a2) := by
  unfold kernelSeed
  extract_lets l0
  have hl0 : Keeps s₀ l0 := by
    dsimp only [l0]
    repeat' first
      | with_reducible assumption
      | with_reducible apply State.setReg_keeps
  clear_value l0
  repeat' first
    | with_reducible assumption
    | with_reducible apply State.setReg_keeps
    | with_reducible apply shtCommit_keeps
    | with_reducible refine Keeps.foldl (fun _ _ _ => ?_) ?_

theorem kernelLoad_keeps {s₀ t : State} (h : Keeps s₀ t) (a1 a2) : Keeps s₀ (kernelLoad t a1 a2) := by
  unfold kernelLoad
  extract_lets m s1 s2 s3 s4 s5 s6 s7
  have h1 : Keeps s₀ s1 := sweepDone_keeps (Keeps.foldl (fun _ _ hu => partitionWrite_keeps hu _ _ _) h) _
  clear_value s1
  have h2 : Keeps s₀ s2 := Keeps.foldl (fun _ _ hu => kernelCopy_keeps hu _ _ _) h1
  clear_value s2
  have h3 : Keeps s₀ s3 := Keeps.foldl (fun _ _ hu => kernelSeed_keeps hu _ _) h2
  clear_value s3
  have h4 : Keeps s₀ s4 := by
    refine Keeps.foldl (fun u _ hu => ?_) h3
    split
    next e _ =>
      cases hw : ensureTable u a1 a2.area e with
      | none => exact hu
      | some v => exact ensureTable_keeps_eq hu hw
    · exact hu
  clear_value s4
  have h5 : Keeps s₀ s5 := Keeps.foldl (fun _ _ hu => Keeps.ite (State.setReg_keeps hu _ _) hu) h4
  clear_value s5
  have h6 : Keeps s₀ s6 := State.setReg_keeps h5 _ _
  clear_value s6
  have h7 : Keeps s₀ s7 := State.setReg_keeps (State.setReg_keeps h6 _ _) _ _
  clear_value s7
  exact State.modCore_same h7 _ (fun _ => rfl) (fun _ => rfl) (fun _ => rfl)

theorem coreStart_keeps {s₀ t : State} (h : Keeps s₀ t) (a1 a2) : Keeps s₀ (coreStart t a1 a2) := by
  unfold coreStart
  repeat' first
    | with_reducible assumption
    | with_reducible apply seqStart_keeps
    | with_reducible apply kernelLoad_keeps
    | with_reducible apply Keeps.ite
    | split

end Sys2Proof.Machine
end

