-- ==== Sys2Proof/Laws/KeepsCommands.lean ====
section
/-! SUPPORT. Every meaning answers a next state that keeps the part, the queue and the canonical form of every sparse memory. -/

namespace Sys2Proof.Machine

theorem next_keeps {s t : State} (h : Keeps s t) : ∃ u, (.next t : Answer) = .next u ∧ Keeps s u := ⟨t, rfl, h⟩

theorem up_keeps {s : State} {f : State → State} (h : Keeps s (f s)) : ∃ t, up s f = .next t ∧ Keeps s t :=
  next_keeps (Keeps.ite (Keeps.refl s) h)

theorem upFw_keeps {s : State} {f : State → State} (h : Keeps s (f s)) : ∃ t, upFw s f = .next t ∧ Keeps s t :=
  next_keeps (Keeps.ite (Keeps.refl s) (settle_keeps h s))

theorem atCore_keeps {s : State} {n : Nat} {f : State → State} (h : Keeps s (f s)) : ∃ t, atCore s n f = .next t ∧ Keeps s t :=
  next_keeps (Keeps.ite (Keeps.refl s) (Keeps.ite h (offAccess_keeps (Keeps.refl s))))

theorem onCore_keeps {s : State} {n : Nat} {f : State → State} (h : Keeps s (f s)) : ∃ t, onCore s n f = .next t ∧ Keeps s t :=
  next_keeps (Keeps.ite h (Keeps.refl s))

theorem atField_keeps {s : State} {n : Nat} {f : State → State} (h : Keeps s (f s)) : ∃ t, atField s n f = .next t ∧ Keeps s t :=
  next_keeps (Keeps.ite (Keeps.refl s) (Keeps.ite h (offAccess_keeps (Keeps.refl s))))

theorem onField_keeps {s : State} {n : Nat} {f : State → State} (h : Keeps s (f s)) : ∃ t, onField s n f = .next t ∧ Keeps s t :=
  next_keeps (Keeps.ite (settle_keeps h s) (Keeps.refl s))

theorem atPort_keeps {s : State} {n : Nat} {f : State → State} (h : Keeps s (f s)) : ∃ t, atPort s n f = .next t ∧ Keeps s t :=
  next_keeps (Keeps.ite (Keeps.refl s) (settle_keeps h s))

theorem trainPort_keeps {s : State} {n : Nat} {f : State → State} (h : Keeps s (f s)) : ∃ t, trainPort s n f = .next t ∧ Keeps s t :=
  next_keeps (Keeps.ite (settle_keeps h s) (Keeps.refl s))

theorem replied_keeps {s : State} {f : State → State} (h : Keeps s (f s)) : ∃ t, replied s f = .next t ∧ Keeps s t :=
  next_keeps (Keeps.ite (Keeps.refl s) (settle_keeps h s))

/-! ### Core commands -/

theorem execBundleIssue_keeps (n : Nat) (stalls : List (List Nat)) (also : Bool) (s : State) : ∃ s', execBundleIssue n stalls also s = .next s' ∧ Keeps s s' :=
  onCore_keeps (by
    repeat' first
      | with_reducible exact Keeps.refl _
      | with_reducible apply bundleIssue_keeps)

theorem execHdgTimeout_keeps (n : Nat) (also : Bool) (s : State) : ∃ s', execHdgTimeout n also s = .next s' ∧ Keeps s s' :=
  onCore_keeps (by
    repeat' first
      | with_reducible exact Keeps.refl _
      | with_reducible apply hdgTimeout_keeps)

theorem execWatchdog_keeps (n : Nat) (also : Bool) (s : State) : ∃ s', execWatchdog n also s = .next s' ∧ Keeps s s' :=
  onCore_keeps (by
    repeat' first
      | with_reducible exact Keeps.refl _
      | with_reducible apply watchdog_keeps)

theorem execSequencerStopped_keeps (n : Nat) (s : State) : ∃ s', execSequencerStopped n s = .next s' ∧ Keeps s s' :=
  onCore_keeps (by
    repeat' first
      | with_reducible exact Keeps.refl _
      | with_reducible apply sequencerStopped_keeps)

theorem execStart_keeps (q : StartReq) (s : State) : ∃ s', execStart q s = .next s' ∧ Keeps s s' :=
  atCore_keeps (by
    repeat' first
      | with_reducible exact Keeps.refl _
      | with_reducible apply coreStart_keeps)

theorem execResume_keeps (n : Nat) (s : State) : ∃ s', execResume n s = .next s' ∧ Keeps s s' :=
  atCore_keeps (by
    repeat' first
      | with_reducible exact Keeps.refl _
      | with_reducible apply seqResume_keeps)

theorem execHalt_keeps (n : Nat) (also : Bool) (s : State) : ∃ s', execHalt n also s = .next s' ∧ Keeps s s' :=
  atCore_keeps (by
    repeat' first
      | with_reducible exact Keeps.refl _
      | with_reducible apply seqHalt_keeps)

theorem execTineRescale_keeps (n t : Nat) (s : State) : ∃ s', execTineRescale n t s = .next s' ∧ Keeps s s' :=
  onCore_keeps (by
    repeat' first
      | with_reducible exact Keeps.refl _
      | with_reducible apply scheduled_keeps
      | with_reducible apply tineRescale_keeps)

theorem execTineDrain_keeps (n t : Nat) (s : State) : ∃ s', execTineDrain n t s = .next s' ∧ Keeps s s' :=
  onCore_keeps (by
    repeat' first
      | with_reducible exact Keeps.refl _
      | with_reducible apply scheduled_keeps
      | with_reducible apply tineDrain_keeps)

theorem execAttendBlock_keeps (n wait : Nat) (s : State) : ∃ s', execAttendBlock n wait s = .next s' ∧ Keeps s s' :=
  onCore_keeps (by
    repeat' first
      | with_reducible exact Keeps.refl _
      | with_reducible apply attendBlock_keeps
      | with_reducible apply scheduled_keeps)

theorem execKvFetchBlock_keeps (n a : Nat) (s : State) : ∃ s', execKvFetchBlock n a s = .next s' ∧ Keeps s s' :=
  onCore_keeps (by
    repeat' first
      | with_reducible exact Keeps.refl _
      | with_reducible apply kvFetchBlock_keeps
      | with_reducible apply settle_keeps)

theorem execKvwriteDone_keeps (n e : Nat) (s : State) : ∃ s', execKvwriteDone n e s = .next s' ∧ Keeps s s' :=
  onCore_keeps (by
    repeat' first
      | with_reducible exact Keeps.refl _
      | with_reducible apply kvDone_keeps
      | with_reducible apply scheduled_keeps
      | with_reducible apply settle_keeps)

theorem execLaneBlockStart_keeps (n l : Nat) (s : State) : ∃ s', execLaneBlockStart n l s = .next s' ∧ Keeps s s' :=
  onCore_keeps (by
    repeat' first
      | with_reducible exact Keeps.refl _
      | with_reducible apply laneStart_keeps
      | with_reducible apply scheduled_keeps)

theorem execLaneBlockDone_keeps (n l : Nat) (s : State) : ∃ s', execLaneBlockDone n l s = .next s' ∧ Keeps s s' :=
  onCore_keeps (by
    repeat' first
      | with_reducible exact Keeps.refl _
      | with_reducible apply laneDone_keeps
      | with_reducible apply pumpCore_keeps)

theorem execTableLoadDone_keeps (n : Nat) (s : State) : ∃ s', execTableLoadDone n s = .next s' ∧ Keeps s s' :=
  onCore_keeps (by
    repeat' first
      | with_reducible exact Keeps.refl _
      | with_reducible apply scheduled_keeps
      | with_reducible apply tblLoadDone_keeps)

theorem execTableLoad_keeps (n slot gen : Nat) (s : State) : ∃ s', execTableLoad n slot gen s = .next s' ∧ Keeps s s' :=
  atCore_keeps (by
    repeat' first
      | with_reducible exact Keeps.refl _
      | with_reducible apply tblLoad_keeps)

theorem execInvalidate_keeps (n slot : Nat) (s : State) : ∃ s', execInvalidate n slot s = .next s' ∧ Keeps s s' :=
  atCore_keeps (by
    repeat' first
      | with_reducible exact Keeps.refl _
      | with_reducible apply tblInvalidate_keeps)

theorem execChanLanesWrite_keeps (n : Nat) (v : Word) (s : State) : ∃ s', execChanLanesWrite n v s = .next s' ∧ Keeps s s' :=
  atCore_keeps (by
    repeat' first
      | with_reducible exact Keeps.refl _
      | with_reducible apply chanLanes_keeps)

theorem execEncodeBlockDone_keeps (n : Nat) (s : State) : ∃ s', execEncodeBlockDone n s = .next s' ∧ Keeps s s' :=
  onCore_keeps (by
    repeat' first
      | with_reducible exact Keeps.refl _
      | with_reducible apply encodeBlockDone_keeps
      | with_reducible apply scheduled_keeps)

theorem execExpandDone_keeps (n : Nat) (s : State) : ∃ s', execExpandDone n s = .next s' ∧ Keeps s s' :=
  onCore_keeps (by
    repeat' first
      | with_reducible exact Keeps.refl _
      | with_reducible apply expandDone_keeps
      | with_reducible apply scheduled_keeps)

theorem execLatch_keeps (n : Nat) (s : State) : ∃ s', execLatch n s = .next s' ∧ Keeps s s' :=
  atCore_keeps (by
    repeat' first
      | with_reducible exact Keeps.refl _
      | with_reducible apply shtLatch_keeps)

theorem execCommit_keeps (n : Nat) (s : State) : ∃ s', execCommit n s = .next s' ∧ Keeps s s' :=
  atCore_keeps (by
    repeat' first
      | with_reducible exact Keeps.refl _
      | with_reducible apply shtCommit_keeps)

theorem execSweep_keeps (n : Nat) (v : Word) (s : State) : ∃ s', execSweep n v s = .next s' ∧ Keeps s s' :=
  atCore_keeps (by
    repeat' first
      | with_reducible exact Keeps.refl _
      | with_reducible apply sweepStart_keeps)

theorem execSweepDone_keeps (n : Nat) (s : State) : ∃ s', execSweepDone n s = .next s' ∧ Keeps s s' :=
  onCore_keeps (by
    repeat' first
      | with_reducible exact Keeps.refl _
      | with_reducible apply pumpScratch_keeps
      | with_reducible apply releaseHeld_keeps
      | with_reducible apply settle_keeps
      | with_reducible apply sweepDone_keeps)

theorem execPartitionWrite_keeps (n k : Nat) (v : Word) (s : State) : ∃ s', execPartitionWrite n k v s = .next s' ∧ Keeps s s' :=
  atCore_keeps (by
    repeat' first
      | with_reducible exact Keeps.refl _
      | with_reducible apply partitionWrite_keeps)

theorem execSpmCeWriteBack_keeps (n w : Nat) (s : State) : ∃ s', execSpmCeWriteBack n w s = .next s' ∧ Keeps s s' :=
  onCore_keeps (by
    repeat' first
      | with_reducible exact Keeps.refl _
      | with_reducible apply spmWriteBack_keeps)

theorem execForcedGrant_keeps (n cycles : Nat) (bubble : Bool) (s : State) : ∃ s', execForcedGrant n cycles bubble s = .next s' ∧ Keeps s s' :=
  onCore_keeps (by
    repeat' first
      | with_reducible exact Keeps.refl _
      | with_reducible apply countStall_keeps)

/-! ### Transfer commands -/

theorem execSkidderTransferComplete_keeps (n e : Nat) (s : State) : ∃ s', execSkidderTransferComplete n e s = .next s' ∧ Keeps s s' :=
  onField_keeps (by
    repeat' first
      | with_reducible exact Keeps.refl _
      | with_reducible apply skqComplete_keeps)

theorem execChannelPost_keeps (f k : Nat) (hi : Word) (s : State) : ∃ s', execChannelPost f k hi s = .next s' ∧ Keeps s s' :=
  atField_keeps (by
    repeat' first
      | with_reducible exact Keeps.refl _
      | with_reducible apply chanPost_keeps
      | with_reducible apply Keeps.ite)

theorem execChannelRecordStart_keeps (f k : Nat) (host : List (Byte × Bool)) (s : State) : ∃ s', execChannelRecordStart f k host s = .next s' ∧ Keeps s s' :=
  onField_keeps (by
    repeat' first
      | with_reducible exact Keeps.refl _
      | with_reducible apply chanStart_keeps)

theorem execChannelTransferComplete_keeps (f k : Nat) (s : State) : ∃ s', execChannelTransferComplete f k s = .next s' ∧ Keeps s s' :=
  onField_keeps (by
    repeat' first
      | with_reducible exact Keeps.refl _
      | with_reducible apply chanComplete_keeps)

theorem execTransferStall_keeps (f : Nat) (coreQ : Bool) (core num : Nat) (s : State) : ∃ s', execTransferStall f coreQ core num s = .next s' ∧ Keeps s s' :=
  onField_keeps (by
    repeat' first
      | with_reducible exact Keeps.refl _
      | with_reducible apply xferStall_keeps)

theorem execTransferResume_keeps (f : Nat) (coreQ : Bool) (core num : Nat) (s : State) : ∃ s', execTransferResume f coreQ core num s = .next s' ∧ Keeps s s' :=
  onField_keeps (by
    repeat' first
      | with_reducible exact Keeps.refl _
      | with_reducible apply transferResume_keeps)

theorem execSkidderAbort_keeps (f : Nat) (v : Word) (s : State) : ∃ s', execSkidderAbort f v s = .next s' ∧ Keeps s s' :=
  atField_keeps (by
    repeat' first
      | with_reducible exact Keeps.refl _
      | with_reducible apply settle_keeps
      | with_reducible apply skidderAbort_keeps)

theorem execMemoryReply_keeps (id : Nat) (status : ReplyStatus) (data : List (Byte × Bool)) (s : State) : ∃ s', execMemoryReply id status data s = .next s' ∧ Keeps s s' :=
  replied_keeps (by
    repeat' first
      | with_reducible exact Keeps.refl _
      | with_reducible apply memoryReply_keeps)

theorem execBudgetGrant_keeps (p cycles : Nat) (s : State) : ∃ s', execBudgetGrant p cycles s = .next s' ∧ Keeps s s' :=
  upFw_keeps (by
    repeat' first
      | with_reducible exact Keeps.refl _
      | with_reducible apply budgetGrant_keeps)

theorem execNmAccess_keeps (f x : Nat) (write : Bool) (data : List (Byte × Bool)) (len rf : Nat) (s : State) : ∃ s', execNmAccess f x write data len rf s = .next s' ∧ Keeps s s' :=
  upFw_keeps (by
    repeat' first
      | with_reducible exact Keeps.refl _
      | with_reducible apply nmRead_keeps
      | with_reducible apply nmWrite_keeps
      | with_reducible apply Keeps.ite)

theorem execNmCeWriteBack_keeps (g : Nat) (s : State) : ∃ s', execNmCeWriteBack g s = .next s' ∧ Keeps s s' :=
  up_keeps (by
    repeat' first
      | with_reducible exact Keeps.refl _
      | with_reducible apply nmWriteBack_keeps)

theorem execWsPageRead_keeps (f page : Nat) (errs : List (Option Nat)) (peer : Option Nat) (s : State) : ∃ s', execWsPageRead f page errs peer s = .next s' ∧ Keeps s s' :=
  replied_keeps (by
    repeat' first
      | with_reducible exact Keeps.refl _
      | with_reducible apply wsPageRead_keeps
      | with_reducible apply Keeps.ite)

theorem execOmapSync_keeps (v : Word) (s : State) : ∃ s', execOmapSync v s = .next s' ∧ Keeps s s' :=
  up_keeps (by
    repeat' first
      | with_reducible exact Keeps.refl _
      | with_reducible apply omapSync_keeps)

theorem execSpillPoolWrite_keeps (w : Nat) (v : Word) (s : State) : ∃ s', execSpillPoolWrite w v s = .next s' ∧ Keeps s s' :=
  up_keeps (by
    repeat' first
      | with_reducible exact Keeps.refl _
      | with_reducible apply spillWrite_keeps)

theorem execResRead_keeps (p e : Nat) (acc : PortAccess) (s : State) : ∃ s', execResRead p e acc s = .next s' ∧ Keeps s s' :=
  next_keeps (by
    repeat' first
      | with_reducible exact Keeps.refl _
      | with_reducible apply resCommand_keeps)

theorem execResAlloc_keeps (p e : Nat) (acc : PortAccess) (s : State) : ∃ s', execResAlloc p e acc s = .next s' ∧ Keeps s s' :=
  next_keeps (by
    repeat' first
      | with_reducible exact Keeps.refl _
      | with_reducible apply resCommand_keeps)

theorem execResPin_keeps (p gen e : Nat) (acc : PortAccess) (s : State) : ∃ s', execResPin p gen e acc s = .next s' ∧ Keeps s s' :=
  next_keeps (by
    repeat' first
      | with_reducible exact Keeps.refl _
      | with_reducible apply resCommand_keeps)

theorem execResUnpin_keeps (p gen e : Nat) (acc : PortAccess) (s : State) : ∃ s', execResUnpin p gen e acc s = .next s' ∧ Keeps s s' :=
  next_keeps (by
    repeat' first
      | with_reducible exact Keeps.refl _
      | with_reducible apply resCommand_keeps)

theorem execResMove_keeps (p gen : Nat) (down : Bool) (e : Nat) (acc : PortAccess) (s : State) : ∃ s', execResMove p gen down e acc s = .next s' ∧ Keeps s s' :=
  next_keeps (by
    repeat' first
      | with_reducible exact Keeps.refl _
      | with_reducible apply resCommand_keeps)

theorem execResMoveDone_keeps (p gen e : Nat) (acc : PortAccess) (s : State) : ∃ s', execResMoveDone p gen e acc s = .next s' ∧ Keeps s s' :=
  next_keeps (by
    repeat' first
      | with_reducible exact Keeps.refl _
      | with_reducible apply resCommand_keeps)

theorem execResMoveCancel_keeps (p gen e : Nat) (acc : PortAccess) (s : State) : ∃ s', execResMoveCancel p gen e acc s = .next s' ∧ Keeps s s' :=
  next_keeps (by
    repeat' first
      | with_reducible exact Keeps.refl _
      | with_reducible apply resCommand_keeps)

theorem execResRetire_keeps (p gen e : Nat) (acc : PortAccess) (s : State) : ∃ s', execResRetire p gen e acc s = .next s' ∧ Keeps s s' :=
  next_keeps (by
    repeat' first
      | with_reducible exact Keeps.refl _
      | with_reducible apply resCommand_keeps)

theorem execResRelease_keeps (p gen e : Nat) (acc : PortAccess) (s : State) : ∃ s', execResRelease p gen e acc s = .next s' ∧ Keeps s s' :=
  next_keeps (by
    repeat' first
      | with_reducible exact Keeps.refl _
      | with_reducible apply resCommand_keeps)

theorem execResForget_keeps (p gen e : Nat) (acc : PortAccess) (s : State) : ∃ s', execResForget p gen e acc s = .next s' ∧ Keeps s s' :=
  next_keeps (by
    repeat' first
      | with_reducible exact Keeps.refl _
      | with_reducible apply resCommand_keeps)

theorem execResReservedOp_keeps (p op e : Nat) (acc : PortAccess) (s : State) : ∃ s', execResReservedOp p op e acc s = .next s' ∧ Keeps s s' :=
  next_keeps (by
    repeat' first
      | with_reducible exact Keeps.refl _
      | with_reducible apply resCommand_keeps
      | with_reducible apply Keeps.ite)

theorem execSegmentProgram_keeps (r : Nat) (bs : List Byte) (bad : Bool) (fails : List (List Nat)) (s : State) : ∃ s', execSegmentProgram r bs bad fails s = .next s' ∧ Keeps s s' :=
  upFw_keeps (by
    repeat' first
      | with_reducible exact Keeps.refl _
      | with_reducible apply segmentProgram_keeps)

theorem execRepairSwitchover_keeps (r : Nat) (s : State) : ∃ s', execRepairSwitchover r s = .next s' ∧ Keeps s s' :=
  upFw_keeps (by
    repeat' first
      | with_reducible exact Keeps.refl _
      | with_reducible apply repairSwitchover_keeps)

theorem execExpertRequest_keeps (n r layer list count area : Nat) (sem : Word) (s : State) : ∃ s', execExpertRequest n r layer list count area sem s = .next s' ∧ Keeps s s' :=
  onField_keeps (by
    repeat' first
      | with_reducible exact Keeps.refl _
      | with_reducible apply expertRequest_keeps)

/-! ### Host commands -/

theorem execRingTailDoorbell_keeps (r off : Nat) (v : Word) (s : State) : ∃ s', execRingTailDoorbell r off v s = .next s' ∧ Keeps s s' :=
  upFw_keeps (by
    repeat' first
      | with_reducible exact Keeps.refl _
      | with_reducible apply ringTail_keeps)

theorem execEqHeadDoorbell_keeps (q off : Nat) (v : Word) (s : State) : ∃ s', execEqHeadDoorbell q off v s = .next s' ∧ Keeps s s' :=
  upFw_keeps (by
    repeat' first
      | with_reducible exact Keeps.refl _
      | with_reducible apply eqHead_keeps)

theorem execNarrowWriteDrop_keeps (s : State) : ∃ s', execNarrowWriteDrop s = .next s' ∧ Keeps s s' :=
  up_keeps (by
    repeat' first
      | with_reducible exact Keeps.refl _
      | with_reducible apply narrowWrite_keeps)

theorem execDescriptorRead_keeps (r : Nat) (bytes : List Byte) (env : DescEnv) (s : State) : ∃ s', execDescriptorRead r bytes env s = .next s' ∧ Keeps s s' :=
  upFw_keeps (by
    repeat' first
      | with_reducible exact Keeps.refl _
      | with_reducible apply descRead_keeps)

theorem execFenceComplete_keeps (r : Nat) (s : State) : ∃ s', execFenceComplete r s = .next s' ∧ Keeps s s' :=
  upFw_keeps (by
    repeat' first
      | with_reducible exact Keeps.refl _
      | with_reducible apply fenceComplete_keeps)

theorem execHoldoffExpiry_keeps (q : Nat) (s : State) : ∃ s', execHoldoffExpiry q s = .next s' ∧ Keeps s s' :=
  up_keeps (by
    repeat' first
      | with_reducible exact Keeps.refl _
      | with_reducible apply holdoffExpiry_keeps)

theorem execRingCfgWrite_keeps (r : Nat) (v : Word) (s : State) : ∃ s', execRingCfgWrite r v s = .next s' ∧ Keeps s s' :=
  up_keeps (by
    repeat' first
      | with_reducible exact Keeps.refl _
      | with_reducible apply ringCfgWrite_keeps)

theorem execEqCfgWrite_keeps (q : Nat) (v : Word) (s : State) : ∃ s', execEqCfgWrite q v s = .next s' ∧ Keeps s s' :=
  upFw_keeps (by
    repeat' first
      | with_reducible exact Keeps.refl _
      | with_reducible apply eqCfgWrite_keeps)

theorem execCorrelationArm_keeps (v : Word) (s : State) : ∃ s', execCorrelationArm v s = .next s' ∧ Keeps s s' :=
  up_keeps (by
    repeat' first
      | with_reducible exact Keeps.refl _
      | with_reducible apply correlationArm_keeps)

theorem execTimestampLatch_keeps (k : Nat) (s : State) : ∃ s', execTimestampLatch k s = .next s' ∧ Keeps s s' :=
  up_keeps (by
    repeat' first
      | with_reducible exact Keeps.refl _
      | with_reducible apply timestampLatch_keeps)

theorem execFunctionLevelReset_keeps (s : State) : ∃ s', execFunctionLevelReset s = .next s' ∧ Keeps s s' :=
  upFw_keeps (by
    repeat' first
      | with_reducible exact Keeps.refl _
      | with_reducible apply functionLevelReset_keeps)

theorem execStepStart_keeps (plan : StepPlan) (s : State) : ∃ s', execStepStart plan s = .next s' ∧ Keeps s s' :=
  upFw_keeps (by
    repeat' first
      | with_reducible exact Keeps.refl _
      | with_reducible apply stepStart_keeps)

theorem execStepCommit_keeps (id : Nat) (outs : List MemberOut) (s : State) : ∃ s', execStepCommit id outs s = .next s' ∧ Keeps s s' :=
  upFw_keeps (by
    repeat' first
      | with_reducible exact Keeps.refl _
      | with_reducible apply stepCommit_keeps)

theorem execCtxPortRead_keeps (p e : Nat) (acc : PortAccess) (s : State) : ∃ s', execCtxPortRead p e acc s = .next s' ∧ Keeps s s' :=
  up_keeps (by
    repeat' first
      | with_reducible exact Keeps.refl _
      | with_reducible apply ctxPort_keeps
      | with_reducible apply Keeps.ite)

theorem execCtxPortWrite_keeps (p gen e : Nat) (acc : PortAccess) (s : State) : ∃ s', execCtxPortWrite p gen e acc s = .next s' ∧ Keeps s s' :=
  up_keeps (by
    repeat' first
      | with_reducible exact Keeps.refl _
      | with_reducible apply ctxPort_keeps
      | with_reducible apply Keeps.ite)

theorem execTake_keeps (p : Nat) (acc : PortAccess) (s : State) : ∃ s', execTake p acc s = .next s' ∧ Keeps s s' :=
  up_keeps (by
    repeat' first
      | with_reducible exact Keeps.refl _
      | with_reducible apply ctxPort_keeps
      | with_reducible apply Keeps.ite)

theorem execGive_keeps (p : Nat) (acc : PortAccess) (s : State) : ∃ s', execGive p acc s = .next s' ∧ Keeps s s' :=
  up_keeps (by
    repeat' first
      | with_reducible exact Keeps.refl _
      | with_reducible apply ctxPort_keeps
      | with_reducible apply Keeps.ite)

theorem execCtxReservedOp_keeps (p op gen e : Nat) (acc : PortAccess) (s : State) : ∃ s', execCtxReservedOp p op gen e acc s = .next s' ∧ Keeps s s' :=
  up_keeps (by
    repeat' first
      | with_reducible exact Keeps.refl _
      | with_reducible apply ctxPort_keeps
      | with_reducible apply Keeps.ite)

theorem execDrainTimeout_keeps (e : Nat) (stuck : List (Nat × Nat)) (s : State) : ∃ s', execDrainTimeout e stuck s = .next s' ∧ Keeps s s' :=
  upFw_keeps (by
    repeat' first
      | with_reducible exact Keeps.refl _
      | with_reducible apply drainTimeout_keeps)

theorem execTeardownDrained_keeps (e : Nat) (s : State) : ∃ s', execTeardownDrained e s = .next s' ∧ Keeps s s' :=
  upFw_keeps (by
    repeat' first
      | with_reducible exact Keeps.refl _
      | with_reducible apply teardownDrained_keeps)

theorem execTrimApply_keeps (e : Nat) (s : State) : ∃ s', execTrimApply e s = .next s' ∧ Keeps s s' :=
  upFw_keeps (by
    repeat' first
      | with_reducible exact Keeps.refl _
      | with_reducible apply trimApply_keeps)

/-! ### Fabric commands -/

theorem execSemPostArrive_keeps (f gen i cnt : Nat) (s : State) : ∃ s', execSemPostArrive f gen i cnt s = .next s' ∧ Keeps s s' :=
  up_keeps (by
    repeat' first
      | with_reducible exact Keeps.refl _
      | with_reducible apply semPostArrive_keeps)

theorem execHdgPost_keeps (v : Word) (s : State) : ∃ s', execHdgPost v s = .next s' ∧ Keeps s s' :=
  up_keeps (by
    repeat' first
      | with_reducible exact Keeps.refl _
      | with_reducible apply hdgPost_keeps)

theorem execHdgTake_keeps (v : Word) (s : State) : ∃ s', execHdgTake v s = .next s' ∧ Keeps s s' :=
  up_keeps (by
    repeat' first
      | with_reducible exact Keeps.refl _
      | with_reducible apply hdgTake_keeps)

theorem execHdgSemWrite_keeps (i : Nat) (v : Word) (s : State) : ∃ s', execHdgSemWrite i v s = .next s' ∧ Keeps s s' :=
  up_keeps (by
    repeat' first
      | with_reducible exact Keeps.refl _
      | with_reducible apply hdgSemWrite_keeps
      | with_reducible apply Keeps.ite)

theorem execNotifyRead_keeps (f : Nat) (s : State) : ∃ s', execNotifyRead f s = .next s' ∧ Keeps s s' :=
  up_keeps (Keeps.ite ((notifyRead_keeps (Keeps.refl s) f).same rfl rfl rfl rfl rfl rfl rfl rfl rfl rfl rfl rfl rfl) (Keeps.refl s))

theorem execBarrierArrival_keeps (f gen g sem cnt : Nat) (s : State) : ∃ s', execBarrierArrival f gen g sem cnt s = .next s' ∧ Keeps s s' :=
  up_keeps (by
    repeat' first
      | with_reducible exact Keeps.refl _
      | with_reducible apply barrierArrival_keeps)

theorem execHdgBarArrive_keeps (v : Word) (s : State) : ∃ s', execHdgBarArrive v s = .next s' ∧ Keeps s s' :=
  up_keeps (by
    repeat' first
      | with_reducible exact Keeps.refl _
      | with_reducible apply hdgBarArrive_keeps)

theorem execBarrierCfgWrite_keeps (g : Nat) (v : Word) (s : State) : ∃ s', execBarrierCfgWrite g v s = .next s' ∧ Keeps s s' :=
  up_keeps (by
    repeat' first
      | with_reducible exact Keeps.refl _
      | with_reducible apply barCfgWrite_keeps
      | with_reducible apply Keeps.ite)

theorem execHdgAbort_keeps (v : Word) (s : State) : ∃ s', execHdgAbort v s = .next s' ∧ Keeps s s' :=
  up_keeps (by
    repeat' first
      | with_reducible exact Keeps.refl _
      | with_reducible apply hdgAbort_keeps)

theorem execAbortTokenReceive_keeps (p j q : Nat) (d : Issuer) (s : State) : ∃ s', execAbortTokenReceive p j q d s = .next s' ∧ Keeps s s' :=
  atPort_keeps (by
    repeat' first
      | with_reducible exact Keeps.refl _
      | with_reducible apply abortToken_keeps)

theorem execHdgAbortClear_keeps (v : Word) (s : State) : ∃ s', execHdgAbortClear v s = .next s' ∧ Keeps s s' :=
  up_keeps (by
    repeat' first
      | with_reducible exact Keeps.refl _
      | with_reducible apply hdgAbortClear_keeps)

theorem execHedgerowFrameReceive_keeps (p : Nat) (crcOk : Bool) (d gen dst : Nat) (m : HdgMsg) (s : State) : ∃ s', execHedgerowFrameReceive p crcOk d gen dst m s = .next s' ∧ Keeps s s' :=
  atPort_keeps (by
    repeat' first
      | with_reducible exact Keeps.refl _
      | with_reducible apply frameReceive_keeps)

theorem execGenAnnounceReceive_keeps (p d v : Nat) (s : State) : ∃ s', execGenAnnounceReceive p d v s = .next s' ∧ Keeps s s' :=
  trainPort_keeps (by
    repeat' first
      | with_reducible exact Keeps.refl _
      | with_reducible apply genAnnounce_keeps)

theorem execPortTraining_keeps (p : Nat) (s : State) : ∃ s', execPortTraining p s = .next s' ∧ Keeps s s' :=
  trainPort_keeps (by
    repeat' first
      | with_reducible exact Keeps.refl _
      | with_reducible apply portTraining_keeps)

theorem execPortTrainingDone_keeps (p failed : Nat) (hdgLane : Bool) (e : TrainEnd) (s : State) : ∃ s', execPortTrainingDone p failed hdgLane e s = .next s' ∧ Keeps s s' :=
  trainPort_keeps (by
    repeat' first
      | with_reducible exact Keeps.refl _
      | with_reducible apply portTrainingDone_keeps)

theorem execFlitReceive_keeps (p seq : Nat) (f : Flit) (s : State) : ∃ s', execFlitReceive p seq f s = .next s' ∧ Keeps s s' :=
  atPort_keeps (by
    repeat' first
      | with_reducible exact Keeps.refl _
      | with_reducible apply flitReceive_keeps)

theorem execAckTimeout_keeps (p : Nat) (s : State) : ∃ s', execAckTimeout p s = .next s' ∧ Keeps s s' :=
  atPort_keeps (by
    repeat' first
      | with_reducible exact Keeps.refl _
      | with_reducible apply ackTimeout_keeps)

theorem execAcknowledgementReceive_keeps (p seq : Nat) (neg : Bool) (s : State) : ∃ s', execAcknowledgementReceive p seq neg s = .next s' ∧ Keeps s s' :=
  atPort_keeps (by
    repeat' first
      | with_reducible exact Keeps.refl _
      | with_reducible apply ackReceive_keeps)

theorem execRetrain_keeps (p : Nat) (v : Word) (s : State) : ∃ s', execRetrain p v s = .next s' ∧ Keeps s s' :=
  atPort_keeps (by
    repeat' first
      | with_reducible exact Keeps.refl _
      | with_reducible apply retrainWrite_keeps)

theorem execFabCfgWrite_keeps (v : Word) (s : State) : ∃ s', execFabCfgWrite v s = .next s' ∧ Keeps s s' :=
  upFw_keeps (by
    repeat' first
      | with_reducible exact Keeps.refl _
      | with_reducible apply fabCfgWrite_keeps)

theorem execFabRouteWrite_keeps (d : Nat) (v : Word) (s : State) : ∃ s', execFabRouteWrite d v s = .next s' ∧ Keeps s s' :=
  up_keeps (by
    repeat' first
      | with_reducible exact Keeps.refl _
      | with_reducible apply fabRouteWrite_keeps
      | with_reducible apply Keeps.ite)

theorem execFabricPacketReceive_keeps (p : Nat) (k : FabPacket) (s : State) : ∃ s', execFabricPacketReceive p k s = .next s' ∧ Keeps s s' :=
  atPort_keeps (by
    repeat' first
      | with_reducible exact Keeps.refl _
      | with_reducible apply packetReceive_keeps)

theorem execWindowEntryWrite_keeps (i w : Nat) (v : Word) (host : Bool) (s : State) : ∃ s', execWindowEntryWrite i w v host s = .next s' ∧ Keeps s s' :=
  up_keeps (by
    repeat' first
      | with_reducible exact Keeps.refl _
      | with_reducible apply windowEntryWrite_keeps)

theorem execWinSync_keeps (v : Word) (s : State) : ∃ s', execWinSync v s = .next s' ∧ Keeps s s' :=
  up_keeps (by
    repeat' first
      | with_reducible exact Keeps.refl _
      | with_reducible apply winSync_keeps)

theorem execHeartbeat_keeps (s : State) : ∃ s', execHeartbeat s = .next s' ∧ Keeps s s' :=
  upFw_keeps (by
    repeat' first
      | with_reducible exact Keeps.refl _
      | with_reducible apply heartbeat_keeps)

theorem execHeadTakeover_keeps (members : List Nat) (mirror : List Mirror) (done : List (Nat × Nat)) (s : State) : ∃ s', execHeadTakeover members mirror done s = .next s' ∧ Keeps s s' :=
  upFw_keeps (by
    repeat' first
      | with_reducible exact Keeps.refl _
      | with_reducible apply headTakeover_keeps)

theorem execHeadClaim_keeps (d epoch : Nat) (windows : List Nat) (s : State) : ∃ s', execHeadClaim d epoch windows s = .next s' ∧ Keeps s s' :=
  upFw_keeps (by
    repeat' first
      | with_reducible exact Keeps.refl _
      | with_reducible apply headClaim_keeps)

theorem execBuckerPost_keeps (f : Nat) (hi : Word) (s : State) : ∃ s', execBuckerPost f hi s = .next s' ∧ Keeps s s' :=
  atField_keeps (by
    repeat' first
      | with_reducible exact Keeps.refl _
      | with_reducible apply buckerPost_keeps)

theorem execBuckerJobStart_keeps (f : Nat) (host hostTab : List (Byte × Bool)) (s : State) : ∃ s', execBuckerJobStart f host hostTab s = .next s' ∧ Keeps s s' :=
  onField_keeps (by
    repeat' first
      | with_reducible exact Keeps.refl _
      | with_reducible apply buckerStart_keeps)

theorem execBuckerJobDone_keeps (f : Nat) (s : State) : ∃ s', execBuckerJobDone f s = .next s' ∧ Keeps s s' :=
  onField_keeps (by
    repeat' first
      | with_reducible exact Keeps.refl _
      | with_reducible apply buckerDone_keeps)

/-! ### Reset commands -/

theorem execScrubTick_keeps (f : Nat) (s : State) : ∃ s', execScrubTick f s = .next s' ∧ Keeps s s' :=
  upFw_keeps (by
    repeat' first
      | with_reducible exact Keeps.refl _
      | with_reducible apply scrubTick_keeps)

theorem execPprRequest_keeps (f : Nat) (v : Word) (spare : Bool) (s : State) : ∃ s', execPprRequest f v spare s = .next s' ∧ Keeps s s' :=
  up_keeps (by
    repeat' first
      | with_reducible exact Keeps.refl _
      | with_reducible apply pprRequest_keeps)

theorem execPprDone_keeps (f : Nat) (failed : Bool) (s : State) : ∃ s', execPprDone f failed s = .next s' ∧ Keeps s s' :=
  upFw_keeps (by
    repeat' first
      | with_reducible exact Keeps.refl _
      | with_reducible apply pprDone_keeps)

theorem execInjectorArm_keeps (unit : InjUnit) (v : Word) (s : State) : ∃ s', execInjectorArm unit v s = .next s' ∧ Keeps s s' :=
  up_keeps (by
    repeat' first
      | with_reducible exact Keeps.refl _
      | with_reducible apply injectorArm_keeps)

theorem execQuarantineClear_keeps (res fw : Bool) (v : Word) (s : State) : ∃ s', execQuarantineClear res fw v s = .next s' ∧ Keeps s s' :=
  up_keeps (by
    repeat' first
      | with_reducible exact Keeps.refl _
      | with_reducible apply quarantineClear_keeps)

theorem execDeviceErrorReport_keeps (block u : Nat) (s : State) : ∃ s', execDeviceErrorReport block u s = .next s' ∧ Keeps s s' :=
  upFw_keeps (by
    repeat' first
      | with_reducible exact Keeps.refl _
      | with_reducible apply deviceErrorReport_keeps)

theorem execCoreReset_keeps (f : Nat) (v : Word) (host : Bool) (s : State) : ∃ s', execCoreReset f v host s = .next s' ∧ Keeps s s' :=
  upFw_keeps (by
    repeat' first
      | with_reducible exact Keeps.refl _
      | with_reducible apply coreReset_keeps)

theorem execFieldReset_keeps (f cause : Nat) (stuck : List (Nat × Nat)) (s : State) : ∃ s', execFieldReset f cause stuck s = .next s' ∧ Keeps s s' :=
  next_keeps (by
    repeat' first
      | with_reducible exact Keeps.refl _
      | with_reducible apply triggerField_keeps)

theorem execFieldReady_keeps (f : Nat) (s : State) : ∃ s', execFieldReady f s = .next s' ∧ Keeps s s' :=
  next_keeps (by
    repeat' first
      | with_reducible exact Keeps.refl _
      | with_reducible apply fieldReady_keeps)

theorem execFieldReadyTimeout_keeps (f : Nat) (stuck : List (Nat × Nat)) (s : State) : ∃ s', execFieldReadyTimeout f stuck s = .next s' ∧ Keeps s s' :=
  next_keeps (by
    repeat' first
      | with_reducible exact Keeps.refl _
      | with_reducible apply fieldReadyTimeout_keeps)

theorem execForesterTrap_keeps (f cause addr : Nat) (stuck : List (Nat × Nat)) (s : State) : ∃ s', execForesterTrap f cause addr stuck s = .next s' ∧ Keeps s s' :=
  next_keeps (by
    repeat' first
      | with_reducible exact Keeps.refl _
      | with_reducible apply foresterTrap_keeps)

theorem execForesterWatchdog_keeps (f addr : Nat) (stuck : List (Nat × Nat)) (s : State) : ∃ s', execForesterWatchdog f addr stuck s = .next s' ∧ Keeps s s' :=
  next_keeps (by
    repeat' first
      | with_reducible exact Keeps.refl _
      | with_reducible apply foresterTrap_keeps)

theorem execSurveyorTrap_keeps (cause addr : Nat) (stuck : List (Nat × Nat)) (s : State) : ∃ s', execSurveyorTrap cause addr stuck s = .next s' ∧ Keeps s s' :=
  next_keeps (by
    repeat' first
      | with_reducible exact Keeps.refl _
      | with_reducible apply surveyorTrap_keeps)

theorem execSurveyorWatchdog_keeps (addr : Nat) (stuck : List (Nat × Nat)) (s : State) : ∃ s', execSurveyorWatchdog addr stuck s = .next s' ∧ Keeps s s' :=
  next_keeps (by
    repeat' first
      | with_reducible exact Keeps.refl _
      | with_reducible apply surveyorTrap_keeps)

theorem execHostFieldReset_keeps (v : Word) (stuck : List (Nat × Nat)) (s : State) : ∃ s', execHostFieldReset v stuck s = .next s' ∧ Keeps s s' :=
  next_keeps (by
    repeat' first
      | with_reducible exact Keeps.refl _
      | with_reducible apply resetCtrl_keeps
      | with_reducible apply Keeps.ite)

theorem execHostDeviceReset_keeps (v : Word) (stuck : List (Nat × Nat)) (s : State) : ∃ s', execHostDeviceReset v stuck s = .next s' ∧ Keeps s s' :=
  next_keeps (by
    repeat' first
      | with_reducible exact Keeps.refl _
      | with_reducible apply resetCtrl_keeps
      | with_reducible apply Keeps.ite)

theorem execDeviceReset_keeps (cause : Nat) (stuck : List (Nat × Nat)) (s : State) : ∃ s', execDeviceReset cause stuck s = .next s' ∧ Keeps s s' :=
  next_keeps (by
    repeat' first
      | with_reducible exact Keeps.refl _
      | with_reducible apply triggerDevice_keeps)

theorem execDeviceReady_keeps (stuck : List (Nat × Nat)) (s : State) : ∃ s', execDeviceReady stuck s = .next s' ∧ Keeps s s' :=
  next_keeps (by
    repeat' first
      | with_reducible exact Keeps.refl _
      | with_reducible apply deviceReady_keeps)

theorem execWindfallTimeLimit_keeps (stuck : List (Nat × Nat)) (s : State) : ∃ s', execWindfallTimeLimit stuck s = .next s' ∧ Keeps s s' :=
  next_keeps (by
    repeat' first
      | with_reducible exact Keeps.refl _
      | with_reducible apply windfallTimeLimit_keeps)

theorem execObservationTimeout_keeps (got : Nat) (stuck : List (Nat × Nat)) (s : State) : ∃ s', execObservationTimeout got stuck s = .next s' ∧ Keeps s s' :=
  next_keeps (by
    repeat' first
      | with_reducible exact Keeps.refl _
      | with_reducible apply observationTimeout_keeps)

theorem execFieldFence_keeps (f : Nat) (v : Word) (host : Bool) (s : State) : ∃ s', execFieldFence f v host s = .next s' ∧ Keeps s s' :=
  upFw_keeps (by
    repeat' first
      | with_reducible exact Keeps.refl _
      | with_reducible apply fieldFence_keeps)

theorem execFieldFenceDone_keeps (f : Nat) (s : State) : ∃ s', execFieldFenceDone f s = .next s' ∧ Keeps s s' :=
  up_keeps (by
    repeat' first
      | with_reducible exact Keeps.refl _
      | with_reducible apply fieldFenceDone_keeps)

theorem execStandAbortRecovery_keeps (j started : Nat) (windows groups sems moves : List Nat) (s : State) : ∃ s', execStandAbortRecovery j started windows groups sems moves s = .next s' ∧ Keeps s s' :=
  upFw_keeps (by
    repeat' first
      | with_reducible exact Keeps.refl _
      | with_reducible apply standRecovery_keeps)

theorem execTallyReadSelect_keeps (v : Word) (s : State) : ∃ s', execTallyReadSelect v s = .next s' ∧ Keeps s s' :=
  up_keeps (by
    repeat' first
      | with_reducible exact Keeps.refl _
      | with_reducible apply tallyLatch_keeps)

theorem execWindfallPageSelect_keeps (v : Word) (s : State) : ∃ s', execWindfallPageSelect v s = .next s' ∧ Keeps s s' :=
  up_keeps (by
    repeat' first
      | with_reducible exact Keeps.refl _
      | with_reducible apply wfSelect_keeps)

/-! ### Trust commands -/

theorem execRepairAdd_keeps (m : MaintSrc) (s : State) : ∃ s', execRepairAdd m s = .next s' ∧ Keeps s s' :=
  next_keeps (by
    repeat' first
      | with_reducible exact Keeps.refl _
      | with_reducible apply maintCommand_keeps)

theorem execRepairClear_keeps (m : MaintSrc) (s : State) : ∃ s', execRepairClear m s = .next s' ∧ Keeps s s' :=
  next_keeps (by
    repeat' first
      | with_reducible exact Keeps.refl _
      | with_reducible apply maintCommand_keeps)

theorem execTallyErase_keeps (m : MaintSrc) (s : State) : ∃ s', execTallyErase m s = .next s' ∧ Keeps s s' :=
  next_keeps (by
    repeat' first
      | with_reducible exact Keeps.refl _
      | with_reducible apply maintCommand_keeps)

theorem execFuseAdvance_keeps (fuses : Nat) (s : State) : ∃ s', execFuseAdvance fuses s = .next s' ∧ Keeps s s' :=
  up_keeps (by
    repeat' first
      | with_reducible exact Keeps.refl _
      | with_reducible apply fuseAdvance_keeps)

theorem execAttestGo_keeps (busy : Bool) (s : State) : ∃ s', execAttestGo busy s = .next s' ∧ Keeps s s' :=
  up_keeps (by
    repeat' first
      | with_reducible exact Keeps.refl _
      | with_reducible apply attestGo_keeps)

theorem execLoad_keeps (bytes : List Byte) (poisoned busy : Bool) (s : State) : ∃ s', execLoad bytes poisoned busy s = .next s' ∧ Keeps s s' :=
  up_keeps (by
    repeat' first
      | with_reducible exact Keeps.refl _
      | with_reducible apply hostLoad_keeps)

theorem execActivate_keeps (busy : Bool) (s : State) : ∃ s', execActivate busy s = .next s' ∧ Keeps s s' :=
  up_keeps (by
    repeat' first
      | with_reducible exact Keeps.refl _
      | with_reducible apply hostActivate_keeps)

theorem execIdentify_keeps (tag : Nat) (s : State) : ∃ s', execIdentify tag s = .next s' ∧ Keeps s s' :=
  next_keeps (by
    repeat' first
      | with_reducible exact Keeps.refl _
      | with_reducible apply svcIdentify_keeps
      | with_reducible apply Keeps.ite)

theorem execTallyRead_keeps (tag first count : Nat) (s : State) : ∃ s', execTallyRead tag first count s = .next s' ∧ Keeps s s' :=
  next_keeps (by
    repeat' first
      | with_reducible exact Keeps.refl _
      | with_reducible apply svcTally_keeps
      | with_reducible apply Keeps.ite)

theorem execWindfallRead_keeps (tag arg : Nat) (s : State) : ∃ s', execWindfallRead tag arg s = .next s' ∧ Keeps s s' :=
  next_keeps (by
    repeat' first
      | with_reducible exact Keeps.refl _
      | with_reducible apply svcWindfall_keeps
      | with_reducible apply Keeps.ite)

theorem execAttest_keeps (tag : Nat) (nonce : List Byte) (busy : Bool) (s : State) : ∃ s', execAttest tag nonce busy s = .next s' ∧ Keeps s s' :=
  next_keeps (by
    repeat' first
      | with_reducible exact Keeps.refl _
      | with_reducible apply svcAttest_keeps
      | with_reducible apply Keeps.ite)

theorem execCertRead_keeps (tag : Nat) (s : State) : ∃ s', execCertRead tag s = .next s' ∧ Keeps s s' :=
  next_keeps (by
    repeat' first
      | with_reducible exact Keeps.refl _
      | with_reducible apply svcCert_keeps
      | with_reducible apply Keeps.ite)

theorem execFwLoad_keeps (tag : Nat) (bytes : List Byte) (busy : Bool) (s : State) : ∃ s', execFwLoad tag bytes busy s = .next s' ∧ Keeps s s' :=
  next_keeps (by
    repeat' first
      | with_reducible exact Keeps.refl _
      | with_reducible apply svcLoad_keeps
      | with_reducible apply Keeps.ite)

theorem execFwActivate_keeps (tag : Nat) (busy : Bool) (s : State) : ∃ s', execFwActivate tag busy s = .next s' ∧ Keeps s s' :=
  next_keeps (by
    repeat' first
      | with_reducible exact Keeps.refl _
      | with_reducible apply svcActivate_keeps
      | with_reducible apply Keeps.ite)

theorem execImageInstall_keeps (tag arg len : Nat) (env : DescEnv) (s : State) : ∃ s', execImageInstall tag arg len env s = .next s' ∧ Keeps s s' :=
  next_keeps (by
    repeat' first
      | with_reducible exact Keeps.refl _
      | with_reducible apply svcImage_keeps
      | with_reducible apply Keeps.ite)

theorem execImageRepair_keeps (tag arg len : Nat) (env : DescEnv) (s : State) : ∃ s', execImageRepair tag arg len env s = .next s' ∧ Keeps s s' :=
  next_keeps (by
    repeat' first
      | with_reducible exact Keeps.refl _
      | with_reducible apply svcImage_keeps
      | with_reducible apply Keeps.ite)

theorem execMaint_keeps (tag : Nat) (block : List Byte) (s : State) : ∃ s', execMaint tag block s = .next s' ∧ Keeps s s' :=
  next_keeps (by
    repeat' first
      | with_reducible exact Keeps.refl _
      | with_reducible apply svcMaint_keeps
      | with_reducible apply Keeps.ite)

theorem execReset_keeps (tag : Nat) (recovery : Bool) (stuck : List (Nat × Nat)) (s : State) : ∃ s', execReset tag recovery stuck s = .next s' ∧ Keeps s s' :=
  next_keeps (by
    repeat' first
      | with_reducible exact Keeps.refl _
      | with_reducible apply svcReset_keeps)

theorem execServicePortEnable_keeps (v : Word) (s : State) : ∃ s', execServicePortEnable v s = .next s' ∧ Keeps s s' :=
  up_keeps (by
    repeat' first
      | with_reducible exact Keeps.refl _
      | with_reducible apply storeBits_keeps)

theorem execServiceReservedOpcode_keeps (tag op magic : Nat) (s : State) : ∃ s', execServiceReservedOpcode tag op magic s = .next s' ∧ Keeps s s' :=
  next_keeps (by
    repeat' first
      | with_reducible exact Keeps.refl _
      | with_reducible apply svcReserved_keeps
      | with_reducible apply Keeps.ite)

/-! ### Power commands -/

theorem execPowerLoss_keeps (src mask : Nat) (s : State) : ∃ s', execPowerLoss src mask s = .next s' ∧ Keeps s s' :=
  next_keeps (by
    repeat' first
      | with_reducible exact Keeps.refl _
      | with_reducible apply powerLoss_keeps)

theorem execPwrgoodDeassert_keeps (s : State) : ∃ s', execPwrgoodDeassert s = .next s' ∧ Keeps s s' :=
  next_keeps (by
    repeat' first
      | with_reducible exact Keeps.refl _
      | with_reducible apply pwrgoodDeassert_keeps)

theorem execPowerOn_keeps (devid hostSel : Nat) (s : State) : ∃ s', execPowerOn devid hostSel s = .next s' ∧ Keeps s s' :=
  next_keeps (by
    repeat' first
      | with_reducible exact Keeps.refl _
      | with_reducible apply powerOn_keeps)

theorem execDomainSwitch_keeps (k : Nat) (v : Word) (host : Bool) (s : State) : ∃ s', execDomainSwitch k v host s = .next s' ∧ Keeps s s' :=
  upFw_keeps (by
    repeat' first
      | with_reducible exact Keeps.refl _
      | with_reducible apply domainSwitch_keeps)

theorem execDomainSwitchDone_keeps (k nonCore : Nat) (s : State) : ∃ s', execDomainSwitchDone k nonCore s = .next s' ∧ Keeps s s' :=
  upFw_keeps (by
    repeat' first
      | with_reducible exact Keeps.refl _
      | with_reducible apply domainSwitchDone_keeps)

theorem execCoreOpWrite_keeps (n : Nat) (v : Word) (host : Bool) (s : State) : ∃ s', execCoreOpWrite n v host s = .next s' ∧ Keeps s s' :=
  up_keeps (by
    repeat' first
      | with_reducible exact Keeps.refl _
      | with_reducible apply coreOpWrite_keeps)

theorem execCoreOpApply_keeps (n : Nat) (s : State) : ∃ s', execCoreOpApply n s = .next s' ∧ Keeps s s' :=
  up_keeps (by
    repeat' first
      | with_reducible exact Keeps.refl _
      | with_reducible apply coreOpApply_keeps)

theorem execOpDeferExpiry_keeps (n : Nat) (s : State) : ∃ s', execOpDeferExpiry n s = .next s' ∧ Keeps s s' :=
  up_keeps (by
    repeat' first
      | with_reducible exact Keeps.refl _
      | with_reducible apply opDeferExpiry_keeps)

theorem execPowerSettingWrite_keeps (v : Word) (nonCore : Nat) (s : State) : ∃ s', execPowerSettingWrite v nonCore s = .next s' ∧ Keeps s s' :=
  up_keeps (by
    repeat' first
      | with_reducible exact Keeps.refl _
      | with_reducible apply powerSetting_keeps)

theorem execPowerSample_keeps (x : Nat) (s : State) : ∃ s', execPowerSample x s = .next s' ∧ Keeps s s' :=
  up_keeps (by
    repeat' first
      | with_reducible exact Keeps.refl _
      | with_reducible apply powerSample_keeps)

theorem execIdle_keeps (s : State) : ∃ s', execIdle s = .next s' ∧ Keeps s s' :=
  upFw_keeps (by
    repeat' first
      | with_reducible exact Keeps.refl _
      | with_reducible apply idleEnter_keeps)

theorem execIdleWake_keeps (doms : List Nat) (s : State) : ∃ s', execIdleWake doms s = .next s' ∧ Keeps s s' :=
  up_keeps (by
    repeat' first
      | with_reducible exact Keeps.refl _
      | with_reducible apply idleWake_keeps)

theorem execStandby_keeps (v : Word) (s : State) : ∃ s', execStandby v s = .next s' ∧ Keeps s s' :=
  up_keeps (by
    repeat' first
      | with_reducible exact Keeps.refl _
      | with_reducible apply standbyEnter_keeps
      | with_reducible apply Keeps.ite)

theorem execStandbyExit_keeps (stuck : List (Nat × Nat)) (s : State) : ∃ s', execStandbyExit stuck s = .next s' ∧ Keeps s s' :=
  next_keeps (by
    repeat' first
      | with_reducible exact Keeps.refl _
      | with_reducible apply standbyExit_keeps)

theorem execThermalThrottleTick_keeps (temps : List Nat) (s : State) : ∃ s', execThermalThrottleTick temps s = .next s' ∧ Keeps s s' :=
  up_keeps (by
    repeat' first
      | with_reducible exact Keeps.refl _
      | with_reducible apply throttleTick_keeps)

theorem execThermalCrit_keeps (temps : List Nat) (s : State) : ∃ s', execThermalCrit temps s = .next s' ∧ Keeps s s' :=
  up_keeps (by
    repeat' first
      | with_reducible exact Keeps.refl _
      | with_reducible apply thermalCrit_keeps)

theorem execThermalCritEnd_keeps (temps : List Nat) (s : State) : ∃ s', execThermalCritEnd temps s = .next s' ∧ Keeps s s' :=
  up_keeps (by
    repeat' first
      | with_reducible exact Keeps.refl _
      | with_reducible apply thermalCritEnd_keeps)

theorem execThermalTrip_keeps (temps : List Nat) (s : State) : ∃ s', execThermalTrip temps s = .next s' ∧ Keeps s s' :=
  next_keeps (by
    repeat' first
      | with_reducible exact Keeps.refl _
      | with_reducible apply thermalTrip_keeps)

theorem execThermalTripRecovery_keeps (temps : List Nat) (stuck : List (Nat × Nat)) (s : State) : ∃ s', execThermalTripRecovery temps stuck s = .next s' ∧ Keeps s s' :=
  next_keeps (by
    repeat' first
      | with_reducible exact Keeps.refl _
      | with_reducible apply tripRecovery_keeps)

theorem execThrottleRaise_keeps (temps : List Nat) (s : State) : ∃ s', execThrottleRaise temps s = .next s' ∧ Keeps s s' :=
  up_keeps (by
    repeat' first
      | with_reducible exact Keeps.refl _
      | with_reducible apply throttleRaise_keeps)

theorem execStackProgrammingPause_keeps (f temp : Nat) (s : State) : ∃ s', execStackProgrammingPause f temp s = .next s' ∧ Keeps s s' :=
  up_keeps (by
    repeat' first
      | with_reducible exact Keeps.refl _
      | with_reducible apply stackPause_keeps)

theorem execStackProgrammingResume_keeps (f temp : Nat) (s : State) : ∃ s', execStackProgrammingResume f temp s = .next s' ∧ Keeps s s' :=
  up_keeps (by
    repeat' first
      | with_reducible exact Keeps.refl _
      | with_reducible apply stackResume_keeps)

theorem execRcRegisterRead_keeps (o bytes : Nat) (s : State) : ∃ s', execRcRegisterRead o bytes s = .next s' ∧ Keeps s s' :=
  next_keeps (by
    repeat' first
      | with_reducible exact Keeps.refl _
      | with_reducible apply registerRead_keeps)

theorem execRegisterWrite_keeps (o bytes : Nat) (v : DWord) (host : Bool) (s : State) : ∃ s', execRegisterWrite o bytes v host s = .next s' ∧ Keeps s s' :=
  next_keeps (by
    repeat' first
      | with_reducible exact Keeps.refl _
      | with_reducible apply registerWrite_keeps
      | with_reducible apply settle_keeps
      | with_reducible apply Keeps.ite)

end Sys2Proof.Machine
end

