-- ==== Sys2Proof/Laws/State.lean ====
section
/-! SUPPORT. What each update of the state leaves as it was, field by field and view by view, and what a read after a write gives. -/

namespace Sys2Proof.Machine

/-! ### setReg -/

section
variable (s : State) (o : Nat) (v : Word)

@[simp] theorem State.setReg_part : (s.setReg o v).part = s.part := rfl
@[simp] theorem State.setReg_cores : (s.setReg o v).cores = s.cores := rfl
@[simp] theorem State.setReg_fields : (s.setReg o v).fields = s.fields := rfl
@[simp] theorem State.setReg_nm : (s.setReg o v).nm = s.nm := rfl
@[simp] theorem State.setReg_nmWb : (s.setReg o v).nmWb = s.nmWb := rfl
@[simp] theorem State.setReg_chans : (s.setReg o v).chans = s.chans := rfl
@[simp] theorem State.setReg_skqs : (s.setReg o v).skqs = s.skqs := rfl
@[simp] theorem State.setReg_txns : (s.setReg o v).txns = s.txns := rfl
@[simp] theorem State.setReg_txnSeq : (s.setReg o v).txnSeq = s.txnSeq := rfl
@[simp] theorem State.setReg_waiters : (s.setReg o v).waiters = s.waiters := rfl
@[simp] theorem State.setReg_omapMarks : (s.setReg o v).omapMarks = s.omapMarks := rfl
@[simp] theorem State.setReg_bkrs : (s.setReg o v).bkrs = s.bkrs := rfl
@[simp] theorem State.setReg_notify : (s.setReg o v).notify = s.notify := rfl
@[simp] theorem State.setReg_arrivals : (s.setReg o v).arrivals = s.arrivals := rfl
@[simp] theorem State.setReg_straps : (s.setReg o v).straps = s.straps := rfl
@[simp] theorem State.setReg_hostSel : (s.setReg o v).hostSel = s.hostSel := rfl
@[simp] theorem State.setReg_ports : (s.setReg o v).ports = s.ports := rfl
@[simp] theorem State.setReg_heldReqs : (s.setReg o v).heldReqs = s.heldReqs := rfl
@[simp] theorem State.setReg_out : (s.setReg o v).out = s.out := rfl
@[simp] theorem State.setReg_tally : (s.setReg o v).tally = s.tally := rfl
@[simp] theorem State.setReg_talSupp : (s.setReg o v).talSupp = s.talSupp := rfl
@[simp] theorem State.setReg_talSeen : (s.setReg o v).talSeen = s.talSeen := rfl
@[simp] theorem State.setReg_boots : (s.setReg o v).boots = s.boots := rfl
@[simp] theorem State.setReg_windfall : (s.setReg o v).windfall = s.windfall := rfl
@[simp] theorem State.setReg_ctx : (s.setReg o v).ctx = s.ctx := rfl
@[simp] theorem State.setReg_res : (s.setReg o v).res = s.res := rfl
@[simp] theorem State.setReg_roots : (s.setReg o v).roots = s.roots := rfl
@[simp] theorem State.setReg_catalog : (s.setReg o v).catalog = s.catalog := rfl
@[simp] theorem State.setReg_resDest : (s.setReg o v).resDest = s.resDest := rfl
@[simp] theorem State.setReg_moves : (s.setReg o v).moves = s.moves := rfl
@[simp] theorem State.setReg_given : (s.setReg o v).given = s.given := rfl
@[simp] theorem State.setReg_rings : (s.setReg o v).rings = s.rings := rfl
@[simp] theorem State.setReg_eqs : (s.setReg o v).eqs = s.eqs := rfl
@[simp] theorem State.setReg_errLost : (s.setReg o v).errLost = s.errLost := rfl
@[simp] theorem State.setReg_errHeld : (s.setReg o v).errHeld = s.errHeld := rfl
@[simp] theorem State.setReg_descs : (s.setReg o v).descs = s.descs := rfl
@[simp] theorem State.setReg_descSeq : (s.setReg o v).descSeq = s.descSeq := rfl
@[simp] theorem State.setReg_corr : (s.setReg o v).corr = s.corr := rfl
@[simp] theorem State.setReg_mirrored : (s.setReg o v).mirrored = s.mirrored := rfl
@[simp] theorem State.setReg_takeoverRings : (s.setReg o v).takeoverRings = s.takeoverRings := rfl
@[simp] theorem State.setReg_headWrites : (s.setReg o v).headWrites = s.headWrites := rfl
@[simp] theorem State.setReg_ctxFw : (s.setReg o v).ctxFw = s.ctxFw := rfl
@[simp] theorem State.setReg_hostObjs : (s.setReg o v).hostObjs = s.hostObjs := rfl
@[simp] theorem State.setReg_xferWaits : (s.setReg o v).xferWaits = s.xferWaits := rfl
@[simp] theorem State.setReg_chanWaits : (s.setReg o v).chanWaits = s.chanWaits := rfl
@[simp] theorem State.setReg_fwDone : (s.setReg o v).fwDone = s.fwDone := rfl
@[simp] theorem State.setReg_steps : (s.setReg o v).steps = s.steps := rfl
@[simp] theorem State.setReg_stepSeq : (s.setReg o v).stepSeq = s.stepSeq := rfl
@[simp] theorem State.setReg_capture : (s.setReg o v).capture = s.capture := rfl
@[simp] theorem State.setReg_captureWaits : (s.setReg o v).captureWaits = s.captureWaits := rfl
@[simp] theorem State.setReg_wfPage : (s.setReg o v).wfPage = s.wfPage := rfl
@[simp] theorem State.setReg_wfSeq : (s.setReg o v).wfSeq = s.wfSeq := rfl
@[simp] theorem State.setReg_banks : (s.setReg o v).banks = s.banks := rfl
@[simp] theorem State.setReg_bankPtr : (s.setReg o v).bankPtr = s.bankPtr := rfl
@[simp] theorem State.setReg_runSrv : (s.setReg o v).runSrv = s.runSrv := rfl
@[simp] theorem State.setReg_runFrs : (s.setReg o v).runFrs = s.runFrs := rfl
@[simp] theorem State.setReg_toRecovery : (s.setReg o v).toRecovery = s.toRecovery := rfl
@[simp] theorem State.setReg_bootFail : (s.setReg o v).bootFail = s.bootFail := rfl
@[simp] theorem State.setReg_repairMap : (s.setReg o v).repairMap = s.repairMap := rfl
@[simp] theorem State.setReg_repairOn : (s.setReg o v).repairOn = s.repairOn := rfl
@[simp] theorem State.setReg_power : (s.setReg o v).power = s.power := rfl
@[simp] theorem State.setReg_resp : (s.setReg o v).resp = s.resp := rfl
@[simp] theorem State.setReg_respHi : (s.setReg o v).respHi = s.respHi := rfl
@[simp] theorem State.setReg_clocks : (s.setReg o v).clocks = s.clocks := rfl
@[simp] theorem State.setReg_ctxQuar : (s.setReg o v).ctxQuar = s.ctxQuar := rfl
@[simp] theorem State.setReg_resQuar : (s.setReg o v).resQuar = s.resQuar := rfl
@[simp] theorem State.setReg_freeCtr : (s.setReg o v).freeCtr = s.freeCtr := rfl
@[simp] theorem State.setReg_pending : (s.setReg o v).pending = s.pending := rfl
@[simp] theorem State.core_setReg (i : Nat) : (s.setReg o v).core i = s.core i := rfl
@[simp] theorem State.field_setReg (i : Nat) : (s.setReg o v).field i = s.field i := rfl
@[simp] theorem State.gran_setReg (i : Nat) : (s.setReg o v).gran i = s.gran i := rfl
@[simp] theorem State.chan_setReg (i j : Nat) : (s.setReg o v).chan i j = s.chan i j := rfl
@[simp] theorem State.skq_setReg (i : Nat) : (s.setReg o v).skq i = s.skq i := rfl
@[simp] theorem State.bkr_setReg (i : Nat) : (s.setReg o v).bkr i = s.bkr i := rfl
@[simp] theorem State.port_setReg (i : Nat) : (s.setReg o v).port i = s.port i := rfl
@[simp] theorem State.root_setReg (i : Nat) : (s.setReg o v).root i = s.root i := rfl
@[simp] theorem State.fw_setReg (i : Nat) : (s.setReg o v).fw i = s.fw i := rfl
@[simp] theorem State.ringSt_setReg (i : Nat) : (s.setReg o v).ringSt i = s.ringSt i := rfl
@[simp] theorem State.eqSt_setReg (i : Nat) : (s.setReg o v).eqSt i = s.eqSt i := rfl

end

/-! ### setCore -/

section
variable (s : State) (n : Nat) (c : CoreState)

@[simp] theorem State.setCore_part : (s.setCore n c).part = s.part := rfl
@[simp] theorem State.setCore_regs : (s.setCore n c).regs = s.regs := rfl
@[simp] theorem State.setCore_fields : (s.setCore n c).fields = s.fields := rfl
@[simp] theorem State.setCore_nm : (s.setCore n c).nm = s.nm := rfl
@[simp] theorem State.setCore_nmWb : (s.setCore n c).nmWb = s.nmWb := rfl
@[simp] theorem State.setCore_chans : (s.setCore n c).chans = s.chans := rfl
@[simp] theorem State.setCore_skqs : (s.setCore n c).skqs = s.skqs := rfl
@[simp] theorem State.setCore_txns : (s.setCore n c).txns = s.txns := rfl
@[simp] theorem State.setCore_txnSeq : (s.setCore n c).txnSeq = s.txnSeq := rfl
@[simp] theorem State.setCore_waiters : (s.setCore n c).waiters = s.waiters := rfl
@[simp] theorem State.setCore_omapMarks : (s.setCore n c).omapMarks = s.omapMarks := rfl
@[simp] theorem State.setCore_bkrs : (s.setCore n c).bkrs = s.bkrs := rfl
@[simp] theorem State.setCore_notify : (s.setCore n c).notify = s.notify := rfl
@[simp] theorem State.setCore_arrivals : (s.setCore n c).arrivals = s.arrivals := rfl
@[simp] theorem State.setCore_straps : (s.setCore n c).straps = s.straps := rfl
@[simp] theorem State.setCore_hostSel : (s.setCore n c).hostSel = s.hostSel := rfl
@[simp] theorem State.setCore_ports : (s.setCore n c).ports = s.ports := rfl
@[simp] theorem State.setCore_heldReqs : (s.setCore n c).heldReqs = s.heldReqs := rfl
@[simp] theorem State.setCore_out : (s.setCore n c).out = s.out := rfl
@[simp] theorem State.setCore_tally : (s.setCore n c).tally = s.tally := rfl
@[simp] theorem State.setCore_talSupp : (s.setCore n c).talSupp = s.talSupp := rfl
@[simp] theorem State.setCore_talSeen : (s.setCore n c).talSeen = s.talSeen := rfl
@[simp] theorem State.setCore_boots : (s.setCore n c).boots = s.boots := rfl
@[simp] theorem State.setCore_windfall : (s.setCore n c).windfall = s.windfall := rfl
@[simp] theorem State.setCore_ctx : (s.setCore n c).ctx = s.ctx := rfl
@[simp] theorem State.setCore_res : (s.setCore n c).res = s.res := rfl
@[simp] theorem State.setCore_roots : (s.setCore n c).roots = s.roots := rfl
@[simp] theorem State.setCore_catalog : (s.setCore n c).catalog = s.catalog := rfl
@[simp] theorem State.setCore_resDest : (s.setCore n c).resDest = s.resDest := rfl
@[simp] theorem State.setCore_moves : (s.setCore n c).moves = s.moves := rfl
@[simp] theorem State.setCore_given : (s.setCore n c).given = s.given := rfl
@[simp] theorem State.setCore_rings : (s.setCore n c).rings = s.rings := rfl
@[simp] theorem State.setCore_eqs : (s.setCore n c).eqs = s.eqs := rfl
@[simp] theorem State.setCore_errLost : (s.setCore n c).errLost = s.errLost := rfl
@[simp] theorem State.setCore_errHeld : (s.setCore n c).errHeld = s.errHeld := rfl
@[simp] theorem State.setCore_descs : (s.setCore n c).descs = s.descs := rfl
@[simp] theorem State.setCore_descSeq : (s.setCore n c).descSeq = s.descSeq := rfl
@[simp] theorem State.setCore_corr : (s.setCore n c).corr = s.corr := rfl
@[simp] theorem State.setCore_mirrored : (s.setCore n c).mirrored = s.mirrored := rfl
@[simp] theorem State.setCore_takeoverRings : (s.setCore n c).takeoverRings = s.takeoverRings := rfl
@[simp] theorem State.setCore_headWrites : (s.setCore n c).headWrites = s.headWrites := rfl
@[simp] theorem State.setCore_ctxFw : (s.setCore n c).ctxFw = s.ctxFw := rfl
@[simp] theorem State.setCore_hostObjs : (s.setCore n c).hostObjs = s.hostObjs := rfl
@[simp] theorem State.setCore_xferWaits : (s.setCore n c).xferWaits = s.xferWaits := rfl
@[simp] theorem State.setCore_chanWaits : (s.setCore n c).chanWaits = s.chanWaits := rfl
@[simp] theorem State.setCore_fwDone : (s.setCore n c).fwDone = s.fwDone := rfl
@[simp] theorem State.setCore_steps : (s.setCore n c).steps = s.steps := rfl
@[simp] theorem State.setCore_stepSeq : (s.setCore n c).stepSeq = s.stepSeq := rfl
@[simp] theorem State.setCore_capture : (s.setCore n c).capture = s.capture := rfl
@[simp] theorem State.setCore_captureWaits : (s.setCore n c).captureWaits = s.captureWaits := rfl
@[simp] theorem State.setCore_wfPage : (s.setCore n c).wfPage = s.wfPage := rfl
@[simp] theorem State.setCore_wfSeq : (s.setCore n c).wfSeq = s.wfSeq := rfl
@[simp] theorem State.setCore_banks : (s.setCore n c).banks = s.banks := rfl
@[simp] theorem State.setCore_bankPtr : (s.setCore n c).bankPtr = s.bankPtr := rfl
@[simp] theorem State.setCore_runSrv : (s.setCore n c).runSrv = s.runSrv := rfl
@[simp] theorem State.setCore_runFrs : (s.setCore n c).runFrs = s.runFrs := rfl
@[simp] theorem State.setCore_toRecovery : (s.setCore n c).toRecovery = s.toRecovery := rfl
@[simp] theorem State.setCore_bootFail : (s.setCore n c).bootFail = s.bootFail := rfl
@[simp] theorem State.setCore_repairMap : (s.setCore n c).repairMap = s.repairMap := rfl
@[simp] theorem State.setCore_repairOn : (s.setCore n c).repairOn = s.repairOn := rfl
@[simp] theorem State.setCore_power : (s.setCore n c).power = s.power := rfl
@[simp] theorem State.setCore_resp : (s.setCore n c).resp = s.resp := rfl
@[simp] theorem State.setCore_respHi : (s.setCore n c).respHi = s.respHi := rfl
@[simp] theorem State.setCore_clocks : (s.setCore n c).clocks = s.clocks := rfl
@[simp] theorem State.setCore_ctxQuar : (s.setCore n c).ctxQuar = s.ctxQuar := rfl
@[simp] theorem State.setCore_resQuar : (s.setCore n c).resQuar = s.resQuar := rfl
@[simp] theorem State.setCore_freeCtr : (s.setCore n c).freeCtr = s.freeCtr := rfl
@[simp] theorem State.setCore_pending : (s.setCore n c).pending = s.pending := rfl
@[simp] theorem State.reg_setCore (i : Nat) : (s.setCore n c).reg i = s.reg i := rfl
@[simp] theorem State.field_setCore (i : Nat) : (s.setCore n c).field i = s.field i := rfl
@[simp] theorem State.gran_setCore (i : Nat) : (s.setCore n c).gran i = s.gran i := rfl
@[simp] theorem State.chan_setCore (i j : Nat) : (s.setCore n c).chan i j = s.chan i j := rfl
@[simp] theorem State.skq_setCore (i : Nat) : (s.setCore n c).skq i = s.skq i := rfl
@[simp] theorem State.bkr_setCore (i : Nat) : (s.setCore n c).bkr i = s.bkr i := rfl
@[simp] theorem State.port_setCore (i : Nat) : (s.setCore n c).port i = s.port i := rfl
@[simp] theorem State.root_setCore (i : Nat) : (s.setCore n c).root i = s.root i := rfl
@[simp] theorem State.fw_setCore (i : Nat) : (s.setCore n c).fw i = s.fw i := rfl
@[simp] theorem State.ringSt_setCore (i : Nat) : (s.setCore n c).ringSt i = s.ringSt i := rfl
@[simp] theorem State.eqSt_setCore (i : Nat) : (s.setCore n c).eqSt i = s.eqSt i := rfl

end

/-! ### setField -/

section
variable (s : State) (f : Nat) (x : FieldState)

@[simp] theorem State.setField_part : (s.setField f x).part = s.part := rfl
@[simp] theorem State.setField_regs : (s.setField f x).regs = s.regs := rfl
@[simp] theorem State.setField_cores : (s.setField f x).cores = s.cores := rfl
@[simp] theorem State.setField_nm : (s.setField f x).nm = s.nm := rfl
@[simp] theorem State.setField_nmWb : (s.setField f x).nmWb = s.nmWb := rfl
@[simp] theorem State.setField_chans : (s.setField f x).chans = s.chans := rfl
@[simp] theorem State.setField_skqs : (s.setField f x).skqs = s.skqs := rfl
@[simp] theorem State.setField_txns : (s.setField f x).txns = s.txns := rfl
@[simp] theorem State.setField_txnSeq : (s.setField f x).txnSeq = s.txnSeq := rfl
@[simp] theorem State.setField_waiters : (s.setField f x).waiters = s.waiters := rfl
@[simp] theorem State.setField_omapMarks : (s.setField f x).omapMarks = s.omapMarks := rfl
@[simp] theorem State.setField_bkrs : (s.setField f x).bkrs = s.bkrs := rfl
@[simp] theorem State.setField_notify : (s.setField f x).notify = s.notify := rfl
@[simp] theorem State.setField_arrivals : (s.setField f x).arrivals = s.arrivals := rfl
@[simp] theorem State.setField_straps : (s.setField f x).straps = s.straps := rfl
@[simp] theorem State.setField_hostSel : (s.setField f x).hostSel = s.hostSel := rfl
@[simp] theorem State.setField_ports : (s.setField f x).ports = s.ports := rfl
@[simp] theorem State.setField_heldReqs : (s.setField f x).heldReqs = s.heldReqs := rfl
@[simp] theorem State.setField_out : (s.setField f x).out = s.out := rfl
@[simp] theorem State.setField_tally : (s.setField f x).tally = s.tally := rfl
@[simp] theorem State.setField_talSupp : (s.setField f x).talSupp = s.talSupp := rfl
@[simp] theorem State.setField_talSeen : (s.setField f x).talSeen = s.talSeen := rfl
@[simp] theorem State.setField_boots : (s.setField f x).boots = s.boots := rfl
@[simp] theorem State.setField_windfall : (s.setField f x).windfall = s.windfall := rfl
@[simp] theorem State.setField_ctx : (s.setField f x).ctx = s.ctx := rfl
@[simp] theorem State.setField_res : (s.setField f x).res = s.res := rfl
@[simp] theorem State.setField_roots : (s.setField f x).roots = s.roots := rfl
@[simp] theorem State.setField_catalog : (s.setField f x).catalog = s.catalog := rfl
@[simp] theorem State.setField_resDest : (s.setField f x).resDest = s.resDest := rfl
@[simp] theorem State.setField_moves : (s.setField f x).moves = s.moves := rfl
@[simp] theorem State.setField_given : (s.setField f x).given = s.given := rfl
@[simp] theorem State.setField_rings : (s.setField f x).rings = s.rings := rfl
@[simp] theorem State.setField_eqs : (s.setField f x).eqs = s.eqs := rfl
@[simp] theorem State.setField_errLost : (s.setField f x).errLost = s.errLost := rfl
@[simp] theorem State.setField_errHeld : (s.setField f x).errHeld = s.errHeld := rfl
@[simp] theorem State.setField_descs : (s.setField f x).descs = s.descs := rfl
@[simp] theorem State.setField_descSeq : (s.setField f x).descSeq = s.descSeq := rfl
@[simp] theorem State.setField_corr : (s.setField f x).corr = s.corr := rfl
@[simp] theorem State.setField_mirrored : (s.setField f x).mirrored = s.mirrored := rfl
@[simp] theorem State.setField_takeoverRings : (s.setField f x).takeoverRings = s.takeoverRings := rfl
@[simp] theorem State.setField_headWrites : (s.setField f x).headWrites = s.headWrites := rfl
@[simp] theorem State.setField_ctxFw : (s.setField f x).ctxFw = s.ctxFw := rfl
@[simp] theorem State.setField_hostObjs : (s.setField f x).hostObjs = s.hostObjs := rfl
@[simp] theorem State.setField_xferWaits : (s.setField f x).xferWaits = s.xferWaits := rfl
@[simp] theorem State.setField_chanWaits : (s.setField f x).chanWaits = s.chanWaits := rfl
@[simp] theorem State.setField_fwDone : (s.setField f x).fwDone = s.fwDone := rfl
@[simp] theorem State.setField_steps : (s.setField f x).steps = s.steps := rfl
@[simp] theorem State.setField_stepSeq : (s.setField f x).stepSeq = s.stepSeq := rfl
@[simp] theorem State.setField_capture : (s.setField f x).capture = s.capture := rfl
@[simp] theorem State.setField_captureWaits : (s.setField f x).captureWaits = s.captureWaits := rfl
@[simp] theorem State.setField_wfPage : (s.setField f x).wfPage = s.wfPage := rfl
@[simp] theorem State.setField_wfSeq : (s.setField f x).wfSeq = s.wfSeq := rfl
@[simp] theorem State.setField_banks : (s.setField f x).banks = s.banks := rfl
@[simp] theorem State.setField_bankPtr : (s.setField f x).bankPtr = s.bankPtr := rfl
@[simp] theorem State.setField_runSrv : (s.setField f x).runSrv = s.runSrv := rfl
@[simp] theorem State.setField_runFrs : (s.setField f x).runFrs = s.runFrs := rfl
@[simp] theorem State.setField_toRecovery : (s.setField f x).toRecovery = s.toRecovery := rfl
@[simp] theorem State.setField_bootFail : (s.setField f x).bootFail = s.bootFail := rfl
@[simp] theorem State.setField_repairMap : (s.setField f x).repairMap = s.repairMap := rfl
@[simp] theorem State.setField_repairOn : (s.setField f x).repairOn = s.repairOn := rfl
@[simp] theorem State.setField_power : (s.setField f x).power = s.power := rfl
@[simp] theorem State.setField_resp : (s.setField f x).resp = s.resp := rfl
@[simp] theorem State.setField_respHi : (s.setField f x).respHi = s.respHi := rfl
@[simp] theorem State.setField_clocks : (s.setField f x).clocks = s.clocks := rfl
@[simp] theorem State.setField_ctxQuar : (s.setField f x).ctxQuar = s.ctxQuar := rfl
@[simp] theorem State.setField_resQuar : (s.setField f x).resQuar = s.resQuar := rfl
@[simp] theorem State.setField_freeCtr : (s.setField f x).freeCtr = s.freeCtr := rfl
@[simp] theorem State.setField_pending : (s.setField f x).pending = s.pending := rfl
@[simp] theorem State.reg_setField (i : Nat) : (s.setField f x).reg i = s.reg i := rfl
@[simp] theorem State.core_setField (i : Nat) : (s.setField f x).core i = s.core i := rfl
@[simp] theorem State.gran_setField (i : Nat) : (s.setField f x).gran i = s.gran i := rfl
@[simp] theorem State.chan_setField (i j : Nat) : (s.setField f x).chan i j = s.chan i j := rfl
@[simp] theorem State.skq_setField (i : Nat) : (s.setField f x).skq i = s.skq i := rfl
@[simp] theorem State.bkr_setField (i : Nat) : (s.setField f x).bkr i = s.bkr i := rfl
@[simp] theorem State.port_setField (i : Nat) : (s.setField f x).port i = s.port i := rfl
@[simp] theorem State.root_setField (i : Nat) : (s.setField f x).root i = s.root i := rfl
@[simp] theorem State.fw_setField (i : Nat) : (s.setField f x).fw i = s.fw i := rfl
@[simp] theorem State.ringSt_setField (i : Nat) : (s.setField f x).ringSt i = s.ringSt i := rfl
@[simp] theorem State.eqSt_setField (i : Nat) : (s.setField f x).eqSt i = s.eqSt i := rfl

end

/-! ### setGran -/

section
variable (s : State) (a : Nat) (g : NmGran)

@[simp] theorem State.setGran_part : (s.setGran a g).part = s.part := rfl
@[simp] theorem State.setGran_regs : (s.setGran a g).regs = s.regs := rfl
@[simp] theorem State.setGran_cores : (s.setGran a g).cores = s.cores := rfl
@[simp] theorem State.setGran_fields : (s.setGran a g).fields = s.fields := rfl
@[simp] theorem State.setGran_chans : (s.setGran a g).chans = s.chans := rfl
@[simp] theorem State.setGran_skqs : (s.setGran a g).skqs = s.skqs := rfl
@[simp] theorem State.setGran_txns : (s.setGran a g).txns = s.txns := rfl
@[simp] theorem State.setGran_txnSeq : (s.setGran a g).txnSeq = s.txnSeq := rfl
@[simp] theorem State.setGran_waiters : (s.setGran a g).waiters = s.waiters := rfl
@[simp] theorem State.setGran_omapMarks : (s.setGran a g).omapMarks = s.omapMarks := rfl
@[simp] theorem State.setGran_bkrs : (s.setGran a g).bkrs = s.bkrs := rfl
@[simp] theorem State.setGran_notify : (s.setGran a g).notify = s.notify := rfl
@[simp] theorem State.setGran_arrivals : (s.setGran a g).arrivals = s.arrivals := rfl
@[simp] theorem State.setGran_straps : (s.setGran a g).straps = s.straps := rfl
@[simp] theorem State.setGran_hostSel : (s.setGran a g).hostSel = s.hostSel := rfl
@[simp] theorem State.setGran_ports : (s.setGran a g).ports = s.ports := rfl
@[simp] theorem State.setGran_heldReqs : (s.setGran a g).heldReqs = s.heldReqs := rfl
@[simp] theorem State.setGran_out : (s.setGran a g).out = s.out := rfl
@[simp] theorem State.setGran_tally : (s.setGran a g).tally = s.tally := rfl
@[simp] theorem State.setGran_talSupp : (s.setGran a g).talSupp = s.talSupp := rfl
@[simp] theorem State.setGran_talSeen : (s.setGran a g).talSeen = s.talSeen := rfl
@[simp] theorem State.setGran_boots : (s.setGran a g).boots = s.boots := rfl
@[simp] theorem State.setGran_windfall : (s.setGran a g).windfall = s.windfall := rfl
@[simp] theorem State.setGran_ctx : (s.setGran a g).ctx = s.ctx := rfl
@[simp] theorem State.setGran_res : (s.setGran a g).res = s.res := rfl
@[simp] theorem State.setGran_roots : (s.setGran a g).roots = s.roots := rfl
@[simp] theorem State.setGran_catalog : (s.setGran a g).catalog = s.catalog := rfl
@[simp] theorem State.setGran_resDest : (s.setGran a g).resDest = s.resDest := rfl
@[simp] theorem State.setGran_moves : (s.setGran a g).moves = s.moves := rfl
@[simp] theorem State.setGran_given : (s.setGran a g).given = s.given := rfl
@[simp] theorem State.setGran_rings : (s.setGran a g).rings = s.rings := rfl
@[simp] theorem State.setGran_eqs : (s.setGran a g).eqs = s.eqs := rfl
@[simp] theorem State.setGran_errLost : (s.setGran a g).errLost = s.errLost := rfl
@[simp] theorem State.setGran_errHeld : (s.setGran a g).errHeld = s.errHeld := rfl
@[simp] theorem State.setGran_descs : (s.setGran a g).descs = s.descs := rfl
@[simp] theorem State.setGran_descSeq : (s.setGran a g).descSeq = s.descSeq := rfl
@[simp] theorem State.setGran_corr : (s.setGran a g).corr = s.corr := rfl
@[simp] theorem State.setGran_mirrored : (s.setGran a g).mirrored = s.mirrored := rfl
@[simp] theorem State.setGran_takeoverRings : (s.setGran a g).takeoverRings = s.takeoverRings := rfl
@[simp] theorem State.setGran_headWrites : (s.setGran a g).headWrites = s.headWrites := rfl
@[simp] theorem State.setGran_ctxFw : (s.setGran a g).ctxFw = s.ctxFw := rfl
@[simp] theorem State.setGran_hostObjs : (s.setGran a g).hostObjs = s.hostObjs := rfl
@[simp] theorem State.setGran_xferWaits : (s.setGran a g).xferWaits = s.xferWaits := rfl
@[simp] theorem State.setGran_chanWaits : (s.setGran a g).chanWaits = s.chanWaits := rfl
@[simp] theorem State.setGran_fwDone : (s.setGran a g).fwDone = s.fwDone := rfl
@[simp] theorem State.setGran_steps : (s.setGran a g).steps = s.steps := rfl
@[simp] theorem State.setGran_stepSeq : (s.setGran a g).stepSeq = s.stepSeq := rfl
@[simp] theorem State.setGran_capture : (s.setGran a g).capture = s.capture := rfl
@[simp] theorem State.setGran_captureWaits : (s.setGran a g).captureWaits = s.captureWaits := rfl
@[simp] theorem State.setGran_wfPage : (s.setGran a g).wfPage = s.wfPage := rfl
@[simp] theorem State.setGran_wfSeq : (s.setGran a g).wfSeq = s.wfSeq := rfl
@[simp] theorem State.setGran_banks : (s.setGran a g).banks = s.banks := rfl
@[simp] theorem State.setGran_bankPtr : (s.setGran a g).bankPtr = s.bankPtr := rfl
@[simp] theorem State.setGran_runSrv : (s.setGran a g).runSrv = s.runSrv := rfl
@[simp] theorem State.setGran_runFrs : (s.setGran a g).runFrs = s.runFrs := rfl
@[simp] theorem State.setGran_toRecovery : (s.setGran a g).toRecovery = s.toRecovery := rfl
@[simp] theorem State.setGran_bootFail : (s.setGran a g).bootFail = s.bootFail := rfl
@[simp] theorem State.setGran_repairMap : (s.setGran a g).repairMap = s.repairMap := rfl
@[simp] theorem State.setGran_repairOn : (s.setGran a g).repairOn = s.repairOn := rfl
@[simp] theorem State.setGran_power : (s.setGran a g).power = s.power := rfl
@[simp] theorem State.setGran_resp : (s.setGran a g).resp = s.resp := rfl
@[simp] theorem State.setGran_respHi : (s.setGran a g).respHi = s.respHi := rfl
@[simp] theorem State.setGran_clocks : (s.setGran a g).clocks = s.clocks := rfl
@[simp] theorem State.setGran_ctxQuar : (s.setGran a g).ctxQuar = s.ctxQuar := rfl
@[simp] theorem State.setGran_resQuar : (s.setGran a g).resQuar = s.resQuar := rfl
@[simp] theorem State.setGran_freeCtr : (s.setGran a g).freeCtr = s.freeCtr := rfl
@[simp] theorem State.setGran_pending : (s.setGran a g).pending = s.pending := rfl
@[simp] theorem State.reg_setGran (i : Nat) : (s.setGran a g).reg i = s.reg i := rfl
@[simp] theorem State.core_setGran (i : Nat) : (s.setGran a g).core i = s.core i := rfl
@[simp] theorem State.field_setGran (i : Nat) : (s.setGran a g).field i = s.field i := rfl
@[simp] theorem State.chan_setGran (i j : Nat) : (s.setGran a g).chan i j = s.chan i j := rfl
@[simp] theorem State.skq_setGran (i : Nat) : (s.setGran a g).skq i = s.skq i := rfl
@[simp] theorem State.bkr_setGran (i : Nat) : (s.setGran a g).bkr i = s.bkr i := rfl
@[simp] theorem State.port_setGran (i : Nat) : (s.setGran a g).port i = s.port i := rfl
@[simp] theorem State.root_setGran (i : Nat) : (s.setGran a g).root i = s.root i := rfl
@[simp] theorem State.fw_setGran (i : Nat) : (s.setGran a g).fw i = s.fw i := rfl
@[simp] theorem State.ringSt_setGran (i : Nat) : (s.setGran a g).ringSt i = s.ringSt i := rfl
@[simp] theorem State.eqSt_setGran (i : Nat) : (s.setGran a g).eqSt i = s.eqSt i := rfl

end

/-! ### setChan -/

section
variable (s : State) (f k : Nat) (c : Chan)

@[simp] theorem State.setChan_part : (s.setChan f k c).part = s.part := rfl
@[simp] theorem State.setChan_regs : (s.setChan f k c).regs = s.regs := rfl
@[simp] theorem State.setChan_cores : (s.setChan f k c).cores = s.cores := rfl
@[simp] theorem State.setChan_fields : (s.setChan f k c).fields = s.fields := rfl
@[simp] theorem State.setChan_nm : (s.setChan f k c).nm = s.nm := rfl
@[simp] theorem State.setChan_nmWb : (s.setChan f k c).nmWb = s.nmWb := rfl
@[simp] theorem State.setChan_skqs : (s.setChan f k c).skqs = s.skqs := rfl
@[simp] theorem State.setChan_txns : (s.setChan f k c).txns = s.txns := rfl
@[simp] theorem State.setChan_txnSeq : (s.setChan f k c).txnSeq = s.txnSeq := rfl
@[simp] theorem State.setChan_waiters : (s.setChan f k c).waiters = s.waiters := rfl
@[simp] theorem State.setChan_omapMarks : (s.setChan f k c).omapMarks = s.omapMarks := rfl
@[simp] theorem State.setChan_bkrs : (s.setChan f k c).bkrs = s.bkrs := rfl
@[simp] theorem State.setChan_notify : (s.setChan f k c).notify = s.notify := rfl
@[simp] theorem State.setChan_arrivals : (s.setChan f k c).arrivals = s.arrivals := rfl
@[simp] theorem State.setChan_straps : (s.setChan f k c).straps = s.straps := rfl
@[simp] theorem State.setChan_hostSel : (s.setChan f k c).hostSel = s.hostSel := rfl
@[simp] theorem State.setChan_ports : (s.setChan f k c).ports = s.ports := rfl
@[simp] theorem State.setChan_heldReqs : (s.setChan f k c).heldReqs = s.heldReqs := rfl
@[simp] theorem State.setChan_out : (s.setChan f k c).out = s.out := rfl
@[simp] theorem State.setChan_tally : (s.setChan f k c).tally = s.tally := rfl
@[simp] theorem State.setChan_talSupp : (s.setChan f k c).talSupp = s.talSupp := rfl
@[simp] theorem State.setChan_talSeen : (s.setChan f k c).talSeen = s.talSeen := rfl
@[simp] theorem State.setChan_boots : (s.setChan f k c).boots = s.boots := rfl
@[simp] theorem State.setChan_windfall : (s.setChan f k c).windfall = s.windfall := rfl
@[simp] theorem State.setChan_ctx : (s.setChan f k c).ctx = s.ctx := rfl
@[simp] theorem State.setChan_res : (s.setChan f k c).res = s.res := rfl
@[simp] theorem State.setChan_roots : (s.setChan f k c).roots = s.roots := rfl
@[simp] theorem State.setChan_catalog : (s.setChan f k c).catalog = s.catalog := rfl
@[simp] theorem State.setChan_resDest : (s.setChan f k c).resDest = s.resDest := rfl
@[simp] theorem State.setChan_moves : (s.setChan f k c).moves = s.moves := rfl
@[simp] theorem State.setChan_given : (s.setChan f k c).given = s.given := rfl
@[simp] theorem State.setChan_rings : (s.setChan f k c).rings = s.rings := rfl
@[simp] theorem State.setChan_eqs : (s.setChan f k c).eqs = s.eqs := rfl
@[simp] theorem State.setChan_errLost : (s.setChan f k c).errLost = s.errLost := rfl
@[simp] theorem State.setChan_errHeld : (s.setChan f k c).errHeld = s.errHeld := rfl
@[simp] theorem State.setChan_descs : (s.setChan f k c).descs = s.descs := rfl
@[simp] theorem State.setChan_descSeq : (s.setChan f k c).descSeq = s.descSeq := rfl
@[simp] theorem State.setChan_corr : (s.setChan f k c).corr = s.corr := rfl
@[simp] theorem State.setChan_mirrored : (s.setChan f k c).mirrored = s.mirrored := rfl
@[simp] theorem State.setChan_takeoverRings : (s.setChan f k c).takeoverRings = s.takeoverRings := rfl
@[simp] theorem State.setChan_headWrites : (s.setChan f k c).headWrites = s.headWrites := rfl
@[simp] theorem State.setChan_ctxFw : (s.setChan f k c).ctxFw = s.ctxFw := rfl
@[simp] theorem State.setChan_hostObjs : (s.setChan f k c).hostObjs = s.hostObjs := rfl
@[simp] theorem State.setChan_xferWaits : (s.setChan f k c).xferWaits = s.xferWaits := rfl
@[simp] theorem State.setChan_chanWaits : (s.setChan f k c).chanWaits = s.chanWaits := rfl
@[simp] theorem State.setChan_fwDone : (s.setChan f k c).fwDone = s.fwDone := rfl
@[simp] theorem State.setChan_steps : (s.setChan f k c).steps = s.steps := rfl
@[simp] theorem State.setChan_stepSeq : (s.setChan f k c).stepSeq = s.stepSeq := rfl
@[simp] theorem State.setChan_capture : (s.setChan f k c).capture = s.capture := rfl
@[simp] theorem State.setChan_captureWaits : (s.setChan f k c).captureWaits = s.captureWaits := rfl
@[simp] theorem State.setChan_wfPage : (s.setChan f k c).wfPage = s.wfPage := rfl
@[simp] theorem State.setChan_wfSeq : (s.setChan f k c).wfSeq = s.wfSeq := rfl
@[simp] theorem State.setChan_banks : (s.setChan f k c).banks = s.banks := rfl
@[simp] theorem State.setChan_bankPtr : (s.setChan f k c).bankPtr = s.bankPtr := rfl
@[simp] theorem State.setChan_runSrv : (s.setChan f k c).runSrv = s.runSrv := rfl
@[simp] theorem State.setChan_runFrs : (s.setChan f k c).runFrs = s.runFrs := rfl
@[simp] theorem State.setChan_toRecovery : (s.setChan f k c).toRecovery = s.toRecovery := rfl
@[simp] theorem State.setChan_bootFail : (s.setChan f k c).bootFail = s.bootFail := rfl
@[simp] theorem State.setChan_repairMap : (s.setChan f k c).repairMap = s.repairMap := rfl
@[simp] theorem State.setChan_repairOn : (s.setChan f k c).repairOn = s.repairOn := rfl
@[simp] theorem State.setChan_power : (s.setChan f k c).power = s.power := rfl
@[simp] theorem State.setChan_resp : (s.setChan f k c).resp = s.resp := rfl
@[simp] theorem State.setChan_respHi : (s.setChan f k c).respHi = s.respHi := rfl
@[simp] theorem State.setChan_clocks : (s.setChan f k c).clocks = s.clocks := rfl
@[simp] theorem State.setChan_ctxQuar : (s.setChan f k c).ctxQuar = s.ctxQuar := rfl
@[simp] theorem State.setChan_resQuar : (s.setChan f k c).resQuar = s.resQuar := rfl
@[simp] theorem State.setChan_freeCtr : (s.setChan f k c).freeCtr = s.freeCtr := rfl
@[simp] theorem State.setChan_pending : (s.setChan f k c).pending = s.pending := rfl
@[simp] theorem State.reg_setChan (i : Nat) : (s.setChan f k c).reg i = s.reg i := rfl
@[simp] theorem State.core_setChan (i : Nat) : (s.setChan f k c).core i = s.core i := rfl
@[simp] theorem State.field_setChan (i : Nat) : (s.setChan f k c).field i = s.field i := rfl
@[simp] theorem State.gran_setChan (i : Nat) : (s.setChan f k c).gran i = s.gran i := rfl
@[simp] theorem State.skq_setChan (i : Nat) : (s.setChan f k c).skq i = s.skq i := rfl
@[simp] theorem State.bkr_setChan (i : Nat) : (s.setChan f k c).bkr i = s.bkr i := rfl
@[simp] theorem State.port_setChan (i : Nat) : (s.setChan f k c).port i = s.port i := rfl
@[simp] theorem State.root_setChan (i : Nat) : (s.setChan f k c).root i = s.root i := rfl
@[simp] theorem State.fw_setChan (i : Nat) : (s.setChan f k c).fw i = s.fw i := rfl
@[simp] theorem State.ringSt_setChan (i : Nat) : (s.setChan f k c).ringSt i = s.ringSt i := rfl
@[simp] theorem State.eqSt_setChan (i : Nat) : (s.setChan f k c).eqSt i = s.eqSt i := rfl

end

/-! ### setSkq -/

section
variable (s : State) (n : Nat) (l : List SkqEntry)

@[simp] theorem State.setSkq_part : (s.setSkq n l).part = s.part := rfl
@[simp] theorem State.setSkq_regs : (s.setSkq n l).regs = s.regs := rfl
@[simp] theorem State.setSkq_cores : (s.setSkq n l).cores = s.cores := rfl
@[simp] theorem State.setSkq_fields : (s.setSkq n l).fields = s.fields := rfl
@[simp] theorem State.setSkq_nm : (s.setSkq n l).nm = s.nm := rfl
@[simp] theorem State.setSkq_nmWb : (s.setSkq n l).nmWb = s.nmWb := rfl
@[simp] theorem State.setSkq_chans : (s.setSkq n l).chans = s.chans := rfl
@[simp] theorem State.setSkq_txns : (s.setSkq n l).txns = s.txns := rfl
@[simp] theorem State.setSkq_txnSeq : (s.setSkq n l).txnSeq = s.txnSeq := rfl
@[simp] theorem State.setSkq_waiters : (s.setSkq n l).waiters = s.waiters := rfl
@[simp] theorem State.setSkq_omapMarks : (s.setSkq n l).omapMarks = s.omapMarks := rfl
@[simp] theorem State.setSkq_bkrs : (s.setSkq n l).bkrs = s.bkrs := rfl
@[simp] theorem State.setSkq_notify : (s.setSkq n l).notify = s.notify := rfl
@[simp] theorem State.setSkq_arrivals : (s.setSkq n l).arrivals = s.arrivals := rfl
@[simp] theorem State.setSkq_straps : (s.setSkq n l).straps = s.straps := rfl
@[simp] theorem State.setSkq_hostSel : (s.setSkq n l).hostSel = s.hostSel := rfl
@[simp] theorem State.setSkq_ports : (s.setSkq n l).ports = s.ports := rfl
@[simp] theorem State.setSkq_heldReqs : (s.setSkq n l).heldReqs = s.heldReqs := rfl
@[simp] theorem State.setSkq_out : (s.setSkq n l).out = s.out := rfl
@[simp] theorem State.setSkq_tally : (s.setSkq n l).tally = s.tally := rfl
@[simp] theorem State.setSkq_talSupp : (s.setSkq n l).talSupp = s.talSupp := rfl
@[simp] theorem State.setSkq_talSeen : (s.setSkq n l).talSeen = s.talSeen := rfl
@[simp] theorem State.setSkq_boots : (s.setSkq n l).boots = s.boots := rfl
@[simp] theorem State.setSkq_windfall : (s.setSkq n l).windfall = s.windfall := rfl
@[simp] theorem State.setSkq_ctx : (s.setSkq n l).ctx = s.ctx := rfl
@[simp] theorem State.setSkq_res : (s.setSkq n l).res = s.res := rfl
@[simp] theorem State.setSkq_roots : (s.setSkq n l).roots = s.roots := rfl
@[simp] theorem State.setSkq_catalog : (s.setSkq n l).catalog = s.catalog := rfl
@[simp] theorem State.setSkq_resDest : (s.setSkq n l).resDest = s.resDest := rfl
@[simp] theorem State.setSkq_moves : (s.setSkq n l).moves = s.moves := rfl
@[simp] theorem State.setSkq_given : (s.setSkq n l).given = s.given := rfl
@[simp] theorem State.setSkq_rings : (s.setSkq n l).rings = s.rings := rfl
@[simp] theorem State.setSkq_eqs : (s.setSkq n l).eqs = s.eqs := rfl
@[simp] theorem State.setSkq_errLost : (s.setSkq n l).errLost = s.errLost := rfl
@[simp] theorem State.setSkq_errHeld : (s.setSkq n l).errHeld = s.errHeld := rfl
@[simp] theorem State.setSkq_descs : (s.setSkq n l).descs = s.descs := rfl
@[simp] theorem State.setSkq_descSeq : (s.setSkq n l).descSeq = s.descSeq := rfl
@[simp] theorem State.setSkq_corr : (s.setSkq n l).corr = s.corr := rfl
@[simp] theorem State.setSkq_mirrored : (s.setSkq n l).mirrored = s.mirrored := rfl
@[simp] theorem State.setSkq_takeoverRings : (s.setSkq n l).takeoverRings = s.takeoverRings := rfl
@[simp] theorem State.setSkq_headWrites : (s.setSkq n l).headWrites = s.headWrites := rfl
@[simp] theorem State.setSkq_ctxFw : (s.setSkq n l).ctxFw = s.ctxFw := rfl
@[simp] theorem State.setSkq_hostObjs : (s.setSkq n l).hostObjs = s.hostObjs := rfl
@[simp] theorem State.setSkq_xferWaits : (s.setSkq n l).xferWaits = s.xferWaits := rfl
@[simp] theorem State.setSkq_chanWaits : (s.setSkq n l).chanWaits = s.chanWaits := rfl
@[simp] theorem State.setSkq_fwDone : (s.setSkq n l).fwDone = s.fwDone := rfl
@[simp] theorem State.setSkq_steps : (s.setSkq n l).steps = s.steps := rfl
@[simp] theorem State.setSkq_stepSeq : (s.setSkq n l).stepSeq = s.stepSeq := rfl
@[simp] theorem State.setSkq_capture : (s.setSkq n l).capture = s.capture := rfl
@[simp] theorem State.setSkq_captureWaits : (s.setSkq n l).captureWaits = s.captureWaits := rfl
@[simp] theorem State.setSkq_wfPage : (s.setSkq n l).wfPage = s.wfPage := rfl
@[simp] theorem State.setSkq_wfSeq : (s.setSkq n l).wfSeq = s.wfSeq := rfl
@[simp] theorem State.setSkq_banks : (s.setSkq n l).banks = s.banks := rfl
@[simp] theorem State.setSkq_bankPtr : (s.setSkq n l).bankPtr = s.bankPtr := rfl
@[simp] theorem State.setSkq_runSrv : (s.setSkq n l).runSrv = s.runSrv := rfl
@[simp] theorem State.setSkq_runFrs : (s.setSkq n l).runFrs = s.runFrs := rfl
@[simp] theorem State.setSkq_toRecovery : (s.setSkq n l).toRecovery = s.toRecovery := rfl
@[simp] theorem State.setSkq_bootFail : (s.setSkq n l).bootFail = s.bootFail := rfl
@[simp] theorem State.setSkq_repairMap : (s.setSkq n l).repairMap = s.repairMap := rfl
@[simp] theorem State.setSkq_repairOn : (s.setSkq n l).repairOn = s.repairOn := rfl
@[simp] theorem State.setSkq_power : (s.setSkq n l).power = s.power := rfl
@[simp] theorem State.setSkq_resp : (s.setSkq n l).resp = s.resp := rfl
@[simp] theorem State.setSkq_respHi : (s.setSkq n l).respHi = s.respHi := rfl
@[simp] theorem State.setSkq_clocks : (s.setSkq n l).clocks = s.clocks := rfl
@[simp] theorem State.setSkq_ctxQuar : (s.setSkq n l).ctxQuar = s.ctxQuar := rfl
@[simp] theorem State.setSkq_resQuar : (s.setSkq n l).resQuar = s.resQuar := rfl
@[simp] theorem State.setSkq_freeCtr : (s.setSkq n l).freeCtr = s.freeCtr := rfl
@[simp] theorem State.setSkq_pending : (s.setSkq n l).pending = s.pending := rfl
@[simp] theorem State.reg_setSkq (i : Nat) : (s.setSkq n l).reg i = s.reg i := rfl
@[simp] theorem State.core_setSkq (i : Nat) : (s.setSkq n l).core i = s.core i := rfl
@[simp] theorem State.field_setSkq (i : Nat) : (s.setSkq n l).field i = s.field i := rfl
@[simp] theorem State.gran_setSkq (i : Nat) : (s.setSkq n l).gran i = s.gran i := rfl
@[simp] theorem State.chan_setSkq (i j : Nat) : (s.setSkq n l).chan i j = s.chan i j := rfl
@[simp] theorem State.bkr_setSkq (i : Nat) : (s.setSkq n l).bkr i = s.bkr i := rfl
@[simp] theorem State.port_setSkq (i : Nat) : (s.setSkq n l).port i = s.port i := rfl
@[simp] theorem State.root_setSkq (i : Nat) : (s.setSkq n l).root i = s.root i := rfl
@[simp] theorem State.fw_setSkq (i : Nat) : (s.setSkq n l).fw i = s.fw i := rfl
@[simp] theorem State.ringSt_setSkq (i : Nat) : (s.setSkq n l).ringSt i = s.ringSt i := rfl
@[simp] theorem State.eqSt_setSkq (i : Nat) : (s.setSkq n l).eqSt i = s.eqSt i := rfl

end

/-! ### setBkr -/

section
variable (s : State) (f : Nat) (b : Bkr)

@[simp] theorem State.setBkr_part : (s.setBkr f b).part = s.part := rfl
@[simp] theorem State.setBkr_regs : (s.setBkr f b).regs = s.regs := rfl
@[simp] theorem State.setBkr_cores : (s.setBkr f b).cores = s.cores := rfl
@[simp] theorem State.setBkr_fields : (s.setBkr f b).fields = s.fields := rfl
@[simp] theorem State.setBkr_nm : (s.setBkr f b).nm = s.nm := rfl
@[simp] theorem State.setBkr_nmWb : (s.setBkr f b).nmWb = s.nmWb := rfl
@[simp] theorem State.setBkr_chans : (s.setBkr f b).chans = s.chans := rfl
@[simp] theorem State.setBkr_skqs : (s.setBkr f b).skqs = s.skqs := rfl
@[simp] theorem State.setBkr_txns : (s.setBkr f b).txns = s.txns := rfl
@[simp] theorem State.setBkr_txnSeq : (s.setBkr f b).txnSeq = s.txnSeq := rfl
@[simp] theorem State.setBkr_waiters : (s.setBkr f b).waiters = s.waiters := rfl
@[simp] theorem State.setBkr_omapMarks : (s.setBkr f b).omapMarks = s.omapMarks := rfl
@[simp] theorem State.setBkr_notify : (s.setBkr f b).notify = s.notify := rfl
@[simp] theorem State.setBkr_arrivals : (s.setBkr f b).arrivals = s.arrivals := rfl
@[simp] theorem State.setBkr_straps : (s.setBkr f b).straps = s.straps := rfl
@[simp] theorem State.setBkr_hostSel : (s.setBkr f b).hostSel = s.hostSel := rfl
@[simp] theorem State.setBkr_ports : (s.setBkr f b).ports = s.ports := rfl
@[simp] theorem State.setBkr_heldReqs : (s.setBkr f b).heldReqs = s.heldReqs := rfl
@[simp] theorem State.setBkr_out : (s.setBkr f b).out = s.out := rfl
@[simp] theorem State.setBkr_tally : (s.setBkr f b).tally = s.tally := rfl
@[simp] theorem State.setBkr_talSupp : (s.setBkr f b).talSupp = s.talSupp := rfl
@[simp] theorem State.setBkr_talSeen : (s.setBkr f b).talSeen = s.talSeen := rfl
@[simp] theorem State.setBkr_boots : (s.setBkr f b).boots = s.boots := rfl
@[simp] theorem State.setBkr_windfall : (s.setBkr f b).windfall = s.windfall := rfl
@[simp] theorem State.setBkr_ctx : (s.setBkr f b).ctx = s.ctx := rfl
@[simp] theorem State.setBkr_res : (s.setBkr f b).res = s.res := rfl
@[simp] theorem State.setBkr_roots : (s.setBkr f b).roots = s.roots := rfl
@[simp] theorem State.setBkr_catalog : (s.setBkr f b).catalog = s.catalog := rfl
@[simp] theorem State.setBkr_resDest : (s.setBkr f b).resDest = s.resDest := rfl
@[simp] theorem State.setBkr_moves : (s.setBkr f b).moves = s.moves := rfl
@[simp] theorem State.setBkr_given : (s.setBkr f b).given = s.given := rfl
@[simp] theorem State.setBkr_rings : (s.setBkr f b).rings = s.rings := rfl
@[simp] theorem State.setBkr_eqs : (s.setBkr f b).eqs = s.eqs := rfl
@[simp] theorem State.setBkr_errLost : (s.setBkr f b).errLost = s.errLost := rfl
@[simp] theorem State.setBkr_errHeld : (s.setBkr f b).errHeld = s.errHeld := rfl
@[simp] theorem State.setBkr_descs : (s.setBkr f b).descs = s.descs := rfl
@[simp] theorem State.setBkr_descSeq : (s.setBkr f b).descSeq = s.descSeq := rfl
@[simp] theorem State.setBkr_corr : (s.setBkr f b).corr = s.corr := rfl
@[simp] theorem State.setBkr_mirrored : (s.setBkr f b).mirrored = s.mirrored := rfl
@[simp] theorem State.setBkr_takeoverRings : (s.setBkr f b).takeoverRings = s.takeoverRings := rfl
@[simp] theorem State.setBkr_headWrites : (s.setBkr f b).headWrites = s.headWrites := rfl
@[simp] theorem State.setBkr_ctxFw : (s.setBkr f b).ctxFw = s.ctxFw := rfl
@[simp] theorem State.setBkr_hostObjs : (s.setBkr f b).hostObjs = s.hostObjs := rfl
@[simp] theorem State.setBkr_xferWaits : (s.setBkr f b).xferWaits = s.xferWaits := rfl
@[simp] theorem State.setBkr_chanWaits : (s.setBkr f b).chanWaits = s.chanWaits := rfl
@[simp] theorem State.setBkr_fwDone : (s.setBkr f b).fwDone = s.fwDone := rfl
@[simp] theorem State.setBkr_steps : (s.setBkr f b).steps = s.steps := rfl
@[simp] theorem State.setBkr_stepSeq : (s.setBkr f b).stepSeq = s.stepSeq := rfl
@[simp] theorem State.setBkr_capture : (s.setBkr f b).capture = s.capture := rfl
@[simp] theorem State.setBkr_captureWaits : (s.setBkr f b).captureWaits = s.captureWaits := rfl
@[simp] theorem State.setBkr_wfPage : (s.setBkr f b).wfPage = s.wfPage := rfl
@[simp] theorem State.setBkr_wfSeq : (s.setBkr f b).wfSeq = s.wfSeq := rfl
@[simp] theorem State.setBkr_banks : (s.setBkr f b).banks = s.banks := rfl
@[simp] theorem State.setBkr_bankPtr : (s.setBkr f b).bankPtr = s.bankPtr := rfl
@[simp] theorem State.setBkr_runSrv : (s.setBkr f b).runSrv = s.runSrv := rfl
@[simp] theorem State.setBkr_runFrs : (s.setBkr f b).runFrs = s.runFrs := rfl
@[simp] theorem State.setBkr_toRecovery : (s.setBkr f b).toRecovery = s.toRecovery := rfl
@[simp] theorem State.setBkr_bootFail : (s.setBkr f b).bootFail = s.bootFail := rfl
@[simp] theorem State.setBkr_repairMap : (s.setBkr f b).repairMap = s.repairMap := rfl
@[simp] theorem State.setBkr_repairOn : (s.setBkr f b).repairOn = s.repairOn := rfl
@[simp] theorem State.setBkr_power : (s.setBkr f b).power = s.power := rfl
@[simp] theorem State.setBkr_resp : (s.setBkr f b).resp = s.resp := rfl
@[simp] theorem State.setBkr_respHi : (s.setBkr f b).respHi = s.respHi := rfl
@[simp] theorem State.setBkr_clocks : (s.setBkr f b).clocks = s.clocks := rfl
@[simp] theorem State.setBkr_ctxQuar : (s.setBkr f b).ctxQuar = s.ctxQuar := rfl
@[simp] theorem State.setBkr_resQuar : (s.setBkr f b).resQuar = s.resQuar := rfl
@[simp] theorem State.setBkr_freeCtr : (s.setBkr f b).freeCtr = s.freeCtr := rfl
@[simp] theorem State.setBkr_pending : (s.setBkr f b).pending = s.pending := rfl
@[simp] theorem State.reg_setBkr (i : Nat) : (s.setBkr f b).reg i = s.reg i := rfl
@[simp] theorem State.core_setBkr (i : Nat) : (s.setBkr f b).core i = s.core i := rfl
@[simp] theorem State.field_setBkr (i : Nat) : (s.setBkr f b).field i = s.field i := rfl
@[simp] theorem State.gran_setBkr (i : Nat) : (s.setBkr f b).gran i = s.gran i := rfl
@[simp] theorem State.chan_setBkr (i j : Nat) : (s.setBkr f b).chan i j = s.chan i j := rfl
@[simp] theorem State.skq_setBkr (i : Nat) : (s.setBkr f b).skq i = s.skq i := rfl
@[simp] theorem State.port_setBkr (i : Nat) : (s.setBkr f b).port i = s.port i := rfl
@[simp] theorem State.root_setBkr (i : Nat) : (s.setBkr f b).root i = s.root i := rfl
@[simp] theorem State.fw_setBkr (i : Nat) : (s.setBkr f b).fw i = s.fw i := rfl
@[simp] theorem State.ringSt_setBkr (i : Nat) : (s.setBkr f b).ringSt i = s.ringSt i := rfl
@[simp] theorem State.eqSt_setBkr (i : Nat) : (s.setBkr f b).eqSt i = s.eqSt i := rfl

end

/-! ### setPort -/

section
variable (s : State) (p : Nat) (x : Port)

@[simp] theorem State.setPort_part : (s.setPort p x).part = s.part := rfl
@[simp] theorem State.setPort_regs : (s.setPort p x).regs = s.regs := rfl
@[simp] theorem State.setPort_cores : (s.setPort p x).cores = s.cores := rfl
@[simp] theorem State.setPort_fields : (s.setPort p x).fields = s.fields := rfl
@[simp] theorem State.setPort_nm : (s.setPort p x).nm = s.nm := rfl
@[simp] theorem State.setPort_nmWb : (s.setPort p x).nmWb = s.nmWb := rfl
@[simp] theorem State.setPort_chans : (s.setPort p x).chans = s.chans := rfl
@[simp] theorem State.setPort_skqs : (s.setPort p x).skqs = s.skqs := rfl
@[simp] theorem State.setPort_txns : (s.setPort p x).txns = s.txns := rfl
@[simp] theorem State.setPort_txnSeq : (s.setPort p x).txnSeq = s.txnSeq := rfl
@[simp] theorem State.setPort_waiters : (s.setPort p x).waiters = s.waiters := rfl
@[simp] theorem State.setPort_omapMarks : (s.setPort p x).omapMarks = s.omapMarks := rfl
@[simp] theorem State.setPort_bkrs : (s.setPort p x).bkrs = s.bkrs := rfl
@[simp] theorem State.setPort_notify : (s.setPort p x).notify = s.notify := rfl
@[simp] theorem State.setPort_arrivals : (s.setPort p x).arrivals = s.arrivals := rfl
@[simp] theorem State.setPort_straps : (s.setPort p x).straps = s.straps := rfl
@[simp] theorem State.setPort_hostSel : (s.setPort p x).hostSel = s.hostSel := rfl
@[simp] theorem State.setPort_heldReqs : (s.setPort p x).heldReqs = s.heldReqs := rfl
@[simp] theorem State.setPort_out : (s.setPort p x).out = s.out := rfl
@[simp] theorem State.setPort_tally : (s.setPort p x).tally = s.tally := rfl
@[simp] theorem State.setPort_talSupp : (s.setPort p x).talSupp = s.talSupp := rfl
@[simp] theorem State.setPort_talSeen : (s.setPort p x).talSeen = s.talSeen := rfl
@[simp] theorem State.setPort_boots : (s.setPort p x).boots = s.boots := rfl
@[simp] theorem State.setPort_windfall : (s.setPort p x).windfall = s.windfall := rfl
@[simp] theorem State.setPort_ctx : (s.setPort p x).ctx = s.ctx := rfl
@[simp] theorem State.setPort_res : (s.setPort p x).res = s.res := rfl
@[simp] theorem State.setPort_roots : (s.setPort p x).roots = s.roots := rfl
@[simp] theorem State.setPort_catalog : (s.setPort p x).catalog = s.catalog := rfl
@[simp] theorem State.setPort_resDest : (s.setPort p x).resDest = s.resDest := rfl
@[simp] theorem State.setPort_moves : (s.setPort p x).moves = s.moves := rfl
@[simp] theorem State.setPort_given : (s.setPort p x).given = s.given := rfl
@[simp] theorem State.setPort_rings : (s.setPort p x).rings = s.rings := rfl
@[simp] theorem State.setPort_eqs : (s.setPort p x).eqs = s.eqs := rfl
@[simp] theorem State.setPort_errLost : (s.setPort p x).errLost = s.errLost := rfl
@[simp] theorem State.setPort_errHeld : (s.setPort p x).errHeld = s.errHeld := rfl
@[simp] theorem State.setPort_descs : (s.setPort p x).descs = s.descs := rfl
@[simp] theorem State.setPort_descSeq : (s.setPort p x).descSeq = s.descSeq := rfl
@[simp] theorem State.setPort_corr : (s.setPort p x).corr = s.corr := rfl
@[simp] theorem State.setPort_mirrored : (s.setPort p x).mirrored = s.mirrored := rfl
@[simp] theorem State.setPort_takeoverRings : (s.setPort p x).takeoverRings = s.takeoverRings := rfl
@[simp] theorem State.setPort_headWrites : (s.setPort p x).headWrites = s.headWrites := rfl
@[simp] theorem State.setPort_ctxFw : (s.setPort p x).ctxFw = s.ctxFw := rfl
@[simp] theorem State.setPort_hostObjs : (s.setPort p x).hostObjs = s.hostObjs := rfl
@[simp] theorem State.setPort_xferWaits : (s.setPort p x).xferWaits = s.xferWaits := rfl
@[simp] theorem State.setPort_chanWaits : (s.setPort p x).chanWaits = s.chanWaits := rfl
@[simp] theorem State.setPort_fwDone : (s.setPort p x).fwDone = s.fwDone := rfl
@[simp] theorem State.setPort_steps : (s.setPort p x).steps = s.steps := rfl
@[simp] theorem State.setPort_stepSeq : (s.setPort p x).stepSeq = s.stepSeq := rfl
@[simp] theorem State.setPort_capture : (s.setPort p x).capture = s.capture := rfl
@[simp] theorem State.setPort_captureWaits : (s.setPort p x).captureWaits = s.captureWaits := rfl
@[simp] theorem State.setPort_wfPage : (s.setPort p x).wfPage = s.wfPage := rfl
@[simp] theorem State.setPort_wfSeq : (s.setPort p x).wfSeq = s.wfSeq := rfl
@[simp] theorem State.setPort_banks : (s.setPort p x).banks = s.banks := rfl
@[simp] theorem State.setPort_bankPtr : (s.setPort p x).bankPtr = s.bankPtr := rfl
@[simp] theorem State.setPort_runSrv : (s.setPort p x).runSrv = s.runSrv := rfl
@[simp] theorem State.setPort_runFrs : (s.setPort p x).runFrs = s.runFrs := rfl
@[simp] theorem State.setPort_toRecovery : (s.setPort p x).toRecovery = s.toRecovery := rfl
@[simp] theorem State.setPort_bootFail : (s.setPort p x).bootFail = s.bootFail := rfl
@[simp] theorem State.setPort_repairMap : (s.setPort p x).repairMap = s.repairMap := rfl
@[simp] theorem State.setPort_repairOn : (s.setPort p x).repairOn = s.repairOn := rfl
@[simp] theorem State.setPort_power : (s.setPort p x).power = s.power := rfl
@[simp] theorem State.setPort_resp : (s.setPort p x).resp = s.resp := rfl
@[simp] theorem State.setPort_respHi : (s.setPort p x).respHi = s.respHi := rfl
@[simp] theorem State.setPort_clocks : (s.setPort p x).clocks = s.clocks := rfl
@[simp] theorem State.setPort_ctxQuar : (s.setPort p x).ctxQuar = s.ctxQuar := rfl
@[simp] theorem State.setPort_resQuar : (s.setPort p x).resQuar = s.resQuar := rfl
@[simp] theorem State.setPort_freeCtr : (s.setPort p x).freeCtr = s.freeCtr := rfl
@[simp] theorem State.setPort_pending : (s.setPort p x).pending = s.pending := rfl
@[simp] theorem State.reg_setPort (i : Nat) : (s.setPort p x).reg i = s.reg i := rfl
@[simp] theorem State.core_setPort (i : Nat) : (s.setPort p x).core i = s.core i := rfl
@[simp] theorem State.field_setPort (i : Nat) : (s.setPort p x).field i = s.field i := rfl
@[simp] theorem State.gran_setPort (i : Nat) : (s.setPort p x).gran i = s.gran i := rfl
@[simp] theorem State.chan_setPort (i j : Nat) : (s.setPort p x).chan i j = s.chan i j := rfl
@[simp] theorem State.skq_setPort (i : Nat) : (s.setPort p x).skq i = s.skq i := rfl
@[simp] theorem State.bkr_setPort (i : Nat) : (s.setPort p x).bkr i = s.bkr i := rfl
@[simp] theorem State.root_setPort (i : Nat) : (s.setPort p x).root i = s.root i := rfl
@[simp] theorem State.fw_setPort (i : Nat) : (s.setPort p x).fw i = s.fw i := rfl
@[simp] theorem State.ringSt_setPort (i : Nat) : (s.setPort p x).ringSt i = s.ringSt i := rfl
@[simp] theorem State.eqSt_setPort (i : Nat) : (s.setPort p x).eqSt i = s.eqSt i := rfl

end

/-! ### setRoot -/

section
variable (s : State) (r : Nat) (x : Root)

/-- A root's change touches the roots and the catalogue alone. -/
theorem State.setRoot_eq : s.setRoot r x = { s with roots := s.roots.setIfInBounds r x, catalog := (s.setRoot r x).catalog } := by
  simp only [State.setRoot, catWrite]
  split
  · rfl
  · split <;> rfl

@[simp] theorem State.setRoot_part : (s.setRoot r x).part = s.part := by rw [State.setRoot_eq]
@[simp] theorem State.setRoot_regs : (s.setRoot r x).regs = s.regs := by rw [State.setRoot_eq]
@[simp] theorem State.setRoot_cores : (s.setRoot r x).cores = s.cores := by rw [State.setRoot_eq]
@[simp] theorem State.setRoot_fields : (s.setRoot r x).fields = s.fields := by rw [State.setRoot_eq]
@[simp] theorem State.setRoot_nm : (s.setRoot r x).nm = s.nm := by rw [State.setRoot_eq]
@[simp] theorem State.setRoot_nmWb : (s.setRoot r x).nmWb = s.nmWb := by rw [State.setRoot_eq]
@[simp] theorem State.setRoot_chans : (s.setRoot r x).chans = s.chans := by rw [State.setRoot_eq]
@[simp] theorem State.setRoot_skqs : (s.setRoot r x).skqs = s.skqs := by rw [State.setRoot_eq]
@[simp] theorem State.setRoot_txns : (s.setRoot r x).txns = s.txns := by rw [State.setRoot_eq]
@[simp] theorem State.setRoot_txnSeq : (s.setRoot r x).txnSeq = s.txnSeq := by rw [State.setRoot_eq]
@[simp] theorem State.setRoot_waiters : (s.setRoot r x).waiters = s.waiters := by rw [State.setRoot_eq]
@[simp] theorem State.setRoot_omapMarks : (s.setRoot r x).omapMarks = s.omapMarks := by rw [State.setRoot_eq]
@[simp] theorem State.setRoot_bkrs : (s.setRoot r x).bkrs = s.bkrs := by rw [State.setRoot_eq]
@[simp] theorem State.setRoot_notify : (s.setRoot r x).notify = s.notify := by rw [State.setRoot_eq]
@[simp] theorem State.setRoot_arrivals : (s.setRoot r x).arrivals = s.arrivals := by rw [State.setRoot_eq]
@[simp] theorem State.setRoot_straps : (s.setRoot r x).straps = s.straps := by rw [State.setRoot_eq]
@[simp] theorem State.setRoot_hostSel : (s.setRoot r x).hostSel = s.hostSel := by rw [State.setRoot_eq]
@[simp] theorem State.setRoot_ports : (s.setRoot r x).ports = s.ports := by rw [State.setRoot_eq]
@[simp] theorem State.setRoot_heldReqs : (s.setRoot r x).heldReqs = s.heldReqs := by rw [State.setRoot_eq]
@[simp] theorem State.setRoot_out : (s.setRoot r x).out = s.out := by rw [State.setRoot_eq]
@[simp] theorem State.setRoot_tally : (s.setRoot r x).tally = s.tally := by rw [State.setRoot_eq]
@[simp] theorem State.setRoot_talSupp : (s.setRoot r x).talSupp = s.talSupp := by rw [State.setRoot_eq]
@[simp] theorem State.setRoot_talSeen : (s.setRoot r x).talSeen = s.talSeen := by rw [State.setRoot_eq]
@[simp] theorem State.setRoot_boots : (s.setRoot r x).boots = s.boots := by rw [State.setRoot_eq]
@[simp] theorem State.setRoot_windfall : (s.setRoot r x).windfall = s.windfall := by rw [State.setRoot_eq]
@[simp] theorem State.setRoot_ctx : (s.setRoot r x).ctx = s.ctx := by rw [State.setRoot_eq]
@[simp] theorem State.setRoot_res : (s.setRoot r x).res = s.res := by rw [State.setRoot_eq]
@[simp] theorem State.setRoot_resDest : (s.setRoot r x).resDest = s.resDest := by rw [State.setRoot_eq]
@[simp] theorem State.setRoot_moves : (s.setRoot r x).moves = s.moves := by rw [State.setRoot_eq]
@[simp] theorem State.setRoot_given : (s.setRoot r x).given = s.given := by rw [State.setRoot_eq]
@[simp] theorem State.setRoot_rings : (s.setRoot r x).rings = s.rings := by rw [State.setRoot_eq]
@[simp] theorem State.setRoot_eqs : (s.setRoot r x).eqs = s.eqs := by rw [State.setRoot_eq]
@[simp] theorem State.setRoot_errLost : (s.setRoot r x).errLost = s.errLost := by rw [State.setRoot_eq]
@[simp] theorem State.setRoot_errHeld : (s.setRoot r x).errHeld = s.errHeld := by rw [State.setRoot_eq]
@[simp] theorem State.setRoot_descs : (s.setRoot r x).descs = s.descs := by rw [State.setRoot_eq]
@[simp] theorem State.setRoot_descSeq : (s.setRoot r x).descSeq = s.descSeq := by rw [State.setRoot_eq]
@[simp] theorem State.setRoot_corr : (s.setRoot r x).corr = s.corr := by rw [State.setRoot_eq]
@[simp] theorem State.setRoot_mirrored : (s.setRoot r x).mirrored = s.mirrored := by rw [State.setRoot_eq]
@[simp] theorem State.setRoot_takeoverRings : (s.setRoot r x).takeoverRings = s.takeoverRings := by rw [State.setRoot_eq]
@[simp] theorem State.setRoot_headWrites : (s.setRoot r x).headWrites = s.headWrites := by rw [State.setRoot_eq]
@[simp] theorem State.setRoot_ctxFw : (s.setRoot r x).ctxFw = s.ctxFw := by rw [State.setRoot_eq]
@[simp] theorem State.setRoot_hostObjs : (s.setRoot r x).hostObjs = s.hostObjs := by rw [State.setRoot_eq]
@[simp] theorem State.setRoot_xferWaits : (s.setRoot r x).xferWaits = s.xferWaits := by rw [State.setRoot_eq]
@[simp] theorem State.setRoot_chanWaits : (s.setRoot r x).chanWaits = s.chanWaits := by rw [State.setRoot_eq]
@[simp] theorem State.setRoot_fwDone : (s.setRoot r x).fwDone = s.fwDone := by rw [State.setRoot_eq]
@[simp] theorem State.setRoot_steps : (s.setRoot r x).steps = s.steps := by rw [State.setRoot_eq]
@[simp] theorem State.setRoot_stepSeq : (s.setRoot r x).stepSeq = s.stepSeq := by rw [State.setRoot_eq]
@[simp] theorem State.setRoot_capture : (s.setRoot r x).capture = s.capture := by rw [State.setRoot_eq]
@[simp] theorem State.setRoot_captureWaits : (s.setRoot r x).captureWaits = s.captureWaits := by rw [State.setRoot_eq]
@[simp] theorem State.setRoot_wfPage : (s.setRoot r x).wfPage = s.wfPage := by rw [State.setRoot_eq]
@[simp] theorem State.setRoot_wfSeq : (s.setRoot r x).wfSeq = s.wfSeq := by rw [State.setRoot_eq]
@[simp] theorem State.setRoot_banks : (s.setRoot r x).banks = s.banks := by rw [State.setRoot_eq]
@[simp] theorem State.setRoot_bankPtr : (s.setRoot r x).bankPtr = s.bankPtr := by rw [State.setRoot_eq]
@[simp] theorem State.setRoot_runSrv : (s.setRoot r x).runSrv = s.runSrv := by rw [State.setRoot_eq]
@[simp] theorem State.setRoot_runFrs : (s.setRoot r x).runFrs = s.runFrs := by rw [State.setRoot_eq]
@[simp] theorem State.setRoot_toRecovery : (s.setRoot r x).toRecovery = s.toRecovery := by rw [State.setRoot_eq]
@[simp] theorem State.setRoot_bootFail : (s.setRoot r x).bootFail = s.bootFail := by rw [State.setRoot_eq]
@[simp] theorem State.setRoot_repairMap : (s.setRoot r x).repairMap = s.repairMap := by rw [State.setRoot_eq]
@[simp] theorem State.setRoot_repairOn : (s.setRoot r x).repairOn = s.repairOn := by rw [State.setRoot_eq]
@[simp] theorem State.setRoot_power : (s.setRoot r x).power = s.power := by rw [State.setRoot_eq]
@[simp] theorem State.setRoot_resp : (s.setRoot r x).resp = s.resp := by rw [State.setRoot_eq]
@[simp] theorem State.setRoot_respHi : (s.setRoot r x).respHi = s.respHi := by rw [State.setRoot_eq]
@[simp] theorem State.setRoot_clocks : (s.setRoot r x).clocks = s.clocks := by rw [State.setRoot_eq]
@[simp] theorem State.setRoot_ctxQuar : (s.setRoot r x).ctxQuar = s.ctxQuar := by rw [State.setRoot_eq]
@[simp] theorem State.setRoot_resQuar : (s.setRoot r x).resQuar = s.resQuar := by rw [State.setRoot_eq]
@[simp] theorem State.setRoot_freeCtr : (s.setRoot r x).freeCtr = s.freeCtr := by rw [State.setRoot_eq]
@[simp] theorem State.setRoot_pending : (s.setRoot r x).pending = s.pending := by rw [State.setRoot_eq]
@[simp] theorem State.reg_setRoot (i : Nat) : (s.setRoot r x).reg i = s.reg i := by rw [State.setRoot_eq]; rfl
@[simp] theorem State.core_setRoot (i : Nat) : (s.setRoot r x).core i = s.core i := by rw [State.setRoot_eq]; rfl
@[simp] theorem State.field_setRoot (i : Nat) : (s.setRoot r x).field i = s.field i := by rw [State.setRoot_eq]; rfl
@[simp] theorem State.gran_setRoot (i : Nat) : (s.setRoot r x).gran i = s.gran i := by rw [State.setRoot_eq]; rfl
@[simp] theorem State.chan_setRoot (i j : Nat) : (s.setRoot r x).chan i j = s.chan i j := by rw [State.setRoot_eq]; rfl
@[simp] theorem State.skq_setRoot (i : Nat) : (s.setRoot r x).skq i = s.skq i := by rw [State.setRoot_eq]; rfl
@[simp] theorem State.bkr_setRoot (i : Nat) : (s.setRoot r x).bkr i = s.bkr i := by rw [State.setRoot_eq]; rfl
@[simp] theorem State.port_setRoot (i : Nat) : (s.setRoot r x).port i = s.port i := by rw [State.setRoot_eq]; rfl
@[simp] theorem State.fw_setRoot (i : Nat) : (s.setRoot r x).fw i = s.fw i := by rw [State.setRoot_eq]; rfl
@[simp] theorem State.ringSt_setRoot (i : Nat) : (s.setRoot r x).ringSt i = s.ringSt i := by rw [State.setRoot_eq]; rfl
@[simp] theorem State.eqSt_setRoot (i : Nat) : (s.setRoot r x).eqSt i = s.eqSt i := by rw [State.setRoot_eq]; rfl

end

/-! ### setFw -/

section
variable (s : State) (e : Nat) (x : CtxFw)

@[simp] theorem State.setFw_part : (s.setFw e x).part = s.part := rfl
@[simp] theorem State.setFw_regs : (s.setFw e x).regs = s.regs := rfl
@[simp] theorem State.setFw_cores : (s.setFw e x).cores = s.cores := rfl
@[simp] theorem State.setFw_fields : (s.setFw e x).fields = s.fields := rfl
@[simp] theorem State.setFw_nm : (s.setFw e x).nm = s.nm := rfl
@[simp] theorem State.setFw_nmWb : (s.setFw e x).nmWb = s.nmWb := rfl
@[simp] theorem State.setFw_chans : (s.setFw e x).chans = s.chans := rfl
@[simp] theorem State.setFw_skqs : (s.setFw e x).skqs = s.skqs := rfl
@[simp] theorem State.setFw_txns : (s.setFw e x).txns = s.txns := rfl
@[simp] theorem State.setFw_txnSeq : (s.setFw e x).txnSeq = s.txnSeq := rfl
@[simp] theorem State.setFw_waiters : (s.setFw e x).waiters = s.waiters := rfl
@[simp] theorem State.setFw_omapMarks : (s.setFw e x).omapMarks = s.omapMarks := rfl
@[simp] theorem State.setFw_bkrs : (s.setFw e x).bkrs = s.bkrs := rfl
@[simp] theorem State.setFw_notify : (s.setFw e x).notify = s.notify := rfl
@[simp] theorem State.setFw_arrivals : (s.setFw e x).arrivals = s.arrivals := rfl
@[simp] theorem State.setFw_straps : (s.setFw e x).straps = s.straps := rfl
@[simp] theorem State.setFw_hostSel : (s.setFw e x).hostSel = s.hostSel := rfl
@[simp] theorem State.setFw_ports : (s.setFw e x).ports = s.ports := rfl
@[simp] theorem State.setFw_heldReqs : (s.setFw e x).heldReqs = s.heldReqs := rfl
@[simp] theorem State.setFw_out : (s.setFw e x).out = s.out := rfl
@[simp] theorem State.setFw_tally : (s.setFw e x).tally = s.tally := rfl
@[simp] theorem State.setFw_talSupp : (s.setFw e x).talSupp = s.talSupp := rfl
@[simp] theorem State.setFw_talSeen : (s.setFw e x).talSeen = s.talSeen := rfl
@[simp] theorem State.setFw_boots : (s.setFw e x).boots = s.boots := rfl
@[simp] theorem State.setFw_windfall : (s.setFw e x).windfall = s.windfall := rfl
@[simp] theorem State.setFw_ctx : (s.setFw e x).ctx = s.ctx := rfl
@[simp] theorem State.setFw_res : (s.setFw e x).res = s.res := rfl
@[simp] theorem State.setFw_roots : (s.setFw e x).roots = s.roots := rfl
@[simp] theorem State.setFw_catalog : (s.setFw e x).catalog = s.catalog := rfl
@[simp] theorem State.setFw_resDest : (s.setFw e x).resDest = s.resDest := rfl
@[simp] theorem State.setFw_moves : (s.setFw e x).moves = s.moves := rfl
@[simp] theorem State.setFw_given : (s.setFw e x).given = s.given := rfl
@[simp] theorem State.setFw_rings : (s.setFw e x).rings = s.rings := rfl
@[simp] theorem State.setFw_eqs : (s.setFw e x).eqs = s.eqs := rfl
@[simp] theorem State.setFw_errLost : (s.setFw e x).errLost = s.errLost := rfl
@[simp] theorem State.setFw_errHeld : (s.setFw e x).errHeld = s.errHeld := rfl
@[simp] theorem State.setFw_descs : (s.setFw e x).descs = s.descs := rfl
@[simp] theorem State.setFw_descSeq : (s.setFw e x).descSeq = s.descSeq := rfl
@[simp] theorem State.setFw_corr : (s.setFw e x).corr = s.corr := rfl
@[simp] theorem State.setFw_mirrored : (s.setFw e x).mirrored = s.mirrored := rfl
@[simp] theorem State.setFw_takeoverRings : (s.setFw e x).takeoverRings = s.takeoverRings := rfl
@[simp] theorem State.setFw_headWrites : (s.setFw e x).headWrites = s.headWrites := rfl
@[simp] theorem State.setFw_hostObjs : (s.setFw e x).hostObjs = s.hostObjs := rfl
@[simp] theorem State.setFw_xferWaits : (s.setFw e x).xferWaits = s.xferWaits := rfl
@[simp] theorem State.setFw_chanWaits : (s.setFw e x).chanWaits = s.chanWaits := rfl
@[simp] theorem State.setFw_fwDone : (s.setFw e x).fwDone = s.fwDone := rfl
@[simp] theorem State.setFw_steps : (s.setFw e x).steps = s.steps := rfl
@[simp] theorem State.setFw_stepSeq : (s.setFw e x).stepSeq = s.stepSeq := rfl
@[simp] theorem State.setFw_capture : (s.setFw e x).capture = s.capture := rfl
@[simp] theorem State.setFw_captureWaits : (s.setFw e x).captureWaits = s.captureWaits := rfl
@[simp] theorem State.setFw_wfPage : (s.setFw e x).wfPage = s.wfPage := rfl
@[simp] theorem State.setFw_wfSeq : (s.setFw e x).wfSeq = s.wfSeq := rfl
@[simp] theorem State.setFw_banks : (s.setFw e x).banks = s.banks := rfl
@[simp] theorem State.setFw_bankPtr : (s.setFw e x).bankPtr = s.bankPtr := rfl
@[simp] theorem State.setFw_runSrv : (s.setFw e x).runSrv = s.runSrv := rfl
@[simp] theorem State.setFw_runFrs : (s.setFw e x).runFrs = s.runFrs := rfl
@[simp] theorem State.setFw_toRecovery : (s.setFw e x).toRecovery = s.toRecovery := rfl
@[simp] theorem State.setFw_bootFail : (s.setFw e x).bootFail = s.bootFail := rfl
@[simp] theorem State.setFw_repairMap : (s.setFw e x).repairMap = s.repairMap := rfl
@[simp] theorem State.setFw_repairOn : (s.setFw e x).repairOn = s.repairOn := rfl
@[simp] theorem State.setFw_power : (s.setFw e x).power = s.power := rfl
@[simp] theorem State.setFw_resp : (s.setFw e x).resp = s.resp := rfl
@[simp] theorem State.setFw_respHi : (s.setFw e x).respHi = s.respHi := rfl
@[simp] theorem State.setFw_clocks : (s.setFw e x).clocks = s.clocks := rfl
@[simp] theorem State.setFw_ctxQuar : (s.setFw e x).ctxQuar = s.ctxQuar := rfl
@[simp] theorem State.setFw_resQuar : (s.setFw e x).resQuar = s.resQuar := rfl
@[simp] theorem State.setFw_freeCtr : (s.setFw e x).freeCtr = s.freeCtr := rfl
@[simp] theorem State.setFw_pending : (s.setFw e x).pending = s.pending := rfl
@[simp] theorem State.reg_setFw (i : Nat) : (s.setFw e x).reg i = s.reg i := rfl
@[simp] theorem State.core_setFw (i : Nat) : (s.setFw e x).core i = s.core i := rfl
@[simp] theorem State.field_setFw (i : Nat) : (s.setFw e x).field i = s.field i := rfl
@[simp] theorem State.gran_setFw (i : Nat) : (s.setFw e x).gran i = s.gran i := rfl
@[simp] theorem State.chan_setFw (i j : Nat) : (s.setFw e x).chan i j = s.chan i j := rfl
@[simp] theorem State.skq_setFw (i : Nat) : (s.setFw e x).skq i = s.skq i := rfl
@[simp] theorem State.bkr_setFw (i : Nat) : (s.setFw e x).bkr i = s.bkr i := rfl
@[simp] theorem State.port_setFw (i : Nat) : (s.setFw e x).port i = s.port i := rfl
@[simp] theorem State.root_setFw (i : Nat) : (s.setFw e x).root i = s.root i := rfl
@[simp] theorem State.ringSt_setFw (i : Nat) : (s.setFw e x).ringSt i = s.ringSt i := rfl
@[simp] theorem State.eqSt_setFw (i : Nat) : (s.setFw e x).eqSt i = s.eqSt i := rfl

end

/-! ### setRingSt -/

section
variable (s : State) (r : Nat) (x : RingState)

@[simp] theorem State.setRingSt_part : (s.setRingSt r x).part = s.part := rfl
@[simp] theorem State.setRingSt_regs : (s.setRingSt r x).regs = s.regs := rfl
@[simp] theorem State.setRingSt_cores : (s.setRingSt r x).cores = s.cores := rfl
@[simp] theorem State.setRingSt_fields : (s.setRingSt r x).fields = s.fields := rfl
@[simp] theorem State.setRingSt_nm : (s.setRingSt r x).nm = s.nm := rfl
@[simp] theorem State.setRingSt_nmWb : (s.setRingSt r x).nmWb = s.nmWb := rfl
@[simp] theorem State.setRingSt_chans : (s.setRingSt r x).chans = s.chans := rfl
@[simp] theorem State.setRingSt_skqs : (s.setRingSt r x).skqs = s.skqs := rfl
@[simp] theorem State.setRingSt_txns : (s.setRingSt r x).txns = s.txns := rfl
@[simp] theorem State.setRingSt_txnSeq : (s.setRingSt r x).txnSeq = s.txnSeq := rfl
@[simp] theorem State.setRingSt_waiters : (s.setRingSt r x).waiters = s.waiters := rfl
@[simp] theorem State.setRingSt_omapMarks : (s.setRingSt r x).omapMarks = s.omapMarks := rfl
@[simp] theorem State.setRingSt_bkrs : (s.setRingSt r x).bkrs = s.bkrs := rfl
@[simp] theorem State.setRingSt_notify : (s.setRingSt r x).notify = s.notify := rfl
@[simp] theorem State.setRingSt_arrivals : (s.setRingSt r x).arrivals = s.arrivals := rfl
@[simp] theorem State.setRingSt_straps : (s.setRingSt r x).straps = s.straps := rfl
@[simp] theorem State.setRingSt_hostSel : (s.setRingSt r x).hostSel = s.hostSel := rfl
@[simp] theorem State.setRingSt_ports : (s.setRingSt r x).ports = s.ports := rfl
@[simp] theorem State.setRingSt_heldReqs : (s.setRingSt r x).heldReqs = s.heldReqs := rfl
@[simp] theorem State.setRingSt_out : (s.setRingSt r x).out = s.out := rfl
@[simp] theorem State.setRingSt_tally : (s.setRingSt r x).tally = s.tally := rfl
@[simp] theorem State.setRingSt_talSupp : (s.setRingSt r x).talSupp = s.talSupp := rfl
@[simp] theorem State.setRingSt_talSeen : (s.setRingSt r x).talSeen = s.talSeen := rfl
@[simp] theorem State.setRingSt_boots : (s.setRingSt r x).boots = s.boots := rfl
@[simp] theorem State.setRingSt_windfall : (s.setRingSt r x).windfall = s.windfall := rfl
@[simp] theorem State.setRingSt_ctx : (s.setRingSt r x).ctx = s.ctx := rfl
@[simp] theorem State.setRingSt_res : (s.setRingSt r x).res = s.res := rfl
@[simp] theorem State.setRingSt_roots : (s.setRingSt r x).roots = s.roots := rfl
@[simp] theorem State.setRingSt_catalog : (s.setRingSt r x).catalog = s.catalog := rfl
@[simp] theorem State.setRingSt_resDest : (s.setRingSt r x).resDest = s.resDest := rfl
@[simp] theorem State.setRingSt_moves : (s.setRingSt r x).moves = s.moves := rfl
@[simp] theorem State.setRingSt_given : (s.setRingSt r x).given = s.given := rfl
@[simp] theorem State.setRingSt_eqs : (s.setRingSt r x).eqs = s.eqs := rfl
@[simp] theorem State.setRingSt_errLost : (s.setRingSt r x).errLost = s.errLost := rfl
@[simp] theorem State.setRingSt_errHeld : (s.setRingSt r x).errHeld = s.errHeld := rfl
@[simp] theorem State.setRingSt_descs : (s.setRingSt r x).descs = s.descs := rfl
@[simp] theorem State.setRingSt_descSeq : (s.setRingSt r x).descSeq = s.descSeq := rfl
@[simp] theorem State.setRingSt_corr : (s.setRingSt r x).corr = s.corr := rfl
@[simp] theorem State.setRingSt_mirrored : (s.setRingSt r x).mirrored = s.mirrored := rfl
@[simp] theorem State.setRingSt_takeoverRings : (s.setRingSt r x).takeoverRings = s.takeoverRings := rfl
@[simp] theorem State.setRingSt_headWrites : (s.setRingSt r x).headWrites = s.headWrites := rfl
@[simp] theorem State.setRingSt_ctxFw : (s.setRingSt r x).ctxFw = s.ctxFw := rfl
@[simp] theorem State.setRingSt_hostObjs : (s.setRingSt r x).hostObjs = s.hostObjs := rfl
@[simp] theorem State.setRingSt_xferWaits : (s.setRingSt r x).xferWaits = s.xferWaits := rfl
@[simp] theorem State.setRingSt_chanWaits : (s.setRingSt r x).chanWaits = s.chanWaits := rfl
@[simp] theorem State.setRingSt_fwDone : (s.setRingSt r x).fwDone = s.fwDone := rfl
@[simp] theorem State.setRingSt_steps : (s.setRingSt r x).steps = s.steps := rfl
@[simp] theorem State.setRingSt_stepSeq : (s.setRingSt r x).stepSeq = s.stepSeq := rfl
@[simp] theorem State.setRingSt_capture : (s.setRingSt r x).capture = s.capture := rfl
@[simp] theorem State.setRingSt_captureWaits : (s.setRingSt r x).captureWaits = s.captureWaits := rfl
@[simp] theorem State.setRingSt_wfPage : (s.setRingSt r x).wfPage = s.wfPage := rfl
@[simp] theorem State.setRingSt_wfSeq : (s.setRingSt r x).wfSeq = s.wfSeq := rfl
@[simp] theorem State.setRingSt_banks : (s.setRingSt r x).banks = s.banks := rfl
@[simp] theorem State.setRingSt_bankPtr : (s.setRingSt r x).bankPtr = s.bankPtr := rfl
@[simp] theorem State.setRingSt_runSrv : (s.setRingSt r x).runSrv = s.runSrv := rfl
@[simp] theorem State.setRingSt_runFrs : (s.setRingSt r x).runFrs = s.runFrs := rfl
@[simp] theorem State.setRingSt_toRecovery : (s.setRingSt r x).toRecovery = s.toRecovery := rfl
@[simp] theorem State.setRingSt_bootFail : (s.setRingSt r x).bootFail = s.bootFail := rfl
@[simp] theorem State.setRingSt_repairMap : (s.setRingSt r x).repairMap = s.repairMap := rfl
@[simp] theorem State.setRingSt_repairOn : (s.setRingSt r x).repairOn = s.repairOn := rfl
@[simp] theorem State.setRingSt_power : (s.setRingSt r x).power = s.power := rfl
@[simp] theorem State.setRingSt_resp : (s.setRingSt r x).resp = s.resp := rfl
@[simp] theorem State.setRingSt_respHi : (s.setRingSt r x).respHi = s.respHi := rfl
@[simp] theorem State.setRingSt_clocks : (s.setRingSt r x).clocks = s.clocks := rfl
@[simp] theorem State.setRingSt_ctxQuar : (s.setRingSt r x).ctxQuar = s.ctxQuar := rfl
@[simp] theorem State.setRingSt_resQuar : (s.setRingSt r x).resQuar = s.resQuar := rfl
@[simp] theorem State.setRingSt_freeCtr : (s.setRingSt r x).freeCtr = s.freeCtr := rfl
@[simp] theorem State.setRingSt_pending : (s.setRingSt r x).pending = s.pending := rfl
@[simp] theorem State.reg_setRingSt (i : Nat) : (s.setRingSt r x).reg i = s.reg i := rfl
@[simp] theorem State.core_setRingSt (i : Nat) : (s.setRingSt r x).core i = s.core i := rfl
@[simp] theorem State.field_setRingSt (i : Nat) : (s.setRingSt r x).field i = s.field i := rfl
@[simp] theorem State.gran_setRingSt (i : Nat) : (s.setRingSt r x).gran i = s.gran i := rfl
@[simp] theorem State.chan_setRingSt (i j : Nat) : (s.setRingSt r x).chan i j = s.chan i j := rfl
@[simp] theorem State.skq_setRingSt (i : Nat) : (s.setRingSt r x).skq i = s.skq i := rfl
@[simp] theorem State.bkr_setRingSt (i : Nat) : (s.setRingSt r x).bkr i = s.bkr i := rfl
@[simp] theorem State.port_setRingSt (i : Nat) : (s.setRingSt r x).port i = s.port i := rfl
@[simp] theorem State.root_setRingSt (i : Nat) : (s.setRingSt r x).root i = s.root i := rfl
@[simp] theorem State.fw_setRingSt (i : Nat) : (s.setRingSt r x).fw i = s.fw i := rfl
@[simp] theorem State.eqSt_setRingSt (i : Nat) : (s.setRingSt r x).eqSt i = s.eqSt i := rfl

end

/-! ### setEqSt -/

section
variable (s : State) (q : Nat) (x : EqState)

@[simp] theorem State.setEqSt_part : (s.setEqSt q x).part = s.part := rfl
@[simp] theorem State.setEqSt_regs : (s.setEqSt q x).regs = s.regs := rfl
@[simp] theorem State.setEqSt_cores : (s.setEqSt q x).cores = s.cores := rfl
@[simp] theorem State.setEqSt_fields : (s.setEqSt q x).fields = s.fields := rfl
@[simp] theorem State.setEqSt_nm : (s.setEqSt q x).nm = s.nm := rfl
@[simp] theorem State.setEqSt_nmWb : (s.setEqSt q x).nmWb = s.nmWb := rfl
@[simp] theorem State.setEqSt_chans : (s.setEqSt q x).chans = s.chans := rfl
@[simp] theorem State.setEqSt_skqs : (s.setEqSt q x).skqs = s.skqs := rfl
@[simp] theorem State.setEqSt_txns : (s.setEqSt q x).txns = s.txns := rfl
@[simp] theorem State.setEqSt_txnSeq : (s.setEqSt q x).txnSeq = s.txnSeq := rfl
@[simp] theorem State.setEqSt_waiters : (s.setEqSt q x).waiters = s.waiters := rfl
@[simp] theorem State.setEqSt_omapMarks : (s.setEqSt q x).omapMarks = s.omapMarks := rfl
@[simp] theorem State.setEqSt_bkrs : (s.setEqSt q x).bkrs = s.bkrs := rfl
@[simp] theorem State.setEqSt_notify : (s.setEqSt q x).notify = s.notify := rfl
@[simp] theorem State.setEqSt_arrivals : (s.setEqSt q x).arrivals = s.arrivals := rfl
@[simp] theorem State.setEqSt_straps : (s.setEqSt q x).straps = s.straps := rfl
@[simp] theorem State.setEqSt_hostSel : (s.setEqSt q x).hostSel = s.hostSel := rfl
@[simp] theorem State.setEqSt_ports : (s.setEqSt q x).ports = s.ports := rfl
@[simp] theorem State.setEqSt_heldReqs : (s.setEqSt q x).heldReqs = s.heldReqs := rfl
@[simp] theorem State.setEqSt_out : (s.setEqSt q x).out = s.out := rfl
@[simp] theorem State.setEqSt_tally : (s.setEqSt q x).tally = s.tally := rfl
@[simp] theorem State.setEqSt_talSupp : (s.setEqSt q x).talSupp = s.talSupp := rfl
@[simp] theorem State.setEqSt_talSeen : (s.setEqSt q x).talSeen = s.talSeen := rfl
@[simp] theorem State.setEqSt_boots : (s.setEqSt q x).boots = s.boots := rfl
@[simp] theorem State.setEqSt_windfall : (s.setEqSt q x).windfall = s.windfall := rfl
@[simp] theorem State.setEqSt_ctx : (s.setEqSt q x).ctx = s.ctx := rfl
@[simp] theorem State.setEqSt_res : (s.setEqSt q x).res = s.res := rfl
@[simp] theorem State.setEqSt_roots : (s.setEqSt q x).roots = s.roots := rfl
@[simp] theorem State.setEqSt_catalog : (s.setEqSt q x).catalog = s.catalog := rfl
@[simp] theorem State.setEqSt_resDest : (s.setEqSt q x).resDest = s.resDest := rfl
@[simp] theorem State.setEqSt_moves : (s.setEqSt q x).moves = s.moves := rfl
@[simp] theorem State.setEqSt_given : (s.setEqSt q x).given = s.given := rfl
@[simp] theorem State.setEqSt_rings : (s.setEqSt q x).rings = s.rings := rfl
@[simp] theorem State.setEqSt_errLost : (s.setEqSt q x).errLost = s.errLost := rfl
@[simp] theorem State.setEqSt_errHeld : (s.setEqSt q x).errHeld = s.errHeld := rfl
@[simp] theorem State.setEqSt_descs : (s.setEqSt q x).descs = s.descs := rfl
@[simp] theorem State.setEqSt_descSeq : (s.setEqSt q x).descSeq = s.descSeq := rfl
@[simp] theorem State.setEqSt_corr : (s.setEqSt q x).corr = s.corr := rfl
@[simp] theorem State.setEqSt_mirrored : (s.setEqSt q x).mirrored = s.mirrored := rfl
@[simp] theorem State.setEqSt_takeoverRings : (s.setEqSt q x).takeoverRings = s.takeoverRings := rfl
@[simp] theorem State.setEqSt_headWrites : (s.setEqSt q x).headWrites = s.headWrites := rfl
@[simp] theorem State.setEqSt_ctxFw : (s.setEqSt q x).ctxFw = s.ctxFw := rfl
@[simp] theorem State.setEqSt_hostObjs : (s.setEqSt q x).hostObjs = s.hostObjs := rfl
@[simp] theorem State.setEqSt_xferWaits : (s.setEqSt q x).xferWaits = s.xferWaits := rfl
@[simp] theorem State.setEqSt_chanWaits : (s.setEqSt q x).chanWaits = s.chanWaits := rfl
@[simp] theorem State.setEqSt_fwDone : (s.setEqSt q x).fwDone = s.fwDone := rfl
@[simp] theorem State.setEqSt_steps : (s.setEqSt q x).steps = s.steps := rfl
@[simp] theorem State.setEqSt_stepSeq : (s.setEqSt q x).stepSeq = s.stepSeq := rfl
@[simp] theorem State.setEqSt_capture : (s.setEqSt q x).capture = s.capture := rfl
@[simp] theorem State.setEqSt_captureWaits : (s.setEqSt q x).captureWaits = s.captureWaits := rfl
@[simp] theorem State.setEqSt_wfPage : (s.setEqSt q x).wfPage = s.wfPage := rfl
@[simp] theorem State.setEqSt_wfSeq : (s.setEqSt q x).wfSeq = s.wfSeq := rfl
@[simp] theorem State.setEqSt_banks : (s.setEqSt q x).banks = s.banks := rfl
@[simp] theorem State.setEqSt_bankPtr : (s.setEqSt q x).bankPtr = s.bankPtr := rfl
@[simp] theorem State.setEqSt_runSrv : (s.setEqSt q x).runSrv = s.runSrv := rfl
@[simp] theorem State.setEqSt_runFrs : (s.setEqSt q x).runFrs = s.runFrs := rfl
@[simp] theorem State.setEqSt_toRecovery : (s.setEqSt q x).toRecovery = s.toRecovery := rfl
@[simp] theorem State.setEqSt_bootFail : (s.setEqSt q x).bootFail = s.bootFail := rfl
@[simp] theorem State.setEqSt_repairMap : (s.setEqSt q x).repairMap = s.repairMap := rfl
@[simp] theorem State.setEqSt_repairOn : (s.setEqSt q x).repairOn = s.repairOn := rfl
@[simp] theorem State.setEqSt_power : (s.setEqSt q x).power = s.power := rfl
@[simp] theorem State.setEqSt_resp : (s.setEqSt q x).resp = s.resp := rfl
@[simp] theorem State.setEqSt_respHi : (s.setEqSt q x).respHi = s.respHi := rfl
@[simp] theorem State.setEqSt_clocks : (s.setEqSt q x).clocks = s.clocks := rfl
@[simp] theorem State.setEqSt_ctxQuar : (s.setEqSt q x).ctxQuar = s.ctxQuar := rfl
@[simp] theorem State.setEqSt_resQuar : (s.setEqSt q x).resQuar = s.resQuar := rfl
@[simp] theorem State.setEqSt_freeCtr : (s.setEqSt q x).freeCtr = s.freeCtr := rfl
@[simp] theorem State.setEqSt_pending : (s.setEqSt q x).pending = s.pending := rfl
@[simp] theorem State.reg_setEqSt (i : Nat) : (s.setEqSt q x).reg i = s.reg i := rfl
@[simp] theorem State.core_setEqSt (i : Nat) : (s.setEqSt q x).core i = s.core i := rfl
@[simp] theorem State.field_setEqSt (i : Nat) : (s.setEqSt q x).field i = s.field i := rfl
@[simp] theorem State.gran_setEqSt (i : Nat) : (s.setEqSt q x).gran i = s.gran i := rfl
@[simp] theorem State.chan_setEqSt (i j : Nat) : (s.setEqSt q x).chan i j = s.chan i j := rfl
@[simp] theorem State.skq_setEqSt (i : Nat) : (s.setEqSt q x).skq i = s.skq i := rfl
@[simp] theorem State.bkr_setEqSt (i : Nat) : (s.setEqSt q x).bkr i = s.bkr i := rfl
@[simp] theorem State.port_setEqSt (i : Nat) : (s.setEqSt q x).port i = s.port i := rfl
@[simp] theorem State.root_setEqSt (i : Nat) : (s.setEqSt q x).root i = s.root i := rfl
@[simp] theorem State.fw_setEqSt (i : Nat) : (s.setEqSt q x).fw i = s.fw i := rfl
@[simp] theorem State.ringSt_setEqSt (i : Nat) : (s.setEqSt q x).ringSt i = s.ringSt i := rfl

end

/-! ### emit -/

section
variable (s : State) (m : OutMsg)

@[simp] theorem State.emit_part : (s.emit m).part = s.part := rfl
@[simp] theorem State.emit_regs : (s.emit m).regs = s.regs := rfl
@[simp] theorem State.emit_cores : (s.emit m).cores = s.cores := rfl
@[simp] theorem State.emit_fields : (s.emit m).fields = s.fields := rfl
@[simp] theorem State.emit_nm : (s.emit m).nm = s.nm := rfl
@[simp] theorem State.emit_nmWb : (s.emit m).nmWb = s.nmWb := rfl
@[simp] theorem State.emit_chans : (s.emit m).chans = s.chans := rfl
@[simp] theorem State.emit_skqs : (s.emit m).skqs = s.skqs := rfl
@[simp] theorem State.emit_txns : (s.emit m).txns = s.txns := rfl
@[simp] theorem State.emit_txnSeq : (s.emit m).txnSeq = s.txnSeq := rfl
@[simp] theorem State.emit_waiters : (s.emit m).waiters = s.waiters := rfl
@[simp] theorem State.emit_omapMarks : (s.emit m).omapMarks = s.omapMarks := rfl
@[simp] theorem State.emit_bkrs : (s.emit m).bkrs = s.bkrs := rfl
@[simp] theorem State.emit_notify : (s.emit m).notify = s.notify := rfl
@[simp] theorem State.emit_arrivals : (s.emit m).arrivals = s.arrivals := rfl
@[simp] theorem State.emit_straps : (s.emit m).straps = s.straps := rfl
@[simp] theorem State.emit_hostSel : (s.emit m).hostSel = s.hostSel := rfl
@[simp] theorem State.emit_ports : (s.emit m).ports = s.ports := rfl
@[simp] theorem State.emit_heldReqs : (s.emit m).heldReqs = s.heldReqs := rfl
@[simp] theorem State.emit_tally : (s.emit m).tally = s.tally := rfl
@[simp] theorem State.emit_talSupp : (s.emit m).talSupp = s.talSupp := rfl
@[simp] theorem State.emit_talSeen : (s.emit m).talSeen = s.talSeen := rfl
@[simp] theorem State.emit_boots : (s.emit m).boots = s.boots := rfl
@[simp] theorem State.emit_windfall : (s.emit m).windfall = s.windfall := rfl
@[simp] theorem State.emit_ctx : (s.emit m).ctx = s.ctx := rfl
@[simp] theorem State.emit_res : (s.emit m).res = s.res := rfl
@[simp] theorem State.emit_roots : (s.emit m).roots = s.roots := rfl
@[simp] theorem State.emit_catalog : (s.emit m).catalog = s.catalog := rfl
@[simp] theorem State.emit_resDest : (s.emit m).resDest = s.resDest := rfl
@[simp] theorem State.emit_moves : (s.emit m).moves = s.moves := rfl
@[simp] theorem State.emit_given : (s.emit m).given = s.given := rfl
@[simp] theorem State.emit_rings : (s.emit m).rings = s.rings := rfl
@[simp] theorem State.emit_eqs : (s.emit m).eqs = s.eqs := rfl
@[simp] theorem State.emit_errLost : (s.emit m).errLost = s.errLost := rfl
@[simp] theorem State.emit_errHeld : (s.emit m).errHeld = s.errHeld := rfl
@[simp] theorem State.emit_descs : (s.emit m).descs = s.descs := rfl
@[simp] theorem State.emit_descSeq : (s.emit m).descSeq = s.descSeq := rfl
@[simp] theorem State.emit_corr : (s.emit m).corr = s.corr := rfl
@[simp] theorem State.emit_mirrored : (s.emit m).mirrored = s.mirrored := rfl
@[simp] theorem State.emit_takeoverRings : (s.emit m).takeoverRings = s.takeoverRings := rfl
@[simp] theorem State.emit_headWrites : (s.emit m).headWrites = s.headWrites := rfl
@[simp] theorem State.emit_ctxFw : (s.emit m).ctxFw = s.ctxFw := rfl
@[simp] theorem State.emit_hostObjs : (s.emit m).hostObjs = s.hostObjs := rfl
@[simp] theorem State.emit_xferWaits : (s.emit m).xferWaits = s.xferWaits := rfl
@[simp] theorem State.emit_chanWaits : (s.emit m).chanWaits = s.chanWaits := rfl
@[simp] theorem State.emit_fwDone : (s.emit m).fwDone = s.fwDone := rfl
@[simp] theorem State.emit_steps : (s.emit m).steps = s.steps := rfl
@[simp] theorem State.emit_stepSeq : (s.emit m).stepSeq = s.stepSeq := rfl
@[simp] theorem State.emit_capture : (s.emit m).capture = s.capture := rfl
@[simp] theorem State.emit_captureWaits : (s.emit m).captureWaits = s.captureWaits := rfl
@[simp] theorem State.emit_wfPage : (s.emit m).wfPage = s.wfPage := rfl
@[simp] theorem State.emit_wfSeq : (s.emit m).wfSeq = s.wfSeq := rfl
@[simp] theorem State.emit_banks : (s.emit m).banks = s.banks := rfl
@[simp] theorem State.emit_bankPtr : (s.emit m).bankPtr = s.bankPtr := rfl
@[simp] theorem State.emit_runSrv : (s.emit m).runSrv = s.runSrv := rfl
@[simp] theorem State.emit_runFrs : (s.emit m).runFrs = s.runFrs := rfl
@[simp] theorem State.emit_toRecovery : (s.emit m).toRecovery = s.toRecovery := rfl
@[simp] theorem State.emit_bootFail : (s.emit m).bootFail = s.bootFail := rfl
@[simp] theorem State.emit_repairMap : (s.emit m).repairMap = s.repairMap := rfl
@[simp] theorem State.emit_repairOn : (s.emit m).repairOn = s.repairOn := rfl
@[simp] theorem State.emit_power : (s.emit m).power = s.power := rfl
@[simp] theorem State.emit_resp : (s.emit m).resp = s.resp := rfl
@[simp] theorem State.emit_respHi : (s.emit m).respHi = s.respHi := rfl
@[simp] theorem State.emit_clocks : (s.emit m).clocks = s.clocks := rfl
@[simp] theorem State.emit_ctxQuar : (s.emit m).ctxQuar = s.ctxQuar := rfl
@[simp] theorem State.emit_resQuar : (s.emit m).resQuar = s.resQuar := rfl
@[simp] theorem State.emit_freeCtr : (s.emit m).freeCtr = s.freeCtr := rfl
@[simp] theorem State.emit_pending : (s.emit m).pending = s.pending := rfl
@[simp] theorem State.reg_emit (i : Nat) : (s.emit m).reg i = s.reg i := rfl
@[simp] theorem State.core_emit (i : Nat) : (s.emit m).core i = s.core i := rfl
@[simp] theorem State.field_emit (i : Nat) : (s.emit m).field i = s.field i := rfl
@[simp] theorem State.gran_emit (i : Nat) : (s.emit m).gran i = s.gran i := rfl
@[simp] theorem State.chan_emit (i j : Nat) : (s.emit m).chan i j = s.chan i j := rfl
@[simp] theorem State.skq_emit (i : Nat) : (s.emit m).skq i = s.skq i := rfl
@[simp] theorem State.bkr_emit (i : Nat) : (s.emit m).bkr i = s.bkr i := rfl
@[simp] theorem State.port_emit (i : Nat) : (s.emit m).port i = s.port i := rfl
@[simp] theorem State.root_emit (i : Nat) : (s.emit m).root i = s.root i := rfl
@[simp] theorem State.fw_emit (i : Nat) : (s.emit m).fw i = s.fw i := rfl
@[simp] theorem State.ringSt_emit (i : Nat) : (s.emit m).ringSt i = s.ringSt i := rfl
@[simp] theorem State.eqSt_emit (i : Nat) : (s.emit m).eqSt i = s.eqSt i := rfl

end

/-! ### tickFree -/

section
variable (s : State)

@[simp] theorem State.tickFree_part : s.tickFree.part = s.part := rfl
@[simp] theorem State.tickFree_regs : s.tickFree.regs = s.regs := rfl
@[simp] theorem State.tickFree_cores : s.tickFree.cores = s.cores := rfl
@[simp] theorem State.tickFree_fields : s.tickFree.fields = s.fields := rfl
@[simp] theorem State.tickFree_nm : s.tickFree.nm = s.nm := rfl
@[simp] theorem State.tickFree_nmWb : s.tickFree.nmWb = s.nmWb := rfl
@[simp] theorem State.tickFree_chans : s.tickFree.chans = s.chans := rfl
@[simp] theorem State.tickFree_skqs : s.tickFree.skqs = s.skqs := rfl
@[simp] theorem State.tickFree_txns : s.tickFree.txns = s.txns := rfl
@[simp] theorem State.tickFree_txnSeq : s.tickFree.txnSeq = s.txnSeq := rfl
@[simp] theorem State.tickFree_waiters : s.tickFree.waiters = s.waiters := rfl
@[simp] theorem State.tickFree_omapMarks : s.tickFree.omapMarks = s.omapMarks := rfl
@[simp] theorem State.tickFree_bkrs : s.tickFree.bkrs = s.bkrs := rfl
@[simp] theorem State.tickFree_notify : s.tickFree.notify = s.notify := rfl
@[simp] theorem State.tickFree_arrivals : s.tickFree.arrivals = s.arrivals := rfl
@[simp] theorem State.tickFree_straps : s.tickFree.straps = s.straps := rfl
@[simp] theorem State.tickFree_hostSel : s.tickFree.hostSel = s.hostSel := rfl
@[simp] theorem State.tickFree_ports : s.tickFree.ports = s.ports := rfl
@[simp] theorem State.tickFree_heldReqs : s.tickFree.heldReqs = s.heldReqs := rfl
@[simp] theorem State.tickFree_out : s.tickFree.out = s.out := rfl
@[simp] theorem State.tickFree_tally : s.tickFree.tally = s.tally := rfl
@[simp] theorem State.tickFree_talSupp : s.tickFree.talSupp = s.talSupp := rfl
@[simp] theorem State.tickFree_talSeen : s.tickFree.talSeen = s.talSeen := rfl
@[simp] theorem State.tickFree_boots : s.tickFree.boots = s.boots := rfl
@[simp] theorem State.tickFree_windfall : s.tickFree.windfall = s.windfall := rfl
@[simp] theorem State.tickFree_ctx : s.tickFree.ctx = s.ctx := rfl
@[simp] theorem State.tickFree_res : s.tickFree.res = s.res := rfl
@[simp] theorem State.tickFree_roots : s.tickFree.roots = s.roots := rfl
@[simp] theorem State.tickFree_catalog : s.tickFree.catalog = s.catalog := rfl
@[simp] theorem State.tickFree_resDest : s.tickFree.resDest = s.resDest := rfl
@[simp] theorem State.tickFree_moves : s.tickFree.moves = s.moves := rfl
@[simp] theorem State.tickFree_given : s.tickFree.given = s.given := rfl
@[simp] theorem State.tickFree_rings : s.tickFree.rings = s.rings := rfl
@[simp] theorem State.tickFree_eqs : s.tickFree.eqs = s.eqs := rfl
@[simp] theorem State.tickFree_errLost : s.tickFree.errLost = s.errLost := rfl
@[simp] theorem State.tickFree_errHeld : s.tickFree.errHeld = s.errHeld := rfl
@[simp] theorem State.tickFree_descs : s.tickFree.descs = s.descs := rfl
@[simp] theorem State.tickFree_descSeq : s.tickFree.descSeq = s.descSeq := rfl
@[simp] theorem State.tickFree_corr : s.tickFree.corr = s.corr := rfl
@[simp] theorem State.tickFree_mirrored : s.tickFree.mirrored = s.mirrored := rfl
@[simp] theorem State.tickFree_takeoverRings : s.tickFree.takeoverRings = s.takeoverRings := rfl
@[simp] theorem State.tickFree_headWrites : s.tickFree.headWrites = s.headWrites := rfl
@[simp] theorem State.tickFree_ctxFw : s.tickFree.ctxFw = s.ctxFw := rfl
@[simp] theorem State.tickFree_hostObjs : s.tickFree.hostObjs = s.hostObjs := rfl
@[simp] theorem State.tickFree_xferWaits : s.tickFree.xferWaits = s.xferWaits := rfl
@[simp] theorem State.tickFree_chanWaits : s.tickFree.chanWaits = s.chanWaits := rfl
@[simp] theorem State.tickFree_fwDone : s.tickFree.fwDone = s.fwDone := rfl
@[simp] theorem State.tickFree_steps : s.tickFree.steps = s.steps := rfl
@[simp] theorem State.tickFree_stepSeq : s.tickFree.stepSeq = s.stepSeq := rfl
@[simp] theorem State.tickFree_capture : s.tickFree.capture = s.capture := rfl
@[simp] theorem State.tickFree_captureWaits : s.tickFree.captureWaits = s.captureWaits := rfl
@[simp] theorem State.tickFree_wfPage : s.tickFree.wfPage = s.wfPage := rfl
@[simp] theorem State.tickFree_wfSeq : s.tickFree.wfSeq = s.wfSeq := rfl
@[simp] theorem State.tickFree_banks : s.tickFree.banks = s.banks := rfl
@[simp] theorem State.tickFree_bankPtr : s.tickFree.bankPtr = s.bankPtr := rfl
@[simp] theorem State.tickFree_runSrv : s.tickFree.runSrv = s.runSrv := rfl
@[simp] theorem State.tickFree_runFrs : s.tickFree.runFrs = s.runFrs := rfl
@[simp] theorem State.tickFree_toRecovery : s.tickFree.toRecovery = s.toRecovery := rfl
@[simp] theorem State.tickFree_bootFail : s.tickFree.bootFail = s.bootFail := rfl
@[simp] theorem State.tickFree_repairMap : s.tickFree.repairMap = s.repairMap := rfl
@[simp] theorem State.tickFree_repairOn : s.tickFree.repairOn = s.repairOn := rfl
@[simp] theorem State.tickFree_power : s.tickFree.power = s.power := rfl
@[simp] theorem State.tickFree_resp : s.tickFree.resp = s.resp := rfl
@[simp] theorem State.tickFree_respHi : s.tickFree.respHi = s.respHi := rfl
@[simp] theorem State.tickFree_clocks : s.tickFree.clocks = s.clocks := rfl
@[simp] theorem State.tickFree_ctxQuar : s.tickFree.ctxQuar = s.ctxQuar := rfl
@[simp] theorem State.tickFree_resQuar : s.tickFree.resQuar = s.resQuar := rfl
@[simp] theorem State.tickFree_pending : s.tickFree.pending = s.pending := rfl
@[simp] theorem State.reg_tickFree (i : Nat) : s.tickFree.reg i = s.reg i := rfl
@[simp] theorem State.core_tickFree (i : Nat) : s.tickFree.core i = s.core i := rfl
@[simp] theorem State.field_tickFree (i : Nat) : s.tickFree.field i = s.field i := rfl
@[simp] theorem State.gran_tickFree (i : Nat) : s.tickFree.gran i = s.gran i := rfl
@[simp] theorem State.chan_tickFree (i j : Nat) : s.tickFree.chan i j = s.chan i j := rfl
@[simp] theorem State.skq_tickFree (i : Nat) : s.tickFree.skq i = s.skq i := rfl
@[simp] theorem State.bkr_tickFree (i : Nat) : s.tickFree.bkr i = s.bkr i := rfl
@[simp] theorem State.port_tickFree (i : Nat) : s.tickFree.port i = s.port i := rfl
@[simp] theorem State.root_tickFree (i : Nat) : s.tickFree.root i = s.root i := rfl
@[simp] theorem State.fw_tickFree (i : Nat) : s.tickFree.fw i = s.fw i := rfl
@[simp] theorem State.ringSt_tickFree (i : Nat) : s.tickFree.ringSt i = s.ringSt i := rfl
@[simp] theorem State.eqSt_tickFree (i : Nat) : s.tickFree.eqSt i = s.eqSt i := rfl

end

/-! ### A read after a write -/

/-- A register holds what was written to it. -/
theorem State.reg_setReg_same {s : State} (h : storeWf (regReset s.part) s.regs = true) (o : Nat) (v : Word) : (s.setReg o v).reg o = v :=
  storeGet_set_same _ h

/-- Writing a register leaves every other. -/
theorem State.reg_setReg_ne (s : State) {o i : Nat} (v : Word) (hne : i ≠ o) : (s.setReg o v).reg i = s.reg i :=
  storeGet_set_other _ _ _ v hne

theorem State.reg_bump_ne (s : State) {o i : Nat} (k : Nat) (hne : i ≠ o) : (s.bump o k).reg i = s.reg i := s.reg_setReg_ne _ hne
theorem State.reg_raise_ne (s : State) {o i : Nat} (m : Word) (hne : i ≠ o) : (s.raise o m).reg i = s.reg i := s.reg_setReg_ne _ hne
theorem State.reg_lower_ne (s : State) {o i : Nat} (m : Word) (hne : i ≠ o) : (s.lower o m).reg i = s.reg i := s.reg_setReg_ne _ hne

theorem State.reg_bump_same {s : State} (h : storeWf (regReset s.part) s.regs = true) (o k : Nat) :
    (s.bump o k).reg o = satAdd32 (s.reg o) k := State.reg_setReg_same h _ _
theorem State.reg_raise_same {s : State} (h : storeWf (regReset s.part) s.regs = true) (o : Nat) (m : Word) :
    (s.raise o m).reg o = s.reg o ||| m := State.reg_setReg_same h _ _
theorem State.reg_lower_same {s : State} (h : storeWf (regReset s.part) s.regs = true) (o : Nat) (m : Word) :
    (s.lower o m).reg o = s.reg o &&& ~~~m := State.reg_setReg_same h _ _

/-- A granule of near memory holds what was stored. -/
theorem State.gran_setGran_same {s : State} (h : Memory.wf s.nm = true) (a : Nat) (g : NmGran) : (s.setGran a g).gran a = g :=
  storeGet_set_same _ h

/-- Storing a granule leaves every other. -/
theorem State.gran_setGran_ne (s : State) {a b : Nat} (g : NmGran) (hne : b / 64 ≠ a / 64) : (s.setGran a g).gran b = s.gran b :=
  storeGet_set_ne _ _ g hne

theorem State.fw_setFw_ne (s : State) {e i : Nat} (x : CtxFw) (hne : i ≠ e) : (s.setFw e x).fw i = s.fw i := storeGet_set_ne _ _ x hne
theorem State.ringSt_setRingSt_ne (s : State) {r i : Nat} (x : RingState) (hne : i ≠ r) : (s.setRingSt r x).ringSt i = s.ringSt i :=
  storeGet_set_ne _ _ x hne

/-- One entry of a vector after another is replaced. -/
theorem getD_setIfInBounds {α : Type} {k : Nat} (v : Vector α k) (n m : Nat) (c d : α) :
    (v.setIfInBounds n c)[m]?.getD d = if m = n ∧ n < k then c else v[m]?.getD d := by
  rw [Vector.getElem?_setIfInBounds]
  by_cases h : n = m
  · subst h
    by_cases hn : n < k
    · simp [hn]
    · simp [hn]
  · simp [h, Ne.symm h]

theorem State.root_setRoot (s : State) (n m : Nat) (x : Root) : (s.setRoot n x).root m = if m = n ∧ n < 64 then x else s.root m := by
  rw [State.setRoot_eq]; exact getD_setIfInBounds _ _ _ _ _
theorem State.skq_setSkq (s : State) (n m : Nat) (l : List SkqEntry) : (s.setSkq n l).skq m = if m = n ∧ n < 16 then l else s.skq m :=
  getD_setIfInBounds _ _ _ _ _
theorem State.bkr_setBkr (s : State) (n m : Nat) (b : Bkr) : (s.setBkr n b).bkr m = if m = n ∧ n < 4 then b else s.bkr m :=
  getD_setIfInBounds _ _ _ _ _
theorem State.port_setPort (s : State) (n m : Nat) (x : Port) : (s.setPort n x).port m = if m = n ∧ n < 6 then x else s.port m :=
  getD_setIfInBounds _ _ _ _ _
theorem State.eqSt_setEqSt (s : State) (n m : Nat) (x : EqState) : (s.setEqSt n x).eqSt m = if m = n ∧ n < 64 then x else s.eqSt m :=
  getD_setIfInBounds _ _ _ _ _

theorem State.chan_setChan_same (s : State) {f k : Nat} (c : Chan) (hf : f < 4) (hk : k < 16) : (s.setChan f k c).chan f k = c := by
  unfold State.chan State.setChan
  rw [getD_setIfInBounds, if_pos ⟨rfl, hf⟩, getD_setIfInBounds, if_pos ⟨rfl, hk⟩]

theorem State.chan_setChan_ne (s : State) {f k i j : Nat} (c : Chan) (hne : i ≠ f ∨ j ≠ k) : (s.setChan f k c).chan i j = s.chan i j := by
  unfold State.chan State.setChan
  rw [getD_setIfInBounds]
  split
  next hi =>
    obtain ⟨rfl, _⟩ := hi
    rw [getD_setIfInBounds, if_neg fun hj => (hne.resolve_left fun hn => hn rfl) hj.1]
  · rfl

end Sys2Proof.Machine
end

