-- ==== Sys2Proof/WellFormed.lean ====
section
/-! DEFINITION. Which commands are well formed: every index names a unit that the largest part has, every field fits its width. The
meaning of a command is defined whether it is well formed or not; a sender sends well-formed ones. -/

namespace Sys2Proof.WellFormed

/-- A number below a bound. -/
def below (b n : Nat) : Bool := decide (n < b)

/-- Cores, Tines and lanes of a core, Fields (R2, R67). -/
def coreIdx (n : Nat) : Bool := below 16 n
def tineIdx (t : Nat) : Bool := below 4 t
def laneIdx (l : Nat) : Bool := below 8 l
def fld (f : Nat) : Bool := below 4 f

/-- Ports of the fabric, of the Context Table and of the Residency Table: six each (R195, R247, R317). -/
def portIdx (p : Nat) : Bool := below 6 p

/-- Operations of RES_Pp_CMD that the manual reserves (R207). -/
def reserved (op : Nat) : Bool := decide (10 ≤ op) && below 16 op

/-- Injectors (R337, R338). -/
def injUnit : Machine.InjUnit → Bool
  | .spm n => coreIdx n
  | .nm f => fld f
  | .ctx => true
  | .res => true

end Sys2Proof.WellFormed

namespace Sys2Proof

open Sys2Proof.WellFormed

/-- The command is well formed. -/
def Instr.wf (i : Instr) : Bool :=
  match i with
  | .bundleIssue n _ _ => coreIdx n
  | .hdgTimeout n _ => coreIdx n
  | .watchdog n _ => coreIdx n
  | .sequencerStopped n => coreIdx n
  | .start q => coreIdx q.core
  | .resume n => coreIdx n
  | .halt n _ => coreIdx n
  | .tineRescale n t => coreIdx n && tineIdx t
  | .tineDrain n t => coreIdx n && tineIdx t
  | .attendBlock n _ => coreIdx n
  | .kvFetchBlock n _ => coreIdx n
  | .kvwriteDone n _ => coreIdx n
  | .laneBlockStart n l => coreIdx n && laneIdx l
  | .laneBlockDone n l => coreIdx n && laneIdx l
  | .tableLoadDone n => coreIdx n
  | .tableLoad n slot gen => coreIdx n && below 16 slot && below 16 gen
  | .invalidate n slot => coreIdx n && below 16 slot
  | .chanLanesWrite n _ => coreIdx n
  | .encodeBlockDone n => coreIdx n
  | .expandDone n => coreIdx n
  | .latch n => coreIdx n
  | .commit n => coreIdx n
  | .sweep n _ => coreIdx n
  | .sweepDone n => coreIdx n
  | .partitionWrite n k _ => coreIdx n && below 8 k
  | .spmCeWriteBack n w => coreIdx n && below 0x40000 w
  | .forcedGrant n _ _ => coreIdx n
  | .skidderTransferComplete n _ => coreIdx n
  | .channelPost f k _ => fld f && below 16 k
  | .channelRecordStart f k _ => fld f && below 16 k
  | .channelTransferComplete f k => fld f && below 16 k
  | .transferStall f _ core _ => fld f && coreIdx core
  | .transferResume f _ core _ => fld f && coreIdx core
  | .skidderAbort f _ => fld f
  | .memoryReply _ _ _ => true
  | .budgetGrant p _ => below 6 p
  | .nmAccess f _ _ _ _ rf => fld f && fld rf
  | .nmCeWriteBack _ => true
  | .wsPageRead f page _ _ => fld f && below 0x2000000 page
  | .omapSync _ => true
  | .spillPoolWrite w _ => below 3 w
  | .resRead p e _ => portIdx p && below 32768 e
  | .resAlloc p e _ => portIdx p && below 32768 e
  | .resPin p gen e _ => portIdx p && below 256 gen && below 32768 e
  | .resUnpin p gen e _ => portIdx p && below 256 gen && below 32768 e
  | .resMove p gen _ e _ => portIdx p && below 256 gen && below 32768 e
  | .resMoveDone p gen e _ => portIdx p && below 256 gen && below 32768 e
  | .resMoveCancel p gen e _ => portIdx p && below 256 gen && below 32768 e
  | .resRetire p gen e _ => portIdx p && below 256 gen && below 32768 e
  | .resRelease p gen e _ => portIdx p && below 256 gen && below 32768 e
  | .resForget p gen e _ => portIdx p && below 256 gen && below 32768 e
  | .resReservedOp p op e _ => portIdx p && reserved op && below 32768 e
  | .segmentProgram r _ _ _ => below 64 r
  | .repairSwitchover r => below 64 r
  | .expertRequest n r _ _ _ _ _ => coreIdx n && below 64 r
  | .semPostArrive f _ i _ => fld f && below 4096 i
  | .hdgPost _ => true
  | .hdgTake _ => true
  | .hdgSemWrite i _ => below 4096 i
  | .notifyRead f => fld f
  | .barrierArrival f _ g sem _ => fld f && below 128 g && below 4096 sem
  | .hdgBarArrive _ => true
  | .barrierCfgWrite g _ => below 128 g
  | .hdgAbort _ => true
  | .abortTokenReceive p j q d => portIdx p && below 16 j && below 16 q && below 16 d.dev && below 256 d.gen
  | .hdgAbortClear _ => true
  | .hedgerowFrameReceive p _ d _ dst _ => portIdx p && below 16 d && below 16 dst
  | .genAnnounceReceive p d v => portIdx p && below 16 d && below 256 v
  | .portTraining p => portIdx p
  | .portTrainingDone p _ _ _ => portIdx p
  | .flitReceive p seq _ => portIdx p && below 4096 seq
  | .ackTimeout p => portIdx p
  | .acknowledgementReceive p _ _ => portIdx p
  | .retrain p _ => portIdx p
  | .fabCfgWrite _ => true
  | .fabRouteWrite d _ => below 16 d
  | .fabricPacketReceive p _ => portIdx p
  | .windowEntryWrite i w _ _ => below 1024 i && below 4 w
  | .winSync _ => true
  | .heartbeat => true
  | .headTakeover _ _ _ => true
  | .headClaim d _ _ => below 16 d
  | .buckerPost f _ => fld f
  | .buckerJobStart f _ _ => fld f
  | .buckerJobDone f => fld f
  | .ringTailDoorbell r _ _ => below 1024 r
  | .eqHeadDoorbell q _ _ => below 1024 q
  | .narrowWriteDrop => true
  | .descriptorRead r bytes _ => below 1024 r && decide (bytes.length = 64)
  | .fenceComplete r => below 1024 r
  | .holdoffExpiry q => below 64 q
  | .ringCfgWrite r _ => below 1024 r
  | .eqCfgWrite q _ => below 64 q
  | .correlationArm _ => true
  | .timestampLatch k => below 5 k
  | .functionLevelReset => true
  | .stepStart _ => true
  | .stepCommit _ _ => true
  | .ctxPortRead p e _ => portIdx p && below 65536 e
  | .ctxPortWrite p gen e _ => portIdx p && below 4096 gen && below 65536 e
  | .take p _ => portIdx p
  | .give p _ => portIdx p
  | .ctxReservedOp p op gen e _ => portIdx p && below 16 op && decide (2 ≤ op) && below 4096 gen && below 65536 e
  | .drainTimeout e _ => below 65536 e
  | .teardownDrained e => below 65536 e
  | .trimApply e => below 65536 e
  | .scrubTick f => fld f
  | .pprRequest f _ _ => fld f
  | .pprDone f _ => fld f
  | .injectorArm unit _ => injUnit unit
  | .quarantineClear _ _ _ => true
  | .deviceErrorReport block _ => below 21 block
  | .coreReset f _ _ => fld f
  | .fieldReset f cause _ => fld f && below 256 cause
  | .fieldReady f => fld f
  | .fieldReadyTimeout f _ => fld f
  | .foresterTrap f _ _ _ => fld f
  | .foresterWatchdog f _ _ => fld f
  | .surveyorTrap _ _ _ => true
  | .surveyorWatchdog _ _ => true
  | .hostFieldReset v _ => decide (Machine.bits v 9 8 = 1)
  | .hostDeviceReset v _ => decide (Machine.bits v 9 8 = 2)
  | .deviceReset cause _ => below 256 cause
  | .deviceReady _ => true
  | .windfallTimeLimit _ => true
  | .observationTimeout _ _ => true
  | .fieldFence f _ _ => fld f
  | .fieldFenceDone f => fld f
  | .standAbortRecovery j _ _ _ _ _ => below 16 j
  | .tallyReadSelect _ => true
  | .windfallPageSelect _ => true
  | .repairAdd _ => true
  | .repairClear _ => true
  | .tallyErase _ => true
  | .fuseAdvance _ => true
  | .attestGo _ => true
  | .load _ _ _ => true
  | .activate _ => true
  | .identify tag => below 0x10000 tag
  | .tallyRead tag _ _ => below 0x10000 tag
  | .windfallRead tag _ => below 0x10000 tag
  | .attest tag nonce _ => below 0x10000 tag && decide (nonce.length = 32)
  | .certRead tag => below 0x10000 tag
  | .fwLoad tag _ _ => below 0x10000 tag
  | .fwActivate tag _ => below 0x10000 tag
  | .imageInstall tag _ _ _ => below 0x10000 tag
  | .imageRepair tag _ _ _ => below 0x10000 tag
  | .maint tag _ => below 0x10000 tag
  | .reset tag _ _ => below 0x10000 tag
  | .servicePortEnable _ => true
  | .serviceReservedOpcode tag op _ => below 0x10000 tag && below 256 op
  | .powerLoss src _ => below 3 src
  | .pwrgoodDeassert => true
  | .powerOn devid hostSel => below 16 devid && below 4 hostSel
  | .domainSwitch k _ _ => below 64 k
  | .domainSwitchDone k _ => below 64 k
  | .coreOpWrite n _ _ => coreIdx n
  | .coreOpApply n => coreIdx n
  | .opDeferExpiry n => coreIdx n
  | .powerSettingWrite _ _ => true
  | .powerSample _ => true
  | .idle => true
  | .idleWake _ => true
  | .standby _ => true
  | .standbyExit _ => true
  | .thermalThrottleTick _ => true
  | .thermalCrit _ => true
  | .thermalCritEnd _ => true
  | .thermalTrip _ => true
  | .thermalTripRecovery _ _ => true
  | .throttleRaise _ => true
  | .stackProgrammingPause f _ => fld f
  | .stackProgrammingResume f _ => fld f
  | .rcRegisterRead o bytes => below 0x1000000 o && (decide (0 < bytes) && decide (bytes ≤ 8))
  | .registerWrite o bytes _ _ => below 0x1000000 o && (decide (0 < bytes) && decide (bytes ≤ 8))

end Sys2Proof
end

