-- ==== Sys2Proof/Tests/Slice0.lean ====
section
/-! SUPPORT. Tests of the model: well-formedness, witnesses that the hypotheses of the statements can be met, single steps with results
from the manual. -/

namespace Sys2Proof.Tests

open Sys2Proof Sys2Proof.Machine

-- one test after another: the kernel evaluates each, and side by side they would need a thread each
set_option Elab.async false

/-- Firmware's own access to a port, its previous command executed. -/
def own : PortAccess := { host := false, early := false }

/-- A packet of device 0 that reads nothing. -/
def pk : FabPacket := ⟨0, 0, 0, 1, .read 0 0 0 false 0⟩

/-! ### Well-formedness -/

/-- Well-formed commands, part one. -/
theorem test_wf_accepts_one : ([
    .bundleIssue 0 [] false, .hdgTimeout 0 false, .watchdog 0 false, .sequencerStopped 0, .start ⟨0, none⟩, .resume 0, .halt 0 false,
    .tineRescale 0 0, .tineDrain 0 0, .attendBlock 0 0, .kvFetchBlock 0 0, .kvwriteDone 0 0, .laneBlockStart 0 0, .laneBlockDone 0 0,
    .tableLoadDone 0, .tableLoad 0 0 0, .invalidate 0 0, .chanLanesWrite 0 0, .encodeBlockDone 0, .expandDone 0, .latch 0, .commit 0,
    .sweep 0 0, .sweepDone 0, .partitionWrite 0 0 0, .spmCeWriteBack 0 0, .forcedGrant 0 0 false, .skidderTransferComplete 0 0,
    .channelPost 0 0 0, .channelRecordStart 0 0 [], .channelTransferComplete 0 0, .transferStall 0 false 0 0,
    .transferResume 0 false 0 0, .skidderAbort 0 0, .budgetGrant 0 0, .nmAccess 0 0 false [] 0 0, .wsPageRead 0 0 [] none,
    .spillPoolWrite 0 0, .resRead 0 0 own, .resAlloc 0 0 own, .resPin 0 0 0 own, .resUnpin 0 0 0 own, .resMove 0 0 false 0 own,
    .resMoveDone 0 0 0 own, .resMoveCancel 0 0 0 own, .resRetire 0 0 0 own, .resRelease 0 0 0 own, .resForget 0 0 0 own,
    .resReservedOp 0 10 0 own, .segmentProgram 0 [] false [], .repairSwitchover 0, .expertRequest 0 0 0 0 0 0 0, .semPostArrive 0 0 0 0,
    .hdgSemWrite 0 0, .notifyRead 0, .barrierArrival 0 0 0 0 0, .barrierCfgWrite 0 0, .abortTokenReceive 0 0 0 ⟨0, 0⟩,
    .hedgerowFrameReceive 0 false 0 0 0 (.token 0 0 0), .genAnnounceReceive 0 0 0, .portTraining 0, .portTrainingDone 0 0 false ⟨none, []⟩,
    .flitReceive 0 0 ⟨[], 0⟩, .ackTimeout 0, .acknowledgementReceive 0 0 false, .retrain 0 0, .fabRouteWrite 0 0, .fabricPacketReceive 0 pk,
    .windowEntryWrite 0 0 0 false, .headClaim 0 0 [], .buckerPost 0 0, .buckerJobStart 0 [] [], .buckerJobDone 0,
    .ringTailDoorbell 0 0 0, .eqHeadDoorbell 0 0 0, .descriptorRead 0 (List.replicate 64 0) {}, .fenceComplete 0, .holdoffExpiry 0,
    .ringCfgWrite 0 0, .eqCfgWrite 0 0] : List Instr).all Instr.wf = true := by decide +kernel

/-- Well-formed commands, part two. -/
theorem test_wf_accepts_two : ([
    .timestampLatch 0, .ctxPortRead 0 0 own, .ctxPortWrite 0 0 0 own, .take 0 own, .give 0 own, .ctxReservedOp 0 4 0 0 own,
    .drainTimeout 0 [], .teardownDrained 0, .trimApply 0, .scrubTick 0, .pprRequest 0 0 false, .pprDone 0 false, .injectorArm .ctx 0,
    .deviceErrorReport 0 0, .coreReset 0 0 false, .fieldReset 0 0 [], .fieldReady 0, .fieldReadyTimeout 0 [], .foresterTrap 0 0 0 [],
    .foresterWatchdog 0 0 [], .hostFieldReset 0x100 [], .hostDeviceReset 0x200 [], .deviceReset 0 [], .fieldFence 0 0 false,
    .fieldFenceDone 0, .standAbortRecovery 0 0 [] [] [] [], .identify 0, .tallyRead 0 0 0, .windfallRead 0 0,
    .attest 0 (List.replicate 32 0) false, .certRead 0, .fwLoad 0 [] false, .fwActivate 0 false, .imageInstall 0 0 0 {},
    .imageRepair 0 0 0 {}, .maint 0 [], .reset 0 false [], .serviceReservedOpcode 0 0 0, .powerLoss 0 0, .powerOn 0 0,
    .domainSwitch 0 0 false, .domainSwitchDone 0 0, .coreOpWrite 0 0 false, .coreOpApply 0, .opDeferExpiry 0, .stackProgrammingPause 0 0,
    .stackProgrammingResume 0 0, .rcRegisterRead 0 4, .registerWrite 0 4 0 false] : List Instr).all Instr.wf = true := by decide +kernel

/-- Each check of WellFormed refuses the term that breaks it alone, part one. -/
theorem test_wf_refuses_one : ([
    .bundleIssue 16 [] false, .hdgTimeout 16 false, .watchdog 16 false, .sequencerStopped 16, .start ⟨16, none⟩, .resume 16, .halt 16 false,
    .tineRescale 16 0, .tineRescale 0 4, .tineDrain 16 0, .tineDrain 0 4, .attendBlock 16 0, .kvFetchBlock 16 0, .kvwriteDone 16 0,
    .laneBlockStart 16 0, .laneBlockStart 0 8, .laneBlockDone 16 0, .laneBlockDone 0 8, .tableLoadDone 16, .tableLoad 16 0 0,
    .tableLoad 0 16 0, .tableLoad 0 0 16, .invalidate 16 0, .invalidate 0 16, .chanLanesWrite 16 0, .encodeBlockDone 16, .expandDone 16,
    .latch 16, .commit 16, .sweep 16 0, .sweepDone 16, .partitionWrite 16 0 0, .partitionWrite 0 8 0, .spmCeWriteBack 16 0,
    .spmCeWriteBack 0 0x40000, .forcedGrant 16 0 false, .skidderTransferComplete 16 0, .channelPost 4 0 0, .channelPost 0 16 0,
    .channelRecordStart 4 0 [], .channelRecordStart 0 16 [], .channelTransferComplete 4 0, .channelTransferComplete 0 16,
    .transferStall 4 false 0 0, .transferStall 0 false 16 0, .transferResume 4 false 0 0, .transferResume 0 false 16 0,
    .skidderAbort 4 0, .budgetGrant 6 0, .nmAccess 4 0 false [] 0 0, .nmAccess 0 0 false [] 0 4, .wsPageRead 4 0 [] none,
    .wsPageRead 0 0x2000000 [] none, .spillPoolWrite 3 0, .resRead 6 0 own, .resRead 0 32768 own, .resAlloc 6 0 own,
    .resAlloc 0 32768 own, .resPin 6 0 0 own, .resPin 0 256 0 own, .resPin 0 0 32768 own, .resUnpin 6 0 0 own, .resUnpin 0 256 0 own,
    .resUnpin 0 0 32768 own, .resMove 6 0 false 0 own, .resMove 0 256 false 0 own, .resMove 0 0 false 32768 own, .resMoveDone 6 0 0 own,
    .resMoveDone 0 256 0 own, .resMoveDone 0 0 32768 own, .resMoveCancel 6 0 0 own, .resMoveCancel 0 256 0 own,
    .resMoveCancel 0 0 32768 own, .resRetire 6 0 0 own, .resRetire 0 256 0 own, .resRetire 0 0 32768 own, .resRelease 6 0 0 own,
    .resRelease 0 256 0 own, .resRelease 0 0 32768 own, .resForget 6 0 0 own] : List Instr).any Instr.wf = false := by decide +kernel

/-- Each check of WellFormed refuses the term that breaks it alone, part two. -/
theorem test_wf_refuses_two : ([
    .resForget 0 256 0 own, .resForget 0 0 32768 own, .resReservedOp 6 10 0 own, .resReservedOp 0 9 0 own, .resReservedOp 0 10 32768 own,
    .segmentProgram 64 [] false [], .repairSwitchover 64, .expertRequest 16 0 0 0 0 0 0, .expertRequest 0 64 0 0 0 0 0,
    .semPostArrive 4 0 0 0, .semPostArrive 0 0 4096 0, .hdgSemWrite 4096 0, .notifyRead 4, .barrierArrival 4 0 0 0 0,
    .barrierArrival 0 0 128 0 0, .barrierArrival 0 0 0 4096 0, .barrierCfgWrite 128 0, .abortTokenReceive 6 0 0 ⟨0, 0⟩,
    .abortTokenReceive 0 16 0 ⟨0, 0⟩, .abortTokenReceive 0 0 16 ⟨0, 0⟩, .abortTokenReceive 0 0 0 ⟨16, 0⟩, .abortTokenReceive 0 0 0 ⟨0, 256⟩,
    .hedgerowFrameReceive 6 false 0 0 0 (.token 0 0 0), .hedgerowFrameReceive 0 false 16 0 0 (.token 0 0 0),
    .hedgerowFrameReceive 0 false 0 0 16 (.token 0 0 0), .genAnnounceReceive 6 0 0, .genAnnounceReceive 0 16 0,
    .genAnnounceReceive 0 0 256, .portTraining 6, .portTrainingDone 6 0 false ⟨none, []⟩, .flitReceive 6 0 ⟨[], 0⟩, .flitReceive 0 4096 ⟨[], 0⟩,
    .ackTimeout 6, .acknowledgementReceive 6 0 false, .retrain 6 0, .fabRouteWrite 16 0, .fabricPacketReceive 6 pk,
    .windowEntryWrite 1024 0 0 false, .windowEntryWrite 0 4 0 false, .headClaim 16 0 [], .buckerPost 4 0, .buckerJobStart 4 [] [],
    .buckerJobDone 4, .ringTailDoorbell 1024 0 0, .eqHeadDoorbell 1024 0 0, .descriptorRead 1024 (List.replicate 64 0) {},
    .descriptorRead 0 [] {}, .fenceComplete 1024, .holdoffExpiry 64, .ringCfgWrite 1024 0, .eqCfgWrite 64 0, .timestampLatch 5,
    .ctxPortRead 6 0 own, .ctxPortRead 0 65536 own, .ctxPortWrite 6 0 0 own, .ctxPortWrite 0 4096 0 own, .ctxPortWrite 0 0 65536 own,
    .take 6 own, .give 6 own, .ctxReservedOp 6 4 0 0 own, .ctxReservedOp 0 16 0 0 own, .ctxReservedOp 0 1 0 0 own,
    .ctxReservedOp 0 4 4096 0 own, .ctxReservedOp 0 4 0 65536 own, .drainTimeout 65536 [], .teardownDrained 65536, .trimApply 65536,
    .scrubTick 4, .pprRequest 4 0 false, .pprDone 4 false, .injectorArm (.spm 16) 0, .deviceErrorReport 21 0, .coreReset 4 0 false,
    .fieldReset 4 0 [], .fieldReset 0 256 [], .fieldReady 4, .fieldReadyTimeout 4 [], .foresterTrap 4 0 0 [], .foresterWatchdog 4 0 [],
    .hostFieldReset 0 []] : List Instr).any Instr.wf = false := by decide +kernel

/-- Each check of WellFormed refuses the term that breaks it alone, part three. -/
theorem test_wf_refuses_three : ([
    .hostDeviceReset 0 [], .deviceReset 256 [], .fieldFence 4 0 false, .fieldFenceDone 4, .standAbortRecovery 16 0 [] [] [] [],
    .identify 0x10000, .tallyRead 0x10000 0 0, .windfallRead 0x10000 0, .attest 0x10000 (List.replicate 32 0) false, .attest 0 [] false,
    .certRead 0x10000, .fwLoad 0x10000 [] false, .fwActivate 0x10000 false, .imageInstall 0x10000 0 0 {}, .imageRepair 0x10000 0 0 {},
    .maint 0x10000 [], .reset 0x10000 false [], .serviceReservedOpcode 0x10000 0 0, .serviceReservedOpcode 0 256 0, .powerLoss 3 0,
    .powerOn 16 0, .powerOn 0 4, .domainSwitch 64 0 false, .domainSwitchDone 64 0, .coreOpWrite 16 0 false, .coreOpApply 16,
    .opDeferExpiry 16, .stackProgrammingPause 4 0, .stackProgrammingResume 4 0, .rcRegisterRead 0x1000000 4, .rcRegisterRead 0 0,
    .rcRegisterRead 0 9, .registerWrite 0x1000000 4 0 false, .registerWrite 0 0 0 false, .registerWrite 0 9 0 false] : List Instr).any Instr.wf = false := by decide +kernel

/-! ### Small states -/

/-- Every sparse memory of the state is in canonical form, as a check. -/
def soundStores (s : State) : Bool :=
  storeWf (regReset s.part) s.regs && Memory.wf s.nm && storeWf (fun _ => ({} : TabWord)) s.ctx && storeWf (fun _ => ({} : TabWord)) s.res
    && s.cores.toList.all (fun (c : CoreState) => storeWf (fun _ => ({} : SpmWord)) c.spm && storeWf (fun _ => false) c.written
        && storeWf (fun _ => (0 : Word)) c.sht)
    && s.fields.toList.all (fun (x : FieldState) => storeWf (fun _ => (0 : BitVec 16384)) x.pages && storeWf (fun _ => 0) x.wear)
    && storeWf (fun _ => (none : Option (BitVec 1024))) s.tally && storeWf (fun _ => 0) s.talSupp
    && storeWf (fun _ => ({} : RingState)) s.rings && storeWf (fun _ => ({} : CtxFw)) s.ctxFw && storeWf (fun _ => 0) s.resDest

/-- Nothing of firmware's own waits, as a check. -/
def quietNow (s : State) : Bool :=
  s.fwDone.isEmpty && s.chanWaits.isEmpty && s.xferWaits.isEmpty && s.headWrites.isEmpty && s.descs.all (fun (d : Descr) => d.started)
    && (List.range 64).all fun r => (s.root r).segs.all fun (g : SegState) => !g.redirect

/-- The state is canonical and quiet. -/
def ready (s : State) : Bool := soundStores s && quietNow s

/-- What holds of every element of a vector and of the default holds of what is read at any index. -/
theorem vector_getD_all {α : Type} {n : Nat} (v : Vector α n) (p : α → Bool) (d : α) (h : v.toList.all p = true) (hd : p d = true)
    (i : Nat) : p (v[i]?.getD d) = true := by
  cases hv : v[i]? with
  | none => exact hd
  | some x =>
    have hm : x ∈ v.toList := by
      obtain ⟨hi, rfl⟩ := Vector.getElem?_eq_some_iff.mp hv
      simp
    exact List.all_eq_true.mp h x hm

theorem canonical_of_check {s : State} (h : soundStores s = true) : s.Canonical := by
  simp only [soundStores, Bool.and_eq_true] at h
  obtain ⟨⟨⟨⟨⟨⟨⟨⟨⟨⟨h1, h2⟩, h3⟩, h4⟩, h5⟩, h6⟩, h7⟩, h8⟩, h9⟩, h10⟩, h11⟩ := h
  refine ⟨h1, h2, h3, h4, fun n => ?_, fun f => ?_, h7, h8, h9, h10, h11⟩
  · have q := vector_getD_all s.cores _ ({} : CoreState) h5 (by decide) n
    simp only [Bool.and_eq_true] at q
    exact ⟨q.1.1, q.1.2, q.2⟩
  · have q := vector_getD_all s.fields _ ({} : FieldState) h6 (by decide) f
    simp only [Bool.and_eq_true] at q
    exact ⟨q.1, q.2⟩

theorem quiet_of_check {s : State} (h : quietNow s = true) : Quiet s := by
  simp only [quietNow, Bool.and_eq_true, List.isEmpty_iff, List.all_eq_true, List.mem_range, Bool.not_eq_true'] at h
  obtain ⟨⟨⟨⟨⟨h1, h2⟩, h3⟩, h4⟩, h5⟩, h6⟩ := h
  exact ⟨h1, h2, h3, h4, h5, h6⟩

/-- The premises that most statements share, from the check that the witnesses below evaluate. -/
theorem ready_spec {s : State} (h : ready s = true) : s.Canonical ∧ Quiet s := by
  simp only [ready, Bool.and_eq_true] at h
  exact ⟨canonical_of_check h.1, quiet_of_check h.2⟩

/-- Registers given, over a state. -/
def withRegs (s : State) (l : List (Nat × Word)) : State := l.foldl (fun s p => s.setReg p.1 p.2) s

/-- What exec answers. -/
def after (c : Instr) (s : State) : State := match exec c s with | .next t => t | _ => s

/-- After reset with core 0's three domains ON. -/
def coreUp : State := withRegs State.reset [(domReg 0, 0x202), (domReg 1, 0x202), (domReg 2, 0x202)]

/-- Core 0 in a Sequencer state. -/
def seqIs (s : State) (q : SeqState) : State := s.modCore 0 fun c => { c with seq := q }

/-- Core 0 RUNNING at offset 0 of an instruction partition over its first tile, with the bundle w there. -/
def withBundle (w : Nat) : State :=
  let s := withRegs coreUp [(coreReg 0 Reg.SPMn_PARTk, 0xC0000001)]
  (spmWrite s 0 0 ((leBytes 32 w).map fun b => (b, false)) .forester).modCore 0 fun c => { c with seq := .running }

/-- A bundle of NOP slots that waits for local semaphore 3 to hold 1. -/
def waitBundle : Nat := (1 <<< 16 + 3 <<< 8) <<< 60

/-- A kernel that sets nothing up but the entry point. -/
def noKernel : KernelPlan :=
  { root := 0, parts := [], copies := [], tables := [], area := 0, regs := [], entry := 0, waitLimit := 0, wdogLimit := 0 }

/-! ### The hypotheses of every statement can be met -/

theorem witness_StepRunsFrontCommand : ({ State.reset with pending := [.idle, .heartbeat] } : State).pending = .idle :: [.heartbeat]
    ∧ State.reset.pending = [] := by decide +kernel

theorem witness_StepKeepsStoresCanonical :
    ready { State.reset with pending := [.hdgSemWrite 3 7] } = true
    ∧ step { State.reset with pending := [.hdgSemWrite 3 7] } = .next (after (.hdgSemWrite 3 7) State.reset) := by
  refine ⟨by decide +kernel, rfl⟩

theorem witness_SequencerControl :
    ready coreUp = true ∧ coreOpen coreUp 0 = true ∧ domOn coreUp 0 = true ∧ domOn coreUp 1 = true
    ∧ (coreUp.core 0).seq = .stopped ∧ kernelHeld coreUp 0 noKernel = false
    ∧ (let s := seqIs coreUp .running
       ready s = true ∧ coreOpen s 0 = true ∧ (s.core 0).seq = .running)
    ∧ (let s := seqIs (withRegs coreUp [(coreReg 0 Reg.COREn_TRAP, 0xA0000000)]) .trapped
       ready s = true ∧ coreOpen s 0 = true ∧ (s.core 0).seq = .trapped ∧ bits (s.reg (coreReg 0 Reg.COREn_TRAP)) 29 27 = 4)
    ∧ (let s := seqIs (withRegs coreUp [(domReg 0, 0), (coreReg 0 Reg.COREn_TRAP, 0x98000000)]) .trapped
       coreOpen s 0 = true ∧ domOn s 0 = false ∧ (s.core 0).seq ≠ .stopped ∧ (s.core 0).seq ≠ .running
       ∧ bits (s.reg (coreReg 0 Reg.COREn_TRAP)) 29 27 = 3) := by
  decide +kernel

theorem witness_SequencerLimitsAndStop :
    (let s := withRegs (withBundle waitBundle) [(coreReg 0 Reg.COREn_WDOG_LIMIT, 1), (coreReg 0 Reg.COREn_WAIT_LIMIT, 1)]
     ready s = true ∧ coreClocked s 0 = true ∧ (s.core 0).seq = .running ∧ bits (s.reg (coreReg 0 Reg.COREn_WDOG_LIMIT)) 23 0 ≠ 0
     ∧ bits (s.reg (coreReg 0 Reg.COREn_WAIT_LIMIT)) 23 0 ≠ 0 ∧ (fetchBundle s 0).1 = some waitBundle
     ∧ waitUnmet s 0 (splitBundle waitBundle).hdg = true)
    ∧ ready (seqIs coreUp .draining) = true ∧ coreClocked (seqIs coreUp .draining) 0 = true ∧ drained (seqIs coreUp .draining) 0 = true := by
  decide +kernel

theorem witness_Bundles :
    (let s := withBundle 5
     ready s = true ∧ coreClocked s 0 = true ∧ (s.core 0).seq = .running ∧ (s.core 0).loops = []
     ∧ (s.core 0).sweeping = 0 ∧ (s.core 0).sweepHit = false ∧ enginesIdle s 0 = true
     ∧ (fetchBundle (afterStalls s 0 [[3, 1], []]) 0).1 = some 5 ∧ inInstrPart s 0 0 = true)
    ∧ (let s := seqIs coreUp .running
       ready s = true ∧ coreClocked s 0 = true ∧ (s.core 0).sweeping = 0 ∧ (s.core 0).sweepHit = false ∧ enginesIdle s 0 = true
       ∧ inInstrPart s 0 (32 * (s.core 0).pc) = false)
    ∧ ready (withBundle 0x30000) = true ∧ enginesIdle (withBundle 0x30000) 0 = true
    ∧ (fetchBundle (withBundle 0x30000) 0).1 = some (65536 * 3)
    ∧ (let s := withBundle waitBundle
       ready s = true ∧ coreClocked s 0 = true ∧ (s.core 0).seq = .running ∧ (s.core 0).sweeping = 0 ∧ (s.core 0).sweepHit = false
       ∧ enginesIdle s 0 = true ∧ (fetchBundle s 0).1 = some waitBundle ∧ waitUnmet s 0 (splitBundle waitBundle).hdg = true) := by
  decide +kernel

/-- A tile record: FP8 by FP8, groups of 32, drained as FP32 into the scratchpad. -/
def tileRec : TileRec :=
  { afmt := 0, wfmt := 0, smode := 0, gsize := 0, dbf16 := false, dvu := false, maskEn := false, sht := 0, width := 64, scaleAddr := 0,
    rowScale := 0, maskAddr := 0, dest := 0x10000, dstride := 256 }

/-- A matrix instruction over k positions. -/
def mma (k : Nat) : MmaInstr :=
  { gang := 0, init := true, last := true, act := .spm (.linear 0), wgt := .spm (.linear 0), k, actRow := 0, wgtRow := 0, rcd := tileRec,
    scale := 0, mask := 0, tileId := 7, bad := false, group := 0, start := 0 }

/-- A finished bank, every row masked or none. -/
def bank (masked dvu : Bool) : BankDrain :=
  { bank := false, tileId := 7, gang := 0, acc := [], mask := if masked then BitVec.allOnes 64 else 0, taint := false,
    rcd := { tileRec with dvu }, cube := false, intBlocks := [], start := 0, row := 0, scales := none }

def withTine (x : TineState) : State := setTine coreUp 0 1 x
def withThr (x : ThrState) : State := modThr coreUp 0 fun _ => x
def withHrw (x : HarrowState) : State := modHrw coreUp 0 fun _ => x

/-- An attention record over k positions of one page list. -/
def attRec (mode k : Nat) : AttRec :=
  { mode, mask := 0, qk := 0, pFp8 := false, triple := false, outBf16 := false, rows := 1, t := 1, gen := 0, ctx := 0, pageList := 0x1000,
    pages := 4, committed := k, visible := k, spanLo := 0, spanHi := k, qpos := 0, sigma := 0x3F800000, vscale := 0x3F800000, aoff := 0,
    boff := 0, wa := 64, wb := 64, bufs := 2, qaddr := 0, oaddr := 0, maskAddr := 0, stageAddr := 0 }

def attRun (mode k block : Nat) (stream : Option Nat) : AttRun := { stream, rcd := attRec mode k, block, rows := [{}] }
def stream (k fetched : Nat) (bound : Bool) : FetchStream :=
  { id := 1, recAddr := 64, rcd := attRec 0 k, fetched, read := 0, faults := [], bound, stale := false }

/-- A decode stream of stream 1 into the scratchpad, and a raw block of it, whole. -/
def decStream : HStream :=
  { num := 1, chan := none, lanes := [0], k := 1, n := 8192, dest := .spm 0, issued := 0, firstBlk := 0, fed := true, claimed := 0, done := 0,
    row := 0, buf := [] }
def rawBlock : HBlock := { owner := 1, blk := 0, hdr := (leBytes 16 (1 <<< 31)).map fun b => (b, false), payload := [], ready := true }

theorem witness_TineRescale :
    (let s := withTine { queue := [mma 64] }
     ready s = true ∧ coreClocked s 0 = true ∧ (s.core 0).sweeping = 0 ∧ (s.core 0).sweepHit = false
     ∧ frontInstr s 0 1 = some (mma 64) ∧ (mma 64).act = .spm (.linear 0) ∧ (mma 64).wgt = .spm (.linear 0)
     ∧ ((mma 64).group + 1) * groupLen (mma 64).rcd.gsize < (mma 64).k ∧ (getTine s 0 1).drains.length = 0)
    ∧ (let s := withTine { queue := [mma 32] }
       ready s = true ∧ frontInstr s 0 1 = some (mma 32) ∧ ¬ ((mma 32).group + 1) * groupLen (mma 32).rcd.gsize < (mma 32).k
       ∧ (mma 32).last = true)
    ∧ (let s := withTine { queue := [mma 64], drains := [bank true false, bank true false] }
       ready s = true ∧ frontInstr s 0 1 = some (mma 64) ∧ (mma 64).init = true ∧ (mma 64).group = 0 ∧ 1 ∈ gangTines (mma 64).gang 1
       ∧ 2 ≤ (getTine s 0 1).drains.length)
    -- a gang: the instruction in front of every Tine
    ∧ (let g : MmaInstr := { mma 64 with gang := 1 }
       frontInstr ((List.range 4).foldl (fun s t => setTine s 0 t { queue := [g] }) coreUp) 0 1 = some g) := by
  decide +kernel

theorem witness_TineDrain :
    (let s := withTine { drains := [bank true false] }
     ready s = true ∧ coreClocked s 0 = true ∧ (s.core 0).sweeping = 0 ∧ (s.core 0).sweepHit = false
     ∧ (getTine s 0 1).drains = [bank true false] ∧ gangWaits s 0 1 (bank true false) = false ∧ (getTine s 0 1).diagRows = []
     ∧ (bank true false).row < 64 ∧ (bank true false).rcd.dvu = false)
    ∧ (let s := (withTine { drains := [bank false true] }).modCore 0 fun c => { c with vuq := List.replicate 65 ⟨false, []⟩ }
       ready s = true ∧ (getTine s 0 1).drains = [bank false true] ∧ (bank false true).rcd.dvu = true
       ∧ 128 < (s.core 0).vuq.length
           + (List.range 64).countP fun i => decide ((bank false true).row ≤ i) && !(bank false true).mask.getLsbD i) := by
  decide +kernel

/-- With every memory up and no repair in progress, no address is held. -/
theorem nothing_held {s : State}
    (h : ∀ f, f < 4 → fieldResetting s f = false ∧ nmOn s f = true ∧ (s.field f).ppr = none ∧ domOn s (52 + f) = true) :
    ∀ y len, kvHeld s y len = false := by
  have present : ∀ f, fieldPresent s f = true → f < 4 := by
    intro f hf
    have hle : fieldCount s.part ≤ 4 := by cases s.part <;> decide
    exact Nat.lt_of_lt_of_le (of_decide_eq_true hf) hle
  intro y len
  unfold kvHeld
  split
  · next f x _ =>
    cases hf : fieldPresent s f with
    | false => simp [nmHeld, hf]
    | true =>
      obtain ⟨h1, h2, h3, _⟩ := h f (present f hf)
      simp [nmHeld, nmChannelHeld, h1, h2, h3]
  · next f x _ =>
    cases hf : fieldPresent s f with
    | false => rfl
    | true =>
      obtain ⟨h1, _, _, h4⟩ := h f (present f hf)
      simp [h1, h4]
  · rfl

/-- Core 0 with an open fetch stream that its Skidder entry keeps. -/
def fetching : State :=
  (withThr { streams := [stream 256 0 false] }).setSkq 0 [⟨0, { kind := .fetch 1, src := 0, dst := 0, len := 0 }⟩]

theorem witness_NothingHeld : ∀ y len, kvHeld fetching y len = false := nothing_held (by decide +kernel)

theorem witness_AttentionBlockAndFetchBlock :
    -- staged by firmware, staged by a stream, and not staged
    (let s := withThr { running := some (attRun 2 256 1 none) }
     ready s = true ∧ coreClocked s 0 = true ∧ (s.core 0).sweeping = 0 ∧ (s.core 0).sweepHit = false
     ∧ (thr s 0).running = some (attRun 2 256 1 none) ∧ 0 < (attRun 2 256 1 none).block
     ∧ (attRun 2 256 1 none).block + 1 < (attRun 2 256 1 none).rcd.blocks)
    ∧ (let s := withThr { running := some (attRun 0 256 1 (some 1)), streams := [stream 256 2 true] }
       ready s = true ∧ findFetch s 0 1 = some (stream 256 2 true) ∧ 1 < (stream 256 2 true).fetched
       ∧ (attRun 0 256 1 (some 1)).block + 1 < (attRec 0 256).blocks)
    ∧ (let s := withThr { running := some (attRun 0 256 1 (some 1)), streams := [stream 256 1 true] }
       ready s = true ∧ findFetch s 0 1 = some (stream 256 1 true) ∧ ¬ 1 < (stream 256 1 true).fetched)
    ∧ (ready fetching = true ∧ coreClocked fetching 0 = true ∧ (fetching.core 0).sweeping = 0 ∧ (fetching.core 0).sweepHit = false
       ∧ (thr fetching 0).streams.find? (fun x => decide (x.recAddr = 64) && decide (x.fetched < x.rcd.blocks)) = some (stream 256 0 false)
       ∧ (stream 256 0 false).fetched < (stream 256 0 false).read + (stream 256 0 false).rcd.bufs ∧ fetchAlive fetching 0 1 = true
       ∧ kvParked fetching 0 = false ∧ mayIssue fetching (.skq 0 0) 0 true = true)
    ∧ (let e : Expand := ⟨64, 1, attRec 0 256, 0, 0, 0, 0, 1, false, 64, 64, 4, some 3⟩
       let s := withThr { expand := some e, streams := [stream 256 4 true] }
       ready s = true ∧ (thr s 0).expand = some e ∧ e.rcd.blocks ≤ e.block ∧ findFetch s 0 e.stream = some (stream 256 4 true)
       ∧ (stream 256 4 true).fetched ≤ e.block
       ∧ semPresent s 3 = true ∧ fieldInReset s 0 = false ∧ clockStopped s 0 = false ∧ coreAborted s 0 = false) := by
  decide +kernel

theorem witness_LaneBlocks :
    (let s := withHrw { streams := [decStream], lanes := (Vector.replicate 8 {}).set 0 { queue := [rawBlock] } }
     ready s = true ∧ coreClocked s 0 = true ∧ (s.core 0).sweeping = 0 ∧ (s.core 0).sweepHit = false
     ∧ (hlane (hrw s 0) 0).cur = none ∧ (hlane (hrw s 0) 0).queue = [rawBlock]
     ∧ ownerStream (hrw s 0) rawBlock.owner = some decStream ∧ rawBlock.ready = true ∧ (hrw s 0).load = none)
    ∧ (let s := withHrw { streams := [decStream], lanes := (Vector.replicate 8 {}).set 0 { cur := some (rawBlock, []) } }
       ready s = true ∧ (hlane (hrw s 0) 0).cur = some (rawBlock, []) ∧ s.skq 0 = [] ∧ (∀ k, k < 16 → (s.chan 0 k).cur = none)
       ∧ ownerStream (hrw s 0) rawBlock.owner = some decStream
       ∧ (rawBlock.blk - decStream.firstBlk) / decStream.k * 128 + 0 / 32 ≤ decStream.row + 8
       ∧ decStream.done + 1 < blockCount decStream.n decStream.k)
    -- nine rows ahead
    ∧ (let bytes : List PByte := List.replicate 288 (0, false)
       let s := withHrw { streams := [decStream], lanes := (Vector.replicate 8 {}).set 0 { cur := some (rawBlock, bytes) } }
       ready s = true ∧ ownerStream (hrw s 0) rawBlock.owner = some decStream ∧ decStream.chan = none
       ∧ ¬ (rawBlock.blk - decStream.firstBlk) / decStream.k * 128 + bytes.length / 32 ≤ decStream.row + 8) := by
  decide +kernel

/-- An ENCODE of one row, and a channel's job. -/
def encode (raw : List PByte) : HEnc := { chan := none, src := 0, n := 32, k := 1, slot := none, firstBlk := 0, done := 0, issued := 0, raw }
def chanJob : HEnc := { encode [] with chan := some 3 }

theorem witness_Encoder :
    (let e := encode (List.replicate 32 (7, false))
     let s := seqIs (withHrw { enc := some e }) .running
     ready s = true ∧ coreClocked s 0 = true ∧ (s.core 0).sweeping = 0 ∧ (s.core 0).sweepHit = false ∧ (s.core 0).seq = .running
     ∧ (hrw s 0).enc = some e ∧ e.chan = none ∧ (encBlockRaw e).isSome = true ∧ (hrw s 0).encOut = [])
    ∧ (let x : Xfer := { kind := .blocksOut, src := 0, dst := 0x1000001000, len := 8192 }
       let s := (withHrw { chanEncs := [chanJob] }).setChan 0 3 { cur := some x }
       ready s = true ∧ (hrw s 0).enc = none ∧ (hrw s 0).encWait ≠ .ready ∧ (hrw s 0).chanEncs = [chanJob] ∧ chanJob.chan = some 3
       ∧ getXfer s (.chan 0 3) = some x ∧ x.held = [] ∧ x.stop = false) := by
  decide +kernel

/-- A table of one symbol. -/
def oneSymbol : List Byte := [1, 0, 1, 0, 1, 0] ++ List.replicate 314 0

/-- Core 0 with the first tile a partition, and bytes written at its start. -/
def spmWith (bs : List Byte) (poison : Bool) : State :=
  spmWrite (withRegs coreUp [(coreReg 0 Reg.SPMn_PARTk, 0x80000001)]) 0 0 (bs.map fun b => (b, poison)) .forester

theorem witness_TableSlots :
    (ready coreUp = true ∧ coreOpen coreUp 0 = true ∧ (hrw coreUp 0).load = none ∧ slotInUse (hrw coreUp 0) 3 = 0
      ∧ coreUp.skq 0 = [] ∧ (∀ k, k < 16 → (coreUp.chan 0 k).cur = none) ∧ (coreUp.core 0).seq = .stopped)
    ∧ (let l : HLoad := ⟨3, 5, 0, true⟩
       let s := withHrw { load := some l }
       ready s = true ∧ coreOpen s 0 = true ∧ (hrw s 0).load = some l ∧ l.slot < 16 ∧ coreClocked s 0 = true
       ∧ (s.core 0).sweeping = 0 ∧ (s.core 0).sweepHit = false)
    ∧ ((seqIs coreUp .running).core 0).seq ≠ .stopped := by
  decide +kernel

theorem witness_TableImages :
    (let b := (spmRead (spmWith oneSymbol false) 0 0 320).bytes
     anyPoison b = false ∧ (parseTable (plain b)).isSome = true)
    ∧ parseTable (plain (spmRead (spmWith (List.replicate 320 0) false) 0 0 320).bytes) = none
    ∧ anyPoison (spmRead (spmWith oneSymbol true) 0 0 320).bytes = true := by
  decide +kernel

/-- A copy of 1 KiB from near memory of Field 0 to near memory. -/
def copyXfer : Xfer := { kind := .copy, src := 0x1000001000, dst := 0x1000002000, len := 1024, sem := some 5 }

/-- The record of that copy, as a post names it. -/
def copyRec : List Byte :=
  leBytes 8 0x1000001000 ++ leBytes 8 0x1000002000 ++ leBytes 4 1024 ++ leBytes 16 0 ++ leBytes 2 0x8005 ++ List.replicate 26 0

/-- Channel 3 of Field 0 in a state, over a state. -/
def withChan (s : State) (c : Chan) : State := s.setChan 0 3 c

/-- The copy's record at near-memory offset 0x4000 of Field 0, posted on channel 3. -/
def recordThere (poison : Bool) : State :=
  withChan (nmWrite State.reset 0 0x4000 (copyRec.map fun b => (b, poison)) 0) { queue := [.record 0x1000004000] }

/-- How a read of a record ends: its bytes; nothing there (0) or a wait (1). -/
def readEnd : FwRead → List PByte ⊕ Nat
  | .got b _ => .inl b
  | .none _ => .inr 0
  | .wait _ => .inr 1

/-- Field 1 in reset, so that reads of its near memory wait. -/
def otherHeld (s : State) : State := s.setReg (fieldReg 1 Reg.FLDn_STATUS) 0x80000000

theorem witness_ScaleHistory :
    ready coreUp = true ∧ coreOpen coreUp 0 = true
    ∧ (let s := withRegs coreUp [(coreReg 0 (Reg.VUn_SHT_DATAw + 44), 0x3F800000)]
       ready s = true ∧ coreOpen s 0 = true ∧ (s.core 0).seq = .stopped ∧ ¬ 5 < bits (s.reg (coreReg 0 (Reg.VUn_SHT_DATAw + 48))) 8 6
       ∧ bits (s.reg (coreReg 0 (Reg.VUn_SHT_DATAw + 48))) 20 16 = 0 ∧ seedLegal (s.reg (coreReg 0 (Reg.VUn_SHT_DATAw + 44))) = true)
    ∧ seedLegal (coreUp.reg (coreReg 0 (Reg.VUn_SHT_DATAw + 44))) = false := by
  decide +kernel

theorem witness_Scratchpad :
    (let s := spmWith [1] false
     ready s = true ∧ coreOpen s 0 = true ∧ flag (partWord s 0 0) 31 = true ∧ bits (partWord s 0 0) 14 8 = 0 ∧ bits (partWord s 0 0) 6 0 = 1
     ∧ flag (s.core 0).sweeping 0 = false)
    ∧ partRefused coreUp 0 1 0x00000101 = false
    ∧ (∀ i, i < 96 → tileMode coreUp 0 i = tileMode (coreUp.setReg (coreReg 0 (Reg.SPMn_PARTk + 4)) (0x101 &&& 0xE0007F7F)) 0 i)
    ∧ partRefused coreUp 0 0 0xC0000060 = false
    ∧ (let s := coreUp.modCore 0 fun c => { c with sweeping := 1, ceWb := [4] }
       ready s = true ∧ coreOpen s 0 = true ∧ coreClocked s 0 = true ∧ (s.core 0).sweeping ≠ 0 ∧ 4 ∈ (s.core 0).ceWb ∧ s.heldReqs = []
       ∧ s.waiters = [])
    ∧ coreClocked (seqIs coreUp .running) 0 = true := by
  decide +kernel

/-- A single flip, which the check corrects, in a word that awaits its write-back. -/
theorem witness_CorrectedWord :
    (let s := coreUp.modCore 0 fun c => { c with spm := [(4, { data := 9, flip := 2 })], ceWb := [4] }
     ready s = true ∧ popCount (storeGet ({} : SpmWord) (s.core 0).spm 4).flip = 1
     ∧ readWord false (storeGet {} (s.core 0).spm 4) = .corrected 9 1) := by
  decide +kernel

theorem witness_PartitionWriteRefused :
    (let s := withRegs coreUp [(coreReg 0 (Reg.SPMn_PARTk + 4), 0x80000002)]
     coreOpen s 0 = true ∧ (s.core 0).seq = .stopped ∧ flag (partWord s 0 1) 31 = true ∧ bits (0x80000101 : Word) 14 8 < 2
     ∧ bits (partWord s 0 1) 6 0 = 2 ∧ bits (partWord s 0 1) 14 8 = 0)
    ∧ 96 < bits (0x6001 : Word) 14 8 + bits (0x6001 : Word) 6 0 ∧ bits (0x80000000 : Word) 6 0 = 0
    ∧ flag (0x60000001 : Word) 30 = true ∧ flag (0x60000001 : Word) 29 = true ∧ coreOpen (seqIs coreUp .running) 0 = true
    ∧ ((seqIs coreUp .running).core 0).seq ≠ .stopped := by
  decide +kernel

theorem witness_SkidderEntries :
    (let s := coreUp.setSkq 0 [⟨2, { copyXfer with kind := .kv, code := 2 }⟩, ⟨3, copyXfer⟩]
     ready s = true ∧ coreClocked s 0 = true ∧ (s.core 0).sweeping = 0 ∧ (s.core 0).sweepHit = false
     ∧ (s.skq 0).find? (fun x => decide (x.idx = 2)) = some ⟨2, { copyXfer with kind := .kv, code := 2 }⟩
     ∧ semPresent s 5 = true ∧ fieldInReset s 0 = false ∧ clockStopped s 0 = false ∧ coreAborted s 0 = false ∧ domOn s 48 = true)
    ∧ (let s := coreUp.setSkq 0 [⟨2, { copyXfer with next := 1024 }⟩]
       ready s = true ∧ (s.skq 0).find? (fun x => decide (x.idx = 2)) = some ⟨2, { copyXfer with next := 1024 }⟩
       ∧ xferComplete s (.skq 0 2) { copyXfer with next := 1024 } = true) := by
  decide +kernel

theorem witness_Channels :
    (ready State.reset = true ∧ fieldReachable State.reset 0 = true ∧ domOn State.reset 48 = true ∧ (State.reset.chan 0 3).queue.length < 8)
    ∧ 8 ≤ ((withChan State.reset { queue := List.replicate 8 (.record 0) }).chan 0 3).queue.length
    ∧ (let x : Xfer := { copyXfer with next := 1024 }
       let s := withChan coreUp { cur := some x }
       ready s = true ∧ (s.chan 0 3).cur = some x ∧ (s.chan 0 3).purpose = none ∧ xferComplete s (.chan 0 3) x = true
       ∧ semPresent s 5 = true ∧ fieldInReset s 0 = false ∧ clockStopped s 0 = false ∧ coreAborted s 0 = false)
    -- a read that waits, and one that finds nothing there: the catalogue's place in the weight store
    ∧ (let a := nmAddr 1 0x4000
       let s := otherHeld (withChan State.reset { queue := [.record a] })
       ready s = true ∧ fieldReachable s 0 = true ∧ (s.chan 0 3).cur = none ∧ (s.chan 0 3).halted = false
       ∧ (s.chan 0 3).queue = [.record a] ∧ readEnd (readRecord s 0 a 64 []) = .inr 1)
    ∧ (let s := withChan State.reset { queue := [.record 0x10000000000] }
       (s.chan 0 3).queue = [.record 0x10000000000] ∧ readEnd (readRecord s 0 0x10000000000 64 []) = .inr 0) := by
  decide +kernel

theorem witness_ChannelRecords :
    (let s := recordThere false
     ready s = true ∧ fieldReachable s 0 = true ∧ (s.chan 0 3).cur = none ∧ (s.chan 0 3).halted = false
     ∧ (s.chan 0 3).queue = [.record 0x1000004000]
     ∧ readEnd (readRecord s 0 0x1000004000 64 []) = .inl (copyRec.map fun b => (b, false)))
    ∧ ready (recordThere true) = true
    ∧ ((readEnd (readRecord (recordThere true) 0 0x1000004000 64 [])).getLeft?.map anyPoison) = some true
    ∧ anyPoison (copyRec.map fun b => (b, false)) = false
    -- halted, and an abort word that names the channel
    ∧ (let s := withChan (recordThere false) { halted := true, queue := [.record 0x1000004000] }
       ready s = true ∧ fieldReachable s 0 = true ∧ domOn s 48 = true ∧ (s.chan 0 3).halted = true
       ∧ flag (0x03000000 : Word) 30 = false ∧ bits (0x03000000 : Word) 27 24 = 3
       ∧ readEnd (readRecord (s.setChan 0 3 { s.chan 0 3 with halted := false }) 0 0x1000004000 64 []) = .inl (copyRec.map fun b => (b, false))) := by
  decide +kernel

/-- A write of channel 3 of Field 0 in flight. -/
def aTxn : Txn :=
  { id := 9, pool := 0, owner := .chan 0 3, write := true, addr := 0x1000002000, host := none, dst := 0x1000002000, len := 64,
    data := List.replicate 64 (7, false), gen := 1 }

theorem witness_Transfers :
    (let s := { withRegs (withChan State.reset { cur := some copyXfer }) [(fieldReg 0 Reg.SKDn_WDOG, 4)] with txns := [aTxn] }
     ready s = true ∧ fieldReachable s 0 = true ∧ (s.chan 0 3).cur = some copyXfer ∧ (s.chan 0 3).purpose = none ∧ copyXfer.stalled = false
     ∧ budgetWait s (.chan 0 3) = false ∧ bits (s.reg (fieldReg 0 Reg.SKDn_WDOG)) 23 0 ≠ 0 ∧ (s.chan 0 3).halted = false)
    ∧ (let x : Xfer := { copyXfer with next := 1024 }
       let s := { withChan State.reset { cur := some x } with txns := [aTxn] }
       ready s = true ∧ isDown s = false ∧ s.txns.find? (fun t => decide (t.id = 9)) = some aTxn ∧ aTxn.gen = ownerGen s aTxn.owner
       ∧ aTxn.aborted = false ∧ replyHeld s aTxn = false ∧ standTarget s aTxn.addr = .here (.nm 0 0x2000) ∧ (s.chan 0 3).cur = some x
       ∧ x.check = false ∧ x.held = [] ∧ x.len ≤ x.next)
    ∧ ({ aTxn with gen := 0 } : Txn).gen ≠ ownerGen State.reset aTxn.owner
    ∧ (let t : Txn := { aTxn with owner := .surveyor, gen := 0 }
       t.owner = .surveyor ∧ t.gen ≠ ownerGen State.reset t.owner)
    ∧ (let s := { withChan State.reset { cur := some copyXfer } with waiters := [(0, .chan 0 3), (0, .chan 0 4)] }
       ready s = true ∧ s.waiters.find? (fun w => decide (w.1 = 0) && decide (0 < 6)) = some (0, .chan 0 3) ∧ poolUsed s 0 + 32 < poolSize s 0
       ∧ copyXfer.stop = false ∧ copyXfer.next < copyXfer.len
       ∧ standTarget s copyXfer.src = .here (.nm 0 0x1000) ∧ placeOn s (.nm 0 0x1000) = true ∧ fieldInReset s 0 = false
       ∧ (0, XferOwner.chan 0 4) ∈ s.waiters.erase (0, .chan 0 3) ∧ (0, XferOwner.chan 0 3) ∉ s.waiters.erase (0, .chan 0 3)) := by
  decide +kernel

theorem witness_PoolFull : poolSize { State.reset with txns := List.replicate 1504 aTxn } 0
    ≤ poolUsed { State.reset with txns := List.replicate 1504 aTxn } 0 + 32 := by
  decide +kernel

theorem witness_NearMemory :
    ready State.reset = true ∧ isDown State.reset = false ∧ nmHeld State.reset 0 0 64 = false ∧ nmPopulated State.reset 0 0 = true
    ∧ flag (State.reset.reg (fieldReg 0 Reg.NMn_INJ_CTRL)) 31 = false ∧ nmPopulated State.reset 0 0x3FFFFFFC0 = false
    ∧ nmHeld State.reset 0 0x3FFFFFFC0 64 = false ∧ fieldPresent State.reset 0 = true
    ∧ (let s := { State.reset with nm := [(5, { data := 8, flip := 0, chk := 1 })], nmWb := [5] }
       ready s = true ∧ 5 ∈ s.nmWb) := by
  decide +kernel

theorem witness_WeightPages :
    (let u : Txn := { aTxn with write := false, addr := 0x10000000000 + 0x4000000, len := 512 }
     let s := { State.reset with txns := [u] }
     ready s = true ∧ isDown s = false ∧ fieldPresent s 0 = true ∧ hasWeightStore s.part = true ∧ fieldResetting s 0 = false
     ∧ domOn s 52 = true ∧ u ∈ s.txns ∧ wsTxnOff s 0 u = some 0x4000000 ∧ 0x4000000 / 2048 ≤ 0x8000
     ∧ 0x8000 ≤ (0x4000000 + u.len - 1) / 2048 ∧ (u.got.any fun g => decide (g.1 = 0x8000)) = false) := by
  decide +kernel

theorem witness_SpillPool :
    ready State.reset = true ∧ spillIdle State.reset = true
    ∧ (let s := { State.reset with res := [(8, { data := 0x80100000 })] }
       ready s = true ∧ spillIdle s = false) := by
  decide +kernel

/-- Residency entry 2 with a word 0, and words 1, 4, 5 and 6. -/
def resIs (w0 w1 w4 w5 : Word) (w6 : Word := 0x1000) : State :=
  { State.reset with res := ([(16, w0), (17, w1), (20, w4), (21, w5), (22, w6)].filter (·.2 ≠ 0)).map fun x => (x.1, { data := x.2 }) }

/-- Nothing of firmware's own waits after reset, and its ports are its own. -/
theorem witness_Ports :
    ready State.reset = true ∧ isDown State.reset = false ∧ fieldPresent State.reset 1 = true ∧ own.host = false ∧ own.early = false
    ∧ portUsable State.reset 1 = true ∧ portUsable State.reset 5 = true
    ∧ quarantined State.reset .res 2 = false ∧ (∀ w, w < 8 → (tabWordAt (resIs 1 0 0 0) .res 2 w).flip = 0) := by
  decide +kernel

theorem witness_Residency :
    -- HOME; PINNED with 1, 2 and 255 pins; FREE; RETIRING; HOME of kind STAGED; moving up and down
    ([0x80005000, 0xB0005001, 0xB0005002, 0xB00050FF, 0x00005000, 0xC0005000, 0x86005000, 0x90005000, 0xA0005000].all
      fun w => ready (resIs w 0xFFFF0001 0 0)) = true
    ∧ (resValid 0x80005000 = true ∧ resState 0x80005000 = 0 ∧ resKind 0x80005000 ≠ 3)
    ∧ (resState 0xB0005001 = 3 ∧ resPins 0xB0005001 = 1 ∧ resPins 0xB0005002 = 2 ∧ resPins 0xB00050FF = 255)
    ∧ resValid 0x00005000 = false ∧ resState 0xC0005000 = 4 ∧ resKind 0x86005000 = 3 ∧ resState 0x90005000 = 1 ∧ resState 0xA0005000 = 2
    ∧ (let s := resIs 0x80005000 0xFFFF0001 0 0
       tabData s .res 2 0 = 0x80005000 ∧ bits (tabData s .res 2 1) 31 16 = 0xFFFF ∧ kvObject s 2 = none ∧ resGen 0x80005000 = 5)
    ∧ (3 : Nat) ≠ resGen 0x80005000 := by
  decide +kernel

/-- A coded near-memory object that may go to the spill pool, the pool of 1 MiB, and port 1 naming its start. -/
def movable : State :=
  withRegs (resIs 0x81005000 0xFFFF0001 0 0 0x1008) [(Reg.RES_SPILL_BASE_HI, 0x8000), (Reg.RES_SPILL_SIZE, 1), (Reg.CTX_BUDGETc + 16, 256),
    (resArg 1 0, 0x100000), (resArg 1 5, 0x8000)]

/-- A move of firmware's on entry 2 that has ended so, or is under way. -/
def aMove (outcome : Option Nat) : Move :=
  { entry := 2, src := 0x1000000000, dst := 0x800000000000, len := 8192, owner := 0xFFFF, ownerGen := 1, down := true, field := 0,
    staged := false, core := 0, off := 0, slot := none, outcome }

theorem witness_Moves :
    (ready movable = true ∧ resValid (tabData movable .res 2 0) = true ∧ resState (tabData movable .res 2 0) = 0
      ∧ resKind (tabData movable .res 2 0) ≠ 3 ∧ bits (tabData movable .res 2 1) 31 16 = 0xFFFF ∧ kvObject movable 2 = none
      ∧ moveAllowed movable ⟨4, true, 5, 2⟩ (moveDest movable 1) = true
      ∧ destCoded movable 2 (moveDest movable 1).1 = resCoded movable 2
      ∧ codedUnits (resSize movable 2) (resCoded movable 2) ≤ budget movable (tierCounter (moveDest movable 1).1 (moveDest movable 1).2.1)
      ∧ (pickChan movable 0).isSome = true)
    ∧ moveAllowed movable ⟨4, false, 5, 2⟩ (moveDest movable 1) = false
    ∧ (let s := resIs 0xA1005000 0xFFFF0001 0 0x8000 0x1008
       ready s = true ∧ resState (tabData s .res 2 0) = 2 ∧ findMove s 2 = none
       ∧ findMove { s with moves := [aMove none] } 2 = some (aMove none) ∧ (aMove none).outcome = none
       ∧ findMove { s with moves := [aMove (some 0)] } 2 = some (aMove (some 0)) ∧ (aMove (some 0)).outcome = some 0
       ∧ findMove { s with moves := [aMove (some 8)] } 2 = some (aMove (some 8)) ∧ (aMove (some 8)).outcome = some (7 + 1)) := by
  decide +kernel

/-- The digest of "abc" (the first example of FIPS 180-4), and a manifest of one raw segment of Field 0 that holds "abc" (R215). -/
def abcDigest : List Byte := (leBytes 32 0xba7816bf8f01cfea414140de5dae2223b00361a396177a9cb410ff61f20015ad).reverse
def abcManifest : List Byte :=
  List.replicate 32 0 ++ leBytes 4 64 ++ List.replicate 40 0 ++ leBytes 4 1 ++ leBytes 8 3 ++ leBytes 8 0 ++ abcDigest
def abc : List Byte := [0x61, 0x62, 0x63]

/-- An operation of model root 0, over a map entry that opens outbound space. -/
def rootOp (kind : RootOpKind) (todo : List Nat) : RootOp :=
  { kind, desc := none, port := none, makeCurrent := false, before := 0, addr := 0x800000000000, bytes := 4096, todo }
def withRoot (kind : RootOpKind) (todo : List Nat) (segs : List SegState) : State :=
  (withRegs State.reset [(Reg.HST_OMAPi_W0, 0xC0000000)]).modRoot 0 fun _ =>
    { st := 2, manifest := abcManifest, segs, op := some (rootOp kind todo) }

theorem witness_SegmentProgram :
    let s := withRoot .install [0, 1] [{ exts := 1 }, { exts := 1 }]
    ready s = true ∧ isDown s = false
    ∧ (s.root 0).op = some (rootOp .install [0, 1]) ∧ (s.field (infoAt s 0 0).field).wsPaused = false
    ∧ domOn s (52 + (infoAt s 0 0).field) = true ∧ segRanges (infoAt s 0 0) abc = [(0, 3)]
    ∧ omapCheck s (0x800000000000 + (infoAt s 0 0).offset) 3 false = none ∧ hdrsOk (infoAt s 0 0) abc = true
    ∧ sha256 abc = (infoAt s 0 0).digest ∧ (programTries 1 s 0 0 abc []).1 = true := by
  decide +kernel

theorem witness_RepairAndExperts :
    (let s := withRoot .repair [] [{ exts := 1, bad := true, fresh := some (5, 1) }]
     ready s = true ∧ (s.root 0).op = some (rootOp .repair []) ∧ (rootOp .repair []).before ≠ 5 ∧ s.steps = [] ∧ repairList s 0 = []
     ∧ (segAt s 0 0).fresh = some (5, 1))
    ∧ (let s := (coreUp.modRoot 0 fun x => { x with st := 3 })
       ready s = true ∧ corePresent s 0 = true ∧ fieldInReset s 0 = false ∧ domOn s 48 = true ∧ (s.root 0).st ≠ 0
       ∧ spmHeld s 0 0 0 = false) := by
  decide +kernel

/-- Core 0 RUNNING as a member of job 2, barrier group 5 enabled for four arrivals, one semaphore waiting in Field 0. -/
def hdgState : State :=
  { seqIs (withRegs coreUp [(Reg.HDG_COREj_JOB, 0x12), (Reg.HDG_BARg_CFG + 40, 0xC2000003), (semReg 3, 0x80000009)]) .running with
    notify := State.reset.notify.set 0 [7, 8] }

theorem witness_Semaphores :
    ready hdgState = true ∧ isDown hdgState = false
    ∧ (semPresent hdgState 3 = true ∧ fieldInReset hdgState 0 = false ∧ clockStopped hdgState 0 = false ∧ coreAborted hdgState 0 = false)
    ∧ (3 : Nat) ≠ fldGen hdgState 0
    ∧ (let v : Word := 0x00100003
       bits v 30 28 = 0 ∧ bits v 15 12 = 0 ∧ nameRemote hdgState v = false ∧ bits v 11 0 = 3)
    ∧ bits (0x10000003 : Word) 30 28 ≠ 0
    ∧ (bits (0x00030004 : Word) 31 28 = 0 ∧ bits (0x00030004 : Word) 27 16 = 3 ∧ bits (0x00030004 : Word) 15 0 ≤ semVal hdgState 3)
    ∧ semVal hdgState 3 < bits (0x0003000A : Word) 15 0
    ∧ fieldPresent hdgState 0 = true ∧ hdgState.notify[0]? = some (7 :: [8]) ∧ hdgState.notify[1]? = some []
    -- the island clock stopped: the core's base domain is OFF
    ∧ semPresent State.reset 3 = true ∧ clockStopped State.reset 0 = true ∧ coreAborted State.reset 0 = false := by
  decide +kernel

theorem witness_Barriers :
    ready hdgState = true ∧ flag (barCfg hdgState 5) 31 = true ∧ groupAborted hdgState 5 = false
    ∧ bits (barStatus hdgState 5) 8 0 < bits (barCfg hdgState 5) 7 0
    ∧ (let v : Word := 0x00050003
       bits v 31 23 = 0 ∧ bits v 22 16 = 5 ∧ bits v 15 12 = 0 ∧ bits v 11 0 = 3 ∧ semPresent hdgState 3 = true)
    ∧ (let s := withRegs hdgState [(Reg.HDG_BARg_STATUS + 40, 3)]
       ready s = true ∧ bits (barStatus s 5) 8 0 = bits (barCfg s 5) 7 0 ∧ bits (barStatus s 5) 8 0 ≠ 0) := by
  decide +kernel

theorem witness_Jobs :
    ready hdgState = true ∧ isDown hdgState = false ∧ flag (hdgState.reg Reg.HDG_COREj_JOB) 4 = true
    ∧ bits (hdgState.reg Reg.HDG_COREj_JOB) 3 0 = 2 ∧ (hdgState.core 0).seq = .running ∧ fieldPresent hdgState 0 = true
    ∧ portOn hdgState 0 = true ∧ abortSeq hdgState 2 ≠ 1 ∧ abortSeq hdgState 2 = 0 := by
  decide +kernel

/-- The fabric enabled for device 1, port 0 UP and powered, port 1 UP. -/
def portUp : State := withRegs hdgState [(Reg.FAB_CFG, 0x80000001), (Reg.FAB_STATUS, 0xA), (Reg.FAB_PEER_GENi, 0x00070000)]

theorem witness_Frames :
    ready portUp = true ∧ isDown portUp = false ∧ portOn portUp 0 = true ∧ portState portUp 0 = 2
    ∧ (semPresent portUp 3 = true ∧ fieldInReset portUp 0 = false ∧ clockStopped portUp 0 = false ∧ coreAborted portUp 0 = false)
    ∧ (6 : Nat) ≠ peerGen portUp 2 ∧ peerGen portUp 2 = 7 ∧ 1 < portCount portUp.part ∧ portState portUp 1 = 2 := by
  decide +kernel

theorem witness_Training :
    ready portUp = true ∧ portState portUp 0 ≠ 1
    ∧ (let s := portUp.setReg Reg.FAB_STATUS 0x9
       ready s = true ∧ portState s 0 = 1 ∧ (s.port 0).retraining = false
       ∧ (0 : Nat) % 65536 = bits (s.reg Reg.FAB_CFG) 19 4 ∧ (2 : Nat) % 16 ≠ devNum s ∧ devNum s = 1)
    ∧ (let s := (portUp.setReg Reg.FAB_STATUS 0x9).setPort 0 { retraining := true, retrains := 1 }
       ready s = true ∧ (s.port 0).retraining = true ∧ (s.port 0).retrains < 2) := by
  decide +kernel

theorem witness_Flits :
    ready portUp = true ∧ (0 : Nat) % 4096 = (portUp.port 0).rxSeq ∧ (9 : Nat) % 4096 ≠ (portUp.port 0).rxSeq
    ∧ flitCrc 0 [1] + 1 ≠ flitCrc 0 [1] ∧ flitCrc 9 [1] + 1 ≠ flitCrc 9 [1]
    ∧ (portUp.port 0).fails + 1 < 16 ∧ 16 ≤ ((portUp.setPort 0 { fails := 15 }).port 0).fails + 1
    ∧ (let s := portUp.setPort 0 { unacked := [4, 5, 6] }
       ready s = true ∧ (s.port 0).unacked = [4] ++ 5 :: [6] ∧ (5 : Nat) ∉ [4])
    ∧ (portUp.port 0).unacked = [] := by
  decide +kernel

/-- Window 0 open to device 2 for reads and writes of 4 KiB of near memory of Field 0. -/
def windowOpen : State :=
  withRegs portUp [(Reg.WIN_ENTRYi_W0, 0xE0000004), (Reg.WIN_ENTRYi_W0 + 4, 0), (Reg.WIN_ENTRYi_W0 + 8, 0x10), (Reg.WIN_ENTRYi_W0 + 12, 64),
    (Reg.FAB_ROUTEd + 12, 0x80000001)]

/-- Device 2's write of 64 bytes for this device. -/
def write64 (a : Nat) : FabPacket := { src := 2, gen := 7, dst := 1, hops := 0, body := .write 3 a (List.replicate 64 (7, false)) false 0 }

theorem witness_FabricConfiguration :
    ready portUp = true ∧ isDown portUp = false ∧ 0 < portCount portUp.part ∧ flag (portUp.reg Reg.FAB_CFG) 31 = true
    ∧ bits (0x80000002 : Word) 19 0 ≠ bits (portUp.reg Reg.FAB_CFG) 19 0
    ∧ (flag (1 : Word) 31 = false ∧ bits (1 : Word) 19 0 = bits (portUp.reg Reg.FAB_CFG) 19 0)
    ∧ flag (State.reset.reg Reg.FAB_CFG) 31 = false ∧ isDown State.reset = false
    ∧ 6 ≤ bits (0x80000006 : Word) 2 0 ∧ bits (0x80000001 : Word) 2 0 < 6 ∧ bits (0x80000001 : Word) 6 4 < 6
    ∧ ready windowOpen = true ∧ winOpen windowOpen 0 = true ∧ winOpen windowOpen 1 = false ∧ winSize windowOpen 1 = 0 := by
  decide +kernel

theorem witness_FabricPackets :
    ready windowOpen = true ∧ portOn windowOpen 0 = true ∧ portState windowOpen 0 = 2
    ∧ (write64 0).gen = peerGen windowOpen 2 ∧ (write64 0).dst = devNum windowOpen
    ∧ routePort windowOpen 3 = some 1 ∧ portState windowOpen 1 = 2 ∧ (windowOpen.port 1).waitPk = []
    ∧ replayRoom (windowOpen.port 1) { write64 0 with dst := 3 } = true ∧ (3 : Nat) ≠ devNum windowOpen
    ∧ placeOf 0x1000000040 = .nm 0 0x40 ∧ nmHeld windowOpen 0 0x40 64 = false
    -- held: a repair of the channel
    ∧ nmHeld (windowOpen.modField 0 fun x => { x with ppr := some (0, 0, 0) }) 0 0x40 64 = true := by
  decide +kernel

theorem witness_WindowChecks :
    let u := windowOpen.bump (portReg 0 Reg.FAB_Pp_RX_CNT) 1
    bodyUnits (write64 0x1000000040).body = 1 ∧ winCheck u 2 0x1000000040 64 true false 0 = (some 0, none)
    ∧ winCheck u 3 0x1000000040 64 true false 0 = (some 0, some 2) := by
  decide +kernel

theorem witness_TwinHeads :
    (let s := withRegs portUp [(Reg.FAB_TWIN, 0x400FF003), (Reg.FAB_ROUTEd + 12, 0x80000001)]
     ready s = true ∧ isDown s = false ∧ activeHead s = true ∧ twinDev s ≠ devNum s ∧ livePort s (twinDev s) = some 1
     ∧ mayIssue s .surveyor 5 true = true)
    ∧ activeHead portUp = false
    ∧ (let s := withRegs portUp [(Reg.FAB_TWIN, 0x800FF003), (Reg.FAB_ROUTEd + 12, 0x80000001)]
       ready s = true ∧ fabEn s = true ∧ bits (s.reg Reg.FAB_TWIN) 31 30 = 2 ∧ livePort s 3 ≠ none ∧ (3 : Nat) ≠ devNum s)
    ∧ bits (portUp.reg Reg.FAB_HEAD) 19 12 = 0 := by
  decide +kernel

/-- Record and table of a Bucker job of one participant. -/
def jobRec : List Byte :=
  leBytes 2 0 ++ leBytes 2 1 ++ leBytes 2 0 ++ leBytes 2 1 ++ leBytes 4 1 ++ leBytes 4 64 ++ leBytes 8 0 ++ leBytes 8 0x1000005000
    ++ leBytes 4 0x80000007 ++ leBytes 2 0 ++ leBytes 2 9 ++ List.replicate 24 0
def jobTab : List Byte := leBytes 8 0x1000001000 ++ leBytes 8 0x1000002000 ++ leBytes 8 0x80000003 ++ leBytes 8 0
def jobThere (poison : Bool) : State :=
  (nmWrite (nmWrite State.reset 0 0x4000 (jobRec.map fun b => (b, poison)) 0) 0 0x5000 (jobTab.map fun b => (b, false)) 0).setBkr 0
    { queue := [0x1000004000] }

theorem witness_BuckerJobs :
    (let s := jobThere false
     ready s = true ∧ fieldReachable s 0 = true ∧ domOn s 48 = true ∧ (s.bkr 0).cur = none ∧ (s.bkr 0).queue = [0x1000004000]
     ∧ (match readRecord s 0 0x1000004000 64 [] with
        | .got b v => decide (anyPoison b = false ∧ bkrLegal (parseBkrRec (plain b)) = true ∧ (parseBkrRec (plain b)).count = 1)
            && (match readRecord v 0 0x1000005000 32 [] with
              | .got tb w => decide (anyPoison tb = false ∧ localBlock w (leField (plain tb) 0 8 % 2 ^ 52) = true)
              | _ => false)
        | _ => false) = true)
    ∧ ((readEnd (readRecord (jobThere true) 0 0x1000004000 64 [])).getLeft?.map anyPoison) = some true
    ∧ readEnd (readRecord State.reset 0 0x10000000000 64 []) = .inr 0
    ∧ (let s := otherHeld (State.reset.setBkr 0 { queue := [nmAddr 1 0x4000] })
       ready s = true ∧ readEnd (readRecord s 0 (nmAddr 1 0x4000) 64 []) = .inr 1)
    ∧ (let x : Xfer := { copyXfer with next := 1024 }
       let s := State.reset.setBkr 0 { cur := some x }
       ready s = true ∧ (s.bkr 0).cur = some x ∧ xferComplete s (.bucker 0) x = true)
    ∧ 4 ≤ ((State.reset.setBkr 0 { queue := [0, 0, 0, 0] }).bkr 0).queue.length := by
  decide +kernel

/-- Ring 3 with descriptors of Field 0 and event queue 2, 64 entries each, both enabled in outbound space, nothing in work and no
event held. -/
def hostUp : State :=
  withRegs { State.reset with errHeld := [] } [(Reg.HST_OMAPi_W0, 0xE0001000), (ringReg 3 Reg.HST_RINGr_BASE_HI, 0x8000), (ringReg 3 Reg.HST_RINGr_CFG, 0x80800000),
    (ringReg 3 Reg.HST_RINGr_HEAD, 5), (ringReg 3 Reg.HST_RINGr_TAIL, 7), (eqReg 2 Reg.HST_EQq_BASE_LO, 0x10000),
    (eqReg 2 Reg.HST_EQq_BASE_HI, 0x8000), (eqReg 2 Reg.HST_EQq_CFG, 0x80000000), (eqReg 2 Reg.HST_EQq_WIDX, 0x10009)]

/-- A NOP that asks for a record, or not, with tag 0x11223344. -/
def nop (quiet : Bool) : List Byte := leBytes 1 0 ++ leBytes 1 quiet.toNat ++ leBytes 2 0 ++ leBytes 4 0x11223344 ++ List.replicate 56 0

/-- A started RING fence of ring 3. -/
def ringFence : Descr :=
  { id := 4, ring := 3, epoch := 0, pos := 0, slot := 0, eq := 2, home := 0, bytes := leBytes 1 5 ++ List.replicate 63 0, env := {}, stamps := [],
    started := true, fence := none, ended := false, discard := false }

theorem witness_Doorbells :
    ready hostUp = true ∧ isDown hostUp = false ∧ ringEn hostUp 3 = true ∧ bits (9 : Word) 15 0 < cfgSize (ringCfg hostUp 3)
    ∧ activeHead hostUp = false
    ∧ ¬ bits (64 : Word) 15 0 < cfgSize (ringCfg hostUp 3) ∧ eqEn hostUp 2 = true ∧ (hostUp.eqSt 2).waiting = []
    ∧ (let size := cfgSize (eqCfg hostUp 2)
       let head := bits (hostUp.reg (eqReg 2 Reg.HST_EQq_HEAD)) 15 0
       let widx := bits (hostUp.reg (eqReg 2 Reg.HST_EQq_WIDX)) 15 0
       (4 + size - head) % size ≤ (widx + size - head) % size ∧ (widx + size - head) % size < (10 + size - head) % size)
    ∧ (let s := (setArmed (withRegs hostUp [(Reg.MSIX_TABLE + 12, 0)]) 2 true).setEqSt 2 { since := 1 }
       ready s = true ∧ eqEn s 2 = true ∧ eqArmed s 2 = true ∧ 0 < (s.eqSt 2).since
       ∧ flag (s.reg (Reg.MSIX_TABLE + 12)) 0 = false)
    ∧ (let s := (setArmed (withRegs hostUp [(Reg.MSIX_TABLE + 12, 1)]) 2 true).setEqSt 2 { since := 1 }
       ready s = true ∧ flag (s.reg (Reg.MSIX_TABLE + 12)) 0 = true)
    ∧ ringEn hostUp 4 = false ∧ fieldPresent hostUp (bits (0x80800000 : Word) 29 28) = true ∧ eqEn hostUp (bits (0x80800000 : Word) 27 22) = true
    ∧ eqEn hostUp 5 = false ∧ hostUp.errHeld = [] ∧ hostUp.errLost = 0 ∧ bits (ringCfg hostUp 3) 27 22 = 2 := by
  decide +kernel

/-- The same on an active head with a live port to its twin. -/
def headUp : State := withRegs hostUp [(Reg.FAB_CFG, 0x80000001), (Reg.FAB_STATUS, 0xA), (Reg.FAB_TWIN, 0x400FF003), (Reg.FAB_ROUTEd + 12, 0x80000001)]

theorem witness_HeadDoorbell :
    ready headUp = true ∧ ringEn headUp 3 = true ∧ activeHead headUp = true ∧ twinDev headUp ≠ devNum headUp
    ∧ livePort headUp (twinDev headUp) = some 1 ∧ mayIssue headUp .surveyor 5 true = true := by
  decide +kernel

theorem witness_Descriptors :
    ready hostUp = true ∧ 0 < ringPending hostUp 3 ∧ fieldInReset hostUp (bits (ringCfg hostUp 3) 29 28) = false ∧ liveOn hostUp 3 = []
    ∧ (hostUp.ringSt 3).abortTo ≤ (hostUp.ringSt 3).read ∧ hostUp.descs = []
    ∧ omapCheck hostUp (ringBase hostUp 3 + 64 * 5) 64 false = none
    ∧ (∀ q, (nop q).length = 64 ∧ leField (nop q) 0 1 = 0 ∧ leField (nop q) 2 2 = 0 ∧ leField (nop q) 8 56 = 0 ∧ leField (nop q) 1 1 = q.toNat)
    ∧ activeHead hostUp = false ∧ eqEn hostUp 2 = true ∧ (hostUp.eqSt 2).waiting = []
    ∧ (hostUp.eqSt 2).lost = 0 ∧ flag (hostUp.reg (eqReg 2 Reg.HST_EQq_WIDX)) 17 = false
    ∧ (bits (hostUp.reg (eqReg 2 Reg.HST_EQq_WIDX)) 15 0 + 1) % cfgSize (eqCfg hostUp 2) ≠ bits (hostUp.reg (eqReg 2 Reg.HST_EQq_HEAD)) 15 0
    ∧ omapCheck hostUp (eqBase hostUp 2 + 32 * 9) 32 true = none
    ∧ (let s := { hostUp with descs := [ringFence] }
       ready s = true ∧ liveOn s 3 = [ringFence] ∧ ringFence.started = true ∧ isFence ringFence = true ∧ ringFence.ended = false
       ∧ ringFence.fence = none) := by
  decide +kernel

theorem witness_CorrelationAndReset :
    ready hostUp = true ∧ isDown hostUp = false ∧ hostUp.corr = none ∧ (after (.correlationArm 5) hostUp).corr ≠ none
    ∧ fieldPresent hostUp 3 = true ∧ (hostUp.clock 3).run = true ∧ fieldPresent { State.reset with part := .fn0102 } 3 = false := by
  decide +kernel

/-- Context 2 with a word 0 and a word 1, and model root 0 PRESENT. -/
def ctxIs (w0 w1 : Word) (x : CtxFw) : State :=
  (({ State.reset with ctx := ([(32, w0), (33, w1), (36, 64)].filter fun (p : Nat × Word) => p.2 ≠ 0).map fun (p : Nat × Word) => (p.1, ({ data := p.2 } : TabWord)) } : State).setFw 2 x).modRoot 0
    fun r => { r with st := 3, pins := 1 }

theorem witness_ContextPort :
    (isDown State.reset = false ∧ (1 : Nat) < 5 ∧ fieldPresent State.reset 1 = true ∧ own.host = false ∧ own.early = false)
    ∧ ready (ctxIs 0x20000005 0 {}) = true ∧ ready (ctxIs 0x20000005 3 {}) = true
    ∧ quarantined (ctxIs 0x20000005 0 {}) .ctx 2 = false ∧ (∀ w, w < 16 → (tabWordAt (ctxIs 0x20000005 0 {}) .ctx 2 w).flip = 0)
    ∧ ¬ (ctxState 0 = 0 ∧ bits (tabData (ctxIs 0x20000005 0 {}) .ctx 2 1) 15 0 ≠ 0)
    ∧ (ctxState ((ctxIs 0x20000005 3 {}).reg (ctxArg 1 0)) = 0 ∧ bits (tabData (ctxIs 0x20000005 3 {}) .ctx 2 1) 15 0 ≠ 0)
    ∧ (4 : Nat) ≠ ctxGen (tabData (ctxIs 0x20000005 0 {}) .ctx 2 0) := by
  decide +kernel

theorem witness_Budgets :
    (let s := withRegs State.reset [(ctxArg 1 0, 0x02000010), (Reg.CTX_BUDGETc + 8, 0x20)]
     ready s = true ∧ bits (s.reg (ctxArg 1 0)) 26 24 = 2 ∧ bits (s.reg (ctxArg 1 0)) 23 0 ≤ budget s 2
     ∧ budget s 2 + bits (s.reg (ctxArg 1 0)) 23 0 ≤ 0xFFFFFF)
    ∧ (let s := withRegs State.reset [(ctxArg 1 0, 0x02000021), (Reg.CTX_BUDGETc + 8, 0xFFFFDF)]
       ready s = true ∧ 0xFFFFFF < budget s 2 + bits (s.reg (ctxArg 1 0)) 23 0)
    ∧ (let s := withRegs State.reset [(ctxArg 1 0, 0x02000021), (Reg.CTX_BUDGETc + 8, 0x20)]
       ready s = true ∧ budget s 2 < bits (s.reg (ctxArg 1 0)) 23 0) := by
  decide +kernel

/-- A STEP of one row, its input read already, and a step of that context. -/
def heldStep : HeldStep :=
  { desc := none, ring := 3, tokens := 1, inCount := 0, inAddr := 0, outAddr := 0, outCap := 0, stop := 0, drafts := [] }
def aStep : StepRun :=
  { id := 6, field := 0, cores := [0], job := none, subs := [{ root := 0, members := [{ ctx := 2, gen := 5, rows := 1, drafts := 0, share := 0, pins := [] }] }] }

/-- Field 0's Forester takes up to four rows of root 0 on its own cores. -/
def onePlan : StepPlan := { field := 0, cores := [0], job := none, caps := [(0, 4)], posts := [] }

theorem witness_Steps :
    (let s := ctxIs 0x30000005 0 { held := some heldStep, genCopy := 5, pages := 1, pageUnits := 1, objs := [(8, 0, 1)] }
     let b := boundaryEnds s
     let u := (liveCtxs b).foldl (fun s e =>
       if (s.fw e).held.isSome && ctxOpen s e && !inStep s e && !listHeld s e then readyPages s e (nextNeed s e) else s) b
     ready s = true ∧ isDown s = false ∧ fieldPresent s onePlan.field = true ∧ fieldInReset s onePlan.field = false
     ∧ (onePlan.cores.any fun f => fieldInReset s f) = false ∧ stepHeld s onePlan = false
     ∧ (formSubs u onePlan.caps ((liveCtxs u).filter (eligible u)) (List.range 64)).1 ≠ [])
    ∧ (let s := { ctxIs 0x30000005 0 { held := some heldStep } with steps := [aStep] }
       ready s = true ∧ s.steps.find? (fun t => decide (t.id = 6)) = some aStep ∧ fieldInReset s aStep.field = false
       ∧ (aStep.subs.flatMap (·.members)).all (fun m => (outFor [⟨2, 0, [17]⟩] m).isSome) = true) := by
  decide +kernel

theorem witness_Teardown :
    (let s := ctxIs 0x20000005 0 { genCopy := 5, trims := [9] }
     ready s = true ∧ quarantined s .ctx 2 = false ∧ flag (s.reg Reg.CTX_INJ_CTRL) 31 = false ∧ (s.fw 2).trims ≠ [] ∧ inStep s 2 = false
     ∧ ctxOpen s 2 = true ∧ listHeld s 2 = false)
    ∧ (let s := ctxIs 0x60000005 0 { genCopy := 5 }
       ready s = true ∧ ctxState (tabData s .ctx 2 0) = 3 ∧ drainBusy s 2 = false ∧ s.res = [])
    ∧ (let s := ctxIs 0x60000005 1 { genCopy := 5 }
       ready s = true ∧ drainBusy s 2 = true ∧ (s.fw 2).timeouts = 0) := by
  decide +kernel

theorem witness_ScrubAndRepair :
    ready State.reset = true ∧ nmRuns State.reset 0 = true ∧ isDown State.reset = false
    ∧ (let s := withRegs State.reset [(fieldReg 0 Reg.NMn_SCRUB_CTRL, 0x80000000)]
       ready s = true ∧ nmRuns s 0 = true ∧ isDown s = false ∧ flag (s.reg (fieldReg 0 Reg.NMn_SCRUB_CTRL)) 31 = true
       ∧ nmChannelHeld s 0 (4096 * bits (s.reg (fieldReg 0 Reg.NMn_SCRUB_STATUS)) 21 0) 4096 = false
       ∧ (bits (s.reg (fieldReg 0 Reg.NMn_SCRUB_STATUS)) 21 0 + 1) * 4096 < nmDataEnd s.part)
    ∧ (let s := withRegs State.reset [(fieldReg 0 Reg.NMn_SCRUB_CTRL, 0x80000000), (fieldReg 0 Reg.NMn_SCRUB_STATUS, 0x003FFFFF)]
       ready s = true ∧ nmRuns s 0 = true ∧ isDown s = false ∧ flag (s.reg (fieldReg 0 Reg.NMn_SCRUB_CTRL)) 31 = true
       ∧ nmChannelHeld s 0 (4096 * bits (s.reg (fieldReg 0 Reg.NMn_SCRUB_STATUS)) 21 0) 4096 = false
       ∧ nmDataEnd s.part ≤ (bits (s.reg (fieldReg 0 Reg.NMn_SCRUB_STATUS)) 21 0 + 1) * 4096)
    ∧ (State.reset.field 0).ppr = none ∧ flag (0x91000004 : Word) 31 = true ∧ flag (4 : Word) 31 = false
    ∧ (let s := State.reset.modField 0 fun x => { x with ppr := some (1, 2, 3) }
       ready s = true ∧ nmRuns s 0 = true ∧ isDown s = false ∧ (s.field 0).ppr = some (1, 2, 3))
    ∧ injPresent State.reset (.nm 0) = true ∧ (regRow (injCtrl (.nm 0))).isSome = true := by
  decide +kernel

theorem witness_Quarantine :
    let s := { State.reset with ctxQuar := [2], resQuar := [3] }
    ready s = true ∧ isDown s = false ∧ bits (0x01230002 : Word) 15 0 ∈ s.ctxQuar ∧ bits (3 : Word) 15 0 ∉ s.ctxQuar
    ∧ bits (0x00230003 : Word) 14 0 ∈ s.resQuar ∧ bits (0x00230003 : Word) 27 24 = 0 ∧ bits (2 : Word) 14 0 ∉ s.resQuar := by
  decide +kernel

theorem witness_ErrorReportsAndFences :
    ready hostUp = true ∧ isDown hostUp = false ∧ fieldPresent hostUp 0 = true ∧ fieldInReset hostUp 0 = false
    ∧ fieldQuiesced hostUp 0 = false ∧ (∀ w ∈ hostUp.waiters, w.1 < 16) ∧ hostUp.heldReqs = []
    ∧ (let s := withRegs hostUp [(fieldReg 0 Reg.WSn_ERR_STATUS, 6), (fieldReg 0 Reg.WSn_ERR_EVENT_EN, 3)]
       ready s = true ∧ isDown s = false ∧ fieldInReset s 0 = false ∧ errEq s = none
       ∧ s.reg (fieldReg 0 Reg.WSn_ERR_STATUS) &&& s.reg (fieldReg 0 Reg.WSn_ERR_EVENT_EN) ≠ 0)
    ∧ flag (3 : Word) 1 = true ∧ corePresent hostUp 1 = true ∧ (hostUp.field 0).fence = none ∧ flag (0x80000009 : Word) 31 = true
    ∧ (let s := hostUp.modField 0 fun x => { x with fence := some 7 }
       ready s = true ∧ isDown s = false ∧ fieldInReset s 0 = false ∧ (s.field 0).fence ≠ none)
    ∧ (let s := seqIs (withRegs coreUp [(Reg.HDG_STATUS, 4), (Reg.HDG_COREj_JOB, 0x12), (semReg 3, 9)]) .trapped
       ready s = true ∧ isDown s = false ∧ fieldPresent s 0 = true ∧ jobAborted s 2 = true
       ∧ (s.core 0).seq = .trapped ∧ s.skq 0 = [] ∧ semPresent s 3 = true
       ∧ coreCount s.part = 16 ∧ ∀ n, n < 16 → 0 < n → flag (s.reg (Reg.HDG_COREj_JOB + 4 * n)) 4 = false) := by
  decide +kernel

/-- After reset with every domain of every core ON. -/
def allOn : State := withRegs State.reset ((List.range 48).map fun k => (domReg k, (0x202 : Word)))

/-- Field 1, or the device, held in reset. -/
def fieldHeld : State := allOn.setReg (fieldReg 1 Reg.FLDn_STATUS) 0x80000000
def deviceHeld : State := allOn.setReg Reg.SRV_RESET_STATUS 0x10001

def aCapture : Capture := { device := false, field := 1, cause := 2, slot := 0, tsStart := 0, next := 0, done := [] }

theorem witness_FieldResets :
    ready allOn = true ∧ fieldPresent allOn 1 = true ∧ allOn.power.off = false ∧ deviceInReset allOn = false ∧ fieldInReset allOn 1 = false
    ∧ allOn.capture = none ∧ allOn.captureWaits = [] ∧ domOn allOn 49 = true
    ∧ (∀ k, k < 63 → domOn allOn k = true) ∧ (∀ k, k < 4 → (allOn.core (4 * 1 + k)).sweeping = 0)
    ∧ bits (0xA5000102 : Word) 31 24 = 0xA5 ∧ bits (0xA5000102 : Word) 9 8 = 1 ∧ bits (0xA5000102 : Word) 3 0 = 2 ^ 1 := by
  decide +kernel

theorem witness_FieldResetsBusy :
    (let s := { allOn with capture := some { aCapture with field := 0 } }
     ready s = true ∧ deviceInReset s = false ∧ fieldInReset s 1 = false ∧ s.capture = some { aCapture with field := 0 })
    ∧ ready fieldHeld = true ∧ fieldHeld.power.off = false ∧ deviceInReset fieldHeld = false
    ∧ fieldInReset fieldHeld 1 = true ∧ fieldAsserted fieldHeld 1 = true ∧ domOn fieldHeld 49 = true := by
  decide +kernel

theorem witness_DeviceResets :
    (∀ n, n < 16 → (allOn.core n).sweeping = 0) ∧ (∀ k, k < 63 → domPresent allOn k = true → domOn allOn k = true)
    ∧ bits (0xA5000200 : Word) 31 24 = 0xA5 ∧ bits (0xA5000200 : Word) 9 8 = 2
    ∧ ready deviceHeld = true ∧ deviceHeld.power.off = false ∧ deviceInReset deviceHeld = true
    ∧ deviceHeld.power.standby = false ∧ deviceHeld.power.tripped = false ∧ inRecovery deviceHeld = false ∧ deviceHeld.toRecovery = false
    ∧ srvCheck deviceHeld deviceHeld.bankPtr = none ∧ frsCheck deviceHeld deviceHeld.bankPtr = none ∧ deviceHeld.capture = none := by
  decide +kernel

/-- An index past the cores reads a core as it is after reset. -/
theorem core_past (s : State) (n : Nat) (h : 16 ≤ n) : s.core n = {} := by
  simp [State.core, Vector.getElem?_eq_none h]

theorem witness_NothingSweeps (n : Nat) : (allOn.core n).sweeping = 0 := by
  by_cases h : n < 16
  · exact witness_DeviceResets.1 n h
  · rw [core_past _ _ (by omega)]

theorem witness_DeviceResetsOnPort :
    let s := withRegs allOn [(domReg 62, 0x202), (Reg.USB_SVC_CTRL, 1)]
    ready s = true ∧ s.power.off = false ∧ deviceInReset s = false ∧ s.capture = none ∧ s.captureWaits = []
    ∧ (∀ n, n < 16 → (s.core n).sweeping = 0) ∧ (∀ k, k < 63 → domPresent s k = true → domOn s k = true)
    ∧ flag (s.reg Reg.USB_SVC_CTRL) 0 = true ∧ domOn s 62 = true ∧ s.power.tripped = false ∧ inRecovery s = false := by
  decide +kernel

theorem witness_WindfallAndTally :
    ready State.reset = true ∧ isDown State.reset = false ∧ storeGet none State.reset.tally 5 = none
    ∧ (let s := { State.reset with tally := [(5, some 7)] }
       ready s = true ∧ isDown s = false ∧ storeGet none s.tally 5 = some 7)
    ∧ (let s := { allOn with capture := some aCapture }
       ready s = true ∧ (wfRegions s aCapture)[0]? = some (1, 1) ∧ (wfRegions s aCapture)[1]? = some (2, 1) ∧ capDomain aCapture = 1
       ∧ aCapture.device = false ∧ s.captureWaits = [] ∧ fieldPresent s 1 = true ∧ aCapture.slot < 2) := by
  decide +kernel

/-- What registers read once others are given over them. -/
def regRead (d : Nat → Word) : List (Nat × Word) → Nat → Word
  | [], o => d o
  | p :: l, o => regRead (fun q => if q = p.1 then p.2 else d q) l o

theorem setReg_reads {s : State} (h : s.Canonical) (o : Nat) (v : Word) (q : Nat) :
    (s.setReg o v).reg q = if q = o then v else s.reg q := by
  split
  · rename_i e; subst e
    exact storeGet_set_same _ h.regs
  · rename_i e
    exact storeGet_set_other _ _ _ _ e

theorem setReg_canonical {s : State} (h : s.Canonical) (o : Nat) (v : Word) : (s.setReg o v).Canonical :=
  { h with regs := storeSet_wf rfl h.regs }

/-- Registers given over a canonical state, whatever their reset values: a canonical state that differs in its registers alone. -/
theorem withRegs_spec : ∀ (l : List (Nat × Word)) (s : State), s.Canonical →
    (withRegs s l).Canonical ∧ (∃ r, withRegs s l = { s with regs := r }) ∧ (withRegs s l).reg = regRead s.reg l
  | [], s, h => ⟨h, ⟨s.regs, rfl⟩, rfl⟩
  | p :: l, s, h => by
    obtain ⟨c, ⟨r, e⟩, q⟩ := withRegs_spec l (s.setReg p.1 p.2) (setReg_canonical h _ _)
    refine ⟨c, ⟨r, e⟩, ?_⟩
    have : (s.setReg p.1 p.2).reg = fun o => if o = p.1 then p.2 else s.reg o := funext fun o => setReg_reads h _ _ o
    rw [show withRegs s (p :: l) = withRegs (s.setReg p.1 p.2) l from rfl, q, this]
    rfl

/-- After reset with the service port open, and the maintenance command of an operation in the buffer registers. -/
def portOpen : State := withRegs State.reset [(Reg.USB_SVC_CTRL, 1)]
def maintIs (op : Nat) : State := withRegs portOpen [(Reg.TAL_MAINT_BUFw, 0x544E4D4B), (Reg.TAL_MAINT_BUFw + 4, BitVec.ofNat 32 op)]

theorem portOpen_ready : ready portOpen = true := by decide +kernel

/-- Header bytes of a Surveyor package of security version 3 that advances the fuses. -/
def srvPackage : List Byte := leBytes 4 0x46574B49 ++ leBytes 2 1 ++ leBytes 1 0 ++ leBytes 1 1 ++ leBytes 4 0 ++ leBytes 4 3 ++ List.replicate 240 0

theorem witness_Maintenance :
    ready portOpen = true ∧ isDown portOpen = false ∧ inRecovery portOpen = false ∧ svcOpen portOpen = true
    ∧ (∀ op, op < 4 → ready (maintIs op) = true ∧ isDown (maintIs op) = false ∧ inRecovery (maintIs op) = false
      ∧ svcOpen (maintIs op) = true ∧ maintOp (regBytes (maintIs op) Reg.TAL_MAINT_BUFw 128) = op)
    ∧ portOpen.bankPtr < 2 ∧ portOpen.banks.toList.length = 2 ∧ 1 - portOpen.bankPtr ≠ bootedBank portOpen
    ∧ (portOpen.reg Reg.SRV_FW_LEN).toNat = ([] : List Byte).length
    ∧ omapCheck portOpen (bits (portOpen.reg Reg.SRV_FW_ADDR_HI) 15 0 <<< 32 + bits (portOpen.reg Reg.SRV_FW_ADDR_LO) 31 6 * 64) 0 false = none
    ∧ portOpen.runSrv = none ∧ portOpen.runFrs = none := by
  decide +kernel

/-- A running package of security version 3, on a chip whose counter is 2. -/
def svnRegs : List (Nat × Word) := [(Reg.SRV_SVN, 2)]
def advances : State := withRegs { portOpen with runSrv := some srvPackage } svnRegs

/-- What the register file of a state tells of a state that is up with the service port open and no operation through it. -/
theorem port_of_reads {t : State} {g : Nat → Word} {r : Store Word}
    (hreads : ({ t with regs := r } : State).reg = g)
    (hup : (!flag (g Reg.SRV_RESET_STATUS) 31 || t.power.off || t.power.tripped || t.power.standby) = false)
    (hrec : flag (g Reg.SRV_BOOT_STATUS) 30 = false)
    (hopen : (flag (g Reg.USB_SVC_CTRL) 0 && decide (bits (g (domReg 62)) 9 8 = 2) && !t.power.off && !t.power.tripped
      && !((List.range 64).any fun i => (t.root i).op.any fun x => x.port.isSome)) = true) :
    isDown { t with regs := r } = false ∧ inRecovery { t with regs := r } = false ∧ svcOpen { t with regs := r } = true := by
  have h1 : isDown { t with regs := r } = false := by
    simp only [isDown, deviceInReset, hreads]; exact hup
  have h2 : inRecovery { t with regs := r } = false := by
    simp only [inRecovery, hreads]; exact hrec
  refine ⟨h1, h2, ?_⟩
  have h3 : deviceInReset { t with regs := r } = false := by
    simp only [isDown, Bool.or_eq_false_iff] at h1; exact h1.1.1.1
  simp only [Bool.and_eq_true, Bool.not_eq_true'] at hopen
  obtain ⟨⟨⟨⟨h4, h5⟩, h6⟩, h7⟩, h8⟩ := hopen
  simp only [svcOpen, h2, h3, domOn, domState, hreads, h4, h5, h6, h7, Bool.not_false, Bool.true_or, Bool.and_self, Bool.true_and,
    Bool.not_eq_true']
  exact h8

theorem witness_FuseAdvance :
    advances.Canonical ∧ (isDown advances = false ∧ inRecovery advances = false ∧ svcOpen advances = true)
    ∧ advances.runSrv = some srvPackage ∧ pkgTarget srvPackage = 0 ∧ natBit (leField srvPackage 7 1) 0 = true
    ∧ fusedSvn advances 0 < min (pkgSvn srvPackage) 63 := by
  have hr : ready ({ portOpen with runSrv := some srvPackage } : State) = true := by decide +kernel
  obtain ⟨c, ⟨r, e⟩, q⟩ := withRegs_spec svnRegs _ (ready_spec hr).1
  have hq := q
  rw [e] at hq
  have hs : fusedSvn advances 0 = 2 := by
    simp only [fusedSvn, if_true]
    rw [show advances.reg = _ from q]
    decide
  refine ⟨c, ?_, ?_, by decide +kernel, by decide +kernel, ?_⟩
  · rw [show advances = _ from e]
    exact port_of_reads hq (by decide +kernel) (by decide +kernel) (by decide +kernel)
  · rw [show advances = _ from e]
  · rw [hs]; decide +kernel

/-- A signed image of one segment that holds "abc": its header's r and s are both the digest of its first 64 bytes, so that it
verifies under the key whose sum with the generator of P-256 has that first coordinate (R213–R218, R375). -/
def abcImage : List Byte :=
  let r := (leBytes 32 0x605367888893f4b05be077281dd1a0d6bf9e60d31a7b3c07b4d07686a22b6fc0).reverse
  leBytes 4 0x4E4A5041 ++ leBytes 4 1 ++ leBytes 8 4224 ++ leBytes 8 4096 ++ leBytes 4 128 ++ leBytes 4 2
    ++ (leBytes 32 0xf4fd4c69ec8182425751ddbdfeec0febce98c59ad91c26c1234863386f18154f).reverse ++ r ++ r ++ List.replicate 128 0
def oneManifest : List Byte := abcManifest.set 10 1

/-- That key in slot 2, for images. -/
def keyRegs : List (Nat × Word) :=
  let x := 0xb9bc074c0d1407d4c40fefa0f93b7acc8374942d478382df2933375124ee36ed * 2 ^ 256
    + 0x2194c0883ccb2e077a951f1238989067655f0dc3881aae5dc33c15b3732e8dcb
  (Reg.SRV_KEY_STATUS, (0x80 : Word))
    :: (List.range 16).map fun w => (Reg.SRV_KEYk_Ww + 128 + 4 * w, (BitVec.ofNat 32 (x >>> (32 * (15 - w))) : Word))
def keySlot : State := withRegs portOpen keyRegs

theorem keySlot_reads : keySlot.reg = regRead portOpen.reg keyRegs := (withRegs_spec keyRegs _ (ready_spec portOpen_ready).1).2.2
theorem keySlot_regs : ∃ r, keySlot = { portOpen with regs := r } := (withRegs_spec keyRegs _ (ready_spec portOpen_ready).1).2.1
theorem keySlot_roots : keySlot.roots = portOpen.roots := by obtain ⟨r, e⟩ := keySlot_regs; rw [e]
theorem keySlot_fields : keySlot.fields = portOpen.fields := by obtain ⟨r, e⟩ := keySlot_regs; rw [e]
theorem keySlot_part : keySlot.part = portOpen.part := by obtain ⟨r, e⟩ := keySlot_regs; rw [e]

theorem witness_ServicePort :
    keySlot.Canonical ∧ Quiet keySlot ∧ isDown keySlot = false ∧ inRecovery keySlot = false ∧ svcOpen keySlot = true
    ∧ hasWeightStore keySlot.part = true ∧ (0x305 : Nat) % 256 < 64 := by
  obtain ⟨c, ⟨r, e⟩, q⟩ := withRegs_spec keyRegs _ (ready_spec portOpen_ready).1
  have hq := q
  rw [e] at hq
  have hp := port_of_reads hq (by decide +kernel) (by decide +kernel) (by decide +kernel)
  have hd := (ready_spec portOpen_ready).2
  rw [show keySlot = _ from e] 
  exact ⟨e ▸ c, ⟨hd.fwDone, hd.chanWaits, hd.xferWaits, hd.headWrites, hd.descs, hd.copies⟩, hp.1, hp.2.1, hp.2.2,
    show hasWeightStore portOpen.part = true by decide +kernel, by decide⟩

theorem keySlot_signed : signatureOk keySlot (imgKey abcImage) 1 (abcImage.take 64) (slice abcImage 64 64) = true := by
  simp only [signatureOk, slotOk, slotKey, beRegs, keySlot_reads]
  decide +kernel

theorem witness_ImageChecks : imageChecks keySlot abcImage oneManifest 4224 false = none := by
  have hc : keySlot.reg Reg.SRV_CAP0 = portOpen.reg Reg.SRV_CAP0 := by rw [keySlot_reads]; rfl
  simp only [imageChecks, keySlot_signed, hc]
  decide +kernel

theorem witness_ImageRoots :
    (keySlot.root 5).st = 0 ∧ (keySlot.root 5).op = none ∧ (∀ p, p < 64 → (keySlot.root p).st = 0) := by
  simp only [State.root, keySlot_roots]
  decide +kernel

/-- A fold whose every step answers something, over a list that is not empty, answers something. -/
theorem foldl_isSome (g : Option Nat → Nat → Option Nat) (hg : ∀ m e, (g m e).isSome = true) :
    ∀ (l : List Nat) (m : Option Nat), l ≠ [] → (l.foldl g m).isSome = true
  | [], _, h => absurd rfl h
  | [_], _, _ => hg _ _
  | _ :: y :: t, _, _ => foldl_isSome g hg (y :: t) _ (List.cons_ne_nil y t)

/-- A run is found as soon as one place is free. -/
theorem chooseRun_isSome (s : State) (f n e : Nat) (he : extFirst ≤ e) (hb : e < extEnd)
    (h : ((List.range n).all fun i => extFree s f (heldRuns s f) (e + i)) = true) : (chooseRun s f n).isSome = true := by
  have mem : e ∈ ((List.range (extEnd - extFirst)).map (extFirst + ·)).filter
      fun e => (List.range n).all fun i => extFree s f (heldRuns s f) (e + i) :=
    List.mem_filter.mpr ⟨List.mem_map.mpr ⟨e - extFirst, List.mem_range.mpr (by omega), by omega⟩, h⟩
  refine foldl_isSome _ (fun m e => ?_) _ none (List.ne_nil_of_mem mem)
  cases m with
  | none => rfl
  | some b => simp only []; split <;> rfl

/-- One segment whose Field is present and has a run finds its place. -/
theorem placeRuns_one (s : State) (r i f n : Nat) (hf : (infoAt s r i).field = f) (hn : ceilDiv (segInstalled (infoAt s r i)) extBytes = n)
    (hp : fieldPresent s f = true) (hc : (chooseRun s f n).isSome = true) : (placeRuns s r false [i]).isSome = true := by
  obtain ⟨e, q⟩ := Option.isSome_iff_exists.mp hc
  simp only [placeRuns, hf, hn, hp, q, if_true, Option.isSome_some]

/-- Without an error queue a NOTICE changes neither roots nor fields. -/
theorem notice_without_queue (s : State) (code w1 w2 w3 : Nat) (h : s.reg Reg.HST_ERR_EQ = 0) :
    (notice s code w1 w2 w3).roots = s.roots ∧ (notice s code w1 w2 w3).fields = s.fields ∧ (notice s code w1 w2 w3).part = s.part := by
  have hs : ∀ k, (stamp s k).2.part = s.part ∧ (stamp s k).2.roots = s.roots ∧ (stamp s k).2.fields = s.fields := by
    intro k
    simp only [stamp]
    split <;> exact ⟨rfl, rfl, rfl⟩
  have he : errEq s = none := by
    simp only [errEq, h]
    rfl
  simp only [notice, errRecord, formRec, he]
  exact ⟨(hs 4).2.1, (hs 4).2.2, (hs 4).1⟩

theorem svcTake_errEq {s : State} (h : s.Canonical) (op : Nat) : (svcTake s op).reg Reg.HST_ERR_EQ = s.reg Reg.HST_ERR_EQ := by
  rw [svcTake, State.raise, setReg_reads (setReg_canonical h _ _), if_neg (by decide), setReg_reads h, if_neg (by decide)]

/-- The service port's installation in root 5, begun, and with its segments listed. -/
def svcOp : RootOp :=
  { kind := .install, desc := none, port := some 3, makeCurrent := true, before := 0, addr := 0, bytes := 4224, todo := [] }
def svcBegun (s : State) : State := (svcTake s 0x20).modRoot 5 fun (x : Root) => { x with op := some svcOp }
def listed (x : Root) : Root :=
  { x with header := abcImage.take 256, manifest := oneManifest, segs := List.replicate (manSegments oneManifest) {},
           streamOnly := natBit 0x305 9, op := some { svcOp with todo := List.range (manSegments oneManifest) } }
def begunInstall : State := (setRootState (svcBegun keySlot) 5 1).modRoot 5 listed

/-- Its roots and fields, from the state after reset. -/
def begunRoots : State := ((svcBegun portOpen).modRoot 5 fun x => { x with st := 1 }).modRoot 5 listed

/-- A root's change leaves the fields, the part and the registers. -/
theorem modRoot_frame (s : State) (r : Nat) (f : Root → Root) :
    (s.modRoot r f).roots = s.roots.setIfInBounds r (f (s.root r)) ∧ (s.modRoot r f).fields = s.fields
      ∧ (s.modRoot r f).part = s.part ∧ (s.modRoot r f).reg = s.reg := by
  have h : ∀ x, (catWrite s r x).roots = s.roots ∧ (catWrite s r x).fields = s.fields ∧ (catWrite s r x).part = s.part
      ∧ (catWrite s r x).regs = s.regs := by
    intro x
    simp only [catWrite]
    split <;> exact ⟨rfl, rfl, rfl, rfl⟩
  simp only [State.modRoot, State.setRoot]
  split
  · exact ⟨rfl, rfl, rfl, rfl⟩
  · obtain ⟨a, b, c, d⟩ := h (catRoot (f (s.root r)))
    exact ⟨by rw [a], b, c, funext fun o => by simp only [State.reg, c, d]⟩

/-- States that agree in roots, fields and part agree in them after a root's change too. -/
theorem modRoot_agree {s t : State} (h : s.roots = t.roots ∧ s.fields = t.fields ∧ s.part = t.part) (r : Nat) (f : Root → Root) :
    (s.modRoot r f).roots = (t.modRoot r f).roots ∧ (s.modRoot r f).fields = (t.modRoot r f).fields
      ∧ (s.modRoot r f).part = (t.modRoot r f).part := by
  obtain ⟨a, b, c, -⟩ := modRoot_frame s r f
  obtain ⟨a', b', c', -⟩ := modRoot_frame t r f
  rw [a, b, c, a', b', c', State.root, State.root, h.1]
  exact ⟨rfl, h.2⟩

theorem setRootState_without_queue (s : State) (r st : Nat) (hst : ¬ (s.root r).st = st) (h : s.reg Reg.HST_ERR_EQ = 0) :
    let t := s.modRoot r fun x => { x with st }
    (setRootState s r st).roots = t.roots ∧ (setRootState s r st).fields = t.fields ∧ (setRootState s r st).part = t.part := by
  intro t
  rw [setRootState, if_neg hst]
  exact notice_without_queue t 0x01 r st 0 (by rw [(modRoot_frame s r _).2.2.2]; exact h)

theorem begun_agree {s t : State} (c : s.Canonical) (hq : s.reg Reg.HST_ERR_EQ = 0)
    (h : s.roots = t.roots ∧ s.fields = t.fields ∧ s.part = t.part) (hst : ¬ ((svcBegun t).root 5).st = 1) :
    let u := (svcBegun t).modRoot 5 fun x => { x with st := 1 }
    (setRootState (svcBegun s) 5 1).roots = u.roots ∧ (setRootState (svcBegun s) 5 1).fields = u.fields
      ∧ (setRootState (svcBegun s) 5 1).part = u.part := by
  have hb := modRoot_agree (s := svcTake s 0x20) (t := svcTake t 0x20) h 5 fun (x : Root) => { x with op := some svcOp }
  have hs : ¬ ((svcBegun s).root 5).st = 1 := by
    rw [State.root, svcBegun, hb.1]; exact hst
  have he : (svcBegun s).reg Reg.HST_ERR_EQ = 0 := by
    rw [svcBegun, (modRoot_frame _ 5 _).2.2.2, svcTake_errEq c, hq]
  obtain ⟨x, y, z⟩ := setRootState_without_queue _ 5 1 hs he
  obtain ⟨x', y', z'⟩ := modRoot_agree hb 5 fun (x : Root) => { x with st := 1 }
  exact ⟨x.trans x', y.trans y', z.trans z'⟩

theorem begunInstall_roots :
    begunInstall.roots = begunRoots.roots ∧ begunInstall.fields = begunRoots.fields ∧ begunInstall.part = begunRoots.part := by
  refine modRoot_agree (begun_agree witness_ServicePort.1 ?_ ⟨keySlot_roots, keySlot_fields, keySlot_part⟩ ?_) 5 listed
  · rw [keySlot_reads]; decide +kernel
  · decide +kernel

theorem begunRoots_place : (infoAt begunRoots 5 0).field = 0 ∧ ceilDiv (segInstalled (infoAt begunRoots 5 0)) extBytes = 1
    ∧ fieldPresent begunRoots 0 = true ∧ List.range (manSegments oneManifest) = [0]
    ∧ ((List.range 1).all fun i => extFree begunRoots 0 (heldRuns begunRoots 0) (20 + i)) = true := by
  decide +kernel

theorem witness_ImageInstall : (placeRuns begunInstall 5 false (List.range (manSegments oneManifest))).isSome = true := by
  obtain ⟨a, b, c⟩ := begunInstall_roots
  obtain ⟨h1, h2, h3, h4, h5⟩ := begunRoots_place
  rw [h4]
  refine placeRuns_one begunInstall 5 0 0 1 ?_ ?_ ?_ (chooseRun_isSome begunInstall 0 1 20 (by decide) (by decide) ?_)
  · simpa only [infoAt, State.root, a] using h1
  · simpa only [infoAt, State.root, a] using h2
  · simpa only [fieldPresent, c] using h3
  · have hh : heldRuns begunInstall 0 = heldRuns begunRoots 0 := by simp only [heldRuns, infoAt, State.root, a]; rfl
    have hf : extFree begunInstall 0 = extFree begunRoots 0 := by funext l e; simp only [extFree, State.field, b]
    rw [hh, hf]; exact h5

/-- Root 5 READY, of the image, with its one segment in one extent. -/
def readyRoot : Root := { st := 3, header := abcImage, manifest := oneManifest, segs := [{ exts := 1 }] }
def repairable : State := withRegs (portOpen.modRoot 5 fun _ => readyRoot) keyRegs

theorem witness_ImageRepair :
    repairable.Canonical ∧ Quiet repairable ∧ (isDown repairable = false ∧ inRecovery repairable = false ∧ svcOpen repairable = true)
    ∧ imageChecks repairable abcImage oneManifest 4224 false = none
    ∧ (repairable.root 5).st = 3 ∧ (repairable.root 5).near = false ∧ (repairable.root 5).op = none ∧ repairList repairable 5 = []
    ∧ imgDigest abcImage = imgDigest (repairable.root 5).header := by
  have hr : ready (portOpen.modRoot 5 fun _ => readyRoot) = true := by decide +kernel
  obtain ⟨c, ⟨r, e⟩, q⟩ := withRegs_spec keyRegs _ (ready_spec hr).1
  have hq := q
  rw [e] at hq
  have hd := (ready_spec hr).2
  have hs : signatureOk repairable (imgKey abcImage) 1 (abcImage.take 64) (slice abcImage 64 64) = true := by
    simp only [signatureOk, slotOk, slotKey, beRegs, show repairable.reg = _ from q]
    decide +kernel
  have hc : repairable.reg Reg.SRV_CAP0 = portOpen.reg Reg.SRV_CAP0 := by rw [show repairable.reg = _ from q]; rfl
  refine ⟨c, ?_, ?_, ?_, ?_⟩
  · rw [show repairable = _ from e]
    exact ⟨hd.fwDone, hd.chanWaits, hd.xferWaits, hd.headWrites, hd.descs, hd.copies⟩
  · rw [show repairable = _ from e]
    exact port_of_reads hq (by decide +kernel) (by decide +kernel) (by decide +kernel)
  · simp only [imageChecks, hs, hc]
    decide +kernel
  · rw [show repairable = _ from e]
    simp only [repairList, segAt, State.root]
    decide +kernel

/-- The device up with nothing in work, as the power commands ask. -/
def restful (s : State) : Bool :=
  ready s && !isDown s && s.steps.isEmpty && s.waiters.isEmpty && s.heldReqs.isEmpty
    && (List.range 4).all (fun f => !moversBusy s f) && (List.range 6).all fun p => portState s p = 0

theorem witness_Supply :
    restful State.reset = true ∧ State.reset.power.off = false ∧ State.reset.power.lost = false
    ∧ (let s := { State.reset with power := { State.reset.power with off := true } }
       ready s = true ∧ s.power.off = true)
    ∧ workInProgress State.reset = false ∧ (∀ r, r < 64 → (State.reset.root r).near = false)
    ∧ restful (withRoot .install [0] []) = true ∧ workInProgress (withRoot .install [0] []) = true
    ∧ (let s := { State.reset with power := { State.reset.power with standby := true } }
       ready s = true ∧ s.power.standby = true ∧ s.power.off = false ∧ deviceInReset s = false ∧ s.capture = none) := by
  decide +kernel

theorem witness_Domains :
    domPresent { State.reset with part := .fn0102 } 30 = false ∧ domPresent State.reset 63 = true ∧ domRefused State.reset 63 0 = true
    ∧ (domPresent State.reset 2 = true ∧ domRefused State.reset 2 2 = false ∧ domState State.reset 2 = 0)
    ∧ (let s := withRegs coreUp [(domReg 0, 0), (domReg 1, 0)]
       restful s = true ∧ domRefused s 2 1 = false ∧ domState s 2 = 2)
    ∧ (let s := withRegs State.reset [(domReg 2, 0x302)]
       restful s = true ∧ domState s 2 = 3 ∧ bits (s.reg (domReg 2)) 1 0 ≠ 3)
    ∧ (let s := withRegs State.reset [(Reg.PWR_STATUS, 1), (domReg 55, 0)]
       restful s = true ∧ bits (s.reg Reg.PWR_STATUS) 1 0 = 1 ∧ domPresent s 55 = true ∧ domState s 55 = 0)
    ∧ bits (0xA5000002 : Word) 31 24 = 0xA5 ∧ bits (0xA5000002 : Word) 1 0 = 2 := by
  decide +kernel

/-- Core 0 asked for point 3, pending, at point 1. -/
def opWaits (s : State) : State := withRegs s [(opReg 0, 0x80000103)]

theorem witness_OperatingPoints :
    ready State.reset = true ∧ isDown State.reset = false
    ∧ corePresent State.reset 0 = true ∧ (State.reset.core 0).seq = .stopped ∧ bits (State.reset.reg Reg.PWR_OP_DEFER) 23 0 ≠ 0
    ∧ (let s := seqIs coreUp .running
       ready s = true ∧ isDown s = false ∧ (s.core 0).seq ≠ .stopped ∧ bits (s.reg Reg.PWR_OP_DEFER) 23 0 ≠ 0)
    ∧ ready (opWaits coreUp) = true ∧ isDown (opWaits coreUp) = false
    ∧ opPending (opWaits coreUp) 0 = true ∧ ((opWaits coreUp).core 0).seq = .stopped
    ∧ (let s := opWaits (withBundle ((1 <<< 16) <<< 60))
       ready s = true ∧ isDown s = false ∧ opPending s 0 = true ∧ holdsOnStep s 0 = true)
    ∧ bits (State.reset.reg Reg.PWR_RANGE) 15 0 ≤ bits (State.reset.reg Reg.PWR_RANGE) 31 16
    ∧ bits (State.reset.reg Reg.PWR_RANGE) 31 16 < 4096 ∧ State.reset.power.samples.length < 99
    ∧ (let s := { State.reset with power := { State.reset.power with samples := List.replicate 99 3 } }
       ready s = true ∧ isDown s = false ∧ s.power.samples.length = 99 ∧ 4 + s.power.samples.sum < 409600) := by
  decide +kernel

theorem witness_Temperatures :
    ready State.reset = true ∧ isDown State.reset = false ∧ (∀ i, i < 8 → sensorPresent State.reset i = true)
    ∧ (let temps := [116, 40, 40, 40, 30, 30, 30, 30]
       temps.length = 8 ∧ (∀ x, x ∈ temps → x < 256)
       ∧ max 85 (min 100 (bits (State.reset.reg Reg.PWR_THROTTLE_C) 7 0)) ≤ (temps.take 4).foldl max 0
       ∧ 105 ≤ (temps.take 4).foldl max 0 ∧ 115 ≤ (temps.take 4).foldl max 0)
    ∧ (∀ p, p < 6 → portState State.reset p = 0)
    ∧ (let temps := [40, 40, 40, 40, 30, 30, 30, 100]
       temps.length = 8 ∧ (∀ x, x ∈ temps → x < 256) ∧ (temps.take 4).foldl max 0 + 5 < 85 ∧ 100 ≤ (temps.drop 4).foldl max 0)
    ∧ (let s := { opWaits coreUp with power := { State.reset.power with throttled := true } }
       ready s = true ∧ isDown s = false ∧ s.power.throttled = true ∧ domOn s 2 = true ∧ 0 < opNow s 0 ∧ opNow s 0 < opMax s.part)
    ∧ (let s := { State.reset with power := { State.reset.power with crit := true } }
       ready s = true ∧ isDown s = false ∧ s.power.crit = true ∧ s.power.fifo = [])
    ∧ (let s := { State.reset with power := { State.reset.power with tripped := true } }
       ready s = true ∧ s.power.tripped = true ∧ s.power.off = false ∧ (∀ i, i < 8 → sensorPresent s i = true))
    ∧ fieldPresent State.reset 0 = true ∧ hasWeightStore State.reset.part = true := by
  decide +kernel

/-- A part that lacks sensors, whose registers read 0. -/
theorem witness_AbsentSensors :
    let s := { State.reset with part := .fn0102 }
    sensorPresent s 7 = false ∧ s.reg (Reg.PWR_TEMPs + 28) = 0 ∧ ([40, 0, 0, 0, 0, 0, 0, 0] : List Nat)[7]?.getD 0 = 0 := by
  decide +kernel

theorem witness_RegisterAccess :
    ready State.reset = true ∧ isDown State.reset = false ∧ regAbsent State.reset 0xB00000 = true
    ∧ (regionOf 0xD80000 = (.core 4, 0) ∧ corePresent { State.reset with part := .fn0102 } 4 = false)
    ∧ (regionOf 0xF00000 = (.field 3, 0) ∧ fieldPresent { State.reset with part := .fn0102 } 3 = false) ∧ portCount Part.fn0102 < 6
    ∧ (regionOf (coreReg 0 Reg.THRn_CAP) = (.core 0, Reg.THRn_CAP) ∧ hasThresher Part.fn0102 = false)
    ∧ (regionOf (fieldReg 0 Reg.WSn_CAP) = (.field 0, Reg.WSn_CAP) ∧ hasWeightStore Part.fn0102 = false)
    ∧ (regRow Reg.HST_NARROW_WR_CNT).any (·.rc) = true ∧ regAbsent State.reset Reg.HST_NARROW_WR_CNT = false
    ∧ regOff State.reset Reg.HST_NARROW_WR_CNT = false := by
  decide +kernel

/-! ### Single steps with results from the manual -/

/-- The queue is taken in order (the model's own rule, log entry 1). -/
theorem test_step_takes_front : (match step { coreUp with pending := [.hdgSemWrite 3 7, .heartbeat] } with
    | .next t => decide (semVal t 3 = 7 ∧ t.pending = [.heartbeat])
    | _ => false) = true := by
  decide +kernel

/-- START (R142) and HALT (R170); TRAP's cause 5 lies in bits 29 to 27. -/
theorem test_start_runs : ((after (.start ⟨0, none⟩) coreUp).core 0).seq = .running := by decide +kernel
theorem test_halt_traps : let t := after (.halt 0 false) (seqIs coreUp .running)
    (t.core 0).seq = .trapped ∧ bits (t.reg (coreReg 0 Reg.COREn_TRAP)) 29 27 = 5 := by
  decide +kernel

/-- A post stops at 0xFFFF and sets SEM_OVF (R232). -/
theorem test_post_saturates : let t := after (.semPostArrive 0 1 3 0xFFFF) hdgState
    semVal t 3 = 0xFFFF ∧ flag (t.reg Reg.HDG_ERR_STATUS) 3 = true := by
  decide +kernel

/-- A TAKE past the counter changes nothing and is counted (R317). -/
theorem test_take_refused : let s := withRegs State.reset [(ctxArg 1 0, 0x02000021), (Reg.CTX_BUDGETc + 8, 0x20)]
    let t := after (.take 1 own) s
    budget t 2 = 0x20 ∧ t.reg Reg.CTX_TAKE_REFUSE_CNT = 1 := by
  decide +kernel

/-- A doorbell past the ring's size is dropped and counted (R275). -/
theorem test_doorbell_dropped : (after (.ringTailDoorbell 3 0 64) hostUp).reg Reg.HST_DB_DROP_CNT = 1 := by decide +kernel

/-- A claim 1 ahead is taken, one 128 ahead is not (R261: serial order modulo 256). -/
theorem test_claims : bits ((after (.headClaim 5 1 []) portUp).reg Reg.FAB_HEAD) 3 0 = 5
    ∧ (after (.headClaim 5 128 []) portUp).reg Reg.FAB_HEAD = portUp.reg Reg.FAB_HEAD := by
  decide +kernel

/-- The core island stops at 105 °C (R401). -/
theorem test_crit : (after (.thermalCrit [105, 0, 0, 0, 0, 0, 0, 0]) State.reset).power.crit = true
    ∧ (after (.thermalCrit [104, 0, 0, 0, 0, 0, 0, 0]) State.reset).power.crit = false := by
  decide +kernel

end Sys2Proof.Tests
end

section
/-! PROOFS. Registers as the bus reaches them (R4, R9, R45, R273): the frame of a register write, the registers that only store,
accesses to what a part has not, narrow accesses, whole reads of counters, and the statement on register reads and writes. -/

namespace Sys2Proof.Machine

section
variable {s t u : State} {o i b : Nat} {v : Word} {os : List Nat} {host : Bool}

/-! ### The frame of register writes -/

theorem RegsKept.refl (s : State) (os : List Nat) : RegsKept s s os := fun _ _ => rfl

theorem RegsKept.trans (h : RegsKept s t os) (k : RegsKept t u os) : RegsKept s u os :=
  fun q hq => (k q hq).trans (h q hq)

theorem RegsKept.mono {os' : List Nat} (h : RegsKept s t os) (sub : os ⊆ os') : RegsKept s t os' :=
  fun q hq => h q fun hm => hq (sub hm)

theorem RegsKept.setReg (h : RegsKept s t os) (ho : o ∈ os) : RegsKept s (t.setReg o v) os :=
  fun q hq => (t.reg_setReg_ne v fun (e : q = o) => hq (e ▸ ho)).trans (h q hq)

theorem OnlyRegs.refl (s : State) : OnlyRegs s s := rfl

theorem OnlyRegs.trans (h : OnlyRegs s t) (k : OnlyRegs t u) : OnlyRegs s u := by
  unfold OnlyRegs at *
  rw [k, h]

theorem OnlyRegs.setReg (h : OnlyRegs s t) : OnlyRegs s (t.setReg o v) := h.trans rfl

theorem OnlyRegs.power (h : OnlyRegs s t) : t.power = s.power := by rw [h]

/-- A register write that leaves SRV_RESET_STATUS leaves the device up or down. -/
theorem OnlyRegs.isDown_eq (h : OnlyRegs s t) (hr : t.reg Reg.SRV_RESET_STATUS = s.reg Reg.SRV_RESET_STATUS) :
    isDown t = isDown s := by
  simp only [isDown, deviceInReset, hr, h.power]

/-! ### Registers that only store (R9) -/

theorem plainWrite_eq {r : RegRow} (row : regRow o = some r) :
    plainWrite s o v = (s.setReg o ((s.reg o &&& ~~~(BitVec.ofNat 32 r.rw)) ||| (v &&& BitVec.ofNat 32 r.rw))).lower o
      (v &&& BitVec.ofNat 32 r.w1c) := by
  simp only [plainWrite, storeBits, row]

theorem plainWrite_none (row : regRow o = none) : plainWrite s o v = s := by simp only [plainWrite, row]

/-- What a write leaves in a register that only stores: the stored bits take the written ones, a written 1 clears a flag. -/
theorem reg_plainWrite {r : RegRow} (c : s.Canonical) (row : regRow o = some r) :
    (plainWrite s o v).reg o
      = ((s.reg o &&& ~~~(BitVec.ofNat 32 r.rw)) ||| (v &&& BitVec.ofNat 32 r.rw)) &&& ~~~(v &&& BitVec.ofNat 32 r.w1c) := by
  rw [plainWrite_eq row, State.reg_lower_same ((State.setReg_keeps (.refl s) _ _).canonical c).regs, State.reg_setReg_same c.regs]

/-- `BitVec.and_allOnes`, with the mask spelt as the register rows spell it. -/
theorem and_ones (x : Word) : x &&& 0xffffffff#32 = x := BitVec.and_allOnes

/-- A register of which every bit is stored holds what was written. -/
theorem reg_plainWrite_store {r : RegRow} (c : s.Canonical) (row : regRow o = some r) (rw : r.rw = 0xffffffff) (w1c : r.w1c = 0) :
    (plainWrite s o v).reg o = v := by
  rw [reg_plainWrite c row, rw, w1c]
  simp [and_ones]

/-- A register that stores nothing only loses the flags written as 1. -/
theorem reg_plainWrite_clear {r : RegRow} (c : s.Canonical) (row : regRow o = some r) (rw : r.rw = 0) :
    (plainWrite s o v).reg o = s.reg o &&& ~~~(v &&& BitVec.ofNat 32 r.w1c) := by
  rw [reg_plainWrite c row, rw]
  simp [and_ones]

theorem plainWrite_regsKept : RegsKept s (plainWrite s o v) [o] := by
  cases row : regRow o with
  | none => rw [plainWrite_none row]; exact .refl s _
  | some r => rw [plainWrite_eq row]; exact ((RegsKept.refl s _).setReg (.head _)).setReg (.head _)

theorem plainWrite_onlyRegs : OnlyRegs s (plainWrite s o v) := by
  cases row : regRow o with
  | none => rw [plainWrite_none row]; exact .refl s
  | some r => rw [plainWrite_eq row]; exact (OnlyRegs.refl s).setReg.setReg

/-! ### The Surveyor's registers and PWR_ERR_STATUS: below the domain registers nothing is absent or switched off -/

theorem regionOf_global (h : o < 0xA00000) : regionOf o = (.global, o) := by simp [regionOf, h]

theorem regionOf_service (low : o < Reg.PWR_DOMk_CTRL) : regionOf o = (.global, o) := regionOf_global (Nat.lt_trans low (by decide))

section
variable {c d : Nat} (low : o < Reg.PWR_DOMk_CTRL)
include low

theorem service_not_le (hc : Reg.PWR_DOMk_CTRL ≤ c) : ¬ c ≤ o := by omega
theorem service_not_le_add (hc : Reg.PWR_DOMk_CTRL + d ≤ c) : ¬ c ≤ o + d := by omega
theorem service_ne (hc : Reg.PWR_DOMk_CTRL ≤ c) : ¬ o = c := by omega

theorem regAbsent_service : regAbsent s o = false := by
  simp (disch := decide) only [regAbsent, regionOf_service low, service_not_le low, service_not_le_add low, service_ne low,
    decide_false, Bool.false_and, Bool.or_self]

theorem regOff_service : regOff s o = false := by
  simp (disch := decide) only [regOff, regDomain, regionOf_service low, service_not_le low, false_and, if_false]

theorem fwActs_service : fwActs o = false := by
  simp (disch := decide) only [fwActs, regionOf_service low, service_not_le low, service_ne low, decide_false, Bool.false_and,
    Bool.or_self]

end

/-- The service registers whose write acts. -/
def serviceActions : List Nat := [Reg.SRV_RESET_CTRL, Reg.SRV_ATTEST_CTRL, Reg.SRV_FW_CTRL, Reg.PWR_SETTING, Reg.PWR_MODE]

theorem writeGlobalReg_service (low : o < Reg.PWR_DOMk_CTRL) (plain : o ∉ serviceActions) :
    writeGlobalReg s o v host = plainWrite s o v := by
  simp only [serviceActions, List.mem_cons, List.not_mem_nil, or_false, not_or] at plain
  simp (disch := decide) only [writeGlobalReg, plain, service_not_le low, service_ne low, false_and, or_self, if_false]

/-- A service register whose write does not act only stores. -/
theorem writeReg_service (up : isDown s = false) (low : o < Reg.PWR_DOMk_CTRL) (plain : o ∉ serviceActions) :
    writeReg s o v host = plainWrite s o v := by
  cases row : regRow o with
  | none => simp [writeReg, row, plainWrite_none row]
  | some r =>
    simp only [writeReg, up, regAbsent_service low, row, regOff_service low, regionOf_service low, writeGlobalReg_service low plain,
      Option.isNone_some, Bool.or_self, Bool.false_eq_true, if_false]

/-! ### REGISTER_WRITE by the width of the access (R9) -/

theorem exec_registerWrite_eq (o b : Nat) (w : DWord) (host : Bool) (s : State) :
    exec (.registerWrite o b w host) s = execRegisterWrite o b w host s := rfl

/-- Where firmware does not act on the write, the command is the write alone. -/
theorem exec_registerWrite_plain {w : DWord} (h : writeActs s o b = false) :
    exec (.registerWrite o b w host) s = .next (registerWrite s o b w host) := by
  simp only [exec_registerWrite_eq, execRegisterWrite, h, Bool.false_eq_true, if_false]

theorem registerWrite_whole {w : DWord} (up : isDown s = false) (al : o % 4 = 0) :
    registerWrite s o 4 w host = writeReg s o (BitVec.ofNat 32 w.toNat) host := by
  simp [registerWrite, up, al]

theorem registerWrite_pair {w : DWord} (up : isDown s = false) (al : o % 8 = 0) :
    registerWrite s o 8 w host
      = writeReg (writeReg s o (BitVec.ofNat 32 w.toNat) host) (o + 4) (BitVec.ofNat 32 (w.toNat >>> 32)) host := by
  simp [registerWrite, up, al]

/-- Narrower than 32 bits, or not aligned to its own width. -/
def PartialWrite (o b : Nat) : Prop := b < 4 ∨ (b = 4 ∧ o % 4 ≠ 0) ∨ (b = 8 ∧ o % 8 ≠ 0)

theorem PartialWrite.not_whole (h : PartialWrite o b) : ¬ (b = 4 ∧ o % 4 = 0) := by unfold PartialWrite at h; omega
theorem PartialWrite.not_pair (h : PartialWrite o b) : ¬ (b = 8 ∧ o % 8 = 0) := by unfold PartialWrite at h; omega

theorem exec_registerWrite_partial {w : DWord} (up : isDown s = false) (h : PartialWrite o b) :
    exec (.registerWrite o b w host) s = .next (narrowWrite s) := by
  have idle : writeActs s o b = false := by
    have h4 := h.not_whole
    have h8 := h.not_pair
    simp only [writeActs, Bool.or_eq_false_iff, ← Bool.decide_and, h4, h8, decide_false, Bool.false_and, and_self]
  rw [exec_registerWrite_plain idle]
  simp only [registerWrite, up, h.not_whole, h.not_pair, Bool.false_eq_true, if_false]

theorem exec_registerWrite_service {w : DWord} (up : isDown s = false) (low : o < Reg.PWR_DOMk_CTRL) (plain : o ∉ serviceActions)
    (al : o % 4 = 0) :
    exec (.registerWrite o 4 w host) s = .next (plainWrite s o (BitVec.ofNat 32 w.toNat)) := by
  have idle : writeActs s o 4 = false := by simp [writeActs, fwActs_service low]
  rw [exec_registerWrite_plain idle, registerWrite_whole up al, writeReg_service up low plain]

/-- A 64-bit write of two service registers that only store, neither of them SRV_RESET_STATUS. -/
theorem exec_registerWrite_service_pair {w : DWord} (up : isDown s = false) (low : o + 4 < Reg.PWR_DOMk_CTRL)
    (plain : o ∉ serviceActions) (plain' : o + 4 ∉ serviceActions) (al : o % 8 = 0) (ne : Reg.SRV_RESET_STATUS ≠ o) :
    exec (.registerWrite o 8 w host) s
      = .next (plainWrite (plainWrite s o (BitVec.ofNat 32 w.toNat)) (o + 4) (BitVec.ofNat 32 (w.toNat >>> 32))) := by
  have low' : o < Reg.PWR_DOMk_CTRL := by omega
  have idle : writeActs s o 8 = false := by simp [writeActs, fwActs_service low, fwActs_service low']
  have up' (v : Word) : isDown (plainWrite s o v) = false :=
    (plainWrite_onlyRegs.isDown_eq (plainWrite_regsKept _ (by simpa using ne))).trans up
  rw [exec_registerWrite_plain idle, registerWrite_pair up al, writeReg_service up low' plain, writeReg_service (up' _) low plain']

/-! ### Registers of what a part has not (R4) -/

theorem regView_absent (h : regAbsent s o = true) : regView s o = 0 := by simp [regView, h]

theorem readReg_absent (h : regAbsent s o = true) : readReg s o = (0, s) := by
  simp [readReg, readAction, h, regView_absent h]

theorem peekReg_absent (h : regAbsent s o = true) : peekReg s o = (0, s) := by
  simp [peekReg, h, regView_absent h]

theorem writeReg_absent (h : regAbsent s o = true) : writeReg s o v host = s := by simp [writeReg, h]

theorem regAbsent_core {n : Nat} (h : regionOf o = (.core n, i)) (gone : corePresent s n = false) : regAbsent s o = true := by
  simp [regAbsent, h, gone]

theorem regAbsent_field {f : Nat} (h : regionOf o = (.field f, i)) (gone : fieldPresent s f = false) : regAbsent s o = true := by
  simp [regAbsent, h, gone]

theorem regAbsent_thresher {n : Nat} (h : regionOf o = (.core n, i)) (gone : hasThresher s.part = false) (lo : Reg.THRn_CAP ≤ i)
    (hi : i < Reg.HRWn_CAP) : regAbsent s o = true := by
  simp [regAbsent, h, gone, lo, hi]

theorem regAbsent_weightStore {f : Nat} (h : regionOf o = (.field f, i)) (gone : hasWeightStore s.part = false)
    (lo : Reg.WSn_CAP ≤ i) (hi : i ≤ Reg.WSn_PROG_CNT) : regAbsent s o = true := by
  simp [regAbsent, h, gone, lo, hi]

theorem regAbsent_port {p : Nat} (hp : p < 6) (gone : portCount s.part ≤ p) (hi : i < 64) :
    regAbsent s (Reg.FAB_Pp_CTRL + 256 * p + 4 * i) = true := by
  have global : regionOf (Reg.FAB_Pp_CTRL + 256 * p + 4 * i) = (.global, Reg.FAB_Pp_CTRL + 256 * p + 4 * i) :=
    regionOf_global (by simp only [Reg.FAB_Pp_CTRL]; omega)
  have lo : Reg.FAB_Pp_CTRL ≤ Reg.FAB_Pp_CTRL + 256 * p + 4 * i := by omega
  have below : Reg.FAB_Pp_CTRL + 256 * p + 4 * i < 0xA00000 := by simp only [Reg.FAB_Pp_CTRL]; omega
  have port : (Reg.FAB_Pp_CTRL + 256 * p + 4 * i - Reg.FAB_Pp_CTRL) / 0x100 = p := by omega
  simp only [regAbsent, global, lo, below, port, gone, decide_true, Bool.and_self, Bool.or_true, Bool.true_or]

/-! ### Narrow reads (R9) -/

/-- Nothing but the timestamp counters and the free-value counter differs. -/
def OnlyClocks (s t : State) : Prop := t = { s with clocks := t.clocks, freeCtr := t.freeCtr }

theorem OnlyClocks.refl (s : State) : OnlyClocks s s := rfl

theorem OnlyClocks.trans (h : OnlyClocks s t) (k : OnlyClocks t u) : OnlyClocks s u := by
  unfold OnlyClocks at *
  rw [k, h]

theorem stamp_onlyClocks (s : State) (k : Nat) : OnlyClocks s (stamp s k).2 := by
  unfold stamp
  dsimp only
  split <;> rfl

/-- A register other than a timestamp's is looked at without any effect. -/
theorem peekReg_still (h : o < Reg.HST_TSs_LO ∨ Reg.HST_TSs_LO + 40 ≤ o) : peekReg s o = (regView s o, s) := by
  rcases h with h | h
  · simp [peekReg, Nat.not_le.mpr h]
  · simp [peekReg, Nat.not_lt.mpr h]

/-- A look that may read a counter changes no more than reading it does. -/
theorem OnlyClocks.look {t : Nat × State} (h : OnlyClocks s t.2) (c : Bool) (v : Word) :
    OnlyClocks s (if c then (let u := t; (BitVec.ofNat 32 u.1, u.2)) else (v, s)).2 := by
  cases c with
  | true => exact h
  | false => rfl

theorem peekReg_onlyClocks (s : State) (o : Nat) : OnlyClocks s (peekReg s o).2 := by
  unfold peekReg
  exact (stamp_onlyClocks s _).look _ _

theorem narrowRead_onlyClocks (s : State) (o b : Nat) : OnlyClocks s (narrowRead s o b).2 := by
  unfold narrowRead
  dsimp only
  refine (peekReg_onlyClocks s (o / 4 * 4)).trans ?_
  split
  · exact peekReg_onlyClocks _ _
  · rfl

/-- A narrow read that reaches no timestamp register changes nothing. -/
theorem narrowRead_still (h : o + 4 < Reg.HST_TSs_LO ∨ Reg.HST_TSs_LO + 40 ≤ o) : (narrowRead s o b).2 = s := by
  have first : o / 4 * 4 < Reg.HST_TSs_LO ∨ Reg.HST_TSs_LO + 40 ≤ o / 4 * 4 := by simp only [Reg.HST_TSs_LO] at *; omega
  have second : o / 4 * 4 + 4 < Reg.HST_TSs_LO ∨ Reg.HST_TSs_LO + 40 ≤ o / 4 * 4 + 4 := by simp only [Reg.HST_TSs_LO] at *; omega
  simp only [narrowRead, peekReg_still first, peekReg_still second]
  split <;> rfl

theorem narrowRead_absent (h : regAbsent s o = true) (al : o % 4 = 0) (hb : b < 4) : narrowRead s o b = (0, s) := by
  have base : o / 4 * 4 = o := by omega
  simp [narrowRead, base, peekReg_absent h, al, Nat.not_lt.mpr (Nat.le_of_lt hb)]

theorem exec_rcRegisterRead_eq (o b : Nat) (s : State) : exec (.rcRegisterRead o b) s = .next (registerRead s o b) := rfl

theorem exec_registerRead_narrow (hb : b < 4) :
    exec (.rcRegisterRead o b) s = .next { (narrowRead s o b).2 with resp := (narrowRead s o b).1, respHi := 0 } := by
  simp [exec_rcRegisterRead_eq, registerRead, hb, show b ≠ 4 by omega, show b ≠ 8 by omega]

/-- What a narrow read leaves as it was (log entry 26: a timestamp register reads its running counter). -/
theorem exec_narrowRead_clocks (s : State) (o : Nat) (hb : b < 4) :
    ∃ t, exec (.rcRegisterRead o b) s = .next t ∧ t = { s with resp := t.resp, respHi := 0, clocks := t.clocks, freeCtr := t.freeCtr }
      ∧ (o + 4 < Reg.HST_TSs_LO ∨ Reg.HST_TSs_LO + 40 ≤ o → t.clocks = s.clocks ∧ t.freeCtr = s.freeCtr) := by
  have clocks := narrowRead_onlyClocks s o b
  refine ⟨_, exec_registerRead_narrow hb, ?_, fun far => ?_⟩
  · generalize narrowRead s o b = p at clocks ⊢
    unfold OnlyClocks at clocks
    rw [clocks]
  · simp only [narrowRead_still far, and_self]

/-! ### Whole reads (R9, R45) -/

theorem exec_registerRead_whole (al : o % 4 = 0) :
    exec (.rcRegisterRead o 4) s = .next { (readReg s o).2 with resp := (readReg s o).1, respHi := 0 } := by
  simp [exec_rcRegisterRead_eq, registerRead, al]

/-- No notification or timestamp register is a counter that a read clears. -/
theorem regRow_notify_stays : ∀ k < 16, (regRow (Reg.HDG_FLDf_NOTIFY + k)).any (·.rc) = false := by decide +kernel
theorem regRow_timestamp_stays : ∀ k < 40, (regRow (Reg.HST_TSs_LO + k)).any (·.rc) = false := by decide +kernel

/-- A counter that a read clears lies outside a stretch of registers that none clears. -/
theorem counter_outside {base n : Nat} {r : RegRow} (stays : ∀ k < n, (regRow (base + k)).any (·.rc) = false)
    (row : regRow o = some r) (rc : r.rc = true) (lo : base ≤ o) : ¬ o < base + n := by
  intro hi
  have kept := stays (o - base) (by omega)
  rw [Nat.add_sub_cancel' lo, row] at kept
  simp [rc] at kept

/-- A whole read of a counter that a read clears answers its value and clears it. -/
theorem readReg_counter {r : RegRow} (up : isDown s = false) (row : regRow o = some r) (rc : r.rc = true)
    (here : regAbsent s o = false) (on : regOff s o = false) : readReg s o = (regView s o, s.setReg o 0) := by
  have notNotify : ¬ (Reg.HDG_FLDf_NOTIFY ≤ o ∧ o < Reg.HDG_FLDf_NOTIFY + 16) :=
    fun h => counter_outside regRow_notify_stays row rc h.1 h.2
  have notStamp : ¬ (Reg.HST_TSs_LO ≤ o ∧ o < Reg.HST_TSs_LO + 40) :=
    fun h => counter_outside regRow_timestamp_stays row rc h.1 h.2
  have clears : readAction s o = s.setReg o 0 := by
    simp only [readAction, up, here, on, row, rc, notNotify, ← and_assoc, notStamp, false_and, Bool.or_self, Bool.false_eq_true, if_false,
      if_true]
  simp only [readReg, clears, Bool.and_assoc, ← Bool.decide_and, notStamp, decide_false, Bool.and_false,
    Bool.false_and, Bool.false_eq_true, if_false]

theorem exec_read_counter {r : RegRow} (up : isDown s = false) (row : regRow o = some r) (rc : r.rc = true) (al : o % 4 = 0)
    (here : regAbsent s o = false) (on : regOff s o = false) :
    exec (.rcRegisterRead o 4) s = .next { s.setReg o 0 with resp := regView s o, respHi := 0 } := by
  rw [exec_registerRead_whole al, readReg_counter up row rc here on]

/-! ### Accesses to what a part has not (R4) -/

theorem exec_read_absent (h : regAbsent s o = true) (al : o % 4 = 0) :
    exec (.rcRegisterRead o 4) s = .next { s with resp := 0, respHi := 0 } := by
  rw [exec_registerRead_whole al, readReg_absent h]

theorem exec_narrowRead_absent (h : regAbsent s o = true) (al : o % 4 = 0) (hb : b < 4) :
    exec (.rcRegisterRead o b) s = .next { s with resp := 0, respHi := 0 } := by
  rw [exec_registerRead_narrow hb, narrowRead_absent h al hb]

theorem exec_write_absent {w : DWord} (h : regAbsent s o = true) (al : o % 4 = 0) :
    exec (.registerWrite o 4 w host) s = .next s := by
  have idle : writeActs s o 4 = false := by simp [writeActs, h]
  rw [exec_registerWrite_plain idle]
  cases up : isDown s with
  | true => simp [registerWrite, up]
  | false => rw [registerWrite_whole up al, writeReg_absent h]

/-! ### Narrow and misaligned writes are counted (R273) -/

theorem narrowWrite_counts (c : s.Canonical) :
    (narrowWrite s).reg Reg.HST_NARROW_WR_CNT = satAdd32 (s.reg Reg.HST_NARROW_WR_CNT) 1 := by
  rw [narrowWrite, hstFlag, State.reg_raise_ne _ _ (by decide), State.reg_bump_same c.regs]

theorem narrowWrite_regsKept : RegsKept s (narrowWrite s) [Reg.HST_NARROW_WR_CNT, Reg.HST_ERR_STATUS] :=
  ((RegsKept.refl s _).setReg (by simp)).setReg (by simp)

theorem narrowWrite_onlyRegs : OnlyRegs s (narrowWrite s) := (OnlyRegs.refl s).setReg.setReg

/-! ### The attestation nonce and PWR_ERR_STATUS (R389, R411) -/

/-- The row of the attestation nonce words: every bit is stored. -/
theorem regRow_nonce : ∀ w < 8,
    regRow (Reg.SRV_ATTEST_NONCEw + 4 * w) = some ⟨Reg.SRV_ATTEST_NONCEw, 8, 4, 0xffffffff, 0, false, 0⟩ := by decide

theorem nonce_not_action : ∀ w < 8, Reg.SRV_ATTEST_NONCEw + 4 * w ∉ serviceActions := by decide

theorem reg_plainWrite_nonce {w : Nat} (c : s.Canonical) (hw : w < 8) :
    (plainWrite s (Reg.SRV_ATTEST_NONCEw + 4 * w) v).reg (Reg.SRV_ATTEST_NONCEw + 4 * w) = v :=
  reg_plainWrite_store c (regRow_nonce w hw) rfl rfl

theorem exec_registerWrite_nonce {x : DWord} {w : Nat} (up : isDown s = false) (hw : w < 8) :
    exec (.registerWrite (Reg.SRV_ATTEST_NONCEw + 4 * w) 4 x host) s
      = .next (plainWrite s (Reg.SRV_ATTEST_NONCEw + 4 * w) (BitVec.ofNat 32 x.toNat)) :=
  exec_registerWrite_service up (by simp only [Reg.SRV_ATTEST_NONCEw, Reg.PWR_DOMk_CTRL]; omega) (nonce_not_action w hw)
    (by simp only [Reg.SRV_ATTEST_NONCEw]; omega)

/-- A 64-bit write reaches both nonce words of its pair (R9). -/
theorem exec_registerWrite_noncePair {x : DWord} {w : Nat} (c : s.Canonical) (up : isDown s = false) (hw : w < 4) :
    ∃ t, exec (.registerWrite (Reg.SRV_ATTEST_NONCEw + 8 * w) 8 x host) s = .next t
      ∧ t.reg (Reg.SRV_ATTEST_NONCEw + 8 * w) = BitVec.ofNat 32 x.toNat
      ∧ t.reg (Reg.SRV_ATTEST_NONCEw + 8 * w + 4) = BitVec.ofNat 32 (x.toNat / 2 ^ 32)
      ∧ RegsKept s t [Reg.SRV_ATTEST_NONCEw + 8 * w, Reg.SRV_ATTEST_NONCEw + 8 * w + 4] ∧ OnlyRegs s t := by
  have lo : Reg.SRV_ATTEST_NONCEw + 8 * w = Reg.SRV_ATTEST_NONCEw + 4 * (2 * w) := by omega
  have hi : Reg.SRV_ATTEST_NONCEw + 8 * w + 4 = Reg.SRV_ATTEST_NONCEw + 4 * (2 * w + 1) := by omega
  refine ⟨_, exec_registerWrite_service_pair up (by simp only [Reg.SRV_ATTEST_NONCEw, Reg.PWR_DOMk_CTRL]; omega)
    (lo ▸ nonce_not_action _ (by omega)) (hi ▸ nonce_not_action _ (by omega)) (by simp only [Reg.SRV_ATTEST_NONCEw]; omega)
    (by simp only [Reg.SRV_RESET_STATUS, Reg.SRV_ATTEST_NONCEw]; omega), ?_, ?_, ?_, plainWrite_onlyRegs.trans plainWrite_onlyRegs⟩
  · rw [plainWrite_regsKept _ (by simp), lo, reg_plainWrite_nonce c (by omega)]
  · rw [hi, reg_plainWrite_nonce ((plainWrite_keeps (.refl s) _ _).canonical c) (by omega), Nat.shiftRight_eq_div_pow]
  · exact (plainWrite_regsKept.mono (by simp)).trans (plainWrite_regsKept.mono (by simp))

theorem regRow_powerErr : regRow Reg.PWR_ERR_STATUS = some ⟨Reg.PWR_ERR_STATUS, 1, 4, 0, 0x7f, false, 0⟩ := by decide

/-- The flags of PWR_ERR_STATUS that a write of ones clears are its seven (R411). -/
theorem reg_plainWrite_powerErr {x : DWord} (c : s.Canonical) :
    (plainWrite s Reg.PWR_ERR_STATUS (BitVec.ofNat 32 x.toNat)).reg Reg.PWR_ERR_STATUS
      = s.reg Reg.PWR_ERR_STATUS &&& ~~~(BitVec.ofNat 32 (x.toNat % 128)) := by
  have mask : BitVec.ofNat 32 x.toNat &&& BitVec.ofNat 32 0x7f = BitVec.ofNat 32 (x.toNat % 128) := by
    rw [← BitVec.ofNat_and]
    exact congrArg _ (Nat.and_two_pow_sub_one_eq_mod x.toNat 7)
  rw [reg_plainWrite_clear c regRow_powerErr rfl, mask]

end

/-- Settles O60: each access is worked out by its width, then by its register. -/
theorem absentRegistersReadZeroAndWritesReach : Obligations.AbsentRegistersReadZeroAndWritesReach := by
  intro s
  refine ⟨fun o absent => ⟨fun al => ⟨exec_read_absent absent al, fun v host => exec_write_absent absent al⟩,
      fun b al hb => exec_narrowRead_absent absent al hb⟩,
    fun o x n => regAbsent_core, fun o x f => regAbsent_field, fun p i hp gone hi => regAbsent_port hp gone hi,
    fun o x n => regAbsent_thresher, fun o x f => regAbsent_weightStore, fun c up => ⟨?_, ?_, ?_, ?_, ?_, ?_⟩⟩
  · exact fun o r row rc al here on => exec_read_counter up row rc al here on
  · exact fun o b hb => exec_narrowRead_clocks s o hb
  · exact fun w v host hw => ⟨_, exec_registerWrite_nonce up hw, reg_plainWrite_nonce c hw, plainWrite_regsKept, plainWrite_onlyRegs⟩
  · exact fun w v host hw => exec_registerWrite_noncePair c up hw
  · exact fun v host => ⟨_, exec_registerWrite_service up (by decide) (by decide) (by decide), reg_plainWrite_powerErr c,
      plainWrite_regsKept, plainWrite_onlyRegs⟩
  · exact fun o b v host h => ⟨_, exec_registerWrite_partial up h, narrowWrite_counts c, narrowWrite_regsKept, narrowWrite_onlyRegs⟩

end Sys2Proof.Machine
end

section
/-! PROOFS. A partition write that R79 refuses. -/

namespace Sys2Proof.Machine

variable {s : State} {n k : Nat} {v : Word}

/-- The five grounds, in R79's order. Only an enabled range can overlap another (log entry 55). -/
theorem partRefused_iff : partRefused s n k v = true ↔
    (s.core n).seq ≠ .stopped
    ∨ (flag v 31 = true ∧ ∃ j, j < 8 ∧ j ≠ k ∧ flag (partWord s n j) 31 = true
        ∧ bits v 14 8 < bits (partWord s n j) 14 8 + bits (partWord s n j) 6 0
        ∧ bits (partWord s n j) 14 8 < bits v 14 8 + bits v 6 0)
    ∨ 96 < bits v 14 8 + bits v 6 0
    ∨ (flag v 31 = true ∧ bits v 6 0 = 0)
    ∨ (flag v 30 = true ∧ flag v 29 = true) := by
  simp only [partRefused, seqRunning, Bool.or_eq_true, Bool.and_eq_true, decide_eq_true_eq, List.any_eq_true, List.mem_range,
    and_assoc]
  exact Iff.of_eq (by ac_rfl)

/-- A register command of core n reaches it: the part is up, the core is there and its base domain is ON. -/
theorem coreOpen_iff : coreOpen s n = true ↔ isDown s = false ∧ corePresent s n = true ∧ domOn s (3 * n + 2) = true := by
  simp [coreOpen, and_assoc]

/-- A PARTITION_WRITE that reaches its core is the partition write alone. -/
theorem exec_partitionWrite_open (h : coreOpen s n = true) :
    exec (.partitionWrite n k v) s = .next (partitionWrite s n k v) := by
  obtain ⟨up, here, on⟩ := coreOpen_iff.mp h
  exact atCore_runs (f := (partitionWrite · n k v)) up here on

theorem partitionWrite_refused (here : corePresent s n = true) (hk : k < 8) (refused : partRefused s n k v = true) :
    partitionWrite s n k v = s.raise (coreReg n Reg.SPMn_ERR_STATUS) (bitMask 5) := by
  have reached : ¬ (!corePresent s n ∨ 8 ≤ k) := by simp [here, hk]
  rw [partitionWrite, if_neg reached, if_pos refused]

/-- Settles O19: each ground makes the write refused, and a refused write raises CFG_REJECT alone. -/
theorem partitionWriteRefused : Obligations.PartitionWriteRefused := by
  intro s n k v reaches hk grounds
  obtain ⟨-, here, -⟩ := coreOpen_iff.mp reaches
  rw [exec_partitionWrite_open reaches, partitionWrite_refused here hk (partRefused_iff.mpr grounds)]
  rfl

end Sys2Proof.Machine
end

section
/-! PROOFS. Words of the Context and Residency Tables after the table engine writes them, and the end of a quarantine (R329). -/

namespace Sys2Proof.Machine

section
variable {s : State} {t : TabId} {e d w i : Nat} {x : TabWord} {v : Word}

/-! ### A table word after a write -/

theorem tabWordAt_setTabWord_same (c : s.Canonical) : tabWordAt (setTabWord s t e w x) t e w = x := by
  cases t with
  | ctx => exact storeGet_set_same _ c.ctx
  | res => exact storeGet_set_same _ c.res

theorem tabWordAt_setTabWord_ne (hw : w < t.words) (hi : i < t.words) (ne : d ≠ e ∨ i ≠ w) :
    tabWordAt (setTabWord s t e w x) t d i = tabWordAt s t d i := by
  cases t with
  | ctx =>
    simp only [TabId.words] at hw hi
    exact storeGet_set_ne _ _ x (by omega)
  | res =>
    simp only [TabId.words] at hw hi
    exact storeGet_set_ne _ _ x (by omega)

@[simp] theorem tabWordAt_setReg (o : Nat) : tabWordAt (s.setReg o v) t d i = tabWordAt s t d i := by cases t <;> rfl
@[simp] theorem tabWordAt_setQuar (l : List Nat) : tabWordAt (setQuar s t l) t d i = tabWordAt s t d i := by cases t <;> rfl

/-- An injector flips stored bits of a word, never its data (R338). -/
theorem tabData_tabInject (c : s.Canonical) (hw : w < t.words) (hi : i < t.words) :
    tabData (tabInject s t e w) t d i = tabData s t d i := by
  unfold tabInject tabData
  dsimp only
  split
  · rw [tabWordAt_setReg]
    by_cases same : d = e ∧ i = w
    · obtain ⟨rfl, rfl⟩ := same
      rw [tabWordAt_setTabWord_same c]
    · rw [tabWordAt_setTabWord_ne hw hi (by omega)]
  · rfl

/-- One word of `tabWrite`: the word is stored, and an armed injector may act on it. -/
def tabPut (s : State) (t : TabId) (e w : Nat) (v : Word) : State :=
  if (tabWordAt s t e w).data = v then setTabWord s t e w ⟨v, 0⟩ else tabInject (setTabWord s t e w ⟨v, 0⟩) t e w

theorem tabWrite_cons (l : List (Nat × Word)) : tabWrite s t e ((w, v) :: l) = tabWrite (tabPut s t e w v) t e l := rfl

theorem tabPut_canonical (c : s.Canonical) : (tabPut s t e w v).Canonical := by
  have stored : Keeps s (setTabWord s t e w ⟨v, 0⟩) := setTabWord_keeps (.refl s) t e w ⟨v, 0⟩
  unfold tabPut
  split
  · exact stored.canonical c
  · exact (tabInject_keeps stored t e w).canonical c

theorem tabData_tabPut (c : s.Canonical) (hw : w < t.words) (hi : i < t.words) :
    tabData (tabPut s t e w v) t d i = tabData (setTabWord s t e w ⟨v, 0⟩) t d i := by
  unfold tabPut
  split
  · rfl
  · exact tabData_tabInject ((setTabWord_keeps (.refl s) t e w ⟨v, 0⟩).canonical c) hw hi

theorem tabData_tabPut_same (c : s.Canonical) (hw : w < t.words) : tabData (tabPut s t e w v) t e w = v := by
  rw [tabData_tabPut c hw hw, tabData, tabWordAt_setTabWord_same c]

theorem tabData_tabPut_ne (c : s.Canonical) (hw : w < t.words) (hi : i < t.words) (ne : d ≠ e ∨ i ≠ w) :
    tabData (tabPut s t e w v) t d i = tabData s t d i := by
  rw [tabData_tabPut c hw hi, tabData, tabWordAt_setTabWord_ne hw hi ne, tabData]

/-- A word that is not in the list written keeps its data. -/
theorem tabData_tabWrite_ne {l : List (Nat × Word)} (c : s.Canonical) (hl : ∀ p ∈ l, p.1 < t.words) (hi : i < t.words)
    (ne : d ≠ e ∨ ∀ p ∈ l, i ≠ p.1) : tabData (tabWrite s t e l) t d i = tabData s t d i := by
  induction l generalizing s with
  | nil => rfl
  | cons p l ih =>
    rw [tabWrite_cons, ih (tabPut_canonical c) (fun q hq => hl q (.tail _ hq)) (ne.imp_right fun h q hq => h q (.tail _ hq)),
      tabData_tabPut_ne c (hl p (.head _)) hi (ne.imp_right fun h => h p (.head _))]

/-- A word that the list writes, each word once, holds what the list gives it. -/
theorem tabData_tabWrite_mem {l : List (Nat × Word)} (c : s.Canonical) (hl : ∀ p ∈ l, p.1 < t.words)
    (once : l.Pairwise fun p q => p.1 ≠ q.1) (hm : (i, v) ∈ l) : tabData (tabWrite s t e l) t e i = v := by
  induction l generalizing s with
  | nil => simp at hm
  | cons p l ih =>
    obtain ⟨apart, once⟩ := List.pairwise_cons.mp once
    have hl' : ∀ q ∈ l, q.1 < t.words := fun q hq => hl q (.tail _ hq)
    rw [tabWrite_cons]
    rcases List.mem_cons.mp hm with rfl | hm
    · rw [tabData_tabWrite_ne (tabPut_canonical c) hl' (hl _ (.head _)) (.inr fun q hq => apart q hq),
        tabData_tabPut_same c (hl _ (.head _))]
    · exact ih (tabPut_canonical c) hl' once hm

/-! ### The quarantine lists -/

theorem quarantined_iff : quarantined s t e = true ↔ e ∈ quarList s t := by cases t <;> simp [quarantined, quarList]

@[simp] theorem quarList_setQuar (l : List Nat) : quarList (setQuar s t l) t = l := by cases t <;> rfl
@[simp] theorem quarList_setTabWord : quarList (setTabWord s t e w x) t = quarList s t := by cases t <;> rfl
@[simp] theorem quarList_setReg (o : Nat) : quarList (s.setReg o v) t = quarList s t := by cases t <;> rfl

theorem quarList_tabPut : quarList (tabPut s t e w v) t = quarList s t := by
  unfold tabPut tabInject
  dsimp only
  split
  · simp
  · split <;> simp

theorem quarList_tabWrite (l : List (Nat × Word)) : quarList (tabWrite s t e l) t = quarList s t := by
  induction l generalizing s with
  | nil => rfl
  | cons p l ih => rw [tabWrite_cons, ih, quarList_tabPut]

/-! ### A write to CTX_QUAR_CLEAR or RES_QUAR_CLEAR -/

/-- The entry that the write names. -/
def clearEntry : TabId → Word → Nat
  | .ctx, v => bits v 15 0
  | .res, v => bits v 14 0

/-- Word 0 of a FREE entry with the generation written. -/
def clearHead : TabId → Word → Word
  | .ctx, v => BitVec.ofNat 32 (bits v 27 16)
  | .res, v => BitVec.ofNat 32 (bits v 23 16 <<< 12)

/-- The words of a FREE entry whose word 0 is `v`. -/
def freeWords (t : TabId) (v : Word) : List (Nat × Word) := (List.range t.words).map fun w => (w, if w = 0 then v else 0)

theorem freeWords_lt : ∀ p ∈ freeWords t v, p.1 < t.words := by
  simp +contextual [freeWords]

theorem freeWords_once : (freeWords t v).Pairwise fun p q => p.1 ≠ q.1 :=
  List.pairwise_map.mpr List.nodup_range

theorem mem_freeWords (hw : w < t.words) : (w, if w = 0 then v else 0) ∈ freeWords t v :=
  List.mem_map.mpr ⟨w, List.mem_range.mpr hw, rfl⟩

theorem quarClear_named (named : clearEntry t v ∈ quarList s t) (reserved : t = .ctx ∨ bits v 27 24 = 0) :
    quarClear s t v = tabWrite (setQuar s t ((quarList s t).filter (· ≠ clearEntry t v))) t (clearEntry t v)
      (freeWords t (clearHead t v)) := by
  have acts : (quarantined s t (clearEntry t v) && (t == .ctx || bits v 27 24 == 0)) = true := by
    simpa [quarantined_iff.mpr named] using reserved
  cases t <;> exact if_pos acts

theorem quarClear_other (other : clearEntry t v ∉ quarList s t) : quarClear s t v = s := by
  have ignored : ¬ (quarantined s t (clearEntry t v) && (t == .ctx || bits v 27 24 == 0)) = true := by
    simp [Bool.eq_false_iff.mpr (mt quarantined_iff.mp other)]
  cases t <;> exact if_neg ignored

/-- What the write leaves: the entry FREE with the generation written, its quarantine ended, everything else of the table as it
was. -/
theorem quarClear_frees (c : s.Canonical) (named : clearEntry t v ∈ quarList s t) (reserved : t = .ctx ∨ bits v 27 24 = 0) :
    (∀ w, w < t.words → tabData (quarClear s t v) t (clearEntry t v) w = if w = 0 then clearHead t v else 0)
    ∧ (∀ d w, d ≠ clearEntry t v → w < t.words → tabData (quarClear s t v) t d w = tabData s t d w)
    ∧ (∀ d, d ∈ quarList (quarClear s t v) t ↔ d ∈ quarList s t ∧ d ≠ clearEntry t v) := by
  have c' := (setQuar_keeps (.refl s) t ((quarList s t).filter (· ≠ clearEntry t v))).canonical c
  rw [quarClear_named named reserved]
  refine ⟨fun w hw => tabData_tabWrite_mem c' freeWords_lt freeWords_once (mem_freeWords hw), fun d w ne hw => ?_, fun d => ?_⟩
  · rw [tabData_tabWrite_ne c' freeWords_lt hw (.inl ne), tabData, tabWordAt_setQuar, tabData]
  · rw [quarList_tabWrite, quarList_setQuar, List.mem_filter, decide_eq_true_eq]

theorem bits_lt {n : Nat} (x : BitVec n) (hi lo : Nat) : bits x hi lo < 2 ^ (hi + 1 - lo) := Nat.mod_lt _ (Nat.two_pow_pos _)

theorem ctxState_clearHead : ctxState (clearHead .ctx v) = 0 := by
  have small := bits_lt v 27 16
  simp only [ctxState, clearHead, bits, natBits, BitVec.toNat_ofNat, Nat.shiftRight_eq_div_pow] at *
  omega

theorem resValid_clearHead : resValid (clearHead .res v) = false := by
  have small := bits_lt v 23 16
  simp only [resValid, flag, clearHead, BitVec.getLsbD_ofNat, Nat.shiftLeft_eq]
  rw [Nat.testBit_lt_two_pow (by omega), Bool.and_false]

theorem clearHead_res : clearHead .res v = BitVec.ofNat 32 (4096 * bits v 23 16) := by
  rw [clearHead, Nat.shiftLeft_eq, Nat.mul_comm]

theorem exec_quarantineClear (awake : isDown s = false) (res : Bool) :
    exec (.quarantineClear res false v) s = .next (quarClear s (if res then .res else .ctx) v) := by
  have running : deviceInReset s = false := by simp_all [isDown]
  have write : exec (.quarantineClear res false v) s = up s fun s => quarantineClear s res false v := rfl
  rw [write, up_runs awake, quarantineClear, running]
  rfl

end

/-- Settles O51: the write is the rewrite of the entry that it names, or nothing. -/
theorem quarantineClearFreesEntry : Obligations.QuarantineClearFreesEntry := by
  intro s v c awake
  rw [exec_quarantineClear awake, exec_quarantineClear awake]
  refine ⟨fun named => ?_, fun other => congrArg _ (quarClear_other (t := .ctx) other), fun named reserved => ?_,
    fun other => congrArg _ (quarClear_other (t := .res) other)⟩
  · obtain ⟨words, others, quar⟩ := quarClear_frees (t := .ctx) c named (.inl rfl)
    have head := words 0 (by decide)
    exact ⟨_, rfl, head, head ▸ ctxState_clearHead, fun w lo hi => (words w hi).trans (if_neg (by omega)), others, quar⟩
  · obtain ⟨words, others, quar⟩ := quarClear_frees (t := .res) c named (.inr reserved)
    have head := words 0 (by decide)
    exact ⟨_, rfl, head.trans clearHead_res, head ▸ resValid_clearHead, fun w lo hi => (words w hi).trans (if_neg (by omega)),
      others, quar⟩

end Sys2Proof.Machine
end

section
/-! PROOFS. What a transfer's work leaves as it was: everything that firmware looks at between commands, and of every channel its
queue and the ends and length of its transfer; and the statement on halted channels (R334). -/

namespace Sys2Proof.Machine

/-! ### The part of the state that a transfer's work keeps -/

/-- The ends and the length of a transfer. -/
abbrev Xfer.ends (x : Xfer) : Nat × Nat × Nat := (x.src, x.dst, x.len)

/-- What `Quiet` and the link notices look at. -/
def firmwareView (s : State) :=
  (s.fwDone, s.chanWaits, s.xferWaits, s.headWrites, s.descs, s.roots, s.reg Reg.FAB_STATUS)

/-- Channel k of Field f: its queue, and the ends and the length of its transfer. -/
def chanView (s : State) (f k : Nat) : List ChanItem × Option (Nat × Nat × Nat) :=
  ((s.chan f k).queue, (s.chan f k).cur.map Xfer.ends)

/-- What a transfer's work keeps. -/
def steadyView (s : State) := (firmwareView s, chanView s)

section
variable {s t : State} {o : Nat} {n k f x len w : Nat} {v : Word}

theorem Quiet.of_view (h : Quiet s) (same : firmwareView t = firmwareView s) : Quiet t := by
  simp only [firmwareView, Prod.mk.injEq] at same
  obtain ⟨fwDone, chanWaits, xferWaits, headWrites, descs, roots, -⟩ := same
  exact {
    fwDone := fwDone.trans h.fwDone
    chanWaits := chanWaits.trans h.chanWaits
    xferWaits := xferWaits.trans h.xferWaits
    headWrites := headWrites.trans h.headWrites
    descs := by rw [descs]; exact h.descs
    copies := by unfold State.root; rw [roots]; exact h.copies }

theorem portState_of_view (same : firmwareView t = firmwareView s) (p : Nat) : portState t p = portState s p := by
  simp only [firmwareView, Prod.mk.injEq] at same
  obtain ⟨-, -, -, -, -, -, status⟩ := same
  rw [portState, status, portState]

/-- A command whose effect firmware does not see has only that effect. -/
theorem settle_of_view (h : Quiet s) (same : firmwareView t = firmwareView s) : settle s t = t :=
  settle_quiet (h.of_view same) (portState_of_view same)

@[simp] theorem steadyView_ite (p : Prop) [Decidable p] :
    steadyView (if p then s else t) = if p then steadyView s else steadyView t := apply_ite steadyView p s t

/-! ### Registers -/

theorem steadyView_setReg (ne : o ≠ Reg.FAB_STATUS) : steadyView (s.setReg o v) = steadyView s := by
  have kept : (s.setReg o v).reg Reg.FAB_STATUS = s.reg Reg.FAB_STATUS := s.reg_setReg_ne v ne.symm
  rw [steadyView, firmwareView, kept]
  rfl

theorem steadyView_bump (ne : o ≠ Reg.FAB_STATUS) : steadyView (s.bump o k) = steadyView s := steadyView_setReg ne
theorem steadyView_raise (ne : o ≠ Reg.FAB_STATUS) : steadyView (s.raise o v) = steadyView s := steadyView_setReg ne

theorem fieldReg_ne_fabStatus (f o : Nat) : fieldReg f o ≠ Reg.FAB_STATUS := by
  simp only [fieldReg, fieldBase, Reg.FAB_STATUS]; omega

theorem coreReg_ne_fabStatus (n o : Nat) : coreReg n o ≠ Reg.FAB_STATUS := by
  simp only [coreReg, coreBase, fieldBase, Reg.FAB_STATUS]; omega

@[simp] theorem steadyView_setReg_core : steadyView (s.setReg (coreReg n o) v) = steadyView s :=
  steadyView_setReg (coreReg_ne_fabStatus n o)
@[simp] theorem steadyView_bump_core : steadyView (s.bump (coreReg n o) k) = steadyView s :=
  steadyView_setReg (coreReg_ne_fabStatus n o)
@[simp] theorem steadyView_raise_core : steadyView (s.raise (coreReg n o) v) = steadyView s :=
  steadyView_setReg (coreReg_ne_fabStatus n o)
@[simp] theorem steadyView_setReg_field : steadyView (s.setReg (fieldReg f o) v) = steadyView s :=
  steadyView_setReg (fieldReg_ne_fabStatus f o)
@[simp] theorem steadyView_bump_field : steadyView (s.bump (fieldReg f o) k) = steadyView s :=
  steadyView_setReg (fieldReg_ne_fabStatus f o)
@[simp] theorem steadyView_raise_field : steadyView (s.raise (fieldReg f o) v) = steadyView s :=
  steadyView_setReg (fieldReg_ne_fabStatus f o)

@[simp] theorem steadyView_offAccess : steadyView (offAccess s) = steadyView s := by
  rw [offAccess, steadyView_raise (by decide), steadyView_bump (by decide)]

@[simp] theorem steadyView_omapFail : steadyView (omapFail s v) = steadyView s := by
  rw [omapFail, steadyView_bump (by decide), steadyView_setReg (by decide)]

/-- A request that no route leads anywhere is counted. -/
@[simp] theorem steadyView_noRoute :
    steadyView ((s.bump Reg.FAB_NO_ROUTE_CNT k).raise Reg.FAB_ERR_STATUS v) = steadyView s := by
  rw [steadyView_raise (by decide), steadyView_bump (by decide)]

/-! ### Fields of the state that the view leaves out -/

@[simp] theorem steadyView_modCore (g : CoreState → CoreState) : steadyView (s.modCore n g) = steadyView s := rfl
@[simp] theorem steadyView_modField (g : FieldState → FieldState) : steadyView (s.modField f g) = steadyView s := rfl
@[simp] theorem steadyView_setPort (p : Port) : steadyView (s.setPort n p) = steadyView s := rfl
@[simp] theorem steadyView_emit (m : OutMsg) : steadyView (s.emit m) = steadyView s := rfl
@[simp] theorem steadyView_modHrw (g : HarrowState → HarrowState) : steadyView (modHrw s n g) = steadyView s := rfl
@[simp] theorem steadyView_setLane (l : HLane) : steadyView (setLane s n k l) = steadyView s := rfl
@[simp] theorem steadyView_waiters (l : List (Nat × XferOwner)) : steadyView { s with waiters := l } = steadyView s := rfl
@[simp] theorem steadyView_nmWb (l : List Nat) : steadyView { s with nmWb := l } = steadyView s := rfl
@[simp] theorem steadyView_fwServed : steadyView (fwServed s f) = steadyView s := rfl

@[simp] theorem steadyView_setTabWord (t : TabId) (e : Nat) (y : TabWord) : steadyView (setTabWord s t e w y) = steadyView s := by
  cases t <;> rfl
@[simp] theorem steadyView_setQuar (t : TabId) (l : List Nat) : steadyView (setQuar s t l) = steadyView s := by
  cases t <;> rfl

theorem steadyView_foldl {α : Type} {g : State → α → State} (same : ∀ s a, steadyView (g s a) = steadyView s) (l : List α)
    (s : State) : steadyView (l.foldl g s) = steadyView s := by
  induction l generalizing s with
  | nil => rfl
  | cons a l ih => rw [List.foldl_cons, ih, same]

@[simp] theorem steadyView_countStall (rank : Nat) : steadyView (countStall s n rank k) = steadyView s := by
  simp [countStall]

/-! ### Scratchpads -/

@[simp] theorem steadyView_spmOutOfPart : steadyView (spmOutOfPart s n) = steadyView s := by simp [spmOutOfPart]
@[simp] theorem steadyView_spmUe : steadyView (spmUe s n k w) = steadyView s := by simp [spmUe]
@[simp] theorem steadyView_spmCe (bit : Nat) : steadyView (spmCe s n k w bit) = steadyView s := by simp [spmCe]
@[simp] theorem steadyView_spmPoisonRead : steadyView (spmPoisonRead s n) = steadyView s := by simp [spmPoisonRead]

@[simp] theorem steadyView_sweepMeet : steadyView (sweepMeet s n k) = steadyView s := by
  simp [sweepMeet]

@[simp] theorem steadyView_spmReadWord (first : Bool) : steadyView (spmReadWord s n w first).st = steadyView s := by
  unfold spmReadWord
  split
  · simp
  · dsimp only
    split
    · simp
    · split <;> simp

@[simp] theorem steadyView_spmReadWords (first : Bool) : steadyView (spmReadWords k s n w first).st = steadyView s := by
  induction k generalizing s w first with
  | zero => rfl
  | succ k ih => simp [spmReadWords, ih]

@[simp] theorem steadyView_spmReadAsync : steadyView (spmReadAsync s n x len).2 = steadyView s := by
  unfold spmReadAsync spmRead
  dsimp only
  split <;> simp

@[simp] theorem steadyView_spmWriteWord (lo : Nat) (bs : List PByte) (was : Bool) :
    steadyView (spmWriteWord s n k w lo bs was) = steadyView s := by
  unfold spmWriteWord
  dsimp only
  split
  · simp
  · split
    · simp
    · split <;> simp

@[simp] theorem steadyView_spmInject : steadyView (spmInject s n w) = steadyView s := by
  simp [spmInject]

@[simp] theorem steadyView_spmWriteWords (fuel : Nat) (bs : List PByte) (was : Bool) :
    steadyView (spmWriteWords fuel s n k x bs was) = steadyView s := by
  induction fuel generalizing s x bs with
  | zero => rfl
  | succ fuel ih =>
    simp [spmWriteWords, ih]

@[simp] theorem steadyView_spmWriteGranule (bs : List PByte) (who : SpmReq) :
    steadyView (spmWriteGranule s n x bs who) = steadyView s := by
  unfold spmWriteGranule
  split <;> simp

@[simp] theorem steadyView_spmWrite (bs : List PByte) (who : SpmReq) : steadyView (spmWrite s n x bs who) = steadyView s := by
  suffices loop : ∀ fuel s x bs, steadyView (spmWriteLoop fuel s n x bs who) = steadyView s from loop _ _ _ _
  intro fuel
  induction fuel with
  | zero => intros; rfl
  | succ fuel ih =>
    intro s x bs
    simp [spmWriteLoop, ih]

/-! ### Near memory and weight stores -/

@[simp] theorem steadyView_nmDrop (rf : Nat) : steadyView (nmDrop s f rf) = steadyView s := by simp [nmDrop]

@[simp] theorem steadyView_wsDrop (rf : Nat) : steadyView (wsDrop s f rf) = steadyView s := by
  simp [wsDrop]

@[simp] theorem steadyView_recordCe (scrub : Bool) : steadyView (recordCe s f x scrub) = steadyView s := by
  simp [recordCe, ceThreshold]

@[simp] theorem steadyView_recordUe (scrub : Bool) : steadyView (recordUe s f x scrub) = steadyView s := by simp [recordUe]

@[simp] theorem steadyView_nmReadGran (rf : Nat) : steadyView (nmReadGran s f x rf).2 = steadyView s := by
  unfold nmReadGran
  split
  · simp
  · dsimp only
    split <;> simp

@[simp] theorem steadyView_nmRead (rf : Nat) : steadyView (nmRead s f x len rf).2 = steadyView s := by
  suffices loop : ∀ fuel s x len, steadyView (nmReadLoop fuel s f x len rf).2 = steadyView s from loop _ _ _ _
  intro fuel
  induction fuel with
  | zero => intros; rfl
  | succ fuel ih =>
    intro s x len
    unfold nmReadLoop
    split
    · rfl
    · simp [ih]

/-! ### Tables and generation checks -/

theorem tabReg_ne_fabStatus (t : TabId) (low : o < 0x600000) : tabReg t o ≠ Reg.FAB_STATUS := by
  cases t <;> simp only [tabReg, TabId.base, Reg.CTX_CAP, Reg.FAB_STATUS] <;> omega

theorem steadyView_setReg_tab (t : TabId) (low : o < 0x600000) : steadyView (s.setReg (tabReg t o) v) = steadyView s :=
  steadyView_setReg (tabReg_ne_fabStatus t low)
theorem steadyView_bump_tab (t : TabId) (low : o < 0x600000) : steadyView (s.bump (tabReg t o) k) = steadyView s :=
  steadyView_setReg (tabReg_ne_fabStatus t low)
theorem steadyView_raise_tab (t : TabId) (low : o < 0x600000) : steadyView (s.raise (tabReg t o) v) = steadyView s :=
  steadyView_setReg (tabReg_ne_fabStatus t low)

@[simp] theorem steadyView_tabRead (t : TabId) (e : Nat) (l : List Nat) : steadyView (tabRead s t e l).2 = steadyView s := by
  induction l generalizing s with
  | nil => rfl
  | cons w l ih =>
    unfold tabRead
    split <;> simp (disch := decide) [ih, steadyView_setReg_tab, steadyView_bump_tab, steadyView_raise_tab]

@[simp] theorem steadyView_tabInject (t : TabId) (e : Nat) : steadyView (tabInject s t e w) = steadyView s := by
  simp (disch := decide) [tabInject, steadyView_setReg_tab]

@[simp] theorem steadyView_tabWrite (t : TabId) (e : Nat) (l : List (Nat × Word)) :
    steadyView (tabWrite s t e l) = steadyView s := by
  induction l generalizing s with
  | nil => rfl
  | cons p l ih => simp [tabWrite, ih]

@[simp] theorem steadyView_genCheck (c g : Nat) : steadyView (genCheck s c g).2 = steadyView s := by
  unfold genCheck
  split
  · rfl
  · dsimp only
    split <;> simp

@[simp] theorem steadyView_outstanding (c : Nat) (g : Nat → Nat) : steadyView (outstanding s c g) = steadyView s := by
  unfold outstanding
  split
  · rfl
  · dsimp only
    split <;> simp

@[simp] theorem steadyView_checkedStart (c g : Nat) : steadyView (checkedStart s c g).2 = steadyView s := by
  unfold checkedStart
  dsimp only
  split <;> simp

@[simp] theorem steadyView_checkedReq (c g : Nat) : steadyView (checkedReq s c g).2 = steadyView s := by
  unfold checkedReq
  dsimp only
  split
  · simp
  · rw [steadyView_bump (by decide), steadyView_genCheck]

/-! ### Packets -/

@[simp] theorem steadyView_putPacket (p : Nat) (b : FabPacket) : steadyView (putPacket s p b) = steadyView s := by
  have ne : portReg p Reg.FAB_Pp_TX_CNT ≠ Reg.FAB_STATUS := by
    simp only [portReg, Reg.FAB_Pp_TX_CNT, Reg.FAB_STATUS]; omega
  rw [putPacket, steadyView_bump ne, steadyView_emit, steadyView_setPort]

@[simp] theorem steadyView_sendWaiting (fuel p : Nat) : steadyView (sendWaiting fuel s p) = steadyView s := by
  induction fuel generalizing s with
  | zero => rfl
  | succ fuel ih =>
    unfold sendWaiting
    split <;> simp [ih]

@[simp] theorem steadyView_sendTo (d : Nat) (b : FabBody) : steadyView (sendTo s d b) = steadyView s := by
  unfold sendTo sendPacket
  split <;> simp

/-! ### A channel, and a transfer -/

/-- A channel may change where it keeps its queue and the ends of its transfer. -/
theorem steadyView_setChan {c : Chan} (queue : c.queue = (s.chan f k).queue)
    (ends : c.cur.map Xfer.ends = (s.chan f k).cur.map Xfer.ends) : steadyView (s.setChan f k c) = steadyView s := by
  refine congrArg (firmwareView s, ·) (funext fun i => funext fun j => ?_)
  unfold chanView State.chan State.setChan
  rw [getD_setIfInBounds]
  split
  next hi =>
    obtain ⟨rfl, -⟩ := hi
    rw [getD_setIfInBounds]
    split
    next hj =>
      obtain ⟨rfl, -⟩ := hj
      rw [queue, ends]
      rfl
    next => rfl
  next => rfl

theorem steadyView_setXfer {o : XferOwner} {y z : Xfer} (cur : getXfer s o = some y) (ends : z.ends = y.ends) :
    steadyView (setXfer s o z) = steadyView s := by
  cases o with
  | chan f k =>
    have cur : (s.chan f k).cur = some y := cur
    exact steadyView_setChan rfl (by rw [cur, Option.map_some, Option.map_some, ends])
  | skq n e => rfl
  | bucker f => rfl
  | forester f => rfl
  | surveyor => rfl

@[simp] theorem steadyView_modXfer {o : XferOwner} {g : Xfer → Xfer} (ends : ∀ y, (g y).ends = y.ends) :
    steadyView (modXfer s o g) = steadyView s := by
  unfold modXfer
  split
  next cur => exact steadyView_setXfer cur (ends _)
  next => rfl

@[simp] theorem Xfer.src_fail (y : Xfer) (c : Nat) : (y.fail c).src = y.src := by unfold Xfer.fail; split <;> rfl
@[simp] theorem Xfer.dst_fail (y : Xfer) (c : Nat) : (y.fail c).dst = y.dst := by unfold Xfer.fail; split <;> rfl
@[simp] theorem Xfer.len_fail (y : Xfer) (c : Nat) : (y.fail c).len = y.len := by unfold Xfer.fail; split <;> rfl

@[simp] theorem steadyView_addWaiter (p : Nat) (o : XferOwner) : steadyView (addWaiter s p o) = steadyView s := by
  unfold addWaiter
  split
  · rfl
  · dsimp only
    split
    · simp
    · split
      · simp
      · split <;> simp

/-! ### The requests of a transfer -/

section
variable {own : XferOwner} {bs : List PByte} {granted : Bool} {dst part : Nat}

@[simp] theorem steadyView_issueTxn (p : Nat) (write : Bool) (addr : Nat) (host : Option Nat) :
    steadyView (issueTxn s own p write addr dst part len bs host) = steadyView s := by
  have queued (u : State) (l : List Txn) (i : Nat) : steadyView { u with txns := l, txnSeq := i } = steadyView u := rfl
  unfold issueTxn
  dsimp only
  split
  · rw [steadyView_sendTo, queued]
    split <;> simp
  · rw [queued]
    split <;> simp

@[simp] theorem steadyView_countMoved : steadyView (countMoved s own len) = steadyView s := by
  unfold countMoved
  dsimp only
  split <;> simp

@[simp] theorem steadyView_xferGenOk : steadyView (xferGenOk s own).2 = steadyView s := by
  unfold xferGenOk
  split
  · split <;> simp
  · rfl

theorem steadyView_sendBytes : ∀ t ∈ sendBytes s own dst part bs granted, steadyView t = steadyView s := by
  unfold sendBytes
  dsimp only
  split
  · split
    · simp
    · split <;> simp
  · split <;> simp
  · simp
  · split
    · simp
    · split
      · simp
      · split <;> simp
  · simp
  · split
    · simp
    · split <;> simp
  · simp
  · simp

/-- The state that the beginning of a read leaves. -/
def ReadStart.after (s : State) : ReadStart → State
  | .got _ t => t
  | .sent t => t
  | .full _ => s
  | .lost => s

theorem steadyView_startRead (src : Nat) :
    steadyView ((startRead s own src dst part len granted).after s) = steadyView s := by
  have send (p : Nat) (host : Option Nat) :
      steadyView ((if mayIssue s own p granted then .sent (issueTxn s own p false src dst part len [] host)
        else .full p : ReadStart).after s) = steadyView s := by
    split <;> simp [ReadStart.after]
  unfold startRead
  dsimp only
  split
  · split <;> simp [ReadStart.after]
  · exact send _ _
  · exact send _ _
  · split
    · simp [ReadStart.after]
    · exact send _ _
  · rfl
  · split
    · rfl
    · exact send _ _
  · simp [ReadStart.after]
  · simp [ReadStart.after]

theorem steadyView_startRead_got {src : Nat} (r : startRead s own src dst part len granted = .got bs t) :
    steadyView t = steadyView s := by
  have same := steadyView_startRead (s := s) (own := own) (dst := dst) (part := part) (len := len) (granted := granted) src
  rwa [r] at same

theorem steadyView_startRead_sent {src : Nat} (r : startRead s own src dst part len granted = .sent t) :
    steadyView t = steadyView s := by
  have same := steadyView_startRead (s := s) (own := own) (dst := dst) (part := part) (len := len) (granted := granted) src
  rwa [r] at same

@[simp] theorem steadyView_passOn : steadyView (passOn s own dst part bs granted) = steadyView s := by
  have marks (u : State) : steadyView (modXfer u own fun y => if y.code = 0 then { y with code := 2 } else y) = steadyView u :=
    steadyView_modXfer fun y => by split <;> rfl
  unfold passOn
  split
  next => rfl
  next y cur =>
    split
    · rfl
    split
    · exact steadyView_setXfer cur rfl
    extract_lets u hold
    have marked : steadyView u = steadyView s := by
      dsimp only [u]
      split <;> simp [marks]
    split
    · simp [hold, marked]
    split
    next sent => exact (steadyView_sendBytes _ sent).trans marked
    next => split <;> simp [hold, marked]

@[simp] theorem steadyView_passOrdered (fuel : Nat) : steadyView (passOrdered fuel s own granted) = steadyView s := by
  induction fuel generalizing s with
  | zero => rfl
  | succ fuel ih =>
    unfold passOrdered
    split
    · rfl
    · split <;> simp [ih]

@[simp] theorem steadyView_passData : steadyView (passData s own dst part bs granted) = steadyView s := by
  unfold passData
  split
  next => rfl
  next y cur =>
    have queued : steadyView (setXfer s own { y with early := y.early ++ [(dst, bs)] }) = steadyView s :=
      steadyView_setXfer cur rfl
    split <;> simp [queued]

@[simp] theorem steadyView_lostRead (c : Nat) : steadyView (lostRead s own dst part len c) = steadyView s := by
  simp [lostRead]

/-! ### Coded blocks -/

@[simp] theorem steadyView_openChanStream (c : Nat) (y : Xfer) : steadyView (openChanStream s n c y) = steadyView s := by
  simp [openChanStream]

@[simp] theorem steadyView_blockEnter (y : Xfer) (stream : Nat) : steadyView (blockEnter s own y stream bs).1 = steadyView s := by
  unfold blockEnter
  split
  · rfl
  · dsimp only
    split
    · rfl
    · split <;> simp

@[simp] theorem steadyView_blockArrived (y : Xfer) : steadyView (blockArrived s own y bs) = steadyView s := by
  unfold blockArrived
  dsimp only
  split
  · split
    · rfl
    · simp
  · simp [steadyView_foldl]
  · rfl

@[simp] theorem steadyView_blockStep (y : Xfer) : steadyView (blockStep s own y granted).1 = steadyView s := by
  unfold blockStep
  extract_lets b absorb
  have absorbed (u : State) (src m : Nat) (keep : List PByte → Xfer → Xfer) (ends : ∀ l z, (keep l z).ends = z.ends) :
      steadyView (absorb u (startRead u own src 0 0 m granted) m keep).1 = steadyView u := by
    dsimp only [absorb]
    split
    next r => exact (steadyView_modXfer (ends _)).trans (steadyView_startRead_got r)
    next r => exact steadyView_startRead_sent r
    next => simp
    next => exact steadyView_modXfer fun z => by simpa using ends (List.replicate m (0, true)) z
  clear_value absorb
  split
  · rfl
  split
  · rw [absorbed]
    exact fun _ _ => rfl
  next hdr =>
    extract_lets u z l u' r
    have striped : steadyView u = steadyView s := by
      dsimp only [u]
      split <;> simp
    have opened : steadyView u' = steadyView s := by
      dsimp only [u']
      split <;> simp [striped]
    have entered : steadyView r.1 = steadyView s := by
      dsimp only [r]
      split <;> simp [opened]
    clear_value r u' l z u
    split
    · exact entered
    split
    · rw [absorbed, entered]
      exact fun _ _ => rfl
    · exact (steadyView_blockArrived z).trans entered

/-! ### A transfer moves on -/

@[simp] theorem steadyView_moveOn : steadyView (moveOn s own granted).1 = steadyView s := by
  unfold moveOn
  split
  · rfl
  split
  · rfl
  split
  · split
    next sent => simp [steadyView_sendBytes _ sent]
    next => dsimp only; split <;> simp
  split
  · split
    · rfl
    · dsimp only
      split
      next => simp
      next r => simp [steadyView_startRead_sent r]
      next r => simp [steadyView_startRead_got r]
      next => simp
  · dsimp only
    split
    next => simp
    next r => simp [steadyView_startRead_sent r]
    next r => simp [steadyView_startRead_got r]
    next => simp
  · simp
  · simp
  · rfl

@[simp] theorem steadyView_pump (fuel : Nat) : steadyView (pump fuel s own) = steadyView s := by
  induction fuel generalizing s with
  | zero => rfl
  | succ fuel ih => simp [pump, ih]

end

@[simp] theorem steadyView_pumpAll_chan : steadyView (pumpAll s (.chan f k)) = steadyView s := by
  unfold pumpAll
  dsimp only
  split <;> simp

/-! ### A transfer starts on a channel -/

theorem steadyView_rangeCode {a : Nat} {write : Bool} : ∀ r ∈ rangeCode s a len write, steadyView r.2 = steadyView s := by
  unfold rangeCode
  split
  · simp
  · simp
  · split
    · simp
    · simp
  · simp

theorem steadyView_startXfer (y : Xfer) : steadyView (startXfer s y).2 = steadyView s := by
  unfold startXfer
  split
  · rfl
  split
  next found =>
    obtain ⟨_, -, found⟩ := List.exists_of_findSome?_eq_some found
    exact steadyView_rangeCode _ found
  next =>
    split
    · dsimp only
      split <;> simp
    · rfl

theorem startXfer_ends (y : Xfer) : (startXfer s y).1.ends = y.ends := by
  unfold startXfer
  split
  · rfl
  split
  · simp
  · split
    · dsimp only
      split <;> simp
    · rfl

@[simp] theorem steadyView_joinEncoder (y : Xfer) : steadyView (joinEncoder s k y) = steadyView s := by
  unfold joinEncoder
  split <;> simp

/-- Once its transfer stands on the channel, what a start moves at once changes no view. -/
theorem steadyView_chanRun (y : Xfer) (p : Option Purpose) :
    steadyView (chanRun s f k y p)
      = steadyView ((startXfer s y).2.setChan f k
          { (startXfer s y).2.chan f k with cur := some (startXfer s y).1, purpose := p }) := by
  simp [chanRun]

theorem firmwareView_chanRun (y : Xfer) (p : Option Purpose) : firmwareView (chanRun s f k y p) = firmwareView s :=
  (congrArg Prod.fst (steadyView_chanRun y p)).trans (congrArg Prod.fst (steadyView_startXfer y))

theorem chanView_chanRun (y : Xfer) (p : Option Purpose) (hf : f < 4) (hk : k < 16) :
    chanView (chanRun s f k y p) f k = ((s.chan f k).queue, some y.ends) := by
  have run := congrFun (congrFun (congrArg Prod.snd (steadyView_chanRun (s := s) (f := f) (k := k) y p)) f) k
  have start := congrFun (congrFun (congrArg Prod.snd (steadyView_startXfer (s := s) y)) f) k
  simp only [steadyView, chanView, Prod.mk.injEq] at start
  refine run.trans ?_
  simp only [steadyView, chanView]
  rw [State.chan_setChan_same _ _ hf hk, Option.map_some, startXfer_ends, start.1]

/-! ### Firmware reads a record -/

theorem steadyView_readRecord_got {a : Nat} {host bs : List PByte} (r : readRecord s f a len host = .got bs t) :
    steadyView t = steadyView s := by
  unfold readRecord at r
  split at r
  · split at r
    · cases r
    split at r
    · cases r
    · dsimp only at r
      split at r
      · cases r; simp
      · cases r
  · cases r
  · split at r
    · cases r
    · dsimp only at r
      split at r
      · cases r; simp
      · cases r
  · split at r
    · cases r
    · split at r
      · cases r; rfl
      · cases r
  · cases r

/-! ### The channel's commands -/

theorem chanStart_halted {host : List PByte} (halted : (s.chan f k).halted = true) : chanStart s f k host = s := by
  unfold chanStart
  dsimp only
  rw [halted]
  split
  · rfl
  · split
    next h _ => cases h
    next h _ => cases h
    next => rfl

/-- A channel that is free, not halted and whose first record can be read starts it. -/
theorem chanStart_record {host bs : List PByte} {a : Nat} {rest : List ChanItem} {u : State} (live : fieldInReset s f = false)
    (free : (s.chan f k).cur = none) (going : (s.chan f k).halted = false) (queue : (s.chan f k).queue = .record a :: rest)
    (read : readRecord s f a 64 host = .got bs u) (clean : anyPoison bs = false) :
    chanStart s f k host = chanRun (u.setChan f k { u.chan f k with queue := rest }) f k (parseChanRec (plain bs)) none := by
  simp [chanStart, live, free, going, queue, read, clean]

theorem chanPost_room (hi : Word) (room : (s.chan f k).queue.length < 8) :
    ∃ a, chanPost s f k hi = s.setChan f k { s.chan f k with queue := (s.chan f k).queue ++ [.record a] } :=
  ⟨_, if_pos room⟩

/-- A write to SKDn_ABORT that names a halted channel. -/
theorem skidderAbort_halted (chan : flag v 30 = false) (named : bits v 27 24 = k) (halted : (s.chan f k).halted = true) :
    skidderAbort s f v = s.setChan f k { s.chan f k with halted := false } := by
  simp [skidderAbort, chan, named, halted]

theorem exec_channelRecordStart {host : List PByte} (reach : fieldReachable s f = true) (on : domOn s (48 + f) = true) :
    exec (.channelRecordStart f k host) s = .next (settle s (chanStart s f k host)) :=
  onField_runs (f := (chanStart · f k host)) reach on

theorem exec_channelPost {hi : Word} (reach : fieldReachable s f = true) (on : domOn s (48 + f) = true) (hk : k < 16) :
    exec (.channelPost f k hi) s = .next (chanPost s f k hi) := by
  obtain ⟨awake, here, -⟩ := fieldReachable_iff.mp reach
  have runs := atField_runs (f := fun s => if k < 16 then chanPost s f k hi else s) awake here on
  rw [if_pos hk] at runs
  exact runs

theorem exec_skidderAbort (reach : fieldReachable s f = true) (on : domOn s (48 + f) = true) :
    exec (.skidderAbort f v) s = .next (settle s (skidderAbort s f v)) := by
  obtain ⟨awake, here, -⟩ := fieldReachable_iff.mp reach
  exact atField_runs (f := fun s => settle s (skidderAbort s f v)) awake here on

theorem field_lt (reach : fieldReachable s f = true) : f < 4 := by
  obtain ⟨-, here, -⟩ := fieldReachable_iff.mp reach
  have fits : fieldCount s.part ≤ 4 := by cases s.part <;> decide
  exact Nat.lt_of_lt_of_le (of_decide_eq_true here) fits

/-- A free channel's record starts, and firmware has nothing to do then. -/
theorem exec_channelRecordStart_record {host bs : List PByte} {a : Nat} {rest : List ChanItem} {u : State}
    (reach : fieldReachable s f = true) (on : domOn s (48 + f) = true) (hk : k < 16) (quiet : Quiet s)
    (free : (s.chan f k).cur = none) (going : (s.chan f k).halted = false) (queue : (s.chan f k).queue = .record a :: rest)
    (read : readRecord s f a 64 host = .got bs u) (clean : anyPoison bs = false) :
    ∃ t, exec (.channelRecordStart f k host) s = .next t
      ∧ chanView t f k = (rest, some (parseChanRec (plain bs)).ends) := by
  obtain ⟨-, -, live⟩ := fieldReachable_iff.mp reach
  have hf := field_lt reach
  let dequeued := u.setChan f k { u.chan f k with queue := rest }
  have run := chanStart_record live free going queue read clean
  have unseen : firmwareView (chanRun dequeued f k (parseChanRec (plain bs)) none) = firmwareView s :=
    (firmwareView_chanRun _ _).trans (congrArg Prod.fst (steadyView_readRecord_got read))
  refine ⟨_, exec_channelRecordStart reach on, ?_⟩
  rw [run, settle_of_view quiet unseen, chanView_chanRun _ _ hf hk, State.chan_setChan_same _ _ hf hk]

end

/-- Settles O22: a halted channel's start does nothing, and the end of its halt leaves a channel that starts as any other. -/
theorem haltedChannelHoldsItsRecords : Obligations.HaltedChannelHoldsItsRecords := by
  intro s f k host v hi reach on hk quiet halted chan named resumed
  have hf := field_lt reach
  have ended : resumed.chan f k = { s.chan f k with halted := false } := s.chan_setChan_same _ hf hk
  have quiet' : Quiet resumed := quiet.of_view rfl
  refine ⟨?_, fun room => ?_, ?_, fun a rest b u free queue read clean => ?_⟩
  · rw [exec_channelRecordStart reach on, chanStart_halted halted, settle_of_view quiet rfl]
  · obtain ⟨a, post⟩ := chanPost_room hi room
    refine ⟨_, a, exec_channelPost reach on hk, ?_⟩
    rw [post, State.chan_setChan_same _ _ hf hk]
    exact ⟨rfl, halted⟩
  · rw [exec_skidderAbort reach on, skidderAbort_halted chan named halted, settle_of_view (t := resumed) quiet rfl]
  · obtain ⟨t, run, view⟩ := exec_channelRecordStart_record (s := resumed) reach on hk quiet' (by rw [ended]; exact free)
      (by rw [ended]) (by rw [ended]; exact queue) read clean
    simp only [chanView, Prod.mk.injEq, Option.map_eq_some_iff] at view
    obtain ⟨left, y, cur, src, dst, len⟩ := view
    exact ⟨t, y, run, left, cur, src, dst, len⟩

end Sys2Proof.Machine
end
